-- ==== Sys2Proof/Word.lean ====
section
/-!
DEFINITION. The words of the LH9: bit 0 is the least significant bit (R1), and a multi-byte value
has its least significant byte at its lowest address (R2).
-/
namespace Sys2Proof

abbrev Byte := BitVec 8
abbrev Half := BitVec 16
/-- a 32-bit register word -/
abbrev Word := BitVec 32
/-- a 64-bit register pair, address or program counter -/
abbrev DWord := BitVec 64
/-- one bit for each of the W = 32 lanes of a group (R22) -/
abbrev Mask := BitVec 32
/-- a 128-bit tile header (R95) -/
abbrev Header := BitVec 128
/-- a 128-byte line, bit 8k to 8k + 7 being byte k (R2, R116) -/
abbrev Line := BitVec 1024

end Sys2Proof
end

