-- ==== Sys2Proof/Syntax.lean ====
section
/-!
DEFINITION. The instructions of Corsyne and the events of the LH9, one constructor for each row of
the opcode table. Register numbers, types, modifiers, orders and scopes are named here once; no raw
encoding passes beyond Decode.
-/
namespace Sys2Proof

/-- An operand field of R272; 196 is `zero`, 197 the thread index. -/
inductive Opd where
  | v (n : BitVec 7)
  | s (n : BitVec 6)
  | q (n : BitVec 2)
  | zero
  | tid
deriving DecidableEq, Repr, Inhabited

/-- The element formats a type suffix names (R7). -/
inductive Ty where
  | f32 | f16 | bf16 | e4m3 | e5m2 | e3m2 | e2m1 | e8m0 | res48
  | i4 | i8 | i16 | i32 | i64
  | n4 | n8 | n16 | n32 | n64
  | b32 | b64
deriving DecidableEq, Repr, Inhabited

/-- A source modifier (R78, R274). -/
inductive SrcMod where
  | none | lo | hi | sw
  | b (k : BitVec 2)
  | k (n : BitVec 3)
deriving DecidableEq, Repr, Inhabited

/-- A destination half (R79, R274). -/
inductive DstHalf where
  | none | lo | hi
deriving DecidableEq, Repr, Inhabited

/-- The order suffix of a memory access (R8, R278). -/
inductive Order where
  | rlx | acq | rel | ar
deriving DecidableEq, Repr, Inhabited

/-- The scope suffix (R8, R278). -/
inductive Scope where
  | gang | span | die | dev | sys
deriving DecidableEq, Repr, Inhabited

/-- The schedule field (R264). -/
structure Sched where
  ru  : BitVec 2
  yld : Bool
  w2  : BitVec 3
  w1  : BitVec 3
  set : BitVec 3
  la  : BitVec 4
deriving DecidableEq, Repr, Inhabited

/-- The guard (R271): a predicate, negated or not. -/
structure Guard where
  neg : Bool
  p   : BitVec 3
deriving DecidableEq, Repr, Inhabited

/-- What every instruction word carries beside its operands: schedule field and guard. -/
structure Hdr where
  sched : Sched
  guard : Guard
deriving DecidableEq, Repr, Inhabited

/-- A register-variant arithmetic word (R270, R275). -/
structure RForm where
  ty   : Ty
  sub  : BitVec 3
  half : DstHalf
  d : Opd
  a : Opd
  b : Opd
  c : Opd
  ma : SrcMod
  mb : SrcMod
deriving DecidableEq, Repr, Inhabited

/-- A conversion word (R331): destination type, source type, element index or mode. -/
structure CForm where
  dt : Ty
  st : Ty
  k  : BitVec 3
  d  : Opd
  a  : Opd
  ma : SrcMod
deriving DecidableEq, Repr, Inhabited

/-- A compare word writing a predicate (R336, R346). -/
structure PForm where
  ty : Ty
  cond : BitVec 3
  pd : BitVec 3
  a  : Opd
  b  : Opd
  ma : SrcMod
  mb : SrcMod
deriving DecidableEq, Repr, Inhabited

/-- An immediate-variant word (R277). -/
structure IForm where
  d : Opd
  a : Opd
  imm : Word
  w : Bool
deriving DecidableEq, Repr, Inhabited

/-- A memory-variant word (R278). -/
structure MForm where
  d : Opd
  a : Opd
  b : Opd
  off : BitVec 20
  ord : Order
  scope : Scope
deriving DecidableEq, Repr, Inhabited

/-- A register-variant word of the memory, scene, engine or system class: four operand fields. -/
structure Regs where
  d : Opd
  a : Opd
  b : Opd
  c : Opd
deriving DecidableEq, Repr, Inhabited

/-- The width and extension of a load (R351). -/
inductive LdW where
  | i8 | n8 | i16 | n16 | b32 | b64
deriving DecidableEq, Repr, Inhabited

/-- The width of a store (R382). -/
inductive StW where
  | b8 | b16 | b32 | b64
deriving DecidableEq, Repr, Inhabited

/-- The operation of `ATOM` and `MRED` (R304). -/
inductive AtomOp where
  | add | min | max | and | or | xor | exch
deriving DecidableEq, Repr, Inhabited

/-- An atomic word (R302, R304, R363). -/
structure AForm where
  ty : Ty
  ord : Order
  scope : Scope
  d : Opd
  a : Opd
  b : Opd
  c : Opd
deriving DecidableEq, Repr, Inhabited

/-- The forms of `BDEC` (R246, R308). -/
inductive BdecKind where
  | fix | eg | pfx
deriving DecidableEq, Repr, Inhabited

/-- The control registers of R282. -/
inductive Csr where
  | gwidth | frm | fflags | gid | gangid | spanid | launchid | coreid | dieid | ctxid | fltgen | clock
  | trapcause | trapinfo | trappc | parkmask | tagstate | divstack | wsel | wdata
deriving DecidableEq, Repr, Inhabited

/-- The half opcodes of a dual word (R285). -/
inductive HalfOp where
  | nop | iadd | isub | imul | imin | imax | land | lor | lxor | shl | shr | mov
  | fadd | fmul | fmin | fmax | fscale | fmaxe
deriving DecidableEq, Repr, Inhabited

/-- A half-instruction (R284). -/
structure HalfW where
  op : HalfOp
  d : BitVec 7
  s : BitVec 7
  ty : Ty
  m : SrcMod
deriving DecidableEq, Repr, Inhabited

/-- What a request that exhausted its link retries was (R253, R256). -/
inductive LostReq where
  /-- a tagged read of a group: place and tag -/
  | read (place tag : Nat)
  /-- an instruction fetch of a group -/
  | fetch (place : Nat)
  /-- the store at the head of a group's queue -/
  | store (place : Nat)
  /-- the next unit of a group's `TST` -/
  | tst (place : Nat)
  /-- an access that the word at a group's program counter makes as it issues -/
  | word (place : Nat)
  /-- the counter read of a group's `CWAIT` -/
  | cwait (place : Nat)
  /-- the n-th pending counter add of a unit -/
  | add (n : Nat)
  /-- the n-th pending push -/
  | push (n : Nat)
  /-- the shoot-down a group's tag waits for -/
  | shootdown (place tag : Nat)
  /-- the wake-up of a parked `CWAIT` -/
  | wake (place : Nat)
  /-- a write-back of a line of a core's L1 -/
  | copy (core ctx va : Nat)
  /-- an access of an engine's head request, of a splicer's or a coiler's head command -/
  | engine (die eng : Nat)
  | splicer (die n : Nat)
  | coiler (die n : Nat)
  /-- an access of a hardware queue, or of the scheduler for a task -/
  | submit (q : Nat)
  | task (q seqNo : Nat)
  /-- a read of a die's memory over the GDDR-7 interface (R137, R256) -/
  | memory (die addr : Nat)
deriving DecidableEq, Repr, Inhabited

/-- A port whose link comes up, and how many of its virtual functions the host enables (R247, R250). -/
structure PortUp where
  port : Nat
  vfs : Nat
deriving DecidableEq, Repr, Inhabited

/-- The protected structures whose corrected errors are counted; of a memory-side TLB, which entry of which slice (R251). -/
inductive CeKind where
  | reg | stash | l1 | icache | l2 | dir
  | tlb (slice n : Nat)
deriving DecidableEq, Repr, Inhabited

/-- One constructor for each row of the opcode table. The first 129 are instruction words; the rest
are the machine's own events (95_what_each_step_holds), which name the unit they happen in. A place
is numbered core × 512 + slice × 128 + pipe × 4 + place and a core die × 176 + core (R15, R200). -/
inductive Instr where
  -- integer and bit
  | iadd (h : Hdr) (r : RForm)
  | iaddImm (h : Hdr) (r : IForm)
  | isub (h : Hdr) (r : RForm)
  | isubImm (h : Hdr) (r : IForm)
  | imin (h : Hdr) (r : RForm)
  | imax (h : Hdr) (r : RForm)
  | iabs (h : Hdr) (r : RForm)
  | imul (h : Hdr) (r : RForm)
  | imulImm (h : Hdr) (r : IForm)
  | imulh (h : Hdr) (r : RForm)
  | imad (h : Hdr) (r : RForm)
  | idp4 (h : Hdr) (r : RForm)
  | icmp (h : Hdr) (r : PForm)
  | icmpImm (h : Hdr) (pd cond : BitVec 3) (sgn : Bool) (r : IForm)
  | sel (h : Hdr) (pc : BitVec 3) (r : RForm)
  | logic (h : Hdr) (r : RForm)
  | logicImm (h : Hdr) (f : BitVec 3) (r : IForm)
  | shl (h : Hdr) (r : RForm)
  | shlImm (h : Hdr) (r : IForm)
  | shr (h : Hdr) (r : RForm)
  | shrImmLogical (h : Hdr) (r : IForm)
  | shrImmArith (h : Hdr) (r : IForm)
  | bfx (h : Hdr) (r : RForm)
  | bfi (h : Hdr) (r : RForm)
  | popc (h : Hdr) (r : RForm)
  | clz (h : Hdr) (r : RForm)
  | brev (h : Hdr) (r : RForm)
  | lea (h : Hdr) (r : RForm)
  | mov (h : Hdr) (r : RForm)
  | movi (h : Hdr) (r : IForm)
  | bperm (h : Hdr) (r : RForm)
  | plog (h : Hdr) (f pd pa pb : BitVec 3)
  -- float
  | fadd (h : Hdr) (r : RForm)
  | fmul (h : Hdr) (r : RForm)
  | ffma (h : Hdr) (r : RForm)
  | fmin (h : Hdr) (r : RForm)
  | fmax (h : Hdr) (r : RForm)
  | fcmp (h : Hdr) (r : PForm)
  | frcp (h : Hdr) (r : RForm)
  | frsq (h : Hdr) (r : RForm)
  | fsqrt (h : Hdr) (r : RForm)
  | fexp2 (h : Hdr) (r : RForm)
  | flog2 (h : Hdr) (r : RForm)
  | fsin (h : Hdr) (r : RForm)
  | fcos (h : Hdr) (r : RForm)
  | ftanh (h : Hdr) (r : RForm)
  | fscale (h : Hdr) (r : RForm)
  | fmaxe (h : Hdr) (r : RForm)
  | frnd (h : Hdr) (r : RForm)
  | fcvt (h : Hdr) (r : CForm)
  | f2i (h : Hdr) (r : CForm)
  | i2f (h : Hdr) (r : CForm)
  | fclass (h : Hdr) (r : RForm)
  | fdot2 (h : Hdr) (r : RForm)
  -- cross-lane and quad
  | shfl (h : Hdr) (r : RForm)
  | qswap (h : Hdr) (r : RForm)
  | qdiff (h : Hdr) (r : RForm)
  | ballot (h : Hdr) (d : Opd) (pa : BitVec 3)
  | mpopc (h : Hdr) (mode : BitVec 3) (d : Opd) (pa : BitVec 3)
  | vote (h : Hdr) (mode pd pa : BitVec 3)
  | elect (h : Hdr) (pd : BitVec 3)
  | matchEq (h : Hdr) (r : RForm)
  | lred (h : Hdr) (r : RForm)
  | lscan (h : Hdr) (r : RForm)
  -- control
  | bra (h : Hdr) (t : Word)
  | brx (h : Hdr) (a : Opd)
  | brd (h : Hdr) (t : Word) (j : Half)
  | join (h : Hdr)
  | call (h : Hdr) (d : Opd) (t : Word)
  | ret (h : Hdr) (a : Opd)
  | exit (h : Hdr)
  | nop (h : Hdr)
  | yield (h : Hdr)
  | trap (h : Hdr) (imm : Word)
  | spawn (h : Hdr) (first : Opd) (count : BitVec 4) (x : Bool) (t : Word)
  -- memory and synchronisation
  | ld (h : Hdr) (w : LdW) (m : MForm)
  | st (h : Hdr) (w : StW) (m : MForm)
  | lds (h : Hdr) (w : LdW) (m : MForm)
  | sts (h : Hdr) (w : StW) (m : MForm)
  | sinj (h : Hdr) (w : StW) (m : MForm)
  | pref (h : Hdr) (m : MForm)
  | smap (h : Hdr) (r : Regs)
  | sunmap (h : Hdr) (r : Regs)
  | wbr (h : Hdr) (r : Regs)
  | invr (h : Hdr) (r : Regs)
  | fence (h : Hdr) (ord : Order) (scope : Scope)
  | atom (h : Hdr) (op : AtomOp) (r : AForm)
  | acas (h : Hdr) (r : AForm)
  | mred (h : Hdr) (op : AtomOp) (r : AForm)
  | cadd (h : Hdr) (scope : Scope) (r : Regs)
  | cwait (h : Hdr) (scope : Scope) (r : Regs)
  | crd (h : Hdr) (ord : Order) (scope : Scope) (r : Regs)
  | rlog (h : Hdr) (r : Regs)
  -- tile
  | thdrToH (h : Hdr) (hd : BitVec 4) (x : Opd)
  | thdrFromH (h : Hdr) (ha : BitVec 4) (x : Opd)
  | tchk (h : Hdr) (ha : BitVec 4) (pd : BitVec 3)
  | tld (h : Hdr) (hd : BitVec 4) (x : Opd) (off : BitVec 20) (ord : Order) (scope : Scope)
  | tst (h : Hdr) (ha : BitVec 4) (x : Opd) (off : BitVec 20) (ord : Order) (scope : Scope)
  | tzero (h : Hdr) (hd : BitVec 4)
  | ttrans (h : Hdr) (hd ha : BitVec 4)
  | mma (h : Hdr) (z : Bool) (hd ha hb : BitVec 4)
  | tcvt (h : Hdr) (hd ha : BitVec 4)
  | tres (h : Hdr) (hd ha : BitVec 4) (f : BitVec 6)
  | tcrt (h : Hdr) (hd ha : BitVec 4)
  -- scene and engines
  | ntest (h : Hdr) (r : Regs)
  | hitk (h : Hdr) (r : Regs)
  | trvpush (h : Hdr) (r : Regs)
  | trvpop (h : Hdr) (r : Regs)
  | morton (h : Hdr) (r : Regs)
  | qbox (h : Hdr) (fr : Bool) (r : Regs)
  | bld (h : Hdr) (r : Regs)
  | cmpct (h : Hdr) (r : Regs)
  | nfmt (h : Hdr) (r : Regs)
  | kick (h : Hdr) (r : Regs)
  | sstart (h : Hdr) (r : Regs)
  | sstop (h : Hdr) (r : Regs)
  | bdec (h : Hdr) (kind : BdecKind) (k : BitVec 10) (r : Regs)
  -- system
  | csrr (h : Hdr) (csr : Csr) (d : Opd)
  | csrw (h : Hdr) (csr : Csr) (a : Opd)
  | tret (h : Hdr)
  | tretSave (h : Hdr)
  | tretKill (h : Hdr)
  | pld (h : Hdr) (m : MForm)
  | pst (h : Hdr) (m : MForm)
  | tlbf (h : Hdr) (r : Regs)
  | tlbi (h : Hdr) (rc : Bool) (r : Regs)
  | frec (h : Hdr) (r : Regs)
  | bkpt (h : Hdr)
  | dualWord (sched : Sched) (h0 h1 : HalfW)
  -- events: issue and completion
  | instructionFetch (place : Nat)
  | issueTurn (pipe : Nat)
  | tagRelease (place tag : Nat) (early : Option (List Nat))
  | longResultWrite (place idx : Nat) (early : Option (List Nat))
  | storeQueueLeave (place : Nat)
  | tldArrival (place tag : Nat)
  | groupRetire (place : Nat)
  -- events: queues, tasks, placement
  | doorbellWrite (port q size : Nat) (val : DWord)
  | queueEnable (q : Nat)
  | queueUnfreeze (q : Nat)
  | registerWrite (port off size : Nat) (val : DWord)
  | takeRecord (q : Nat)
  | taskReady (q seq : Nat)
  | taskCancel (q seq : Nat)
  | placementTurn (die : Nat) (places : List (List Nat))
  | spanReservation (die q seq : Nat)
  | gangWatchdog (gang : Nat)
  | launchFail (q seq : Nat) (cause : Byte)
  | failedRecordClose (q seq : Nat)
  | launchComplete (q seq : Nat)
  | binTimerExpiry (die bin : Nat)
  | spawnedGroupPlace (die place : Nat)
  -- events: coherence
  | shareRequest (core ctx va : Nat)
  | renewRequest (core ctx va : Nat)
  | ownershipRequest (core ctx va : Nat)
  | recallForRead (die ctx va : Nat)
  | recallForOwnership (die ctx va : Nat)
  | lineEviction (core ctx va : Nat)
  | homeWrite (n : Nat)
  | injectedPush (n : Nat)
  | l2EvictToMemory (die ctx va : Nat)
  | timeSelfAdvance (core : Nat)
  | cwaitPoll (place : Nat)
  | directoryRecovery (die ctx va : Nat)
  | directoryRecoveryDone (die ctx va : Nat)
  | corePowerGate (core : Nat)
  | coreUngate (core : Nat)
  -- events: translation, traps
  | walkerSlotPlace (core : Nat)
  | replay (die ctx : Nat) (gen : Half)
  | shootdownRequest (ctx : Nat) (va len : DWord) (rc : Bool)
  | preempt (die ctx : Nat)
  | resume (die ctx : Nat) (places : List (List Nat))
  | debugHalt (core : Nat)
  -- events: engines, splicers, coilers
  | engineCopy (die eng : Nat)
  | engineGather (die eng : Nat)
  | engineScatter (die eng : Nat)
  | engineFill (die eng : Nat)
  | engineDepthComposite (die eng : Nat)
  | depthCompositeMerge (die eng : Nat)
  | engineDedupWrite (die eng : Nat)
  | engineCheckpointStream (die eng : Nat)
  | splicerBuild (die n : Nat)
  | splicerRefit (die n : Nat)
  | joiningRootWrite (die n : Nat)
  | coilerCompact (die n : Nat)
  | coilerCopy (die n : Nat)
  | rangeLogTimeout (core : Nat)
  -- events: module
  | domainConfig (val : DWord)
  | vfBindingWrite (port vf : Nat) (val : Word)
  | semaphoreRead (port n : Nat)
  | semaphoreRelease (port n : Nat)
  | powerCapWrite (val : Word)
  | powerWindow (lowered : Bool)
  | thermalThrottle
  | thermalReset
  /-- full training or not, and for each die whether its firmware's ECDSA and its LMS signature verify (R255) -/
  | moduleReset (full : Bool) (ecdsa lms : BitVec 2)
  | attestationRequest (die : Nat) (nonce : BitVec 256)
  | hostLinkDown (port : Nat)
  | hawserLinkUp (port partner : Nat)
  | linkRetryExhausted (r : LostReq)
  | ucieLinkFailure
  | stashUncorrectable (core off : Nat)
  | regUncorrectableError (place reg : Nat)
  | ownershipHoldExpiry (die ctx va : Nat)
  | debugResume (core : Nat)
  | sensorSample (tdie tin : Half)
  /-- a port whose link trains, with the number of virtual functions its SR-IOV capability enables (R247, R250) -/
  | hostLinkUp (port : PortUp)
  | hawserLinkDown (port : Nat)
  | auxiliaryRailOff
  | l2DataUncorrectable (die ctx va : Nat)
  | l1DirtyUncorrectable (core ctx va : Nat)
  | tlbParityDrop (die slice n : Nat)
  | correctedError (die : Nat) (k : CeKind)
deriving DecidableEq, Repr, Inhabited

end Sys2Proof
end

