-- ==== Sys2Proof/WellFormed.lean ====
section
/-!
DEFINITION. Which instruction words are legal in themselves: every check of a field of the word
(R195, R265, R271 to R288 and the reference entries). A word that breaks one raises ILLEGAL at issue.
Checks that need the machine's state (privilege, register budget, run-time values) are made by the
meanings.
-/
namespace Sys2Proof

/-- Types whose operands are register pairs (R72, R273). -/
def Ty.is64 : Ty → Bool
  | .i64 | .n64 | .b64 => true
  | _ => false

/-- Formats of 16 bits, packed two to a register (R77). -/
def Ty.is16 : Ty → Bool
  | .f16 | .bf16 | .i16 | .n16 => true
  | _ => false

def Opd.isV : Opd → Bool
  | .v _ => true
  | _ => false

def Opd.isS : Opd → Bool
  | .s _ => true
  | _ => false

/-- An even v or s register: the name of a pair (R6, R273). -/
def Opd.isPair : Opd → Bool
  | .v n => n.toNat % 2 == 0
  | .s n => n.toNat % 2 == 0
  | _ => false

/-- An s register or the zero operand: what a uniform word is made of (R26). -/
def Opd.isSZ : Opd → Bool
  | .s _ | .zero => true
  | _ => false

def Opd.isVPair (o : Opd) : Bool := o.isV && o.isPair
def Opd.isSPair (o : Opd) : Bool := o.isS && o.isPair

/-- An s register whose number is a multiple of four (R214, R215, R392). -/
def Opd.isSQuad : Opd → Bool
  | .s n => n.toNat % 4 == 0
  | _ => false

/-- A source of the given width (R272, R273); `q` says whether the position accepts a queue. -/
def Opd.srcOk (q w64 : Bool) (o : Opd) : Bool :=
  if w64 then o.isPair || o == .zero
  else match o with
    | .q _ => q
    | _ => true

/-- A destination of the given width: as a source, but never the thread index (R272). -/
def Opd.dstOk (q w64 : Bool) (o : Opd) : Bool := o != .tid && o.srcOk q w64

def Guard.isP0 (g : Guard) : Bool := !g.neg && g.p == 0

/-- The schedule classes of R265. -/
inductive SClass where
  | s | l | t | a
deriving DecidableEq, Repr

/-- The `LA` and `SET` columns of R265; a `SET` of 7 is refused everywhere (R264). -/
def Sched.ok (c : SClass) (x : Sched) : Bool :=
  match c with
  | .s => x.la == 0 && x.set == 0
  | .l => x.set == 0
  | .t => x.la == 0 && x.set != 0 && x.set != 7
  | .a => x.la == 0 && x.set != 7

/-- A word of class S whose guard must be 0b0000 (R271). -/
def Hdr.uniformOk (c : SClass) (h : Hdr) : Bool := h.sched.ok c && h.guard.isP0

/-- The operands of an arithmetic word: destination class and width, sources with their widths. A
uniform-capable word may name an s destination only when every source is an s register or zero, and
then needs guard 0b0000 (R26, R271, R273); any other form writes a v register, or a queue where it
accepts one (R329). -/
def operandsOk (h : Hdr) (uc q : Bool) (d : Opd) (dw : Bool) (srcs : List (Opd × Bool)) : Bool :=
  d.dstOk q dw && srcs.all (fun x => x.1.srcOk q x.2)
  && (if uc then
        (if d.isS then srcs.all (fun x => x.1.isSZ) else true)
        && (if d.isSZ && srcs.all (fun x => x.1.isSZ) then h.guard.isP0 else true)
      else match d with
        | .v _ | .q _ => true
        | _ => false)

/-- The fields of a register-variant arithmetic word (R273 to R275): its types, whether its sub-form
and its destination half are in order, and for each source whether it is used and how wide it is. -/
def RForm.ok (h : Hdr) (r : RForm) (cls : SClass) (tys : List Ty) (sub half uc q dw : Bool)
    (a b c : Option Bool) : Bool :=
  h.sched.ok cls && tys.contains r.ty && sub && (half || r.half == .none)
  && (match a with
      | some w => if w then r.ma == .none else true
      | none => r.a == .zero && r.ma == .none)
  && (match b with
      | some w => if w then r.mb == .none else true
      | none => r.b == .zero && r.mb == .none)
  && (c.isSome || r.c == .zero)
  && operandsOk h uc q r.d dw
      ((a.map (r.a, ·)).toList ++ (b.map (r.b, ·)).toList ++ (c.map (r.c, ·)).toList)

def tysInt : List Ty := [.i32, .n32, .i64, .n64]
def tysAdd : List Ty := [.i32, .n32, .i64, .n64, .i16, .n16, .i8, .n8]
def tysBits : List Ty := [.b32, .b64]
def tysF : List Ty := [.f32, .f16, .bf16]
def tysShift : List Ty := [.b32, .n32, .i32, .b64, .n64, .i64]

/-- `IADD`, `ISUB` (R345). -/
def RForm.okAdd (h : Hdr) (r : RForm) : Bool :=
  r.ok h .s tysAdd (r.sub == 0 || r.sub == 1) false true true r.ty.is64 (some r.ty.is64) (some r.ty.is64) none

/-- Two-source integer forms without sub-form. -/
def RForm.okInt2 (h : Hdr) (r : RForm) (tys : List Ty) : Bool :=
  r.ok h .s tys (r.sub == 0) false true true r.ty.is64 (some r.ty.is64) (some r.ty.is64) none

/-- `FADD`, `FMUL`, `FMIN`, `FMAX`, and `FFMA` with a third source (R330, R333). -/
def RForm.okFloat (h : Hdr) (r : RForm) (c : Option Bool) : Bool :=
  r.ok h .s tysF (r.sub == 0 || (r.sub == 1 && r.ty.is16)) (r.sub == 1 && r.ty.is16) true true false
    (some false) (some false) c

/-- The function forms (R339). -/
def RForm.okFunc (h : Hdr) (r : RForm) : Bool :=
  r.ok h .l tysF (r.sub == 0) false false false false (some false) none none

/-- The immediate forms (R277); `uc` false marks none of them. -/
def IForm.ok (h : Hdr) (r : IForm) (q : Bool) : Bool :=
  h.sched.ok .s && operandsOk h true q r.d r.w [(r.a, r.w)]

/-- Compare words (R336, R346). -/
def PForm.ok (h : Hdr) (r : PForm) (tys : List Ty) (cond : Bool) : Bool :=
  h.sched.ok .s && tys.contains r.ty && cond && r.a.srcOk true r.ty.is64 && r.b.srcOk true r.ty.is64
  && (if r.ty.is64 then r.ma == .none && r.mb == .none else true)

/-- The largest element index of a conversion's destination type, plus one (R331). -/
def Ty.elems : Ty → Nat
  | .f32 => 1
  | .f16 | .bf16 => 2
  | .e4m3 | .e5m2 | .e3m2 | .e8m0 => 4
  | .e2m1 => 8
  | _ => 1

def tysFloatSrc : List Ty := [.f32, .f16, .bf16, .e4m3, .e5m2, .e3m2, .e2m1]
def tysFloatAll : List Ty := [.f32, .f16, .bf16, .e4m3, .e5m2, .e3m2, .e2m1, .e8m0]
def tysIntConv : List Ty := [.i8, .i16, .i32, .i64, .n8, .n16, .n32, .n64]

/-- The loads' operands (R351): an s destination needs an s base and makes the load uniform. -/
def ldOk (h : Hdr) (m : MForm) (w64 base64 : Bool) : Bool :=
  h.sched.ok .t && m.b == .zero
  && (if base64 then m.a.isPair else m.a.isV || m.a.isS)
  && (m.d.isV || (m.d.isS && m.a.isS && h.guard.isP0))
  && (if w64 then m.d.isPair else true)

/-- The stores' operands (R382): an s base with s or zero data makes the store uniform. -/
def stOk (h : Hdr) (m : MForm) (w64 base64 : Bool) : Bool :=
  h.sched.ok .a
  && (if base64 then m.a.isPair else m.a.isV || m.a.isS)
  && (m.b.isV || m.b.isS || m.b == .zero)
  && (if w64 then m.b.isPair || m.b == .zero else true)
  && (if m.a.isS && m.b.isSZ then h.guard.isP0 else true)

def ordIs (x : Order) (xs : List Order) : Bool := xs.contains x

/-- No order and no scope (R278). -/
def MForm.plain (m : MForm) : Bool := m.ord == .rlx && m.scope == .gang

/-- Types an atomic operation accepts (R304). -/
def AtomOp.tys : AtomOp → List Ty
  | .add | .min | .max => [.n32, .i32, .n64, .i64, .f32]
  | .and | .or | .xor => [.b32, .b64]
  | .exch => [.b32, .b64, .f32]

/-- A data operand of an atomic: v, s or zero, a pair for a 64-bit type (R302). -/
def atomData (ty : Ty) (o : Opd) : Bool :=
  (o.isV || o.isS || o == .zero) && (if ty.is64 then o.isPair || o == .zero else true)

def atomDst (ty : Ty) (o : Opd) : Bool :=
  (o.isV || o == .zero) && (if ty.is64 then o.isPair || o == .zero else true)

/-- Control registers of 64 bits (R282). -/
def Csr.is64 : Csr → Bool
  | .spanid | .clock | .trapinfo | .trappc => true
  | _ => false

/-- Control registers with an RW field (R324). -/
def Csr.writable : Csr → Bool
  | .frm | .fflags | .trappc | .tagstate | .wsel | .wdata => true
  | _ => false

/-- Types a half-instruction accepts (R285): those of its full form that are not 64 bits wide. -/
def HalfOp.tys : HalfOp → List Ty
  | .nop => [.i32]
  | .iadd | .isub | .imin | .imax => [.i32, .n32, .i16, .n16, .i8, .n8]
  | .imul => [.i32, .n32, .i16, .n16]
  | .land | .lor | .lxor => [.b32]
  | .shl | .shr => [.b32, .n32, .i32]
  | .mov => [.b32, .n16]
  | .fadd | .fmul | .fmin | .fmax | .fscale | .fmaxe => tysF

def HalfW.ok (x : HalfW) : Bool :=
  x.op.tys.contains x.ty
  && (if x.op == .nop then x.d == 0 && x.s == 0 && x.m == .none else true)
  && (if x.op == .mov then x.m == .none else true)

/-- The registers a half names: none for the no-operation half (R286). -/
def HalfW.regs (x : HalfW) : List (BitVec 7) := if x.op == .nop then [] else [x.d, x.s]

/-- No two different registers of the two halves in one bank, and no common destination (R286). -/
def dualOk (x y : HalfW) : Bool :=
  x.ok && y.ok
  && x.regs.all (fun a => y.regs.all (fun b => a == b || a.toNat % 4 != b.toNat % 4))
  && (x.op == .nop || y.op == .nop || x.d != y.d)

/-- Is this instruction a word a group issues (and not an event of the machine)? -/
def Instr.isWord : Instr → Bool
  | .instructionFetch .. | .issueTurn .. | .tagRelease .. | .longResultWrite .. | .storeQueueLeave ..
  | .tldArrival .. | .groupRetire .. | .doorbellWrite .. | .queueEnable .. | .queueUnfreeze ..
  | .registerWrite .. | .takeRecord .. | .taskReady .. | .taskCancel .. | .placementTurn ..
  | .spanReservation .. | .gangWatchdog .. | .launchFail .. | .failedRecordClose .. | .launchComplete ..
  | .binTimerExpiry .. | .spawnedGroupPlace .. | .shareRequest .. | .renewRequest .. | .ownershipRequest ..
  | .recallForRead .. | .recallForOwnership .. | .lineEviction .. | .homeWrite .. | .injectedPush ..
  | .l2EvictToMemory .. | .timeSelfAdvance .. | .cwaitPoll .. | .directoryRecovery .. | .directoryRecoveryDone ..
  | .corePowerGate .. | .coreUngate .. | .walkerSlotPlace .. | .replay .. | .shootdownRequest .. | .preempt ..
  | .resume .. | .debugHalt .. | .engineCopy .. | .engineGather .. | .engineScatter .. | .engineFill ..
  | .engineDepthComposite .. | .depthCompositeMerge .. | .engineDedupWrite .. | .engineCheckpointStream ..
  | .splicerBuild .. | .splicerRefit .. | .joiningRootWrite .. | .coilerCompact .. | .coilerCopy ..
  | .rangeLogTimeout .. | .domainConfig .. | .vfBindingWrite .. | .semaphoreRead .. | .semaphoreRelease ..
  | .powerCapWrite .. | .powerWindow .. | .thermalThrottle | .thermalReset | .moduleReset ..
  | .attestationRequest .. | .hostLinkDown .. | .hawserLinkUp .. | .linkRetryExhausted .. | .ucieLinkFailure
  | .stashUncorrectable .. | .regUncorrectableError .. | .ownershipHoldExpiry .. | .debugResume ..
  | .sensorSample .. | .hostLinkUp .. | .hawserLinkDown .. | .auxiliaryRailOff | .l2DataUncorrectable ..
  | .l1DirtyUncorrectable .. | .tlbParityDrop .. | .correctedError .. => false
  | _ => true

/-- Every field check of a word, entry by entry; an event has no word and passes. -/
def Instr.wf : Instr → Bool
  | .iadd h r | .isub h r => r.okAdd h
  | .imin h r | .imax h r => r.okInt2 h tysAdd
  | .iabs h r => r.ok h .s [.i32, .i64, .i16, .i8] (r.sub == 0 || r.sub == 1) false true true r.ty.is64 (some r.ty.is64) none none
  | .imul h r => r.okInt2 h [.i32, .n32, .i64, .n64, .i16, .n16]
  | .imulh h r => r.okInt2 h tysInt
  | .imad h r => r.ok h .s tysInt (r.sub == 0) false true true r.ty.is64 (some r.ty.is64) (some r.ty.is64) (some r.ty.is64)
  | .idp4 h r => r.ok h .s [.i8, .n8] (r.sub == 0 || r.sub == 1) false true true false (some false) (some false) (some false)
  | .iaddImm h r | .isubImm h r | .imulImm h r => r.ok h true
  | .logicImm h _ r => r.ok h true
  | .movi h r => r.ok h (!r.w) && r.a == .zero
  | .shlImm h r | .shrImmLogical h r | .shrImmArith h r => r.ok h false && r.imm.toNat ≤ 255
  | .icmp h r => r.ok h [.i32, .n32, .i64, .n64, .b32, .b64]
      (r.cond.toNat ≤ 5 && (if r.ty == .b32 || r.ty == .b64 then r.cond.toNat ≤ 1 else true))
  | .icmpImm h _ cond _ r => h.sched.ok .s && cond.toNat ≤ 5 && r.d == .zero && r.a.srcOk true r.w
  | .sel h _ r => r.ok h .s tysBits (r.sub == 0) false false true r.ty.is64 (some r.ty.is64) (some r.ty.is64) none
  | .logic h r => r.ok h .s tysBits true false true true r.ty.is64 (some r.ty.is64) (some r.ty.is64) none
  | .shl h r | .shr h r => r.ok h .s tysShift (r.sub == 0) false true true r.ty.is64 (some r.ty.is64) (some false) none
  | .bfx h r => r.ok h .s tysInt (r.sub == 0) false true true r.ty.is64 (some r.ty.is64) (some false) (some false)
  | .bfi h r => r.ok h .s tysBits (r.sub == 0) false true true r.ty.is64 (some r.ty.is64) (some r.ty.is64) (some false)
  | .popc h r => r.ok h .s tysBits (r.sub == 0) false true true false (some r.ty.is64) none none
  | .clz h r => r.ok h .s [.b32, .b64, .i32, .i64] (r.sub == 0) false true true false (some r.ty.is64) none none
  | .brev h r => r.ok h .s tysBits (r.sub == 0) false true true r.ty.is64 (some r.ty.is64) none none
  | .lea h r => r.ok h .s [.n64, .i64] true false true true true (some true) (some false) none
  | .mov h r => r.ok h .s [.b32, .b64, .n16] (r.sub == 0) (r.ty == .n16) true (r.ty == .b32) r.ty.is64 (some r.ty.is64) none none
  | .bperm h r => r.ok h .s [.b32] (r.sub == 0) false true true false (some false) (some false) (some false)
  | .plog h _ _ _ _ => h.sched.ok .s
  | .fadd h r | .fmul h r | .fmin h r | .fmax h r => r.okFloat h none
  | .ffma h r => r.okFloat h (some false)
  | .fcmp h r => r.ok h tysF true
  | .frcp h r | .frsq h r | .fsqrt h r | .fexp2 h r | .flog2 h r | .fsin h r | .fcos h r | .ftanh h r => r.okFunc h
  | .fscale h r => r.okFloat h none
  | .fmaxe h r => r.ok h .s tysF (r.sub == 0) false true true false (some false) (some false) none
  | .frnd h r => r.ok h .s tysF (r.sub.toNat ≤ 4) false true true false (some false) none none
  | .fclass h r => r.ok h .s tysFloatSrc (r.sub == 0) false true true false (some false) none none
  | .fdot2 h r => r.ok h .s [.f16, .bf16] (r.sub == 0) false true true false (some false) (some false) (some false)
  | .fcvt h r => h.sched.ok .s && tysFloatAll.contains r.dt && tysFloatAll.contains r.st && r.k.toNat < r.dt.elems
      && operandsOk h true true r.d false [(r.a, false)] && r.d.srcOk false false
  | .f2i h r => h.sched.ok .s && tysIntConv.contains r.dt && tysFloatSrc.contains r.st && r.k == 0
      && operandsOk h true (!r.dt.is64) r.d r.dt.is64 [(r.a, false)]
  | .i2f h r => h.sched.ok .s && tysF.contains r.dt && tysIntConv.contains r.st && r.k.toNat < r.dt.elems
      && operandsOk h true (!r.st.is64) r.d false [(r.a, r.st.is64)] && r.d.srcOk false false
      && (if r.st.is64 then r.ma == .none else true)
  | .shfl h r => r.ok h .l tysBits (r.sub.toNat ≤ 3) false false false r.ty.is64 (some r.ty.is64) (some false) none
  | .qswap h r => r.ok h .l tysBits (r.sub.toNat ≤ 6) false false false r.ty.is64 (some r.ty.is64) none none
  | .qdiff h r => r.ok h .l tysF (r.sub.toNat ≤ 3) false false false false (some false) none none
  | .ballot h d _ => h.sched.ok .l && (d.isV || d.isS)
  | .mpopc h mode d _ => h.sched.ok .l && mode.toNat ≤ 2 && (d.isV || (d.isS && mode == 2))
  | .vote h mode _ _ => h.sched.ok .l && mode.toNat ≤ 2
  | .elect h _ => h.sched.ok .l
  | .matchEq h r => r.ok h .l tysBits (r.sub == 0) false false false false (some r.ty.is64) none none
  | .lred h r => h.sched.ok .l && redOk r && (r.d.isV || r.d.isS) && (if r.ty.is64 then r.d.isPair else true)
  | .lscan h r => h.sched.ok .l && redOk r && r.d.isV && (if r.ty.is64 then r.d.isPair else true)
  | .bra h _ | .brd h _ _ => h.sched.ok .s
  | .brx h a | .ret h a => h.sched.ok .s && a.isPair
  | .call h d _ => h.sched.ok .s && d.isSPair
  | .join h | .nop h | .yield h | .trap h _ | .bkpt h => h.uniformOk .s
  | .exit h => h.sched.ok .s
  | .spawn h f n _ _ => h.sched.ok .s && n.toNat ≤ 8 && (match f with
      | .v k => n != 0 && k.toNat + n.toNat ≤ 128
      | .zero => n == 0
      | _ => false)
  | .ld h w m => ldOk h m (w == .b64) true && ordIs m.ord [.rlx, .acq]
  | .lds h w m => ldOk h m (w == .b64) false && m.plain
  | .st h w m => stOk h m (w == .b64) true && m.d == .zero && ordIs m.ord [.rlx, .rel]
  | .sts h w m => stOk h m (w == .b64) false && m.d == .zero && m.plain
  | .sinj h w m => stOk h m (w == .b64) true && m.d.isS && ordIs m.ord [.rlx, .rel]
  | .pref h m => h.sched.ok .a && m.d == .zero && m.b == .zero && m.a.isPair && m.plain
  | .smap h r => h.uniformOk .s && r.d == .zero && r.a.isS && r.b.isSPair && r.c.isS
  | .sunmap h r => h.uniformOk .s && r.d == .zero && r.a.isS && r.b == .zero && r.c == .zero
  | .wbr h r => h.uniformOk .a && r.d == .zero && r.a.isSPair && r.b.isS && r.c == .zero
  | .invr h r => h.uniformOk .s && r.d == .zero && r.a.isSPair && r.b.isS && r.c == .zero
  | .fence h ord _ => h.uniformOk .s && ord != .rlx
  | .atom h op r => h.sched.ok .t && op.tys.contains r.ty && atomDst r.ty r.d && r.a.isPair && atomData r.ty r.b && r.c == .zero
  | .acas h r => h.sched.ok .t && [Ty.n32, .i32, .b32, .n64, .i64, .b64, .f32].contains r.ty && atomDst r.ty r.d
      && r.a.isPair && atomData r.ty r.b && atomData r.ty r.c
  | .mred h op r => h.sched.ok .a && op.tys.contains r.ty && r.d == .zero && r.a.isPair && atomData r.ty r.b
      && r.c == .zero && ordIs r.ord [.rlx, .rel]
  | .cadd h _ r => h.uniformOk .a && r.d == .zero && r.a.isSPair && r.b.isSPair && r.c == .zero
  | .cwait h _ r => h.uniformOk .s && r.d.isSPair && r.a.isSPair && r.b.isSPair && r.c == .zero
  | .crd h ord _ r => h.uniformOk .t && ordIs ord [.rlx, .acq] && r.d.isSPair && r.a.isSPair && r.b == .zero && r.c == .zero
  | .rlog h r => h.uniformOk .s && r.d == .zero && (r.a.isSPair || r.a == .zero) && r.b == .zero && r.c == .zero
  | .thdrToH h _ x | .thdrFromH h _ x => h.uniformOk .s && x.isSQuad
  | .tchk h _ _ => h.uniformOk .s
  | .tld h _ x _ ord _ => h.uniformOk .t && x.isSPair && ordIs ord [.rlx, .acq]
  | .tst h _ x _ ord _ => h.uniformOk .s && x.isSPair && ordIs ord [.rlx, .rel]
  | .tzero h _ | .ttrans h _ _ | .tcvt h _ _ | .tcrt h _ _ => h.uniformOk .l
  | .tres h _ _ f => h.uniformOk .l && f.toNat ≤ 45
  | .mma h _ _ _ _ => h.sched.ok .l
  | .ntest h r => h.sched.ok .t && r.d.isV && r.a.isVPair && r.b.isVPair && r.c.isSQuad
  | .hitk h r => h.sched.ok .s && r.d.isV && r.a.isV && r.b.srcOk false false && r.c == .zero
  | .trvpush h r => h.sched.ok .s && r.d.isV && r.a.isV && r.b.isSQuad && r.c == .zero
  | .trvpop h r => h.sched.ok .t && r.d.isV && r.a.isV && r.b.isSQuad && r.c.isSQuad
  | .morton h r => h.sched.ok .l && r.d.isV && r.a.isV && r.c == .zero && (match r.b with
      | .s n => n.toNat ≤ 58
      | _ => false)
  | .qbox h fr r => h.sched.ok .l && r.d.isV && r.a.isV && r.c == .zero && (if fr then r.b == .zero else r.b.isV)
  | .bld h r | .cmpct h r | .kick h r => h.uniformOk .s && r.d == .zero && r.a.isS && r.b.isS && r.c == .zero
  | .nfmt h r => h.uniformOk .t && r.d == .zero && r.a.isSPair && r.b == .zero && r.c == .zero
  | .sstart h r => h.uniformOk .s && r.d.isS && r.a.isSPair && r.b.isSPair && r.c == .zero
  | .sstop h r => h.uniformOk .s && r.d.isS && r.a == .zero && r.b == .zero && r.c == .zero
  | .bdec h kind k r => h.sched.ok .t && r.d.isV && r.a.isV && r.d != r.a && r.c == .zero && (match kind with
      | .fix => 1 ≤ k.toNat && k.toNat ≤ 32 && r.b == .zero
      | .eg => k.toNat ≤ 15 && r.b == .zero
      | .pfx => k == 0 && r.b.isS)
  | .csrr h csr d => h.uniformOk .s && (if csr == .wdata then d.isV || d.isS else d.isS) && (if csr.is64 then d.isPair else true)
  | .csrw h csr a => h.uniformOk .s && csr.writable
      && (if csr == .wdata then a.isV || a.isS || a == .zero else a.isS || a == .zero)
      && (if csr.is64 then a.isPair || a == .zero else true)
  | .tret h | .tretSave h | .tretKill h => h.uniformOk .s
  | .pld h m => ldOk h m true true && m.plain
  | .pst h m => stOk h m true true && m.d == .zero && m.plain
      && (m.b == .zero || m.b.isV == m.a.isV)
  | .tlbf h r => h.uniformOk .s && r.d == .zero && r.a.isV && r.b.isVPair && r.c.isV
  | .tlbi h _ r => h.uniformOk .t && r.d == .zero && r.a.isSPair && r.b.isS && r.c.isS
  | .frec h r => h.uniformOk .s && r.d.isV && r.a.isV && r.b.isVPair && r.c.isV
  | .dualWord x h0 h1 => x.ok .s && dualOk h0 h1
  | _ => true
where
  /-- `LRED` and `LSCAN`: the types of R358 for each operation, and their source. -/
  redOk (r : RForm) : Bool :=
    (match r.sub.toNat with
      | 0 | 1 | 2 => [Ty.i32, .n32, .i64, .n64, .f32, .f16, .bf16].contains r.ty
      | 3 | 4 | 5 => [Ty.b32, .b64].contains r.ty
      | _ => false)
    && r.half == .none && r.b == .zero && r.c == .zero && r.mb == .none
    && r.a.srcOk false r.ty.is64 && (if r.ty.is64 then r.ma == .none else true)

end Sys2Proof
end

