-- ==== Sys2Proof/Decode.lean ====
section
/-!
DEFINITION. Decoding and encoding of instruction words (R258, R264, R270 to R287). A word is 80 bits:
the operation field in bits 63:0 and the schedule field in bits 79:64. Decoding is total and refuses
by name; every refusal is an ILLEGAL word.
-/
namespace Sys2Proof

/-- Why a word is no instruction. -/
inductive DecodeError where
  /-- an opcode, half opcode or control-register number that is not assigned (R282, R285, R287) -/
  | unassigned
  /-- an operand value 198 to 255, or of a class the position does not take (R272) -/
  | operand
  /-- a reserved type, sub-form, modifier, order or scope (R274, R276, R278) -/
  | field
  /-- a non-zero bit that must be zero, or a used value in an unused operand (R300) -/
  | reserved
  /-- a breach of the form's own rules (WellFormed) -/
  | illFormed
deriving DecidableEq, Repr

/-- The fields of a full-format word, shared by every variant (R270). -/
structure Raw where
  op : BitVec 10
  d : BitVec 8
  a : BitVec 8
  b : BitVec 8
  c : BitVec 8
  g : BitVec 4
  m : BitVec 17
deriving DecidableEq, Repr

def Raw.ofBits (w : DWord) : Raw where
  op := w.extractLsb' 53 10
  d := w.extractLsb' 45 8
  a := w.extractLsb' 37 8
  b := w.extractLsb' 29 8
  c := w.extractLsb' 21 8
  g := w.extractLsb' 17 4
  m := w.extractLsb' 0 17

def Raw.toBits (r : Raw) : DWord :=
  (0#1 ++ r.op ++ r.d ++ r.a ++ r.b ++ r.c ++ r.g ++ r.m).cast (by decide)

/-! ## Field codes -/

/-- R272. -/
def Opd.ofCode (x : BitVec 8) : Option Opd :=
  if x.toNat < 128 then some (.v (x.setWidth 7))
  else if x.toNat < 192 then some (.s (x.setWidth 6))
  else if x.toNat < 196 then some (.q (x.setWidth 2))
  else if x = 196 then some .zero
  else if x = 197 then some .tid
  else none

def Opd.code : Opd → BitVec 8
  | .v n => n.setWidth 8
  | .s n => 128 + n.setWidth 8
  | .q n => 192 + n.setWidth 8
  | .zero => 196
  | .tid => 197

/-- R274. -/
def SrcMod.ofCode (x : BitVec 4) : SrcMod :=
  if x = 0 then .none else if x = 1 then .lo else if x = 2 then .hi else if x = 3 then .sw
  else if x.toNat < 8 then .b (x.setWidth 2) else .k (x.setWidth 3)

def SrcMod.code : SrcMod → BitVec 4
  | .none => 0
  | .lo => 1
  | .hi => 2
  | .sw => 3
  | .b x => 4 + x.setWidth 4
  | .k x => 8 + x.setWidth 4

/-- R274. -/
def DstHalf.ofCode (x : BitVec 2) : Option DstHalf :=
  if x = 0 then some .none else if x = 1 then some .lo else if x = 2 then some .hi else Option.none

def DstHalf.code : DstHalf → BitVec 2
  | .none => 0
  | .lo => 1
  | .hi => 2

/-- R278. -/
def Order.ofCode (x : BitVec 2) : Order :=
  if x = 0 then .rlx else if x = 1 then .acq else if x = 2 then .rel else .ar

def Order.code : Order → BitVec 2
  | .rlx => 0
  | .acq => 1
  | .rel => 2
  | .ar => 3

/-- R278. -/
def Scope.ofCode (x : BitVec 3) : Option Scope :=
  match x.toNat with
  | 0 => some .gang
  | 1 => some .span
  | 2 => some .die
  | 3 => some .dev
  | 4 => some .sys
  | _ => none

def Scope.code : Scope → BitVec 3
  | .gang => 0
  | .span => 1
  | .die => 2
  | .dev => 3
  | .sys => 4

/-- The four columns of R276, each a list of types in code order. -/
def tyIntCol : List Ty := [.i32, .n32, .b32, .i64, .n64, .b64, .i16, .n16, .i8, .n8, .i4, .n4]
def tyFloatCol : List Ty :=
  [.f32, .f16, .bf16, .e4m3, .e5m2, .e3m2, .e2m1, .e8m0, .i8, .i16, .i32, .i64, .n8, .n16, .n32, .n64]
def tyCrossCol : List Ty := [.b32, .b64, .i32, .n32, .i64, .n64, .f32, .f16, .bf16]
def tyMemCol : List Ty := [.n32, .i32, .b32, .n64, .i64, .b64, .f32]

def Ty.ofCode (col : List Ty) (x : BitVec 4) : Option Ty := col[x.toNat]?
def Ty.code (col : List Ty) (t : Ty) : BitVec 4 := BitVec.ofNat 4 (col.idxOf t)

def Guard.ofCode (x : BitVec 4) : Guard := { neg := x.getLsbD 3, p := x.setWidth 3 }
def Guard.code (g : Guard) : BitVec 4 := BitVec.ofBool g.neg ++ g.p

/-- R264. -/
def Sched.ofBits (x : Half) : Sched where
  ru := x.extractLsb' 14 2
  yld := x.getLsbD 13
  w2 := x.extractLsb' 10 3
  w1 := x.extractLsb' 7 3
  set := x.extractLsb' 4 3
  la := x.extractLsb' 0 4

def Sched.toBits (s : Sched) : Half := s.ru ++ BitVec.ofBool s.yld ++ s.w2 ++ s.w1 ++ s.set ++ s.la

/-- R282, in number order: 0x000 to 0x00B and 0x100 to 0x107. -/
def csrPublic : List Csr :=
  [.gwidth, .frm, .fflags, .gid, .gangid, .spanid, .launchid, .coreid, .dieid, .ctxid, .fltgen, .clock]
def csrPriv : List Csr :=
  [.trapcause, .trapinfo, .trappc, .parkmask, .tagstate, .divstack, .wsel, .wdata]

def Csr.ofCode (x : BitVec 12) : Option Csr :=
  if x.toNat < 0x100 then csrPublic[x.toNat]? else csrPriv[x.toNat - 0x100]?

/-- A privileged register (R282). -/
def Csr.isPriv (r : Csr) : Bool := csrPriv.contains r

def Csr.code (r : Csr) : BitVec 12 :=
  if r.isPriv then BitVec.ofNat 12 (0x100 + csrPriv.idxOf r) else BitVec.ofNat 12 (csrPublic.idxOf r)

def halfOps : List (Nat × HalfOp) :=
  [(0x00, .nop), (0x01, .iadd), (0x02, .isub), (0x03, .imul), (0x04, .imin), (0x05, .imax), (0x06, .land),
   (0x07, .lor), (0x08, .lxor), (0x09, .shl), (0x0A, .shr), (0x0B, .mov), (0x10, .fadd), (0x11, .fmul),
   (0x12, .fmin), (0x13, .fmax), (0x14, .fscale), (0x15, .fmaxe)]

def HalfOp.ofCode (x : BitVec 7) : Option HalfOp := (halfOps.find? (fun y => y.1 == x.toNat)).map (·.2)
def HalfOp.code (o : HalfOp) : BitVec 7 :=
  BitVec.ofNat 7 (((halfOps.find? (fun y => y.2 == o)).map (·.1)).getD 0)

/-- A half's type is coded in the class of its full form (R284). -/
def HalfOp.col : HalfOp → List Ty
  | .fadd | .fmul | .fmin | .fmax | .fscale | .fmaxe => tyFloatCol
  | _ => tyIntCol

def ldWs : List LdW := [.i8, .n8, .i16, .n16, .b32, .b64]
def stWs : List StW := [.b8, .b16, .b32, .b64]
def atomOps : List AtomOp := [.add, .min, .max, .and, .or, .xor, .exch]
def bdecKinds : List BdecKind := [.fix, .eg, .pfx]

/-! ## Decoding -/

def orErr {α : Type} (e : DecodeError) : Option α → Except DecodeError α
  | some x => .ok x
  | none => .error e

def need (e : DecodeError) (c : Bool) (x : Except DecodeError α) : Except DecodeError α :=
  if c then x else .error e

/-- The operand in a field, by R272. -/
def opd (x : BitVec 8) : Except DecodeError Opd := orErr .operand (Opd.ofCode x)

/-- A predicate index: bits 2:0, with bits 7:3 zero (R273). -/
def pidx (x : BitVec 8) : Except DecodeError (BitVec 3) :=
  if x.toNat < 8 then .ok (x.setWidth 3) else .error .operand

/-- A register-variant arithmetic word with its type column (R275). -/
def Raw.rform (r : Raw) (col : List Ty) : Except DecodeError RForm := do
  let ty ← orErr .field (Ty.ofCode col (r.m.extractLsb' 13 4))
  let half ← orErr .field (DstHalf.ofCode (r.m.extractLsb' 8 2))
  let d ← opd r.d
  let a ← opd r.a
  let b ← opd r.b
  let c ← opd r.c
  return { ty, sub := r.m.extractLsb' 10 3, half, d, a, b, c,
           ma := SrcMod.ofCode (r.m.extractLsb' 0 4), mb := SrcMod.ofCode (r.m.extractLsb' 4 4) }

/-- A conversion word (R275, R331). -/
def Raw.cform (r : Raw) : Except DecodeError CForm := do
  let dt ← orErr .field (Ty.ofCode tyFloatCol (r.m.extractLsb' 13 4))
  let st ← orErr .field (Ty.ofCode tyFloatCol (r.m.extractLsb' 4 4))
  let d ← opd r.d
  let a ← opd r.a
  need .reserved (r.m.extractLsb' 8 2 == 0 && r.b == 196 && r.c == 196)
    (.ok { dt, st, k := r.m.extractLsb' 10 3, d, a, ma := SrcMod.ofCode (r.m.extractLsb' 0 4) })

/-- A compare word (R336, R346). -/
def Raw.pform (r : Raw) (col : List Ty) : Except DecodeError PForm := do
  let ty ← orErr .field (Ty.ofCode col (r.m.extractLsb' 13 4))
  let pd ← pidx r.d
  let a ← opd r.a
  let b ← opd r.b
  need .reserved (r.m.extractLsb' 8 2 == 0 && r.c == 196)
    (.ok { ty, cond := r.m.extractLsb' 10 3, pd, a, b,
           ma := SrcMod.ofCode (r.m.extractLsb' 0 4), mb := SrcMod.ofCode (r.m.extractLsb' 4 4) })

/-- An immediate word (R277). -/
def Raw.iform (r : Raw) : Except DecodeError IForm := do
  let d ← opd r.d
  let a ← opd r.a
  return { d, a, imm := r.b ++ r.c ++ r.m.extractLsb' 1 16, w := r.m.getLsbD 0 }

/-- A memory word (R278). -/
def Raw.mform (r : Raw) : Except DecodeError MForm := do
  let d ← opd r.d
  let a ← opd r.a
  let b ← opd r.b
  let scope ← orErr .field (Scope.ofCode (r.m.extractLsb' 0 3))
  return { d, a, b, off := r.c ++ r.m.extractLsb' 5 12, ord := Order.ofCode (r.m.extractLsb' 3 2), scope }

/-- Four operand fields. -/
def Raw.regs (r : Raw) : Except DecodeError Regs := do
  let d ← opd r.d
  let a ← opd r.a
  let b ← opd r.b
  let c ← opd r.c
  return { d, a, b, c }

/-- An atomic word (R275, R302): bits 9:5 are zero. -/
def Raw.aform (r : Raw) : Except DecodeError AForm := do
  let ty ← orErr .field (Ty.ofCode tyMemCol (r.m.extractLsb' 13 4))
  let scope ← orErr .field (Scope.ofCode (r.m.extractLsb' 0 3))
  let x ← r.regs
  need .reserved (r.m.extractLsb' 5 5 == 0)
    (.ok { ty, ord := Order.ofCode (r.m.extractLsb' 3 2), scope, d := x.d, a := x.a, b := x.b, c := x.c })

/-- The branch offset T (R279); bit 0 is zero. -/
def Raw.t (r : Raw) : Word := r.b ++ r.c ++ r.m.extractLsb' 1 16

def Raw.noOpds (r : Raw) : Bool := r.d == 196 && r.a == 196 && r.b == 196 && r.c == 196

/-- The tile fields (R280). -/
def Raw.hd (r : Raw) : BitVec 4 := r.d.extractLsb' 4 4
def Raw.ha (r : Raw) : BitVec 4 := r.d.extractLsb' 0 4
def Raw.hb (r : Raw) : BitVec 4 := r.a.extractLsb' 4 4
def Raw.hres (r : Raw) : BitVec 4 := r.a.extractLsb' 0 4
def Raw.q (r : Raw) : BitVec 20 := r.c ++ r.m.extractLsb' 5 12
def Raw.os (r : Raw) : BitVec 5 := r.m.extractLsb' 0 5

def decR (r : Raw) (col : List Ty) (f : RForm → Instr) : Except DecodeError Instr := f <$> r.rform col
def decC (r : Raw) (f : CForm → Instr) : Except DecodeError Instr := f <$> r.cform
def decI (r : Raw) (f : IForm → Instr) : Except DecodeError Instr := f <$> r.iform
def decM (r : Raw) (f : MForm → Instr) : Except DecodeError Instr := f <$> r.mform
/-- A word of four operands whose modifier bits are zero. -/
def decX (r : Raw) (f : Regs → Instr) : Except DecodeError Instr := do
  let x ← r.regs
  need .reserved (r.m == 0) (.ok (f x))
/-- A word of four operands with a scope in bits 2:0 and an order in bits 4:3 (R275). -/
def decS (r : Raw) (f : Order → Scope → Regs → Instr) : Except DecodeError Instr := do
  let scope ← orErr .field (Scope.ofCode (r.m.extractLsb' 0 3))
  let x ← r.regs
  need .reserved (r.m.extractLsb' 5 12 == 0) (.ok (f (Order.ofCode (r.m.extractLsb' 3 2)) scope x))
/-- A word without operands or modifiers. -/
def dec0 (r : Raw) (i : Instr) : Except DecodeError Instr := need .reserved (r.noOpds && r.m == 0) (.ok i)
def decT (r : Raw) (ok : Bool) (i : Instr) : Except DecodeError Instr :=
  need .reserved (ok && r.hres == 0) (.ok i)

/-- The full format, by opcode (R287). -/
def Raw.instr (x : Sched) (r : Raw) : Except DecodeError Instr :=
  let h : Hdr := { sched := x, guard := Guard.ofCode r.g }
  let sub := r.m.extractLsb' 10 3
  match r.op.toNat with
  | 0x001 => decR r tyIntCol (.iadd h)
  | 0x002 => decR r tyIntCol (.isub h)
  | 0x003 => decR r tyIntCol (.imul h)
  | 0x004 => decR r tyIntCol (.imulh h)
  | 0x005 => decR r tyIntCol (.imad h)
  | 0x006 => decR r tyIntCol (.idp4 h)
  | 0x007 => decR r tyIntCol (.imin h)
  | 0x008 => decR r tyIntCol (.imax h)
  | 0x009 => decR r tyIntCol (.iabs h)
  | 0x00A => Instr.icmp h <$> r.pform tyIntCol
  | 0x00B => do
      let pc ← pidx r.c
      decR { r with c := 196 } tyIntCol (.sel h pc)
  | 0x00C => decR r tyIntCol (.logic h)
  | 0x00D => decR r tyIntCol (.shl h)
  | 0x00E => decR r tyIntCol (.shr h)
  | 0x00F => decR r tyIntCol (.bfx h)
  | 0x010 => decR r tyIntCol (.bfi h)
  | 0x011 => decR r tyIntCol (.popc h)
  | 0x012 => decR r tyIntCol (.clz h)
  | 0x013 => decR r tyIntCol (.brev h)
  | 0x014 => decR r tyIntCol (.lea h)
  | 0x015 => decR r tyIntCol (.mov h)
  | 0x016 => decR r tyIntCol (.bperm h)
  | 0x017 => do
      let pd ← pidx r.d
      let pa ← pidx r.a
      let pb ← pidx r.b
      need .reserved (r.c == 196 && r.m.extractLsb' 13 4 == 0 && r.m.extractLsb' 0 10 == 0) (.ok (.plog h sub pd pa pb))
  | 0x041 => decI r (.iaddImm h)
  | 0x042 => decI r (.isubImm h)
  | 0x043 => decI r (.imulImm h)
  | 0x04A => do
      let f ← Raw.iform { r with d := 196 }
      need .reserved (!r.d.getLsbD 7) (.ok (.icmpImm h (r.d.extractLsb' 0 3) (r.d.extractLsb' 3 3) (r.d.getLsbD 6) f))
  | 0x04D => decI r (.shlImm h)
  | 0x04E => decI r (.shrImmLogical h)
  | 0x04F => decI r (.shrImmArith h)
  | 0x055 => decI r (.movi h)
  | 0x058 => decI r (.logicImm h 0)
  | 0x059 => decI r (.logicImm h 1)
  | 0x05A => decI r (.logicImm h 2)
  | 0x05B => decI r (.logicImm h 3)
  | 0x05C => decI r (.logicImm h 4)
  | 0x05D => decI r (.logicImm h 5)
  | 0x05E => decI r (.logicImm h 6)
  | 0x05F => decI r (.logicImm h 7)
  | 0x080 => decR r tyFloatCol (.fadd h)
  | 0x081 => decR r tyFloatCol (.fmul h)
  | 0x082 => decR r tyFloatCol (.ffma h)
  | 0x083 => decR r tyFloatCol (.fmin h)
  | 0x084 => decR r tyFloatCol (.fmax h)
  | 0x085 => Instr.fcmp h <$> r.pform tyFloatCol
  | 0x086 => decR r tyFloatCol (.frcp h)
  | 0x087 => decR r tyFloatCol (.frsq h)
  | 0x088 => decR r tyFloatCol (.fsqrt h)
  | 0x089 => decR r tyFloatCol (.fexp2 h)
  | 0x08A => decR r tyFloatCol (.flog2 h)
  | 0x08B => decR r tyFloatCol (.fsin h)
  | 0x08C => decR r tyFloatCol (.fcos h)
  | 0x08D => decR r tyFloatCol (.ftanh h)
  | 0x08E => decR r tyFloatCol (.fscale h)
  | 0x08F => decR r tyFloatCol (.fmaxe h)
  | 0x090 => decR r tyFloatCol (.frnd h)
  | 0x091 => decC r (.fcvt h)
  | 0x092 => decC r (.f2i h)
  | 0x093 => decC r (.i2f h)
  | 0x094 => decR r tyFloatCol (.fclass h)
  | 0x095 => decR r tyFloatCol (.fdot2 h)
  | 0x100 => decR r tyCrossCol (.shfl h)
  | 0x101 => decR r tyCrossCol (.qswap h)
  | 0x102 => decR r tyCrossCol (.qdiff h)
  | 0x103 => do
      let d ← opd r.d
      let pa ← pidx r.a
      need .reserved (r.b == 196 && r.c == 196 && r.m == 0) (.ok (.ballot h d pa))
  | 0x104 => do
      let d ← opd r.d
      let pa ← pidx r.a
      need .reserved (r.b == 196 && r.c == 196 && r.m.extractLsb' 13 4 == 0 && r.m.extractLsb' 0 10 == 0)
        (.ok (.mpopc h sub d pa))
  | 0x105 => do
      let pd ← pidx r.d
      let pa ← pidx r.a
      need .reserved (r.b == 196 && r.c == 196 && r.m.extractLsb' 13 4 == 0 && r.m.extractLsb' 0 10 == 0)
        (.ok (.vote h sub pd pa))
  | 0x106 => do
      let pd ← pidx r.d
      need .reserved (r.a == 196 && r.b == 196 && r.c == 196 && r.m == 0) (.ok (.elect h pd))
  | 0x107 => decR r tyCrossCol (.matchEq h)
  | 0x108 => decR r tyCrossCol (.lred h)
  | 0x109 => decR r tyCrossCol (.lscan h)
  | 0x180 => need .reserved (r.d == 0 && r.a == 0 && !r.m.getLsbD 0) (.ok (.bra h r.t))
  | 0x181 => do
      let a ← opd r.a
      need .reserved (r.d == 196 && r.b == 196 && r.c == 196 && r.m == 0) (.ok (.brx h a))
  | 0x182 => need .reserved (!r.m.getLsbD 0) (.ok (.brd h r.t (r.d ++ r.a)))
  | 0x183 => dec0 r (.join h)
  | 0x184 => do
      let d ← opd r.d
      need .reserved (r.a == 196 && !r.m.getLsbD 0) (.ok (.call h d r.t))
  | 0x185 => do
      let a ← opd r.a
      need .reserved (r.d == 196 && r.b == 196 && r.c == 196 && r.m == 0) (.ok (.ret h a))
  | 0x186 => dec0 r (.exit h)
  | 0x187 => dec0 r (.nop h)
  | 0x188 => dec0 r (.yield h)
  | 0x189 => need .reserved (r.d == 196 && r.a == 196 && !r.m.getLsbD 0) (.ok (.trap h r.t))
  | 0x18A => do
      let d ← opd r.d
      need .reserved (r.a.extractLsb' 0 3 == 0 && !r.m.getLsbD 0)
        (.ok (.spawn h d (r.a.extractLsb' 4 4) (r.a.getLsbD 3) r.t))
  | 0x200 => decM r (.ld h .i8)
  | 0x201 => decM r (.ld h .n8)
  | 0x202 => decM r (.ld h .i16)
  | 0x203 => decM r (.ld h .n16)
  | 0x204 => decM r (.ld h .b32)
  | 0x205 => decM r (.ld h .b64)
  | 0x208 => decM r (.st h .b8)
  | 0x209 => decM r (.st h .b16)
  | 0x20A => decM r (.st h .b32)
  | 0x20B => decM r (.st h .b64)
  | 0x210 => decM r (.lds h .i8)
  | 0x211 => decM r (.lds h .n8)
  | 0x212 => decM r (.lds h .i16)
  | 0x213 => decM r (.lds h .n16)
  | 0x214 => decM r (.lds h .b32)
  | 0x215 => decM r (.lds h .b64)
  | 0x218 => decM r (.sts h .b8)
  | 0x219 => decM r (.sts h .b16)
  | 0x21A => decM r (.sts h .b32)
  | 0x21B => decM r (.sts h .b64)
  | 0x21C => decM r (.sinj h .b8)
  | 0x21D => decM r (.sinj h .b16)
  | 0x21E => decM r (.sinj h .b32)
  | 0x21F => decM r (.sinj h .b64)
  | 0x220 => decM r (.pref h)
  | 0x221 => decX r (.smap h)
  | 0x222 => decX r (.sunmap h)
  | 0x223 => decX r (.wbr h)
  | 0x224 => decX r (.invr h)
  | 0x225 => need .operand r.noOpds (decS r (fun o s _ => .fence h o s))
  | 0x226 => do
      let op ← orErr .field (atomOps[sub.toNat]?)
      Instr.atom h op <$> Raw.aform r
  | 0x227 => need .field (sub == 0) (Instr.acas h <$> r.aform)
  | 0x228 => do
      let op ← orErr .field (atomOps[sub.toNat]?)
      Instr.mred h op <$> Raw.aform r
  | 0x229 => need .field (r.m.extractLsb' 3 2 == 0) (decS r (fun _ s x => .cadd h s x))
  | 0x22A => need .field (r.m.extractLsb' 3 2 == 0) (decS r (fun _ s x => .cwait h s x))
  | 0x22B => decS r (fun o s x => .crd h o s x)
  | 0x22C => decX r (.rlog h)
  | 0x280 => do
      let x ← opd r.b
      decT r (r.ha == 0 && r.hb == 0 && r.q == 0 && r.os == 0) (.thdrToH h r.hd x)
  | 0x281 => do
      let x ← opd r.b
      decT r (r.hd == 0 && r.hb == 0 && r.q == 0 && r.os == 0) (.thdrFromH h r.ha x)
  | 0x282 => do
      let p ← pidx r.b
      decT r (r.hd == 0 && r.hb == 0 && r.q == 0 && r.os == 0) (.tchk h r.ha p)
  | 0x283 => do
      let x ← opd r.b
      let sc ← orErr .field (Scope.ofCode (r.m.extractLsb' 0 3))
      decT r (r.ha == 0 && r.hb == 0) (.tld h r.hd x r.q (Order.ofCode (r.m.extractLsb' 3 2)) sc)
  | 0x284 => do
      let x ← opd r.b
      let sc ← orErr .field (Scope.ofCode (r.m.extractLsb' 0 3))
      decT r (r.hd == 0 && r.hb == 0) (.tst h r.ha x r.q (Order.ofCode (r.m.extractLsb' 3 2)) sc)
  | 0x285 => decT r (r.ha == 0 && r.hb == 0 && r.b == 196 && r.q == 0 && r.os == 0) (.tzero h r.hd)
  | 0x286 => decT r (r.hb == 0 && r.b == 196 && r.q == 0 && r.os == 0) (.ttrans h r.hd r.ha)
  | 0x287 => decT r (r.b == 196 && r.q.extractLsb' 1 19 == 0 && r.os == 0) (.mma h (r.q.getLsbD 0) r.hd r.ha r.hb)
  | 0x288 => decT r (r.hb == 0 && r.b == 196 && r.q == 0 && r.os == 0) (.tcvt h r.hd r.ha)
  | 0x289 => decT r (r.hb == 0 && r.b == 196 && r.q.extractLsb' 6 14 == 0 && r.os == 0)
      (.tres h r.hd r.ha (r.q.extractLsb' 0 6))
  | 0x28A => decT r (r.hb == 0 && r.b == 196 && r.q == 0 && r.os == 0) (.tcrt h r.hd r.ha)
  | 0x300 => decX r (.ntest h)
  | 0x301 => decX r (.hitk h)
  | 0x302 => decX r (.trvpush h)
  | 0x303 => decX r (.trvpop h)
  | 0x304 => decX r (.morton h)
  | 0x305 => do
      let x ← r.regs
      need .reserved (r.m.extractLsb' 13 4 == 0 && r.m.extractLsb' 0 10 == 0 && sub.toNat ≤ 1) (.ok (.qbox h (sub == 1) x))
  | 0x306 => decX r (.bld h)
  | 0x307 => decX r (.cmpct h)
  | 0x308 => decX r (.nfmt h)
  | 0x310 => decX r (.kick h)
  | 0x311 => decX r (.sstart h)
  | 0x312 => decX r (.sstop h)
  | 0x313 => do
      let kind ← orErr .field (bdecKinds[sub.toNat]?)
      let x ← r.regs
      need .reserved (r.m.extractLsb' 13 4 == 0) (.ok (.bdec h kind (r.m.extractLsb' 0 10) x))
  | 0x380 => do
      let csr ← orErr .unassigned (Csr.ofCode (r.m.extractLsb' 5 12))
      let d ← opd r.d
      need .reserved (r.a == 196 && r.b == 196 && r.c == 196 && r.os == 0) (.ok (.csrr h csr d))
  | 0x381 => do
      let csr ← orErr .unassigned (Csr.ofCode (r.m.extractLsb' 5 12))
      let a ← opd r.a
      need .reserved (r.d == 196 && r.b == 196 && r.c == 196 && r.os == 0) (.ok (.csrw h csr a))
  | 0x382 =>
      if r.m = 0 then need .reserved r.noOpds (.ok (.tret h))
      else if r.m = 1 then need .reserved r.noOpds (.ok (.tretSave h))
      else if r.m = 2 then need .reserved r.noOpds (.ok (.tretKill h))
      else .error .reserved
  | 0x383 => decM r (.pld h)
  | 0x384 => decM r (.pst h)
  | 0x385 => decX r (.tlbf h)
  | 0x386 => do
      let x ← r.regs
      need .reserved (r.m.extractLsb' 1 16 == 0) (.ok (.tlbi h (r.m.getLsbD 0) x))
  | 0x387 => decX r (.frec h)
  | 0x388 => dec0 r (.bkpt h)
  | _ => .error .unassigned

/-- One half of a dual word (R284, R285): opcode 7, d 7, s 7, type 4, modifier 4, two zero bits. -/
def decHalf (x : BitVec 31) : Except DecodeError HalfW := do
  let op ← orErr .unassigned (HalfOp.ofCode (x.extractLsb' 24 7))
  let ty ← orErr .field (Ty.ofCode op.col (x.extractLsb' 6 4))
  need .reserved (x.extractLsb' 0 2 == 0)
    (.ok { op, d := x.extractLsb' 17 7, s := x.extractLsb' 10 7, ty, m := SrcMod.ofCode (x.extractLsb' 2 4) })

/-- The instruction of an operation field and a schedule field, before the form's own checks. -/
def decodeFields (op : DWord) (sched : Half) : Except DecodeError Instr :=
  let x := Sched.ofBits sched
  if op.getLsbD 63 then do
    let h0 ← decHalf (op.extractLsb' 32 31)
    let h1 ← decHalf (op.extractLsb' 1 31)
    need .reserved (!op.getLsbD 0) (.ok (.dualWord x h0 h1))
  else (Raw.ofBits op).instr x

/-- An 80-bit word: the operation field in bits 63:0, the schedule field in bits 79:64 (R258). -/
def decodeWord (w : BitVec 80) : Except DecodeError Instr := do
  let i ← decodeFields (w.extractLsb' 0 64) (w.extractLsb' 64 16)
  need .illFormed i.wf (.ok i)

/-- The ten bytes of a word as they lie in a code line (R258), read little-endian; the rest of the
bytes is returned. Fewer than ten bytes hold no word. -/
def decodeBytes (bs : List Byte) : Except DecodeError (Instr × List Byte) :=
  let n := bs.take 10
  if n.length = 10 then do
    let i ← decodeWord (BitVec.ofNat 80 (n.foldr (fun b acc => b.toNat + 256 * acc) 0))
    return (i, bs.drop 10)
  else .error .unassigned

/-! ## Encoding -/

/-- A register-variant arithmetic word. -/
def RForm.raw (op : BitVec 10) (col : List Ty) (h : Hdr) (r : RForm) : Raw where
  op := op
  d := r.d.code
  a := r.a.code
  b := r.b.code
  c := r.c.code
  g := h.guard.code
  m := Ty.code col r.ty ++ r.sub ++ r.half.code ++ r.mb.code ++ r.ma.code

def CForm.raw (op : BitVec 10) (h : Hdr) (r : CForm) : Raw where
  op := op
  d := r.d.code
  a := r.a.code
  b := 196
  c := 196
  g := h.guard.code
  m := Ty.code tyFloatCol r.dt ++ r.k ++ 0#2 ++ Ty.code tyFloatCol r.st ++ r.ma.code

def PForm.raw (op : BitVec 10) (col : List Ty) (h : Hdr) (r : PForm) : Raw where
  op := op
  d := r.pd.setWidth 8
  a := r.a.code
  b := r.b.code
  c := 196
  g := h.guard.code
  m := Ty.code col r.ty ++ r.cond ++ 0#2 ++ r.mb.code ++ r.ma.code

def IForm.raw (op : BitVec 10) (h : Hdr) (r : IForm) : Raw where
  op := op
  d := r.d.code
  a := r.a.code
  b := r.imm.extractLsb' 24 8
  c := r.imm.extractLsb' 16 8
  g := h.guard.code
  m := r.imm.extractLsb' 0 16 ++ BitVec.ofBool r.w

def MForm.raw (op : BitVec 10) (h : Hdr) (r : MForm) : Raw where
  op := op
  d := r.d.code
  a := r.a.code
  b := r.b.code
  c := r.off.extractLsb' 12 8
  g := h.guard.code
  m := r.off.extractLsb' 0 12 ++ r.ord.code ++ r.scope.code

def Regs.raw (op : BitVec 10) (h : Hdr) (m : BitVec 17) (r : Regs) : Raw where
  op := op
  d := r.d.code
  a := r.a.code
  b := r.b.code
  c := r.c.code
  g := h.guard.code
  m := m

def AForm.raw (op : BitVec 10) (h : Hdr) (sub : BitVec 3) (r : AForm) : Raw where
  op := op
  d := r.d.code
  a := r.a.code
  b := r.b.code
  c := r.c.code
  g := h.guard.code
  m := Ty.code tyMemCol r.ty ++ sub ++ 0#5 ++ r.ord.code ++ r.scope.code

/-- A word without operands. -/
def raw0 (op : BitVec 10) (h : Hdr) (m : BitVec 17) : Raw :=
  { op, d := 196, a := 196, b := 196, c := 196, g := h.guard.code, m }

/-- Bits 16:0 holding a scope and an order only. -/
def ordScope (o : Order) (s : Scope) : BitVec 17 := 0#12 ++ o.code ++ s.code

/-- A branch word (R279). -/
def rawBr (op : BitVec 10) (h : Hdr) (d a : BitVec 8) (t : Word) : Raw where
  op := op
  d := d
  a := a
  b := t.extractLsb' 24 8
  c := t.extractLsb' 16 8
  g := h.guard.code
  m := t.extractLsb' 0 16 ++ 0#1

/-- A tile word (R280). -/
def rawTile (op : BitVec 10) (h : Hdr) (hd ha hb : BitVec 4) (x : BitVec 8) (q : BitVec 20) (os : BitVec 5) : Raw where
  op := op
  d := hd ++ ha
  a := hb ++ 0#4
  b := x
  c := q.extractLsb' 12 8
  g := h.guard.code
  m := q.extractLsb' 0 12 ++ os

def HalfW.bits (x : HalfW) : BitVec 31 :=
  (x.op.code ++ x.d ++ x.s ++ Ty.code x.op.col x.ty ++ x.m.code ++ 0#2).cast (by decide)

def LdW.idx (w : LdW) : BitVec 10 := BitVec.ofNat 10 (ldWs.idxOf w)
def StW.idx (w : StW) : BitVec 10 := BitVec.ofNat 10 (stWs.idxOf w)
def AtomOp.code (o : AtomOp) : BitVec 3 := BitVec.ofNat 3 (atomOps.idxOf o)
def BdecKind.code (o : BdecKind) : BitVec 3 := BitVec.ofNat 3 (bdecKinds.idxOf o)

/-- A sub-form in bits 12:10 and nothing else, or with a small immediate in bits 9:0 (R275). -/
def subImm (sub : BitVec 3) (k : BitVec 10) : BitVec 17 := 0#4 ++ sub ++ k

/-- The fields of a full-format word; an event and a dual word have none. -/
def Instr.raw : Instr → Option Raw
  | .iadd h r => r.raw 0x001 tyIntCol h
  | .isub h r => r.raw 0x002 tyIntCol h
  | .imul h r => r.raw 0x003 tyIntCol h
  | .imulh h r => r.raw 0x004 tyIntCol h
  | .imad h r => r.raw 0x005 tyIntCol h
  | .idp4 h r => r.raw 0x006 tyIntCol h
  | .imin h r => r.raw 0x007 tyIntCol h
  | .imax h r => r.raw 0x008 tyIntCol h
  | .iabs h r => r.raw 0x009 tyIntCol h
  | .icmp h r => r.raw 0x00A tyIntCol h
  | .sel h pc r => some { r.raw 0x00B tyIntCol h with c := pc.setWidth 8 }
  | .logic h r => r.raw 0x00C tyIntCol h
  | .shl h r => r.raw 0x00D tyIntCol h
  | .shr h r => r.raw 0x00E tyIntCol h
  | .bfx h r => r.raw 0x00F tyIntCol h
  | .bfi h r => r.raw 0x010 tyIntCol h
  | .popc h r => r.raw 0x011 tyIntCol h
  | .clz h r => r.raw 0x012 tyIntCol h
  | .brev h r => r.raw 0x013 tyIntCol h
  | .lea h r => r.raw 0x014 tyIntCol h
  | .mov h r => r.raw 0x015 tyIntCol h
  | .bperm h r => r.raw 0x016 tyIntCol h
  | .plog h f pd pa pb => some { op := 0x017, d := pd.setWidth 8, a := pa.setWidth 8, b := pb.setWidth 8, c := 196,
                                 g := h.guard.code, m := subImm f 0 }
  | .iaddImm h r => r.raw 0x041 h
  | .isubImm h r => r.raw 0x042 h
  | .imulImm h r => r.raw 0x043 h
  | .icmpImm h pd cond sgn r => some { r.raw 0x04A h with d := 0#1 ++ BitVec.ofBool sgn ++ cond ++ pd }
  | .shlImm h r => r.raw 0x04D h
  | .shrImmLogical h r => r.raw 0x04E h
  | .shrImmArith h r => r.raw 0x04F h
  | .movi h r => r.raw 0x055 h
  | .logicImm h f r => r.raw (0x058 + f.setWidth 10) h
  | .fadd h r => r.raw 0x080 tyFloatCol h
  | .fmul h r => r.raw 0x081 tyFloatCol h
  | .ffma h r => r.raw 0x082 tyFloatCol h
  | .fmin h r => r.raw 0x083 tyFloatCol h
  | .fmax h r => r.raw 0x084 tyFloatCol h
  | .fcmp h r => r.raw 0x085 tyFloatCol h
  | .frcp h r => r.raw 0x086 tyFloatCol h
  | .frsq h r => r.raw 0x087 tyFloatCol h
  | .fsqrt h r => r.raw 0x088 tyFloatCol h
  | .fexp2 h r => r.raw 0x089 tyFloatCol h
  | .flog2 h r => r.raw 0x08A tyFloatCol h
  | .fsin h r => r.raw 0x08B tyFloatCol h
  | .fcos h r => r.raw 0x08C tyFloatCol h
  | .ftanh h r => r.raw 0x08D tyFloatCol h
  | .fscale h r => r.raw 0x08E tyFloatCol h
  | .fmaxe h r => r.raw 0x08F tyFloatCol h
  | .frnd h r => r.raw 0x090 tyFloatCol h
  | .fcvt h r => r.raw 0x091 h
  | .f2i h r => r.raw 0x092 h
  | .i2f h r => r.raw 0x093 h
  | .fclass h r => r.raw 0x094 tyFloatCol h
  | .fdot2 h r => r.raw 0x095 tyFloatCol h
  | .shfl h r => r.raw 0x100 tyCrossCol h
  | .qswap h r => r.raw 0x101 tyCrossCol h
  | .qdiff h r => r.raw 0x102 tyCrossCol h
  | .ballot h d pa => some { raw0 0x103 h 0 with d := d.code, a := pa.setWidth 8 }
  | .mpopc h mode d pa => some { raw0 0x104 h (subImm mode 0) with d := d.code, a := pa.setWidth 8 }
  | .vote h mode pd pa => some { raw0 0x105 h (subImm mode 0) with d := pd.setWidth 8, a := pa.setWidth 8 }
  | .elect h pd => some { raw0 0x106 h 0 with d := pd.setWidth 8 }
  | .matchEq h r => r.raw 0x107 tyCrossCol h
  | .lred h r => r.raw 0x108 tyCrossCol h
  | .lscan h r => r.raw 0x109 tyCrossCol h
  | .bra h t => rawBr 0x180 h 0 0 t
  | .brx h a => some { raw0 0x181 h 0 with a := a.code }
  | .brd h t j => rawBr 0x182 h (j.extractLsb' 8 8) (j.extractLsb' 0 8) t
  | .join h => raw0 0x183 h 0
  | .call h d t => rawBr 0x184 h d.code 196 t
  | .ret h a => some { raw0 0x185 h 0 with a := a.code }
  | .exit h => raw0 0x186 h 0
  | .nop h => raw0 0x187 h 0
  | .yield h => raw0 0x188 h 0
  | .trap h imm => rawBr 0x189 h 196 196 imm
  | .spawn h f n x t => rawBr 0x18A h f.code (n ++ BitVec.ofBool x ++ 0#3) t
  | .ld h w m => m.raw (0x200 + w.idx) h
  | .st h w m => m.raw (0x208 + w.idx) h
  | .lds h w m => m.raw (0x210 + w.idx) h
  | .sts h w m => m.raw (0x218 + w.idx) h
  | .sinj h w m => m.raw (0x21C + w.idx) h
  | .pref h m => m.raw 0x220 h
  | .smap h r => r.raw 0x221 h 0
  | .sunmap h r => r.raw 0x222 h 0
  | .wbr h r => r.raw 0x223 h 0
  | .invr h r => r.raw 0x224 h 0
  | .fence h o s => raw0 0x225 h (ordScope o s)
  | .atom h op r => r.raw 0x226 h op.code
  | .acas h r => r.raw 0x227 h 0
  | .mred h op r => r.raw 0x228 h op.code
  | .cadd h s r => r.raw 0x229 h (ordScope .rlx s)
  | .cwait h s r => r.raw 0x22A h (ordScope .rlx s)
  | .crd h o s r => r.raw 0x22B h (ordScope o s)
  | .rlog h r => r.raw 0x22C h 0
  | .thdrToH h hd x => rawTile 0x280 h hd 0 0 x.code 0 0
  | .thdrFromH h ha x => rawTile 0x281 h 0 ha 0 x.code 0 0
  | .tchk h ha pd => rawTile 0x282 h 0 ha 0 (pd.setWidth 8) 0 0
  | .tld h hd x off o s => rawTile 0x283 h hd 0 0 x.code off (o.code ++ s.code)
  | .tst h ha x off o s => rawTile 0x284 h 0 ha 0 x.code off (o.code ++ s.code)
  | .tzero h hd => rawTile 0x285 h hd 0 0 196 0 0
  | .ttrans h hd ha => rawTile 0x286 h hd ha 0 196 0 0
  | .mma h z hd ha hb => rawTile 0x287 h hd ha hb 196 ((BitVec.ofBool z).setWidth 20) 0
  | .tcvt h hd ha => rawTile 0x288 h hd ha 0 196 0 0
  | .tres h hd ha f => rawTile 0x289 h hd ha 0 196 (f.setWidth 20) 0
  | .tcrt h hd ha => rawTile 0x28A h hd ha 0 196 0 0
  | .ntest h r => r.raw 0x300 h 0
  | .hitk h r => r.raw 0x301 h 0
  | .trvpush h r => r.raw 0x302 h 0
  | .trvpop h r => r.raw 0x303 h 0
  | .morton h r => r.raw 0x304 h 0
  | .qbox h fr r => r.raw 0x305 h (subImm ((BitVec.ofBool fr).setWidth 3) 0)
  | .bld h r => r.raw 0x306 h 0
  | .cmpct h r => r.raw 0x307 h 0
  | .nfmt h r => r.raw 0x308 h 0
  | .kick h r => r.raw 0x310 h 0
  | .sstart h r => r.raw 0x311 h 0
  | .sstop h r => r.raw 0x312 h 0
  | .bdec h kind k r => r.raw 0x313 h (subImm kind.code k)
  | .csrr h csr d => some { raw0 0x380 h (csr.code ++ 0#5) with d := d.code }
  | .csrw h csr a => some { raw0 0x381 h (csr.code ++ 0#5) with a := a.code }
  | .tret h => raw0 0x382 h 0
  | .tretSave h => raw0 0x382 h 1
  | .tretKill h => raw0 0x382 h 2
  | .pld h m => m.raw 0x383 h
  | .pst h m => m.raw 0x384 h
  | .tlbf h r => r.raw 0x385 h 0
  | .tlbi h rc r => r.raw 0x386 h ((BitVec.ofBool rc).setWidth 17)
  | .frec h r => r.raw 0x387 h 0
  | .bkpt h => raw0 0x388 h 0
  | _ => none

/-- The schedule field of a word. -/
def Instr.sched : Instr → Sched
  | .iadd h _ | .isub h _ | .imul h _ | .imulh h _ | .imad h _ | .idp4 h _ | .imin h _ | .imax h _ | .iabs h _
  | .icmp h _ | .sel h _ _ | .logic h _ | .shl h _ | .shr h _ | .bfx h _ | .bfi h _ | .popc h _ | .clz h _ | .brev h _
  | .lea h _ | .mov h _ | .bperm h _ | .plog h _ _ _ _ | .iaddImm h _ | .isubImm h _ | .imulImm h _
  | .icmpImm h _ _ _ _ | .shlImm h _ | .shrImmLogical h _ | .shrImmArith h _ | .movi h _ | .logicImm h _ _
  | .fadd h _ | .fmul h _ | .ffma h _ | .fmin h _ | .fmax h _ | .fcmp h _ | .frcp h _ | .frsq h _ | .fsqrt h _
  | .fexp2 h _ | .flog2 h _ | .fsin h _ | .fcos h _ | .ftanh h _ | .fscale h _ | .fmaxe h _ | .frnd h _
  | .fcvt h _ | .f2i h _ | .i2f h _ | .fclass h _ | .fdot2 h _ | .shfl h _ | .qswap h _ | .qdiff h _
  | .ballot h _ _ | .mpopc h _ _ _ | .vote h _ _ _ | .elect h _ | .matchEq h _ | .lred h _ | .lscan h _
  | .bra h _ | .brx h _ | .brd h _ _ | .join h | .call h _ _ | .ret h _ | .exit h | .nop h | .yield h | .trap h _
  | .spawn h _ _ _ _ | .ld h _ _ | .st h _ _ | .lds h _ _ | .sts h _ _ | .sinj h _ _ | .pref h _ | .smap h _
  | .sunmap h _ | .wbr h _ | .invr h _ | .fence h _ _ | .atom h _ _ | .acas h _ | .mred h _ _ | .cadd h _ _
  | .cwait h _ _ | .crd h _ _ _ | .rlog h _ | .thdrToH h _ _ | .thdrFromH h _ _ | .tchk h _ _ | .tld h _ _ _ _ _
  | .tst h _ _ _ _ _ | .tzero h _ | .ttrans h _ _ | .mma h _ _ _ _ | .tcvt h _ _ | .tres h _ _ _ | .tcrt h _ _
  | .ntest h _ | .hitk h _ | .trvpush h _ | .trvpop h _ | .morton h _ | .qbox h _ _ | .bld h _ | .cmpct h _
  | .nfmt h _ | .kick h _ | .sstart h _ | .sstop h _ | .bdec h _ _ _ | .csrr h _ _ | .csrw h _ _ | .tret h
  | .tretSave h | .tretKill h | .pld h _ | .pst h _ | .tlbf h _ | .tlbi h _ _ | .frec h _ | .bkpt h => h.sched
  | .dualWord x _ _ => x
  | _ => { ru := 0, yld := false, w2 := 0, w1 := 0, set := 0, la := 0 }

/-- The operation field of a word (R270, R284); an event has none. -/
def Instr.opField : Instr → Option DWord
  | .dualWord _ h0 h1 => some ((1#1 ++ h0.bits ++ h1.bits ++ 0#1).cast (by decide))
  | i => i.raw.map Raw.toBits

/-- The 80-bit word of an instruction; none for an event of the machine. -/
def encode (i : Instr) : Option (BitVec 80) := i.opField.map (fun op => i.sched.toBits ++ op)

/-- The host's reading of a table word: the low 80 bits of w, as they lie in a code line. -/
def decodeTableWord (_nbits w : Nat) : Option Instr := (decodeWord (BitVec.ofNat 80 w)).toOption

end Sys2Proof
end

