-- ==== Sys2Proof/Config.lean ====
section
/-!
DEFINITION. What an implementation fixes: the constants of the LH9, and the values the spec leaves open,
each an opaque constant without a body, so that nothing can be proved of a value of it
(notes/assumptions/5.md to 8.md).
-/
namespace Sys2Proof.Config

/-- threads of a group (R22) -/
def W : Nat := 32
/-- bytes of a die's memory (R19) -/
def memBytes : Nat := 2 ^ 37
/-- bytes of the compression metadata region at the top of each die's memory (R125) -/
def metaBytes : Nat := 2 ^ 28
/-- cores of a die (R15) -/
def cores : Nat := 176
/-- bytes of a core's stash (R11) -/
def stashBytes : Nat := 2 ^ 19
/-- entries of a store queue (R199) -/
def sqDepth : Nat := 8
/-- entries of a core's range-lock table (R172) -/
def lockEntries : Nat := 32
/-- walk records of a die (R181) -/
def walkRecords : Nat := 2048
/-- waiter entries of an L2 slice (R168) -/
def waiters : Nat := 4096
/-- entries of a memory-side TLB, its ways, and its sets (R180) -/
def tlbEntries : Nat := 4096
def tlbWays : Nat := 4
def tlbSets : Nat := tlbEntries / tlbWays
/-- sectors a core's L1 holds: 256 KiB (R11, R116, R126) -/
def l1Sectors : Nat := 8192
/-- lines a core's instruction cache holds: 192 KiB (R11) -/
def icacheLines : Nat := 1536
/-- lines an L2 slice holds: 6 MiB (R10) -/
def l2Lines : Nat := 49152
/-- spawn bins of a die (R10) -/
def bins : Nat := 256
/-- launch-tracking entries of a core (R62) -/
def tracking : Nat := 8
/-- entries of a core's queues (R242) -/
def queueDepth : Nat := 16
/-- requests an engine queue holds (R231), and commands a splicer or a coiler queues (R220, R321) -/
def engineQueue : Nat := 16
def treeQueue : Nat := 4

/-- A free value of 32 bits, applied to the counter `State.fresh` (notes/assumptions/5.md). -/
opaque freeWord : Nat → Word
/-- The result a function form picks among those its bound allows (R341), by form and operand bits
(notes/assumptions/6.md). -/
opaque funcPick : Nat → Nat → Nat
/-- The number of sectors, 1 to 4, the LH9's own compression stores a line in (R125; notes/assumptions/16.md). -/
opaque sectors : Line → Nat
/-- The LH9's own compression: the stored image of a line, and the line that an image of so many sectors stands for when it is not
one that was stored (R125; notes/assumptions/16.md). -/
opaque packed : Line → Line
opaque unpacked : Nat → Line → Line
/-- The metadata region: what a line of it holds, by its address and the state of all slots, and the states that a raw store of
8 bytes into it leaves (R125; notes/assumptions/16.md). -/
opaque metaLine : Nat → List (Nat × Nat) → Line
opaque metaStore : Nat → DWord → List (Nat × Nat) → List (Nat × Nat)
/-- The set of a memory-side TLB that holds the entry of a context, a virtual page and a size, modulo the sets (R180;
notes/assumptions/28.md). -/
opaque tlbSet : Nat → Nat → Nat → Nat
/-- Does a link partner lead on to a module? The route is the die's own choice (R250; notes/assumptions/48.md). -/
opaque routes : Nat → Nat → Bool
/-- What the port of a die that runs nothing shows past the service status: the firmware-load area, whose layout the spec does
not give (R255; notes/assumptions/7.md). -/
opaque firmwareArea : Nat → Nat → DWord
/-- A die's identity certificate (R255). -/
opaque certificate : Nat → Nat
/-- The signatures of an attestation report, by die and nonce (R255; notes/assumptions/7.md). -/
opaque ecdsaSign : Nat → BitVec 256 → Nat
opaque lmsSign : Nat → BitVec 256 → Nat
/-- The digest of a die's firmware and its fuse state (R255). -/
opaque firmwareDigest : Nat → BitVec 384
opaque fuses : Nat → DWord

end Sys2Proof.Config
end

