-- ==== Sys2Proof/Machine/SMap.lean ====
section
/-!
DEFINITION. Sparse maps: lists of (key, value) pairs with strictly rising keys. A key that is not
listed reads as absent, or as a default where the map has one; a map with a default never lists a
key at the default, so that equal maps are equal lists.
-/
namespace Sys2Proof.Machine

abbrev SMap (α : Type) := List (Nat × α)

variable {α : Type}

/-- The value listed at a key. -/
def SMap.find : SMap α → Nat → Option α
  | [], _ => none
  | (k, x) :: m, n => if n < k then none else if n = k then some x else SMap.find m n

/-- Listing a value at a key. -/
def SMap.put : SMap α → Nat → α → SMap α
  | [], n, y => [(n, y)]
  | (k, x) :: m, n, y =>
    if n < k then (n, y) :: (k, x) :: m
    else if n = k then (n, y) :: m
    else (k, x) :: SMap.put m n y

/-- Listing nothing at a key. -/
def SMap.del : SMap α → Nat → SMap α
  | [], _ => []
  | (k, x) :: m, n =>
    if n < k then (k, x) :: m
    else if n = k then m
    else (k, x) :: SMap.del m n

/-- The value at a key of a map with a default. -/
def SMap.getD (m : SMap α) (n : Nat) (d : α) : α := (m.find n).getD d

/-- Writing a map with a default: the default itself is not listed. -/
def SMap.setD [DecidableEq α] (m : SMap α) (n : Nat) (y d : α) : SMap α :=
  if y = d then m.del n else m.put n y

/-- Strictly rising keys, all above `lo`. -/
def SMap.risingFrom : Option Nat → SMap α → Bool
  | _, [] => true
  | none, (k, _) :: m => SMap.risingFrom (some k) m
  | some j, (k, _) :: m => decide (j < k) && SMap.risingFrom (some k) m

/-- The canonical form: keys strictly rising. -/
def SMap.wf (m : SMap α) : Bool := SMap.risingFrom none m

/-- The canonical form of a map with a default: keys strictly rising, no entry at the default. -/
def SMap.wfD [DecidableEq α] (m : SMap α) (d : α) : Bool := m.wf && m.all (fun x => x.2 != d)

/-- The first key from `lo` on, below `lo + fuel`, that is not listed. -/
def SMap.freeFrom (m : SMap α) : Nat → Nat → Option Nat
  | _, 0 => none
  | lo, fuel + 1 => if (m.find lo).isNone then some lo else SMap.freeFrom m (lo + 1) fuel

end Sys2Proof.Machine
end

