-- ==== Sys2Proof/Machine/State.lean ====
section
/-!
DEFINITION. The state of an LH9 module as plain data: its groups, cores, dies, queues, engines and the
module's registers (INVENTORY.md, '## State'). Nothing here computes beyond the value after reset.
-/
namespace Sys2Proof.Machine

/-- A byte memory: what is not listed reads as zero (notes/assumptions/3.md, DESIGN CHOICE). -/
abbrev Memory := List Host.Cell

/-! ## Groups -/

/-- Trap causes (R195), in code order. -/
inductive Cause where
  | illegal | privilege | lineIntegrity | regBudget | divergentBranch | divOverflow | divMismatch
  | spawnOverflow | spawnEntry | hdrIntegrity | hdrMismatch | tileUnsupported | badOwner | stashRange
  | smapConflict | misaligned | counterPage | rangeLock | badPhys | poisoned | regUncorrectable
  | software | breakpoint | preempt | resume
deriving DecidableEq, Repr, Inhabited

/-- An entry of the divergence stack (R35). -/
structure DivEntry where
  j : DWord
  m : Mask
  p : Mask
  pp : DWord
deriving DecidableEq, Repr, Inhabited

/-- What stands in a group place (R13). -/
inductive GKind where
  | ordinary | walker | reel
deriving DecidableEq, Repr, Inhabited

/-- The resident states of R44; a group in trap mode is Trapped and has a bank. A killed group still
lets its issued work land (R66). -/
inductive GState where
  | ready | waiting | counterParked | faultParked | retiring | killed
deriving DecidableEq, Repr, Inhabited

/-- The owner and the generation a parked entry records (R188). -/
structure Park where
  owner : Nat
  gen : Half
deriving DecidableEq, Repr, Inhabited

/-- One register write of a result that is not written yet. -/
inductive Wr where
  | v (reg lane : Nat) (w : Word)
  | s (reg : Nat) (w : Word)
  | p (idx : Nat) (lanes vals : Mask)
  | h (n : Nat) (x : Header)
deriving DecidableEq, Repr, Inhabited

/-- An outstanding or parked class-T instruction (R188, R266). `src` holds captured source word j of
lane i at 32 j + i; `faults` lists the pages whose requests were answered with a fault; `instr` is none for an entry that a restore routine wrote, which is read again at
`pc`; `tab` is the node-format table a node test was issued under (R368); `counted` lists the absent lines whose feedback
counter has had its request (R192). -/
structure POp where
  pc : DWord
  instr : Option Instr
  todo : Mask
  help : Mask
  src : SMap Word
  frm : BitVec 2
  seq : Nat
  parked : Option Park
  faults : List (Nat × Park)
  res : List Wr
  tab : Option (BitVec 2048)
  counted : List Nat
deriving DecidableEq, Repr, Inhabited

/-- An allocated tag: its instruction while the result is outstanding; `async` while a store-queue entry
holds it; neither once it is released (R266). -/
structure TagSt where
  op : Option POp
  async : Bool
deriving DecidableEq, Repr, Inhabited

/-- A class-L result and the words its window still lets issue (R267). -/
structure LPend where
  left : Nat
  res : List Wr
deriving DecidableEq, Repr, Inhabited

/-- A line on its way back to its home: whole for a coherent line, the masked bytes for a managed one. -/
structure WbLine where
  va : Nat
  managed : Bool
  mask : BitVec 128
  w : Nat
  r : Nat
  poison : Bool
  data : Line
deriving DecidableEq, Repr, Inhabited

/-- What a store-queue entry does when it leaves. -/
inductive SqKind where
  /-- `ST`, the stores of `TRVPUSH` -/
  | store
  /-- `STS`, which a fill of poisoned data traps (R122) -/
  | sts
  /-- `SINJ` with its destination mask -/
  | sinj (mask : Half)
  | mred (op : AtomOp) (ty : Ty)
  | cadd
  /-- `WBR` over a range -/
  | wbr
  /-- write-backs of lines that `SUNMAP`, a gang's exit or a save unbound (R122, R123) -/
  | writeBack (xs : List WbLine)
  /-- `PST` -/
  | phys
deriving DecidableEq, Repr, Inhabited

/-- One access of a store-queue entry: a lane, its address, width in bytes and data; `done` marks the bytes
of a misaligned access that are performed already. -/
structure SqAcc where
  lane : Nat
  stash : Bool
  addr : DWord
  width : Nat
  data : DWord
  done : Byte
deriving DecidableEq, Repr, Inhabited

/-- An entry of a group's store queue (R156, R199). It leaves only when every access of the group issued before `after` has been
performed, parked ones included: a release, or a store behind a fence (R158, R337). `whole` lists the lines whose 128 bytes its
threads write (R138, R383). -/
structure SqEntry where
  pc : DWord
  kind : SqKind
  ord : Order
  scope : Scope
  accs : List SqAcc
  tag : Nat
  frm : BitVec 2
  seq : Nat
  parked : Option Park
  after : Nat
  whole : List Nat
deriving DecidableEq, Repr, Inhabited

/-- A `TST` whose units are not all performed (R111): the h register it names, its base address as captured at issue, and its word,
none while a return has yet to read it again at `pc` (R199); `pos` counts its lines that are performed. -/
structure TstOp where
  pc : DWord
  instr : Option Instr
  h : Nat
  base : DWord
  pos : Nat
  seq : Nat
  parked : Option Park
deriving DecidableEq, Repr, Inhabited

/-- A parked `CWAIT` (R168); `deaf` stands while the next wake-up its home sends is one that no link carries (R253). -/
structure CPark where
  addr : DWord
  target : DWord
  d : Nat
  npc : DWord
  deaf : Bool
deriving DecidableEq, Repr, Inhabited

/-- What a trap banks (R196, R199): the words of the program's hidden state as `wdata` numbers them, group unit
and thread unit (lane i of word j at 32 j + i); the allocated tags; the owner and generation of a parked store-queue head;
and the issue order of what is parked (tag k at k, the `TST` at 7, queue entry j at 8 + j). The words have no place for the lines
that queue entry j writes back (`keep`), the accesses of entry j in a lane that has several, or one of another width than the
entry's (`sqRest`), the helpers that the parked instruction of tag k still has (`helps`), and its node-format table (`tabs`). -/
structure Bank where
  gw : SMap Word
  tw : SMap Word
  tags : SMap TagSt
  keep : SMap (List WbLine)
  sqPark : Option Park
  seqs : SMap Nat
  sqRest : SMap (List SqAcc)
  helps : SMap Mask
  tabs : SMap (BitVec 2048)
deriving DecidableEq, Repr, Inhabited

/-- A trap that waits until every issued instruction has completed or parked (R196). -/
structure TrapReq where
  cause : Cause
  info : DWord
  pc : DWord
deriving DecidableEq, Repr, Inhabited

/-- A resident group (R21 to R44). Lane i of vr is listed at 32 r + i of `v`; p0 is not held. `fence` is the issue number of the
group's latest `fence.rel` or `fence.ar` (R337). -/
structure Group where
  kind : GKind
  st : GState
  pc : DWord
  npc : DWord
  ir : DWord
  v : SMap Word
  s : SMap Word
  p : SMap Mask
  h : SMap Header
  live : Mask
  act : Mask
  help : Mask
  div : List DivEntry
  frm : BitVec 2
  fflags : BitVec 5
  regs : Nat
  prio : Nat
  age : Nat
  aged : Nat
  yielded : Bool
  order : Nat
  ctx : Nat
  gangKey : Nat
  ngroups : Nat
  group : Nat
  gang : Word
  span : Word
  member : Nat
  queue : Nat
  seqNo : Nat
  spawned : Bool
  spawnTab : DWord
  args : DWord
  bank : Option Bank
  trapWait : Option TrapReq
  preempting : Bool
  trapcause : Byte
  trapinfo : DWord
  trappc : DWord
  wselThr : Bool
  wselIdx : Nat
  tags : SMap TagSt
  lpend : List LPend
  sq : List SqEntry
  tst : Option TstOp
  cpark : Option CPark
  fetchPark : Option Park
  walks : SMap Nat
  fence : Nat
deriving DecidableEq, Repr, Inhabited

/-! ## Gangs, launches, queues -/

/-- A stash binding (R121): stash offset within the allocation, global address, length. -/
structure Binding where
  o : Nat
  a : DWord
  n : Nat
deriving DecidableEq, Repr, Inhabited

/-- A gang on a core, or saved from one (R21, R200). `places` lists its resident groups. -/
structure Gang where
  ctx : Nat
  queue : Nat
  seqNo : Nat
  gang : Nat
  spawned : Bool
  core : Nat
  stashBase : Nat
  stashSize : Nat
  places : List Nat
  binds : List Binding
deriving DecidableEq, Repr, Inhabited

/-- A group that a save routine has stored (R202): what the scheduler keeps of it. `queued` marks a
`qlead` group that saved queue entries. -/
structure SavedGroup where
  gangKey : Nat
  place : Nat
  group : Nat
  ngroups : Nat
  gang : Word
  span : Word
  member : Nat
  queue : Nat
  seqNo : Nat
  spawned : Bool
  spawnTab : DWord
  args : DWord
  regs : Nat
  prio : Nat
  ctx : Nat
  kind : GKind
  queued : Bool
  live : Mask
  stash : Nat
  seqs : SMap Nat
  sqRest : SMap (List SqAcc)
  helps : SMap Mask
  tabs : SMap (BitVec 2048)
  t : Nat
  fence : Nat
deriving DecidableEq, Repr, Inhabited

/-- A task record the queue has taken: the scheduler's copy, its address and its progress (R47, R52); `t` is the logical time its
placements acquire and its completion releases (R158), `tw` that of the scheduler's latest write of the record; `owes` stands
while its record in memory lacks a relaunch (R66). -/
structure Task where
  data : Line
  addr : DWord
  ctx : Nat
  st : Nat
  fcause : Byte
  relaunches : Nat
  placed : List Nat
  exited : List Nat
  failing : Bool
  t : Nat
  tw : Nat
  owes : Bool
deriving DecidableEq, Repr, Inhabited

/-- A hardware queue's descriptor and the settings in force (R50). `enabling` stands from the write of 1 to `en` until `taken`
has its value; `epoch` counts the enablings, so that records of one number taken under two of them stay apart. -/
structure QDesc where
  subctr : DWord
  ring : DWord
  taken : DWord
  wdog : Half
  ctx : Nat
  lsize : Nat
  frozen : Bool
  fcause : Byte
  en : Bool
  fseq : DWord
  subctrNow : DWord
  ringNow : DWord
  lsizeNow : Nat
  enabling : Bool
  epoch : Nat
deriving DecidableEq, Repr, Inhabited

/-! ## Caches, homes, translation -/

/-- The states of a line a cache holds (R122, R140, R128). -/
inductive CopySt where
  | unfilled | s | sc | o | managed
deriving DecidableEq, Repr, Inhabited

/-- A line in a core's L1, or bound in its stash when `stash` gives the stash offset of its bytes
(R122, R124, R140); `sect` is the sector count of an SC copy, and 4 of any other. -/
structure Copy where
  st : CopySt
  data : Line
  w : Nat
  r : Nat
  mask : BitVec 128
  unread : Bool
  poison : Bool
  stash : Option Nat
  sect : Nat
deriving DecidableEq, Repr, Inhabited

/-- The bits a translation carries (R117, R119, R177). -/
structure Perm where
  rd : Bool
  wr : Bool
  ex : Bool
  cow : Bool
  awf : Bool
  managed : Bool
  ctr : Bool
  cmp : Bool
  fbi : Nat
deriving DecidableEq, Repr, Inhabited

/-- A home's entry for a line (R140): `frame` is its physical byte address; `hold` stands while R145
holds recalls back. While `unknown` stands, `owner` names the core whose owned copy came back first, with its data (R150). -/
structure HomeLine where
  data : Line
  perm : Perm
  frame : Nat
  host : Bool
  w : Nat
  h : Nat
  cls : Nat
  z : Bool
  owner : Option Nat
  unknown : Bool
  hold : Bool
  poison : Bool
  dirty : Bool
deriving DecidableEq, Repr, Inhabited

/-- A parked `CWAIT`'s entry at its home (R168). -/
structure Waiter where
  place : Nat
  ctx : Nat
  va : Nat
  target : Nat
deriving DecidableEq, Repr, Inhabited

/-- The two times of an L2 slice and its waiter entries (R139, R168). -/
structure Slice where
  mts : Nat
  htop : Nat
  waiters : List Waiter
deriving DecidableEq, Repr, Inhabited

/-- A memory-side TLB entry (R180): `size` is the log2 of the page's bytes, `page` its base address. -/
structure TlbE where
  ctx : Nat
  page : Nat
  size : Nat
  frame : Nat
  perm : Perm
deriving DecidableEq, Repr, Inhabited

/-- The access kinds of R182. -/
inductive AccK where
  | load | store | atomic | fetch | ntest | engRead | engWrite | prefetch
deriving DecidableEq, Repr, Inhabited

/-- A walk record (R181, R182): `core` is the core of the die whose walker slot it was handed to, `walker` the place and lane
that hold it. -/
structure Walk where
  ctx : Nat
  va : Nat
  acc : AccK
  host : Bool
  slice : Nat
  stale : Bool
  core : Nat
  walker : Option (Nat × Nat)
deriving DecidableEq, Repr, Inhabited

/-- Who waits for a translation: a part of a group, or a unit. -/
inductive Req where
  | tag (place tag : Nat)
  | sq (place : Nat)
  | tst (place : Nat)
  | cwait (place : Nat)
  | word (place : Nat)
  | fetch (place : Nat)
  | engine (die eng : Nat)
  | splicer (die n : Nat)
  | coiler (die n : Nat)
  | submit (q : Nat)
  | watch (q seqNo : Nat)
  | add (id : Nat)
  | log (core : Nat)
  | recall (core key : Nat)
deriving DecidableEq, Repr, Inhabited

/-- A requester that waits: on a walk record, or, after a fault, on a reply of its generation (R190, R452). -/
structure Wait where
  req : Req
  die : Nat
  walk : Option Nat
  ctx : Nat
  gen : Half
deriving DecidableEq, Repr, Inhabited

/-- What comes before a unit's counter add: nothing; the write of a fault record of a context (R189); the
write of a log entry of a core, with its start and length, and the ring and its size as the core's `RLOG` read them (R133). -/
inductive AddPre where
  | plain
  | fault (ctx : Nat) (x : BitVec 256)
  | log (core start len ring lsize : Nat)
deriving DecidableEq, Repr, Inhabited

/-- A counter add of a unit that has not reached its home (R170, R452); `port` names the port that a doorbell's came through. -/
structure Add where
  id : Nat
  ctx : Nat
  va : DWord
  amount : DWord
  token : Bool
  pre : AddPre
  die : Nat
  t : Nat
  port : Option Nat
deriving DecidableEq, Repr, Inhabited

/-- A push on its way to a core (R146). -/
structure Push where
  core : Nat
  src : Nat
  ctx : Nat
  va : Nat
  data : Line
  w : Nat
  r : Nat
  z : Bool
  poison : Bool
  sect : Nat
deriving DecidableEq, Repr, Inhabited

/-! ## Engines, splicers, coilers, bins -/

/-- A range-lock entry (R172): `id` is the request's number. -/
structure Lock where
  ctx : Nat
  lo : Nat
  len : Nat
  dst : Bool
  id : Nat
deriving DecidableEq, Repr, Inhabited

/-- The kick register's contents, or a copy-engine request with its progress (R231 to R241). `stage` is 0 while the kind's
work goes on, 1 and 2 while counted bytes are added to `c0` with more work or none to come, 3 for the add to `c1`;
`fail` stands once the request has failed; `gang` is the key of the gang that made it, `index` its number in its launch, `spawned`
where it is of spawned threads. `phase` and `pos` say how far the kind's work is, `bytes` what is written and
not counted, `tw` the latest time of its accesses, `met` whether a translation of a tile copy has ended in a fault (R112). `units` lists the aligned 16-byte units of its sources that it has read (R173,
R234). A depth composite keeps its round and region [lo, hi), a dedup-write the frames it used and the pages it shared, a tile
copy in `used` where its free values begin. -/
structure EngReq where
  id : Nat
  block : Line
  ctx : Nat
  frm : BitVec 2
  t : Nat
  tw : Nat
  core : Nat
  queue : Nat
  seqNo : Nat
  gang : Nat
  index : Nat
  spawned : Bool
  stage : Nat
  fail : Bool
  phase : Nat
  pos : Nat
  bytes : Nat
  round : Nat
  lo : Nat
  hi : Nat
  used : Nat
  shared : Nat
  units : SMap Nat
  met : Bool
deriving DecidableEq, Repr, Inhabited

/-- One act of a splicer after its plan (R223): a line, a counter add of 1 or of the error token, the joining root. -/
inductive SplOp where
  | line (va : Nat) (x : Line)
  | add (va : DWord) (token : Bool)
  | join
deriving DecidableEq, Repr, Inhabited

/-- A splicer or coiler command with its progress (R220 to R227). `phase` says how far it is, `want` lists the lines of a
tree still to visit (address, address of the copy, kind), `got` the lines read, `pos` the clusters read or the pool
lines used, `ops` the acts still to make, `unit` the 16-byte units written of the line whose turn it is (R224); `tw` is the latest
time of its accesses. -/
structure TreeReq where
  id : Nat
  block : Line
  ctx : Nat
  t : Nat
  tw : Nat
  core : Nat
  phase : Nat
  want : List (Nat × Nat × Nat)
  got : SMap Line
  pos : Nat
  unit : Nat
  ops : List SplOp
deriving DecidableEq, Repr, Inhabited

/-- A spawn bin (R39): its key, the records in arrival order, the logical time of the deposits (R163); `held` is 0, or
gives the order of formation of a group that found no slot to spill to (R40). -/
structure Bin where
  ctx : Nat
  queue : Nat
  seqNo : Nat
  entry : DWord
  ent : Header
  npay : Nat
  recs : List (SMap Word)
  t : Nat
  held : Nat
deriving DecidableEq, Repr, Inhabited

/-- A formed group that waits for a place (R39). -/
structure Formed where
  ctx : Nat
  queue : Nat
  seqNo : Nat
  entry : DWord
  ent : Header
  npay : Nat
  recs : List (SMap Word)
  t : Nat
  no : Nat
deriving DecidableEq, Repr, Inhabited

/-- The spawn overflow ring of a context (R40): the number of its next slot to drain, and the launches and entry addresses of
the groups it holds, in order, and the latest time written to it. -/
structure Ring where
  head : Nat
  held : List (Nat × Nat × DWord)
  t : Nat
deriving DecidableEq, Repr, Inhabited

/-- A context's descriptor as the die holds it (R179): the 64 bytes read from the context table. -/
abbrev Desc := BitVec 512

/-- The written-range log of a core (R132, R133). -/
structure Log where
  ctx : Nat
  block : DWord
  lsize : Nat
  ring : DWord
deriving DecidableEq, Repr, Inhabited

/-- A range that an `INVR` discarded while loads issued before it were outstanding (R130, R348): loads of the context with an
older issue number keep no managed copy of it. -/
structure Discard where
  ctx : Nat
  lo : Nat
  hi : Nat
  seq : Nat
deriving DecidableEq, Repr, Inhabited

/-! ## Cores and dies -/

/-- A core: its logical time, caches, stash, range locks, kick register, hardware queues with their owner, log, stream, and what its
receivers refused; `qsaved` stands once a group of the owner has saved the queues' entries, `qmoved` once they have changed since
(R202, R243). -/
structure Core where
  t : Nat
  l1 : SMap Copy
  icache : SMap Line
  stash : SMap Byte
  locks : List Lock
  kick : Option (Nat × EngReq)
  q : SMap (List (SMap Word))
  qowner : Option Nat
  qsaved : Bool
  qmoved : Bool
  log : Option Log
  logOpen : Option (Nat × Nat)
  reelEnd : Word
  reelGang : Nat
  reelCtx : Nat
  gated : Bool
  halted : Bool
  scalar : SMap Nat
  injrefused : Nat
  invs : List Discard
deriving DecidableEq, Repr, Inhabited

/-- The event and error counts of a die (R251). -/
structure Counts where
  dirrecov : Nat
  stalerep : Nat
  linkdrop : Nat
  ceReg : Nat
  ceStash : Nat
  ceL1 : Nat
  ceIcache : Nat
  ceL2 : Nat
  ceDir : Nat
  ceTlb : Nat
  memPoison : Nat
  cmpWb : Nat
  cmpSect : Nat
  cmpExp : Nat
  ctrdrop : Nat
deriving DecidableEq, Repr, Inhabited

/-- A die. `sect` says how the slots of its memory stand (R125; `Die.slot`). `seen` lists the contexts whose descriptor it last saw with `en` 1 (R40); `walkRR` gives for each L2 slice the core
its last walk records went to (R181). -/
structure Die where
  mem : Memory
  host : Memory
  poison : SMap Half
  sect : SMap Nat
  l2 : SMap HomeLine
  slices : SMap Slice
  tlb : SMap (List TlbE)
  walks : SMap Walk
  desc : SMap Desc
  gens : SMap Half
  engines : SMap (List EngReq)
  splicers : SMap (List TreeReq)
  coilers : SMap (List TreeReq)
  bins : SMap Bin
  rings : SMap Ring
  formed : List Formed
  tables : SMap (BitVec 2048)
  ctxtab : DWord
  walkentry : DWord
  trapentry : DWord
  savetab : DWord
  cnt : Counts
  clock : DWord
  placerRR : Nat
  resv : List (Nat × Nat)
  walkRR : SMap Nat
  seen : SMap Bool
  up : Bool
deriving DecidableEq, Repr, Inhabited

/-- The service status (R254). -/
structure Status where
  mrate : Nat
  clk : Nat
  mall : Bool
  dies : BitVec 2
  full : Bool
deriving DecidableEq, Repr, Inhabited

/-- The domain register (R250). -/
structure Domain where
  set : Bool
  last : Nat
  module : Nat
deriving DecidableEq, Repr, Inhabited

/-- An attestation report (R255); the certificate and the signatures are free values. -/
structure Report where
  die : Nat
  nonce : BitVec 256
  digest : BitVec 384
  fuses : DWord
  cert : Nat
  ecdsa : Nat
  lms : Nat
deriving DecidableEq, Repr, Inhabited

/-- A shoot-down request with `rc` that waits for a write-back (R187). -/
structure Down where
  ctx : Nat
  va : DWord
  len : DWord
deriving DecidableEq, Repr, Inhabited

/-- The module. `agenda` holds the events that come next, `cur` the place of the group that issues, `turn`
counts steps,
`fresh` and `seq` count free values and issued accesses (the model's own; notes/assumptions/1.md, 5.md). `remote` holds the
homes of the dies of other modules, die of owner value o at 2 + o (notes/assumptions/48.md); `vfCount` how many virtual
functions each port's SR-IOV capability enables (R250). -/
structure State where
  agenda : List Instr
  cur : Option Nat
  turn : Nat
  fresh : Nat
  seq : Nat
  groups : SMap Group
  gangs : SMap Gang
  saved : List SavedGroup
  tasks : SMap Task
  queues : SMap QDesc
  cores : SMap Core
  die0 : Die
  die1 : Die
  remote : SMap Die
  waits : List Wait
  adds : List Add
  pushes : List Push
  downs : List Down
  status : Status
  domain : Domain
  sems : SMap Nat
  cap : Nat
  thr : Bool
  tdie : Half
  tin : Half
  vfs : SMap Word
  vfCount : SMap Nat
  hostUp : SMap Bool
  hawser : SMap Nat
  portData : DWord
  report : Option Report
  railOff : Bool
deriving DecidableEq, Repr, Inhabited

/-- The named reasons a step stops. -/
inductive Fault where
  /-- Raised by step when the module's auxiliary rail is off: such a module answers nothing
  (13_system, introduction). Safe: nothing is claimed of it. -/
  | auxiliaryRailOff
deriving DecidableEq, Repr

/-- The named refusals. -/
inductive Refusal where
  /-- An instruction without a meaning. Safe. Raised by exec's refused arms only. -/
  | notModelled (mnemonic : String)
deriving DecidableEq, Repr

/-- A step's outcome. -/
abbrev Out := Host.Outcome State Fault Refusal

/-! ## After reset -/

/-- A core after reset: every copy in I, logical time 0, queues unowned (R139, R243). -/
def Core.reset : Core where
  t := 0
  l1 := []
  icache := []
  stash := []
  locks := []
  kick := none
  q := []
  qowner := none
  qsaved := false
  qmoved := false
  log := none
  logOpen := none
  reelEnd := 0
  reelGang := 0
  reelCtx := 0
  gated := false
  halted := false
  scalar := []
  injrefused := 0
  invs := []

def Counts.reset : Counts where
  dirrecov := 0
  stalerep := 0
  linkdrop := 0
  ceReg := 0
  ceStash := 0
  ceL1 := 0
  ceIcache := 0
  ceL2 := 0
  ceDir := 0
  ceTlb := 0
  memPoison := 0
  cmpWb := 0
  cmpSect := 0
  cmpExp := 0
  ctrdrop := 0

/-- A die after reset with the given memory; `ctxtab` to `savetab` hold zero (notes/assumptions/2.md,
DESIGN CHOICE: the spec gives none). -/
def Die.reset (mem host : Memory) (up : Bool) : Die where
  mem := mem
  host := host
  poison := []
  sect := []
  l2 := []
  slices := []
  tlb := []
  walks := []
  desc := []
  gens := []
  engines := []
  splicers := []
  coilers := []
  bins := []
  rings := []
  formed := []
  tables := []
  ctxtab := 0
  walkentry := 0
  trapentry := 0
  savetab := 0
  cnt := Counts.reset
  clock := 0
  placerRR := 0
  resv := []
  walkRR := []
  seen := []
  up := up

def Slice.reset : Slice where
  mts := 0
  htop := 0
  waiters := []

def QDesc.reset : QDesc where
  subctr := 0
  ring := 0
  taken := 0
  wdog := 0
  ctx := 0
  lsize := 0
  frozen := false
  fcause := 0
  en := false
  fseq := 0
  subctrNow := 0
  ringNow := 0
  lsizeNow := 0
  enabling := false
  epoch := 0

/-- The reduced service: reset values of R254. -/
def Status.reset : Status where
  mrate := 16
  clk := 600
  mall := false
  dies := 0b01
  full := false

/-- The service status word (R254). -/
def Status.word (x : Status) : DWord :=
  BitVec.ofNat 64 (x.mrate * 2 ^ 24 + x.clk * 2 ^ 12 + x.mall.toNat * 8 + x.dies.toNat * 2 + x.full.toNat)

/-- Die 0's memory when firmware has copied the status word to physical address 0 (R254). -/
def Status.memory (x : Status) : Memory :=
  [0, 1, 2, 3, 4, 5, 6, 7].foldl
    (fun m k => SMap.setD m k (x.word.extractLsb' (8 * k) 8) 0) []

/-- The module right after reset, in reduced service (R139, R213, R243, R250 to R254, R257). -/
def State.reset : State where
  agenda := []
  cur := none
  turn := 0
  fresh := 0
  seq := 0
  groups := []
  gangs := []
  saved := []
  tasks := []
  queues := []
  cores := []
  die0 := Die.reset Status.reset.memory [] true
  die1 := Die.reset [] [] true
  remote := []
  waits := []
  adds := []
  pushes := []
  downs := []
  status := Status.reset
  domain := { set := false, last := 0, module := 0 }
  sems := []
  cap := 2700
  thr := false
  tdie := 0x8000
  tin := 0x8000
  vfs := []
  vfCount := []
  hostUp := []
  hawser := []
  portData := 0
  report := none
  railOff := false

end Sys2Proof.Machine
end

