-- ==== Sys2Proof/Machine/Ops.lean ====
section
/-!
DEFINITION. The named operations over the state: bits of lines, places, registers, memory, owners, and
the taking of a trap and the return from it.
-/
namespace Sys2Proof.Machine

/-! ## Numbers and bits -/

/-- `Nat` as a word of any width, wrapping. -/
def bv (w n : Nat) : BitVec w := BitVec.ofNat w n

/-- An n-bit number read as two's complement. -/
def sgn (n x : Nat) : Int := if 2 * (x % 2 ^ n) < 2 ^ n then (x % 2 ^ n : Int) else (x % 2 ^ n : Int) - 2 ^ n

/-- An integer reduced to n bits. -/
def wrap (n : Nat) (x : Int) : Nat := (x % (2 ^ n : Int)).toNat

/-- Bits hi..lo of a number. -/
def bits (x lo n : Nat) : Nat := x / 2 ^ lo % 2 ^ n

def bit (x k : Nat) : Bool := x.testBit k

/-- The numbers 0 to n − 1. -/
def upTo (n : Nat) : List Nat := List.range n

/-- The 32 lanes of a group. -/
def lanes : List Nat := upTo 32

/-- Is lane i in the mask? -/
def maskHas (m : Mask) (i : Nat) : Bool := m.getLsbD i

/-- The lanes of a mask in ascending order. -/
def maskLanes (m : Mask) : List Nat := lanes.filter (fun i => m.getLsbD i)

/-- The mask of the lanes that satisfy a test. -/
def maskOf (f : Nat → Bool) : Mask :=
  lanes.foldl (fun m i => if f i then m ||| (1#32 <<< i) else m) 0

/-- All lanes of every quad that holds a lane of m (R30). -/
def maskQuads (m : Mask) : Mask :=
  maskOf (fun i => (bits m.toNat (i / 4 * 4) 4) != 0)

/-! ## Lines -/

/-- Byte k of a line. -/
def lineByte (x : Line) (k : Nat) : Byte := x.extractLsb' (8 * k) 8

/-- n bytes of a line from offset k, as a little-endian number (R2). -/
def lineGet (x : Line) (k n : Nat) : Nat := bits x.toNat (8 * k) (8 * n)

/-- A line with n bytes from offset k replaced; bytes past the end are dropped. -/
def linePut (x : Line) (k n v : Nat) : Line :=
  let m : Line := bv 1024 (2 ^ (8 * n) - 1) <<< (8 * k)
  (x &&& ~~~m) ||| ((bv 1024 (v % 2 ^ (8 * n))) <<< (8 * k))

/-- A line with the bytes of a mask taken from another. -/
def lineMerge (x y : Line) (m : BitVec 128) : Line :=
  (upTo 128).foldl (fun a k => if m.getLsbD k then linePut a k 1 (lineByte y k).toNat else a) x

/-- The mask bits of n bytes from offset k. -/
def byteMask (k n : Nat) : BitVec 128 := bv 128 (2 ^ n - 1) <<< k

/-- The key of a line in every cache: context and line address (R116, R117). -/
def lineKey (ctx va : Nat) : Nat := ctx * 2 ^ 57 + va / 128

/-- The address of a key's line, and its context. -/
def keyVa (k : Nat) : Nat := k % 2 ^ 57 * 128
def keyCtx (k : Nat) : Nat := k / 2 ^ 57

/-- The home slice of an address (R116). -/
def homeSlice (va : Nat) : Nat :=
  (upTo 9).foldl (fun a k => a ^^^ bits va (7 + 5 * k) 5) 0

/-! ## Places (R15, R16, R200) -/

def placeCore (p : Nat) : Nat := p / 512
def placeSlice (p : Nat) : Nat := p / 128 % 4
def placePipe (p : Nat) : Nat := p / 4 % 32
/-- The key of a pipe: its places are 4 k to 4 k + 3. -/
def placePipeKey (p : Nat) : Nat := p / 4
def coreDie (c : Nat) : Nat := c / Config.cores
def placeDie (p : Nat) : Nat := coreDie (placeCore p)
/-- The core within its die, and its cluster (R15). -/
def coreIn (c : Nat) : Nat := c % Config.cores
def coreCluster (c : Nat) : Nat := coreIn c / 16
/-- The walker slot's and the reel slot's places (R13; which of the pipe's places is a DESIGN CHOICE,
notes/assumptions/9.md). -/
def walkerPlace (c : Nat) : Nat := c * 512 + 3
def reelPlace (c : Nat) : Nat := c * 512 + 131
def allCores : List Nat := upTo 352
def dieCores (d : Nat) : List Nat := (upTo Config.cores).map (· + d * Config.cores)

/-! ## The parts of the state -/

/-- The turn is over: no group stands at issue. -/
def State.endTurn (s : State) : State := { s with cur := none }

def State.grp (s : State) (p : Nat) : Option Group := s.groups.find p
def State.setGrp (s : State) (p : Nat) (g : Group) : State := { s with groups := s.groups.put p g }
def State.delGrp (s : State) (p : Nat) : State := { s with groups := s.groups.del p }
def State.modGrp (s : State) (p : Nat) (f : Group → Group) : State :=
  match s.grp p with
  | some g => s.setGrp p (f g)
  | none => s

def State.core (s : State) (c : Nat) : Core := s.cores.getD c Core.reset
def State.setCore (s : State) (c : Nat) (x : Core) : State := { s with cores := s.cores.setD c x Core.reset }
def State.modCore (s : State) (c : Nat) (f : Core → Core) : State := s.setCore c (f (s.core c))

/-- A die: 0 and 1 are the module's own, 2 + o the one of owner value o in another module. -/
def State.die (s : State) (d : Nat) : Die :=
  if d = 0 then s.die0 else if d = 1 then s.die1 else s.remote.getD d (Die.reset [] [] true)
def State.setDie (s : State) (d : Nat) (x : Die) : State :=
  if d = 0 then { s with die0 := x } else if d = 1 then { s with die1 := x } else { s with remote := s.remote.put d x }
def State.modDie (s : State) (d : Nat) (f : Die → Die) : State := s.setDie d (f (s.die d))

def State.slice (s : State) (d k : Nat) : Slice := (s.die d).slices.getD k Slice.reset
def State.setSlice (s : State) (d k : Nat) (x : Slice) : State :=
  s.modDie d (fun y => { y with slices := y.slices.setD k x Slice.reset })

def State.queue (s : State) (q : Nat) : QDesc := s.queues.getD q QDesc.reset
def State.setQueue (s : State) (q : Nat) (x : QDesc) : State := { s with queues := s.queues.setD q x QDesc.reset }

/-- The key of a task record: queue and record number. -/
def taskKey (q n : Nat) : Nat := q + 64 * n
def State.task (s : State) (q n : Nat) : Option Task := s.tasks.find (taskKey q n)
def State.setTask (s : State) (q n : Nat) (x : Task) : State := { s with tasks := s.tasks.put (taskKey q n) x }

def State.cnt (s : State) (d : Nat) (f : Counts → Counts) : State :=
  s.modDie d (fun y => { y with cnt := f y.cnt })

/-- Event counts saturate (R251). -/
def sat64 (n : Nat) : Nat := min n (2 ^ 64 - 1)

/-- The events that come before all others. -/
def State.first (s : State) (xs : List Instr) : State := { s with agenda := xs ++ s.agenda }

/-! ## Memory (R2, R19, R127) -/

/-- Byte a of a memory; what is not listed reads zero. -/
def Memory.read (m : Memory) (a : Nat) : Byte := SMap.getD m a 0

/-- Writing a byte keeps the canonical form. -/
def Memory.write (m : Memory) (a : Nat) (x : Byte) : Memory := SMap.setD m a x 0

/-- n bytes from a, little-endian. -/
def Memory.get (m : Memory) (a : Nat) : Nat → Nat
  | 0 => 0
  | n + 1 => (m.read a).toNat + 256 * Memory.get m (a + 1) n

/-- Writing n bytes from a. -/
def Memory.put (m : Memory) (a : Nat) : Nat → Nat → Memory
  | 0, _ => m
  | n + 1, v => Memory.put (m.write a (bv 8 v)) (a + 1) n (v / 256)

/-- The canonical form of a memory. -/
def Memory.wf (m : Memory) : Bool := SMap.wfD m (0 : Byte)

/-- A die's own memory or the host memory behind its port. -/
def Die.memOf (x : Die) (host : Bool) : Memory := if host then x.host else x.mem
def Die.setMem (x : Die) (host : Bool) (m : Memory) : Die :=
  if host then { x with host := m } else { x with mem := m }

/-- The key of a stored line's poison mark and slot state: frame line, own memory or host. -/
def frameKey (host : Bool) (a : Nat) : Nat := 2 * (a / 128) + host.toNat

/-- Is a physical address in the memory and outside the metadata region (R125, R183)? -/
def physOk (a : Nat) : Bool := a < Config.memBytes - Config.metaBytes

/-- The lines a byte range names. -/
def rangeLines (a n : Nat) : List Nat :=
  if n = 0 then [] else (upTo ((a + n - 1) / 128 - a / 128 + 1)).map (fun k => a / 128 + k)

/-- Consecutive lines as one little-endian number. -/
def joinLines (xs : List Line) : Nat := xs.zipIdx.foldl (fun a x => a + x.1.toNat * 2 ^ (1024 * x.2)) 0

/-- How a slot of a die's memory stands (R125): 0 as power-on leaves it; 1 to 3 compressed by its home into so many sectors, `mem`
holding the line expanded; 4 expanded; above 4 raw bytes, under a count of so many sectors less 4. -/
def Die.slot (x : Die) (a : Nat) : Nat := x.sect.getD (frameKey false a) 0

/-- The sectors the metadata names for a slot. -/
def Die.sectors (x : Die) (a : Nat) : Nat :=
  let k := x.slot a
  if k ≤ 4 then max 1 k else min 4 (k - 4)

/-- Is the slot stored compressed? -/
def Die.isPacked (x : Die) (a : Nat) : Bool := 0 < x.slot a && x.slot a < 4

/-- A line of memory as it is stored: compressed slots and the metadata region too (R125, R241, R370). -/
def Die.rawLine (x : Die) (a : Nat) : Line :=
  if physOk a then
    let l := bv 1024 (x.mem.get (a / 128 * 128) 128)
    if x.isPacked a then Config.packed l else l
  else Config.metaLine (a / 128 * 128) x.sect

/-- A slot that bytes are about to be written into past the compression holds raw bytes. -/
def Die.rawSlot (x : Die) (l : Nat) : Die :=
  let a := 128 * l
  { x with
    mem := if x.isPacked a then x.mem.put a 128 (x.rawLine a).toNat else x.mem
    sect := if 4 ≤ x.slot a then x.sect else x.sect.setD (frameKey false a) (x.sectors a + 4) 0 }

/-- Writing n bytes as they are to be stored. -/
def Die.rawPut (x : Die) (a n v : Nat) : Die :=
  if physOk a then
    let y := (rangeLines a n).foldl Die.rawSlot x
    { y with mem := y.mem.put a n v }
  else { x with sect := (Config.metaStore a (bv 64 v) x.sect).foldl (fun m y => m.setD y.1 y.2 0) x.sect }

/-- Physical bytes of a die's own memory, past every cache (R183); past its end nothing is written. -/
def State.phys (s : State) (d a n : Nat) : Nat :=
  bits (joinLines ((rangeLines a n).map (fun l => (s.die d).rawLine (128 * l)))) (8 * (a % 128)) (8 * n)
def State.setPhys (s : State) (d a n v : Nat) : State :=
  if Config.memBytes < a + n then s else s.modDie d (fun x => x.rawPut a n v)

/-! ## Stash (R120) -/

def Core.stashGet (c : Core) (a : Nat) (n : Nat) : Nat := Memory.get c.stash a n
def Core.stashPut (c : Core) (a n v : Nat) : Core := { c with stash := Memory.put c.stash a n v }

/-! ## Owners (R17, R113, R114, R253, R254) -/

/-- Who owns an address: a die that a request reaches, the host behind a port, another module of the domain that no link
reaches, or nobody. -/
inductive Owner where
  | die (d : Nat)
  | host (d : Nat)
  | far
  | bad
deriving DecidableEq, Repr

/-- This module's number, and the last one of the domain; both 0 until configuration (R17). -/
def State.module (s : State) : Nat := if s.domain.set then s.domain.module else 0
def State.lastModule (s : State) : Nat := if s.domain.set then s.domain.last else 0

/-- A die in service that runs its firmware (R254, R255). -/
def State.serves (s : State) (d : Nat) : Bool := s.status.dies.getLsbD d

/-- Do the hawser links lead to a module (R250)? -/
def State.linked (s : State) (m : Nat) : Bool := s.hawser.any (fun x => x.2 == m || Config.routes x.2 m)

/-- The owner of an address. Another module's die answers while a link leads to it. Before domain configuration 0x000 and 0x001
alone are routed, the host values not (R17, R114). -/
def State.owner (s : State) (va : Nat) : Owner :=
  let o := va / 2 ^ 52 % 4096
  let own (d : Nat) (x : Owner) : Owner :=
    if s.serves d then (if (s.die d).up then x else .far) else .bad
  if !s.domain.set && 2 ≤ o then .bad
  else if o = 0xFFE then own 0 (.host 0)
  else if o = 0xFFF then own 1 (.host 1)
  else if 0xC00 ≤ o then .bad
  else if s.lastModule < o / 2 then .bad
  else if o / 2 = s.module then own (o % 2) (.die (o % 2))
  else if s.linked (o / 2) then .die (2 + o)
  else .far

/-- `dieid` of a die (R17). -/
def State.dieid (s : State) (d : Nat) : Nat := if d < 2 then 2 * s.module + d else d - 2

/-! ## Context descriptors (R179) -/

/-- A descriptor's fields. -/
def Desc.fhead (x : Desc) : Nat := bits x.toNat 448 64
def Desc.fbuf (x : Desc) : Nat := bits x.toNat 384 64
def Desc.fbarr (x : Desc) : Nat := bits x.toNat 320 64
def Desc.fbcnt (x : Desc) : Nat := bits x.toNat 284 36
def Desc.flsize (x : Desc) : Nat := bits x.toNat 263 5
def Desc.en (x : Desc) : Bool := bit x.toNat 261
def Desc.sobase (x : Desc) : Nat := bits x.toNat 204 52
def Desc.solsize (x : Desc) : Nat := bits x.toNat 199 5
def Desc.hroot (x : Desc) : Nat := bits x.toNat 64 64
def Desc.root (x : Desc) : Nat := bits x.toNat 0 64

/-- The physical address of a descriptor. -/
def State.descAddr (s : State) (d ctx : Nat) : Nat := (s.die d).ctxtab.toNat + 64 * ctx

/-- The descriptor as the die holds it, read from memory when it is not cached. -/
def State.desc (s : State) (d ctx : Nat) : Desc :=
  match (s.die d).desc.find ctx with
  | some x => x
  | none => bv 512 (s.phys d (s.descAddr d ctx) 64)

/-- What a die sees of a descriptor's `en`; seen to become 1, it starts the context's overflow ring afresh (R40;
notes/assumptions/29.md). -/
def Die.see (x : Die) (ctx : Nat) (en : Bool) : Die :=
  { x with
    rings := if en && !x.seen.getD ctx false then x.rings.del ctx else x.rings
    seen := x.seen.setD ctx en false }

/-- Something that no link carried is dropped and counted (R253). -/
def State.linkDropped (s : State) (d : Nat) : State := s.cnt d (fun c => { c with linkdrop := sat64 (c.linkdrop + 1) })

/-- What is bound for an address and is dropped: counted where a link to its owner failed, not where it has no owner (R251). -/
def State.dropFar (s : State) (d va : Nat) : State := if s.owner va = .far then s.linkDropped d else s

/-- Is a byte of a die's own memory marked poisoned? -/
def State.physPoison (s : State) (d a : Nat) : Bool :=
  ((s.die d).poison.getD (frameKey false a) 0).getLsbD (a % 128 / 8)

/-- A memory read of the die is counted where it returns marked poisoned (R251). -/
def State.notePoison (s : State) (d a n : Nat) : State :=
  if (upTo ((a + n + 7) / 8 - a / 8)).any (fun k => s.physPoison d (a / 8 * 8 + 8 * k)) then
    s.cnt d (fun c => { c with memPoison := sat64 (c.memPoison + 1) })
  else s

/-- The die caches the descriptor it used; one that it did not hold it reads from memory. -/
def State.holdDesc (s : State) (d ctx : Nat) : State :=
  let t := if ((s.die d).desc.find ctx).isSome then s else s.notePoison d (s.descAddr d ctx) 64
  t.modDie d (fun x => { x.see ctx (s.desc d ctx).en with desc := x.desc.put ctx (s.desc d ctx) })

/-- The live generation of a context at a die (R190). -/
def State.gen (s : State) (d ctx : Nat) : Half := (s.die d).gens.getD ctx 0

/-- Replacing bits lo to lo + n − 1 of the descriptor in memory. -/
def State.putDescBits (s : State) (d ctx lo n v : Nat) : State :=
  let x := s.phys d (s.descAddr d ctx) 64
  let y := x - bits x lo n * 2 ^ lo + v % 2 ^ n * 2 ^ lo
  s.setPhys d (s.descAddr d ctx) 64 y

/-- The die raises the generation and writes it to the descriptor in memory (R179, R190). -/
def State.raiseGen (s : State) (d ctx : Nat) : State :=
  let g := s.gen d ctx + 1
  (s.modDie d (fun x => { x with gens := x.gens.setD ctx g 0 })).putDescBits d ctx 268 16 g.toNat

/-! ## Faults and walk records (R181, R185, R189) -/

/-- The 3-bit access code of R182. -/
def AccK.code : AccK → Nat
  | .load => 0
  | .store => 1
  | .atomic => 2
  | .fetch => 3
  | .ntest => 4
  | .engRead => 5
  | .engWrite => 6
  | .prefetch => 7

/-- The fault record of R189; `die` is the die's number within its module. -/
def faultRecord (d va ctx : Nat) (acc : AccK) (host : Bool) (slice cause level pte gen : Nat) : BitVec 256 :=
  bv 256 (va + d % 2 * 2 ^ 84 + slice * 2 ^ 85 + ctx * 2 ^ 90 + host.toNat * 2 ^ 100 + acc.code * 2 ^ 101
    + cause * 2 ^ 104 + gen * 2 ^ 112 + pte * 2 ^ 128 + level * 2 ^ 192)

/-- The die records a fault: the record and the add to the fault counter wait for their home; a ring that
cannot be used sets `fovf` (R189). Prefetches record nothing (R185). -/
def State.recordFault (s : State) (d va ctx : Nat) (acc : AccK) (host : Bool) (slice cause level pte : Nat) : State :=
  if acc = .prefetch then s
  else
    let s := s.holdDesc d ctx
    let x := s.desc d ctx
    if x.fhead = 0 || x.flsize < 4 || 16 < x.flsize then s.putDescBits d ctx 262 1 1
    else
      { s with
        seq := s.seq + 1
        adds := s.adds ++ [{
          id := s.seq
          ctx := 0
          va := bv 64 x.fhead
          amount := 1
          token := false
          pre := .fault ctx (faultRecord d va ctx acc host slice cause level pte (s.gen d ctx).toNat)
          die := d
          t := 0
          port := none }] }

/-- The record of a page, when one is open; a stale one is joined like any other (R181). -/
def walkOf (m : SMap Walk) (ctx va : Nat) : Option Nat :=
  (m.find? (fun x => decide (x.2.ctx = ctx ∧ x.2.va / 65536 = va / 65536))).map (·.1)

/-- The register budgets of a pipe's groups. -/
def State.pipeRegs (s : State) (k : Nat) (f : Nat → Bool) : Nat :=
  ((upTo 4).map (fun j => match s.grp (4 * k + j) with
    | some g => if f (4 * k + j) then g.regs else 0
    | none => 0)).sum

/-- The walker slot of a core cannot take a record: its place is lent to a group, or its pipe's other groups leave it less than 32
registers (R29); or the core is gated (R152). -/
def State.walkerLent (s : State) (c : Nat) : Bool :=
  (s.core c).gated || 128 < s.pipeRegs (placePipeKey (walkerPlace c)) (fun p => p != walkerPlace c) + 32
  || (match s.grp (walkerPlace c) with
    | some g => g.kind != .walker
    | none => false)

/-- The core of a die that a slice hands its next record to: round-robin, past cores whose walker place is lent or lacks registers
(R29, R181). -/
def State.nextWalker (s : State) (d slice : Nat) : Nat :=
  let k := (s.die d).walkRR.getD slice (Config.cores - 1)
  let xs := (upTo Config.cores).map (fun j => (k + 1 + j) % Config.cores)
  (xs.find? (fun c => !s.walkerLent (d * Config.cores + c))).getD ((k + 1) % Config.cores)

/-- A slice hands a record to a walker slot (R181). -/
def State.handWalk (s : State) (d n : Nat) (w : Walk) : State :=
  let c := s.nextWalker d w.slice
  s.modDie d (fun x => { x with walks := x.walks.put n { w with core := c, walker := none }, walkRR := x.walkRR.put w.slice c })

/-- Taking or joining a walk record; none when all are in use (R181). -/
def State.takeWalk (s : State) (d ctx va : Nat) (acc : AccK) (host : Bool) : State × Option Nat :=
  match walkOf (s.die d).walks ctx va with
  | some n => (s, some n)
  | none =>
    match SMap.freeFrom (s.die d).walks 0 Config.walkRecords with
    | none => (s, none)
    | some n =>
      (s.handWalk d n { ctx := ctx, va := va, acc := acc, host := host, slice := homeSlice va, stale := false, core := 0, walker := none },
        some n)

/-- The requester waits on a record, or for the reply to a fault. -/
def State.await (s : State) (r : Req) (d ctx : Nat) (walk : Option Nat) : State :=
  { s with waits := s.waits.filter (fun w => w.req != r)
      ++ [{ req := r, die := d, walk := walk, ctx := ctx, gen := s.gen d ctx }] }

/-- Does the requester wait? -/
def State.waiting (s : State) (r : Req) : Bool := s.waits.any (fun w => w.req = r)

/-- The requester waits no longer. -/
def State.unwait (s : State) (r : Req) : State := { s with waits := s.waits.filter (fun w => w.req != r) }

/-! ## Registers of a group (R6, R27, R28) -/

def Group.getV (g : Group) (r i : Nat) : Word := g.v.getD (32 * r + i) 0
def Group.setV (g : Group) (r i : Nat) (x : Word) : Group := { g with v := g.v.setD (32 * r + i) x 0 }
def Group.getS (g : Group) (r : Nat) : Word := g.s.getD r 0
def Group.setS (g : Group) (r : Nat) (x : Word) : Group := { g with s := g.s.setD r x 0 }
def Group.getH (g : Group) (r : Nat) : Header := g.h.getD r 0
def Group.setH (g : Group) (r : Nat) (x : Header) : Group := { g with h := g.h.setD r x 0 }

/-- Pairs: the lower register holds the low word (R6). -/
def pair (lo hi : Word) : DWord := hi ++ lo
def lowW (x : DWord) : Word := x.extractLsb' 0 32
def highW (x : DWord) : Word := x.extractLsb' 32 32
def Group.getV2 (g : Group) (r i : Nat) : DWord := pair (g.getV r i) (g.getV (r + 1) i)
def Group.setV2 (g : Group) (r i : Nat) (x : DWord) : Group := (g.setV r i (lowW x)).setV (r + 1) i (highW x)
def Group.getS2 (g : Group) (r : Nat) : DWord := pair (g.getS r) (g.getS (r + 1))
def Group.setS2 (g : Group) (r : Nat) (x : DWord) : Group := (g.setS r (lowW x)).setS (r + 1) (highW x)

/-- A predicate: p0 reads true and ignores writes (R28). -/
def Group.getP (g : Group) (n : Nat) : Mask := if n = 0 then ~~~0 else g.p.getD n 0
def Group.setP (g : Group) (n : Nat) (lanes vals : Mask) : Group :=
  if n = 0 then g
  else { g with p := g.p.setD n ((g.getP n &&& ~~~lanes) ||| (vals &&& lanes)) 0 }

/-- One register write. -/
def Group.wr (g : Group) : Wr → Group
  | .v r i x => g.setV r i x
  | .s r x => g.setS r x
  | .p n l x => g.setP n l x
  | .h n x => g.setH n x

def Group.wrs (g : Group) (xs : List Wr) : Group := xs.foldl Group.wr g

/-- Trap mode: a bank stands (R194, R196). -/
def Group.inTrap (g : Group) : Bool := g.bank.isSome

/-- Privileged mode: trap mode, or the walker slot (R194). -/
def Group.privileged (g : Group) : Bool := g.inTrap || g.kind == .walker

/-- The execution mask without its guard (R30). -/
def Group.execMask (g : Group) : Mask := g.act ||| (g.help &&& maskQuads g.act)

/-- The guard's value in every lane (R271). -/
def Group.guard (g : Group) (x : Guard) : Mask := if x.neg then ~~~(g.getP x.p.toNat) else g.getP x.p.toNat

/-- The execution mask E of a word. -/
def Group.exec (g : Group) (x : Guard) : Mask := g.execMask &&& g.guard x

/-! ## Gangs -/

def State.gang (s : State) (k : Nat) : Option Gang := s.gangs.find k

/-- The gang whose stash a group addresses: its own, or for a stream the one that started it (R244). -/
def State.stashGang (s : State) (p : Nat) (g : Group) : Option Gang :=
  if g.kind = .reel then s.gang (s.core (placeCore p)).reelGang else s.gang g.gangKey

/-- The stream of a core, and whether it still runs (R244). -/
def State.stream (s : State) (c : Nat) : Option Group := match s.grp (reelPlace c) with
  | some g => if g.kind = .reel then some g else none
  | none => none

def Group.running (g : Group) : Bool := match g.st with
  | .retiring | .killed => false
  | _ => true

/-- The stream that a gang started and that stands on its core (R244). -/
def State.gangStream (s : State) (key : Nat) (k : Gang) : Option Group :=
  if (s.core k.core).reelGang = key then s.stream k.core else none

/-- Does a gang hold its stash: a group of it is resident, or the stream that addresses it (R120, R244)? -/
def State.holdsStash (s : State) (key : Nat) (k : Gang) : Bool := !k.places.isEmpty || (s.gangStream key k).isSome

/-! ## Tags (R266) -/

/-- A tag whose result is in its registers, or whose accesses are performed (R266). -/
def TagSt.released (t : TagSt) : Bool := t.op.isNone && !t.async

/-- A tag that holds a parked entry. -/
def TagSt.parked (t : TagSt) : Bool := match t.op with
  | some o => o.parked.isSome
  | none => false

/-! ## Taking a trap, and returning from one (R195, R196, R203) -/

/-- The code of a cause (R195). -/
def Cause.code : Cause → Byte
  | .illegal => 0x01
  | .privilege => 0x02
  | .lineIntegrity => 0x03
  | .regBudget => 0x04
  | .divergentBranch => 0x05
  | .divOverflow => 0x06
  | .divMismatch => 0x07
  | .spawnOverflow => 0x08
  | .spawnEntry => 0x09
  | .hdrIntegrity => 0x0A
  | .hdrMismatch => 0x0B
  | .tileUnsupported => 0x0C
  | .badOwner => 0x0D
  | .stashRange => 0x0E
  | .smapConflict => 0x0F
  | .misaligned => 0x10
  | .counterPage => 0x11
  | .rangeLock => 0x12
  | .badPhys => 0x13
  | .poisoned => 0x14
  | .regUncorrectable => 0x15
  | .software => 0x16
  | .breakpoint => 0x17
  | .preempt => 0x20
  | .resume => 0x21

/-- An order that makes a release, and one that makes an acquire (R158). -/
def ordRels (o : Order) : Bool := o == .rel || o == .ar
def ordAcqs (o : Order) : Bool := o == .acq || o == .ar

/-- Is an outstanding word a prefetch, which is no load (R373)? -/
def POp.isPref (o : POp) : Bool := match o.instr with
  | some (.pref ..) => true
  | _ => false

/-- Is it an acquire? One whose word is still to be read again (R199) counts as one until then. -/
def POp.acquires (o : POp) : Bool := match o.instr with
  | some (.ld _ _ m) | some (.lds _ _ m) => ordAcqs m.ord
  | some (.atom _ _ r) | some (.acas _ r) => ordAcqs r.ord
  | some (.crd _ ord _ _) | some (.tld _ _ _ _ ord _) => ordAcqs ord
  | some _ => false
  | none => true

/-- A `TST` parks: its replay repeats the whole store (R111). -/
def TstOp.park (t : TstOp) (k : Park) : TstOp := { t with pos := 0, parked := some k }

/-- The offset and the order of a `TST`'s word. -/
def TstOp.off (t : TstOp) : BitVec 20 := match t.instr with
  | some (.tst _ _ _ off _ _) => off
  | _ => 0
def TstOp.ord (t : TstOp) : Order := match t.instr with
  | some (.tst _ _ _ _ ord _) => ord
  | _ => .rlx

/-- Must an access wait for an earlier one of its group: one that is not performed; of a parked one, only where it is an acquire
(R158), or was issued before `after` (R156, R188). -/
def POp.bars (y : POp) (seq after : Nat) : Bool :=
  y.seq < seq && y.todo != 0 && !y.isPref && (y.parked.isNone || y.acquires || y.seq < after)

/-- The parked access that holds an access of the group back, when nothing else does. -/
def Group.heldBy (g : Group) (seq after : Nat) : Option Park :=
  let ys := g.tags.filterMap (fun x => x.2.op.filter (fun y => y.bars seq after))
  if ys.all (fun y => y.parked.isSome) then ys.findSome? (·.parked) else none

/-- The keys of a sparse map within bounds. -/
def SMap.within {α : Type} (m : SMap α) (lo hi : Nat) : SMap α := m.filter (fun x => lo ≤ x.1 && x.1 < hi)
def SMap.without {α : Type} (m : SMap α) (lo hi : Nat) : SMap α := m.filter (fun x => x.1 < lo || hi ≤ x.1)

/-- Every issued instruction has completed or parked (R196). A store that a parked access holds back stays queued with it. -/
def Group.quiet (g : Group) : Bool :=
  g.lpend.isEmpty && g.tags.all (fun x => x.2.op.isNone || x.2.parked)
  && (match g.sq with
    | [] => true
    | e :: _ => e.parked.isSome || (g.heldBy e.seq e.after).isSome)
  && (match g.tst with
    | none => true
    | some t => t.parked.isSome)

/-! ### Hidden state in words (R199; the layout of the info words is the model's, notes/assumptions/11.md) -/

/-- Words from an index on; zero words are not listed. -/
def wordsAt (k : Nat) (xs : List Word) : SMap Word := (xs.zipIdx.map (fun x => (k + x.2, x.1))).filter (fun x => x.2 != 0)

/-- The info word of a parked entry: owner, generation, and the rounding mode it was issued under. -/
def parkInfo (k : Option Park) (frm : BitVec 2) : Word := match k with
  | some k => bv 32 (k.gen.toNat + k.owner * 2 ^ 16 + frm.toNat * 2 ^ 28)
  | none => 0

def infoPark (w : Word) : Park := { owner := bits w.toNat 16 12, gen := bv 16 w.toNat }

/-- The width an entry's info word names: the widest of its accesses'. -/
def accWidth (xs : List SqAcc) : Nat := (xs.map (·.width)).foldl max 0

/-- The info word of a store-queue entry. -/
def sqInfo (e : SqEntry) : Word :=
  let k : Nat := match e.kind with
    | .store => 0
    | .sts => 7
    | .sinj m => 1 + m.toNat * 2 ^ 9
    | .mred op ty => 2 + (op.code.toNat + 8 * (Ty.code tyMemCol ty).toNat) * 2 ^ 9
    | .cadd => 3
    | .wbr => 4
    | .phys => 5
    | .writeBack _ => 6
  bv 32 ((accWidth e.accs).log2 + e.ord.code.toNat * 4 + e.scope.code.toNat * 16 + k * 2 ^ 7 + e.tag * 2 ^ 10
    + e.frm.toNat * 2 ^ 13)

/-- The kind an info word names. -/
def infoKind (w : Nat) : SqKind := match bits w 7 3 with
  | 0 => .store
  | 1 => .sinj (bv 16 (bits w 16 16))
  | 2 => .mred (atomOps.getD (bits w 16 3) .add) ((Ty.ofCode tyMemCol (bv 4 (bits w 19 4))).getD .n32)
  | 3 => .cadd
  | 4 => .wbr
  | 6 => .writeBack []
  | 7 => .sts
  | _ => .phys

/-- An access's address as its words hold it: a stash offset stands under an owner value that no access has. -/
def accAddr (a : SqAcc) : DWord := if a.stash then bv 64 (0xC00 * 2 ^ 52 + a.addr.toNat) else a.addr

def maskOfLanes (xs : List Nat) : Mask := maskOf xs.contains

/-- The masks of p1 to p7 as the lanes' words. -/
def predWord (p : SMap Mask) (i : Nat) : Word :=
  bv 32 (1 + ((upTo 8).map (fun n => if (p.getD n 0).getLsbD i then 2 ^ n else 0)).sum)

/-- The bytes of an access that are not performed. -/
def SqAcc.left (a : SqAcc) : List Nat := (upTo a.width).filter (fun k => !a.done.getLsbD k)

/-- The line of byte k of an access. -/
def SqAcc.lineOf (a : SqAcc) (k : Nat) : Nat := (a.addr.toNat + k) % 2 ^ 64 / 128

/-- The bytes of a list of accesses that fall in a line, later lanes over earlier ones (R383). -/
def accLine (xs : List SqAcc) (line : Nat) : Line × BitVec 128 :=
  xs.foldl (fun r a => (a.left.filter (fun k => a.lineOf k = line)).foldl (fun r k =>
    let o := (a.addr.toNat + k) % 128
    (linePut r.1 o 1 (a.data.extractLsb' (8 * k) 8).toNat, r.2 ||| byteMask o 1)) r) (0, 0)

/-- The lines all of whose bytes a list of accesses writes. -/
def wholeLines (xs : List SqAcc) : List Nat :=
  let xs := xs.filter (fun a => !a.stash)
  if (xs.map (·.width)).sum < 128 then []
  else ((xs.map (fun a => a.lineOf 0)).eraseDups).filter (fun l => (accLine xs l).2 == ~~~0)

/-- The words of entry j of the queue in lane i. -/
def sqLaneWords (e : SqEntry) (i : Nat) : List Word := match e.accs.find? (fun a => a.lane == i) with
  | some a => [lowW (accAddr a), highW (accAddr a), lowW a.data, highW a.data]
  | none => [0, 0, 0, 0]

/-- Lanes' words of n indices from an index on. -/
def laneWordsAt (k n : Nat) (f : Nat → List Word) : SMap Word :=
  ((upTo n).map (fun j => (lanes.map (fun i => (32 * (k + j) + i, (f i).getD j 0))).filter (fun x => x.2 != 0))).flatten

/-- The accesses of an entry in lanes whose words do not say them all: several in the lane, or one of another width. -/
def accRest (xs : List SqAcc) : List SqAcc :=
  xs.filter (fun a => a.width != accWidth xs || 1 < (xs.filter (fun b => b.lane == a.lane)).length)

/-- The mask word of an entry; write-backs have no lanes, and show bit 0. -/
def SqEntry.maskWord (e : SqEntry) : Mask := match e.kind with
  | .writeBack _ => 1
  | .store | .sts | .sinj _ | .mred _ _ | .cadd | .wbr | .phys => maskOfLanes (e.accs.map (·.lane))

/-- The program copies banked by a trap. A parked entry stands apart from its tag, which stays allocated. -/
def Group.toBank (g : Group) : Bank :=
  let park := g.tags.filterMap (fun x => match x.2.op with
    | some o => if o.parked.isSome then some (x.1, o) else none
    | none => none)
  let h := g.getH 15
  let st := g.div.reverse.zipIdx
  { gw := g.s.within 48 64
      ++ wordsAt 124 ((upTo 4).map (fun k => h.extractLsb' (32 * k) 32))
      ++ wordsAt 131 [bv 32 g.frm.toNat, bv 32 g.fflags.toNat]
      ++ wordsAt 134 [g.live, g.act, g.help, bv 32 g.div.length]
      ++ (st.map (fun x => wordsAt (144 + 7 * x.2)
          [lowW x.1.j, highW x.1.j, x.1.m, x.1.p, lowW x.1.pp, highW x.1.pp])).flatten
      ++ (park.map (fun x => wordsAt (256 + 4 * (x.1 - 1))
          [lowW x.2.pc, highW x.2.pc, parkInfo x.2.parked x.2.frm, x.2.todo &&& ~~~x.2.help])).flatten
      ++ (g.sq.zipIdx.map (fun x => wordsAt (280 + 4 * x.2)
          [lowW x.1.pc, highW x.1.pc, sqInfo x.1, x.1.maskWord])).flatten
      ++ (match g.tst with
          | some t => wordsAt 312 [lowW t.pc, highW t.pc, parkInfo t.parked 0, bv 32 t.h, lowW t.base, highW t.base]
          | none => [])
    tw := laneWordsAt 0 1 (fun i => [predWord g.p i])
      ++ (park.map (fun x => (x.2.src.map (fun y => (32 * (1 + 12 * (x.1 - 1)) + y.1, y.2))))).flatten
      ++ (g.sq.zipIdx.map (fun x => laneWordsAt (73 + 4 * x.2) 4 (sqLaneWords x.1))).flatten
    tags := g.tags.map (fun x => (x.1, if x.2.parked then { op := none, async := false } else x.2))
    keep := g.sq.zipIdx.filterMap (fun x => match x.1.kind with
      | .writeBack ys => some (x.2, ys)
      | _ => none)
    sqPark := match g.sq with
      | e :: _ => e.parked
      | [] => none
    tabs := park.filterMap (fun x => x.2.tab.map (fun t => (x.1, t)))
    seqs := park.map (fun x => (x.1, x.2.seq)) ++ (match g.tst with
        | some t => [(7, t.seq)]
        | none => []) ++ g.sq.zipIdx.map (fun x => (8 + x.2, x.1.seq))
    sqRest := (g.sq.zipIdx.map (fun x => (x.2, accRest x.1.accs))).filter (fun x => !x.2.isEmpty)
    helps := (park.map (fun x => (x.1, x.2.todo &&& x.2.help))).filter (fun x => x.2 != 0) }

/-- Words of the bank. -/
def Bank.g (b : Bank) (k : Nat) : Word := b.gw.getD k 0
def Bank.g2 (b : Bank) (k : Nat) : DWord := pair (b.g k) (b.g (k + 1))
def Bank.t (b : Bank) (k i : Nat) : Word := b.tw.getD (32 * k + i) 0

/-- The parked entry of tag k + 1 (R199); its instruction is read again at its slot. -/
def Bank.tagOp (b : Bank) (k : Nat) : Option POp :=
  let m := b.g (259 + 4 * k)
  let hs := b.helps.getD (k + 1) 0 &&& ~~~m
  if m = 0 then none
  else some {
    pc := b.g2 (256 + 4 * k)
    instr := none
    todo := m ||| hs
    help := hs
    src := (b.tw.filter (fun x => 32 * (1 + 12 * k) ≤ x.1 && x.1 < 32 * (13 + 12 * k))).map (fun x => (x.1 - 32 * (1 + 12 * k), x.2))
    frm := bv 2 (bits (b.g (258 + 4 * k)).toNat 28 2)
    seq := b.seqs.getD (k + 1) 0
    parked := some (infoPark (b.g (258 + 4 * k)))
    faults := []
    res := []
    tab := b.tabs.find (k + 1)
    counted := [] }

/-- Entry j of the store queue, its accesses lane by lane; none where its mask is empty. -/
def Bank.sqEntry (b : Bank) (j : Nat) : Option SqEntry :=
  let m := b.g (283 + 4 * j)
  let w := (b.g (282 + 4 * j)).toNat
  if m = 0 then none
  else
    let width := match infoKind w with
      | .wbr => 0
      | _ => 2 ^ bits w 0 2
    let acc (i : Nat) : SqAcc :=
      let a := pair (b.t (73 + 4 * j) i) (b.t (74 + 4 * j) i)
      let stash := a.toNat / 2 ^ 52 == 0xC00
      { lane := i, stash := stash, addr := if stash then bv 64 (a.toNat % 2 ^ 52) else a, width := width
        data := pair (b.t (75 + 4 * j) i) (b.t (76 + 4 * j) i), done := 0 }
    let rest (i : Nat) : List SqAcc := ((b.sqRest.find j).getD []).filter (fun a => a.lane == i)
    let kind := match infoKind w with
      | .writeBack _ => .writeBack ((b.keep.find j).getD [])
      | k => k
    let accs := match kind with
      | .writeBack _ => []
      | _ => ((maskLanes m).map (fun i => match rest i with
        | a :: r => { acc i with width := a.width } :: r
        | [] => [acc i])).flatten
    some {
      pc := b.g2 (280 + 4 * j)
      kind := kind
      ord := Order.ofCode (bv 2 (bits w 2 2))
      scope := (Scope.ofCode (bv 3 (bits w 4 3))).getD .sys
      accs := accs
      tag := bits w 10 3
      frm := bv 2 (bits w 13 2)
      seq := b.seqs.getD (8 + j) 0
      parked := if j = 0 then b.sqPark else none
      after := b.seqs.getD (8 + j) 0
      whole := wholeLines accs }

def Bank.sq (b : Bank) : List SqEntry := (upTo 8).filterMap b.sqEntry

/-- The parked `TST`; its word is read again at its slot. Six words of zeros are none (R199; notes/assumptions/11.md, DESIGN
CHOICE). -/
def Bank.tst (b : Bank) : Option TstOp :=
  if (upTo 6).all (fun k => b.g (312 + k) = 0) then none
  else some {
    pc := b.g2 312
    instr := none
    h := bits (b.g 315).toNat 0 4
    base := b.g2 316
    pos := 0
    seq := b.seqs.getD 7 0
    parked := some (infoPark (b.g 314)) }

/-- Entry e of the divergence stack, from the bottom. -/
def Bank.divEntry (b : Bank) (e : Nat) : DivEntry :=
  let k := 144 + 7 * e
  { j := b.g2 k, m := b.g (k + 2), p := b.g (k + 3), pp := b.g2 (k + 4) }

/-- Steps 1 to 4 of R196: the cause registers, the bank and fresh copies, the masks, the entry. -/
def Group.enterTrap (g : Group) (entry : DWord) (r : TrapReq) : Group :=
  { g with
    trapcause := r.cause.code
    trapinfo := r.info
    trappc := r.pc
    bank := some g.toBank
    s := g.s.without 48 64
    h := g.h.del 15
    p := []
    frm := 0
    fflags := 0
    div := []
    live := ~~~0
    act := ~~~0
    help := 0
    tags := []
    sq := []
    tst := none
    trapWait := none
    cpark := none
    fetchPark := none
    st := .ready
    pc := entry }

/-! ## Killing (R66) -/

/-- Is the tag a tile load's? -/
def POp.isTld (o : POp) : Bool := match o.instr with
  | some (.tld ..) => true
  | _ => false

/-- A tile load that has not arrived: its fragment has no group to land in once the group is killed. -/
def TagSt.tldOpen (t : TagSt) : Bool := match t.op with
  | some o => o.isTld && o.todo != 0
  | none => false

/-- A killed group keeps its issued work, but no parked entry and no tile load. -/
def Group.kill (g : Group) : Group :=
  let b := g.bank
  { g with
    st := .killed
    bank := none
    trapWait := none
    preempting := false
    tags := g.tags.filter (fun x => !x.2.parked && !x.2.tldOpen)
    sq := ((match b with
      | some b => b.sq
      | none => []) ++ g.sq).filter (fun e => e.parked.isNone)
    tst := match (match b with
        | some b => b.tst
        | none => g.tst) with
      | some t => if t.parked.isSome then none else some t
      | none => none
    cpark := none
    fetchPark := none }

/-- A waiter entry leaves its slice (R168). -/
def State.dropWaiter (s : State) (p : Nat) : State :=
  let f (x : Die) : Die := { x with slices := x.slices.map (fun y =>
    (y.1, { y.2 with waiters := y.2.waiters.filter (fun w => w.place != p) })) }
  { s with die0 := f s.die0, die1 := f s.die1, remote := s.remote.map (fun y => (y.1, f y.2)) }

/-- The requesters of a place wait no longer. -/
def Req.atPlace (p : Nat) : Req → Bool
  | .tag q _ | .sq q | .tst q | .cwait q | .word q | .fetch q => q == p
  | _ => false

/-- Killing one group. -/
def State.killGroup (s : State) (p : Nat) : State :=
  let t := (s.dropWaiter p).modGrp p Group.kill
  { t with waits := t.waits.filter (fun w => !w.req.atPlace p) }

/-- The stream of a core ends: its state is kept for `SSTOP` (R244, R245). -/
def State.endReel (s : State) (p : Nat) (w : Word) : State :=
  let c := placeCore p
  (s.modCore c (fun x => { x with reelEnd := w })).killGroup p

/-- Killing every group of a gang; its stream stops with it. -/
def State.killGang (s : State) (k : Nat) : State :=
  match s.gang k with
  | some x =>
    let t := x.places.foldl State.killGroup s
    if (s.gangStream k x).any Group.running then t.endReel (reelPlace x.core) 1 else t
  | none => s

/-- Failing a launch: the queue freezes, its gangs are killed, its bins and formed groups are discarded
(R67; `st` and the token follow when its work has landed). -/
def State.failLaunch (s : State) (q n : Nat) (cause : Byte) : State :=
  match s.task q n with
  | none => s
  | some t =>
    if t.failing || 4 ≤ t.st then s
    else
      let s1 := (s.setQueue q { s.queue q with frozen := true, fcause := cause, fseq := bv 64 n }).setTask q n
        { t with failing := true, fcause := cause }
      let s2 := (s1.gangs.filter (fun x => decide (x.2.queue = q ∧ x.2.seqNo = n))).foldl
        (fun a x => a.killGang x.1) s1
      let drop (x : Die) : Die := { x with
        bins := x.bins.filter (fun b => !decide (b.2.queue = q ∧ b.2.seqNo = n))
        formed := x.formed.filter (fun b => !decide (b.queue = q ∧ b.seqNo = n))
        resv := x.resv.filter (· != (q, n)) }
      { s2 with
        gangs := s2.gangs.filter (fun x => !decide (x.2.queue = q ∧ x.2.seqNo = n ∧ s2.holdsStash x.1 x.2 = false))
        saved := s2.saved.filter (fun x => !decide (x.queue = q ∧ x.seqNo = n))
        die0 := drop s2.die0
        die1 := drop s2.die1 }

/-! ## Traps of the slots, and the trap itself (R181, R196, R245) -/

/-- Handing a walker's open records in some lanes to another walker (R181). -/
def State.handOn (s : State) (f : Nat → Bool) (p : Nat) : State :=
  let d := placeDie p
  ((s.die d).walks.filter (fun w => match w.2.walker with
    | some (q, i) => q == p && f i
    | none => false)).foldl (fun s w => s.handWalk d w.1 w.2) s

/-- The walker slot retires by a trap: its records pass on (R181, R196). -/
def State.retireWalker (s : State) (p : Nat) : State :=
  (s.handOn (fun _ => true) p).modGrp p (fun g => { g.kill with st := .retiring })

/-- A waiting pre-emption that another trap overtakes comes after that trap's routine (R197). -/
def Group.overtaken (g : Group) (r : TrapReq) : Group :=
  match g.trapWait with
  | some w => if w.cause == .preempt && r.cause != .preempt then { g with preempting := true } else g
  | none => g

/-- TAKING A TRAP. In trap mode the launch fails; in the walker slot it retires; in the reel slot, but
for pre-emption, the stream ends with state 3; every other group banks its state and starts at
`trapentry`, once all it has issued has completed or parked (R196, R245). A pre-emption is entered when all of R200
is done, by the `preempt` event; another trap that overtakes it lets it wait for that routine (R197). -/
def State.takeTrap (s : State) (p : Nat) (r : TrapReq) : State :=
  match s.grp p with
  | none => s
  | some g =>
    if g.st = .killed || g.st = .retiring then s
    else if g.inTrap then s.failLaunch g.queue g.seqNo 0x03
    else if g.kind = .walker then s.retireWalker p
    else if g.kind = .reel && r.cause != .preempt then
      s.endReel p (bv 32 (3 + 256 * r.cause.code.toNat))
    else
      let s := if g.cpark.isSome then s.dropWaiter p else s
      if g.quiet && r.cause != .preempt then
        s.setGrp p ((g.overtaken r).enterTrap (s.die (placeDie p)).trapentry r)
      else s.setGrp p { g.overtaken r with trapWait := some r, st := .waiting, cpark := none }

/-! ## The queues of copy engines (R231, R232) -/

def reqKind (x : Line) : Nat := bits x.toNat 320 4
def reqCvt (x : Line) : Nat := bits x.toNat 324 2

/-- A tile copy: its faults follow R112. -/
def EngReq.isTile (r : EngReq) : Bool := reqKind r.block == 0 && reqCvt r.block == 2

def Die.engine (x : Die) (e : Nat) : List EngReq := x.engines.getD e []

def State.setEngine (s : State) (d e : Nat) (xs : List EngReq) : State :=
  s.modDie d (fun x => { x with engines := x.engines.setD e xs [] })

/-- The head of a queue as it has become. -/
def State.setEngHead (s : State) (d e : Nat) (r : EngReq) : State :=
  match (s.die d).engine e with
  | _ :: xs => s.setEngine d e (r :: xs)
  | [] => s

/-! ## Traps that wait, and the return -/

/-- A trap that waited is taken once the group is quiet. -/
def State.settle (s : State) (p : Nat) : State :=
  match s.grp p with
  | some g =>
    match g.trapWait with
    | some r => if g.quiet && r.cause != .preempt then s.takeTrap p r else s
    | none => s
  | none => s

/-- An allocated tag that a queued entry names is not released before the entry leaves (R203, R266). -/
def holdTags (xs : List SqEntry) (m : SMap TagSt) : SMap TagSt :=
  xs.foldl (fun m e => match m.find e.tag with
    | some x => m.put e.tag { x with async := true }
    | none => m) m

/-- RETURNING FROM A TRAP: the program copies of the banked state are installed as R199 limits them: a depth
above 16 as 16, no entry whose mask is empty; the group continues at `trappc` (R203). The parked entries' replies
are judged by the caller. -/
def Group.leaveTrap (g : Group) (b : Bank) : Group :=
  let l := b.g 134
  { g with
    s := (upTo 16).foldl (fun m n => SMap.setD m (48 + n) (b.g (48 + n)) 0) g.s
    h := g.h.setD 15 ((b.g 127) ++ (b.g 126) ++ (b.g 125) ++ (b.g 124)) 0
    p := (upTo 7).foldl (fun m n => SMap.setD m (n + 1) (maskOf (fun i => (b.t 0 i).getLsbD (n + 1))) 0) []
    frm := bv 2 (b.g 131).toNat
    fflags := bv 5 (b.g 132).toNat
    div := (upTo (min (b.g 137).toNat 16)).reverse.map b.divEntry
    live := l
    act := b.g 135 &&& l
    help := b.g 136 &&& ~~~l
    tags := holdTags b.sq ((upTo 6).foldl (fun m k => match b.tagOp k with
      | some o => SMap.put m (k + 1) { op := some o, async := false }
      | none => m) b.tags)
    sq := b.sq
    tst := b.tst
    bank := none
    st := .ready
    pc := g.trappc }

end Sys2Proof.Machine
end

