-- ==== Sys2Proof/Machine/Home.lean ====
section
/-!
DEFINITION. Homes, translation at the owner, and the rows of the coherence table (R116 to R118, R125,
R128, R135, R139 to R149, R164, R168, R180, R181, R192).
-/
namespace Sys2Proof.Machine

/-- What a request is answered with: done; it waits, on a walk record of a die or on what the agenda
brings; a translation fault at a die; poisoned data (R138); no link reaches the owner (R253). -/
inductive Ans (α : Type) where
  | ok (s : State) (x : α)
  | wait (s : State) (w : Option (Nat × Nat))
  | fault (s : State) (d : Nat)
  | poisoned (s : State)
  | far (s : State)

/-- The state an answer leaves, whatever it says. -/
def Ans.state {α : Type} : Ans α → State
  | .ok s _ | .wait s _ | .fault s _ | .poisoned s | .far s => s

/-- The next part of a request. -/
def Ans.andThen {α β : Type} (a : Ans α) (f : State → α → Ans β) : Ans β :=
  match a with
  | .ok s x => f s x
  | .wait s w => .wait s w
  | .fault s d => .fault s d
  | .poisoned s => .poisoned s
  | .far s => .far s

/-- Does a translation permit an access (R184)? -/
def Perm.permits (x : Perm) : AccK → Bool
  | .load | .ntest | .engRead | .prefetch => x.rd || x.awf
  | .store | .atomic | .engWrite => x.wr && !x.cow && !x.awf
  | .fetch => x.ex && !x.awf

/-- The TLB entry of a slice that covers an address (R180). -/
def Die.tlbFind (x : Die) (slice ctx va : Nat) : Option TlbE :=
  (x.tlb.getD slice []).find? (fun e => decide (e.ctx = ctx ∧ va / 2 ^ e.size = e.page / 2 ^ e.size))

/-- Listing a home's entry. -/
def State.setHome (s : State) (d ctx va : Nat) (h : HomeLine) : State :=
  s.modDie d (fun y => { y with l2 := y.l2.put (lineKey ctx va) h })

/-! ## Copies of a core -/

/-- The core's stash offset of a line that a gang with its stash there has bound (R121, R123). -/
def State.boundOff (s : State) (c ctx va : Nat) : Option Nat :=
  let a := va / 128 * 128
  s.gangs.findSome? (fun x =>
    if x.2.core = c ∧ x.2.ctx = ctx ∧ s.holdsStash x.1 x.2 then
      (x.2.binds.find? (fun b => b.a.toNat ≤ a && a < b.a.toNat + b.n)).map
        (fun b => x.2.stashBase + b.o + (a - b.a.toNat))
    else none)

/-- The bytes of a copy: a bound line's stand in the stash (R122). -/
def Core.copyData (c : Core) (x : Copy) : Line :=
  match x.stash with
  | some o => bv 1024 (c.stashGet o 128)
  | none => x.data

/-- Listing a copy, its bytes in the stash when it is bound. -/
def Core.setCopy (c : Core) (k : Nat) (x : Copy) : Core :=
  match x.stash with
  | some o => { c.stashPut o 128 x.data.toNat with l1 := c.l1.put k { x with data := 0 } }
  | none => { c with l1 := c.l1.put k x }

def Core.dropCopy (c : Core) (k : Nat) : Core := { c with l1 := c.l1.del k }

/-- The core's copy of a line with its bytes; one that the stash has bound since moves there (R123). -/
def State.copyOf (s : State) (c ctx va : Nat) : Option Copy :=
  let x := s.core c
  match x.l1.find (lineKey ctx va) with
  | some y => some { y with data := x.copyData y, stash := s.boundOff c ctx va }
  | none => none

def State.setCopyOf (s : State) (c ctx va : Nat) (y : Copy) : State :=
  s.modCore c (fun x => x.setCopy (lineKey ctx va) y)

def State.raiseT (s : State) (c t : Nat) : State := s.modCore c (fun x => { x with t := max x.t t })

/-- Lease length by class (R141). -/
def lease (cls : Nat) : Nat := 16 * 4 ^ cls

/-- Every grant raises H and `htop` (R143). -/
def State.raiseTop (s : State) (d va r : Nat) : State :=
  let k := homeSlice va
  let x := s.slice d k
  s.setSlice d k { x with htop := max x.htop r }

/-! ## Recalls (rows 7 and 8) -/

/-- The lines an entry of a store queue writes back. -/
def SqEntry.backs (e : SqEntry) : List WbLine := match e.kind with
  | .writeBack xs => xs
  | .store | .sts | .sinj _ | .mred _ _ | .cadd | .wbr | .phys => []

/-- The write-backs that wait in a group's store queue, or in the one a trap has banked. -/
def Group.allBacks (g : Group) : List WbLine := (g.sq.map SqEntry.backs).flatten ++ (match g.bank with
  | some b => (b.keep.map (·.2)).flatten
  | none => [])

/-- Is it the write-back of a line that the core owned? -/
def WbLine.owns (y : WbLine) (va : Nat) : Bool := decide (y.va = va ∧ y.managed = false)

/-- The first write-back of a line that waits in a store queue. -/
def Group.wbIn (g : Group) (va : Nat) : Option WbLine := g.allBacks.find? (fun y => y.owns va)

def Group.dropWb (g : Group) (va : Nat) : Group :=
  { g with
    sq := g.sq.map (fun e => match e.kind with
      | .writeBack ys => { e with kind := .writeBack (ys.filter (fun y => !y.owns va)) }
      | _ => e)
    bank := g.bank.map (fun b => { b with keep := b.keep.map (fun x => (x.1, x.2.filter (fun y => !y.owns va))) }) }

/-- The core gives a line back: for read it keeps S, for ownership nothing (rows 7, 8); a line that an
unbinding has put into a store queue is taken from there (R123). -/
def State.giveBack (s : State) (c ctx va : Nat) (own : Bool) : State × Option (Line × Nat × Nat × Bool) :=
  let a := va / 128 * 128
  match s.copyOf c ctx va with
  | some y =>
    if y.st = .o then
      ((if own then s.modCore c (fun x => x.dropCopy (lineKey ctx va))
        else s.setCopyOf c ctx va { y with st := .s }), some (y.data, y.w, y.r, y.poison))
    else (s, none)
  | none =>
    match s.groups.find? (fun g => decide (placeCore g.1 = c ∧ g.2.ctx = ctx) && (g.2.wbIn a).isSome) with
    | some g =>
      (s.modGrp g.1 (fun x => x.dropWb a), (g.2.wbIn a).map (fun y => (y.data, y.w, y.r, y.poison)))
    | none => (s, none)

/-! ## Pushes that reach a core (R135, R146) -/

/-- The injected lines a core holds unread, their leases not ended (R135). -/
def Copy.counts (y : Copy) (t : Nat) : Bool := y.unread && t ≤ y.r
def Core.unreadLines (c : Core) : Nat := (c.l1.filter (fun y => y.2.counts c.t)).length

/-- What a receiver does with a push: it drops one of a line that it owns, has bound or holds a later write of; refuses one
beyond the quota, where one that replaces a copy that counts is not beyond it (R135; notes/assumptions/59.md, DESIGN CHOICE);
installs any other. -/
def State.receive (s : State) (x : Push) : State :=
  let c := s.core x.core
  let held := s.copyOf x.core x.ctx x.va
  let drop := (match held with
    | some y => y.st == .o || y.st == .managed || x.w < y.w
    | none => false) || (s.boundOff x.core x.ctx x.va).isSome
  let counted := match held with
    | some y => y.counts c.t
    | none => false
  if drop then s
  else if c.gated || (64 ≤ c.unreadLines && !counted) then
    s.modCore x.src (fun y => { y with injrefused := sat64 (y.injrefused + 1) })
  else s.setCopyOf x.core x.ctx x.va {
    st := if x.z then .sc else .s, data := x.data, w := x.w, r := x.r, mask := 0, unread := true, poison := x.poison, stash := none
    sect := x.sect }

/-- Is a push one of a line to a core? -/
def Push.isTo (x : Push) (c ctx va : Nat) : Bool := x.core == c && x.ctx == ctx && x.va == va / 128 * 128

/-- The messages of a home to one core about one line arrive in the order they were sent: the pushes before it, then what
comes next (R143). -/
def State.deliver (s : State) (c ctx va : Nat) : State :=
  (s.pushes.filter (fun x => x.isTo c ctx va)).foldl State.receive
    { s with pushes := s.pushes.filter (fun x => !x.isTo c ctx va) }

/-- The home takes a line back from its owner: W := w, H := max(H, r), owner none (rows 7 to 9). -/
def State.recallLine (s : State) (d ctx va : Nat) (h : HomeLine) (c : Nat) (own : Bool) : State × HomeLine :=
  let (s, r) := (s.deliver c ctx va).giveBack c ctx va own
  let h' : HomeLine := match r with
    | some (x, w, r, bad) => { h with data := x, w := w, h := max h.h r, owner := none, hold := false, poison := bad, dirty := true }
    | none => { h with owner := none, hold := false }
  ((s.setHome d ctx va h').raiseTop d va h'.h, h')

/-- The line without an owner, recalled where it has one; within 256 beats of the grant a recall waits (R145). A core whose own
write-back of the line is under way (`who`) needs no recall. -/
def unowned (s : State) (d ctx va : Nat) (h : HomeLine) (who : Option Nat) (own : Bool) : Ans HomeLine :=
  match h.owner with
  | none => .ok s h
  | some c =>
    let mine : Bool := who == some c && (s.copyOf c ctx va).isNone
    if h.hold && !mine then .wait (s.first [.ownershipHoldExpiry d ctx va]) none
    else
      let (s, h) := s.recallLine d ctx va h c own
      .ok s h

/-! ## Lines leave L2 (R125, R127, R137, R143, R147) -/

/-- The sectors a line compresses to, 1 to 4 (R125). -/
def sectorsOf (x : Line) : Nat := max 1 (min 4 (Config.sectors x))

/-- A home line without an owner is written to memory where its image has changed, compressed where it fits,
and leaves L2; `mts` keeps its lease ends. -/
def State.homeOut (s : State) (d ctx va : Nat) (h : HomeLine) : State :=
  let k := homeSlice va
  let x := s.slice d k
  let s := s.setSlice d k { x with mts := max x.mts h.h }
  let s := s.modDie d (fun y => { y with l2 := y.l2.del (lineKey ctx va) })
  if h.dirty || (h.perm.cmp && !h.z) then
    let n := if h.perm.cmp then sectorsOf h.data else 4
    let f := frameKey h.host h.frame
    let put (y : Die) : Die :=
      if h.host then { y with host := y.host.put h.frame 128 h.data.toNat }
      else if h.perm.cmp then
        { y with mem := y.mem.put h.frame 128 h.data.toNat, sect := y.sect.setD (frameKey false h.frame) n 0 }
      else y.rawPut h.frame 128 h.data.toNat
    (s.modDie d (fun y => { put y with poison := y.poison.setD f (if h.poison then ~~~0 else 0) 0 })).cnt d (fun c => { c with
        cmpWb := if n < 4 then sat64 (c.cmpWb + 1) else c.cmpWb
        cmpSect := if n < 4 then sat64 (c.cmpSect + (4 - n)) else c.cmpSect })
  else s

/-- The line that a frame of memory stands for (R125): under a compressed page, the line of the image in its first sectors. -/
def Die.lineAt (x : Die) (host cmp : Bool) (a : Nat) : Line :=
  if host then bv 1024 (x.host.get (a / 128 * 128) 128)
  else if cmp && 4 < x.slot a && x.sectors a < 4 then Config.unpacked (x.sectors a) (x.rawLine a)
  else if cmp then bv 1024 (x.mem.get (a / 128 * 128) 128)
  else x.rawLine a

/-- The permission bits of a line from its translation: pages of host owners are managed, and so not compressed (R119). -/
def TlbE.permFor (e : TlbE) (host : Bool) : Perm := if host then { e.perm with managed := true, cmp := false } else e.perm

/-- The lines a slice holds. -/
def Die.sliceLines (x : Die) (k : Nat) : List (Nat × HomeLine) := x.l2.filter (fun y => homeSlice (keyVa y.1) == k)

/-- Room for one more line in a slice of 6 MiB (R10): one that is full gives a line up, which is a free choice among those that
no recovery and no fresh grant holds (R143, R145, R150). -/
def l2Room (s : State) (d va : Nat) : Ans Unit :=
  let xs := (s.die d).sliceLines (homeSlice va)
  if xs.length < Config.l2Lines then .ok s ()
  else
    let free := xs.filter (fun y => !y.2.unknown && !(y.2.owner.isSome && y.2.hold))
    match free[(Config.freeWord s.fresh).toNat % free.length]? with
    | some y =>
      let s : State := { s with fresh := s.fresh + 1 }
      let (s, h) := match y.2.owner with
        | some c => s.recallLine d (keyCtx y.1) (keyVa y.1) y.2 c true
        | none => (s, y.2)
      .ok (s.homeOut d (keyCtx y.1) (keyVa y.1) h) ()
    | none => .wait (s.first ((xs.filter (fun y => y.2.hold)).take 1 |>.map (fun y =>
        .ownershipHoldExpiry d (keyCtx y.1) (keyVa y.1)))) none

/-- A miss or a denial takes or joins a walk record; without a free one the request waits (R181). -/
def walkMiss {α : Type} (s : State) (d ctx va : Nat) (acc : AccK) (host : Bool) : Ans α :=
  match s.takeWalk d ctx va acc host with
  | (t, some n) => .wait t (some (d, n))
  | (t, none) => .wait t none

/-- Filling a line into L2 from memory (R125, R141): W := H := `mts`, class 2. -/
def State.fillLine (s : State) (d : Nat) (host : Bool) (ctx va : Nat) (e : TlbE) : State × HomeLine :=
  let a := (e.frame + va % 2 ^ e.size) / 128 * 128
  let x := s.die d
  let m := (s.slice d (homeSlice va)).mts
  let k := x.sectors a
  let bad := x.poison.getD (frameKey host a) 0 != 0
  let p := e.permFor host
  let z := p.cmp && k < 4
  let h : HomeLine := {
    data := x.lineAt host p.cmp a
    perm := p
    frame := a
    host := host
    w := m
    h := m
    cls := 2
    z := z
    owner := none
    unknown := false
    hold := false
    poison := bad
    dirty := false }
  let s1 := s.modDie d (fun y => { y with l2 := y.l2.put (lineKey ctx va) h })
  (s1.cnt d (fun c => { c with
      memPoison := if bad then sat64 (c.memPoison + 1) else c.memPoison
      cmpSect := if z then sat64 (c.cmpSect + (4 - k)) else c.cmpSect }), h)

/-- A line at its home, or an absent-with-feedback page's translation. -/
inductive AtHome where
  | line (h : HomeLine)
  | absent (x : Perm)

/-- A translation answers a request for a line that L2 does not hold: an absent page has none, any other line is filled. -/
def fillFor (s : State) (d : Nat) (host : Bool) (ctx va : Nat) (e : TlbE) : Ans AtHome :=
  if e.perm.awf then .ok s (.absent e.perm)
  else (l2Room s d va).andThen fun s _ =>
    let (s, h) := s.fillLine d host ctx va e
    .ok s (.line h)

/-- A line whose bits denied a request takes the page's translation of now (R149, R181, R187): its bits where the frame is the
same; a line of another frame goes back there, and the new frame is filled. -/
def refresh (s : State) (d : Nat) (host : Bool) (ctx va : Nat) (h : HomeLine) (e : TlbE) : Ans AtHome :=
  if !e.perm.awf && h.host == host && h.frame == (e.frame + va % 2 ^ e.size) / 128 * 128 then
    let h' := { h with perm := e.permFor host }
    .ok (s.setHome d ctx va h') (.line h')
  else (unowned s d ctx va h none true).andThen fun s h =>
    fillFor (s.homeOut d ctx va h) d host ctx va e

/-- A request at the home of a line: descriptor, permission bits of the line or the translation, fill
(R117, R149, R179 to R181). -/
def homeLine (s : State) (d : Nat) (host : Bool) (ctx va : Nat) (acc : AccK) : Ans AtHome :=
  let s := s.holdDesc d ctx
  let judge (k : TlbE → Ans AtHome) : Ans AtHome := match (s.die d).tlbFind (homeSlice va) ctx va with
    | some e => if e.perm.permits acc then k e else walkMiss s d ctx va acc host
    | none => walkMiss s d ctx va acc host
  if !(s.desc d ctx).en then
    .fault (s.recordFault d va ctx acc host (homeSlice va) 8 0 0) d
  else
    match (s.die d).l2.find (lineKey ctx va) with
    | some h =>
      if h.perm.permits acc then
        if h.unknown then .wait (s.first [.directoryRecoveryDone d ctx va]) none else .ok s (.line h)
      else judge (fun e =>
        if h.unknown then .wait (s.first [.directoryRecoveryDone d ctx va]) none else refresh s d host ctx va h e)
    | none => judge (fillFor s d host ctx va)

/-- Resolving the owner and asking its home. -/
def atHome (s : State) (ctx va : Nat) (acc : AccK) : Ans (Nat × AtHome) :=
  match s.owner va with
  | .die d => (homeLine s d false ctx va acc).andThen (fun s x => .ok s (d, x))
  | .host d => (homeLine s d true ctx va acc).andThen (fun s x => .ok s (d, x))
  | .far | .bad => .far s

/-- What is lost on its way is dropped, and its sender goes on (R253). -/
def Ans.lost {α : Type} (a : Ans α) (d va : Nat) (x : α) : Ans α := match a with
  | .far s => .ok (s.dropFar d va) x
  | a => a

/-! ## The write at a home (row 12) -/

/-- Row 12 at a home line without an owner: expand, W := max(H + 1, t), write. A managed line grants no lease: its W and H are the
latest time of a write to it, which an acquire of the value takes, and which `mts` keeps when the line leaves L2 (R159;
notes/assumptions/53.md). -/
def State.homePut (s : State) (d ctx va : Nat) (h : HomeLine) (l : Line) (t : Nat) (whole : Bool) : State × Nat :=
  let bad := h.poison && !whole
  if h.perm.managed then
    let w := max h.w t
    (s.setHome d ctx va { h with data := l, w := w, h := max h.h w, poison := bad, dirty := true }, w)
  else
    let w := max (h.h + 1) t
    (((s.setHome d ctx va { h with data := l, w := w, h := w, cls := 0, z := false, poison := bad, dirty := true }).raiseTop
      d va w).cnt d (fun a => { a with cmpExp := if h.z then sat64 (a.cmpExp + 1) else a.cmpExp }), w)

/-- The L2 line over a physical address of a die's own memory, when one stands. -/
def Die.lineOver (x : Die) (a : Nat) : Option (Nat × HomeLine) := x.l2.find? (fun y => !y.2.host && y.2.frame == a / 128 * 128)

/-- Adding n to a feedback counter, as a home write of the die: in the L2 line over its address, which may be in recovery (R150), or
in memory (R192). -/
def feedback (s : State) (d ctx fbi n : Nat) : Ans Unit :=
  let x := s.desc d ctx
  if fbi < x.fbcnt && n != 0 then
    let a := x.fbarr + 4 * fbi
    let add (v : Nat) : Nat := min (v + n) (2 ^ 32 - 1)
    match (s.die d).lineOver a with
    | some (k, h) =>
      if h.unknown then .wait (s.first [.directoryRecoveryDone d (keyCtx k) (keyVa k)]) none
      else (unowned s d (keyCtx k) (keyVa k) h none true).andThen fun s h =>
        .ok (s.homePut d (keyCtx k) (keyVa k) h (linePut h.data (a % 128) 4 (add (lineGet h.data (a % 128) 4))) 0 false).1 ()
    | none => .ok ((s.notePoison d a 4).setPhys d a 4 (add (s.phys d a 4))) ()
  else .ok s ()

/-! ## Counter waiters (R168) -/

/-- A counter value satisfies a target (R167). -/
def counterMet (value target : Nat) : Bool := bits target 0 63 ≤ bits value 0 63 || bit value 63

/-- A parked `CWAIT` is satisfied: the value is written, the acquire made, and the group goes on (R168, R44). -/
def Group.wake (g : Group) (value : Nat) : Group :=
  match g.cpark with
  | some k =>
    let parked := g.tags.any (fun x => x.2.parked) || (match g.sq with
        | e :: _ => e.parked.isSome
        | [] => false)
    { g.setS2 k.d (bv 64 value) with
      pc := k.npc
      cpark := none
      st := if parked then .faultParked else .ready }
  | none => g

/-- Is the wake-up that the home sends a waiter one that no link carries (R253)? -/
def State.deafAt (s : State) (p : Nat) : Bool := match (s.grp p).bind (·.cpark) with
  | some k => k.deaf
  | none => false

/-- A wake-up reaches its group; one that is lost is counted, and the group stays Counter-parked (R253). -/
def State.wakeOne (s : State) (d : Nat) (x : Line) (w : Nat) (y : Waiter) : State :=
  if s.deafAt y.place then
    (s.modGrp y.place (fun g => { g with cpark := g.cpark.map (fun k => { k with deaf := false }) })).linkDropped d
  else (s.modGrp y.place (fun g => g.wake (lineGet x (y.va % 128) 8))).raiseT (placeCore y.place) w

/-- The home checks its waiters after each change of a counter, in order of arrival (R168). The entry of one that its wake-up does
not reach stays for a later change (R253). -/
def State.wakeWaiters (s : State) (d ctx va : Nat) (x : Line) (w : Nat) : State :=
  let k := homeSlice va
  let hit (y : Waiter) : Bool := decide (y.ctx = ctx ∧ y.va / 128 = va / 128)
    && counterMet (lineGet x (y.va % 128) 8) y.target
  let sl := s.slice d k
  let s1 := s.setSlice d k { sl with waiters := sl.waiters.filter (fun y => !hit y || s.deafAt y.place) }
  (sl.waiters.filter hit).foldl (fun s y => s.wakeOne d x w y) s1

/-! ## Home writes (row 12, R144) -/

/-- A home write's result: what the change returns, and W. -/
structure Done (α : Type) where
  out : α
  w : Nat

/-- Row 12: recall any owner, then `homePut`. The change answers the new line, or none where nothing is written; `whole` clears
the poison (R138). The acknowledgement reaches the core that asks behind the pushes of the line sent to it before (R143). -/
def homeWriteLine {α : Type} (s : State) (ctx va : Nat) (acc : AccK) (t : Nat) (who : Option Nat) (whole : Bool)
    (f : HomeLine → Option Line × α) : Ans (Done α) :=
  (atHome s ctx va acc).andThen fun s y =>
    match y.2 with
    | .absent _ => .far s
    | .line h =>
      (unowned s y.1 ctx va h who true).andThen fun s h =>
        let s := match who with
          | some c => s.deliver c ctx va
          | none => s
        match f h with
        | (none, x) => .ok s { out := x, w := h.w }
        | (some l, x) =>
          let (s, w) := s.homePut y.1 ctx va h l t whole
          .ok (if h.perm.ctr && !h.perm.managed then s.wakeWaiters y.1 ctx va l w else s) { out := x, w := w }

/-! ## Lines leave L1 (rows 9, 10, R11, R126, R129) -/

/-- The home's line is marked poisoned: poison travels with the data (R138). -/
def State.poisonHome (s : State) (ctx va : Nat) : State := match s.owner va with
  | .die d | .host d => (match (s.die d).l2.find (lineKey ctx va) with
    | some h => s.setHome d ctx va { h with poison := true }
    | none => s)
  | _ => s

/-- Writing a managed copy's dirty bytes back at its home, at its core's time (R129); a copy marked poisoned takes the mark along,
and bytes that several stores wrote clear none (R138). -/
def managedBack (s : State) (ctx va : Nat) (x : Line) (m : BitVec 128) (bad : Bool) (t : Nat) : Ans Unit :=
  (homeWriteLine s ctx va .store t none (m == ~~~0 && !bad) (fun h => (some (lineMerge h.data x m), ()))).andThen
    fun s _ => .ok (if bad then s.poisonHome ctx va else s) ()

/-- A coherent owned line written back to its home (row 9). A home that recovers the line keeps the first that comes back, and
`htop` its lease end (R150). One that no link carries is dropped and counted (R253). -/
def State.ownedBack (s : State) (c ctx va : Nat) (x : Line) (w r : Nat) (bad : Bool) : State :=
  match s.owner va with
  | .die d | .host d =>
    match (s.die d).l2.find (lineKey ctx va) with
    | some h =>
      if h.unknown then
        (match h.owner with
          | none => s.setHome d ctx va { h with data := x, w := w, owner := some c, poison := bad }
          | some _ => s).raiseTop d va r
      else if h.owner = some c then
        (s.setHome d ctx va { h with
          data := x, w := w, h := max h.h r, owner := none, hold := false, poison := bad, dirty := true }).raiseTop d va r
      else s
    | none => s
  | .far => s.linkDropped (coreDie c)
  | .bad => s

/-- A core's copy of a line leaves: written back where it must be, then dropped (rows 9, 10, R129). -/
def evictCopy (s : State) (c ctx va : Nat) : Ans Unit :=
  let out (s : State) : State := s.modCore c (fun x => x.dropCopy (lineKey ctx va))
  match s.copyOf c ctx va with
  | none => .ok s ()
  | some y =>
    match y.st with
    | .o => .ok (out (s.ownedBack c ctx va y.data y.w y.r y.poison)) ()
    | .managed =>
      if y.mask = 0 then .ok (out s) ()
      else (managedBack s ctx va y.data y.mask y.poison (s.core c).t).andThen fun s _ => .ok (out s) ()
    | _ => .ok (out s) ()

/-- A core gives a copy up, whatever comes of it. Bytes that no link carries home are dropped and counted (R253), those whose page
takes no write any more are lost (notes/assumptions/19.md); where a walk has to come first, the copy waits on it. -/
def recallCopy (s : State) (c ctx va : Nat) : Ans Unit :=
  let k := lineKey ctx va
  if s.waiting (.recall c k) then .wait s none
  else match evictCopy s c ctx va with
    | .wait s (some (d, n)) => .wait (s.await (.recall c k) d ctx (some n)) none
    | .far s => .ok ((s.modCore c (fun x => x.dropCopy k)).dropFar (coreDie c) va) ()
    | .fault s _ | .poisoned s => .ok (s.modCore c (fun x => x.dropCopy k)) ()
    | a => a

/-- The sectors an L1 holds, bound lines apart: they stand in the stash (R122). -/
def Core.l1Used (c : Core) : Nat := ((c.l1.filter (fun y => y.2.stash.isNone)).map (fun y => y.2.sect)).sum

/-- Room for n sectors of a line in a core's L1 of 256 KiB (R11): other lines leave, which is a free choice, one after the
other (rows 9, 10). A bound line needs none. -/
def l1RoomFor (c ctx va n : Nat) : Nat → State → Ans Unit
  | 0, s => .ok s ()
  | k + 1, s =>
    let x := (s.core c).dropCopy (lineKey ctx va)
    let xs := x.l1.filter (fun y => y.2.stash.isNone)
    if x.l1Used + n ≤ Config.l1Sectors then .ok s ()
    else match xs[(Config.freeWord s.fresh).toNat % xs.length]? with
      | none => .ok s ()
      | some y => match recallCopy { s with fresh := s.fresh + 1 } c (keyCtx y.1) (keyVa y.1) with
        | .ok s _ => l1RoomFor c ctx va n k s
        | a => .wait a.state none

def l1Room (s : State) (c ctx va n : Nat) : Ans Unit :=
  if (s.boundOff c ctx va).isSome then .ok s () else l1RoomFor c ctx va n 8 s


/-! ## Shared reads (rows 1, 2, 3, 5) -/

/-- Data a reader gets, and whether the page is absent with feedback (R192). -/
structure Got where
  data : Line
  absent : Bool

/-- A read of an absent page: zeros, and one more at its counter. A bound line is filled with them (R122): on a managed page for
good, on a coherent one without a lease, so that the next touch asks for it again. -/
def absentLine (s : State) (d c ctx va : Nat) (p : Perm) (n : Nat) : Ans Got :=
  (feedback s d ctx p.fbi n).andThen fun s _ =>
    let got : Got := { data := 0, absent := true }
    match s.boundOff c ctx va with
    | none => .ok s got
    | some o =>
      let s := s.setCopyOf c ctx va {
        st := .managed, data := 0, w := 0, r := 0, mask := 0, unread := false, poison := false, stash := some o, sect := 4 }
      .ok (if p.managed then s else s.modCore c (fun x => x.dropCopy (lineKey ctx va))) got

/-- Rows 1 and 3 at the home, for a core that holds nothing, or a copy written at `w`; a copy that is current gets the new lease
alone. `n` counts the requests for the feedback counter; a managed copy is kept where `keep` says so. -/
def shareLine (s : State) (c ctx va : Nat) (acc : AccK) (n : Nat) (held : Option Copy) (keep : Bool) : Ans Got :=
  (atHome s ctx va acc).andThen fun s y =>
    match y.2 with
    | .absent p => absentLine s y.1 c ctx va p n
    | .line h =>
      (unowned s y.1 ctx va h (some c) false).andThen fun s h =>
        let s := s.deliver c ctx va
        let t := (s.core c).t
        let bound := s.boundOff c ctx va
        if h.perm.ctr then
          -- lines of counter-capable pages are read at their home and never granted (R144)
          if h.poison then .poisoned s else .ok (s.raiseT c h.w) { data := h.data, absent := false }
        else if h.perm.managed then
          if h.poison then .poisoned s
          else if !keep then .ok (s.raiseT c h.w) { data := h.data, absent := false }
          else (l1Room s c ctx va 4).andThen fun s _ =>
            .ok ((s.setCopyOf c ctx va {
              st := .managed, data := h.data, w := 0, r := 0, mask := 0, unread := false, poison := false, stash := bound, sect := 4 }).raiseT
                c h.w)
            { data := h.data, absent := false }
        else
          let k := if h.z then (s.die y.1).sectors h.frame else 4
          let r := max h.w t + lease h.cls
          let fresh : Copy := {
            st := if h.z then .sc else .s, data := h.data, w := h.w, r := r, mask := 0, unread := false
            poison := h.poison, stash := bound, sect := k }
          let same := match held with
            | some x => x.w == h.w
            | none => false
          let copy : Copy := match held with
            | some x => if same then { x with r := r, unread := false } else fresh
            | none => fresh
          (l1Room s c ctx va copy.sect).andThen fun s _ =>
            let h' := { h with h := max h.h r, cls := if same then min 4 (h.cls + 1) else h.cls }
            let s := ((s.setHome y.1 ctx va h').raiseTop y.1 va r).cnt y.1 (fun a =>
              { a with cmpSect := if same then a.cmpSect else sat64 (a.cmpSect + (4 - k)) })
            let s := (s.setCopyOf c ctx va copy).raiseT c h.w
            if copy.poison then .poisoned s else .ok s { data := copy.data, absent := false }

/-- A core's read of a line: rows 1, 2, 3 and 5, and managed copies (R128). -/
def readLine (s : State) (c ctx va : Nat) (acc : AccK) (n : Nat) (keep : Bool) : Ans Got :=
  match s.copyOf c ctx va with
  | none => shareLine s c ctx va acc n none keep
  | some y =>
    let t := (s.core c).t
    match y.st with
    | .unfilled => shareLine s c ctx va acc n none keep
    | .managed =>
      if y.poison then .poisoned s else .ok (s.setCopyOf c ctx va y) { data := y.data, absent := false }
    | .o =>
      if y.poison then .poisoned s
      else
        let t' := max t y.w
        .ok ((s.setCopyOf c ctx va { y with r := max y.r t' }).raiseT c t') { data := y.data, absent := false }
    | .s | .sc =>
      if max t y.w ≤ y.r then
        if y.poison then .poisoned s
        else .ok ((s.setCopyOf c ctx va { y with unread := false }).raiseT c y.w) { data := y.data, absent := false }
      else shareLine s c ctx va acc n (some y) keep

/-- A unit's read at the home, without a lease (R234); the unit's time follows the write it reads. It is no load instruction's
request, so an absent page's counter stands (R192). -/
def unitRead (s : State) (ctx va : Nat) (acc : AccK) : Ans (Got × Nat) :=
  (atHome s ctx va acc).andThen fun s y =>
    match y.2 with
    | .absent _ => .ok s ({ data := 0, absent := true }, 0)
    | .line h =>
      (unowned s y.1 ctx va h none false).andThen fun s h =>
        if h.poison then .poisoned s else .ok s ({ data := h.data, absent := false }, h.w)

/-! ## The written-range log (R133) -/

/-- Closing the open range sends its entry and the add to the block's head on their way. -/
def State.closeLog (s : State) (c : Nat) : State :=
  let x := s.core c
  match x.log, x.logOpen with
  | some l, some (a, n) =>
    { (s.setCore c { x with logOpen := none }) with
      seq := s.seq + 1
      adds := s.adds ++ [{
        id := s.seq, ctx := l.ctx, va := l.block, amount := 1, token := false, pre := .log c a n l.ring.toNat l.lsize
        die := coreDie c, t := x.t, port := none }] }
  | _, _ => s

/-- A line becomes dirty: it extends the open range from above, or opens a new one (R133). -/
def State.logDirty (s : State) (c va : Nat) : State :=
  let a := va / 128 * 128
  let x := s.core c
  if x.log.isNone then s
  else
    match x.logOpen with
    | some (b, n) =>
      if a = b + n && n < 2 ^ 32 - 128 then
        let s := s.setCore c { x with logOpen := some (b, n + 128) }
        if n + 128 = 2 ^ 32 - 128 then s.closeLog c else s
      else (s.closeLog c).modCore c (fun x => { x with logOpen := some (a, 128) })
    | none => s.setCore c { x with logOpen := some (a, 128) }

/-! ## Stores (rows 4 and 6, R128, R134, R144) -/

/-- The cores a destination mask names: members of the storer's cluster, but the storer itself (R134). -/
def pushCores (c : Nat) (mask : Half) : List Nat :=
  let base := coreDie c * Config.cores + coreCluster c * 16
  ((upTo 16).filter (fun k => mask.getLsbD k && base + k != c)).map (base + ·)

/-- The pushes of an injected store (R134, R146): the lease, then one push for each named core. A compressed image moves fewer
sectors (R251). -/
def State.inject (s : State) (c d ctx va : Nat) (wasZ : Bool) (mask : Half) : State :=
  match (s.die d).l2.find (lineKey ctx va) with
  | none => s
  | some h =>
    let r := h.w + lease h.cls
    let xs := pushCores c mask
    let n := if wasZ then sectorsOf h.data else 4
    let s := ((s.setHome d ctx va { h with h := max h.h r }).raiseTop d va r).cnt d (fun a =>
      { a with cmpSect := sat64 (a.cmpSect + (4 - n) * xs.length) })
    { s with pushes := s.pushes ++ xs.map (fun k =>
        { core := k, src := c, ctx := ctx, va := va / 128 * 128, data := h.data, w := h.w, r := r
          z := n < 4, poison := h.poison, sect := n }) }

/-- A store performed in an owned copy: row 6. -/
def State.storeOwned (s : State) (c ctx va : Nat) (y : Copy) (x : Line) (m : BitVec 128) (whole : Bool) : State :=
  let t := max (s.core c).t (y.r + 1)
  (s.setCopyOf c ctx va { y with w := t, r := t, data := lineMerge y.data x m, poison := y.poison && !whole }).raiseT c t

/-- A store into a managed copy sets its mask; a line that becomes dirty is logged (R128, R133). -/
def State.storeManaged (s : State) (c ctx va : Nat) (y : Copy) (x : Line) (m : BitVec 128) (whole : Bool) : State :=
  let t := s.setCopyOf c ctx va { y with
    data := lineMerge y.data x m, mask := y.mask ||| m, poison := y.poison && !whole }
  if y.mask = 0 then t.logDirty c va else t

/-- A core's store of the masked bytes of a line; `inj` is the destination mask of a `SINJ`, one that names no other core is a
plain store (R134). With `whole` the instruction has now written all the line's bytes; with `last` its pushes follow. -/
def storeLine (s : State) (c ctx va : Nat) (x : Line) (m : BitVec 128) (inj : Option Half) (whole last : Bool) : Ans Unit :=
  let inj := inj.filter (fun k => !(pushCores c k).isEmpty)
  let miss (held : Option Copy) : Ans Unit :=
    (atHome s ctx va .store).andThen fun s y =>
      match y.2 with
      | .absent _ => .far s
      | .line h =>
        let bound := s.boundOff c ctx va
        if h.perm.managed then
          let cp : Copy := match held with
            | some z => z
            | none => { st := .managed, data := h.data, w := 0, r := 0, mask := 0, unread := false, poison := h.poison, stash := bound
                        sect := 4 }
          (l1Room s c ctx va 4).andThen fun s _ => .ok (s.storeManaged c ctx va cp x m whole) ()
        else if h.perm.ctr || inj.isSome then
          (homeWriteLine s ctx va .store (s.core c).t (some c) whole
            (fun h => (some (lineMerge h.data x m), h.z))).andThen fun s r =>
            let s := s.raiseT c r.w
            .ok (match inj with
              | some k => if h.perm.ctr || !last then s else s.inject c y.1 ctx va r.out k
              | none => s) ()
        else
          (unowned s y.1 ctx va h (some c) true).andThen fun s h =>
            (l1Room (s.deliver c ctx va) c ctx va 4).andThen fun s _ =>
              let t := max (s.core c).t (h.h + 1)
              let s := (s.setHome y.1 ctx va { h with owner := some c, hold := true, cls := 0, z := false }).cnt y.1
                (fun a => { a with cmpExp := if h.z then sat64 (a.cmpExp + 1) else a.cmpExp })
              .ok ((s.setCopyOf c ctx va {
                  st := .o, data := lineMerge h.data x m, w := t, r := t, mask := 0, unread := false
                  poison := h.poison && !whole, stash := bound, sect := 4 }).raiseT c t) ()
  match s.copyOf c ctx va with
  | some y =>
    match y.st with
    | .managed => if y.mask = 0 then miss (some y) else .ok (s.storeManaged c ctx va y x m whole) ()
    | .o => if inj.isSome then miss none else .ok (s.storeOwned c ctx va y x m whole) ()
    | _ => miss none
  | none => miss none

/-! ## Atomics (R164) -/

/-- One equal-address set: the line is changed in the L1 that owns it at a narrow scope, and otherwise at its home: no atomic takes
ownership, on a bound line either (R143, R144, R164; notes/assumptions/54.md). The change answers the new line, or none where its bytes
stand: the access takes its place in the line's order all the same, by row 6 or row 12 (R142). -/
def atomicLine {α : Type} (s : State) (c ctx va : Nat) (scope : Scope) (f : Line → Option Line × α) : Ans α :=
  let narrow := scope == .gang || scope == .span || scope == .die
  let home (s : State) : Ans α :=
    (homeWriteLine s ctx va .atomic (s.core c).t (some c) false
      (fun h => if h.poison then (none, none) else (some ((f h.data).1.getD h.data), some (f h.data).2))).andThen
      fun s r => match r.out with
        | some x => .ok (s.raiseT c r.w) x
        | none => .poisoned s
  match s.copyOf c ctx va with
  | some y =>
    match y.st with
    | .o =>
      if narrow then
        if y.poison then .poisoned s
        else
          match f y.data with
          | (some l, x) => .ok (s.storeOwned c ctx va y l (~~~0) false) x
          | (none, x) => .ok (s.storeOwned c ctx va y y.data 0 false) x
      else home s
    | .managed => (evictCopy s c ctx va).andThen fun s _ => home s
    | _ => home s
  | none => home s

end Sys2Proof.Machine
end

