-- ==== Sys2Proof/Machine/Access.lean ====
section
/-!
DEFINITION. The accesses of a group: targets in stash and global memory, range locks, the performing of
tagged reads, store queues, and the parking of what meets a fault (R120, R123, R138, R156, R172, R173, R188).
-/
namespace Sys2Proof.Machine

/-! ## Targets -/

/-- Where an access goes: a global address, or an offset of the gang's stash that no binding covers. -/
inductive Tgt where
  | glob (va : Nat)
  | raw (off : Nat)
deriving DecidableEq, Repr

/-- A stash offset of a gang: bound ranges name their global addresses (R122, R123). -/
def Gang.tgt (x : Gang) (off : Nat) : Tgt :=
  match x.binds.find? (fun b => b.o ≤ off && off < b.o + b.n) with
  | some b => .glob (b.a.toNat + (off - b.o))
  | none => .raw off

/-- Does a stash access lie within the allocation (R120)? -/
def Gang.holds (x : Option Gang) (off n : Nat) : Bool := match x with
  | some x => off + n ≤ x.stashSize
  | none => false

/-! ## Range locks (R172, R173) -/

def overlaps (a n b m : Nat) : Bool := a < b + m && b < a + n && 0 < n && 0 < m

/-- An access of the core that the table forbids: a write to any range, a read of a destination. -/
def Core.locked (c : Core) (ctx a n : Nat) (write : Bool) : Bool :=
  c.locks.any (fun l => l.ctx == ctx && (write || l.dst) && overlaps a n l.lo l.len)

/-- One lane's access as the checks at issue see it. -/
structure LaneAcc where
  lane : Nat
  addr : Nat
  width : Nat
deriving DecidableEq, Repr

/-- Misaligned for its width. -/
def LaneAcc.bad (x : LaneAcc) : Bool := x.addr % x.width != 0

/-- The last byte of an access. -/
def LaneAcc.last (x : LaneAcc) : Nat := (x.addr + x.width - 1) % 2 ^ 64

/-- Does a byte of an access have no owner (R114)? Its first and its last byte decide: owners lie 2^52 bytes apart. -/
def State.badAcc (s : State) (x : LaneAcc) : Bool := s.owner x.addr == .bad || s.owner x.last == .bad

/-- Is a byte of an access in a locked range? One that runs past the end of the addresses goes on at 0. -/
def Core.lockedAcc (c : Core) (ctx : Nat) (write : Bool) (x : LaneAcc) : Bool :=
  c.locked ctx x.addr x.width write || c.locked ctx 0 (x.addr + x.width - 2 ^ 64) write

/-- The checks of a global access in their order: alignment where it is asked, owner, range locks; the
lowest failing lane is reported (R154, R114, R173, R195). -/
def State.checkAcc (s : State) (p : Nat) (g : Group) (xs : List LaneAcc) (aligned write : Bool) :
    Option (Cause × DWord) :=
  match (if aligned then xs.find? LaneAcc.bad else none) with
  | some x => some (.misaligned, bv 64 x.addr)
  | none =>
    match xs.find? s.badAcc with
    | some x => some (.badOwner, bv 64 x.addr)
    | none =>
      match xs.find? ((s.core (placeCore p)).lockedAcc g.ctx write) with
      | some x => some (.rangeLock, bv 64 x.addr)
      | none => none

/-- The checks of a stash access: range, then the locks of each bound byte by its global address (R353, R384). -/
def State.checkStash (s : State) (p : Nat) (g : Group) (xs : List LaneAcc) (write : Bool) : Option (Cause × DWord) :=
  let k := s.stashGang p g
  match xs.find? (fun x => !Gang.holds k x.addr x.width) with
  | some x => some (.stashRange, bv 64 x.addr)
  | none =>
    match xs.find? (fun x => match k with
        | some y => (upTo x.width).any (fun j => match y.tgt (x.addr + j) with
          | .glob a => (s.core (placeCore p)).locked g.ctx a 1 write
          | .raw _ => false)
        | none => false) with
    | some x => some (.rangeLock, bv 64 x.addr)
    | none => none

/-! ## Parking (R188, R196) -/

/-- The record a fault answer leaves: the owner and its live generation. -/
def State.park (s : State) (d ctx : Nat) : Park := { owner := d, gen := s.gen d ctx }

/-- A group parks, one of the walker slot too; in trap mode the launch fails (R188, R196). -/
def State.parkGroup (s : State) (p : Nat) : State :=
  match s.grp p with
  | none => s
  | some g =>
    if g.inTrap then s.failLaunch g.queue g.seqNo 0x03
    else s.setGrp p { g with st := match g.st with
        | .counterParked => .counterParked
        | .killed => .killed
        | .retiring => .retiring
        | _ => .faultParked }

/-- A word that cannot go on for a fault: the group issues it again after the reply. -/
def State.parkWord (s : State) (p d ctx : Nat) : State :=
  (s.modGrp p (fun g => { g with fetchPark := some (s.park d ctx) })).parkGroup p

/-- A fetch that cannot go on for a fault: the group fetches again after the reply (R263); the walker slot retires (R182). -/
def State.parkFetch (s : State) (p d ctx : Nat) : State :=
  match s.grp p with
  | some g => if g.kind = .walker then s.retireWalker p else s.parkWord p d ctx
  | none => s

/-! ## Reading lines for a tagged instruction -/

/-- What the lines an instruction needs were answered with. -/
structure Fetched where
  s : State
  got : SMap Got
  poisoned : List Nat
  faulted : List Nat
  fault : Option Park
  stuck : Bool
  walk : Option (Nat × Nat)

/-- Does the core keep a managed line that answers a load issued as number `seq` (R130, R348)? -/
def Core.keeps (c : Core) (ctx line seq : Nat) : Bool :=
  !c.invs.any (fun i => i.ctx == ctx && seq < i.seq && overlaps (line * 128) 128 i.lo (i.hi - i.lo))

/-- One more line, with the address that asks for it, for a word issued as number `seq`. Pages answered with a fault before are
not asked again; a line in `counted` has had its request at the feedback counter (R192). -/
def fetchLine (c ctx : Nat) (acc : AccK) (faults : List (Nat × Park)) (seq : Nat) (counted : List Nat) (f : Fetched)
    (x : Nat × Nat) : Fetched :=
  match faults.find? (fun y => y.1 == x.1 / 512) with
  | some y => { f with faulted := f.faulted ++ [x.1], fault := some y.2 }
  | none =>
    if f.s.owner x.2 = .bad then { f with poisoned := f.poisoned ++ [x.1] }
    else match readLine f.s c ctx x.2 acc (if counted.contains x.1 then 0 else 1) ((f.s.core c).keeps ctx x.1 seq) with
      | .ok s y => { f with s := s, got := f.got.put x.1 y }
      | .poisoned s | .far s => { f with s := s, poisoned := f.poisoned ++ [x.1] }
      | .fault s d => { f with s := s, faulted := f.faulted ++ [x.1], fault := some (s.park d ctx) }
      | .wait s w => { f with s := s, stuck := true, walk := if f.walk.isSome then f.walk else w }

/-- Reading lines, each with the address that asks for it. -/
def fetchLines (s : State) (c ctx : Nat) (acc : AccK) (faults : List (Nat × Park)) (seq : Nat) (counted : List Nat)
    (xs : List (Nat × Nat)) : Fetched :=
  xs.foldl (fetchLine c ctx acc faults seq counted)
    { s := s, got := [], poisoned := [], faulted := [], fault := none, stuck := false, walk := none }

/-- The distinct lines of a list of addresses with widths, each with the first address in it. -/
def linesOf (xs : List (Nat × Nat)) : List (Nat × Nat) :=
  let add (m : SMap Nat) (l va : Nat) : SMap Nat := if (m.find l).isSome then m else m.put l va
  xs.foldl (fun m x => if x.2 = 0 then m
    else
      let a := x.1 / 128
      let b := (x.1 + x.2 - 1) % 2 ^ 64 / 128
      if a = b then add m a x.1 else add (add m a x.1) b (b * 128)) []


/-- The lines of a range, each with the first address in it; past the end of the 64-bit addresses a range goes on at 0. -/
def rangeAsks (a n : Nat) : List (Nat × Nat) := (rangeLines a n).map (fun l => (l, max a (l * 128) % 2 ^ 64))

/-- The distinct lines of several ranges, each with the first address in it. -/
def asksOf (xs : List (Nat × Nat)) : List (Nat × Nat) :=
  let add (m : SMap Nat) (y : Nat × Nat) : SMap Nat := if (m.find (y.1 % 2 ^ 57)).isSome then m else m.put (y.1 % 2 ^ 57) y.2
  ((xs.map (fun x => rangeAsks x.1 x.2)).flatten).foldl add []

/-! ## The group's own queued stores (R156) -/

/-- What a queued entry holds for a byte: nothing, the byte, or a value not known before it leaves. -/
inductive Fwd where
  | none
  | byte (x : Byte)
  | busy

/-- The youngest earlier store to a byte still in the group's queue. -/
def fwdByte (sq : List SqEntry) (seq : Nat) (t : Tgt) : Fwd :=
  let hit (a : SqAcc) : Option Nat :=
    let lo := a.addr.toNat
    match t with
    | .glob va =>
      let k := (va + 2 ^ 64 - lo) % 2 ^ 64
      if !a.stash && k < a.width && !a.done.getLsbD k then some k else none
    | .raw off => if a.stash && lo ≤ off && off < lo + a.width then some (off - lo) else none
  (sq.filter (fun e => e.seq < seq)).foldl (fun f e =>
    match e.kind with
    | .store | .sts | .sinj _ =>
      e.accs.foldl (fun f a => match hit a with
        | some k => .byte (a.data.extractLsb' (8 * k) 8)
        | none => f) f
    | .mred _ _ | .cadd => if e.accs.any (fun a => (hit a).isSome) then .busy else f
    | .writeBack xs =>
      (match t with
      | .glob va => xs.foldl (fun f y =>
          if y.va = va / 128 * 128 && (!y.managed || y.mask.getLsbD (va % 128)) then .byte (lineByte y.data (va % 128)) else f) f
      | .raw _ => f)
    | .wbr | .phys => f) Fwd.none

/-- A byte as a load of the group reads it: its own queued store, the stash, or the line read. None where it
has no value yet. -/
def loadByte (s : State) (p : Nat) (g : Group) (got : SMap Got) (seq : Nat) (t : Tgt) : Option Byte :=
  match fwdByte g.sq seq t with
  | .byte x => some x
  | .busy => none
  | .none =>
    match t with
    | .glob va => (got.find (va / 128)).map (fun y => lineByte y.data (va % 128))
    | .raw off =>
      match s.stashGang p g with
      | some k => some (Memory.read (s.core (placeCore p)).stash (k.stashBase + off))
      | none => some 0

/-- n bytes from a target, little-endian. -/
def loadBytes (s : State) (p : Nat) (g : Group) (got : SMap Got) (seq : Nat) (ts : List Tgt) : Option Nat :=
  ts.foldr (fun t r => match r, loadByte s p g got seq t with
    | some n, some b => some (n * 256 + b.toNat)
    | _, _ => none) (some 0)

/-- The byte targets of an access. -/
def State.tgts (s : State) (p : Nat) (g : Group) (stash : Bool) (a n : Nat) : List Tgt :=
  (upTo n).map (fun k =>
    if stash then (match s.stashGang p g with
      | some x => x.tgt (a + k)
      | none => .raw (a + k))
    else .glob ((a + k) % 2 ^ 64))

/-- The global bytes among targets. -/
def globs (ts : List Tgt) : List (Nat × Nat) := ts.filterMap (fun t => match t with
  | .glob va => some (va, 1)
  | .raw _ => none)

/-! ## Tags (R266) -/

def Group.op (g : Group) (t : Nat) : Option POp := match g.tags.find t with
  | some x => x.op
  | none => none

/-- What stands outstanding under a tag. Past 7 stand the prefetches that name none, while they last (R373). -/
def Group.setOp (g : Group) (t : Nat) (o : Option POp) : Group :=
  { g with tags := if 7 < t && o.isNone then g.tags.del t else g.tags.put t { op := o, async := false } }

/-- Is every access of the group performed that one issued as number `seq` has to wait for: its earlier loads (R156), and all
issued before `after`? -/
def Group.clear (g : Group) (seq after : Nat) : Bool :=
  g.tags.all (fun x => match x.2.op with
    | some y => !y.bars seq after
    | none => true)

/-- May the tagged instruction be performed (R156)? -/
def Group.mayLoad (g : Group) (o : POp) : Bool := g.clear o.seq 0

/-- May a store leave (R156, R158, R337)? -/
def Group.mayStore (g : Group) (e : SqEntry) : Bool := g.clear e.seq e.after

/-- The captured source word j of lane i. -/
def POp.word (o : POp) (j i : Nat) : Word := o.src.getD (32 * j + i) 0
def POp.word2 (o : POp) (j i : Nat) : DWord := pair (o.word j i) (o.word (j + 1) i)

/-- Parking a tagged instruction: the threads of a mask are finished and keep their results (R188). -/
def State.parkTagBut (s : State) (p t : Nat) (o : POp) (gone : Mask) (k : Park) : State :=
  (s.modGrp p (fun g => (g.wrs o.res).setOp t (some { o with
    res := [], faults := [], parked := some k, todo := o.todo &&& ~~~gone }))).parkGroup p

/-- Parking a tagged instruction whose helpers get zero (R32, R188). -/
def State.parkTag (s : State) (p t : Nat) (o : POp) (k : Park) : State := s.parkTagBut p t o o.help k

/-- A word that can be performed only after a parked one parks along with it; its helpers get zero (R32, R188). -/
def State.parkAlong (s : State) (p t : Nat) (o : POp) (k : Park) (zero : Nat → List Wr) : State :=
  let o' := { o with
    todo := o.todo &&& ~~~o.help
    res := o.res ++ ((maskLanes (o.todo &&& o.help)).map zero).flatten }
  if o'.todo = 0 then s.modGrp p (fun g => g.setOp t (some o')) else s.parkTag p t o' k

/-- A word that an earlier access of its group holds back waits for it, or parks along with it. -/
def State.heldOp (s : State) (p t : Nat) (g : Group) (o : POp) (after : Nat) (zero : Nat → List Wr) : State :=
  match g.heldBy o.seq after with
  | some k => s.parkAlong p t o k zero
  | none => s

/-- An instruction whose data arrives poisoned traps; its tag is free (R138). -/
def State.poisonTag (s : State) (p t : Nat) (o : POp) (a : Nat) : State :=
  (s.modGrp p (fun g => g.setOp t none)).takeTrap p { cause := .poisoned, info := bv 64 a, pc := o.pc }

/-- A read with the absent lines it has asked for, each of whose counters has had its request (R192). -/
def POp.counting (o : POp) (f : Fetched) : POp := { o with
  counted := o.counted ++ ((f.got.filter (fun y => y.2.absent)).map (·.1)).filter (fun l => !o.counted.contains l) }

/-- A tagged read with lines still to come. -/
def State.holdReads (f : Fetched) (p t : Nat) (o : POp) : State :=
  let s := f.s.modGrp p (fun g => g.setOp t (some (o.counting f)))
  match f.walk, s.grp p with
  | some (d, n), some g => s.await (.tag p t) d g.ctx (some n)
  | _, _ => s

/-- How a tagged read goes on after its lines were asked for: `need` names each unfinished lane's addresses
with widths, `val` gives a lane's register writes once all it needs is there, and `zero` those of a helper
whose address faults. -/
def State.finishReads (f : Fetched) (p t : Nat) (o : POp) (need : Nat → List (Nat × Nat))
    (val : State → Nat → Option (List Wr)) (zero : Nat → List Wr) : State :=
  let ls (i : Nat) : List Nat := (linesOf (need i)).map (·.1)
  let live := maskLanes (o.todo &&& ~~~o.help)
  match live.find? (fun i => (ls i).any f.poisoned.contains) with
  | some i =>
    let a := ((need i).find? (fun x => (linesOf [x]).any (fun y => f.poisoned.contains y.1))).map (·.1)
    f.s.poisonTag p t o (a.getD 0)
  | none =>
    let step (o : POp) (i : Nat) : POp :=
      if o.help.getLsbD i && (ls i).any (fun l => f.poisoned.contains l || f.faulted.contains l) then
        { o with todo := o.todo &&& ~~~(1#32 <<< i), res := o.res ++ zero i }
      else match val f.s i with
        | some ws => { o with todo := o.todo &&& ~~~(1#32 <<< i), res := o.res ++ ws }
        | none => o
    let o' := (maskLanes o.todo).foldl step o
    let o' := o'.counting f
    match f.fault, live.any (fun i => o'.todo.getLsbD i && (ls i).any f.faulted.contains) with
    | some k, true =>
      let hs := maskLanes (o'.todo &&& o'.help)
      f.s.parkTag p t { o' with res := o'.res ++ (hs.map zero).flatten } k
    | _, _ =>
      if o'.todo = 0 then f.s.modGrp p (fun g => g.setOp t (some o')) else State.holdReads f p t o'

/-! ## The store queue -/

/-- Entering an entry at the tail. -/
def Group.enqueue (g : Group) (e : SqEntry) : Group := { g with sq := g.sq ++ [e] }

/-- The head leaves; a tag it names is released. -/
def State.sqDone (s : State) (p : Nat) : State :=
  s.modGrp p (fun g => match g.sq with
    | e :: r => { (if e.tag = 0 then g else g.setOp e.tag none) with sq := r }
    | [] => g)

/-- The head keeps what is left of it. -/
def State.sqHead (s : State) (p : Nat) (f : SqEntry → SqEntry) : State :=
  s.modGrp p (fun g => match g.sq with
    | e :: r => { g with sq := f e :: r }
    | [] => g)

/-- A fault parks the head (R188). So does one that a killed group's store meets after the kill, which keeps its gang's place and
stash until a reply: R66 discards the faults parked before and says nothing of later ones (notes/assumptions/57.md, DESIGN
CHOICE). -/
def State.parkSq (s : State) (p d ctx : Nat) : State :=
  (s.sqHead p (fun e => { e with parked := some (s.park d ctx) })).parkGroup p


/-- What an access still has to do once one of its lines is done. -/
def SqAcc.rest (a : SqAcc) (line : Nat) : Option SqAcc :=
  let d := (upTo a.width).foldl (fun (m : Byte) k => if a.lineOf k = line then m ||| (1#8 <<< k) else m) a.done
  let b := { a with done := d }
  if b.left.isEmpty then none else some b

/-- The accesses that leave together from the front of an entry: those, in lane order, whose bytes all lie in the line of the first
one's next byte, and of a first access that runs into another line its part in this one (R156, R383). -/
def runOf (xs : List SqAcc) (line : Nat) : List SqAcc :=
  match xs with
  | [] => []
  | a :: r =>
    if a.left.all (fun k => a.lineOf k == line) then
      a :: r.takeWhile (fun b => !b.stash && b.left.all (fun k => b.lineOf k == line))
    else [a]

/-- What an entry still has to do after such a run. -/
def afterRun (xs : List SqAcc) (line : Nat) : List SqAcc :=
  (runOf xs line).filterMap (fun a => a.rest line) ++ xs.drop (runOf xs line).length

/-- The line of an access's next byte, and its address. -/
def SqAcc.nextVa (a : SqAcc) : Nat := (a.addr.toNat + a.left.headD 0) % 2 ^ 64

/-- Did an `STS` fill a bound line, empty before, with poisoned data (R122)? -/
def State.fillPoisoned (s t : State) (c ctx va : Nat) (k : SqKind) : Bool :=
  k == .sts && (s.boundOff c ctx va).isSome && (s.copyOf c ctx va).isNone && (match t.copyOf c ctx va with
    | some y => y.poison
    | none => false)

/-- The stores at the front of the head entry that fall in one line leave. `SINJ` pushes the line with the last of the
instruction's stores to it (R134); a line that the instruction writes whole loses its poison with that (R138). -/
def State.sqStoreLine (s : State) (p : Nat) (g : Group) (e : SqEntry) (a : SqAcc) : State :=
  let c := placeCore p
  let va := a.nextVa
  let line := va / 128
  let (x, m) := accLine (runOf e.accs line) line
  let rest := afterRun e.accs line
  let last := !rest.any (fun b => !b.stash && b.left.any (fun k => b.lineOf k == line))
  let inj := match e.kind with
    | .sinj k => if (s.boundOff c g.ctx va).isSome then none else some k
    | _ => none
  let fin (s : State) : State := s.sqHead p (fun e => { e with accs := afterRun e.accs line })
  match storeLine s c g.ctx va x m inj (last && e.whole.contains line) last with
  | .ok t _ =>
    if s.fillPoisoned t c g.ctx va e.kind then (fin t).takeTrap p { cause := .poisoned, info := a.addr, pc := g.pc }
    else fin t
  | .poisoned s => fin s
  | .far s => fin (s.dropFar (placeDie p) va)
  | .fault s d => s.parkSq p d g.ctx
  | .wait s w => match w with
    | some (d, n) => s.await (.sq p) d g.ctx (some n)
    | none => s

/-- The raw stash stores at the front of the head entry are done at once. -/
def State.sqStoreRaw (s : State) (p : Nat) (g : Group) (e : SqEntry) : State :=
  let t := match s.stashGang p g with
    | some k =>
      let put (c : Core) (a : SqAcc) : Core := c.stashPut (k.stashBase + a.addr.toNat) a.width a.data.toNat
      s.modCore (placeCore p) (fun c => (e.accs.takeWhile (fun (a : SqAcc) => a.stash)).foldl put c)
    | none => s
  t.sqHead p (fun e => { e with accs := e.accs.dropWhile (fun (a : SqAcc) => a.stash) })

/-- A store entry, in lane order (R156, R383). -/
def State.sqStores (s : State) (p : Nat) (g : Group) (e : SqEntry) : State :=
  match e.accs with
  | a :: _ => if a.stash then s.sqStoreRaw p g e else s.sqStoreLine p g e a
  | [] => s.sqDone p

end Sys2Proof.Machine
end

