-- ==== Sys2Proof/Machine/Num.lean ====
section
/-!
DEFINITION. Number formats, exact values and rounding (R69 to R76, R80, R83 to R94, R330, R334).
-/
namespace Sys2Proof.Machine

/-! ## Flags and modes (R81, R83) -/

abbrev Flags := BitVec 5

def fNV : Flags := 16
def fDZ : Flags := 8
def fOF : Flags := 4
def fUF : Flags := 2
def fNX : Flags := 1

def flagIf (b : Bool) (f : Flags) : Flags := if b then f else 0

/-- The rounding modes in code order (R81). -/
inductive Rm where
  | rne | rtz | rup | rdn
deriving DecidableEq, Repr

def Rm.of (x : BitVec 2) : Rm := match x.toNat with
  | 0 => .rne
  | 1 => .rtz
  | 2 => .rup
  | _ => .rdn

/-! ## Formats (R69, R70) -/

/-- A floating-point format: exponent and mantissa bits, bias, the code of its largest finite value, whether
it has infinities, its canonical NaN where it has one, and whether NaNs carry a quiet bit. -/
structure Fmt where
  eb : Nat
  mb : Nat
  bias : Nat
  maxc : Nat
  inf : Bool
  nan : Option Nat
  quiet : Bool

def fmtF32 : Fmt := { eb := 8, mb := 23, bias := 127, maxc := 0x7F7FFFFF, inf := true, nan := some 0x7FC00000, quiet := true }
def fmtF16 : Fmt := { eb := 5, mb := 10, bias := 15, maxc := 0x7BFF, inf := true, nan := some 0x7E00, quiet := true }
def fmtBf16 : Fmt := { eb := 8, mb := 7, bias := 127, maxc := 0x7F7F, inf := true, nan := some 0x7FC0, quiet := true }
def fmtE5m2 : Fmt := { eb := 5, mb := 2, bias := 15, maxc := 0x7B, inf := true, nan := some 0x7E, quiet := true }
def fmtE4m3 : Fmt := { eb := 4, mb := 3, bias := 7, maxc := 0x7E, inf := false, nan := some 0x7F, quiet := false }
def fmtE3m2 : Fmt := { eb := 3, mb := 2, bias := 3, maxc := 0x1F, inf := false, nan := none, quiet := false }
def fmtE2m1 : Fmt := { eb := 2, mb := 1, bias := 1, maxc := 0x7, inf := false, nan := none, quiet := false }

/-- The format of a floating type; e8m0 and the integers have none. -/
def Fmt.ofTy : Ty → Fmt
  | .f16 => fmtF16
  | .bf16 => fmtBf16
  | .e5m2 => fmtE5m2
  | .e4m3 => fmtE4m3
  | .e3m2 => fmtE3m2
  | .e2m1 => fmtE2m1
  | _ => fmtF32

/-- Exponent and mantissa bits together; the sign bit's weight is 2 to this. -/
def Fmt.mag (f : Fmt) : Nat := f.eb + f.mb

/-- The code of +∞ in a format that has infinities. -/
def Fmt.infCode (f : Fmt) : Nat := f.maxc + 1

/-! ## Exact values -/

/-- A value: a NaN (signalling or not), an infinity, or ±m × 2^e. -/
inductive FVal where
  | nan (sig : Bool)
  | inf (neg : Bool)
  | num (neg : Bool) (m : Nat) (e : Int)
deriving DecidableEq, Repr

/-- Reading an element (R69, R70). -/
def unpack (f : Fmt) (x : Nat) : FVal :=
  let c := x % 2 ^ f.mag
  let neg := bit x f.mag
  let e := c / 2 ^ f.mb
  let m := c % 2 ^ f.mb
  if f.maxc < c then
    if f.inf && c = f.infCode then .inf neg else .nan (f.quiet && !bit c (f.mb - 1))
  else if e = 0 then .num neg m (1 - (f.bias : Int) - f.mb)
  else .num neg (m + 2 ^ f.mb) ((e : Int) - f.bias - f.mb)

def FVal.isNaN : FVal → Bool
  | .nan _ => true
  | _ => false
def FVal.isSig : FVal → Bool
  | .nan x => x
  | _ => false
def FVal.isZero : FVal → Bool
  | .num _ m _ => m == 0
  | _ => false
def FVal.isInf : FVal → Bool
  | .inf _ => true
  | _ => false
def FVal.neg : FVal → Bool
  | .nan _ => false
  | .inf n => n
  | .num n _ _ => n

/-- An integer as an exact value; zero is +0. -/
def FVal.ofInt (x : Int) : FVal := .num (decide (x < 0)) x.natAbs 0

/-! ## Rounding -/

/-- Does a quotient with remainder part round away from zero? `r` is the remainder out of 2^d, d > 0. -/
def roundUp (rm : Rm) (neg : Bool) (n r d : Nat) : Bool := match rm with
  | .rne => 2 ^ (d - 1) < r || (r == 2 ^ (d - 1) && n % 2 == 1)
  | .rtz => false
  | .rup => !neg && r != 0
  | .rdn => neg && r != 0

/-- m × 2^e as a multiple of 2^q, rounded; and whether it is exact. -/
def roundAt (rm : Rm) (neg : Bool) (m : Nat) (e q : Int) : Nat × Bool :=
  if q ≤ e then (m * 2 ^ (e - q).toNat, true)
  else
    let d := (q - e).toNat
    if m.log2 + 1 < d then
      -- far below half a unit
      (if m = 0 then 0 else match rm with
        | .rup => if neg then 0 else 1
        | .rdn => if neg then 1 else 0
        | _ => 0, m == 0)
    else
      let n := m / 2 ^ d
      let r := m % 2 ^ d
      (if roundUp rm neg n r d then n + 1 else n, r == 0)

/-- What overflow gives (R84). -/
def overflowCode (f : Fmt) (rm : Rm) (neg : Bool) : Nat :=
  if !f.inf then f.maxc
  else match rm with
    | .rne => f.infCode
    | .rtz => f.maxc
    | .rup => if neg then f.maxc else f.infCode
    | .rdn => if neg then f.infCode else f.maxc

def signed (f : Fmt) (neg : Bool) (c : Nat) : Nat := c + neg.toNat * 2 ^ f.mag

/-- The code of a magnitude rounded with the exponent unbounded above, whether it is exact, and whether it is
tiny after rounding (R83). None stands for a magnitude past every code. -/
def roundCode (f : Fmt) (rm : Rm) (neg : Bool) (m : Nat) (e : Int) : Option Nat × Bool × Bool :=
  let l : Int := (m.log2 : Int) + e
  let emin : Int := 1 - (f.bias : Int)
  if (f.bias : Int) + 2 < l then (none, false, false)
  else
    let q := max l emin - f.mb
    let (n, ex) := roundAt rm neg m e q
    let code := ((q + f.mb + f.bias - 1).toNat) * 2 ^ f.mb + n
    let tiny := if emin ≤ l then false
      else if l < emin - 1 then true
      else (roundAt rm neg m e (l - f.mb)).1 < 2 ^ (f.mb + 1)
    (some code, ex, tiny)

/-- Rounding an exact value into a format, with the flags of R83, R84. A NaN becomes the canonical NaN; into
a format without one it becomes +0 with `nv`. -/
def roundTo (f : Fmt) (rm : Rm) : FVal → Nat × Flags
  | .nan s => match f.nan with
    | some c => (c, flagIf s fNV)
    | none => (0, fNV)
  | .inf neg => if f.inf then (signed f neg f.infCode, 0) else (signed f neg f.maxc, fOF ||| fNX)
  | .num neg m e =>
    if m = 0 then (signed f neg 0, 0)
    else match roundCode f rm neg m e with
      | (none, _, _) => (signed f neg (overflowCode f rm neg), fOF ||| fNX)
      | (some c, ex, tiny) =>
        if f.maxc < c then (signed f neg (overflowCode f rm neg), fOF ||| fNX)
        else (signed f neg c, flagIf (!ex) fNX ||| flagIf (!ex && tiny) fUF)

/-- Rounding to an integer (R86), and whether it is exact. -/
def roundInt (rm : Rm) (neg : Bool) (m : Nat) (e : Int) : Int × Bool :=
  let (n, ex) := roundAt rm neg m e 0
  (if neg then -(n : Int) else n, ex)

/-! ## Exact arithmetic -/

/-- ±m × 2^e as an integer multiple of 2^q, for q at or below e. -/
def scaleTo (neg : Bool) (m : Nat) (e q : Int) : Int :=
  let n : Int := (m * 2 ^ (e - q).toNat : Nat)
  if neg then -n else n

/-- Product, and whether it is invalid: 0 × ∞ (R83). -/
def mulVal (a b : FVal) : FVal × Bool :=
  match a, b with
  | .nan _, _ | _, .nan _ => (.nan false, false)
  | .inf x, y | y, .inf x => if y.isZero then (.nan false, true) else (.inf (x != y.neg), false)
  | .num x m e, .num y n k => (.num (x != y) (m * n) (e + k), false)

/-- The exact sum of terms, and whether it is invalid: infinities of both signs. A zero sum of terms that are
not all zeros of one sign is +0, under RDN −0 (R330). -/
def sumVal (rm : Rm) (xs : List FVal) : FVal × Bool :=
  if xs.any FVal.isNaN then (.nan false, xs.any (· == .inf true) && xs.any (· == .inf false))
  else if xs.any (· == .inf true) && xs.any (· == .inf false) then (.nan false, true)
  else if xs.any (· == .inf true) then (.inf true, false)
  else if xs.any (· == .inf false) then (.inf false, false)
  else if xs.all (fun x => x.isZero && x.neg) then (.num true 0 0, false)
  else if xs.all (fun x => x.isZero && !x.neg) then (.num false 0 0, false)
  else
    let q := xs.foldl (fun a x => match x with
      | .num _ m e => if m = 0 then a else min a e
      | _ => a) 4096
    let n := xs.foldl (fun a x => match x with
      | .num s m e => if m = 0 then a else a + scaleTo s m e q
      | _ => a) (0 : Int)
    if n = 0 then (.num (rm == .rdn) 0 0, false) else (.num (decide (n < 0)) n.natAbs q, false)

/-- Comparing two numbers or infinities: −1, 0, 1 (−0 equals +0). -/
def cmpVal (a b : FVal) : Int :=
  let key (x : FVal) (q : Int) : Int := match x with
    | .num s m e => if m = 0 then 0 else scaleTo s m e q
    | _ => 0
  match a, b with
  | .inf x, .inf y => if x = y then 0 else if x then -1 else 1
  | .inf x, _ => if x then -1 else 1
  | _, .inf y => if y then 1 else -1
  | .num _ m e, .num _ n k =>
    let q := if m = 0 then k else if n = 0 then e else min e k
    let d := key a q - key b q
    if d < 0 then -1 else if d = 0 then 0 else 1
  | _, _ => 0

/-! ## The element operations -/

/-- An operation's element result in a format. -/
abbrev Elem := Nat × Flags

def nvSig (xs : List FVal) : Flags := flagIf (xs.any FVal.isSig) fNV

/-- Rounding a computed value whose operands were xs. -/
def finish (f : Fmt) (rm : Rm) (xs : List FVal) (r : FVal × Bool) : Elem :=
  let (c, fl) := roundTo f rm r.1
  (c, fl ||| nvSig xs ||| flagIf r.2 fNV)

def fAdd (f : Fmt) (rm : Rm) (a b : Nat) : Elem :=
  let xs := [unpack f a, unpack f b]
  finish f rm xs (sumVal rm xs)

/-- The negation of a value. -/
def FVal.flip : FVal → FVal
  | .nan s => .nan s
  | .inf n => .inf (!n)
  | .num n m e => .num (!n) m e

def fSub (f : Fmt) (rm : Rm) (a b : Nat) : Elem :=
  let xs := [unpack f a, (unpack f b).flip]
  finish f rm xs (sumVal rm xs)

def fMul (f : Fmt) (rm : Rm) (a b : Nat) : Elem :=
  let x := unpack f a
  let y := unpack f b
  finish f rm [x, y] (mulVal x y)

def fFma (f : Fmt) (rm : Rm) (a b c : Nat) : Elem :=
  let x := unpack f a
  let y := unpack f b
  let z := unpack f c
  let p := mulVal x y
  let r := sumVal rm [p.1, z]
  finish f rm [x, y, z] (r.1, p.2 || r.2)

/-- `FDOT2`: two products in format f and an f32 addend, one rounding (R333). -/
def fDot2 (f : Fmt) (rm : Rm) (a b c : Nat) : Elem :=
  let a0 := unpack f (bits a 0 16)
  let a1 := unpack f (bits a 16 16)
  let b0 := unpack f (bits b 0 16)
  let b1 := unpack f (bits b 16 16)
  let z := unpack fmtF32 c
  let p0 := mulVal a0 b0
  let p1 := mulVal a1 b1
  let r := sumVal rm [p0.1, p1.1, z]
  finish fmtF32 rm [a0, a1, b0, b1, z] (r.1, p0.2 || p1.2 || r.2)

/-- `FMIN` and `FMAX`: −0 below +0, a number over a NaN (R334). -/
def fMinMax (f : Fmt) (big : Bool) (a b : Nat) : Elem :=
  let x := unpack f a
  let y := unpack f b
  let nan := f.nan.getD 0
  let less := match cmpVal x y with
    | -1 => true
    | 0 => x.neg && !y.neg
    | _ => false
  let am := a % 2 ^ (f.mag + 1)
  let bm := b % 2 ^ (f.mag + 1)
  (if x.isNaN && y.isNaN then nan
    else if x.isNaN then bm
    else if y.isNaN then am
    else if less != big then am else bm, nvSig [x, y])

/-- The conditions of `FCMP` (R336): the truth value, and the flags. -/
def fCmp (f : Fmt) (cond a b : Nat) : Bool × Flags :=
  let x := unpack f a
  let y := unpack f b
  let un := x.isNaN || y.isNaN
  let c := cmpVal x y
  let quiet := cond ≤ 1 || 6 ≤ cond
  (match cond with
    | 0 => !un && c == 0
    | 1 => un || c != 0
    | 2 => !un && decide (c < 0)
    | 3 => !un && decide (c ≤ 0)
    | 4 => !un && decide (0 < c)
    | 5 => !un && decide (0 ≤ c)
    | 6 => un
    | _ => !un, flagIf (x.isSig || y.isSig || (un && !quiet)) fNV)

/-- The class bit of R335. -/
def fClass (f : Fmt) (x : Nat) : Nat :=
  match unpack f x with
  | .nan s => if s then 8 else 9
  | .inf n => if n then 0 else 7
  | .num n m _ =>
    if m = 0 then (if n then 3 else 4)
    else if m < 2 ^ f.mb then (if n then 2 else 5)
    else (if n then 1 else 6)

/-- `FRND`: an integral value in the format; a zero result keeps the sign of x (R332). -/
def fRnd (f : Fmt) (rm : Rm) (x : Nat) : Elem :=
  match unpack f x with
  | .nan s => (f.nan.getD 0, flagIf s fNV)
  | .inf _ => (x % 2 ^ (f.mag + 1), 0)
  | .num n m e =>
    let r := (roundInt rm n m e).1
    ((roundTo f .rne (.num n r.natAbs 0)).1, 0)

/-- floor of log2 of a non-zero magnitude. -/
def expOfMag (m : Nat) (e : Int) : Int := (m.log2 : Int) + e

/-- `ExpOf` of R93, as an i32. -/
def expOf (f : Fmt) (x : Nat) : Int :=
  match unpack f x with
  | .nan _ => 2147483647
  | .inf _ => 128
  | .num _ m e => if m = 0 then -2147483648 else expOfMag m e

/-- `FSCALE` (R94): overflow gives ±∞ in every mode. -/
def fScale (f : Fmt) (rm : Rm) (x : Nat) (n : Int) : Elem :=
  match unpack f x with
  | .nan s => (f.nan.getD 0, flagIf s fNV)
  | .inf _ => (x % 2 ^ (f.mag + 1), 0)
  | .num s m e =>
    if m = 0 then (x % 2 ^ (f.mag + 1), 0)
    else
      let (c, fl) := roundTo f rm (.num s m (e + n))
      (if fl &&& fOF != 0 then signed f s f.infCode else c, fl)

/-! ## Conversions (R84 to R87) -/

/-- The value of an e8m0 code (R71). -/
def unpackE8m0 (c : Nat) : FVal := if c % 256 = 255 then .nan false else .num false 1 ((c % 256 : Int) - 127)

/-- Conversion to e8m0 (R85). -/
def toE8m0 (rm : Rm) : FVal → Elem
  | .nan s => (0xFF, flagIf s fNV)
  | .inf _ => (0xFE, fOF ||| fNX)
  | .num _ m e =>
    if m = 0 then (0x00, fUF ||| fNX)
    else
      let l := expOfMag m e
      let exact := m == 2 ^ m.log2
      let up : Int := match rm with
        | .rtz | .rdn => 0
        | .rup => if exact then 0 else 1
        | .rne =>
          -- against the midpoint 1.5 × 2^l
          let d := 2 * m
          let h := 3 * 2 ^ m.log2
          if d < h then 0 else if h < d then 1 else if (l + 127) % 2 = 0 then 0 else 1
      let r := l + up
      if r < -127 then (0x00, fUF ||| fNX)
      else if 127 < r then (0xFE, fOF ||| fNX)
      else ((r + 127).toNat, flagIf (!exact) fNX)

/-- Reading an element of a floating type. -/
def unpackTy (t : Ty) (x : Nat) : FVal := if t = .e8m0 then unpackE8m0 x else unpack (Fmt.ofTy t) x

/-- Stored width of an element in bits (R69, R72, R97). -/
def tyWidth : Ty → Nat
  | .e2m1 | .i4 | .n4 => 4
  | .e4m3 | .e5m2 | .e3m2 | .e8m0 | .i8 | .n8 => 8
  | .f16 | .bf16 | .i16 | .n16 => 16
  | .i64 | .n64 | .b64 => 64
  | .res48 => 48
  | _ => 32

/-- `FCVT` (R84, R85): a conversion to the source's own format returns x. -/
def fCvt (dt st : Ty) (rm : Rm) (x : Nat) : Elem :=
  let v := unpackTy st x
  if dt = .e8m0 then
    (if st = .e8m0 then (x % 256, 0) else toE8m0 rm v)
  else if dt = st && !v.isNaN then
    (match v with
      | .num n m e => ((roundTo (Fmt.ofTy dt) .rne (.num n m e)).1, 0)
      | _ => (x % 2 ^ tyWidth dt, 0))
  else roundTo (Fmt.ofTy dt) rm v

/-- Least and greatest values of an integer type. -/
def tySigned : Ty → Bool
  | .i4 | .i8 | .i16 | .i32 | .i64 => true
  | _ => false
def tyMin (t : Ty) : Int := if tySigned t then -(2 ^ (tyWidth t - 1) : Int) else 0
def tyMax (t : Ty) : Int := if tySigned t then (2 ^ (tyWidth t - 1) : Int) - 1 else (2 ^ tyWidth t : Int) - 1

/-- An integer element by its type. -/
def intOf (t : Ty) (x : Nat) : Int := if tySigned t then sgn (tyWidth t) x else (x % 2 ^ tyWidth t : Nat)

/-- `F2I` (R86). -/
def f2i (dt : Ty) (rm : Rm) : FVal → Int × Flags
  | .nan _ => (0, fNV)
  | .inf n => (if n then tyMin dt else tyMax dt, fNV)
  | .num n m e =>
    let (r, ex) := roundInt rm n m e
    if r < tyMin dt then (tyMin dt, fNV)
    else if tyMax dt < r then (tyMax dt, fNV)
    else (r, flagIf (!ex) fNX)

/-- `I2F` (R87). -/
def i2f (dt : Ty) (rm : Rm) (x : Int) : Elem := roundTo (Fmt.ofTy dt) rm (FVal.ofInt x)

/-! ## Roots and reciprocals, correctly rounded (R341) -/

/-- The integer square root, bit by bit. -/
def isqrt (n : Nat) : Nat :=
  (upTo (n.log2 / 2 + 1)).reverse.foldl (fun r k => if (r + 2 ^ k) * (r + 2 ^ k) ≤ n then r + 2 ^ k else r) 0

/-- 1 / (m × 2^e) to 64 bits and a sticky bit. -/
def recipVal (neg : Bool) (m : Nat) (e : Int) : FVal :=
  let k := m.log2 + 65
  let q := 2 ^ k / m
  .num neg (2 * q + (if 2 ^ k % m = 0 then 0 else 1)) (-(k : Int) - e - 1)

/-- The square root of m × 2^e to at least 60 bits and a sticky bit. -/
def sqrtVal (m : Nat) (e : Int) : FVal :=
  let (m, e) := if e % 2 = 0 then (m, e) else (2 * m, e - 1)
  let x := m * 2 ^ 128
  let r := isqrt x
  .num false (2 * r + (if r * r = x then 0 else 1)) (e / 2 - 64 - 1)

/-! ## Residue triples (R73 to R76) -/

def resA : Nat := 65521
def resB : Nat := 65535
def resC : Nat := 65536
def resM : Nat := 281406258216960

/-- The canonical triple of an integer. -/
def residues (x : Int) : Nat :=
  (x % (resA : Int)).toNat + (x % (resB : Int)).toNat * 2 ^ 16 + (x % (resC : Int)).toNat * 2 ^ 32

/-- The integer a triple represents (R76). -/
def resValue (x : Nat) : Int :=
  let n := (bits x 0 16 * 65209 * 4294901760 + bits x 16 16 * 4681 * 4293984256 + bits x 32 16 * 61167 * 4293918735) % resM
  if resM / 2 ≤ n then (n : Int) - resM else n

/-- Is an integer in the range of R73? -/
def resFits (x : Int) : Bool := -140703129108480 ≤ x && x ≤ 140703129108479

end Sys2Proof.Machine
end

