-- ==== Sys2Proof/Machine/Flags.lean ====
section
/-!
DEFINITION. The flag computations: which threads set the sticky flags of a group (R43, R83), and the
comparison and predicate results of the integer forms (R346, R355, R371).
-/
namespace Sys2Proof.Machine

/-- Setting sticky flags (R83). -/
def Group.raise (g : Group) (f : Flags) : Group := { g with fflags := g.fflags ||| f }

/-- The flags of a vector instruction: only those of the threads of A (R43). -/
def laneFlags (act : Mask) (xs : List (Nat × Flags)) : Flags :=
  xs.foldl (fun f x => if act.getLsbD x.1 then f ||| x.2 else f) 0

/-- The logic functions by code, on n bits (R355). -/
def logicFn (f n a b : Nat) : Nat :=
  let inv (x : Nat) : Nat := 2 ^ n - 1 - x % 2 ^ n
  match f with
  | 0 => a &&& b
  | 1 => a ||| b
  | 2 => a ^^^ b
  | 3 => a &&& inv b
  | 4 => a ||| inv b
  | 5 => inv (a ^^^ b)
  | 6 => inv (a &&& b)
  | _ => inv (a ||| b)

/-- The same on masks. -/
def logicMask (f : Nat) (a b : Mask) : Mask := bv 32 (logicFn f 32 a.toNat b.toNat)

/-- The conditions of `ICMP` by code (R346). -/
def intCond (c : Nat) (a b : Int) : Bool := match c with
  | 0 => a == b
  | 1 => a != b
  | 2 => decide (a < b)
  | 3 => decide (a ≤ b)
  | 4 => decide (b < a)
  | _ => decide (b ≤ a)

end Sys2Proof.Machine
end

