-- ==== Sys2Proof/Machine/Operands.lean ====
section
/-!
DEFINITION. Every operand form: registers and pairs, modifiers, destination halves, queue operands, and the
issue of a word around its meaning (R26, R27, R42, R77 to R79, R195, R242, R243, R266, R267, R271 to R273).
-/
namespace Sys2Proof.Machine

/-! ## Values -/

/-- A source modifier (R78). -/
def applyMod (m : SrcMod) (x : Nat) : Nat :=
  match m with
  | .none => x
  | .lo => bits x 0 16 * 0x10001
  | .hi => bits x 16 16 * 0x10001
  | .sw => bits x 0 16 * 0x10000 + bits x 16 16
  | .b k => bits x (8 * k.toNat) 8 * 0x01010101
  | .k n => bits x (4 * n.toNat) 4 * 0x11111111

/-- A source position: operand, whether 64 bits wide, modifier. -/
structure SrcOp where
  o : Opd
  w64 : Bool
  m : SrcMod

def src (o : Opd) (w64 : Bool) (m : SrcMod) : SrcOp := { o := o, w64 := w64, m := m }

/-- Popped queue entries, by queue. -/
abbrev Popped := List (Nat × SMap Word)

/-- A source's value in lane i: registers, the lane's word of a popped queue entry, zero, or the lane number
(R6, R24, R242, R272, R273). -/
def Group.read (g : Group) (pops : Popped) (i : Nat) (x : SrcOp) : Nat :=
  let raw := match x.o with
    | .v n => if x.w64 then (g.getV2 n.toNat i).toNat else (g.getV n.toNat i).toNat
    | .s n => if x.w64 then (g.getS2 n.toNat).toNat else (g.getS n.toNat).toNat
    | .q n => (match pops.find? (fun y => y.1 == n.toNat) with
      | some y => (SMap.getD y.2 i 0).toNat
      | none => 0)
    | .zero => 0
    | .tid => i
  if x.w64 then raw else applyMod x.m raw

/-- The destination's value at issue. -/
def Group.old (g : Group) (i : Nat) (d : Opd) : Nat := match d with
  | .v n => (g.getV n.toNat i).toNat
  | .s n => (g.getS n.toNat).toNat
  | _ => 0

/-- The register writes of a lane's result. -/
def dstWr (i : Nat) (d : Opd) (w64 : Bool) (x : Nat) : List Wr := match d with
  | .v n => if w64 then [.v n.toNat i (bv 32 x), .v (n.toNat + 1) i (bv 32 (x / 2 ^ 32))] else [.v n.toNat i (bv 32 x)]
  | .s n => if w64 then [.s n.toNat (bv 32 x), .s (n.toNat + 1) (bv 32 (x / 2 ^ 32))] else [.s n.toNat (bv 32 x)]
  | _ => []

/-- A 16-bit result in its destination half (R79): the other half keeps its value, or is zero where none is
named. -/
def putHalf (h : DstHalf) (old x : Nat) : Nat := match h with
  | .none => x % 2 ^ 16
  | .lo => x % 2 ^ 16 + old / 2 ^ 16 * 2 ^ 16
  | .hi => x % 2 ^ 16 * 2 ^ 16 + old % 2 ^ 16

/-- Element k of width n replaced. -/
def putElem (n k old x : Nat) : Nat := old - bits old (n * k) n * 2 ^ (n * k) + x % 2 ^ n * 2 ^ (n * k)

/-- The vector registers an operand names, n of them (R27). -/
def opdRegs (o : Opd) (n : Nat) : List Nat := match o with
  | .v k => (upTo n).map (fun j => k.toNat + j)
  | _ => []

def SrcOp.regs (x : SrcOp) : List Nat := opdRegs x.o (if x.w64 then 2 else 1)

/-! ## Queues (R242, R243) -/

/-- The queues a list of operands names, each once. -/
def queuesOf (xs : List Opd) : List Nat :=
  xs.foldl (fun r o => match o with
    | .q n => if r.contains n.toNat then r else r ++ [n.toNat]
    | _ => r) []

def Core.queue (c : Core) (n : Nat) : List (SMap Word) := c.q.getD n []
def Core.setQ (c : Core) (n : Nat) (x : List (SMap Word)) : Core := { c with q := c.q.setD n x [], qmoved := true }

/-- May a context use the core's queues: it owns them, or takes unowned ones (R243). -/
def Core.mayOwn (c : Core) (ctx : Nat) : Bool := match c.qowner with
  | none => true
  | some k => k == ctx

/-- Popping each queue's head once; none where one is empty. -/
def Core.pops (c : Core) (qs : List Nat) : Option (Core × Popped) :=
  qs.foldl (fun r n => match r with
    | none => none
    | some (c, p) => match c.queue n with
      | [] => none
      | x :: y => some (c.setQ n y, p ++ [(n, x)])) (some (c, []))

/-- Pushing an entry; none where the queue is full. -/
def Core.push (c : Core) (n : Nat) (x : SMap Word) : Option Core :=
  if Config.queueDepth ≤ (c.queue n).length then none else some (c.setQ n (c.queue n ++ [x]))

/-! ## Issue -/

/-- How the issue of a word ends: it is done, with the group as it leaves it; it is done and the group goes on
at an address; it traps at itself, or at the next instruction (R195); the group waits and the word has not issued;
or the group's further fate is in the state. -/
inductive Issue where
  | done (s : State) (g : Group)
  | jump (s : State) (g : Group) (pc : DWord)
  | trap (c : Cause) (info : DWord)
  | trapNext (c : Cause) (info : DWord)
  | wait (s : State)
  | gone (s : State)

/-- The group after a word has issued: the windows of earlier class-L results count it, and it yields under
`YLD` (R59, R267). -/
def Group.issued (g : Group) (x : Sched) (before : Nat) (pc : DWord) : Group :=
  { g with
    pc := pc
    lpend := (g.lpend.take before).map (fun l => { l with left := l.left - 1 }) ++ g.lpend.drop before
    yielded := x.yld
    age := if x.yld then 0 else g.age }

/-- `YLD` on a word after which the group does not go on (R59). -/
def Group.yields (g : Group) (x : Sched) : Group := { g with yielded := x.yld, age := if x.yld then 0 else g.age }

/-- The instructions a stream group may issue outside trap mode; none names a queue as a source (R245). -/
def reelAllows : Instr → Bool
  | .iadd _ r | .isub _ r | .imin _ r | .imax _ r | .iabs _ r | .imul _ r | .imulh _ r | .imad _ r | .idp4 _ r
  | .sel _ _ r | .logic _ r | .shl _ r | .shr _ r | .bfx _ r | .bfi _ r | .popc _ r | .clz _ r | .brev _ r | .lea _ r
  | .mov _ r | .bperm _ r => (queuesOf [r.a, r.b, r.c]).isEmpty
  | .iaddImm _ r | .isubImm _ r | .imulImm _ r | .logicImm _ _ r | .shlImm _ r | .shrImmLogical _ r | .shrImmArith _ r
  | .icmpImm _ _ _ _ r | .movi _ r => (queuesOf [r.a]).isEmpty
  | .icmp _ r => (queuesOf [r.a, r.b]).isEmpty
  | .plog .. | .ld .. | .lds .. | .bdec .. | .bra .. | .brd .. | .join .. | .exit .. | .nop .. | .yield .. | .csrr .. => true
  | _ => false

/-- The opcodes privileged in program mode (R287, R282). -/
def isPrivileged : Instr → Bool
  | .rlog .. | .tret .. | .tretSave .. | .tretKill .. | .pld .. | .pst .. | .tlbf .. | .tlbi .. | .frec .. => true
  | .csrr _ c _ | .csrw _ c _ => c.isPriv
  | _ => false

/-- The issuing group, its place and its number of class-L windows. -/
structure Issuer where
  p : Nat
  g : Group

/-- The issuing group as the state holds it by now: an access at a home may have taken a write-back from its queue. -/
def Issuer.now (x : Issuer) (s : State) : Group := match s.grp x.p with
  | some g => g
  | none => x.g

/-- The group waits; its pipe's next turn lets it try again (R44). -/
def Group.hold (g : Group) : Group := { g with st := if g.st = .ready then .waiting else g.st }

/-- A class-L result left for its window (R267). -/
def Group.leave (g : Group) (la : BitVec 4) (ws : List Wr) : Group :=
  { g with lpend := g.lpend ++ [{ left := la.toNat, res := ws }] }

/-- ISSUING A WORD: the checks of the word, of privilege and of the register budget, in that order (R195,
R288), then its meaning. `vs` are the vector registers it names. -/
def issueWord (i : Instr) (x : Sched) (vs : List Nat) (s : State) (body : Issuer → Issue) : Out :=
  match s.cur with
  | none => .next s
  | some p =>
    match s.grp p with
    | none => .next s.endTurn
    | some g =>
      let trap (c : Cause) (info pc : DWord) : Out := .next (s.endTurn.takeTrap p { cause := c, info := info, pc := pc })
      if !i.wf || (g.kind == .reel && !g.inTrap && !reelAllows i) then trap .illegal g.ir g.pc
      else if isPrivileged i && !g.privileged then trap .privilege g.ir g.pc
      else
        match vs.find? (fun r => g.regs ≤ r) with
        | some r => trap .regBudget (bv 64 r) g.pc
        | none =>
          match body { p := p, g := g } with
          | .done t g' => .next (t.setGrp p (g'.issued x g.lpend.length g.npc)).endTurn
          | .jump t g' pc => .next (t.setGrp p (g'.issued x g.lpend.length pc)).endTurn
          | .trap c info => trap c info g.pc
          | .trapNext c info =>
            .next ((s.setGrp p (g.yields x)).endTurn.takeTrap p { cause := c, info := info, pc := g.npc })
          | .wait t => .next (t.modGrp p Group.hold).endTurn
          | .gone t => .next t.endTurn

/-! ## The shape of an arithmetic word -/

/-- Does the word run once, on the scalar unit (R26)? -/
def isUniform (uc : Bool) (d : Opd) (xs : List SrcOp) : Bool := uc && d.isSZ && xs.all (fun x => x.o.isSZ)

/-- An arithmetic word: sources captured, a value for each lane of E (or one, uniform), queue operands popped
and pushed, flags of the threads of A (R25, R26, R42, R43, R242, R268). `f` gets the sources of any lane, the lane, the
destination's old value. Class-L words leave their writes for their window. With E empty a word that names a queue needs the
queues' ownership all the same, and moves no entry (R42, R243). -/
def aluBody (s : State) (h : Hdr) (uc long : Bool) (d : Opd) (dw : Bool) (xs : List SrcOp)
    (f : Rm → (Nat → List Nat) → Nat → Nat → Nat × Flags) (x : Issuer) : Issue :=
  let g := x.g
  let rm := Rm.of g.frm
  let put (g : Group) (ws : List Wr) : Group :=
    if long then g.leave h.sched.la ws else g.wrs ws
  if isUniform uc d xs then
    let (r, fl) := f rm (fun i => xs.map (g.read [] i)) 0 (g.old 0 d)
    .done s (put (g.raise fl) (dstWr 0 d dw r))
  else
    let e := g.exec h.guard
    let qs := queuesOf (xs.map (·.o))
    let qd := queuesOf [d]
    if qs.isEmpty && qd.isEmpty then
      let rs := (maskLanes e).map (fun i => (i, f rm (fun j => xs.map (g.read [] j)) i (g.old i d)))
      .done s (put (g.raise (laneFlags g.act (rs.map (fun r => (r.1, r.2.2)))))
        ((rs.map (fun r => dstWr r.1 d dw r.2.1)).flatten))
    else
      let c := placeCore x.p
      let k := s.core c
      if !k.mayOwn g.ctx then .wait s
      else match (if e = 0 then some (k, []) else k.pops qs) with
        | none => .wait (s.setCore c { k with qowner := some g.ctx })
        | some (k', pops) =>
          let rs := (maskLanes e).map (fun i => (i, f rm (fun j => xs.map (g.read pops j)) i (g.old i d)))
          let g' := put (g.raise (laneFlags g.act (rs.map (fun r => (r.1, r.2.2)))))
            ((rs.map (fun r => dstWr r.1 d dw r.2.1)).flatten)
          match d with
          | .q n =>
            (match (if e = 0 then some k' else k'.push n.toNat (rs.foldl (fun m r => SMap.setD m r.1 (bv 32 r.2.1) 0) [])) with
            | none => .wait (s.setCore c { k with qowner := some g.ctx })
            | some k'' => .done (s.setCore c { k'' with qowner := some g.ctx }) g')
          | _ => .done (s.setCore c { k' with qowner := some g.ctx }) g'

/-- An arithmetic word whose lanes are computed apart. -/
def aluWord (i : Instr) (h : Hdr) (s : State) (uc long : Bool) (d : Opd) (dw : Bool) (xs : List SrcOp)
    (f : Rm → List Nat → Nat → Nat × Flags) : Out :=
  issueWord i h.sched (opdRegs d (if dw then 2 else 1) ++ (xs.map SrcOp.regs).flatten) s
    (aluBody s h uc long d dw xs (fun rm v i old => f rm (v i) old))

/-- An arithmetic word whose lanes read one another (cross-lane and quad forms). -/
def crossWord (i : Instr) (h : Hdr) (s : State) (d : Opd) (dw : Bool) (xs : List SrcOp)
    (f : Rm → (Nat → List Nat) → Nat → Nat × Flags) : Out :=
  issueWord i h.sched (opdRegs d (if dw then 2 else 1) ++ (xs.map SrcOp.regs).flatten) s
    (aluBody s h false true d dw xs (fun rm v i _ => f rm v i))

/-- A word that writes a predicate in the threads of E (R336, R346). -/
def predBody (s : State) (h : Hdr) (pd : Nat) (xs : List SrcOp) (f : List Nat → Bool × Flags) (x : Issuer) : Issue :=
  let g := x.g
  let e := g.exec h.guard
  let qs := queuesOf (xs.map (·.o))
  let fin (s : State) (pops : Popped) : Issue :=
    let rs := (maskLanes e).map (fun i => (i, f (xs.map (g.read pops i))))
    .done s ((g.raise (laneFlags g.act (rs.map (fun r => (r.1, r.2.2))))).setP pd e
      (maskOf (fun i => rs.any (fun r => r.1 == i && r.2.1))))
  if qs.isEmpty then fin s []
  else
    let c := placeCore x.p
    let k := s.core c
    if !k.mayOwn g.ctx then .wait s
    else match (if e = 0 then some (k, []) else k.pops qs) with
      | none => .wait (s.setCore c { k with qowner := some g.ctx })
      | some (k', pops) => fin (s.setCore c { k' with qowner := some g.ctx }) pops

def predOut (i : Instr) (h : Hdr) (s : State) (pd : Nat) (xs : List SrcOp) (f : List Nat → Bool × Flags) : Out :=
  issueWord i h.sched (xs.map SrcOp.regs).flatten s (predBody s h pd xs f)

/-- A word of class L that writes registers or predicates without reading operands. -/
def longWord (i : Instr) (h : Hdr) (vs : List Nat) (s : State) (f : Issuer → Mask → List Wr × Flags) : Out :=
  issueWord i h.sched vs s (fun x =>
    let r := f x (x.g.exec h.guard)
    .done s ((x.g.raise r.2).leave h.sched.la r.1))

/-! ## Tags at issue (R42, R266) -/

/-- Allocating a tag to an outstanding instruction; with nothing to do it is released at once (R42). -/
def Group.alloc (g : Group) (t : Nat) (o : POp) : Group :=
  if o.todo = 0 && o.res.isEmpty then g.setOp t none else g.setOp t (some o)

/-- A tag named by a store-queue entry. -/
def Group.allocAsync (g : Group) (t : Nat) : Group :=
  if t = 0 then g else { g with tags := g.tags.put t { op := none, async := true } }

/-- A tag released at once. -/
def Group.allocDone (g : Group) (t : Nat) : Group := if t = 0 then g else g.setOp t none

/-- The words of an operand in a lane, for capture (R199, R268). -/
def Group.words (g : Group) (i : Nat) (o : Opd) (n : Nat) : List Word := match o with
  | .v k => (upTo n).map (fun j => g.getV (k.toNat + j) i)
  | .s k => (upTo n).map (fun j => g.getS (k.toNat + j))
  | .tid => [bv 32 i]
  | _ => List.replicate n 0

/-- Capturing source words of the lanes of a mask: word j of lane i at 32 j + i. -/
def captureWords (m : Mask) (f : Nat → List Word) : SMap Word :=
  (maskLanes m).foldl (fun a i => (f i).zipIdx.foldl (fun a y => SMap.setD a (32 * y.2 + i) y.1 0) a) []

/-- A new outstanding instruction. -/
def State.newOp (s : State) (g : Group) (i : Instr) (todo help : Mask) (f : Nat → List Word) : POp where
  pc := g.pc
  instr := some i
  todo := todo
  help := help
  src := captureWords todo f
  frm := g.frm
  seq := s.seq
  parked := none
  faults := []
  res := []
  tab := none
  counted := []

/-- One more access has been issued. -/
def State.tick (s : State) : State := { s with seq := s.seq + 1 }

end Sys2Proof.Machine
end

