-- ==== Sys2Proof/Machine/Mem.lean ====
section
/-!
DEFINITION. Loads, stores, stash bindings, managed copies, fences (R120 to R123, R128 to R133, R156, R161,
R337, R348, R351 to R353, R373, R378, R382 to R388, R403).
-/
namespace Sys2Proof.Machine

/-! ## Addresses -/

/-- The signed 20-bit offset of a memory word (R278). -/
def MForm.offset (m : MForm) : Int := m.off.toInt

/-- base + offset modulo 2^64, or modulo 2^32 for stash. -/
def addrOf (base : Nat) (off : Int) (n : Nat) : Nat := wrap n ((base : Int) + off)

/-- The lanes an access word runs for: lane 0 alone when it is uniform. -/
def accLanes (uni : Bool) (g : Group) (h : Hdr) : Mask := if uni then 1 else g.exec h.guard

/-- Of these, the helpers. -/
def accHelp (uni : Bool) (g : Group) (e : Mask) : Mask := if uni then 0 else e &&& g.help

/-! ## Loads (R351 to R353) -/

def ldBytes : LdW → Nat
  | .i8 | .n8 => 1
  | .i16 | .n16 => 2
  | .b32 => 4
  | .b64 => 8

/-- The extension of a loaded value to 32 bits. -/
def ldExtend (w : LdW) (x : Nat) : Nat := match w with
  | .i8 => wrap 32 (sgn 8 x)
  | .i16 => wrap 32 (sgn 16 x)
  | _ => x

def ldIs64 (w : LdW) : Bool := w == .b64

/-- The address a load's captured base gives. -/
def loadAddr (stash : Bool) (m : MForm) (o : POp) (i : Nat) : Nat :=
  if stash then addrOf (o.word 0 i).toNat (MForm.offset m) 32 else addrOf (o.word2 0 i).toNat (MForm.offset m) 64

/-- A word that is read by tag: its unfinished lanes, those of them that are helpers, and its captured words. -/
def issueTagged (s : State) (x : Issuer) (i : Instr) (t : Nat) (todo help : Mask) (f : Nat → List Word)
    (res : List Wr) : Issue :=
  let o := { s.newOp x.g i todo help f with res := res }
  .done s.tick (x.g.alloc t o)

/-- Lanes whose read a range lock forbids: only helpers get so far, and receive zero (R173). -/
def lockedLanes (s : State) (x : Issuer) (m : Mask) (a : Nat → Nat) (n : Nat) : Mask :=
  m &&& maskOf (fun i => (s.core (placeCore x.p)).lockedAcc x.g.ctx false { lane := i, addr := a i, width := n })

def loadBody (i : Instr) (stash : Bool) (h : Hdr) (w : LdW) (m : MForm) (s : State) (x : Issuer) : Issue :=
  let g := x.g
  let uni := m.d.isS
  let e := accLanes uni g h
  let hs := accHelp uni g e
  let base (i : Nat) : Nat := g.read [] i (src m.a (!stash) .none)
  let a (i : Nat) : Nat := addrOf (base i) (MForm.offset m) (if stash then 32 else 64)
  let accs := (maskLanes (e &&& ~~~hs)).map (fun i => { lane := i, addr := a i, width := ldBytes w : LaneAcc })
  let bad := if stash then s.checkStash x.p g accs false else s.checkAcc x.p g accs (m.ord != .rlx) false
  match bad with
  | some (c, info) => .trap c info
  | none =>
    let z := if stash then hs &&& maskOf (fun i => (s.checkStash x.p g [{ lane := i, addr := a i, width := ldBytes w }] false).isSome)
      else lockedLanes s x hs a (ldBytes w)
    issueTagged s x i h.sched.set.toNat (e &&& ~~~z) (hs &&& ~~~z) (fun i => g.words i m.a (if stash then 1 else 2))
      ((maskLanes z).map (fun i => dstWr i m.d (ldIs64 w) 0)).flatten

def execLd (h : Hdr) (w : LdW) (m : MForm) (s : State) : Out :=
  issueWord (.ld h w m) h.sched (opdRegs m.d (if ldIs64 w then 2 else 1) ++ opdRegs m.a 2) s
    (loadBody (.ld h w m) false h w m s)

def execLds (h : Hdr) (w : LdW) (m : MForm) (s : State) : Out :=
  issueWord (.lds h w m) h.sched (opdRegs m.d (if ldIs64 w then 2 else 1) ++ opdRegs m.a 1) s
    (loadBody (.lds h w m) true h w m s)

/-- The bytes of targets that must come from lines: those the group's own queue does not hold (R156). -/
def needBytes (g : Group) (o : POp) (ts : List Tgt) : List (Nat × Nat) :=
  globs (ts.filter (fun t => match fwdByte g.sq o.seq t with
    | .byte _ => false
    | _ => true))

/-- The parked head of the queue behind which a read finds a byte without a value yet. -/
def Group.behind (g : Group) (o : POp) (ts : List Tgt) : Option Park :=
  if ts.any (fun t => match fwdByte g.sq o.seq t with
    | .busy => true
    | _ => false) then (g.sq.head?).bind (·.parked) else none

/-- Performing a tagged read of n bytes a lane: the lines are asked for, once each for the instruction, and the
lanes that have all their bytes finish. -/
def performRead (s : State) (p t : Nat) (g : Group) (o : POp) (stash : Bool) (a : Nat → Nat) (n : Nat) (acc : AccK)
    (val : Nat → Nat → List Wr) (zero : Nat → List Wr) : State :=
  if !g.mayLoad o then s.heldOp p t g o 0 zero
  else match g.behind o ((maskLanes o.todo).map (fun i => s.tgts p g stash (a i) n)).flatten with
  | some k => s.parkAlong p t o k zero
  | none =>
    let need (i : Nat) : List (Nat × Nat) := needBytes g o (s.tgts p g stash (a i) n)
    let f := fetchLines s (placeCore p) g.ctx acc o.faults o.seq o.counted (linesOf ((maskLanes o.todo).map need).flatten)
    State.finishReads f p t o need
      (fun s i => (loadBytes s p g f.got o.seq (s.tgts p g stash (a i) n)).map (val i)) zero

/-- Performing `LD` and `LDS`. -/
def performLoad (s : State) (p t : Nat) (g : Group) (o : POp) (stash : Bool) (w : LdW) (m : MForm) : State :=
  performRead s p t g o stash (loadAddr stash m o) (ldBytes w) .load
    (fun i x => dstWr i m.d (ldIs64 w) (ldExtend w x)) (fun i => dstWr i m.d (ldIs64 w) 0)

/-! ## Stores (R382 to R385) -/

def stBytes : StW → Nat
  | .b8 => 1
  | .b16 => 2
  | .b32 => 4
  | .b64 => 8

/-- A full queue makes the group wait (R199). -/
def Group.sqFull (g : Group) : Bool := Config.sqDepth ≤ g.sq.length

/-- Entering an entry into the group's store queue with its optional tag. A release, and a counter add, stand behind every
earlier access (R158, R166), any other behind those before the last fence that makes one (R337). -/
def enterStore (s : State) (x : Issuer) (t : Nat) (k : SqKind) (ord : Order) (sc : Scope) (accs : List SqAcc) : Issue :=
  if accs.isEmpty then .done s (x.g.allocDone t)
  else if x.g.sqFull then .wait s
  else .done s.tick ((x.g.allocAsync t).enqueue {
    pc := x.g.pc, kind := k, ord := ord, scope := sc, accs := accs, tag := t, frm := x.g.frm, seq := s.seq, parked := none
    after := if ordRels ord then s.seq else x.g.fence
    whole := wholeLines accs })

/-- The accesses of a store word: its threads without helpers, in lane order. -/
def storeAccs (g : Group) (uni stash : Bool) (h : Hdr) (a : Nat → Nat) (n : Nat) (v : Nat → Nat) : List SqAcc :=
  let e := accLanes uni g h
  (maskLanes (e &&& ~~~(accHelp uni g e))).map (fun i =>
    { lane := i, stash := stash, addr := bv 64 (a i), width := n, data := bv 64 (v i % 2 ^ (8 * n)), done := 0 })

/-- Bytes k to k + n − 1 of an access as one at their target. -/
def partAcc (y : SqAcc) (k n : Nat) : Tgt → SqAcc
  | .glob va => { y with stash := false, addr := bv 64 va, width := n, data := y.data >>> (8 * k) }
  | .raw off => { y with stash := true, addr := bv 64 off, width := n, data := y.data >>> (8 * k) }

/-- A stash access goes to the global address of the line its bytes are bound to (R123); one that reaches over the
end of a binding goes byte by byte. -/
def bindAcc (s : State) (p : Nat) (g : Group) (y : SqAcc) : List SqAcc :=
  if !y.stash then [y]
  else
    let ts := s.tgts p g true y.addr.toNat y.width
    let follows (t : Tgt) (k : Nat) (u : Tgt) : Bool := match t, u with
      | .glob a, .glob b => b == a + k
      | .raw a, .raw b => b == a + k
      | _, _ => false
    match ts with
    | [] => [y]
    | t :: _ =>
      if ts.zipIdx.all (fun u => follows t u.2 u.1) then [partAcc y 0 y.width t]
      else ts.zipIdx.map (fun u => partAcc y u.2 1 u.1)

def storeBody (stash : Bool) (k : Group → SqKind) (h : Hdr) (w : StW) (m : MForm) (s : State) (x : Issuer) : Issue :=
  let g := x.g
  let uni := m.a.isS && m.b.isSZ
  let a (i : Nat) : Nat :=
    addrOf (g.read [] i (src m.a (!stash) .none)) (MForm.offset m) (if stash then 32 else 64)
  let accs := storeAccs g uni stash h a (stBytes w) (fun i => g.read [] i (src m.b (w == .b64) .none))
  let las := accs.map (fun y => { lane := y.lane, addr := y.addr.toNat, width := y.width : LaneAcc })
  match (if stash then s.checkStash x.p g las true else s.checkAcc x.p g las (m.ord != .rlx) true) with
  | some (c, info) => .trap c info
  | none =>
    enterStore s x h.sched.set.toNat (k g) m.ord m.scope (accs.map (bindAcc s x.p g)).flatten

/-- The v registers of a store word. -/
def stRegs (stash : Bool) (w : StW) (m : MForm) : List Nat :=
  opdRegs m.a (if stash then 1 else 2) ++ opdRegs m.b (if w == .b64 then 2 else 1)

def execSt (h : Hdr) (w : StW) (m : MForm) (s : State) : Out :=
  issueWord (.st h w m) h.sched (stRegs false w m) s (storeBody false (fun _ => .store) h w m s)

def execSts (h : Hdr) (w : StW) (m : MForm) (s : State) : Out :=
  issueWord (.sts h w m) h.sched (stRegs true w m) s (storeBody true (fun _ => .sts) h w m s)

/-- `SINJ`: the destination mask is read once at issue (R385). -/
def execSinj (h : Hdr) (w : StW) (m : MForm) (s : State) : Out :=
  issueWord (.sinj h w m) h.sched (stRegs false w m) s
    (storeBody false (fun g => .sinj (bv 16 (g.read [] 0 (src m.d false .none)))) h w m s)

/-! ## Prefetch (R373) -/

/-- Does a core's copy answer a load without a request? -/
def State.holdsLine (s : State) (c ctx va : Nat) : Bool := match s.copyOf c ctx va with
  | some y => y.st == .o || y.st == .managed || ((y.st == .s || y.st == .sc) && max (s.core c).t y.w ≤ y.r)
  | none => false

/-- One line's request: dropped without effect where the entry says so, and otherwise a load's rows 1 and 3. -/
def prefLine (s : State) (c ctx va seq : Nat) : Ans Unit :=
  if s.owner va = .bad || (s.core c).locked ctx (va / 128 * 128) 128 true || (s.boundOff c ctx va).isSome || s.holdsLine c ctx va then
    .ok s ()
  else match atHome s ctx va .prefetch with
    | .wait t w => .wait t w
    | .ok _ (_, .line h) =>
      if h.perm.ctr || h.poison then .ok s ()
      else (match readLine s c ctx va .prefetch 0 ((s.core c).keeps ctx (va / 128) seq) with
        | .ok t _ => .ok t ()
        | .wait t w => .wait t w
        | .fault _ _ | .poisoned _ | .far _ => .ok s ())
    | _ => .ok s ()

/-- Where a prefetch without a tag stands (R373). -/
def Group.freeKey (g : Group) : Nat := (g.tags.map (·.1)).foldl max 7 + 1

/-- `PREF`: its requests are outstanding until each is answered or dropped, under its tag where it names one. -/
def execPref (h : Hdr) (m : MForm) (s : State) : Out :=
  issueWord (.pref h m) h.sched (opdRegs m.a 2) s (fun x =>
    let e := x.g.exec h.guard
    if h.sched.set = 0 && e = 0 then .done s x.g
    else issueTagged s x (.pref h m) (if h.sched.set = 0 then x.g.freeKey else h.sched.set.toNat) e 0
      (fun i => x.g.words i m.a 2) [])

/-- What the lines of a prefetch were answered with: the state, the lines that wait, a walk record that one waits on. -/
structure PrefRun where
  s : State
  stuck : List Nat
  walk : Option (Nat × Nat)

/-- Performing `PREF`. A page answered with a fault drops its lines. -/
def performPref (s : State) (p t : Nat) (g : Group) (o : POp) (m : MForm) : State :=
  let a (i : Nat) : Nat := addrOf (o.word2 0 i).toNat (MForm.offset m) 64
  let one (r : PrefRun) (x : Nat × Nat) : PrefRun :=
    if o.faults.any (fun y => y.1 == x.1 / 512) then r
    else match prefLine r.s (placeCore p) g.ctx x.2 o.seq with
      | .wait s w => { s := s, stuck := r.stuck ++ [x.1], walk := if r.walk.isSome then r.walk else w }
      | y => { r with s := y.state }
  let r := (linesOf ((maskLanes o.todo).map (fun i => (a i, 1)))).foldl one { s := s, stuck := [], walk := none }
  let s := r.s.modGrp p (fun g => g.setOp t (some { o with todo := o.todo &&& maskOf (fun i => r.stuck.contains (a i / 128)) }))
  match r.walk with
  | some (d, n) => s.await (.tag p t) d g.ctx (some n)
  | none => s

/-! ## Stash bindings (R121 to R123, R386 to R388) -/

/-- Do two bindings meet in stash or in global addresses? -/
def Binding.meets (x y : Binding) : Bool := overlaps x.o x.n y.o y.n || overlaps x.a.toNat x.n y.a.toNat y.n

/-- The conditions of R121 for a new binding; the gangs of every context on the core count. -/
def smapOk (s : State) (c : Nat) (k : Gang) (b : Binding) : Bool :=
  b.o % 128 == 0 && b.a.toNat % 128 == 0 && b.n % 128 == 0 && 128 ≤ b.n && b.o + b.n ≤ k.stashSize
  && k.binds.length < 8 && !k.binds.any (fun y => y.meets b)
  && !s.gangs.any (fun g => g.2.core == c && g.2 != k && s.holdsStash g.1 g.2
      && g.2.binds.any (fun y => overlaps y.a.toNat y.n b.a.toNat b.n))

/-- The entries of a group's store queue, those that a trap banked included (R196, R199). -/
def Group.stored (g : Group) : List SqEntry := g.sq ++ (match g.bank with
  | some b => b.sq
  | none => [])

/-- Is an entry still to write a global range? -/
def SqEntry.reaches (e : SqEntry) (a n : Nat) : Bool := match e.kind with
  | .phys => false
  | .writeBack xs => xs.any (fun y => overlaps y.va 128 a n)
  | _ => e.accs.any (fun y => !y.stash && overlaps y.addr.toNat y.width a n)

/-- Does a queue of the core hold a store to a global range? -/
def State.queuedIn (s : State) (c ctx a n : Nat) : Bool :=
  s.groups.any (fun g => placeCore g.1 == c && g.2.ctx == ctx && g.2.stored.any (fun e => e.reaches a n))

/-- Does a queue of a gang's groups hold a store to a range of its stash that no binding covered? -/
def State.rawIn (s : State) (gang o n : Nat) : Bool :=
  s.groups.any (fun g => g.2.gangKey == gang && g.2.stored.any (fun e =>
    e.accs.any (fun y => y.stash && overlaps y.addr.toNat y.width o n)))

/-- The core's copies of lines in a range, in ascending order. -/
def Core.copiesIn (x : Core) (ctx a n : Nat) : List Nat :=
  (x.l1.filter (fun y => keyCtx y.1 == ctx && overlaps (keyVa y.1) 128 a n)).map (·.1)

/-- A copy is written back and dropped; bytes that no link carries are lost and counted (R253). -/
def evictOrLose (s : State) (c ctx k : Nat) : Ans Unit := match evictCopy s c ctx (keyVa k) with
  | .far s => .ok ((s.modCore c (fun x => x.dropCopy k)).dropFar (coreDie c) (keyVa k)) ()
  | a => a

/-- Writing back and dropping a list of copies; it stops where one must wait. -/
def evictAll (s : State) (c ctx : Nat) : List Nat → Ans Unit
  | [] => .ok s ()
  | k :: r => (evictOrLose s c ctx k).andThen (fun s' _ => evictAll s' c ctx r)

/-- A word that an access holds up: the group waits, or its group parks (R188). -/
def holdWord (_ : State) (p ctx : Nat) (a : Ans Unit) (done : State → Issue) (poisoned : Cause × DWord) : Issue :=
  match a with
  | .ok s _ => done s
  | .wait s w => .wait (match w with
    | some (d, n) => s.await (.word p) d ctx (some n)
    | none => s)
  | .fault s d => .gone (s.parkWord p d ctx)
  | .poisoned _ | .far _ => .trap poisoned.1 poisoned.2

/-- `SMAP` waits for the core's queued stores to the global range (R387), and for those of the gang to the stash range, which its
binding would turn into stores to lines (notes/assumptions/50.md). -/
def execSmap (h : Hdr) (r : Regs) (s : State) : Out :=
  issueWord (.smap h r) h.sched [] s (fun x =>
    let g := x.g
    let c := placeCore x.p
    let a := g.read [] 0 (src r.b true .none)
    let b : Binding := { o := g.read [] 0 (src r.a false .none), a := bv 64 a, n := g.read [] 0 (src r.c false .none) }
    if s.owner a = .bad || (0 < b.n && s.owner (a + b.n - 1) = .bad) then .trap .badOwner (bv 64 a)
    else match s.gang g.gangKey with
      | none => .trap .smapConflict (bv 64 a)
      | some k =>
        if !smapOk s c k b then .trap .smapConflict (bv 64 a)
        else if s.queuedIn c g.ctx a b.n || s.rawIn g.gangKey b.o b.n then .wait s
        else holdWord s x.p g.ctx (evictAll s c g.ctx ((s.core c).copiesIn g.ctx a b.n))
          (fun s => .done { s with gangs := s.gangs.put g.gangKey { k with binds := k.binds ++ [b] } } (x.now s))
          (.poisoned, bv 64 a))

/-- The write-backs a dropped bound line needs (R122): owned lines whole, managed ones their dirty bytes. -/
def wbOf (k : Nat) (y : Copy) : List WbLine :=
  match y.st with
  | .o => [{ va := keyVa k, managed := false, mask := ~~~0, w := y.w, r := y.r, poison := y.poison, data := y.data }]
  | .managed => if y.mask = 0 then []
    else [{ va := keyVa k, managed := true, mask := y.mask, w := 0, r := 0, poison := y.poison, data := y.data }]
  | _ => []

/-- Dropping the bound copies of a binding: the core without them, and their write-backs in ascending order. -/
def unbind (x : Core) (ctx : Nat) (b : Binding) : Core × List WbLine :=
  (x.copiesIn ctx b.a.toNat b.n).foldl (fun (r : Core × List WbLine) k =>
    match r.1.l1.find k with
    | some y => (r.1.dropCopy k, r.2 ++ wbOf k { y with data := r.1.copyData y })
    | none => r) (x, [])

/-- The core's dirty managed copies in a range taken whole, in ascending order (R130). -/
def Core.dirtyIn (x : Core) (ctx a n : Nat) : List Nat :=
  let (lo, len) := if n = 0 then (a, 0) else (a / 128 * 128, (a + n + 127) / 128 * 128 - a / 128 * 128)
  (x.l1.filter (fun y => y.2.st == .managed && y.2.mask != 0 && keyCtx y.1 == ctx && overlaps (keyVa y.1) 128 lo len)).map (·.1)

/-- The range of a `WBR` entry. -/
def SqEntry.range (e : SqEntry) : Nat × Nat := match e.accs with
  | y :: _ => (y.addr.toNat, y.data.toNat)
  | [] => (0, 0)

/-- Is the entry one of write-backs, which never fault (R130)? -/
def SqEntry.isBack (e : SqEntry) : Bool := match e.kind with
  | .wbr | .writeBack _ => true
  | _ => false

/-- The line that comes next is lost: its page takes no write any more (notes/assumptions/19.md). -/
def State.loseBack (s : State) (p : Nat) (g : Group) (e : SqEntry) : State := match e.kind with
  | .writeBack (_ :: r) => s.sqHead p (fun e => { e with kind := .writeBack r })
  | .wbr => (match (s.core (placeCore p)).dirtyIn g.ctx e.range.1 e.range.2 with
    | k :: _ => s.modCore (placeCore p) (fun c => c.dropCopy k)
    | [] => s)
  | _ => s

/-- A store-queue entry of write-backs. -/
def wbEntry (s : State) (g : Group) (xs : List WbLine) : SqEntry where
  pc := g.pc
  kind := .writeBack xs
  ord := .rlx
  scope := .gang
  accs := []
  tag := 0
  frm := g.frm
  seq := s.seq
  parked := none
  after := g.fence
  whole := []

/-- `SUNMAP` waits for the core's queued stores to the range: the last values stay in the stash (R123;
notes/assumptions/50.md). -/
def execSunmap (h : Hdr) (r : Regs) (s : State) : Out :=
  issueWord (.sunmap h r) h.sched [] s (fun x =>
    let g := x.g
    let c := placeCore x.p
    let o := g.read [] 0 (src r.a false .none)
    match s.gang g.gangKey with
    | none => .done s g
    | some k =>
      match k.binds.find? (fun b => b.o == o) with
      | none => .done s g
      | some b =>
        let (y, wbs) := unbind (s.core c) g.ctx b
        if s.queuedIn c g.ctx b.a.toNat b.n || (!wbs.isEmpty && g.sqFull) then .wait s
        else
          let s' := { s.setCore c y with
            gangs := s.gangs.put g.gangKey { k with binds := k.binds.filter (fun z => z.o != o) } }
          if wbs.isEmpty then .done s' g else .done s'.tick (g.enqueue (wbEntry s g wbs)))

/-! ## Managed copies (R130, R348, R403) -/

/-- `WBR` enters the queue; what it writes back is judged when it leaves (R403). -/
def execWbr (h : Hdr) (r : Regs) (s : State) : Out :=
  issueWord (.wbr h r) h.sched [] s (fun x =>
    enterStore s x h.sched.set.toNat .wbr .rlx .gang [{
      lane := 0, stash := false, addr := bv 64 (x.g.read [] 0 (src r.a true .none)), width := 0
      data := bv 64 (x.g.read [] 0 (src r.b false .none)), done := 0 }])

/-- The lines of a range taken whole (R130). -/
def lineSpan (a n : Nat) : Nat × Nat := if n = 0 then (a, 0) else (a / 128 * 128, (a + n + 127) / 128 * 128 - a / 128 * 128)

/-- Discarding the core's managed copies in a range, clean or dirty. -/
def discardManaged (x : Core) (ctx a n : Nat) : Core :=
  let (lo, len) := lineSpan a n
  { x with l1 := x.l1.filter (fun y => !(y.2.st == .managed && keyCtx y.1 == ctx && overlaps (keyVa y.1) 128 lo len)) }

/-- Is a read outstanding on the core that was issued before a number? -/
def State.readsBefore (s : State) (c seq : Nat) : Bool := s.groups.any (fun g => placeCore g.1 == c && g.2.tags.any (fun t =>
  match t.2.op with
  | some o => o.todo != 0 && o.seq < seq
  | none => false))

/-- The core's discards with one more: each stands for the reads outstanding at it, and one that no read is older than is done
(R130, R348). -/
def State.discards (s : State) (c ctx a n : Nat) : List Discard :=
  let (lo, len) := lineSpan a n
  ((s.core c).invs ++ [({ ctx := ctx, lo := lo, hi := lo + len, seq := s.seq } : Discard)]).filter (fun i => s.readsBefore c i.seq)

def execInvr (h : Hdr) (r : Regs) (s : State) : Out :=
  issueWord (.invr h r) h.sched [] s (fun x =>
    let c := placeCore x.p
    let a := x.g.read [] 0 (src r.a true .none)
    let n := x.g.read [] 0 (src r.b false .none)
    .done (s.modCore c (fun y => { discardManaged y x.g.ctx a n with invs := s.discards c x.g.ctx a n })).tick x.g)

/-! ## Fences (R161, R337) -/

/-- Every earlier load of the group has its data. -/
def Group.loadsDone (g : Group) : Bool := g.tags.all (fun t => match t.2.op with
  | some o => o.todo == 0 || o.isPref
  | none => true)

/-- `fence.rel` waits for nothing: no later store leaves before every earlier access is performed, parked ones included. -/
def execFence (h : Hdr) (ord : Order) (sc : Scope) (s : State) : Out :=
  issueWord (.fence h ord sc) h.sched [] s (fun x =>
    match ord with
    | .acq => if x.g.loadsDone then .done s x.g else .wait s
    | .ar => if x.g.loadsDone && x.g.sq.isEmpty then .done s x.g else .wait s
    | _ => .done s.tick { x.g with fence := s.seq })

/-! ## The written-range log (R132, R133, R378) -/

/-- A log block's fields in its line (R132). -/
def blockRing (x : Line) (off : Nat) : Nat := lineGet x (off + 16) 8
def blockLsize (x : Line) (off : Nat) : Nat := bits (lineGet x (off + 24) 8) 0 5

/-- Setting `ovf`: bit 200 of the block. -/
def blockOvf (x : Line) (off : Nat) : Line := linePut x (off + 25) 1 (lineGet x (off + 25) 1 ||| 1)

def execRlog (h : Hdr) (r : Regs) (s : State) : Out :=
  issueWord (.rlog h r) h.sched [] s (fun x =>
    let g := x.g
    let c := placeCore x.p
    if r.a = .zero then .done ((s.closeLog c).modCore c (fun y => { y with log := none, logOpen := none })) g
    else
      let a := g.read [] 0 (src r.a true .none)
      if a % 64 != 0 then .trap .misaligned (bv 64 a)
      else if s.owner a = .bad then .trap .badOwner (bv 64 a)
      else
        let s := s.closeLog c
        match homeWriteLine s g.ctx a .atomic (s.core c).t (some c) false (fun y =>
            if !y.perm.ctr then (none, none)
            else
              let n := blockLsize y.data (a % 128)
              let ring := blockRing y.data (a % 128)
              if y.poison then (none, some (n, ring, true))
              else if n < 4 || 20 < n || ring % 16 != 0 then (some (blockOvf y.data (a % 128)), some (0, 0, false))
              else (none, some (n, ring, false))) with
        | .ok s y => (match y.out with
          | none => .gone (s.takeTrap x.p { cause := .counterPage, info := bv 64 a, pc := g.pc })
          | some (n, ring, bad) =>
            if bad then .gone (s.takeTrap x.p { cause := .poisoned, info := bv 64 a, pc := g.pc })
            else .done ((s.raiseT c y.w).modCore c (fun z => { z with
              log := if n = 0 then none else some { ctx := g.ctx, block := bv 64 a, lsize := n, ring := bv 64 ring }
              logOpen := none })) (x.now s))
        | .wait s w => .wait (match w with
          | some (d, n) => s.await (.word x.p) d g.ctx (some n)
          | none => s)
        | .fault s d => .gone (s.parkWord x.p d g.ctx)
        | .poisoned s | .far s => .gone (s.takeTrap x.p { cause := .poisoned, info := bv 64 a, pc := g.pc }))

end Sys2Proof.Machine
end

