-- ==== Sys2Proof/Machine/Atomics.lean ====
section
/-!
DEFINITION. Atomics and counters of groups (R154, R164 to R168, R302 to R305, R318, R322, R325, R363).
-/
namespace Sys2Proof.Machine

/-! ## One lane's operation -/

/-- The new value of `ATOM` and `MRED` from the old one and the operand (R304). -/
def atomValue (op : AtomOp) (ty : Ty) (rm : Rm) (v x : Nat) : Nat :=
  let n := tyWidth ty
  match op with
  | .add => if ty = .f32 then (fAdd fmtF32 rm v x).1 else (v + x) % 2 ^ n
  | .min => if ty = .f32 then (fMinMax fmtF32 false v x).1 else if intOf ty x < intOf ty v then x else v
  | .max => if ty = .f32 then (fMinMax fmtF32 true v x).1 else if intOf ty v < intOf ty x then x else v
  | .and => v &&& x
  | .or => v ||| x
  | .xor => v ^^^ x
  | .exch => x

/-- An equal-address set in ascending lane order: each lane's old value, and the value left (R165). -/
def atomSet (f : Nat → Nat → Nat) (v : Nat) (is : List Nat) : List (Nat × Nat) × Nat :=
  is.foldl (fun r i => (r.1 ++ [(i, r.2)], f i r.2)) ([], v)

/-- The set on its line at an offset: the new line, and the old values. -/
def atomOnLine (n : Nat) (f : Nat → Nat → Nat) (is : List Nat) (off : Nat) (x : Line) : Option Line × List (Nat × Nat) :=
  let r := atomSet f (lineGet x off n) is
  (some (linePut x off n r.2), r.1)

/-- `ACAS` writes nothing when no lane matched (R303). -/
def casOnLine (n : Nat) (cmp swap : Nat → Nat) (is : List Nat) (off : Nat) (x : Line) : Option Line × List (Nat × Nat) :=
  let f (i v : Nat) : Nat := if v = cmp i then swap i else v
  let r := atomSet f (lineGet x off n) is
  if r.1.any (fun y => y.2 == cmp y.1) then (some (linePut x off n r.2), r.1) else (none, r.1)

/-! ## Issue -/

/-- Bytes of an atomic type. -/
def atomBytes (ty : Ty) : Nat := tyWidth ty / 8

/-- `ATOM` and `ACAS` at issue: the checks of R303; helpers receive zero; the other threads' words are captured. -/
def atomBody (i : Instr) (h : Hdr) (r : AForm) (data : List Opd) (s : State) (x : Issuer) : Issue :=
  let g := x.g
  let e := g.exec h.guard
  let hs := e &&& g.help
  let a (k : Nat) : Nat := g.read [] k (src r.a true .none)
  let accs := (maskLanes (e &&& ~~~hs)).map (fun k => { lane := k, addr := a k, width := atomBytes r.ty : LaneAcc })
  match s.checkAcc x.p g accs true true with
  | some (c, info) => .trap c info
  | none =>
    let n := if r.ty.is64 then 2 else 1
    issueTagged s x i h.sched.set.toNat (e &&& ~~~hs) 0
      (fun k => g.words k r.a 2 ++ (data.map (fun o => g.words k o n)).flatten)
      ((maskLanes hs).map (fun k => dstWr k r.d r.ty.is64 0)).flatten

/-- The v registers of an atomic word. -/
def atomRegs (r : AForm) : List Nat :=
  let n := if r.ty.is64 then 2 else 1
  opdRegs r.d n ++ opdRegs r.a 2 ++ opdRegs r.b n ++ opdRegs r.c n

def execAtom (h : Hdr) (op : AtomOp) (r : AForm) (s : State) : Out :=
  issueWord (.atom h op r) h.sched (atomRegs r) s (atomBody (.atom h op r) h r [r.b] s)

def execAcas (h : Hdr) (r : AForm) (s : State) : Out :=
  issueWord (.acas h r) h.sched (atomRegs r) s (atomBody (.acas h r) h r [r.b, r.c] s)

/-- `MRED` enters the store queue (R363). -/
def execMred (h : Hdr) (op : AtomOp) (r : AForm) (s : State) : Out :=
  issueWord (.mred h op r) h.sched (atomRegs r) s (fun x =>
    let g := x.g
    let n := atomBytes r.ty
    let accs := storeAccs g false false h (fun k => g.read [] k (src r.a true .none)) n
      (fun k => g.read [] k (src r.b r.ty.is64 .none))
    let las := accs.map (fun y => { lane := y.lane, addr := y.addr.toNat, width := n : LaneAcc })
    match s.checkAcc x.p g las true true with
    | some (c, info) => .trap c info
    | none => enterStore s x h.sched.set.toNat (.mred op r.ty) r.ord r.scope accs)

/-! ## Performing (R156, R165) -/

/-- The issue number before which even parked accesses come first: a release's own (R158). -/
def POp.after (o : POp) (ord : Order) : Nat := if ordRels ord then o.seq else 0

/-- Is an earlier store of the group queued that must leave first: one to a byte it names, or, for a release, any? -/
def Group.storeFirst (g : Group) (o : POp) (ord : Order) (a : Nat → Nat) (n : Nat) : Bool :=
  (ordRels ord && g.sq.any (fun e => e.seq < o.seq)) || (maskLanes o.todo).any (fun i => (upTo n).any (fun k =>
    match fwdByte g.sq o.seq (.glob ((a i + k) % 2 ^ 64)) with
    | .none => false
    | _ => true))

/-- May an `ATOM` or `ACAS` be performed: earlier loads have been, and no store that comes first is queued; a release takes in
every earlier access (R156, R158). -/
def Group.mayAtom (g : Group) (o : POp) (ord : Order) (a : Nat → Nat) (n : Nat) : Bool :=
  g.clear o.seq (o.after ord) && !g.storeFirst o ord a n

/-- One that must wait does, or parks along with what is parked before it. -/
def State.heldAtom (s : State) (p t : Nat) (g : Group) (o : POp) (ord : Order) : State :=
  match g.heldBy o.seq (o.after ord), g.clear o.seq (o.after ord), (g.sq.head?).bind (·.parked) with
  | some k, _, _ | none, true, some k => s.parkAlong p t o k (fun _ => [])
  | _, _, _ => s

/-- The equal-address sets in the order of their lowest lanes; a fault parks what is unfinished, and poisoned
data traps. -/
def atomLanes (p t c ctx : Nat) (scope : Scope) (a : Nat → Nat)
    (f : List Nat → Nat → Line → Option Line × List (Nat × Nat)) (val : Nat → Nat → List Wr) :
    List Nat → State → POp → State
  | [], s, o => s.modGrp p (fun g => g.setOp t (some o))
  | i :: r, s, o =>
    if !o.todo.getLsbD i then atomLanes p t c ctx scope a f val r s o
    else
      let is := (maskLanes o.todo).filter (fun j => a j == a i)
      match o.faults.find? (fun y => y.1 == a i / 65536) with
      | some y => s.parkTag p t o y.2
      | none =>
        match atomicLine s c ctx (a i) scope (f is (a i % 128)) with
        | .ok s old => atomLanes p t c ctx scope a f val r s { o with
            todo := o.todo &&& ~~~(maskOf is.contains), res := o.res ++ (old.map (fun y => val y.1 y.2)).flatten }
        | .poisoned s | .far s => s.poisonTag p t o (a i)
        | .fault s d => s.parkTag p t o (s.park d ctx)
        | .wait s w =>
          let s := s.modGrp p (fun g => g.setOp t (some o))
          match w with
          | some (d, n) => s.await (.tag p t) d ctx (some n)
          | none => s

/-- A captured data operand: word j, or the pair from it. -/
def POp.data (o : POp) (ty : Ty) (j i : Nat) : Nat := if ty.is64 then (o.word2 j i).toNat else (o.word j i).toNat

/-- Performing `ATOM`. -/
def performAtom (s : State) (p t : Nat) (g : Group) (o : POp) (op : AtomOp) (r : AForm) : State :=
  let n := atomBytes r.ty
  let a (i : Nat) : Nat := (o.word2 0 i).toNat
  if !g.mayAtom o r.ord a n then s.heldAtom p t g o r.ord
  else atomLanes p t (placeCore p) g.ctx r.scope a
    (fun is off => atomOnLine n (fun i v => atomValue op r.ty (Rm.of o.frm) v (o.data r.ty 2 i)) is off)
    (fun i v => dstWr i r.d r.ty.is64 v) lanes s o

/-- Performing `ACAS`. -/
def performAcas (s : State) (p t : Nat) (g : Group) (o : POp) (r : AForm) : State :=
  let n := atomBytes r.ty
  let a (i : Nat) : Nat := (o.word2 0 i).toNat
  if !g.mayAtom o r.ord a n then s.heldAtom p t g o r.ord
  else atomLanes p t (placeCore p) g.ctx r.scope a
    (fun is off => casOnLine n (o.data r.ty 2) (o.data r.ty (if r.ty.is64 then 4 else 3)) is off)
    (fun i v => dstWr i r.d r.ty.is64 v) lanes s o

/-- A `MRED` entry: the set of its first access is performed; poisoned data at the home traps, with the next
instruction of the group named (R363). -/
def State.sqMred (s : State) (p : Nat) (g : Group) (e : SqEntry) (op : AtomOp) (ty : Ty) : State :=
  match e.accs with
  | [] => s.sqDone p
  | y :: _ =>
    let is := (e.accs.filter (fun z => z.addr == y.addr)).map (·.lane)
    let x (i : Nat) : Nat := match e.accs.find? (fun z => z.lane == i) with
      | some z => z.data.toNat
      | none => 0
    let fin (s : State) : State := s.sqHead p (fun e => { e with accs := e.accs.filter (fun z => z.addr != y.addr) })
    match atomicLine s (placeCore p) g.ctx y.addr.toNat e.scope
        (fun l => atomOnLine y.width (fun i v => atomValue op ty (Rm.of e.frm) v (x i)) is (y.addr.toNat % 128) l) with
    | .ok s _ => fin s
    | .poisoned s => (fin s).takeTrap p { cause := .poisoned, info := y.addr, pc := g.pc }
    | .far s => fin (s.dropFar (placeDie p) y.addr.toNat)
    | .fault s d => s.parkSq p d g.ctx
    | .wait s w => match w with
      | some (d, n) => s.await (.sq p) d g.ctx (some n)
      | none => s

/-! ## Counters (R166 to R169) -/

/-- The new value of a counter: the count saturates, the error token stays (R167). -/
def counterAdd (old amount : Nat) : Nat :=
  min (bits old 0 63 + bits amount 0 63) (2 ^ 63 - 1) + (bit old 63 || bit amount 63).toNat * 2 ^ 63

/-- An add at the home of a counter; false where the page is not counter-capable. -/
def addAtHome (s : State) (ctx va amount t : Nat) (who : Option Nat) : Ans (Done Bool) :=
  homeWriteLine s ctx va .atomic t who false (fun h =>
    if h.perm.ctr then
      (some (linePut h.data (va % 128) 8 (counterAdd (lineGet h.data (va % 128) 8) amount)), true)
    else (none, false))

/-- A counter's value at its home, and the time of the write it comes from; none where the page is not
counter-capable. -/
def readAtHome (s : State) (ctx va : Nat) : Ans (Option (Nat × Nat)) :=
  (atHome s ctx va .atomic).andThen fun s y =>
    match y.2 with
    | .absent _ => .far s
    | .line h =>
      if !h.perm.ctr then .ok s none
      else if h.poison then .poisoned s
      else .ok s (some (lineGet h.data (va % 128) 8, h.w))

/-- The checks at issue of a counter word (R318). -/
def counterCheck (s : State) (x : Issuer) (a : Nat) (write : Bool) : Option (Cause × DWord) :=
  s.checkAcc x.p x.g [{ lane := 0, addr := a, width := 8 }] true write

def execCadd (h : Hdr) (sc : Scope) (r : Regs) (s : State) : Out :=
  issueWord (.cadd h sc r) h.sched [] s (fun x =>
    let a := x.g.read [] 0 (src r.a true .none)
    match counterCheck s x a true with
    | some (c, info) => .trap c info
    | none => enterStore s x h.sched.set.toNat .cadd .rel sc [{
        lane := 0, stash := false, addr := bv 64 a, width := 8, data := bv 64 (x.g.read [] 0 (src r.b true .none)), done := 0 }])

/-- A `CADD` entry leaves: the add at the home, or `COUNTER_PAGE` (R166). R318 lists no `POISONED` among its traps: on a counter's
line marked poisoned the add is made, and the mark stays (notes/assumptions/55.md, DESIGN CHOICE). -/
def State.sqCadd (s : State) (p : Nat) (g : Group) (e : SqEntry) : State :=
  match e.accs with
  | [] => s.sqDone p
  | y :: _ =>
    let c := placeCore p
    match addAtHome s g.ctx y.addr.toNat y.data.toNat (s.core c).t (some c) with
    | .ok s r =>
      if r.out then (s.raiseT c r.w).sqDone p
      else (s.sqDone p).takeTrap p { cause := .counterPage, info := y.addr, pc := e.pc }
    | .poisoned s => s.sqDone p
    | .far s => (s.dropFar (placeDie p) y.addr.toNat).sqDone p
    | .fault s d => s.parkSq p d g.ctx
    | .wait s w => match w with
      | some (d, n) => s.await (.sq p) d g.ctx (some n)
      | none => s

def execCrd (h : Hdr) (ord : Order) (sc : Scope) (r : Regs) (s : State) : Out :=
  issueWord (.crd h ord sc r) h.sched [] s (fun x =>
    let a := x.g.read [] 0 (src r.a true .none)
    match counterCheck s x a false with
    | some (c, info) => .trap c info
    | none => issueTagged s x (.crd h ord sc r) h.sched.set.toNat 1 0 (fun i => x.g.words i r.a 2) [])

/-- A trap found when the home answers: the tag is free, and the instruction is named (R166). -/
def State.trapTag (s : State) (p t : Nat) (c : Cause) (info : DWord) (pc : DWord) : State :=
  (s.modGrp p (fun g => g.setOp t none)).takeTrap p { cause := c, info := info, pc := pc }

/-- Performing `CRD`. -/
def performCrd (s : State) (p t : Nat) (g : Group) (o : POp) (ord : Order) (r : Regs) : State :=
  let a := (o.word2 0 0).toNat
  if !g.mayAtom o ord (fun _ => a) 8 then s.heldAtom p t g o ord
  else
    match o.faults with
    | y :: _ => s.parkTag p t o y.2
    | [] =>
      match readAtHome s g.ctx a with
      | .ok s none => s.trapTag p t .counterPage (bv 64 a) o.pc
      | .ok s (some (v, w)) =>
        (s.raiseT (placeCore p) w).modGrp p (fun g => g.setOp t (some { o with todo := 0, res := dstWr 0 r.d true v }))
      | .poisoned s | .far s => s.poisonTag p t o a
      | .fault s d => s.parkTag p t o (s.park d g.ctx)
      | .wait s w => match w with
        | some (d, n) => s.await (.tag p t) d g.ctx (some n)
        | none => s

/-- A waiter entry of the counter's slice, when one is free (R168). -/
def State.addWaiter (s : State) (p ctx va target : Nat) : State :=
  match s.owner va with
  | .die d | .host d =>
    let x := s.slice d (homeSlice va)
    if Config.waiters ≤ x.waiters.length then s
    else s.setSlice d (homeSlice va)
      { x with waiters := x.waiters ++ [{ place := p, ctx := ctx, va := va, target := target }] }
  | _ => s

/-- `CWAIT`: satisfied at once, or parked (R167, R168, R325). -/
def execCwait (h : Hdr) (sc : Scope) (r : Regs) (s : State) : Out :=
  issueWord (.cwait h sc r) h.sched [] s (fun x =>
    let g := x.g
    let c := placeCore x.p
    let a := g.read [] 0 (src r.a true .none)
    let target := g.read [] 0 (src r.b true .none)
    match counterCheck s x a false with
    | some (k, info) => .trap k info
    | none =>
      let own := (upTo 8).any (fun k => match fwdByte g.sq s.seq (.glob (a + k)) with
        | .none => false
        | _ => true)
      if !g.loadsDone || own then .wait s
      else match readAtHome s g.ctx a with
        | .ok s none =>
          -- the trap is raised when the home answers; the instruction performs nothing (R166)
          .gone (s.takeTrap x.p { cause := .counterPage, info := bv 64 a, pc := g.pc })
        | .ok s (some (v, w)) =>
          if counterMet v target then .done (s.raiseT c w) (g.wrs (dstWr 0 r.d true v))
          else
            let k : CPark := {
              addr := bv 64 a, target := bv 64 target, npc := g.npc, deaf := false
              d := match r.d with
                | .s n => n.toNat
                | _ => 0 }
            .gone ((s.addWaiter x.p g.ctx a target).setGrp x.p
              { g.issued h.sched g.lpend.length g.pc with st := .counterParked, cpark := some k })
        | .poisoned s | .far s => .gone (s.takeTrap x.p { cause := .poisoned, info := bv 64 a, pc := g.pc })
        | .fault s d => .gone (s.parkWord x.p d g.ctx)
        | .wait s w => .wait (match w with
          | some (d, n) => s.await (.word x.p) d g.ctx (some n)
          | none => s))

end Sys2Proof.Machine
end

