-- ==== Sys2Proof/Machine/IntOps.lean ====
section
/-!
DEFINITION. The integer and bit instructions (R309, R310, R313, R316, R320, R345 to R347, R354 to R356, R371,
R372, R379, R381).
-/
namespace Sys2Proof.Machine

/-! ## Element functions -/

/-- The packing of a type: 4 elements of 8 bits, 2 of 16, or 1 (R77, R345). -/
def packs (t : Ty) : Nat := if tyWidth t = 8 then 4 else if tyWidth t = 16 then 2 else 1

/-- Applying a function to each packed element, of n elements of w bits. -/
def mapElems (n w : Nat) (f : Nat → Nat) : Nat :=
  (upTo n).foldl (fun r k => r + f k % 2 ^ w * 2 ^ (w * k)) 0

/-- Wrapping or saturating to an integer type (R345). -/
def fitInt (t : Ty) (sat : Bool) (x : Int) : Nat :=
  wrap (tyWidth t) (if sat then min (max x (tyMin t)) (tyMax t) else x)

/-- An element-wise integer form on its packing. -/
def intElems (t : Ty) (sat : Bool) (f : Int → Int → Int) (a b : Nat) : Nat :=
  mapElems (packs t) (tyWidth t) (fun k =>
    fitInt t sat (f (intOf t (bits a (tyWidth t * k) (tyWidth t))) (intOf t (bits b (tyWidth t * k) (tyWidth t)))))

/-- No flags. -/
def plain (x : Nat) : Nat × Flags := (x, 0)

/-- First, second and third source of a lane. -/
def s0 (v : List Nat) : Nat := v.getD 0 0
def s1 (v : List Nat) : Nat := v.getD 1 0
def s2 (v : List Nat) : Nat := v.getD 2 0

/-- Two-source words of the integer families. -/
def int2 (i : Instr) (h : Hdr) (r : RForm) (s : State) (f : Nat → Nat → Nat) : Out :=
  aluWord i h s true false r.d r.ty.is64 [src r.a r.ty.is64 r.ma, src r.b r.ty.is64 r.mb]
    (fun _ v _ => plain (f (s0 v) (s1 v)))

/-- The immediate in the place of source B: sign-extended in a 64-bit form (R277). -/
def immOf (r : IForm) : Nat := if r.w then (r.imm.signExtend 64).toNat else r.imm.toNat

/-- Immediate words. -/
def intImm (i : Instr) (h : Hdr) (r : IForm) (s : State) (f : Nat → Nat → Nat) : Out :=
  aluWord i h s true false r.d r.w [src r.a r.w .none] (fun _ v _ => plain (f (s0 v) (immOf r)))

def immTy (r : IForm) : Ty := if r.w then .n64 else .n32

/-! ## The add family (R345) -/

def execIadd (h : Hdr) (r : RForm) (s : State) : Out :=
  int2 (.iadd h r) h r s (intElems r.ty (r.sub == 1) (· + ·))

def execIsub (h : Hdr) (r : RForm) (s : State) : Out :=
  int2 (.isub h r) h r s (intElems r.ty (r.sub == 1) (· - ·))

def execImin (h : Hdr) (r : RForm) (s : State) : Out :=
  int2 (.imin h r) h r s (intElems r.ty false min)

def execImax (h : Hdr) (r : RForm) (s : State) : Out :=
  int2 (.imax h r) h r s (intElems r.ty false max)

def execIabs (h : Hdr) (r : RForm) (s : State) : Out :=
  aluWord (.iabs h r) h s true false r.d r.ty.is64 [src r.a r.ty.is64 r.ma]
    (fun _ v _ => plain (intElems r.ty (r.sub == 1) (fun x _ => (x.natAbs : Int)) (s0 v) 0))

def execIaddImm (h : Hdr) (r : IForm) (s : State) : Out :=
  intImm (.iaddImm h r) h r s (intElems (immTy r) false (· + ·))

def execIsubImm (h : Hdr) (r : IForm) (s : State) : Out :=
  intImm (.isubImm h r) h r s (intElems (immTy r) false (· - ·))

/-! ## Products (R347) -/

def execImul (h : Hdr) (r : RForm) (s : State) : Out :=
  int2 (.imul h r) h r s (intElems r.ty false (· * ·))

def execImulImm (h : Hdr) (r : IForm) (s : State) : Out :=
  intImm (.imulImm h r) h r s (intElems (immTy r) false (· * ·))

/-- The high half of the exact product. -/
def mulHigh (t : Ty) (a b : Nat) : Nat :=
  wrap (tyWidth t) (intOf t a * intOf t b / (2 ^ tyWidth t : Int))

def execImulh (h : Hdr) (r : RForm) (s : State) : Out :=
  int2 (.imulh h r) h r s (mulHigh r.ty)

def execImad (h : Hdr) (r : RForm) (s : State) : Out :=
  aluWord (.imad h r) h s true false r.d r.ty.is64
    [src r.a r.ty.is64 r.ma, src r.b r.ty.is64 r.mb, src r.c r.ty.is64 .none]
    (fun _ v _ => plain ((s0 v * s1 v + s2 v) % 2 ^ tyWidth r.ty))

/-- The four byte products of `IDP4`; `mix` reads b with the opposite signedness. -/
def dot4 (t : Ty) (mix : Bool) (a b c : Nat) : Nat :=
  let tb : Ty := if mix then (if tySigned t then .n8 else .i8) else t
  wrap 32 ((upTo 4).foldl (fun r k => r + intOf t (bits a (8 * k) 8) * intOf tb (bits b (8 * k) 8)) (c : Int))

def execIdp4 (h : Hdr) (r : RForm) (s : State) : Out :=
  aluWord (.idp4 h r) h s true false r.d false [src r.a false r.ma, src r.b false r.mb, src r.c false .none]
    (fun _ v _ => plain (dot4 r.ty (r.sub == 1) (s0 v) (s1 v) (s2 v)))

/-! ## Compares, selection and predicates (R346, R371, R379) -/

def execIcmp (h : Hdr) (r : PForm) (s : State) : Out :=
  predOut (.icmp h r) h s r.pd.toNat [src r.a r.ty.is64 r.ma, src r.b r.ty.is64 r.mb]
    (fun v => (intCond r.cond.toNat (intOf r.ty (s0 v)) (intOf r.ty (s1 v)), 0))

/-- The type of an immediate compare: width from `w`, signedness from its bit (R277). -/
def cmpTy (sg : Bool) (w : Bool) : Ty := match sg, w with
  | true, true => .i64
  | true, false => .i32
  | false, true => .n64
  | false, false => .n32

def execIcmpImm (h : Hdr) (pd cond : BitVec 3) (sg : Bool) (r : IForm) (s : State) : Out :=
  predOut (.icmpImm h pd cond sg r) h s pd.toNat [src r.a r.w .none]
    (fun v => (intCond cond.toNat (intOf (cmpTy sg r.w) (s0 v)) (intOf (cmpTy sg r.w) (immOf r)), 0))

def execPlog (h : Hdr) (f pd pa pb : BitVec 3) (s : State) : Out :=
  issueWord (.plog h f pd pa pb) h.sched [] s (fun x =>
    .done s (x.g.setP pd.toNat (x.g.exec h.guard) (logicMask f.toNat (x.g.getP pa.toNat) (x.g.getP pb.toNat))))

def execSel (h : Hdr) (pc : BitVec 3) (r : RForm) (s : State) : Out :=
  issueWord (.sel h pc r) h.sched
    (opdRegs r.d (if r.ty.is64 then 2 else 1) ++ ([src r.a r.ty.is64 r.ma, src r.b r.ty.is64 r.mb].map SrcOp.regs).flatten) s
    (fun x => aluBody s h false false r.d r.ty.is64 [src r.a r.ty.is64 r.ma, src r.b r.ty.is64 r.mb]
      (fun _ v i _ => plain (if (x.g.getP pc.toNat).getLsbD i then s0 (v i) else s1 (v i))) x)

/-! ## Logic, shifts and bit fields (R309, R310, R313, R316, R320, R355, R372, R381) -/

def execLogic (h : Hdr) (r : RForm) (s : State) : Out :=
  int2 (.logic h r) h r s (logicFn r.sub.toNat (tyWidth r.ty))

def execLogicImm (h : Hdr) (f : BitVec 3) (r : IForm) (s : State) : Out :=
  intImm (.logicImm h f r) h r s (logicFn f.toNat (tyWidth (immTy r)))

/-- `SHL`: (A × 2^s) mod 2^n. -/
def shiftLeft (n a k : Nat) : Nat := if n ≤ k then 0 else a * 2 ^ k % 2 ^ n

/-- `SHR`: zeros or copies of the sign come in. -/
def shiftRight (sg : Bool) (n a k : Nat) : Nat :=
  if sg then wrap n (sgn n a / (2 ^ k : Int)) else a % 2 ^ n / 2 ^ k

def execShl (h : Hdr) (r : RForm) (s : State) : Out :=
  aluWord (.shl h r) h s true false r.d r.ty.is64 [src r.a r.ty.is64 r.ma, src r.b false r.mb]
    (fun _ v _ => plain (shiftLeft (tyWidth r.ty) (s0 v) (s1 v % 256)))

def execShr (h : Hdr) (r : RForm) (s : State) : Out :=
  aluWord (.shr h r) h s true false r.d r.ty.is64 [src r.a r.ty.is64 r.ma, src r.b false r.mb]
    (fun _ v _ => plain (shiftRight (tySigned r.ty) (tyWidth r.ty) (s0 v) (s1 v % 256)))

def execShlImm (h : Hdr) (r : IForm) (s : State) : Out :=
  intImm (.shlImm h r) h r s (fun a _ => shiftLeft (tyWidth (immTy r)) a r.imm.toNat)

def execShrImmLogical (h : Hdr) (r : IForm) (s : State) : Out :=
  intImm (.shrImmLogical h r) h r s (fun a _ => shiftRight false (tyWidth (immTy r)) a r.imm.toNat)

def execShrImmArith (h : Hdr) (r : IForm) (s : State) : Out :=
  intImm (.shrImmArith h r) h r s (fun a _ => shiftRight true (tyWidth (immTy r)) a r.imm.toNat)

/-- `BFX` (R310): the value is extended without limit before the field is taken. -/
def bitExtract (t : Ty) (a b c : Nat) : Nat :=
  let n := tyWidth t
  let len := min (c % 256) n
  let f := (intOf t a / (2 ^ (b % 256) : Int) % (2 ^ len : Int)).toNat
  if tySigned t && 0 < len then wrap n (sgn len f) else f % 2 ^ n

def execBfx (h : Hdr) (r : RForm) (s : State) : Out :=
  aluWord (.bfx h r) h s true false r.d r.ty.is64 [src r.a r.ty.is64 r.ma, src r.b false r.mb, src r.c false .none]
    (fun _ v _ => plain (bitExtract r.ty (s0 v) (s1 v) (s2 v)))

/-- `BFI` (R309). -/
def bitInsert (n a b c : Nat) : Nat :=
  let pos := c % 256
  let len := min (bits c 8 8) n
  let m := shiftLeft n (2 ^ len - 1) pos
  logicFn 3 n b m ||| (shiftLeft n a pos &&& m)

def execBfi (h : Hdr) (r : RForm) (s : State) : Out :=
  aluWord (.bfi h r) h s true false r.d r.ty.is64
    [src r.a r.ty.is64 r.ma, src r.b r.ty.is64 r.mb, src r.c false .none]
    (fun _ v _ => plain (bitInsert (tyWidth r.ty) (s0 v) (s1 v) (s2 v)))

/-- The number of one bits below n. -/
def popCount (n x : Nat) : Nat := (upTo n).foldl (fun r k => r + (bit x k).toNat) 0

def execPopc (h : Hdr) (r : RForm) (s : State) : Out :=
  aluWord (.popc h r) h s true false r.d false [src r.a r.ty.is64 r.ma]
    (fun _ v _ => plain (popCount (tyWidth r.ty) (s0 v)))

/-- `CLZ` (R320): leading zeros, or bits below the sign bit equal to it. -/
def leading (t : Ty) (x : Nat) : Nat :=
  let n := tyWidth t
  let y := if tySigned t && bit x (n - 1) then 2 ^ n - 1 - x % 2 ^ n else x % 2 ^ n
  let z := if y = 0 then n else n - 1 - y.log2
  if tySigned t then z - 1 else z

def execClz (h : Hdr) (r : RForm) (s : State) : Out :=
  aluWord (.clz h r) h s true false r.d false [src r.a r.ty.is64 r.ma]
    (fun _ v _ => plain (leading r.ty (s0 v)))

/-- Bit k of the result is bit n − 1 − k of x (R316). -/
def reverseBits (n x : Nat) : Nat := (upTo n).foldl (fun r k => r + (bit x (n - 1 - k)).toNat * 2 ^ k) 0

def execBrev (h : Hdr) (r : RForm) (s : State) : Out :=
  aluWord (.brev h r) h s true false r.d r.ty.is64 [src r.a r.ty.is64 r.ma]
    (fun _ v _ => plain (reverseBits (tyWidth r.ty) (s0 v)))

/-- `BPERM` (R313): bytes 0–3 from A, 4–7 from B; a set top bit replicates the byte's sign. -/
def bytePerm (a b c : Nat) : Nat :=
  let pool := a % 2 ^ 32 + b % 2 ^ 32 * 2 ^ 32
  (upTo 4).foldl (fun r k =>
    let e := bits c (4 * k) 4
    let x := bits pool (8 * (e % 8)) 8
    r + (if bit e 3 then (if bit x 7 then 0xFF else 0) else x) * 2 ^ (8 * k)) 0

def execBperm (h : Hdr) (r : RForm) (s : State) : Out :=
  aluWord (.bperm h r) h s true false r.d false [src r.a false r.ma, src r.b false r.mb, src r.c false .none]
    (fun _ v _ => plain (bytePerm (s0 v) (s1 v) (s2 v)))

/-! ## Addresses and moves (R354, R356) -/

/-- `LEA`: A + (Ext(B) << s) mod 2^64. -/
def leaValue (t : Ty) (k a b : Nat) : Nat :=
  wrap 64 ((a : Int) + (if tySigned t then sgn 32 b else (b : Int)) * 2 ^ k)

def execLea (h : Hdr) (r : RForm) (s : State) : Out :=
  aluWord (.lea h r) h s true false r.d true [src r.a true r.ma, src r.b false r.mb]
    (fun _ v _ => plain (leaValue r.ty r.sub.toNat (s0 v) (s1 v)))

def execMov (h : Hdr) (r : RForm) (s : State) : Out :=
  aluWord (.mov h r) h s true false r.d r.ty.is64 [src r.a r.ty.is64 r.ma]
    (fun _ v old => plain (if r.ty = .n16 then putHalf r.half old (s0 v) else s0 v))

def execMovi (h : Hdr) (r : IForm) (s : State) : Out :=
  aluWord (.movi h r) h s true false r.d r.w [] (fun _ _ _ => plain (immOf r))

end Sys2Proof.Machine
end

