-- ==== Sys2Proof/Machine/Trans.lean ====
section
/-!
DEFINITION. The function forms (R339 to R342): exact and special cases, correctly rounded reciprocal and root,
and for the rest a value picked within the bound of R341 from an enclosure of the exact result. Which of the
values within the bound the LH9 gives is open: `Config.funcPick` (notes/assumptions/6.md).
-/
namespace Sys2Proof.Machine

/-- The function forms, in opcode order. -/
inductive Fn where
  | rcp | rsq | sqrt | exp2 | log2 | sin | cos | tanh
deriving DecidableEq, Repr

def Fn.code : Fn → Nat
  | .rcp => 0
  | .rsq => 1
  | .sqrt => 2
  | .exp2 => 3
  | .log2 => 4
  | .sin => 5
  | .cos => 6
  | .tanh => 7

/-! ## Enclosures in fixed point

An exact result lies between lo × 2^e and hi × 2^e. -/

structure Encl where
  lo : Int
  hi : Int
  e : Int

/-- fraction bits of the working precision -/
def fxBits : Nat := 160
def fxOne : Nat := 2 ^ fxBits
/-- floor of π × 2^512 -/
def piFx : Nat := 0x3243f6a8885a308d313198a2e03707344a4093822299f31d0082efa98ec4e6c89452821e638d01377be5466cf34e90c6cc0ac29b7c97c50dd3f84d5b5b5470917
/-- floor of ln 2 × 2^192, and to the working precision -/
def ln2Fx192 : Nat := 0xb17217f7d1cf79abc9e3b39803f2f6af40f343267298b62d
def ln2Fx : Nat := ln2Fx192 / 2 ^ 32

/-- m × 2^e to the working precision, rounded down. -/
def toFx (m : Nat) (e : Int) : Nat :=
  let k := e + fxBits
  if 0 ≤ k then m * 2 ^ k.toNat
  else if (m.log2 : Int) + 1 < -k then 0 else m / 2 ^ (-k).toNat

/-- The exponential series of t in [0, 1), both in working precision. -/
def expFx (t : Nat) : Nat :=
  ((upTo 48).foldl (fun (r : Nat × Nat) k =>
    let u := r.2 * t / fxOne / (k + 1)
    (r.1 + u, u)) (fxOne, fxOne)).1

/-- 2^x for x in working precision: a value in [1, 2] and its exponent. -/
def exp2Fx (x : Int) : Nat × Int :=
  (expFx ((x % (fxOne : Int)).toNat * ln2Fx / fxOne), x / (fxOne : Int))

/-- ±m × 2^e as a signed number in working precision, rounded down in magnitude. -/
def signedFx (neg : Bool) (m : Nat) (e : Int) : Int := if neg then -(toFx m e : Int) else toFx m e

def exp2Encl (neg : Bool) (m : Nat) (e : Int) : Encl :=
  let (v, n) := exp2Fx (signedFx neg m e)
  { lo := (v : Int) - 256, hi := v + 256, e := n - fxBits }

/-- The inverse hyperbolic tangent series of z in [0, 1/3]. -/
def atanhFx (z : Nat) : Nat :=
  ((upTo 60).foldl (fun (r : Nat × Nat) k =>
    (r.1 + r.2 / (2 * k + 1), r.2 * z / fxOne * z / fxOne)) (0, z)).1

def log2Encl (m : Nat) (e : Int) : Encl :=
  let l := m.log2
  let z := (m - 2 ^ l) * fxOne / (m + 2 ^ l)
  let v := ((l : Int) + e) * fxOne + (2 * atanhFx z * fxOne / ln2Fx : Nat)
  { lo := v - 1024, hi := v + 1024, e := -(fxBits : Int) }

/-- The sine and cosine of r in [0, π/2]. -/
def sinFx (r : Nat) : Int :=
  ((upTo 40).foldl (fun (x : Int × Int) k =>
    (x.1 + x.2, -(x.2 * r / fxOne * r / fxOne / ((2 * k + 2) * (2 * k + 3) : Nat)))) (0, (r : Int))).1
def cosFx (r : Nat) : Int :=
  ((upTo 40).foldl (fun (x : Int × Int) k =>
    (x.1 + x.2, -(x.2 * r / fxOne * r / fxOne / ((2 * k + 1) * (2 * k + 2) : Nat)))) (0, (fxOne : Int))).1

/-- Argument reduction of m × 2^e by π/2: the quadrant and the rest, exact to far below the bound. -/
def reducePi (m : Nat) (e : Int) : Nat × Nat :=
  let v := m * 2 ^ (e + 512).toNat
  let h := piFx / 2
  (v / h % 4, v % h / 2 ^ (512 - fxBits))

def trigEncl (cosine neg : Bool) (m : Nat) (e : Int) : Encl :=
  let (q, r) := reducePi m e
  let v := match (q + cosine.toNat) % 4 with
    | 0 => sinFx r
    | 1 => cosFx r
    | 2 => -sinFx r
    | _ => -cosFx r
  let v := if neg && !cosine then -v else v
  { lo := v - 1024, hi := v + 1024, e := -(fxBits : Int) }

def tanhEncl (neg : Bool) (m : Nat) (e : Int) : Encl :=
  let v : Int :=
    if 6 ≤ (m.log2 : Int) + e then fxOne
    else
      let (x, n) := exp2Fx ((2 * toFx m e * fxOne / ln2Fx : Nat) : Int)
      let y := x * 2 ^ n.toNat
      ((y - fxOne) * fxOne / (y + fxOne) : Nat)
  let v := if neg then -v else v
  { lo := v - 2 ^ 48, hi := v + 2 ^ 48, e := -(fxBits : Int) }

/-! ## Picking a value within the bound -/

/-- f32 codes in numerical order. -/
def ordOf (c : Nat) : Int := if bit c 31 then -((c % 2 ^ 31 : Nat) : Int) else (c % 2 ^ 31 : Nat)
def codeOf (k : Int) : Nat := if k < 0 then 2 ^ 31 + k.natAbs else k.toNat

/-- A signed integer multiple of 2^e as a value. -/
def FVal.ofScaled (x : Int) (e : Int) : FVal := .num (decide (x < 0)) x.natAbs e

/-- The exponent of 2 ulp(y), for the least |y| of the enclosure (R341). -/
def ulp2Exp (x : Encl) : Int :=
  if x.lo ≤ 0 && 0 ≤ x.hi then -148 else max (expOfMag (min x.lo.natAbs x.hi.natAbs) x.e) (-126) - 22

/-- One f32 value within 2^tol of every value of the enclosure, by the open choice. -/
def pickWithin (f : Fn) (bitsIn : Nat) (x : Encl) (tol : Int) : Nat :=
  let q := min x.e tol
  let up (n : Int) : Int := n * (2 ^ (x.e - q).toNat : Nat)
  let t : Int := (2 ^ (tol - q).toNat : Nat)
  let lo := ordOf (roundTo fmtF32 .rup (FVal.ofScaled (up x.hi - t) q)).1
  let hi := ordOf (roundTo fmtF32 .rdn (FVal.ofScaled (up x.lo + t) q)).1
  codeOf (lo + (Config.funcPick f.code bitsIn % ((hi - lo).toNat + 1) : Nat))

/-! ## The forms on an f32 operand

Each gives the f32 code, the flags, and whether the result is exact by R340. -/

/-- An inexact result's flags: `nx`, and `uf` below the smallest normal value (R342). -/
def inexact (c : Nat) : Flags := fNX ||| flagIf (c % 2 ^ 31 < 0x800000) fUF

def nanOf (sig : Bool) : Nat × Flags × Bool := (0x7FC00000, flagIf sig fNV, true)

/-- Is m × 2^e a power of two, and its exponent? -/
def powTwo (m : Nat) (e : Int) : Option Int := if m = 2 ^ m.log2 then some ((m.log2 : Int) + e) else none

/-- m × 2^e as an integer, when it is one below 2^12. -/
def smallInt (neg : Bool) (m : Nat) (e : Int) : Option Int :=
  if 12 < (m.log2 : Int) + e || (m.log2 : Int) + e < 0 then none
  else
    let (n, ex) := roundAt .rtz neg m e 0
    if ex then some (if neg then -(n : Int) else n) else none

def rsqVal (m : Nat) (e : Int) : FVal :=
  let (m, e) := if e % 2 = 0 then (m, e) else (2 * m, e - 1)
  let k := 64 + m.log2
  .num false (2 * isqrt (2 ^ (2 * k) / m) + 1) (-(k : Int) - 1 - e / 2)

/-- The f32 result of the forms that are not correctly rounded (R340, R341). -/
def fnF32 (f : Fn) (x : FVal) (bitsIn : Nat) : Nat × Flags × Bool :=
  match x with
  | .nan s => nanOf s
  | .inf neg => match f with
    | .rsq => if neg then (0x7FC00000, fNV, true) else (0, 0, true)
    | .exp2 => if neg then (0, 0, true) else (0x7F800000, 0, true)
    | .log2 => if neg then (0x7FC00000, fNV, true) else (0x7F800000, 0, true)
    | .tanh => (if neg then 0xBF800000 else 0x3F800000, 0, true)
    | _ => (0x7FC00000, fNV, true)
  | .num neg m e =>
    if m = 0 then match f with
      | .rsq => (if neg then 0xFF800000 else 0x7F800000, fDZ, true)
      | .log2 => (0xFF800000, fDZ, true)
      | .exp2 | .cos => (0x3F800000, 0, true)
      | _ => (if neg then 0x80000000 else 0, 0, true)
    else match f with
      | .rsq =>
        if neg then (0x7FC00000, fNV, true)
        else
          let even := match powTwo m e with
            | some k => if k % 2 = 0 then some (-(k / 2)) else none
            | none => none
          (match even with
          | some k => ((roundTo fmtF32 .rne (.num false 1 k)).1, 0, true)
          | none =>
            let y := rsqVal m e
            let c := (roundTo fmtF32 (if Config.funcPick f.code bitsIn % 2 = 0 then .rtz else .rup) y).1
            (c, inexact c, false))
      | .exp2 =>
        if !neg && 7 ≤ (m.log2 : Int) + e then (0x7F800000, fOF ||| fNX, false)
        else if neg && 8 ≤ (m.log2 : Int) + e then (0, fUF ||| fNX, false)
        else (match smallInt neg m e with
          | some k =>
            let (c, fl) := roundTo fmtF32 .rne (.num false 1 k)
            (c, fl, fl == 0)
          | none =>
            let y := exp2Encl neg m e
            if neg && (126 < toFx m e / fxOne || (126 * fxOne < toFx m e)) then
              let (c, fl) := roundTo fmtF32 .rne (.num false (2 * y.lo.toNat + 1) (y.e - 1))
              (c, fl, false)
            else
              let c := pickWithin f bitsIn y (ulp2Exp y)
              (c, inexact c, false))
      | .log2 =>
        if neg then (0x7FC00000, fNV, true)
        else (match powTwo m e with
          | some k => ((roundTo fmtF32 .rne (FVal.ofInt k)).1, 0, true)
          | none =>
            let y := log2Encl m e
            let l := (m.log2 : Int) + e
            let c := pickWithin f bitsIn y (if l = -1 || l = 0 then -22 else ulp2Exp y)
            (c, inexact c, false))
      | .sin | .cos =>
        let y := trigEncl (f == .cos) neg m e
        let c := pickWithin f bitsIn y (max (ulp2Exp y) (-23))
        (c, inexact c, false)
      | _ =>
        let y := tanhEncl neg m e
        let c := pickWithin f bitsIn y (max (ulp2Exp y) (-23))
        (c, inexact c, false)

/-- A function form on one element of a format (R340 to R342): reciprocal and square root are correctly
rounded by `frm`; the others round their f32 result into a 16-bit format by RNE. -/
def fnElem (f : Fn) (t : Fmt) (rm : Rm) (x : Nat) : Elem :=
  let v := unpack t x
  match f with
  | .rcp => (match v with
    | .nan s => (t.nan.getD 0, flagIf s fNV)
    | .inf n => (signed t n 0, 0)
    | .num n m e => if m = 0 then (signed t n t.infCode, fDZ) else roundTo t rm (recipVal n m e))
  | .sqrt => (match v with
    | .nan s => (t.nan.getD 0, flagIf s fNV)
    | .inf n => if n then (t.nan.getD 0, fNV) else (t.infCode, 0)
    | .num n m e =>
      if m = 0 then (signed t n 0, 0)
      else if n then (t.nan.getD 0, fNV) else roundTo t rm (sqrtVal m e))
  | _ =>
    let (c, fl, ex) := fnF32 f v (roundTo fmtF32 .rne v).1
    if t.mb = 23 then (c, fl)
    else
      let y := unpack fmtF32 c
      let (d, gl) := roundTo t .rne y
      if y.isNaN || y.isInf then (d, fl)
      else (d, gl ||| flagIf (!ex) (fNX ||| flagIf (d % 2 ^ t.mag < 2 ^ t.mb) fUF))

end Sys2Proof.Machine
end

