-- ==== Sys2Proof/Machine/FloatOps.lean ====
section
/-!
DEFINITION. The float instructions (R329 to R342).
-/
namespace Sys2Proof.Machine

/-- A float form on its packing: f32 whole, 16-bit types packed, or under `.s` element 0 into the named half
(R330). `f` is given the element number too. -/
def floatElems (r : RForm) (old : Nat) (f : Nat → Elem) : Nat × Flags :=
  if !r.ty.is16 then f 0
  else if r.sub = 1 then
    let (x, fl) := f 0
    (putHalf r.half old x, fl)
  else
    let (x, fx) := f 0
    let (y, fy) := f 1
    (x % 2 ^ 16 + y % 2 ^ 16 * 2 ^ 16, fx ||| fy)

/-- Element k of a source of the form's type. -/
def elemOf (t : Ty) (x k : Nat) : Nat := if t.is16 then bits x (16 * k) 16 else x % 2 ^ 32

def float2 (i : Instr) (h : Hdr) (r : RForm) (s : State) (f : Fmt → Rm → Nat → Nat → Elem) : Out :=
  aluWord i h s true false r.d false [src r.a false r.ma, src r.b false r.mb]
    (fun rm v old => floatElems r old (fun k => f (Fmt.ofTy r.ty) rm (elemOf r.ty (s0 v) k) (elemOf r.ty (s1 v) k)))

def execFadd (h : Hdr) (r : RForm) (s : State) : Out := float2 (.fadd h r) h r s fAdd

def execFmul (h : Hdr) (r : RForm) (s : State) : Out := float2 (.fmul h r) h r s fMul

def execFmin (h : Hdr) (r : RForm) (s : State) : Out := float2 (.fmin h r) h r s (fun f _ a b => fMinMax f false a b)

def execFmax (h : Hdr) (r : RForm) (s : State) : Out := float2 (.fmax h r) h r s (fun f _ a b => fMinMax f true a b)

def execFfma (h : Hdr) (r : RForm) (s : State) : Out :=
  aluWord (.ffma h r) h s true false r.d false [src r.a false r.ma, src r.b false r.mb, src r.c false .none]
    (fun rm v old => floatElems r old (fun k =>
      fFma (Fmt.ofTy r.ty) rm (elemOf r.ty (s0 v) k) (elemOf r.ty (s1 v) k) (elemOf r.ty (s2 v) k)))

def execFdot2 (h : Hdr) (r : RForm) (s : State) : Out :=
  aluWord (.fdot2 h r) h s true false r.d false [src r.a false r.ma, src r.b false r.mb, src r.c false .none]
    (fun rm v _ => fDot2 (Fmt.ofTy r.ty) rm (s0 v) (s1 v) (s2 v))

def execFcmp (h : Hdr) (r : PForm) (s : State) : Out :=
  predOut (.fcmp h r) h s r.pd.toNat [src r.a false r.ma, src r.b false r.mb]
    (fun v => fCmp (Fmt.ofTy r.ty) r.cond.toNat (elemOf r.ty (s0 v) 0) (elemOf r.ty (s1 v) 0))

/-- A function form: class L, 16-bit types always packed (R339). -/
def funcWord (i : Instr) (f : Fn) (h : Hdr) (r : RForm) (s : State) : Out :=
  aluWord i h s false true r.d false [src r.a false r.ma]
    (fun rm v old => floatElems r old (fun k => fnElem f (Fmt.ofTy r.ty) rm (elemOf r.ty (s0 v) k)))

def execFrcp (h : Hdr) (r : RForm) (s : State) : Out := funcWord (.frcp h r) .rcp h r s
def execFrsq (h : Hdr) (r : RForm) (s : State) : Out := funcWord (.frsq h r) .rsq h r s
def execFsqrt (h : Hdr) (r : RForm) (s : State) : Out := funcWord (.fsqrt h r) .sqrt h r s
def execFexp2 (h : Hdr) (r : RForm) (s : State) : Out := funcWord (.fexp2 h r) .exp2 h r s
def execFlog2 (h : Hdr) (r : RForm) (s : State) : Out := funcWord (.flog2 h r) .log2 h r s
def execFsin (h : Hdr) (r : RForm) (s : State) : Out := funcWord (.fsin h r) .sin h r s
def execFcos (h : Hdr) (r : RForm) (s : State) : Out := funcWord (.fcos h r) .cos h r s
def execFtanh (h : Hdr) (r : RForm) (s : State) : Out := funcWord (.ftanh h r) .tanh h r s

/-- `FSCALE`: B is a whole i32 for both elements (R338). -/
def execFscale (h : Hdr) (r : RForm) (s : State) : Out :=
  aluWord (.fscale h r) h s true false r.d false [src r.a false r.ma, src r.b false r.mb]
    (fun rm v old => floatElems r old (fun k => fScale (Fmt.ofTy r.ty) rm (elemOf r.ty (s0 v) k) (sgn 32 (s1 v))))

/-- `FMAXE`: A and D are i32 (R93, R338). -/
def maxExp (t : Ty) (a b : Nat) : Nat := wrap 32 (max (sgn 32 a) (expOf (Fmt.ofTy t) (elemOf t b 0)))

def execFmaxe (h : Hdr) (r : RForm) (s : State) : Out :=
  aluWord (.fmaxe h r) h s true false r.d false [src r.a false r.ma, src r.b false r.mb]
    (fun _ v _ => plain (maxExp r.ty (s0 v) (s1 v)))

/-- The rounding mode of `FRND` by sub-form (R331). -/
def frndMode (rm : Rm) (k : Nat) : Rm := match k with
  | 0 => rm
  | 1 => .rne
  | 2 => .rtz
  | 3 => .rup
  | _ => .rdn

/-- `FRND`: packed for 16-bit types; the sub-form is the mode. -/
def execFrnd (h : Hdr) (r : RForm) (s : State) : Out :=
  aluWord (.frnd h r) h s true false r.d false [src r.a false r.ma]
    (fun rm v old => floatElems { r with sub := 0 } old (fun k =>
      fRnd (Fmt.ofTy r.ty) (frndMode rm r.sub.toNat) (elemOf r.ty (s0 v) k)))

/-- Conversions write element k of D (R332). -/
def execFcvt (h : Hdr) (r : CForm) (s : State) : Out :=
  aluWord (.fcvt h r) h s true false r.d false [src r.a false r.ma]
    (fun rm v old =>
      let (x, fl) := fCvt r.dt r.st rm (s0 v % 2 ^ tyWidth r.st)
      (putElem (tyWidth r.dt) r.k.toNat old x, fl))

def execF2i (h : Hdr) (r : CForm) (s : State) : Out :=
  aluWord (.f2i h r) h s true false r.d r.dt.is64 [src r.a false r.ma]
    (fun rm v _ =>
      let (x, fl) := f2i r.dt rm (unpackTy r.st (s0 v % 2 ^ tyWidth r.st))
      (wrap (if r.dt.is64 then 64 else 32) x, fl))

def execI2f (h : Hdr) (r : CForm) (s : State) : Out :=
  aluWord (.i2f h r) h s true false r.d false [src r.a r.st.is64 r.ma]
    (fun rm v old =>
      let (x, fl) := i2f r.dt rm (intOf r.st (s0 v))
      (putElem (tyWidth r.dt) r.k.toNat old x, fl))

def execFclass (h : Hdr) (r : RForm) (s : State) : Out :=
  aluWord (.fclass h r) h s true false r.d false [src r.a false r.ma]
    (fun _ v _ => plain (2 ^ fClass (Fmt.ofTy r.ty) (s0 v % 2 ^ tyWidth r.ty)))

end Sys2Proof.Machine
end

