-- ==== Sys2Proof/Machine/Dual.lean ====
section
/-!
DEFINITION. The dual word (R284 to R286).
-/
namespace Sys2Proof.Machine

/-- The register form a half stands for (R285). -/
def HalfW.form (x : HalfW) : RForm where
  ty := x.ty
  sub := 0
  half := .none
  d := .v x.d
  a := .v (if x.op = .mov then x.s else x.d)
  b := .v x.s
  c := .zero
  ma := .none
  mb := x.m

/-- A half's result from its two sources. -/
def halfValue (x : HalfW) (rm : Rm) (a b old : Nat) : Nat × Flags :=
  let r := HalfW.form x
  let fl (f : Fmt → Rm → Nat → Nat → Elem) : Nat × Flags :=
    floatElems r old (fun k => f (Fmt.ofTy x.ty) rm (elemOf x.ty a k) (elemOf x.ty b k))
  match x.op with
  | .nop => (old, 0)
  | .iadd => plain (intElems x.ty false (· + ·) a b)
  | .isub => plain (intElems x.ty false (· - ·) a b)
  | .imul => plain (intElems x.ty false (· * ·) a b)
  | .imin => plain (intElems x.ty false min a b)
  | .imax => plain (intElems x.ty false max a b)
  | .land => plain (logicFn 0 32 a b)
  | .lor => plain (logicFn 1 32 a b)
  | .lxor => plain (logicFn 2 32 a b)
  | .shl => plain (shiftLeft 32 a (b % 256))
  | .shr => plain (shiftRight (tySigned x.ty) 32 a (b % 256))
  | .mov => plain (if x.ty = .n16 then putHalf .none old a else a)
  | .fadd => fl fAdd
  | .fmul => fl fMul
  | .fmin => fl (fun f _ a b => fMinMax f false a b)
  | .fmax => fl (fun f _ a b => fMinMax f true a b)
  | .fscale => floatElems r old (fun k => fScale (Fmt.ofTy x.ty) rm (elemOf x.ty a k) (sgn 32 b))
  | .fmaxe => plain (maxExp x.ty a b)

/-- One half in the lanes of E: its register writes and its lanes' flags, from the registers at issue. -/
def halfLanes (g : Group) (e : Mask) (x : HalfW) : List Wr × List (Nat × Flags) :=
  if x.op = .nop then ([], [])
  else
    let r := HalfW.form x
    let rs := (maskLanes e).map (fun i =>
      (i, halfValue x (Rm.of g.frm) (g.read [] i (src r.a false .none)) (g.read [] i (src r.b false r.mb)) (g.old i r.d)))
    ((rs.map (fun y => dstWr y.1 r.d false y.2.1)).flatten, rs.map (fun y => (y.1, y.2.2)))

/-- The v registers of a half. -/
def halfRegs (x : HalfW) : List Nat := x.regs.map (·.toNat)

/-- Both halves capture their sources before either writes (R286). -/
def execDualWord (sched : Sched) (h0 h1 : HalfW) (s : State) : Out :=
  issueWord (.dualWord sched h0 h1) sched (halfRegs h0 ++ halfRegs h1) s (fun y =>
    let g := y.g
    let (w0, f0) := halfLanes g g.execMask h0
    let (w1, f1) := halfLanes g g.execMask h1
    .done s ((g.raise (laneFlags g.act f0 ||| laneFlags g.act f1)).wrs (w0 ++ w1)))

end Sys2Proof.Machine
end

