-- ==== Sys2Proof/Machine/Code.lean ====
section
/-!
DEFINITION. Code lines and program counters (R96, R258 to R262).
-/
namespace Sys2Proof.Machine

/-- A fold from the left over numbers. Matching on what it has so far makes an evaluator work that out at each step. -/
def foldNow (f : Nat → Nat → Nat) : Nat → List Nat → Nat
  | c, [] => c
  | 0, k :: r => foldNow f (f 0 k) r
  | c + 1, k :: r => foldNow f (f (c + 1) k) r

/-- One byte into the CRC of R96: polynomial 0x07, most significant bit first. -/
def crc8Byte (c b : Nat) : Nat :=
  foldNow (fun x _ => if bit x 7 then (x * 2) % 256 ^^^ 0x07 else x * 2 % 256) (c ^^^ b) (upTo 8)

/-- CRC-8 of n bytes of a little-endian number, from initial value 0xFF, lowest byte first. -/
def crc8 (n x : Nat) : Nat := foldNow (fun c k => crc8Byte c (bits x (8 * k) 8)) 0xFF (upTo n)

/-- The trailer's fields (R259). -/
def lineCount (x : Line) : Nat := bits x.toNat (960 + 8) 4
def lineCrc (x : Line) : Nat := bits x.toNat 960 8

/-- The check of a code line (R260). -/
def lineOk (x : Line) : Bool :=
  lineCrc x == crc8 120 x.toNat && 1 ≤ lineCount x && lineCount x ≤ 12 && bits x.toNat (960 + 12) 52 == 0

/-- Word k of a line: 80 bits (R258). -/
def lineWord (x : Line) (k : Nat) : BitVec 80 := x.extractLsb' (80 * k) 80

/-- A line of one word at a slot's place, with a trailer that passes the check. -/
def codeLine (ws : List (BitVec 80)) : Line :=
  let body := ws.zipIdx.foldl (fun a w => a + w.1.toNat * 2 ^ (80 * w.2)) 0
  bv 1024 (body + (crc8 120 body + ws.length * 256) * 2 ^ 960)

/-- The slot of a program counter, and whether its form allows a fetch (R261). -/
def pcSlot (pc : DWord) : Nat := bits pc.toNat 0 4
def pcFormOk (pc : DWord) : Bool := bits pc.toNat 4 3 == 0 && pcSlot pc < 12
def pcLine (pc : DWord) : Nat := pc.toNat / 128 * 128

/-- Where execution continues after a slot of a line with the given count (R261). -/
def nextPc (pc : DWord) (count : Nat) : DWord :=
  if pcSlot pc + 1 < count then pc + 1 else bv 64 (pcLine pc + 128)

/-- A code line comes into a core's instruction cache of 192 KiB (R11); a full one gives up another line, which is a free
choice. -/
def State.putCode (s : State) (c ctx va : Nat) (x : Line) : State :=
  let k := lineKey ctx va
  let m := (s.core c).icache.del k
  if m.length < Config.icacheLines then s.modCore c (fun y => { y with icache := m.put k x })
  else
    let v := ((m[(Config.freeWord s.fresh).toNat % m.length]?).map (·.1)).getD k
    { s with fresh := s.fresh + 1 }.modCore c (fun y => { y with icache := (m.del v).put k x })

/-- A relative target: slots count linearly, twelve to a line; none outside the owner's space (R262). -/
def branchTo (pc : DWord) (d : Int) : Option DWord :=
  let lin : Int := (bits pc.toNat 7 45 * 12 + pcSlot pc : Nat)
  let n := lin + d
  if n < 0 || 12 * 2 ^ 45 ≤ n then none
  else some (bv 64 (pc.toNat / 2 ^ 52 * 2 ^ 52 + n.toNat / 12 * 128 + n.toNat % 12))

end Sys2Proof.Machine
end

