-- ==== Sys2Proof/Machine/Control.lean ====
section
/-!
DEFINITION. Control: branches, divergence, calls, the end of threads, traps by instruction (R34 to R36, R301,
R311, R314, R315, R317, R319, R327, R328, R349, R366, R377, R398, R404).
-/
namespace Sys2Proof.Machine

/-! ## Uniform branches -/

/-- The threads of A whose guard holds. -/
def Group.taken (g : Group) (x : Guard) : Mask := g.act &&& g.guard x

/-- A branch whose condition, and where the target is per thread its value, agree in the threads of A; taken,
not taken, or `DIVERGENT_BRANCH` with the guard ballot (R34, R301). -/
def branchBody (s : State) (h : Hdr) (same : Group → Bool) (go : Group → Group × DWord) (x : Issuer) : Issue :=
  let g := x.g
  let t := g.taken h.guard
  if g.act = 0 then .done s g
  else if (t != 0 && t != g.act) || !same g then .trap .divergentBranch (bv 64 t.toNat)
  else if t = 0 then .done s g
  else .jump s (go g).1 (go g).2

def execBra (h : Hdr) (t : Word) (s : State) : Out :=
  issueWord (.bra h t) h.sched [] s (fun x => match branchTo x.g.pc t.toInt with
    | none => .trap .illegal x.g.ir
    | some pc => branchBody s h (fun _ => true) (fun g => (g, pc)) x)

/-- A target pair has one value among the threads of A (R317). -/
def sameTarget (a : Opd) (g : Group) : Bool := match maskLanes g.act with
  | [] => true
  | i :: r => r.all (fun j => g.read [] j (src a true .none) == g.read [] i (src a true .none))

/-- The target in the lowest thread of A. -/
def targetOf (a : Opd) (g : Group) : DWord := match maskLanes g.act with
  | [] => 0
  | i :: _ => bv 64 (g.read [] i (src a true .none))

/-- An indirect branch (R317, R377). -/
def indirect (i : Instr) (h : Hdr) (a : Opd) (s : State) : Out :=
  issueWord i h.sched (src a true .none).regs s (branchBody s h (sameTarget a) (fun g => (g, targetOf a g)))

def execBrx (h : Hdr) (a : Opd) (s : State) : Out := indirect (.brx h a) h a s

def execRet (h : Hdr) (a : Opd) (s : State) : Out := indirect (.ret h a) h a s

/-- `CALL` writes the fall-through program counter when it is taken (R319). -/
def execCall (h : Hdr) (d : Opd) (t : Word) (s : State) : Out :=
  issueWord (.call h d t) h.sched [] s (fun x => match branchTo x.g.pc t.toInt with
    | none => .trap .illegal x.g.ir
    | some pc => branchBody s h (fun _ => true) (fun g => (g.wrs (dstWr 0 d true g.npc.toNat), pc)) x)

/-! ## Divergence (R35, R36) -/

/-- Entries of the stack: 16, or 8 in trap mode (R35, R196). -/
def Group.divMax (g : Group) : Nat := if g.inTrap then 8 else 16

/-- `DoJoin` of R35 at a slot; none where the top entry names another. -/
def Group.doJoin (g : Group) (at_ next : DWord) : Option (Group × DWord) :=
  match g.div with
  | [] => none
  | e :: r =>
    if e.j != at_ then none
    else if e.p != 0 then some ({ g with act := e.p, div := { e with p := 0 } :: r }, e.pp)
    else some ({ g with act := e.m &&& g.live, div := r }, next)

/-- The opening form of `BRD`. -/
def brdOpen (s : State) (g : Group) (c : Mask) (t j : DWord) : Issue :=
  if g.divMax ≤ g.div.length then .trap .divOverflow 0
  else
    let taken := g.act &&& c
    let rest := g.act &&& ~~~c
    if taken != 0 then
      .jump s { g with act := taken, div := { j := j, m := g.act, p := rest, pp := g.npc } :: g.div } t
    else .done s { g with act := rest, div := { j := j, m := g.act, p := 0, pp := g.npc } :: g.div }

/-- The exit form: leavers wait at J; when none stays, the group joins there. `next` is where the slot after J
lies. -/
def brdExit (s : State) (g : Group) (c : Mask) (j : DWord) (next : DWord) : Issue :=
  match g.div with
  | [] => .trap .divMismatch j
  | e :: _ =>
    if e.j != j then .trap .divMismatch j
    else
      let a := g.act &&& ~~~c
      if a != 0 then .done s { g with act := a }
      else match ({ g with act := 0 } : Group).doJoin j next with
        | some (g', pc) => .jump s g' pc
        | none => .trap .divMismatch j

/-- Does the exit form end its region, so that execution goes on after the slot at J? -/
def Group.leaves (g : Group) (c : Mask) (j : DWord) : Bool := match g.div with
  | e :: _ => e.j == j && g.act &&& ~~~c == 0 && e.p == 0
  | [] => false

/-- Reading a code line at its owner into the instruction cache, when it is not there (R263). -/
def fetchCode (s : State) (c ctx va : Nat) : Ans Line :=
  match (s.core c).icache.find (lineKey ctx va) with
  | some l => .ok s l
  | none => match s.owner va with
    | .bad | .far => .far s
    | .die _ | .host _ => (unitRead s ctx va .fetch).andThen fun s x => .ok (s.putCode c ctx va x.1.data) x.1.data

/-- The slot after J, whose line's `count` says where it lies (R261): a line that is not in the instruction cache is fetched, as it
is for the slot of a program counter (R260, R263). -/
def afterSlot (s : State) (x : Issuer) (j : DWord) (k : State → Issuer → DWord → Issue) : Issue :=
  let trap (s : State) (c : Cause) (info : DWord) : Issue := .gone (s.takeTrap x.p { cause := c, info := info, pc := x.g.pc })
  if s.owner (pcLine j) = .bad then trap s .badOwner j
  else match fetchCode s (placeCore x.p) x.g.ctx (pcLine j) with
    | .ok s l => if lineOk l then k s { x with g := x.now s } (nextPc j (lineCount l)) else trap s .lineIntegrity (bv 64 (pcLine j))
    | .poisoned s | .far s => trap s .poisoned (bv 64 (pcLine j))
    | .fault s d => .gone (s.parkFetch x.p d x.g.ctx)
    | .wait s w => .wait (match w with
      | some (d, n) => s.await (.fetch x.p) d x.g.ctx (some n)
      | none => s)

def execBrd (h : Hdr) (t : Word) (j : Half) (s : State) : Out :=
  issueWord (.brd h t j) h.sched [] s (fun x =>
    match branchTo x.g.pc t.toInt, branchTo x.g.pc j.toInt with
    | some tp, some jp =>
      let c := x.g.guard h.guard
      if t.toInt = j.toInt then
        if x.g.leaves c jp then afterSlot s x jp (fun s x next => brdExit s x.g c jp next)
        else brdExit s x.g c jp jp
      else brdOpen s x.g c tp jp
    | _, _ => .trap .illegal x.g.ir)

def execJoin (h : Hdr) (s : State) : Out :=
  issueWord (.join h) h.sched [] s (fun x =>
    match x.g.doJoin x.g.pc x.g.npc with
    | some (g, pc) => .jump s g pc
    | none => .trap .divMismatch x.g.pc)

/-! ## The end of threads (R31, R32, R327) -/

/-- Ending the threads of a mask: they leave L, A and the stack; with a live thread in their quad they become
helpers, and the helpers of emptied quads retire. -/
def Group.endThreads (g : Group) (m : Mask) : Group :=
  let l := g.live &&& ~~~m
  { g with
    live := l
    act := g.act &&& ~~~m
    help := (g.help ||| (m &&& g.live)) &&& maskQuads l
    div := g.div.map (fun e => { e with m := e.m &&& ~~~m, p := e.p &&& ~~~m }) }

/-- After threads have ended: a walker's open records pass on; a group without a live thread retires, and a
stream ends with state 2 (R181, R328, R244). -/
def endBody (s : State) (p : Nat) (g : Group) (m : Mask) (next : DWord) (x : Sched) (before : Nat) : Issue :=
  let g' := g.endThreads m
  let s := if g.kind = .walker then s.handOn (fun i => m.getLsbD i) p else s
  if g'.live = 0 then
    let s := if g.kind = .reel then s.modCore (placeCore p) (fun y => { y with reelEnd := 2 }) else s
    .gone (s.setGrp p { g'.issued x before next with st := .retiring })
  else .done s g'

def execExit (h : Hdr) (s : State) : Out :=
  issueWord (.exit h) h.sched [] s (fun x =>
    if x.g.inTrap then .trap .illegal x.g.ir
    else endBody s x.p x.g (x.g.taken h.guard) x.g.npc h.sched x.g.lpend.length)

/-! ## Words that act on the group alone -/

def execNop (h : Hdr) (s : State) : Out := issueWord (.nop h) h.sched [] s (fun x => .done s x.g)

/-- `YIELD` acts as `YLD` does (R59, R404). -/
def execYield (h : Hdr) (s : State) : Out :=
  issueWord (.yield h) { h.sched with yld := true } [] s (fun x => .done s x.g)

def execTrap (h : Hdr) (imm : Word) (s : State) : Out :=
  issueWord (.trap h imm) h.sched [] s (fun _ => .trapNext .software (bv 64 imm.toNat))

def execBkpt (h : Hdr) (s : State) : Out :=
  issueWord (.bkpt h) h.sched [] s (fun _ => .trapNext .breakpoint 0)

end Sys2Proof.Machine
end

