-- ==== Sys2Proof/Machine/Window.lean ====
section
/-!
DEFINITION. The shared register window (R3, R50, R190, R248 to R252, R254, R257).
-/
namespace Sys2Proof.Machine

/-- A counter add of a unit sets out for its home (R170, R452). -/
def State.sendAdd (s : State) (ctx : Nat) (va : DWord) (amount : DWord) (die t : Nat) (port : Option Nat) : State :=
  { s with
    seq := s.seq + 1
    adds := s.adds ++ [{
      id := s.seq, ctx := ctx, va := va, amount := amount, token := false, pre := .plain, die := die, t := t, port := port }] }

/-- The error token as an amount (R64, R169). -/
def tokenAmount : DWord := bv 64 (2 ^ 63)

/-- The settings of a queue in force: those of its last enabling while it is enabled (R50). -/
def QDesc.sub (x : QDesc) : DWord := if x.en then x.subctrNow else x.subctr
def QDesc.base (x : QDesc) : Nat := if x.en then x.ringNow.toNat else x.ring.toNat
def QDesc.size (x : QDesc) : Nat := min (if x.en then x.lsizeNow else x.lsize) 26

/-- A write's bytes over the bytes that stand (offset 0 to 7 of an aligned 8-byte word). -/
def mergeBytes (old x : DWord) (mask : Byte) : DWord :=
  (upTo 8).foldl (fun a k =>
    if mask.getLsbD k then (a &&& ~~~(0xFF#64 <<< (8 * k))) ||| (x &&& (0xFF#64 <<< (8 * k))) else a) old

/-! ## Domain, bindings, semaphores, power -/

/-- The domain register's word (R250). -/
def Domain.word (x : Domain) : DWord := bv 64 (x.set.toNat * 2 ^ 63 + x.last * 2 ^ 16 + x.module)

/-- A write of the domain register: one that breaks the bounds changes nothing, and once in force it stands
until a module reset (R250). -/
def State.writeDomain (s : State) (v : DWord) : State :=
  let last := bits v.toNat 16 11
  let m := bits v.toNat 0 11
  if s.domain.set then s
  else if bit v.toNat 63 then
    if m ≤ last && last ≤ 1535 then { s with domain := { set := true, last := last, module := m } } else s
  else { s with domain := { set := false, last := last, module := m } }

/-- Entry v of port p of the binding table (R250). -/
def State.writeBinding (s : State) (k : Nat) (x : Word) : State :=
  { s with vfs := s.vfs.setD k (x &&& 0x800003FF) 0 }

/-- A semaphore as a port reads it: bit 0 says whether the port holds it now (R252). -/
def semWord (port holder : Nat) : Nat := 4 + (holder - 1) * 2 + (if holder = port + 1 then 1 else 0)

/-- A read acquires a free semaphore. Semaphores list their holder plus 1. -/
def State.readSem (s : State) (port n : Nat) : State :=
  let h := s.sems.getD n 0
  let h' := if h = 0 then port + 1 else h
  { s with sems := s.sems.setD n h' 0, portData := bv 64 (semWord port h') }

/-- A write of 1 by the holder releases; any other port's is ignored (R252). -/
def State.freeSem (s : State) (port n : Nat) : State :=
  if s.sems.getD n 0 = port + 1 then { s with sems := s.sems.del n } else s

/-- The power cap is clamped (R257). -/
def State.writeCap (s : State) (v : Nat) : State := { s with cap := max 800 (min 2700 v) }

/-! ## Queue descriptors (R50) -/

/-- Dword k of a queue's descriptor. -/
def QDesc.dword (x : QDesc) (k : Nat) : DWord := match k with
  | 7 => x.subctr
  | 6 => x.ring
  | 5 => x.taken
  | 4 => bv 64 (x.wdog.toNat * 2 ^ 48 + x.ctx * 2 ^ 38 + x.lsize * 2 ^ 33 + x.frozen.toNat * 2 ^ 32
      + x.fcause.toNat * 2 ^ 24 + x.en.toNat)
  | 3 => x.fseq
  | _ => 0

/-- Writing dword k: the fields its bytes cover; 1 to `frozen` unfreezes. Writing 1 to `en` while it is 0 enables the queue with
the settings of that moment and asks for the submit counter's value, which `taken` then takes before any record is taken; while
it is 1 already, `taken` stands (notes/assumptions/21.md). Non-zero bits 6:0 written to `ring` are dropped (the same entry). -/
def State.writeQueue (s : State) (q k : Nat) (v : DWord) (mask : Byte) : State :=
  let x := s.queue q
  match k with
  | 7 => s.setQueue q { x with subctr := mergeBytes x.subctr v mask }
  | 6 => s.setQueue q { x with ring := mergeBytes x.ring v mask &&& ~~~0x7F }
  | 4 =>
    let w := (mergeBytes (x.dword 4) v mask).toNat
    let thaw := mask.getLsbD 4 && bit v.toNat 32
    let en := bit w 0
    let rise := en && !x.en
    let y : QDesc := { x with
      wdog := bv 16 (bits w 48 16)
      ctx := bits w 38 10
      lsize := bits w 33 5
      frozen := x.frozen && !thaw
      en := en
      enabling := en && (x.enabling || rise) }
    if rise then
      (s.setQueue q { y with subctrNow := y.subctr, ringNow := y.ring, lsizeNow := y.lsize, epoch := y.epoch + 1 }).first
        [.queueEnable q]
    else s.setQueue q y
  | _ => s

/-- A doorbell of 8 bytes adds to the queue's submit counter; any other size is ignored (R249). The add carries the logical time
of the writer: that of a core for its `PST`, none for a host. -/
def State.ringDoorbell (s : State) (q : Nat) (v : DWord) (mask : Byte) (port t : Nat) : State :=
  if mask = 0xFF then s.sendAdd (s.queue q).ctx (s.queue q).sub v port t (some port) else s

/-! ## Die registers (R248, R251) -/

/-- Writing a die register; a reply needs bits 25:0 (R190). -/
def State.writeDieReg (s : State) (d off : Nat) (v : DWord) (mask : Byte) : State :=
  match off with
  | 0x000 => s.modDie d (fun x => { x with ctxtab := mergeBytes x.ctxtab v mask })
  | 0x008 => s.modDie d (fun x => { x with walkentry := mergeBytes x.walkentry v mask })
  | 0x010 => s.modDie d (fun x => { x with trapentry := mergeBytes x.trapentry v mask })
  | 0x018 => s.modDie d (fun x => { x with savetab := mergeBytes x.savetab v mask })
  | 0x020 =>
    if mask &&& 0x0F = 0x0F then s.first [.replay d (bits v.toNat 16 10) (bv 16 v.toNat)] else s
  | _ => s

/-- The counts of a die in the order of their offsets from 0x040. -/
def Counts.list (x : Counts) : List Nat :=
  [x.dirrecov, x.stalerep, x.linkdrop, x.ceReg, x.ceStash, x.ceL1, x.ceIcache, x.ceL2, x.ceDir, x.ceTlb,
    x.memPoison, x.cmpWb, x.cmpSect, x.cmpExp, x.ctrdrop]

/-- Reading a die register. -/
def State.readDieReg (s : State) (d off : Nat) : DWord :=
  let x := s.die d
  match off with
  | 0x000 => x.ctxtab
  | 0x008 => x.walkentry
  | 0x010 => x.trapentry
  | 0x018 => x.savetab
  | _ =>
    if 0x040 ≤ off && off < 0x0B8 then bv 64 (x.cnt.list.getD ((off - 0x040) / 8) 0)
    else if 0x100 ≤ off && off < 0x100 + 8 * Config.cores then
      bv 64 (s.core (d * Config.cores + (off - 0x100) / 8)).injrefused
    else 0

/-! ## The window -/

/-- A write of some bytes of the 8-byte word at an offset, by a port or by `PST` as port 0, at a logical time. -/
def State.windowWrite (s : State) (port off : Nat) (v : DWord) (mask : Byte) (t : Nat) : State :=
  if off = 0x008 then s.writeDomain (mergeBytes s.domain.word v mask)
  else if 0x040 ≤ off && off < 0x080 then
    let half (s : State) (k : Nat) : State :=
      if mask.getLsbD (4 * k) && bit v.toNat (32 * k) then s.freeSem port ((off - 0x040) / 4 + k) else s
    half (half s 0) 1
  else if off = 0x100 then
    if mask &&& 3 = 0 then s else s.writeCap (bits (mergeBytes (bv 64 s.cap) v mask).toNat 0 12)
  else if 0x200 ≤ off && off < 0x300 then
    let k := (off - 0x200) / 4
    let old : DWord := pair (s.vfs.getD k 0) (s.vfs.getD (k + 1) 0)
    let x := mergeBytes old v mask
    (s.writeBinding k (lowW x)).writeBinding (k + 1) (highW x)
  else if 0x1000 ≤ off && off < 0x2000 then s.writeQueue ((off - 0x1000) / 64) (off % 64 / 8) v mask
  else if 0x2000 ≤ off && off < 0x2200 then s.ringDoorbell ((off - 0x2000) / 8) v mask port t
  else if 0x3000 ≤ off && off < 0x3800 then s.writeDieReg 0 (off - 0x3000) v mask
  else if 0x3800 ≤ off && off < 0x4000 then s.writeDieReg 1 (off - 0x3800) v mask
  else s

/-- A read of the 8-byte word at an offset, but for semaphores and doorbells. -/
def State.windowRead (s : State) (off : Nat) : DWord :=
  if off = 0x000 then s.status.word
  else if off = 0x008 then s.domain.word
  else if off = 0x100 then bv 64 (s.thr.toNat * 2 ^ 15 + s.cap)
  else if off = 0x108 then bv 64 (s.tdie.toNat * 2 ^ 16 + s.tin.toNat)
  else if 0x200 ≤ off && off < 0x300 then
    pair (s.vfs.getD ((off - 0x200) / 4) 0) (s.vfs.getD ((off - 0x200) / 4 + 1) 0)
  else if 0x1000 ≤ off && off < 0x2000 then (s.queue ((off - 0x1000) / 64)).dword (off % 64 / 8)
  else if 0x3000 ≤ off && off < 0x3800 then s.readDieReg 0 (off - 0x3000)
  else if 0x3800 ≤ off && off < 0x4000 then s.readDieReg 1 (off - 0x3800)
  else 0

/-- The bytes of an access of a size at an offset within its 8-byte word; none where it crosses the word. -/
def byteEnable (off size : Nat) : Byte := if off % 8 + size ≤ 8 then bv 8 ((2 ^ size - 1) * 2 ^ (off % 8)) else 0

/-- A write of `size` bytes at an offset. -/
def State.windowStore (s : State) (port off size : Nat) (v : DWord) : State :=
  s.windowWrite port (off / 8 * 8) (v <<< (8 * (off % 8))) (byteEnable off size) 0

end Sys2Proof.Machine
end

