-- ==== Sys2Proof/Machine/Walk.lean ====
section
/-!
DEFINITION. Page-table entries, the ending of walk records, shoot-downs, physical accesses (R175 to R187,
R343, R369, R370, R394, R395).
-/
namespace Sys2Proof.Machine

/-! ## Page-table entries (R176 to R178, R184) -/

def pteV (x : Nat) : Bool := bit x 0
def pteLeaf (x : Nat) : Bool := bit x 2
def pteCtg (x : Nat) : Bool := bit x 3
def pteAwf (x : Nat) : Bool := bit x 55
def pteAddr (x : Nat) : Nat := bits x 12 40 * 2 ^ 12

/-- A malformed entry (R178). R178 forbids leaves at levels 3 and 4 and a table at level 1; a leaf said to be of level 0, or of 5 to
7, is taken as malformed too (notes/assumptions/31.md, DESIGN CHOICE: no such level exists). -/
def pteBad (x level : Nat) (host : Bool) (va : Nat) : Bool :=
  let kind := bits x 58 2
  let cmp := bit x 57
  let ctr := bit x 56
  let leaf := pteLeaf x
  let a := pteAddr x
  bits x 60 4 != 0 || bits x 52 2 != 0 || bits x 4 5 != 0 || bit x 1 || 2 ≤ kind
  || (leaf && (3 ≤ level || level == 0)) || (!leaf && level == 1)
  || ((cmp || ctr) && kind == 1) || (ctr && cmp) || (bit x 54 && ctr)
  || (!leaf && !physOk a)
  || (leaf && host && (cmp || ctr))
  || (leaf && bits a 12 4 != 0)
  || (leaf && !pteAwf x && (
      (!host && !physOk a) || (level == 2 && bits a 16 9 != 0)
      || (pteCtg x && level == 1 && bits a 16 5 != bits va 16 5)
      || (pteCtg x && level == 2 && bits a 25 5 != bits va 25 5)))

/-- The permissions of a leaf (R117, R119, R177). -/
def ptePerm (x : Nat) (host : Bool) : Perm where
  rd := bit x 9
  wr := bit x 10
  ex := bit x 11
  cow := bit x 54
  awf := pteAwf x
  managed := host || bits x 58 2 == 1
  ctr := bit x 56
  cmp := bit x 57
  fbi := bits x 16 36

/-- log2 of the page's bytes (R176). -/
def pageSize (x level : Nat) : Nat := match level with
  | 1 => if pteCtg x then 21 else 16
  | _ => if pteCtg x then 30 else 25

/-- The cause with which an entry ends a record, 0 for a fill (R184). -/
def pteCause (x level : Nat) (host : Bool) (va : Nat) (acc : AccK) : Nat :=
  let p := ptePerm x host
  if !pteV x then 1
  else if pteBad x level host va || !pteLeaf x then 2
  else match acc with
    | .load | .ntest | .engRead | .prefetch => if p.rd || p.awf then 0 else 3
    | .store | .atomic | .engWrite =>
      if p.cow then 6 else if p.awf then 7 else if p.wr then 0 else 4
    | .fetch => if p.awf then 7 else if p.ex then 0 else 5

/-! ## Answering requests (R181, R188, R196) -/

/-- A re-read of a parked `CWAIT` that meets a fault waits for a reply; for a group in trap mode the launch fails (R196). -/
def State.faultCwait (s : State) (p d ctx : Nat) : State :=
  match s.grp p with
  | some g => if g.inTrap then s.failLaunch g.queue g.seqNo 0x03 else s.await (.cwait p) d ctx none
  | none => s

/-- A fault that ends a unit's wait on a record: the unit waits for a reply; a tile copy is never parked (R112, R236). -/
def State.faultEngine (s : State) (d e k ctx : Nat) : State :=
  match (s.die d).engine e with
  | r :: _ =>
    if r.isTile && r.stage = 0 then (s.setEngHead d e { r with met := true }).first [.engineCopy d e]
    else s.await (.engine d e) k ctx none
  | [] => s.await (.engine d e) k ctx none

/-- A fault answer to one waiting request: groups park, units wait for a reply; an add to a fault counter is dropped, and counted at
the die of the unit that makes it (R452); a copy that is recalled goes without its bytes (notes/assumptions/19.md). -/
def State.answerFault (s : State) (w : Wait) (d va : Nat) : State :=
  let k := s.park d w.ctx
  match w.req with
  | .tag p t =>
    (s.modGrp p (fun g => match g.op t with
      | some o => g.setOp t (some { o with faults := o.faults ++ [(va / 65536, k)] })
      | none => g)).first [.tagRelease p t none]
  | .sq p => (match s.grp p with
    | some g => (match g.sq with
      | e :: _ => if e.isBack then s.loseBack p g e else s.parkSq p d w.ctx
      | [] => s)
    | none => s)
  | .tst p => (s.modGrp p (fun g => { g with tst := g.tst.map (·.park k) })).parkGroup p
  | .recall c k => s.modCore c (fun x => x.dropCopy k)
  | .word p => s.parkWord p d w.ctx
  | .fetch p => s.parkFetch p d w.ctx
  | .add n =>
    match s.adds.find? (fun a => a.id == n) with
    | some { pre := .fault .., die := k, .. } =>
      { (s.cnt k (fun c => { c with ctrdrop := sat64 (c.ctrdrop + 1) })) with adds := s.adds.filter (fun a => a.id != n) }
    | _ => s.await w.req d w.ctx none
  | .cwait p => s.faultCwait p d w.ctx
  | .engine k e => s.faultEngine k e d w.ctx
  | .splicer _ _ | .coiler _ _ | .submit _ | .watch _ _ | .log _ => s.await w.req d w.ctx none

/-- The requests that wait on a record. -/
def State.waitsOn (s : State) (d n : Nat) : List Wait := s.waits.filter (fun w => decide (w.die = d ∧ w.walk = some n))

/-- A record ends: it is free, and its requests wait on it no longer. -/
def State.freeWalk (s : State) (d n : Nat) : State :=
  { (s.modDie d (fun x => { x with walks := x.walks.del n })) with
    waits := s.waits.filter (fun w => !decide (w.die = d ∧ w.walk = some n)) }

/-- Is a request one of an add to a fault counter? -/
def State.isFaultAdd (s : State) (w : Wait) : Bool := match w.req with
  | .add n => s.adds.any (fun a => a.id == n && (match a.pre with
    | .fault _ _ => true
    | _ => false))
  | _ => false

/-- Ending a record with a fault: the fault recorded, every waiting request answered (R185). A fault that only an add to a fault
counter meets is not recorded (R452). -/
def State.endFault (s : State) (d n : Nat) (x : Walk) (cause level pte : Nat) : State :=
  let ws := s.waitsOn d n
  let s1 := s.freeWalk d n
  let s2 := if !ws.isEmpty && ws.all s.isFaultAdd then s1
    else s1.recordFault d x.va x.ctx x.acc x.host x.slice cause level pte
  ws.foldl (fun s w => s.answerFault w d x.va) s2

/-- The set of a translation's entry (R180). -/
def TlbE.set (e : TlbE) : Nat := Config.tlbSet e.ctx e.page e.size % Config.tlbSets

/-- An entry comes into a slice's TLB: it takes the place of its like, or, in a set of 4 that is full, of one that `pick` names. -/
def tlbPut (es : List TlbE) (e : TlbE) (pick : Nat) : List TlbE :=
  let others := es.filter (fun z => !decide (z.ctx = e.ctx ∧ z.size = e.size ∧ z.page = e.page))
  let mates := others.filter (fun z => z.set == e.set)
  if mates.length < Config.tlbWays then e :: others
  else match mates[pick % mates.length]? with
    | some v => e :: others.erase v
    | none => e :: others

/-- Filling a translation (R180). Which of a full set's entries goes is a free choice (notes/assumptions/28.md). -/
def State.fillTlb (s : State) (d : Nat) (x : Walk) (level pte : Nat) : State :=
  let k := pageSize pte level
  let perm := ptePerm pte x.host
  let e : TlbE := {
    ctx := x.ctx, page := x.va / 2 ^ k * 2 ^ k, size := k
    frame := if perm.awf then 0 else pteAddr pte / 2 ^ k * 2 ^ k, perm := perm }
  { s with fresh := s.fresh + 1 }.modDie d (fun y =>
    { y with tlb := y.tlb.put x.slice (tlbPut (y.tlb.getD x.slice []) e (Config.freeWord s.fresh).toNat) })

/-- `TLBF` on one record (R184). -/
def State.tlbfill (s : State) (d n level pte : Nat) : State :=
  match (s.die d).walks.find n with
  | none => s
  | some x =>
    if x.stale then s.freeWalk d n
    else
      let c := pteCause pte level x.host x.va x.acc
      if c = 0 then (s.fillTlb d x level pte).freeWalk d n else s.endFault d n x c level pte

/-- `FREC` on one record (R185). -/
def State.frecord (s : State) (d n cause level pte : Nat) : State :=
  match (s.die d).walks.find n with
  | none => s
  | some x => if x.stale then s.freeWalk d n else s.endFault d n x cause level pte

/-- The lanes of E hand their records over in ascending order. -/
def recordLanes (g : Group) (e : Mask) (r : Regs) (f : State → Nat → Nat → Nat → Nat → State) (s : State) : State :=
  (maskLanes e).foldl (fun s i => f s i (bits (g.read [] i (src r.a false .none)) 0 11)
    (bits (g.read [] i (src r.c false .none)) 0 3) (g.read [] i (src r.b true .none))) s

def execTlbf (h : Hdr) (r : Regs) (s : State) : Out :=
  issueWord (.tlbf h r) h.sched (opdRegs r.a 1 ++ opdRegs r.b 2 ++ opdRegs r.c 1) s (fun x =>
    let d := placeDie x.p
    let t := recordLanes x.g (x.g.exec h.guard) r (fun s _ n level pte => s.tlbfill d n level pte) s
    .done t (x.now t))

def execFrec (h : Hdr) (r : Regs) (s : State) : Out :=
  issueWord (.frec h r) h.sched (opdRegs r.d 1 ++ opdRegs r.a 1 ++ opdRegs r.b 2 ++ opdRegs r.c 1) s (fun x =>
    let d := placeDie x.p
    let e := x.g.exec h.guard
    let cause (i : Nat) : Nat := bits (x.g.read [] i (src r.d false .none)) 0 8
    if (maskLanes e).any (fun i => cause i = 0 || 8 < cause i) then .trap .illegal x.g.ir
    else
      let t := recordLanes x.g e r (fun s i n level pte => s.frecord d n (cause i) level pte) s
      .done t (x.now t))

/-! ## Shoot-downs (R187, R395) -/

/-- Is an address in a range of an owner's space; a length of 0 names all of it? -/
def inRange (start len va : Nat) : Bool :=
  va / 2 ^ 52 == start / 2 ^ 52 && (len == 0 || (start ≤ va && va < start + len))

/-- The keys of a context's lines in a range. -/
def keysIn {α : Type} (m : SMap α) (ctx start len : Nat) : List Nat :=
  (m.filter (fun x => keyCtx x.1 == ctx && inRange start len (keyVa x.1))).map (·.1)

/-- The owner drops translations and the descriptor, of which it sees the `en` of now (R40), takes the permission bits from its
lines, and marks open records stale. -/
def Die.shootdown (x : Die) (now : Desc) (ctx start len : Nat) : Die :=
  { x.see ctx now.en with
    tlb := x.tlb.map (fun y => (y.1, y.2.filter (fun e =>
      !(e.ctx == ctx && (inRange start len e.page || (len != 0 && inRange e.page (2 ^ e.size) start))))))
    desc := x.desc.del ctx
    l2 := x.l2.map (fun y => (y.1, if keyCtx y.1 == ctx && inRange start len (keyVa y.1) then
      { y.2 with perm := { y.2.perm with rd := false, wr := false, ex := false, awf := false } } else y.2))
    walks := x.walks.map (fun y => (y.1, if y.2.ctx == ctx && inRange start len (y.2.va / 65536 * 65536) then
      { y.2 with stale := true } else y.2)) }

/-- Cores give back listed copies (core and key); where a walk has to come first, the request waits. -/
def recallCopies : List (Nat × Nat) → State → Ans Unit
  | [], s => .ok s ()
  | (c, k) :: r, s => (recallCopy s c (keyCtx k) (keyVa k)).andThen fun s _ => recallCopies r s

/-- Owned copies of a range whose home is recovering the line go back to it (R150). -/
def State.ownedHome (s : State) (ctx start len : Nat) : State :=
  s.cores.foldl (fun s y => (y.2.l1.filter (fun z => z.2.st == .o && keyCtx z.1 == ctx && inRange start len (keyVa z.1))).foldl
    (fun s z => (evictCopy s y.1 ctx (keyVa z.1)).state) s) s

/-- Every copy of a range in every cache: pushes on their way arrive first (R143), owned data goes home, the rest is dropped,
home lines leave L2 but for those in recovery. -/
def State.recallRange (s : State) (d ctx start len : Nat) : State :=
  let mine (x : Push) : Bool := x.ctx == ctx && inRange start len x.va
  let s := (s.pushes.filter mine).foldl State.receive { s with pushes := s.pushes.filter (fun x => !mine x) }
  let s := (keysIn (s.die d).l2 ctx start len).foldl (fun s k =>
    match (s.die d).l2.find k with
    | some h =>
      if h.unknown then s
      else
        let (s, h) := match h.owner with
          | some c => s.recallLine d ctx (keyVa k) h c true
          | none => (s, h)
        s.homeOut d ctx (keyVa k) h
    | none => s) s
  let s := s.ownedHome ctx start len
  { s with cores := s.cores.map (fun y => (y.1, { y.2 with
      l1 := y.2.l1.filter (fun z => !(keyCtx z.1 == ctx && inRange start len (keyVa z.1)))
      icache := y.2.icache.filter (fun z => !(keyCtx z.1 == ctx && inRange start len (keyVa z.1))) })) }

/-- A shoot-down at its owner (R187). -/
def shootdown (s : State) (d ctx start len : Nat) (rc : Bool) : Ans Unit :=
  let fin (s : State) : State :=
    (s.notePoison d (s.descAddr d ctx) 64).modDie d (fun x =>
      x.shootdown (bv 512 (s.phys d (s.descAddr d ctx) 64)) ctx start len)
  if rc then
    let dirty := (s.cores.map (fun y => (y.2.l1.filter (fun z => z.2.st == .managed && z.2.mask != 0
      && keyCtx z.1 == ctx && inRange start len (keyVa z.1))).map (fun z => (y.1, z.1)))).flatten
    (recallCopies dirty s).andThen fun s _ => .ok (fin (s.recallRange d ctx start len)) ()
  else .ok (fin s) ()

def execTlbi (h : Hdr) (rc : Bool) (r : Regs) (s : State) : Out :=
  issueWord (.tlbi h rc r) h.sched [] s (fun x =>
    let a := x.g.read [] 0 (src r.a true .none)
    let n := x.g.read [] 0 (src r.b false .none)
    if a % 65536 != 0 || n % 65536 != 0 then .trap .illegal x.g.ir
    else if s.owner a = .bad || 2 ^ 52 < a % 2 ^ 52 + n then .trap .badOwner (bv 64 a)
    else issueTagged s x (.tlbi h rc r) h.sched.set.toNat 1 0
      (fun i => x.g.words i r.a 2 ++ x.g.words i r.b 1 ++ x.g.words i r.c 1) [])

/-- Performing `TLBI`: after the queued stores, at the owner; one that no link reaches is dropped (R187). -/
def performTlbi (s : State) (p t : Nat) (g : Group) (o : POp) (rc : Bool) : State :=
  let a := (o.word2 0 0).toNat
  let n := (o.word 2 0).toNat
  let ctx := bits (o.word 3 0).toNat 0 10
  let fin (s : State) : State := s.modGrp p (fun g => g.setOp t (some { o with todo := 0 }))
  if !g.mayLoad o || g.sq.any (fun e => e.seq < o.seq) then s
  else match s.owner a with
    | .die d | .host d =>
      (match shootdown s d ctx a n rc with
      | .wait s _ => s
      | a => fin a.state)
    | .far | .bad => fin (s.dropFar (placeDie p) a)

/-! ## Physical accesses (R183, R369, R370) -/

/-- What a physical address names. -/
inductive PhysAt where
  | mem
  | window
  | bad
deriving DecidableEq, Repr

def physAt (a : Nat) : PhysAt :=
  if a < Config.memBytes then .mem
  else if 0x2000000000 ≤ a && a < 0x2000010000 then .window
  else .bad

/-- The checks of `PLD` and `PST`: alignment, then the address (R370). -/
def physCheck (win : Bool) (xs : List (Nat × Nat)) : Option (Cause × DWord) :=
  match xs.find? (fun x => x.2 % 8 != 0) with
  | some x => some (.misaligned, bv 64 x.2)
  | none =>
    match xs.find? (fun x => !(physAt x.2 == .mem || (win && physAt x.2 == .window))) with
    | some x => some (.badPhys, bv 64 x.2)
    | none => none

def execPld (h : Hdr) (m : MForm) (s : State) : Out :=
  issueWord (.pld h m) h.sched (opdRegs m.d 2 ++ opdRegs m.a 2) s (fun x =>
    let g := x.g
    let uni := m.d.isS
    let e := accLanes uni g h
    let hs := accHelp uni g e
    let a (i : Nat) : Nat := addrOf (g.read [] i (src m.a true .none)) (MForm.offset m) 64
    match physCheck false ((maskLanes (e &&& ~~~hs)).map (fun i => (i, a i))) with
    | some (c, info) => .trap c info
    | none => issueTagged s x (.pld h m) h.sched.set.toNat (e &&& ~~~hs) 0 (fun i => g.words i m.a 2)
        ((maskLanes hs).map (fun i => dstWr i m.d true 0)).flatten)

/-- The youngest queued `PST` of the group to an address (R370). -/
def queuedPst (g : Group) (seq a : Nat) : Option DWord :=
  (g.sq.filter (fun e => e.seq < seq && (match e.kind with
    | .phys => true
    | _ => false))).foldl (fun r e => e.accs.foldl (fun r y => if y.addr.toNat = a then some y.data else r) r) none


/-- Performing `PLD`: the die's memory, past every cache. -/
def performPld (s : State) (p t : Nat) (g : Group) (o : POp) (m : MForm) : State :=
  if !g.mayLoad o then s.heldOp p t g o 0 (fun i => dstWr i m.d true 0)
  else
    let d := placeDie p
    let a (i : Nat) : Nat := addrOf (o.word2 0 i).toNat (MForm.offset m) 64
    let q (i : Nat) : Option DWord := queuedPst g o.seq (a i)
    match (maskLanes o.todo).find? (fun i => (q i).isNone && s.physPoison d (a i)) with
    | some i =>
      let n := s.cnt d (fun c => { c with memPoison := sat64 (c.memPoison + 1) })
      n.poisonTag p t o (a i)
    | none =>
      let ws := (maskLanes o.todo).map (fun i => dstWr i m.d true ((q i).getD (bv 64 (s.phys d (a i) 8))).toNat)
      s.modGrp p (fun g => g.setOp t (some { o with todo := 0, res := o.res ++ ws.flatten }))

def execPst (h : Hdr) (m : MForm) (s : State) : Out :=
  issueWord (.pst h m) h.sched (opdRegs m.a 2 ++ opdRegs m.b 2) s (fun x =>
    let g := x.g
    let uni := m.a.isS && m.b.isSZ
    let a (i : Nat) : Nat := addrOf (g.read [] i (src m.a true .none)) (MForm.offset m) 64
    let accs := storeAccs g uni false h a 8 (fun i => g.read [] i (src m.b true .none))
    match physCheck true (accs.map (fun y => (y.lane, y.addr.toNat))) with
    | some (c, info) => .trap c info
    | none => enterStore s x h.sched.set.toNat .phys .rlx .sys accs)

/-- One `PST` is in memory, which clears the poison of its bytes, or in the window as port 0's write. -/
def State.physWrite (s : State) (d a : Nat) (x : DWord) (t : Nat) : State :=
  match physAt a with
  | .mem =>
    let f := frameKey false a
    (s.setPhys d a 8 x.toNat).modDie d (fun y => { y with
      poison := y.poison.setD f (y.poison.getD f 0 &&& ~~~(1#16 <<< (a % 128 / 8))) 0 })
  | .window => s.windowWrite 0 (a % 65536) x 0xFF t
  | .bad => s

/-- A `PST` entry leaves, in lane order, at its core's logical time (R142). -/
def State.sqPhys (s : State) (p : Nat) (e : SqEntry) : State :=
  (e.accs.foldl (fun s y => s.physWrite (placeDie p) y.addr.toNat y.data (s.core (placeCore p)).t) s).sqDone p

end Sys2Proof.Machine
end

