-- ==== Sys2Proof/Machine/System.lean ====
section
/-!
DEFINITION. Control registers, the hidden state in words, and the return from traps (R16, R17, R22, R24, R81,
R83, R190, R198, R199, R203, R242, R243, R281 to R283, R323, R324).
-/
namespace Sys2Proof.Machine

/-! ## Queue leadership (R198, R243) -/

/-- The resident groups of a context on a core, slots apart. -/
def State.peers (s : State) (c ctx : Nat) : List (Nat × Group) :=
  s.groups.filter (fun x => placeCore x.1 == c && x.2.ctx == ctx && x.2.kind == .ordinary)

/-- The group placed earliest, then the lowest place. -/
def State.qlead (s : State) (p : Nat) (g : Group) : Bool :=
  g.kind == .ordinary
  && !(s.peers (placeCore p) g.ctx).any (fun x => x.2.order < g.order || (x.2.order == g.order && x.1 < p))

/-- Does the group's context own the core's queues? -/
def State.ownsQueues (s : State) (p : Nat) (g : Group) : Bool := (s.core (placeCore p)).qowner == some g.ctx

/-- Queues become unowned when nothing of their context stays on the core (R243). -/
def State.releaseQueues (s : State) (c : Nat) : State :=
  match (s.core c).qowner with
  | some k =>
    if s.groups.any (fun x => placeCore x.1 == c && x.2.ctx == k && x.2.kind != .walker) then s
    else s.modCore c (fun x => { x with qowner := none, qsaved := false, qmoved := false, q := [] })
  | none => s

/-! ## Reading the registers -/

def coreidWord (p : Nat) : Nat :=
  placeSlice p * 2 ^ 18 + placePipe p * 2 ^ 13 + coreCluster (placeCore p) * 2 ^ 8 + coreIn (placeCore p)

/-- `tagstate` (R198). -/
def tagstateWord (s : State) (p : Nat) (g : Group) : Nat :=
  let lead := s.qlead p g
  let k := s.core (placeCore p)
  let depth := if lead && s.ownsQueues p g then ((upTo 4).map (fun q => (k.queue q).length * 2 ^ (10 + 5 * q))).sum else 0
  let alloc := match g.bank with
    | some b => b.tags
    | none => g.tags
  lead.toNat * 2 ^ 31 + depth + (g.regs / 16 - 1) * 2 ^ 7 + (alloc.map (fun x => 2 ^ (x.1 - 1))).sum

/-- `parkmask` (R198). -/
def parkmaskWord (g : Group) : Nat := match g.bank with
  | some b => b.tst.isSome.toNat * 2 ^ 7 + b.sqPark.isSome.toNat * 2 ^ 6
      + ((upTo 6).map (fun k => if b.g (259 + 4 * k) = 0 then 0 else 2 ^ k)).sum
  | none => 0

def wselWord (g : Group) : Nat := g.wselThr.toNat * 2 ^ 31 + g.wselIdx

/-- A control register but `wdata`, as it stands (R282). -/
def csrValue (s : State) (p : Nat) (g : Group) : Csr → Nat
  | .gwidth => Config.W
  | .frm => g.frm.toNat
  | .fflags => g.fflags.toNat
  | .gid => g.ngroups * 2 ^ 8 + g.group
  | .gangid => g.gang.toNat
  | .spanid => g.span.toNat * 16 + g.member
  | .launchid => g.queue * 2 ^ 26 + g.seqNo % 2 ^ 26
  | .coreid => coreidWord p
  | .dieid => s.dieid (placeDie p)
  | .ctxid => g.ctx
  | .fltgen => (s.gen (placeDie p) g.ctx).toNat
  | .clock => (s.die (placeDie p)).clock.toNat
  | .trapcause => g.trapcause.toNat
  | .trapinfo => g.trapinfo.toNat
  | .trappc => g.trappc.toNat
  | .parkmask => parkmaskWord g
  | .tagstate => tagstateWord s p g
  | .divstack => match g.bank with
    | some b => min (b.g 137).toNat 16
    | none => 0
  | .wsel => wselWord g
  | .wdata => 0

/-! ## The hidden state in words (R199) -/

/-- Words of each unit. -/
def wdataSize (thr : Bool) : Nat := if thr then 192 else 320

/-- Does a group-unit word exist beyond those that read 0? -/
def wdataIsWord (k : Nat) : Bool :=
  k < 130 || (131 ≤ k && k < 138) || (144 ≤ k && k < 256 && (k - 144) % 7 != 6) || (256 ≤ k && k < 312)
  || (312 ≤ k && k < 318)

/-- Is a thread-unit word below the queues' one that does not read 0? -/
def wdataIsThread (k : Nat) : Bool := k < 105

/-- Group-unit word k. -/
def wdataGroup (s : State) (p : Nat) (g : Group) (b : Bank) (k : Nat) : Word :=
  if k < 48 then g.getS k
  else if k < 64 then b.g k
  else if k < 124 then (g.getH ((k - 64) / 4)).extractLsb' (32 * (k % 4)) 32
  else if k = 128 then lowW g.trappc
  else if k = 129 then highW g.trappc
  else if k = 130 then bv 32 g.trapcause.toNat
  else if k = 133 then bv 32 (tagstateWord s p g)
  else if wdataIsWord k then b.g k
  else 0

/-- The queue and entry of a thread-unit word from 128 on. -/
def wdataQueue (k : Nat) : Nat × Nat := ((k - 128) / 16, (k - 128) % 16)

/-- Thread-unit word k in lane i. -/
def wdataThread (s : State) (p : Nat) (g : Group) (b : Bank) (k i : Nat) : Word :=
  if wdataIsThread k then b.t k i
  else if 128 ≤ k && s.qlead p g && s.ownsQueues p g then
    (match ((s.core (placeCore p)).queue (wdataQueue k).1)[(wdataQueue k).2]? with
    | some e => e.getD i 0
    | none => 0)
  else 0

/-- The `alloc` bits: a set bit that is new counts as released (R198); the return takes those back whose entry is still queued
(R203, `Group.leaveTrap`). -/
def allocTags (b : Bank) (v : Nat) : SMap TagSt :=
  (upTo 6).foldl (fun m k => if bit v k then (match b.tags.find (k + 1) with
    | some x => SMap.put m (k + 1) x
    | none => SMap.put m (k + 1) { op := none, async := false }) else m) []

/-- A written `tagstate`: `alloc`, and the queues' depths when the group leads its context's queues. -/
def State.writeTagstate (s : State) (p : Nat) (g : Group) (b : Bank) (v : Nat) : State :=
  let s := s.setGrp p { g with bank := some { b with tags := allocTags b v } }
  if s.qlead p g && s.ownsQueues p g then
    s.modCore (placeCore p) (fun c => (upTo 4).foldl (fun c q =>
      let n := min (bits v (10 + 5 * q) 5) Config.queueDepth
      c.setQ q ((c.queue q ++ List.replicate n []).take n)) c)
  else s

/-- Bits of group-unit words that hold a field of less than a word. -/
def wdataMask (k : Nat) : Nat := if k = 131 then 3 else if k = 132 then 31 else 2 ^ 32 - 1

/-- Writing a group-unit word. -/
def State.writeGroupWord (s : State) (p : Nat) (g : Group) (b : Bank) (k : Nat) (v : Word) : State :=
  if k < 48 then s.setGrp p (g.setS k v)
  else if 64 ≤ k && k < 124 then
    let x := g.getH ((k - 64) / 4)
    let m : Header := 0xFFFFFFFF#128 <<< (32 * (k % 4))
    s.setGrp p (g.setH ((k - 64) / 4) ((x &&& ~~~m) ||| ((v.setWidth 128) <<< (32 * (k % 4)))))
  else if k = 128 then s.setGrp p { g with trappc := pair v (highW g.trappc) }
  else if k = 129 then s.setGrp p { g with trappc := pair (lowW g.trappc) v }
  else if k = 133 then s.writeTagstate p g b v.toNat
  else if wdataIsWord k then
    s.setGrp p { g with bank := some { b with gw := b.gw.setD k (v &&& bv 32 (wdataMask k)) 0 } }
  else s

/-- Writing thread-unit word k in the lanes of a mask. -/
def State.writeThreadWord (s : State) (p : Nat) (g : Group) (b : Bank) (k : Nat) (m : Mask) (f : Nat → Word) : State :=
  if k < 128 then
    if wdataIsThread k then
      let v (i : Nat) : Word := if k = 0 then (f i &&& 0xFE) ||| 1 else f i
      s.setGrp p { g with bank := some { b with tw := (maskLanes m).foldl (fun t i => t.setD (32 * k + i) (v i) 0) b.tw } }
    else s
  else if s.qlead p g && s.ownsQueues p g then
    let (q, e) := wdataQueue k
    s.modCore (placeCore p) (fun c => c.setQ q ((c.queue q).zipIdx.map (fun x =>
      if x.2 = e then (maskLanes m).foldl (fun t i => SMap.setD t i (f i) 0) x.1 else x.1)))
  else s

/-- Raising `idx` after an access. -/
def State.nextWord (s : State) (p : Nat) : State := s.modGrp p (fun g => { g with wselIdx := (g.wselIdx + 1) % 512 })

/-! ## CSRR and CSRW -/

/-- Every earlier instruction has written its results (R324). -/
def Group.resultsDone (g : Group) : Bool := g.lpend.isEmpty && g.tags.all (fun x => x.2.op.isNone)

/-- After the privilege of the number: privileged registers need trap mode (R282). -/
def csrLegal (g : Group) (c : Csr) : Bool := !c.isPriv || g.inTrap

/-- The group as the state holds it, for a word that has changed it there. -/
def doneIn (s : State) (p : Nat) (g : Group) : Issue := match s.grp p with
  | some g' => .done s g'
  | none => .done s g

def execCsrr (h : Hdr) (csr : Csr) (d : Opd) (s : State) : Out :=
  issueWord (.csrr h csr d) h.sched (opdRegs d 1) s (fun x =>
    let g := x.g
    if !csrLegal g csr then .trap .illegal g.ir
    else match csr with
      | .wdata =>
        (match g.bank with
        | none => .trap .illegal g.ir
        | some b =>
          if wdataSize g.wselThr ≤ g.wselIdx || g.wselThr != d.isV then .trap .illegal g.ir
          else
            let ws := if g.wselThr then
                ((maskLanes (g.exec h.guard)).map (fun i => dstWr i d false (wdataThread s x.p g b g.wselIdx i).toNat)).flatten
              else dstWr 0 d false (wdataGroup s x.p g b g.wselIdx).toNat
            let s' := (s.modGrp x.p (fun g => g.wrs ws)).nextWord x.p
            doneIn s' x.p g)
      | .fflags => if g.resultsDone then .done s (g.wrs (dstWr 0 d false g.fflags.toNat)) else .wait s
      | c => .done s (g.wrs (dstWr 0 d c.is64 (csrValue s x.p g c))))

def execCsrw (h : Hdr) (csr : Csr) (a : Opd) (s : State) : Out :=
  issueWord (.csrw h csr a) h.sched (opdRegs a 1) s (fun x =>
    let g := x.g
    let v := g.read [] 0 (src a false .none)
    if !csrLegal g csr then .trap .illegal g.ir
    else match csr, g.bank with
      | .frm, _ => .done s { g with frm := bv 2 v }
      | .fflags, _ => if g.resultsDone then .done s { g with fflags := bv 5 v } else .wait s
      | .trappc, some _ => .done s { g with trappc := bv 64 (g.read [] 0 (src a true .none)) }
      | .tagstate, some b => doneIn (s.writeTagstate x.p g b v) x.p g
      | .wsel, some _ => .done s { g with wselThr := bit v 31, wselIdx := bits v 0 9 }
      | .wdata, some b =>
        if wdataSize g.wselThr ≤ g.wselIdx || (if g.wselThr then !a.isV else !a.isSZ) then .trap .illegal g.ir
        else
          let s' := if g.wselThr then
              s.writeThreadWord x.p g b g.wselIdx (g.exec h.guard) (fun i => bv 32 (g.read [] i (src a false .none)))
            else s.writeGroupWord x.p g b g.wselIdx (bv 32 v)
          doneIn (s'.nextWord x.p) x.p g
      | _, _ => .trap .illegal g.ir)

/-! ## TRET (R203) -/

/-- What is parked after a return: an entry of a generation that is still live stays parked; any other is issued
again (R190, R203). -/
def State.stays (s : State) (ctx : Nat) (k : Option Park) : Bool := match k with
  | some k => s.gen k.owner ctx == k.gen
  | none => false

/-- Judging the parked entries of a group that returns. -/
def State.judge (s : State) (g : Group) : Group :=
  let op (o : POp) : POp := if s.stays g.ctx o.parked then o else { o with parked := none, faults := [] }
  let tags := g.tags.map (fun x => (x.1, { x.2 with op := x.2.op.map op }))
  let sq := g.sq.map (fun e => if s.stays g.ctx e.parked then e else { e with parked := none })
  let tst := g.tst.map (fun t => if s.stays g.ctx t.parked then t else { t with parked := none })
  let held := tags.any (fun x => x.2.parked) || sq.any (fun e => e.parked.isSome) || (match tst with
    | some t => t.parked.isSome
    | none => false)
  { g with tags := tags, sq := sq, tst := tst, st := if held then .faultParked else .ready }

/-- The wait every form begins with: the routine's own work is done and its queue is empty. -/
def tretBody (s : State) (f : State → Nat → Group → Bank → Issue) (x : Issuer) : Issue :=
  match x.g.bank with
  | none => .trap .illegal x.g.ir
  | some b => if x.g.quiet && x.g.sq.isEmpty then f s x.p x.g b else .wait s

/-- `tret`; a pre-emption that waited is entered at once (R197). -/
def execTret (h : Hdr) (s : State) : Out :=
  issueWord (.tret h) h.sched [] s (tretBody s (fun s p g b =>
    let g' := (s.judge (g.leaveTrap b)).yields h.sched
    let t := s.setGrp p g'
    .gone (if g.preempting then
      (t.setGrp p { g' with preempting := false }).takeTrap p { cause := .preempt, info := 0, pc := g'.pc }
    else t)))

/-- Does a group that is saved lead queues no group has saved as they now are (R202, R243)? -/
def State.savesQueues (s : State) (p : Nat) (g : Group) : Bool :=
  s.qlead p g && s.ownsQueues p g && (!(s.core (placeCore p)).qsaved || (s.core (placeCore p)).qmoved)

/-- Does a group, as it is saved, take the entries of its core's queues with it: it leads, there are some, and none was saved
before it as they are now (R202)? -/
def State.takesQueues (s : State) (p : Nat) (g : Group) : Bool :=
  s.savesQueues p g && (upTo 4).any (fun q => !((s.core (placeCore p)).queue q).isEmpty)

/-- What earlier groups of the context saved of the core's queues is out of date once a leader takes later entries, or finds those
gone that were saved (notes/assumptions/22.md, DESIGN CHOICE). -/
def State.staleQueues (s : State) (p : Nat) (g : Group) : State :=
  if s.takesQueues p g || (s.savesQueues p g && (s.core (placeCore p)).qsaved) then
    { s with saved := s.saved.map (fun x =>
        if x.ctx = g.ctx && placeCore x.place = placeCore p then { x with queued := false } else x) }
  else s

/-- The bound copies of a gang on its core, in the order of its bindings (R121). -/
def State.boundCopies (s : State) (k : Gang) : List (Nat × Nat) :=
  (k.binds.map (fun b => ((s.core k.core).copiesIn k.ctx b.a.toNat b.n).map (fun y => (k.core, y)))).flatten

/-- What the scheduler keeps of a saved group. -/
def savedOf (s : State) (p : Nat) (g : Group) (b : Bank) : SavedGroup where
  gangKey := g.gangKey
  place := p
  group := g.group
  ngroups := g.ngroups
  gang := g.gang
  span := g.span
  member := g.member
  queue := g.queue
  seqNo := g.seqNo
  spawned := g.spawned
  spawnTab := g.spawnTab
  args := g.args
  regs := g.regs
  prio := g.prio
  ctx := g.ctx
  kind := g.kind
  queued := s.takesQueues p g
  live := b.g 134
  stash := match s.gang g.gangKey with
    | some k => k.stashBase
    | none => 0
  seqs := b.seqs
  sqRest := b.sqRest
  helps := b.helps
  tabs := b.tabs
  t := (s.core (placeCore p)).t
  fence := g.fence

/-- A group leaves its place; the last of a gang leaves its stash too. -/
def State.leavePlace (s : State) (p : Nat) (g : Group) : State :=
  let s := match s.gang g.gangKey with
    | some k => { s with gangs := s.gangs.put g.gangKey { k with places := k.places.filter (· != p) } }
    | none => s
  ((s.delGrp p).dropWaiter p).releaseQueues (placeCore p)

/-- The bytes of a gang's allocation read zero from now on. -/
def Core.clearStash (c : Core) (base n : Nat) : Core := { c with stash := c.stash.without base (base + n) }

/-- The gang that no longer holds its stash once a group, or its stream, has left its place. -/
def State.lastOf (s : State) (p : Nat) (g : Group) : Option Gang :=
  let t := s.leavePlace p g
  match s.gang g.gangKey, t.gang g.gangKey with
  | some k, some k' => if s.holdsStash g.gangKey k && !t.holdsStash g.gangKey k' then some k else none
  | _, _ => none

/-- The copies that the last of a gang gives back as it leaves for Saved: those that its routine filled again (R123). -/
def State.lastCopies (s : State) (p : Nat) (g : Group) : List (Nat × Nat) := match s.lastOf p g with
  | some k => s.boundCopies k
  | none => []

/-- The group to Saved, its place free; with the last of a gang its stash too. -/
def State.saveGroup (s : State) (p : Nat) (g : Group) (b : Bank) : State :=
  let s' := s.staleQueues p g
  let s' := if s.takesQueues p g then s'.modCore (placeCore p) (fun c => { c with qsaved := true, qmoved := false }) else s'
  let t := { s' with saved := s'.saved ++ [savedOf s p g b] }.leavePlace p g
  match s.lastOf p g with
  | some k => t.modCore k.core (fun c => c.clearStash k.stashBase k.stashSize)
  | none => t

/-- `tret.save`: to Saved, the place free; legal under `PREEMPT` alone. -/
def execTretSave (h : Hdr) (s : State) : Out :=
  issueWord (.tretSave h) h.sched [] s (tretBody s (fun s p g b =>
    if g.trapcause != Cause.code .preempt then .gone (s.failLaunch g.queue g.seqNo 0x03)
    else match recallCopies (s.lastCopies p g) s with
      | .ok s _ => .gone (s.saveGroup p g b)
      | a => .wait a.state))

def execTretKill (h : Hdr) (s : State) : Out :=
  issueWord (.tretKill h) h.sched [] s (tretBody s (fun s _ g _ => .gone (s.failLaunch g.queue g.seqNo 0x03)))

end Sys2Proof.Machine
end

