-- ==== Sys2Proof/Machine/Sched.lean ====
section
/-!
DEFINITION. Task records and the placing of gangs and of spawned groups (R21, R24, R27 to R31, R39 to R41,
R47 to R49, R54 to R56, R62, R66).
-/
namespace Sys2Proof.Machine

/-! ## Task records (R47, R48) -/

def recEntry (x : Line) : Nat := bits x.toNat 0 64
def recArgs (x : Line) : Nat := bits x.toNat 64 64
def recThreads (x : Line) : Nat := bits x.toNat 128 64
def recGangs (x : Line) : Nat := bits x.toNat 192 32
/-- groups per gang -/
def recGroups (x : Line) : Nat := bits x.toNat 228 5 + 1
/-- gangs per span -/
def recSpan (x : Line) : Nat := bits x.toNat 233 4 + 1
/-- stash of a gang in bytes -/
def recStash (x : Line) : Nat := bits x.toNat 237 10 * 1024
def recRegs (x : Line) : Nat := (bits x.toNat 247 3 + 1) * 16
def recDies (x : Line) : Nat := bits x.toNat 250 2
def recPrio (x : Line) : Nat := bits x.toNat 252 2
def recPers (x : Line) : Bool := bit x.toNat 254
def recIdem (x : Line) : Bool := bit x.toNat 255
def recSpawn (x : Line) : Nat := bits x.toNat 256 64
def recOut (x : Line) : Nat := bits x.toNat 320 64
def recOinc (x : Line) : Nat := bits x.toNat 384 32

/-- The used inputs: counter address and target. -/
def recInputs (x : Line) : List (Nat × Nat) :=
  ((upTo 4).map (fun k => (bits x.toNat (512 + 128 * k) 64, bits x.toNat (576 + 128 * k) 64))).filter (fun y => y.1 != 0)

/-- A valid record (R48). -/
def recValid (x : Line) : Bool :=
  bits x.toNat 448 64 == 0 && bits x.toNat 416 19 == 0 && bits x.toNat 224 4 == 0
  && bits x.toNat 4 3 == 0 && bits x.toNat 0 4 ≤ 11
  && 1 ≤ recGangs x && recGangs x % recSpan x == 0
  && 1 ≤ recThreads x && recThreads x ≤ recGangs x * recGroups x * Config.W
  && recStash x ≤ Config.stashBytes && recDies x != 0
  && (recInputs x).all (fun y => !bit y.2 63 && y.1 % 8 == 0) && recOut x % 8 == 0

/-- The gangs that hold a live thread: the first of the launch (R49). -/
def liveGangs (x : Line) : Nat := (recThreads x + recGroups x * Config.W - 1) / (recGroups x * Config.W)

/-- The spans that hold such a gang. -/
def liveSpans (x : Line) : Nat := (liveGangs x + recSpan x - 1) / recSpan x

/-- The groups of a gang that hold a live thread. -/
def liveGroups (x : Line) (gang : Nat) : Nat :=
  min (recGroups x) ((recThreads x - gang * recGroups x * Config.W + Config.W - 1) / Config.W)

/-- The requests that have not ended: those of the engines, and those in the cores' kick registers. -/
def State.engReqs (s : State) : List EngReq :=
  (s.die0.engines.map (·.2)).flatten ++ (s.die1.engines.map (·.2)).flatten ++ s.cores.filterMap (fun c => c.2.kick.map (·.2))

def State.engAny (s : State) (f : EngReq → Bool) : Bool := s.engReqs.any f

/-- Does a gang of a span still stand, killed for a relaunch or not, or engine work that one of its gangs issued (R62, R66)? -/
def State.spanStands (s : State) (q n : Nat) (t : Task) (k : Nat) : Bool :=
  s.gangs.any (fun x => x.2.queue == q && x.2.seqNo == n && !x.2.spawned && x.2.gang / recSpan t.data == k)
  || s.engAny (fun r => r.queue == q && r.seqNo == n && !r.spawned && r.index / recSpan t.data == k)

/-- The lowest span that can be placed: it is not placed, and of a relaunched one the kill is over (R66). -/
def State.nextSpan (s : State) (q n : Nat) (t : Task) : Option Nat :=
  (upTo (min (liveSpans t.data) (t.placed.length + s.gangs.length + s.engReqs.length + 1))).find? (fun k =>
    !t.placed.contains k && !s.spanStands q n t k)

/-! ## A group as it is placed (R28, R49) -/

/-- A group in which every register reads zero. -/
def Group.fresh (kind : GKind) (ctx : Nat) (pc : DWord) (regs order : Nat) (live : Mask) : Group where
  kind := kind
  st := .ready
  pc := pc
  npc := pc
  ir := 0
  v := []
  s := []
  p := []
  h := []
  live := live
  act := live
  help := maskQuads live &&& ~~~live
  div := []
  frm := 0
  fflags := 0
  regs := regs
  prio := 0
  age := 0
  aged := 0
  yielded := false
  order := order
  ctx := ctx
  gangKey := 0
  ngroups := 0
  group := 0
  gang := 0
  span := 0
  member := 0
  queue := 0
  seqNo := 0
  spawned := false
  spawnTab := 0
  args := 0
  bank := none
  trapWait := none
  preempting := false
  trapcause := 0
  trapinfo := 0
  trappc := 0
  wselThr := false
  wselIdx := 0
  tags := []
  lpend := []
  sq := []
  tst := none
  cpark := none
  fetchPark := none
  walks := []
  fence := 0

/-- Group k of a gang of a launch (R24, R49). -/
def launchGroup (t : Task) (q n gang k key order : Nat) : Group :=
  let x := t.data
  let first := (gang * recGroups x + k) * Config.W
  let live := maskOf (fun i => first + i < recThreads x)
  let g := { Group.fresh .ordinary t.ctx (bv 64 (recEntry x)) (recRegs x) order live with
    prio := recPrio x
    gangKey := key
    ngroups := recGroups x - 1
    group := k
    gang := bv 32 gang
    span := bv 32 (gang / recSpan x)
    member := gang % recSpan x
    queue := q
    seqNo := n
    spawnTab := bv 64 (recSpawn x)
    args := bv 64 (recArgs x) }
  (g.setS2 0 (bv 64 (recArgs x))).setS2 2 (bv 64 first)

/-! ## Places (R13, R27, R29, R55) -/


def isSlotPlace (p : Nat) : Bool := p == walkerPlace (placeCore p) || p == reelPlace (placeCore p)

/-- Does core 0 of a cluster keep this place for its slot? -/
def keepsSlots (c : Nat) : Bool := coreIn c % 16 == 0

/-- Can an ordinary group of a budget stand at a place? -/
def State.room (s : State) (p regs : Nat) : Bool :=
  let k := placePipeKey p
  (s.grp p).isNone && s.pipeRegs k (fun _ => true) + regs ≤ 128
  && (if keepsSlots (placeCore p) && isSlotPlace (4 * k + 3) then
        p != 4 * k + 3 && s.pipeRegs k (fun x => x != 4 * k + 3) + regs ≤ 96
      else true)

/-- The places of a core, those of the slots last (R29). -/
def corePlaces (c : Nat) : List Nat :=
  let xs := ((upTo 4).map (fun j => (upTo 128).map (fun k => c * 512 + 4 * k + j))).flatten
  xs.filter (fun p => !isSlotPlace p) ++ [reelPlace c, walkerPlace c]

/-- The place the placer takes on a core: the proposed one where it will do, or the first that will. -/
def State.pickPlace (s : State) (c regs : Nat) (want : Option Nat) : Option Nat :=
  let first := (corePlaces c).find? (fun p => s.room p regs)
  match want with
  | some p =>
    if placeCore p = c && s.room p regs && (!isSlotPlace p || (match first with
      | some f => isSlotPlace f
      | none => true)) then some p else none
  | none => first

/-- Free stash of a core: the lowest base with n bytes (R55). -/
def State.stashBase (s : State) (c n : Nat) : Option Nat :=
  let used := (s.gangs.filter (fun x => x.2.core == c && s.holdsStash x.1 x.2)).map (fun x => (x.2.stashBase, x.2.stashSize))
  let ok (b : Nat) : Bool := b + n ≤ Config.stashBytes && !used.any (fun u => overlaps b n u.1 u.2)
  (0 :: used.map (fun u => u.1 + u.2)).find? ok

/-- The launches that a core's tracking entries name: with gangs there, resident or saved, or with engine work of
it (R62). -/
def State.tracked (s : State) (c : Nat) : List (Nat × Nat) :=
  let xs := (s.gangs.filter (fun x => x.2.core == c)).map (fun x => (x.2.queue, x.2.seqNo))
  let of (e : SMap (List EngReq)) : List (Nat × Nat) :=
    ((e.map (fun y => (y.2.filter (fun r => r.core == c)).map (fun r => (r.queue, r.seqNo)))).flatten)
  let kicked := match (s.core c).kick with
    | some (_, r) => [(r.queue, r.seqNo)]
    | none => []
  (xs ++ of s.die0.engines ++ of s.die1.engines ++ kicked).foldl (fun r x => if r.contains x then r else r ++ [x]) []

/-- A tracking entry for a launch. -/
def State.trackable (s : State) (c q n : Nat) : Bool :=
  let xs := s.tracked c
  xs.contains (q, n) || xs.length < Config.tracking

/-- May the scheduler use a core? -/
def State.coreUsable (s : State) (c : Nat) : Bool := !(s.core c).gated && s.serves (coreDie c) && (s.die (coreDie c)).up

/-- Listing a gang with its stash zeroed (R120). -/
def State.addGang (s : State) (key : Nat) (x : Gang) : State :=
  { s.modCore x.core (fun c => c.clearStash x.stashBase x.stashSize) with gangs := s.gangs.put key x }

/-- Groups of a gang from k on find their places, or none does. -/
def placeGroups (t : Task) (q n gang key c : Nat) : List Nat → List Nat → State → Option State
  | [], _, s => some s
  | k :: r, hint, s =>
    match s.pickPlace c (recRegs t.data) hint.head? with
    | none => none
    | some p =>
      let s := s.setGrp p (launchGroup t q n gang k key key)
      let s := match s.gang key with
        | some x => { s with gangs := s.gangs.put key { x with places := x.places ++ [p] } }
        | none => s
      placeGroups t q n gang key c r hint.tail s

/-- A gang on a core, with all it needs (R55). -/
def placeGang (s : State) (t : Task) (q n gang c : Nat) (hint : List Nat) : Option State :=
  if !s.coreUsable c || !s.trackable c q n then none
  else match s.stashBase c (recStash t.data) with
    | none => none
    | some b =>
      let key := s.seq + 1
      let s := { s with seq := s.seq + 1 }.addGang key {
        ctx := t.ctx, queue := q, seqNo := n, gang := gang, spawned := false, core := c, stashBase := b
        stashSize := recStash t.data, places := [], binds := [] }
      let s := s.raiseT c t.t
      placeGroups t q n gang key c (upTo (liveGroups t.data gang)) hint s

/-- The gangs of a span on distinct cores of a list. -/
def placeGangs (t : Task) (q n : Nat) : List Nat → List Nat → State → Option State
  | [], _, s => some s
  | g :: r, cores, s =>
    match cores.findSome? (fun c => (placeGang s t q n g c []).map (fun s' => (c, s'))) with
    | none => none
    | some (c, s') => placeGangs t q n r (cores.filter (· != c)) s'

/-- The same at proposed places: distinct cores of one cluster of the die. -/
def placeGangsAt (t : Task) (q n d : Nat) : List Nat → List (List Nat) → List Nat → State → Option State
  | [], _, _, s => some s
  | _ :: _, [], _, _ => none
  | g :: r, h :: hs, used, s =>
    let c := placeCore (h.headD 0)
    if coreDie c != d || used.contains c || used.any (fun u => coreCluster u != coreCluster c)
        || h.length != liveGroups t.data g then none
    else match placeGang s t q n g c h with
      | none => none
      | some s' => placeGangsAt t q n d r hs (used ++ [c]) s'

/-- The gangs of a span that hold a live thread. -/
def spanGangs (x : Line) (k : Nat) : List Nat :=
  ((upTo (recSpan x)).map (fun m => k * recSpan x + m)).filter (fun g => g < liveGangs x)

/-- The groups of a budget that a pipe still has room for. -/
def State.pipeRoom (s : State) (k regs : Nat) : Nat :=
  let last := keepsSlots (placeCore (4 * k)) && isSlotPlace (4 * k + 3)
  let js := if last then upTo 3 else upTo 4
  let used := s.pipeRegs k (fun p => js.contains (p - 4 * k))
  min ((js.filter (fun j => (s.grp (4 * k + j)).isNone)).length) (((if last then 96 else 128) - used) / regs)

/-- The stash allocations of n bytes that a core still has room for: those of its gaps. -/
def State.stashRoom (s : State) (c n : Nat) : Nat :=
  let used := (s.gangs.filter (fun x => x.2.core == c && s.holdsStash x.1 x.2)).map (fun x => (x.2.stashBase, x.2.stashSize))
  let gap (a : Nat) : Nat := ((used.map (·.1)).filter (a ≤ ·)).foldl min Config.stashBytes - a
  if n = 0 then 512 else ((0 :: used.map (fun u => u.1 + u.2)).eraseDups.map (fun a => gap a / n)).sum

/-- The gangs of a task that a core still has room for. -/
def State.gangRoom (s : State) (t : Task) (q n c : Nat) : Nat :=
  if !s.coreUsable c || !s.trackable c q n then 0
  else min (((upTo 128).map (fun k => s.pipeRoom (128 * c + k) (recRegs t.data))).sum / recGroups t.data) (s.stashRoom c (recStash t.data))

/-- Cores by a measure of theirs, the greatest first. -/
def byRoom (f : Nat → Nat) (cs : List Nat) : List Nat :=
  (cs.map (fun c => (c, f c))).foldr (fun x r => r.takeWhile (fun y => x.2 < y.2) ++ x :: r.dropWhile (fun y => x.2 < y.2)) []
    |>.map (·.1)

/-- A span all at once on one cluster of a die (R55); `hint` proposes the places. With `even` its gangs take the cores that have
the most room left: as many spans as can fit a cluster together then do (R56). -/
def placeSpan (s : State) (q n : Nat) (t : Task) (k d : Nat) (hint : List (List Nat)) (even : Bool) : Option State :=
  let gs := spanGangs t.data k
  let cores (cl : Nat) : List Nat := (upTo 16).map (fun m => d * Config.cores + cl * 16 + m)
  let r := if hint.isEmpty then
      (upTo 11).findSome? (fun cl =>
        placeGangs t q n gs (if even then byRoom (fun c => s.gangRoom t q n c) (cores cl) else cores cl) s)
    else placeGangsAt t q n d gs hint [] s
  r.map (fun s => s.setTask q n { t with st := 3, placed := t.placed ++ [k] })

/-- Dies a task allows. -/
def taskDies (t : Task) : List Nat := (upTo 2).filter (fun d => bit (recDies t.data) d)

/-- Every span of a persistent launch together, die by die (R56). The gangs of a launch are of one shape, so filling each cluster
evenly, one after the other, finds room for all of them wherever there is. -/
def placeAll (q n : Nat) (ds : List Nat) : Nat → State → Option State
  | 0, s => some s
  | k + 1, s =>
    match s.task q n with
    | none => none
    | some t =>
      match s.nextSpan q n t with
      | none => some s
      | some j =>
        match ds.findSome? (fun d => placeSpan s q n t j d [] true) with
        | none => none
        | some s' => placeAll q n ds k s'

/-- Could the dies a persistent launch allows hold it with nothing else resident, no engine's work either (R56)? -/
def State.couldHold (s : State) (q n : Nat) (t : Task) : Bool :=
  let s := { s with
    groups := [], gangs := [], saved := [], cores := []
    die0 := { s.die0 with engines := [] }, die1 := { s.die1 with engines := [] } }.setTask q n { t with placed := [] }
  (placeAll q n (taskDies t) (liveSpans t.data) s).isSome

/-! ## Spawned groups (R31, R39 to R41) -/

/-- Fields of a spawn-table entry. -/
def entRegs (x : Header) : Nat := (bits x.toNat 37 3 + 1) * 16
def entPrio (x : Header) : Nat := bits x.toNat 35 2
def entStash (x : Header) : Nat := bits x.toNat 25 10 * 1024
/-- Is an entry one that a `SPAWN` can use? One with `valid` 1 that asks for more stash than a core has is taken as not valid
(notes/assumptions/13.md, DESIGN CHOICE: R41 does not say). -/
def entValid (x : Header) : Bool := bit x.toNat 0 && entStash x ≤ Config.stashBytes
def entEntry (x : Header) : Nat := bits x.toNat 64 64

/-- An entry as it is read: its reserved fields read as zero (R3). -/
def entRead (x : Nat) : Header := bv 128 (bits x 0 1 + bits x 25 15 * 2 ^ 25 + bits x 48 80 * 2 ^ 48)

/-- A formed group's registers: lane i holds record i; a helper holds the record of its quad's lowest live lane. -/
def spawnGroup (f : Formed) (spawnTab args : DWord) (key : Nat) : Group :=
  let n := f.recs.length
  let live := maskOf (fun i => i < n)
  let g := { Group.fresh .ordinary f.ctx f.entry (entRegs f.ent) key live with
    prio := entPrio f.ent
    gangKey := key
    gang := 0xFFFFFFFF
    span := 0xFFFFFFFF
    queue := f.queue
    seqNo := f.seqNo
    spawned := true
    spawnTab := spawnTab
    args := args }
  let lane (g : Group) (i : Nat) : Group :=
    let r := if i < n then some i else if i / 4 * 4 < n then some (i / 4 * 4) else none
    match r with
    | some j => (f.recs.getD j []).foldl (fun g w => g.setV w.1 i w.2) g
    | none => g
  (lanes.foldl lane g).setS2 0 args

/-- A formed group on a core: one place, its stash, a tracking entry. -/
def placeFormed (s : State) (f : Formed) (c : Nat) (want : Option Nat) : Option State :=
  if !s.coreUsable c || !s.trackable c f.queue f.seqNo then none
  else match s.stashBase c (entStash f.ent), s.pickPlace c (entRegs f.ent) want with
    | some b, some p =>
      let key := s.seq + 1
      let (tab, args) : DWord × DWord := match s.task f.queue f.seqNo with
        | some t => (bv 64 (recSpawn t.data), bv 64 (recArgs t.data))
        | none => (0, 0)
      let s := { s with seq := s.seq + 1 }.addGang key {
        ctx := f.ctx, queue := f.queue, seqNo := f.seqNo, gang := 0xFFFFFFFF, spawned := true, core := c
        stashBase := b, stashSize := entStash f.ent, places := [p], binds := [] }
      some ((s.setGrp p (spawnGroup f tab args key)).raiseT c f.t)
    | _, _ => none

/-- A formed group at the proposed place, or at the first core of the die that can hold it. -/
def State.placeSpawned (s : State) (d : Nat) (f : Formed) (want : Option Nat) : Option State :=
  match want with
  | some p => if placeDie p = d then placeFormed s f (placeCore p) (some p) else none
  | none => (dieCores d).findSome? (fun c => placeFormed s f c none)

/-- A slot of the overflow ring holds a formed group (R40). -/
def slotLines (f : Formed) : List Line :=
  let hdr := f.entry.toNat + (f.queue * 2 ^ 26 + f.seqNo % 2 ^ 26) * 2 ^ 64 + f.recs.length * 2 ^ 96
    + f.npay * 2 ^ 104 + f.ent.toNat * 2 ^ 128
  let lane (i : Nat) : Nat := (f.recs.getD i []).foldl (fun a w => a + w.2.toNat * 2 ^ (32 * w.1)) 0
  let all := lanes.foldl (fun a i => a + lane i * 2 ^ (512 + 256 * i)) hdr
  (upTo 9).map (fun k => bv 1024 (all / 2 ^ (1024 * k)))

/-- The formed group a slot holds. -/
def slotFormed (ctx q n t : Nat) (xs : List Line) : Formed :=
  let all := xs.zipIdx.foldl (fun a x => a + x.1.toNat * 2 ^ (1024 * x.2)) 0
  let npay := min (bits all 104 8) 8
  { ctx := ctx
    queue := q
    seqNo := n
    entry := bv 64 all
    ent := bv 128 (bits all 128 128)
    npay := npay
    t := t
    no := 0
    recs := (upTo (min (bits all 96 8) 32)).map (fun i => (upTo npay).foldl (fun m j =>
      SMap.setD m j (bv 32 (bits all (512 + 256 * i + 32 * j) 32)) 0) []) }

/-- Bytes of a slot (R40). -/
def slotBytes : Nat := 2048

/-- Writing lines one after the other at their homes; one that no link carries is dropped, and counted at the die (R253). -/
def writeLines (d ctx t : Nat) : List (Nat × Line) → State → Ans Unit
  | [], s => .ok s ()
  | (va, x) :: r, s => (((homeWriteLine s ctx va .store t none true (fun _ => (some x, ()))).andThen fun s _ => .ok s ()).lost d va
      ()).andThen fun s _ => writeLines d ctx t r s

/-- Reading lines one after the other. -/
def readLines (ctx : Nat) (acc : AccK) : List Nat → State → List Line → Ans (List Line)
  | [], s, xs => .ok s xs
  | va :: r, s, xs => (unitRead s ctx va acc).andThen fun s y => readLines ctx acc r s (xs ++ [y.1.data])

def State.ring (s : State) (d ctx : Nat) : Ring := (s.die d).rings.getD ctx { head := 0, held := [], t := 0 }
def State.setRing (s : State) (d ctx : Nat) (x : Ring) : State :=
  s.modDie d (fun y => { y with rings := y.rings.setD ctx x { head := 0, held := [], t := 0 } })

/-- The address of slot k of the ring of a context. -/
def State.slotVa (s : State) (d ctx k : Nat) : Nat :=
  let x := s.desc d ctx
  x.sobase * 4096 + slotBytes * (k % 2 ^ x.solsize)

/-- How a spill ends. -/
inductive Spill where
  | ok (s : State)
  | full (s : State)
  | wait (s : State) (w : Option (Nat × Nat))

/-- Writing a formed group to the ring (R40), by the descriptor that the die sees now. -/
def State.spill (s : State) (d : Nat) (f : Formed) : Spill :=
  let s := s.holdDesc d f.ctx
  let x := s.desc d f.ctx
  let r := s.ring d f.ctx
  let va := s.slotVa d f.ctx (r.head + r.held.length)
  if x.solsize = 0 || 2 ^ x.solsize ≤ r.held.length || s.owner va = .bad then .full s
  else
    match writeLines d f.ctx f.t ((slotLines f).zipIdx.map (fun y => (va + 128 * y.2, y.1))) s with
    | .ok s _ => .ok (s.setRing d f.ctx { r with held := r.held ++ [(f.queue, f.seqNo, f.entry)], t := max r.t f.t })
    | .wait s w => .wait s w
    | .fault s _ | .poisoned s | .far s => .full s

/-- Bins that hold a formed group, in order of formation. -/
def Die.heldBins (x : Die) : List (Nat × Bin) :=
  (x.bins.filter (fun b => b.2.held != 0)).foldr (fun b r =>
    (r.takeWhile (fun y => y.2.held < b.2.held)) ++ b :: (r.dropWhile (fun y => y.2.held < b.2.held))) []

/-- The group a bin forms of its records. -/
def Bin.formed (b : Bin) : Formed where
  ctx := b.ctx
  queue := b.queue
  seqNo := b.seqNo
  entry := b.entry
  ent := b.ent
  npay := b.npay
  recs := b.recs
  t := b.t
  no := b.held

def State.delBin (s : State) (d k : Nat) : State := s.modDie d (fun x => { x with bins := x.bins.del k })
def State.setBin (s : State) (d k : Nat) (b : Bin) : State := s.modDie d (fun x => { x with bins := x.bins.put k b })

/-- The bin frees once its group is on its way; `full` where the group stays for want of a slot. -/
def State.freed (r : Spill) (d k : Nat) : Spill := match r with
  | .ok s => .ok (s.delBin d k)
  | r => r

/-- The groups of a context that bins hold and that formed before group number n, none being 0, go to the ring in their order; one
that finds no slot, or that waits, holds back those behind it (R40). -/
def State.spillHeld (s : State) (d ctx n : Nat) : Spill :=
  ((s.die d).heldBins.filter (fun b => b.2.ctx == ctx && (n == 0 || b.2.held < n))).foldl (fun r b => match r with
    | .ok s => State.freed (s.spill d b.2.formed) d b.1
    | r => r) (.ok s)

/-- A group goes to the ring behind those of its context that formed before it (R40). -/
def State.spillTurn (s : State) (d : Nat) (f : Formed) : Spill := match s.spillHeld d f.ctx f.no with
  | .ok s => s.spill d f
  | r => r

/-! ## Relaunching a span (R66, R112) -/

/-- The scheduler writes a record's `st`, `relaunches` and `fcause` (R47). -/
def writeRecord (s : State) (t : Task) (st : Nat) : Ans Nat :=
  let a := t.addr.toNat
  (homeWriteLine s t.ctx a .store t.t none false (fun h =>
    (some (linePut h.data 54 2 (st * 8 + t.relaunches * 64 + t.fcause.toNat * 256)), ()))).andThen fun s y => .ok s y.w

/-- A record write that no link carries is dropped and counted (R253), and the task goes on; so does one whose line is lost. -/
def carryOn (t : Task) (a : Ans Nat) : Ans Nat := match a.lost 0 t.addr.toNat 0 with
  | .poisoned s => .ok s 0
  | a => a

/-- The task with the time of one more write of its record (R158). -/
def Task.noted (t : Task) (w : Nat) : Task := { t with owes := false, tw := max t.tw w }

/-- The time that an add of the scheduler to the task's `out` releases: of what it acquired, and of its own writes of the record
(R64, R158). -/
def Task.outTime (t : Task) : Nat := max t.t t.tw

/-- A task whose count of relaunches has changed: its record says so at once; where its write has to wait, the task owes it. -/
def State.noteRelaunch (s : State) (q n : Nat) (t : Task) : State :=
  match carryOn t (writeRecord s t t.st) with
  | .ok s w => s.setTask q n (t.noted w)
  | a => a.state.setTask q n { t with owes := true }

/-- Killing the gangs of a span and placing it afresh once they are gone, or failing the launch (R65). A spawned gang has no span in the record,
so its launch fails. A fault of a tile fetch leaves the error token on `out` besides (R112). -/
def State.relaunchSpan (s : State) (q n gang : Nat) (spawned : Bool) (t : Task) (cause : Byte) : State :=
  if !recIdem t.data || spawned then s.failLaunch q n cause
  else if 3 ≤ t.relaunches then s.failLaunch q n 0x07
  else
    let k := gang / recSpan t.data
    let same := s.gangs.filter (fun y => decide (y.2.queue = q ∧ y.2.seqNo = n ∧ y.2.spawned = false
      ∧ y.2.gang / recSpan t.data = k))
    let s := same.foldl (fun s y => s.killGang y.1) s
    let s : State := { s with
      gangs := s.gangs.filter (fun y => !(!s.holdsStash y.1 y.2 && same.any (fun z => z.1 == y.1)))
      saved := s.saved.filter (fun y => !same.any (fun z => z.1 == y.gangKey)) }
    let s := s.noteRelaunch q n { t with
      relaunches := t.relaunches + 1
      placed := t.placed.filter (· != k)
      exited := t.exited.filter (fun g => g / recSpan t.data != k) }
    let u := (s.task q n).getD t
    if cause = 0x05 && recOut t.data != 0 then s.sendAdd t.ctx (bv 64 (recOut t.data)) tokenAmount 0 u.outTime none else s

/-- The groups of a gang that are killed already wait only for their issued work (R66). -/
def State.dying (s : State) (x : Gang) : Bool :=
  !x.places.isEmpty && x.places.all (fun p => match s.grp p with
    | some g => g.st == .killed
    | none => true)

/-- The same for the span of a gang that the machine holds; one that is being killed is not killed again. -/
def State.relaunch (s : State) (gangKey : Nat) (cause : Byte) : State :=
  match s.gang gangKey with
  | none => s
  | some x =>
    if s.dying x then s
    else match s.task x.queue x.seqNo with
    | none => s.killGang gangKey
    | some t => s.relaunchSpan x.queue x.seqNo x.gang x.spawned t cause

/-- The same for the gang that made an engine request, which may have exited since (R112). -/
def State.relaunchFor (s : State) (r : EngReq) (cause : Byte) : State :=
  match s.gang r.gang, s.task r.queue r.seqNo with
  | some _, _ => s.relaunch r.gang cause
  | none, some t => if r.spawned || t.exited.contains r.index then s.relaunchSpan r.queue r.seqNo r.index r.spawned t cause else s
  | none, none => s

end Sys2Proof.Machine
end

