-- ==== Sys2Proof/Machine/Tile.lean ====
section
/-!
DEFINITION. Tile headers, register fragments and the element functions of tiles (R73 to R76, R88 to R92,
R95 to R106, R109).
-/
namespace Sys2Proof.Machine

/-! ## Headers (R95 to R98) -/

/-- A header's fields. -/
structure THdr where
  fmt : Nat
  rows : Nat
  cols : Nat
  scl : Nat
  spa : Nat
  ocap : Nat
  ocnt : Nat
  olost : Bool
  sat : Bool
  loc : Bool
  lay : Bool
  base : Nat
  sbase : Nat
  off : Nat
deriving DecidableEq, Repr

def THdr.of (x : Header) : THdr :=
  let n := x.toNat
  { fmt := bits n 114 6, rows := bits n 110 4, cols := bits n 106 4, scl := bits n 103 3, spa := bits n 101 2
    ocap := bits n 98 3, ocnt := bits n 91 7, olost := bit n 90, sat := bit n 89, loc := bit n 88, lay := bit n 87
    base := bits n 80 7, sbase := bits n 73 7, off := bits n 49 24 }

/-- `chk` over bits 119:0 (R96). -/
def withChk (n : Nat) : Header := bv 128 (n % 2 ^ 120 + crc8 15 n * 2 ^ 120)

def THdr.word (h : THdr) : Header :=
  withChk (h.fmt * 2 ^ 114 + h.rows * 2 ^ 110 + h.cols * 2 ^ 106 + h.scl * 2 ^ 103 + h.spa * 2 ^ 101 + h.ocap * 2 ^ 98
    + h.ocnt * 2 ^ 91 + h.olost.toNat * 2 ^ 90 + h.sat.toNat * 2 ^ 89 + h.loc.toNat * 2 ^ 88 + h.lay.toNat * 2 ^ 87
    + h.base * 2 ^ 80 + h.sbase * 2 ^ 73 + h.off * 2 ^ 49)

/-- The format of a code (R97). -/
def tileTy (n : Nat) : Option Ty := match n with
  | 0x00 => some .f32
  | 0x01 => some .f16
  | 0x02 => some .bf16
  | 0x08 => some .e4m3
  | 0x09 => some .e5m2
  | 0x0A => some .e3m2
  | 0x0C => some .e2m1
  | 0x10 => some .i4
  | 0x11 => some .i8
  | 0x12 => some .i16
  | 0x13 => some .i32
  | 0x14 => some .i64
  | 0x20 => some .res48
  | _ => none

def THdr.ty (h : THdr) : Ty := (tileTy h.fmt).getD .f32

/-- Stored width (R97). -/
def storedWidth (t : Ty) : Nat := if t = .res48 then 64 else tyWidth t
def THdr.width (h : THdr) : Nat := storedWidth h.ty

def tyIsInt (t : Ty) : Bool := t == .i4 || t == .i8 || t == .i16 || t == .i32 || t == .i64

/-- Outlier capacity. -/
def THdr.cap (h : THdr) : Nat := match h.ocap with
  | 1 => 8
  | 2 => 16
  | 3 => 32
  | 4 => 64
  | _ => 0

/-- `HeaderCheck` passes (R96). -/
def headerOk (x : Header) : Bool :=
  let h := THdr.of x
  bits x.toNat 120 8 == crc8 15 x.toNat && bits x.toNat 0 49 == 0
  && (tileTy h.fmt).isSome && h.scl ≤ 4 && h.spa ≤ 2 && h.ocap ≤ 4

/-- The length of the block direction: columns for `lay` 0, rows for `lay` 1. -/
def THdr.run (h : THdr) : Nat := if h.lay then 2 ^ h.rows else 2 ^ h.cols

/-- Elements of a scale block, 0 where the layout has none along the run. -/
def THdr.block (h : THdr) : Nat := if h.scl = 3 then 32 else if h.scl = 4 then 16 else 0

/-- Consistency (R98); `res` allows the scales of a res48 tile that `TRES` writes and `TCRT` reads. -/
def THdr.consistent (h : THdr) (res : Bool) : Bool :=
  h.ocnt ≤ h.cap && (h.ocap == 0 || h.spa == 2)
  && (if [Ty.i16, .i32, .i64, .res48].contains h.ty then h.spa == 0 || h.spa == 2 else true)
  && (if tyIsInt h.ty || (h.ty == .res48 && !res) then h.scl == 0 else true)
  && (h.block == 0 || h.run % h.block == 0)
  && (h.spa != 1 || h.run % 4 == 0)

/-! ## Fragments (R101, R102) -/

/-- Elements a thread holds. -/
def THdr.held (h : THdr) : Nat := if h.spa = 1 then h.run / 2 else h.run

/-- The shape fits the group, and the run fills whole registers. -/
def THdr.fits (h : THdr) : Bool :=
  (if h.lay then 2 ^ h.cols ≤ Config.W else 2 ^ h.rows == Config.W) && h.held * h.width % 32 == 0

/-- Registers of a run. -/
def THdr.runRegs (h : THdr) : Nat := h.held * h.width / 32

/-- Scale bytes of a run. -/
def THdr.scaleBytes (h : THdr) : Nat := match h.scl with
  | 0 => 0
  | 1 | 2 => 1
  | _ => h.run / h.block

def THdr.scaleRegs (h : THdr) : Nat := (h.scaleBytes + 3) / 4
def THdr.metaRegs (h : THdr) : Nat := if h.spa = 1 then (h.run / 4 + 7) / 8 else 0
def THdr.hasList (h : THdr) : Bool := h.spa == 2 && 0 < h.cap
def THdr.sideRegs (h : THdr) : Nat := h.scaleRegs + h.metaRegs + (if h.hasList then 2 else 0)

/-- The first of the two registers of the outlier list. -/
def THdr.listReg (h : THdr) : Nat := h.sbase + h.scaleRegs + h.metaRegs

/-- Side data a register fragment accepts (R102). -/
def THdr.sideOk (h : THdr) : Bool :=
  (match h.scl with
    | 0 | 3 | 4 => true
    | 1 => !h.lay
    | _ => h.lay) && h.ocap != 4

/-- The first register at or above a budget that the fragment or its side data reaches. -/
def THdr.over (h : THdr) (budget : Nat) : Option Nat :=
  if budget < h.base + h.runRegs then some (max budget h.base)
  else if 0 < h.sideRegs && budget < h.sbase + h.sideRegs then some (max budget h.sbase)
  else none

/-! ## Checks in order of causes (R105, R108) -/

/-- A failed check: its rank among the causes, the cause and what is reported. -/
abbrev Bad := Nat × Cause × DWord

def badIf (c : Bool) (rank : Nat) (k : Cause) (info : Nat) : List Bad := if c then [(rank, k, bv 64 info)] else []

/-- The first failure in order of rank. -/
def firstBad (xs : List Bad) : Option (Cause × DWord) :=
  let best := xs.foldl (fun (r : Option Bad) x => match r with
    | none => some x
    | some y => if x.1 < y.1 then some x else r) none
  best.map (·.2)

def badIntegrity (x : Header) (info : Nat) : List Bad := badIf (!headerOk x) 1 .hdrIntegrity info

/-- The checks of a register header and its fragment: R98 with `loc` 0 and R101, R102, the budget. -/
def badFragment (h : THdr) (res : Bool) (budget info : Nat) : List Bad :=
  badIf (!(h.consistent res && !h.loc && h.fits)) 2 .hdrMismatch info
  ++ badIf (!h.sideOk) 3 .tileUnsupported info
  ++ (match h.over budget with
    | some r => [(5, .regBudget, bv 64 r)]
    | none => [])

/-! ## Reading fragments -/

/-- A fragment as it is read: the header, and register r of lane i. -/
structure Frag where
  h : THdr
  reg : Nat → Nat → Word

/-- Element k of thread i's run, as stored. A 64-bit element stands in registers base + 2k and base + 2k + 1 also where the base is
odd (DESIGN CHOICE, notes/assumptions/32.md: R101 speaks of even-odd pairs and not of an odd base). -/
def Frag.raw (f : Frag) (i k : Nat) : Nat :=
  let w := f.h.width
  if w = 64 then (pair (f.reg (f.h.base + 2 * k) i) (f.reg (f.h.base + 2 * k + 1) i)).toNat
  else bits (f.reg (f.h.base + k * w / 32) i).toNat (k * w % 32) w

/-- Byte k of thread i's scales. -/
def Frag.scaleByte (f : Frag) (i k : Nat) : Nat := bits (f.reg (f.h.sbase + k / 4) i).toNat (8 * (k % 4)) 8

/-- Metadata nibble k of thread i. -/
def Frag.nibble (f : Frag) (i k : Nat) : Nat := bits (f.reg (f.h.sbase + f.h.scaleRegs + k / 8) i).toNat (4 * (k % 8)) 4

/-- The live outlier entries: index and value. -/
def Frag.list (f : Frag) : List (Nat × Nat) :=
  if f.h.hasList then (upTo f.h.ocnt).map (fun e => ((f.reg f.h.listReg e).toNat, (f.reg (f.h.listReg + 1) e).toNat)) else []

/-- Where the element of a row and column stands: thread and position in its run. -/
def THdr.at_ (h : THdr) (row col : Nat) : Nat × Nat := if h.lay then (col, row) else (row, col)

/-- The kept elements of a thread that stand at a position (R100). -/
def Frag.kept (f : Frag) (i pos : Nat) : List Nat :=
  let n := f.nibble i (pos / 4)
  (if bits n 0 2 = pos % 4 then [f.raw i (pos / 4 * 2)] else [])
  ++ (if bits n 2 2 = pos % 4 then [f.raw i (pos / 4 * 2 + 1)] else [])

/-- The stored elements at a row and column: one, or what 2:4 metadata keeps there. -/
def Frag.stored (f : Frag) (row col : Nat) : List Nat :=
  let (i, k) := f.h.at_ row col
  if f.h.spa = 1 then f.kept i k else [f.raw i k]

/-- The outlier value at a row and column; the earlier of two entries applies (R103). -/
def Frag.outlier (f : Frag) (row col : Nat) : Option Nat :=
  (f.list.find? (fun e => e.1 == row * 2 ^ f.h.cols + col)).map (·.2)

/-- The value of a stored element of a format. -/
def storedVal (t : Ty) (x : Nat) : FVal :=
  if t = .res48 then FVal.ofInt (resValue x)
  else if tyIsInt t then FVal.ofInt (intOf t x)
  else unpack (Fmt.ofTy t) x

/-- A res48 element with its residues reduced, without bits 63:48 (R73). -/
def canonRes (x : Nat) : Nat :=
  bits x 0 16 % resA + bits x 16 16 % resB * 2 ^ 16 + bits x 32 16 % resC * 2 ^ 32

/-- An element that is moved from one place to another as it is written: bits 7:6 of e3m2 are zero (R69), res48 is canonical
(R73). -/
def canonElem (t : Ty) (x : Nat) : Nat := match t with
  | .e3m2 => x % 2 ^ 6
  | .res48 => canonRes x
  | _ => x

/-- The sign bit of an element as stored (R69). -/
def elemSign (t : Ty) (x : Nat) : Bool := bit x (if t = .e3m2 then 5 else tyWidth t - 1)

/-- The scale of a thread's position. With layout 4 the e4m3 value scales a res48 element too (DESIGN CHOICE,
notes/assumptions/32.md: R98 lets `TCRT` read such a tile, R76 speaks of `sexp` alone). -/
def Frag.scale (f : Frag) (i k : Nat) : FVal := match f.h.scl with
  | 0 => .num false 1 0
  | 1 | 2 => unpackE8m0 (f.scaleByte i 0)
  | 3 => unpackE8m0 (f.scaleByte i (k / 32))
  | _ => unpack fmtE4m3 (f.scaleByte i (k / 16))

/-- `ElemX` (R106). -/
def Frag.elem (f : Frag) (row col : Nat) : FVal :=
  match f.outlier row col with
  | some v => if tyIsInt f.h.ty then FVal.ofInt (sgn 32 v) else unpack fmtF32 v
  | none =>
    let (i, k) := f.h.at_ row col
    let v := match (f.stored row col).map (storedVal f.h.ty) with
      | [] => FVal.num false 0 0
      | [x] => x
      | xs => (sumVal .rne xs).1
    if f.h.scl = 0 then v else (mulVal v (f.scale i k)).1

/-- The sign bit of the element, which a NaN keeps (R90): the stored element's, also where its scale makes the NaN; of two elements
that 2:4 metadata keeps at one position, either's (DESIGN CHOICE, notes/assumptions/32.md). -/
def Frag.signBit (f : Frag) (row col : Nat) : Bool :=
  match f.outlier row col with
  | some v => bit v 31
  | none => (f.stored row col).any (elemSign f.h.ty)

/-- All rows and columns in row-major order. -/
def THdr.cells (h : THdr) : List (Nat × Nat) :=
  ((upTo (2 ^ h.rows)).map (fun r => (upTo (2 ^ h.cols)).map (fun c => (r, c)))).flatten

/-- The threads that hold a part of the fragment. -/
def THdr.holders (h : THdr) : List Nat := if h.lay then upTo (2 ^ h.cols) else lanes

/-! ## Writing fragments -/

/-- A run's register writes from the stored elements of a thread. -/
def runWrites (h : THdr) (i : Nat) (xs : List Nat) : List Wr :=
  let all := xs.zipIdx.foldl (fun a x => a + x.1 % 2 ^ h.width * 2 ^ (h.width * x.2)) 0
  (upTo h.runRegs).map (fun r => .v (h.base + r) i (bv 32 (all / 2 ^ (32 * r))))

/-- Scale bytes of a thread as register writes; the bytes of the last register without a scale are written zero (DESIGN CHOICE,
notes/assumptions/32.md: R102 does not name them). -/
def scaleWrites (h : THdr) (i : Nat) (xs : List Nat) : List Wr :=
  let all := xs.zipIdx.foldl (fun a x => a + x.1 % 256 * 2 ^ (8 * x.2)) 0
  (upTo h.scaleRegs).map (fun r => .v (h.sbase + r) i (bv 32 (all / 2 ^ (32 * r))))

/-- Metadata nibbles of a thread as register writes; unused nibbles are written zero (DESIGN CHOICE, notes/assumptions/32.md). -/
def metaWrites (h : THdr) (i : Nat) (xs : List Nat) : List Wr :=
  let all := xs.zipIdx.foldl (fun a x => a + x.1 % 16 * 2 ^ (4 * x.2)) 0
  (upTo h.metaRegs).map (fun r => .v (h.sbase + h.scaleRegs + r) i (bv 32 (all / 2 ^ (32 * r))))

/-- Outlier entries as register writes, one lane each. -/
def listWrites (h : THdr) (xs : List (Nat × Nat)) : List Wr :=
  if h.hasList then (xs.zipIdx.map (fun x => [.v h.listReg x.2 (bv 32 x.1.1), .v (h.listReg + 1) x.2 (bv 32 x.1.2)])).flatten
  else []

/-! ## Narrowing (R88 to R90, R109) -/

/-- The element saturated: ±largest finite, or the nearest limit of an integer format. Of res48, which has none, the residues of the
limits of R73's range stand for it (notes/assumptions/58.md, DESIGN CHOICE). -/
def limitCode (t : Ty) (neg : Bool) : Nat :=
  if t = .res48 then residues (if neg then -140703129108480 else 140703129108479)
  else if tyIsInt t then wrap (tyWidth t) (if neg then tyMin t else tyMax t)
  else signed (Fmt.ofTy t) neg (Fmt.ofTy t).maxc

/-- Rounding into a format; none where the element overflows (R88). -/
def narrow (t : Ty) (v : FVal) : Option Nat :=
  if tyIsInt t then
    match v with
    | .num n m e =>
      let r := (roundInt .rne n m e).1
      if r < tyMin t || tyMax t < r then none else some (wrap (tyWidth t) r)
    | _ => none
  else
    let f := Fmt.ofTy t
    match v with
    | .nan _ => f.nan
    | .inf n => if f.inf then some (signed f n f.infCode) else none
    | .num n m e =>
      if m = 0 then some (signed f n 0)
      else match roundCode f .rne n m e with
        | (some c, _, _) => if f.maxc < c then none else some (signed f n c)
        | (none, _, _) => none

/-- The value field of an outlier entry (R89), a NaN as the canonical one (R70); none where the source class does not hold the value
exactly: the spec states no value there, and the entry takes a free one (notes/assumptions/32.md). -/
def entryValue (t : Ty) (v : FVal) : Option Nat :=
  if tyIsInt t then
    match v with
    | .num n m e =>
      let r := roundInt .rne n m e
      if !r.2 || r.1 < -(2 ^ 31) || 2 ^ 31 ≤ r.1 then none else some (wrap 32 r.1)
    | _ => none
  else match v with
    | .nan _ => some 0x7FC00000
    | v =>
      let (c, fl) := roundTo fmtF32 .rne v
      if fl &&& fNX = 0 then some c else none

/-- A narrowing in progress: elements so far in order, entries so far, loss, and how many free values it took. -/
structure Narrowed where
  els : List Nat
  list : List (Nat × Nat)
  lost : Bool
  fresh : Nat

/-- One more element: its index, value, scaled value and sign bit. An entry whose value the spec does not state
takes a free one (notes/assumptions/5.md). -/
def narrowStep (t : Ty) (cap : Nat) (r : Narrowed) (idx : Nat) (v scaled : FVal) (neg : Bool) : Narrowed :=
  match narrow t scaled with
  | some c => { r with els := r.els ++ [c] }
  | none =>
    if r.list.length < cap then
      match entryValue t v with
      | some x => { r with els := r.els ++ [0], list := r.list ++ [(idx, x)] }
      | none => { r with
          els := r.els ++ [0]
          list := r.list ++ [(idx, (Config.freeWord r.fresh).toNat)]
          fresh := r.fresh + 1 }
    else
      let n := match v with
        | .nan _ => neg
        | v => v.neg
      { r with els := r.els ++ [limitCode t n], lost := true }

/-- x divided by an e4m3 scale, to many bits and a sticky bit. -/
def divScale (x s : FVal) : FVal := match x, s with
  | .num n m e, .num k d f =>
    if d = 0 then .nan false
    else
      let q := m * 2 ^ 160 / d
      .num (n != k) (2 * q + (if m * 2 ^ 160 % d = 0 then 0 else 1)) (e - f - 161)
  | x, _ => x

/-- Does |x| × 2^(−n) stay at or below a format's largest finite value? -/
def fitsAt (t : Ty) (x : FVal) (n : Int) : Bool := match x with
  | .num _ m e =>
    let top : FVal := if tyIsInt t then FVal.ofInt (tyMax t) else unpack (Fmt.ofTy t) (Fmt.ofTy t).maxc
    decide (cmpVal (.num false m (e - n)) top ≤ 0)
  | _ => true

/-- The e8m0 exponent of a block (R109). -/
def blockExp (t : Ty) (xs : List FVal) : Int :=
  let fin := xs.filter (fun x => !x.isNaN && !x.isInf && !x.isZero)
  if fin.isEmpty then 0
  else
    let ns : List Int := (upTo 255).map (fun (k : Nat) => (k : Int) - 127)
    (ns.find? (fun n => fin.all (fun x => fitsAt t x n))).getD 127

/-- The e4m3 scale code of a block (R109). -/
def blockE4m3 (t : Ty) (xs : List FVal) : Nat :=
  let fin := xs.filter (fun x => !x.isNaN && !x.isInf && !x.isZero)
  if fin.isEmpty then 0x38
  else
    let top : FVal := if tyIsInt t then FVal.ofInt (tyMax t) else unpack (Fmt.ofTy t) (Fmt.ofTy t).maxc
    let ok (c : Nat) : Bool := fin.all (fun x => match x with
      | .num _ m e => decide (cmpVal (.num false m e) (mulVal top (unpack fmtE4m3 c)).1 ≤ 0)
      | _ => true)
    (((upTo 0x7E).map (· + 1)).find? ok).getD 0x7E

/-- The positions of block b of a thread's run. -/
def THdr.blockCells (h : THdr) (b : Nat) : List Nat :=
  if h.block = 0 then upTo h.run else (upTo h.block).map (fun k => b * h.block + k)

/-- The row and column of a thread's position. -/
def THdr.cell (h : THdr) (i k : Nat) : Nat × Nat := if h.lay then (k, i) else (i, k)

end Sys2Proof.Machine
end

