-- ==== Sys2Proof/Machine/TileOps.lean ====
section
/-!
DEFINITION. The tile instructions and `MMA` (R37, R73 to R76, R88 to R92, R99, R104 to R112, R360, R392, R393,
R396, R397).
-/
namespace Sys2Proof.Machine

/-- A fragment of a group. -/
def Group.frag (g : Group) (h : THdr) : Frag := { h := h, reg := fun r i => g.getV r i }

def Group.thdr (g : Group) (n : BitVec 4) : THdr := THdr.of (g.getH n.toNat)

/-! ## THDR, TCHK -/

/-- The number of the s register an operand names. -/
def sNum : Opd → Nat
  | .s n => n.toNat
  | _ => 0

def execThdrToH (h : Hdr) (hd : BitVec 4) (x : Opd) (s : State) : Out :=
  issueWord (.thdrToH h hd x) h.sched [] s (fun y =>
    let k := sNum x
    let n := (upTo 4).foldl (fun a j => a + (y.g.getS (k + j)).toNat * 2 ^ (32 * j)) 0
    .done s (y.g.setH hd.toNat (withChk n)))

def execThdrFromH (h : Hdr) (ha : BitVec 4) (x : Opd) (s : State) : Out :=
  issueWord (.thdrFromH h ha x) h.sched [] s (fun y =>
    let k := sNum x
    .done s ((upTo 4).foldl (fun g j => g.setS (k + j) ((y.g.getH ha.toNat).extractLsb' (32 * j) 32)) y.g))

def execTchk (h : Hdr) (ha : BitVec 4) (pd : BitVec 3) (s : State) : Out :=
  issueWord (.tchk h ha pd) h.sched [] s (fun y =>
    let ok := headerOk (y.g.getH ha.toNat) && (y.g.thdr ha).consistent false
    .done s (y.g.setP pd.toNat (~~~0) (if ok then ~~~0 else 0)))

/-! ## The shape of a tile word (R108) -/

/-- A tile word of class L that runs whatever the mask: its checks, then header now and registers at the latency. -/
def tileWord (i : Instr) (h : Hdr) (s : State) (bad : Group → List Bad) (f : Group → Group × List Wr × Nat) : Out :=
  issueWord i h.sched [] s (fun y =>
    match firstBad (bad y.g) with
    | some (c, info) => .trap c info
    | none =>
      let (g, ws, used) := f y.g
      .done { s with fresh := s.fresh + used } (g.leave h.sched.la ws))

/-- The checks of a source header (R105's order). -/
def badSource (g : Group) (n : BitVec 4) (res : Bool) : List Bad :=
  badIntegrity (g.getH n.toNat) n.toNat ++ badFragment (g.thdr n) res g.regs n.toNat

/-- The checks of a template and of the header that results. -/
def badDest (g : Group) (n : BitVec 4) (d : THdr) (res : Bool) : List Bad :=
  badIntegrity (g.getH n.toNat) n.toNat ++ badFragment d res g.regs n.toNat

/-- `TZERO`'s header. -/
def tzeroHdr (h : THdr) : THdr := { h with ocnt := 0, olost := false, sat := false, loc := false, off := 0 }

def execTzero (h : Hdr) (hd : BitVec 4) (s : State) : Out :=
  tileWord (.tzero h hd) h s (fun g => badDest g hd (tzeroHdr (g.thdr hd)) false) (fun g =>
    let d := tzeroHdr (g.thdr hd)
    let run := (d.holders.map (fun i => (upTo d.runRegs).map (fun r => Wr.v (d.base + r) i 0))).flatten
    let list := if d.hasList then (lanes.map (fun i => [Wr.v d.listReg i 0, Wr.v (d.listReg + 1) i 0])).flatten else []
    (g.setH hd.toNat d.word, run ++ list, 0))

/-- `TTRANS`'s header. -/
def ttransHdr (d a : THdr) : THdr := { a with lay := !a.lay, base := d.base, sbase := d.sbase, loc := false, off := 0 }

def execTtrans (h : Hdr) (hd ha : BitVec 4) (s : State) : Out :=
  tileWord (.ttrans h hd ha) h s
    (fun g =>
      let a := g.thdr ha
      badSource g ha false ++ badDest g hd (ttransHdr (g.thdr hd) a) false
      ++ badIf (a.scl != 0 || a.spa == 1) 3 .tileUnsupported ha.toNat)
    (fun g =>
      let a := g.thdr ha
      let d := ttransHdr (g.thdr hd) a
      let f := g.frag a
      let run := (d.holders.map (fun i => runWrites d i ((upTo d.run).map (fun k =>
        let rc := d.cell i k
        let ik := a.at_ rc.1 rc.2
        canonElem a.ty (f.raw ik.1 ik.2))))).flatten
      (g.setH hd.toNat d.word, run ++ listWrites d f.list, 0))

/-! ## TCVT (R109) -/

/-- `TCVT`'s header before the conversion. -/
def tcvtHdr (d a : THdr) : THdr :=
  { d with rows := a.rows, cols := a.cols, lay := a.lay, spa := if d.ocap = 0 then 0 else 2, ocnt := 0, sat := a.sat
           olost := a.olost, loc := false, off := 0 }

/-- Scale bytes of a thread of the destination, and each position's scale as a function. -/
def tcvtScales (d : THdr) (f : Frag) (i : Nat) : List Nat :=
  (upTo d.scaleBytes).map (fun b =>
    let xs := (d.blockCells b).map (fun k => f.elem (d.cell i k).1 (d.cell i k).2)
    if d.scl = 4 then blockE4m3 d.ty xs else (blockExp d.ty xs + 127).toNat)

/-- A value over the scale of a code. -/
def scaleDown (scl code : Nat) (v : FVal) : FVal :=
  match scl with
  | 0 => v
  | 4 => divScale v (unpack fmtE4m3 code)
  | _ => match v with
    | .num n m e => .num n m (e - (code : Int) + 127)
    | v => v

/-- The scaled value of a position, given its thread's scale bytes. -/
def scaledBy (d : THdr) (codes : List Nat) (k : Nat) (v : FVal) : FVal :=
  scaleDown d.scl (if d.scl = 4 then codes.getD (k / 16) 0 else codes.getD (if d.block = 0 then 0 else k / d.block) 127) v

def execTcvt (h : Hdr) (hd ha : BitVec 4) (s : State) : Out :=
  tileWord (.tcvt h hd ha) h s
    (fun g =>
      let a := g.thdr ha
      let t := g.thdr hd
      badSource g ha false ++ badDest g hd (tcvtHdr t a) false
      ++ badIf (a.ty == .res48 || t.ty == .res48 || t.spa == 1) 3 .tileUnsupported hd.toNat)
    (fun g =>
      let a := g.thdr ha
      let d := tcvtHdr (g.thdr hd) a
      let f := g.frag a
      let codes := d.holders.map (tcvtScales d f)
      let step (r : Narrowed) (rc : Nat × Nat) : Narrowed :=
        let (i, k) := d.at_ rc.1 rc.2
        let v := f.elem rc.1 rc.2
        narrowStep d.ty d.cap r (rc.1 * 2 ^ d.cols + rc.2) v (scaledBy d (codes.getD i []) k v) (f.signBit rc.1 rc.2)
      let r := d.cells.foldl step { els := [], list := [], lost := false, fresh := s.fresh }
      let el (row col : Nat) : Nat := r.els.getD (row * 2 ^ d.cols + col) 0
      let run := (d.holders.map (fun i => runWrites d i ((upTo d.run).map (fun k => el (d.cell i k).1 (d.cell i k).2)))).flatten
      let side := (d.holders.map (fun i => scaleWrites d i (codes.getD i []))).flatten
      let out := { d with ocnt := r.list.length, olost := d.olost || r.lost }
      (g.setH hd.toNat out.word, run ++ side ++ listWrites out r.list, r.fresh - s.fresh))

/-! ## TRES, TCRT (R75, R76) -/

def tresHdr (d a : THdr) : THdr :=
  { d with fmt := 0x20, rows := a.rows, cols := a.cols, lay := a.lay, spa := 0, ocap := 0, ocnt := 0, sat := a.sat
           olost := a.olost, loc := false, off := 0 }

/-- The exponent of a float block: max(E − F, −127), or 0 (R75). -/
def resExp (xs : List FVal) (frac : Nat) : Int :=
  let es := xs.filterMap (fun x => match x with
    | .num _ m e => if m = 0 then none else some (expOfMag m e)
    | _ => none)
  match es with
  | [] => 0
  | e :: r => max (r.foldl max e - frac) (-127)

/-- One element to its residues, and whether it sets `sat`. -/
def resElem (int : Bool) (n : Int) : FVal → Nat × Bool
  | .num s m e =>
    let x := (roundInt .rne s m (e - n)).1
    if int then (residues x, !resFits x) else if resFits x then (residues x, false) else (0, true)
  | _ => (0, true)

/-- `TRES`. A scale exponent whose code sexp + 127 is above 254 has no e8m0 code; it is written modulo 256
(notes/assumptions/58.md, DESIGN CHOICE: R75 does not say). -/
def execTres (h : Hdr) (hd ha : BitVec 4) (fr : BitVec 6) (s : State) : Out :=
  tileWord (.tres h hd ha fr) h s
    (fun g =>
      let a := g.thdr ha
      let d := tresHdr (g.thdr hd) a
      badSource g ha false ++ badDest g hd d true
      ++ badIf (!([Ty.i8, .i16, .i32, .i64, .f32, .bf16, .f16].contains a.ty) || d.scl == 4) 3 .tileUnsupported ha.toNat)
    (fun g =>
      let a := g.thdr ha
      let d := tresHdr (g.thdr hd) a
      let f := g.frag a
      let int := tyIsInt a.ty
      let val (i k : Nat) : FVal := f.elem (d.cell i k).1 (d.cell i k).2
      let exps (i : Nat) : List Int := (upTo d.scaleBytes).map (fun b =>
        if int then 0 else resExp ((d.blockCells b).map (val i)) fr.toNat)
      let xs := d.holders.map (fun i =>
        let es := exps i
        (i, es, (upTo d.run).map (fun k =>
          resElem int (if d.scl = 0 then 0 else es.getD (if d.block = 0 then 0 else k / d.block) 0) (val i k))))
      let run := (xs.map (fun x => runWrites d x.1 (x.2.2.map (·.1)))).flatten
      let side := (xs.map (fun x => scaleWrites d x.1 (x.2.1.map (fun e => (e + 127).toNat)))).flatten
      let sat := xs.any (fun x => x.2.2.any (·.2))
      (g.setH hd.toNat { d with sat := d.sat || sat }.word, run ++ side, 0))

def tcrtHdr (d a : THdr) : THdr :=
  { d with rows := a.rows, cols := a.cols, lay := a.lay, scl := 0, spa := 0, ocap := 0, ocnt := 0, sat := a.sat
           olost := a.olost, loc := false, off := 0 }

/-- One element out of residues, and whether it sets `sat` (R76); the scale is 2^sexp, or with `scl` 4 the e4m3 value (DESIGN
CHOICE, notes/assumptions/32.md). -/
def crtElem (t : Ty) (x : Nat) (scale : FVal) : Nat × Bool :=
  if t = .i64 then (wrap 64 (resValue x), false)
  else
    let (c, fl) := roundTo fmtF32 .rne (mulVal (FVal.ofInt (resValue x)) scale).1
    (c, fl &&& fOF != 0)

def execTcrt (h : Hdr) (hd ha : BitVec 4) (s : State) : Out :=
  tileWord (.tcrt h hd ha) h s
    (fun g =>
      let a := g.thdr ha
      let d := tcrtHdr (g.thdr hd) a
      badSource g ha true ++ badDest g hd d false
      ++ badIf (a.ty != .res48 || a.spa != 0 || (d.ty != .i64 && d.ty != .f32)) 3 .tileUnsupported hd.toNat)
    (fun g =>
      let a := g.thdr ha
      let d := tcrtHdr (g.thdr hd) a
      let f := g.frag a
      let xs := d.holders.map (fun i => (i, (upTo d.run).map (fun k => crtElem d.ty (f.raw i k) (f.scale i k))))
      let sat := xs.any (fun x => x.2.any (·.2))
      (g.setH hd.toNat { d with sat := d.sat || sat }.word, (xs.map (fun x => runWrites d x.1 (x.2.map (·.1)))).flatten, 0))

/-! ## MMA (R104 to R107) -/

/-- The classes of the matrix engine. -/
inductive MmaClass where
  | fp8 | fp4 | h16 | int8 | int4 | res
deriving DecidableEq, Repr

def mmaClass (a b : Ty) : Option MmaClass :=
  let f8 (t : Ty) : Bool := t == .e4m3 || t == .e5m2 || t == .e3m2
  let h (t : Ty) : Bool := t == .bf16 || t == .f16
  if f8 a && f8 b then some .fp8
  else if a == .e2m1 && b == .e2m1 then some .fp4
  else if h a && h b then some .h16
  else if a == .i8 && b == .i8 then some .int8
  else if a == .i4 && b == .i4 then some .int4
  else if a == .res48 && b == .res48 then some .res
  else none

/-- K of dense operands. -/
def MmaClass.k : MmaClass → Nat
  | .fp8 | .int8 => 32
  | .fp4 | .int4 => 64
  | .h16 => 16
  | .res => 4

/-- The code of D's format. -/
def MmaClass.dfmt : MmaClass → Nat
  | .int8 | .int4 => 0x13
  | .res => 0x20
  | _ => 0x00

/-- The largest scale layout of the sources. -/
def MmaClass.scl : MmaClass → Nat
  | .fp8 | .fp4 => 4
  | .h16 => 2
  | _ => 0

def MmaClass.sparse (c : MmaClass) : Bool := c != .int4 && c != .res

/-- The header `MMA` infers (R107). -/
def mmaHdr (c : MmaClass) (z : Bool) (d a b : THdr) : THdr where
  fmt := c.dfmt
  rows := a.rows
  cols := b.cols
  scl := 0
  spa := 0
  ocap := 0
  ocnt := 0
  olost := a.olost || b.olost || (!z && d.olost)
  sat := a.sat || b.sat || (!z && d.sat)
  loc := false
  lay := false
  base := d.base
  sbase := d.sbase
  off := 0

/-- The checks of `MMA` (R105). A trap names the first header that fails in the order hA, hB, hD, and hA where a check concerns two
(notes/assumptions/32.md, DESIGN CHOICE: R195 says only that it names an h number). -/
def badMma (s : State) (g : Group) (z : Bool) (hd ha hb : BitVec 4) : List Bad :=
  let a := g.thdr ha
  let b := g.thdr hb
  let d := g.thdr hd
  let shape (h : THdr) (n : BitVec 4) : List Bad := badIf (!(h.consistent false && !h.loc && h.fits)) 2 .hdrMismatch n.toNat
  let side (h : THdr) (n : BitVec 4) : List Bad := badIf (!h.sideOk) 3 .tileUnsupported n.toNat
  let overs (h : THdr) : List Bad := match h.over g.regs with
    | some r => [(5, .regBudget, bv 64 r)]
    | none => []
  badIntegrity (g.getH ha.toNat) ha.toNat ++ badIntegrity (g.getH hb.toNat) hb.toNat
  ++ shape a ha ++ shape b hb
  ++ badIf (a.lay || 2 ^ a.rows != Config.W || a.cols != b.rows) 2 .hdrMismatch ha.toNat
  ++ badIf (!b.lay) 2 .hdrMismatch hb.toNat
  ++ side a ha ++ side b hb
  ++ badIf (b.cols < 3 || 5 < b.cols || b.spa == 1) 3 .tileUnsupported hb.toNat
  ++ (if z then []
      else badIntegrity (g.getH hd.toNat) hd.toNat ++ shape d hd
        ++ badIf (d.lay || d.cols != b.cols) 2 .hdrMismatch hd.toNat
        ++ side d hd ++ badIf (d.scl != 0 || d.spa != 0) 3 .tileUnsupported hd.toNat)
  ++ (match mmaClass a.ty b.ty with
    | none => badIf true 3 .tileUnsupported ha.toNat
    | some c =>
      badIf ((!s.status.mall && c != .h16) || c.scl < a.scl || (a.spa == 1 && !c.sparse)
          || (c == .res && a.spa == 2)) 3 .tileUnsupported ha.toNat
      ++ badIf (c.scl < b.scl || (c == .res && b.spa == 2)) 3 .tileUnsupported hb.toNat
      ++ badIf (2 ^ a.cols != (if a.spa = 1 then 2 * c.k else c.k)) 4 .hdrMismatch ha.toNat
      ++ (if z then [] else badIf (d.fmt != c.dfmt) 4 .hdrMismatch hd.toNat)
      ++ overs a ++ overs b ++ overs (mmaHdr c z d a b))

/-- One float element: a rounding for each block of 32 products (R91). -/
def mmaFloat (a b : Frag) (k i j c : Nat) : Nat :=
  (upTo ((k + 31) / 32)).foldl (fun c blk =>
    let ps := ((upTo k).filter (fun x => x / 32 = blk)).map (fun x => (mulVal (a.elem i x) (b.elem x j)).1)
    (roundTo fmtF32 .rne (sumVal .rne [unpack fmtF32 c, (sumVal .rne ps).1]).1).1) c

/-- The integer value of an element of an integer tile. -/
def Frag.int (f : Frag) (row col : Nat) : Int :=
  match f.outlier row col with
  | some v => sgn 32 v
  | none => ((f.stored row col).map (intOf f.h.ty)).sum

/-- One integer element, modulo 2^32 (R92). -/
def mmaInt (a b : Frag) (k i j c : Nat) : Nat :=
  wrap 32 ((upTo k).foldl (fun acc x => acc + a.int i x * b.int x j) (c : Int))

/-- One res48 element, channel by channel (R74). -/
def mmaRes (a b : Frag) (k i j c : Nat) : Nat :=
  let ch (lo m : Nat) : Nat := (upTo k).foldl (fun acc x =>
    let (i', k') := a.h.at_ i x
    let (j', l') := b.h.at_ x j
    (acc + bits (a.raw i' k') lo 16 * bits (b.raw j' l') lo 16) % m) (bits c lo 16 % m)
  ch 0 resA + ch 16 resB * 2 ^ 16 + ch 32 resC * 2 ^ 32

/-- The rows `MMA` writes. -/
def mmaRows (c : MmaClass) (z : Bool) (a b d : Frag) (e : Mask) : List Wr :=
  let k := 2 ^ a.h.cols
  let n := 2 ^ b.h.cols
  (maskLanes e).map (fun i => runWrites d.h i ((upTo n).map (fun j =>
    let old := if z then 0 else d.raw i j
    match c with
    | .int8 | .int4 => mmaInt a b k i j old
    | .res => mmaRes a b k i j old
    | _ => mmaFloat a b k i j old))) |>.flatten

/-- `MMA` runs for the threads of A that its guard leaves; with none it checks and writes nothing (R105, R360). -/
def execMma (h : Hdr) (z : Bool) (hd ha hb : BitVec 4) (s : State) : Out :=
  issueWord (.mma h z hd ha hb) h.sched [] s (fun y =>
    let g := y.g
    let e := g.taken h.guard
    if e = 0 then .done s g
    else match firstBad (badMma s g z hd ha hb) with
      | some (c, info) => .trap c info
      | none =>
        match mmaClass (g.thdr ha).ty (g.thdr hb).ty with
        | none => .done s g
        | some c =>
          let d := mmaHdr c z (g.thdr hd) (g.thdr ha) (g.thdr hb)
          let ws := mmaRows c z (g.frag (g.thdr ha)) (g.frag (g.thdr hb)) (g.frag d) e
          .done s ((g.setH hd.toNat d.word).leave h.sched.la ws))

/-! ## Memory tiles (R99) -/

def pad16 (n : Nat) : Nat := (n + 15) / 16 * 16

/-- Scale bytes of a memory tile. -/
def THdr.memScales (h : THdr) : Nat := match h.scl with
  | 0 => 0
  | 1 => 2 ^ h.rows
  | 2 => 2 ^ h.cols
  | _ => 2 ^ (h.rows + h.cols) / h.block

def THdr.memMeta (h : THdr) : Nat := if h.spa = 1 then (2 ^ (h.rows + h.cols) + 7) / 8 else 0
def THdr.memList (h : THdr) : Nat := if h.spa = 2 then 8 * h.cap else 0

/-- Offsets from the header of the metadata, the list and the end of the side data. -/
def THdr.metaOff (h : THdr) : Nat := 16 + pad16 h.memScales
def THdr.listOff (h : THdr) : Nat := h.metaOff + pad16 h.memMeta
def THdr.sideEnd (h : THdr) : Nat := h.listOff + pad16 h.memList

/-- Bits of the payload. -/
def THdr.payBits (h : THdr) : Nat := 2 ^ (h.rows + h.cols) * h.width / (if h.spa = 1 then 2 else 1)

/-- Bits of a payload row: a row of the kept shape for 2:4. -/
def THdr.rowBits (h : THdr) : Nat := (if h.spa = 1 && !h.lay then 2 ^ h.cols / 2 else 2 ^ h.cols) * h.width

/-- The index in the payload of position k of row or column i. -/
def THdr.payIdx (h : THdr) (i k : Nat) : Nat :=
  if h.lay then k * 2 ^ h.cols + i else i * h.held + k

/-- The index of scale k of thread i's run. -/
def THdr.scaleIdx (h : THdr) (i k : Nat) : Nat := if h.block = 0 then i else i * (h.run / h.block) + k

/-- Bytes of a memory tile that are read: header, side data, payload. -/
def THdr.extents (h : THdr) (a : Nat) : List (Nat × Nat) :=
  [(a, h.sideEnd), (a + 16 * h.off, (h.payBits + 7) / 8)]

/-- The checks of a memory tile's own form. -/
def THdr.memOk (h : THdr) : Bool := h.sideEnd ≤ 16 * h.off && h.rowBits % 8 == 0

/-! ## TLD (R110) -/

def execTld (h : Hdr) (hd : BitVec 4) (x : Opd) (off : BitVec 20) (ord : Order) (sc : Scope) (s : State) : Out :=
  issueWord (.tld h hd x off ord sc) h.sched [] s (fun y =>
    let g := y.g
    let a := addrOf (g.read [] 0 (src x true .none)) off.toInt 64
    match firstBad (badIntegrity (g.getH hd.toNat) hd.toNat ++ badIf (a % 16 != 0) 2 .hdrMismatch a) with
    | some (c, info) => .trap c info
    | none =>
      match s.checkAcc y.p g [{ lane := 0, addr := a, width := 16 }] false false with
      | some (c, info) => .trap c info
      | none => issueTagged s y (.tld h hd x off ord sc) h.sched.set.toNat 1 0
          (fun _ => [bv 32 a, bv 32 (a / 2 ^ 32)]
            ++ (upTo 4).map (fun j => (g.getH hd.toNat).extractLsb' (32 * j) 32)) [])

/-- The register header of an arriving tile (R108, R110). -/
def tldHdr (t m : THdr) : THdr :=
  { m with base := t.base, sbase := t.sbase, lay := t.lay, loc := false, off := 0
           ocap := if m.ocap = 4 then 3 else m.ocap, ocnt := min m.ocnt 32 }

/-- The checks on arrival, by cause. -/
def badArrival (t m : THdr) (x : Header) (budget a : Nat) : List Bad :=
  badIntegrity x a
  ++ badIf (!(m.consistent false && m.loc && m.memOk)) 2 .hdrMismatch a
  ++ badIf (m.lay != t.lay && (3 ≤ m.scl || m.spa == 1)) 2 .hdrMismatch a
  ++ badFragment (tldHdr t m) false budget a

/-- A byte reader over an arrived tile. -/
abbrev Reader := Nat → Nat → Nat

/-- The writes of an arriving tile: run, scales, metadata, list; and its header. -/
def tldWrites (t m : THdr) (rd : Reader) : List Wr × THdr :=
  let d := tldHdr t m
  let w := m.width
  let elemAt (idx : Nat) : Nat :=
    let b := idx * w
    bits (rd (16 * m.off + b / 8) ((w + 7) / 8)) (b % 8) w
  let entries := (upTo m.ocnt).map (fun e => (rd (m.listOff + 8 * e) 4, rd (m.listOff + 8 * e + 4) 4))
  let late := entries.drop 32
  let early := entries.take 32
  let beyond (idx : Nat) : Option Nat :=
    if early.any (fun e => e.1 == idx) then none else (late.find? (fun e => e.1 == idx)).map (·.2)
  let lost := late.any (fun e => e.1 < 2 ^ (m.rows + m.cols) && (beyond e.1).isSome)
  let raw (i k : Nat) : Nat :=
    if m.spa = 1 then canonElem m.ty (elemAt (m.payIdx i k))
    else
      let rc := d.cell i k
      let idx := rc.1 * 2 ^ m.cols + rc.2
      match beyond idx with
      | some v => limitCode m.ty (bit v 31)
      | none => canonElem m.ty (elemAt idx)
  let run := (d.holders.map (fun i => runWrites d i ((upTo d.held).map (raw i)))).flatten
  let scales := (d.holders.map (fun i => scaleWrites d i ((upTo d.scaleBytes).map (fun k => rd (16 + m.scaleIdx i k) 1)))).flatten
  let nib (n : Nat) : Nat := bits (rd (m.metaOff + n / 2) 1) (4 * (n % 2)) 4
  let metas := if m.spa = 1 then
      (d.holders.map (fun i => metaWrites d i ((upTo (d.run / 4)).map (fun k => nib (i * (d.run / 4) + k))))).flatten
    else []
  (run ++ scales ++ metas ++ listWrites d early, { d with olost := m.olost || lost })

/-- A fault of a tile fetch ends it and relaunches the span or fails the launch (R112); one met in trap mode fails the launch
(R196), and the walker slot, which has none, retires. -/
def State.tileFault (s : State) (p t : Nat) : State :=
  let s := s.modGrp p (fun g => g.setOp t none)
  match s.grp p with
  | some g =>
    if g.kind = .walker then s.retireWalker p
    else if g.inTrap then s.failLaunch g.queue g.seqNo 0x03
    else s.relaunch g.gangKey 0x05
  | none => s

/-- The arrival of a `TLD`: header, then what it names; faults on arrival trap or kill (R110, R112). The writes then stand in the
tag's entry, to be made one by one and the tag released (R266). -/
def State.tldArrive (s : State) (p t : Nat) (g : Group) (o : POp) (hd : Nat) : State :=
  let a := (o.word2 0 0).toNat
  let tmp : THdr := THdr.of ((o.word 5 0) ++ (o.word 4 0) ++ (o.word 3 0) ++ (o.word 2 0))
  if !g.mayLoad o then s.heldOp p t g o 0 (fun _ => [])
  else
    let get (s : State) (xs : List (Nat × Nat)) : Fetched :=
      fetchLines s (placeCore p) g.ctx .load o.faults o.seq o.counted (asksOf xs)
    let hold (f : Fetched) : State := State.holdReads f p t o
    let bytes (f : Fetched) (lo n : Nat) : Option Nat :=
      loadBytes f.s p g f.got o.seq (f.s.tgts p g false (a + lo) n)
    let f := get s [(a, 16)]
    if f.fault.isSome || !f.poisoned.isEmpty then f.s.tileFault p t
    else if f.stuck then hold f
    else match bytes f 0 16 with
      | none => f.s
      | some x =>
        let m := THdr.of (bv 128 x)
        match firstBad (badArrival tmp m (bv 128 x) g.regs a) with
        | some (c, info) => f.s.trapTag p t c info o.pc
        | none =>
          let ext := m.extents a
          if ext.any (fun e => f.s.badAcc { lane := 0, addr := e.1 % 2 ^ 64, width := e.2 }) then
            f.s.trapTag p t .badOwner (bv 64 a) o.pc
          else if ext.any (fun e => (f.s.core (placeCore p)).lockedAcc g.ctx false { lane := 0, addr := e.1 % 2 ^ 64, width := e.2 }) then
            f.s.trapTag p t .rangeLock (bv 64 a) o.pc
          else
            let f := get f.s ext
            if f.fault.isSome || !f.poisoned.isEmpty then f.s.tileFault p t
            else if f.stuck then hold f
            else if g.sq.any (fun e => e.seq < o.seq && (match e.kind with
                | .mred _ _ | .cadd => e.accs.any (fun y => ext.any (fun z => overlaps y.addr.toNat y.width z.1 z.2))
                | _ => false)) then (match (g.sq.head?).bind (·.parked) with
              | some k => f.s.parkAlong p t (o.counting f) k (fun _ => [])
              | none => hold f)
            else
              let (ws, h) := tldWrites tmp m (fun lo n => (bytes f lo n).getD 0)
              f.s.modGrp p (fun g => g.setOp t (some { o with todo := 0, res := ws ++ [.h hd h.word] }))

/-! ## TST (R111) -/

/-- The header in memory. -/
def tstHdr (h : THdr) : THdr :=
  { h with loc := true, base := 0, sbase := 0, off := h.sideEnd / 16 }

/-- The bytes of the tile in memory, from the header on, as one number; the payload follows the side data, and entries of the list
past `ocnt` are zeros (DESIGN CHOICE, notes/assumptions/32.md: R99 gives the region's size and no more). -/
def tstImage (f : Frag) : Nat :=
  let h := f.h
  let m := tstHdr h
  let hs := h.holders
  let scales := (hs.map (fun i => (upTo h.scaleBytes).map (fun k => f.scaleByte i k * 2 ^ (8 * h.scaleIdx i k)))).flatten.sum
  let metas := if h.spa = 1 then
      (hs.map (fun i => (upTo (h.run / 4)).map (fun k => f.nibble i k * 2 ^ (4 * (i * (h.run / 4) + k))))).flatten.sum
    else 0
  let list := (f.list.zipIdx.map (fun e => (e.1.1 + e.1.2 * 2 ^ 32) * 2 ^ (64 * e.2))).sum
  let elem (i k : Nat) : Nat := canonElem h.ty (f.raw i k)
  let pay := (hs.map (fun i => (upTo h.held).map (fun k => elem i k * 2 ^ (h.width * h.payIdx i k)))).flatten.sum
  m.word.toNat + scales * 2 ^ 128 + metas * 2 ^ (8 * h.metaOff) + list * 2 ^ (8 * h.listOff) + pay * 2 ^ (8 * h.sideEnd)

/-- Bytes of the tile in memory. -/
def tstBytes (h : THdr) : Nat := pad16 (h.sideEnd + (h.payBits + 7) / 8)

def execTst (h : Hdr) (ha : BitVec 4) (x : Opd) (off : BitVec 20) (ord : Order) (sc : Scope) (s : State) : Out :=
  issueWord (.tst h ha x off ord sc) h.sched [] s (fun y =>
    let g := y.g
    let a := addrOf (g.read [] 0 (src x true .none)) off.toInt 64
    let t := g.thdr ha
    -- hS first, with the shape that a tile in memory needs; then the address (R397)
    match firstBad (badSource g ha false ++ badIf (t.rowBits % 8 != 0) 2 .hdrMismatch ha.toNat) with
    | some (c, info) => .trap c info
    | none =>
      let acc : LaneAcc := { lane := 0, addr := a, width := tstBytes t }
      if a % 16 != 0 then .trap .hdrMismatch (bv 64 a)
      else if s.badAcc acc then .trap .badOwner (bv 64 a)
      else if (s.core (placeCore y.p)).lockedAcc g.ctx true acc then .trap .rangeLock (bv 64 a)
      else
        let g' := { g.issued h.sched g.lpend.length g.npc with
          st := .waiting
          tst := some {
            pc := g.pc, instr := some (.tst h ha x off ord sc), h := ha.toNat, base := bv 64 (g.read [] 0 (src x true .none)), pos := 0
            seq := s.seq, parked := none } }
        .gone (s.tick.setGrp y.p g'))

/-- The part of a tile image in a line: its bytes and their mask. -/
def imageLine (a n x line : Nat) : Line × BitVec 128 :=
  let lo := max a (line * 128)
  let hi := min (a + n) (line * 128 + 128)
  (linePut 0 (lo % 128) (hi - lo) (bits x (8 * (lo - a)) (8 * (hi - lo))), byteMask (lo % 128) (hi - lo))

/-- Performing a `TST`, after the queue has drained; a fault parks it (R111, R156). R111 leaves the order of its units open: they are
performed in the order of their addresses, those of one line together (notes/assumptions/49.md, DESIGN CHOICE). -/
def State.tstStep (s : State) (p : Nat) (g : Group) (t : TstOp) : State :=
  let hd := g.thdr (bv 4 t.h)
  let a := addrOf t.base.toNat t.off.toInt 64
  let n := tstBytes hd
  let fin (s : State) : State := s.modGrp p (fun g => { g with
    tst := none, st := if g.st = .waiting then .ready else g.st })
  match (rangeAsks a n)[t.pos]? with
  | none => fin s
  | some (line, va) =>
    let (x, m) := imageLine a n (tstImage (g.frag hd)) line
    let next (s : State) : State := s.modGrp p (fun g => { g with tst := some { t with pos := t.pos + 1 } })
    match storeLine s (placeCore p) g.ctx va x m none (m == ~~~0) true with
    | .ok s _ | .poisoned s => next s
    | .far s => next (s.dropFar (placeDie p) va)
    | .fault s d =>
      (s.modGrp p (fun g => { g with tst := some (t.park (s.park d g.ctx)) })).parkGroup p
    | .wait s w => match w with
      | some (d, k) => s.await (.tst p) d g.ctx (some k)
      | none => s

end Sys2Proof.Machine
end

