-- ==== Sys2Proof/Machine/Spawn.lean ====
section
/-!
DEFINITION. Spawning: the spawn table, deposits into bins, the groups they form (R38 to R41, R163, R389, R390;
notes/assumptions/12.md, 13.md).
-/
namespace Sys2Proof.Machine

/-! ## Reading bytes as a unit -/


/-- n bytes at an address, read at their homes. -/
def unitBytes (s : State) (ctx va n : Nat) (acc : AccK) : Ans Nat :=
  (readLines ctx acc ((rangeAsks va n).map (·.2)) s []).andThen fun s xs =>
    .ok s (bits (joinLines xs) (8 * (va % 128)) (8 * n))

/-! ## The spawn table (R41; notes/assumptions/13.md) -/

/-- What a search of a table comes to: no entry, the valid entry, or an entry that lies at an owner no access may name (R114). -/
inductive Found where
  | none
  | entry (x : Header)
  | bad (va : Nat)
deriving DecidableEq, Repr

/-- The valid entry of an entry slot address: the table's entries are read in order up to one not in use. -/
def findEntry (ctx entry : Nat) : Nat → Nat → State → Ans Found
  | 0, _, s => .ok s .none
  | k + 1, va, s =>
    if s.badAcc { lane := 0, addr := va, width := 16 } then .ok s (.bad va)
    else (unitBytes s ctx va 16 .load).andThen fun s x =>
      if !bit x 0 then .ok s .none
      else if entValid (entRead x) && entEntry (entRead x) = entry then .ok s (.entry (entRead x))
      else findEntry ctx entry k ((va + 16) % 2 ^ 64) s

/-- Entries of a table that are read at most: R41 gives a table no length, and one without an end is given up there
(notes/assumptions/13.md, DESIGN CHOICE). -/
def spawnTable : Nat := 4096

/-! ## Bins (R39) -/


/-- A formed group leaves the list of those that wait for a place. -/
def State.unlist (s : State) (d : Nat) (f : Formed) : State := s.modDie d (fun x => { x with formed := x.formed.erase f })

/-- Does the ring of a context hold a group of a key that was formed before (R40)? -/
def State.ringHas (s : State) (d : Nat) (f : Formed) : Bool :=
  (s.ring d f.ctx).held.any (fun x => x.1 == f.queue && x.2.1 == f.seqNo && x.2.2 == f.entry)

/-- The place that a formed group takes, once the groups queued before it have theirs. -/
def State.spawnPlace (s : State) (d : Nat) (f : Formed) : Option Nat :=
  let s := (s.die d).formed.foldl (fun s x => (s.placeSpawned d x none).getD s) s
  (dieCores d).findSome? (fun c => if (placeFormed s f c none).isSome then s.pickPlace c (entRegs f.ent) none else none)

/-- A formed group is queued, under the number of its forming, for the place it takes next, when there is one and none of its key
stands before it in the ring; any other spills to the ring in its turn (R39, R40). -/
def State.sendFormed (s : State) (d : Nat) (f : Formed) : Spill :=
  let s := s.holdDesc d f.ctx
  match (if s.ringHas d f then none else s.spawnPlace d f) with
  | some p => .ok ((({ s with seq := s.seq + 1 }).modDie d (fun x => { x with formed := x.formed ++ [{ f with no := s.seq + 1 }] })).first
      [.spawnedGroupPlace d p])
  | none => s.spillTurn d f

/-- A group that has formed and finds no slot, or whose write waits for a translation, stays in its bin (R40). -/
def State.orHold (r : Spill) (d k : Nat) (b : Bin) : State := match State.freed r d k with
  | .ok s => s
  | .full s | .wait s _ =>
    if b.held = 0 then { s with seq := s.seq + 1 }.setBin d k { b with held := s.seq + 1 } else s

/-- Forming after a timer's expiry. -/
def State.formOrHold (s : State) (d k : Nat) (b : Bin) : State := State.orHold (s.sendFormed d b.formed) d k b

/-- Forming for a pre-emption, and a held group's next try: the group goes to the ring alone (R40, R200). -/
def State.spillOrHold (s : State) (d k : Nat) (b : Bin) : State := State.orHold (s.spillTurn d b.formed) d k b

/-- Is the bin of this key? -/
def Bin.keyIs (b f : Bin) : Bool := b.ctx == f.ctx && b.queue == f.queue && b.seqNo == f.seqNo && b.entry == f.entry

/-- One record into the bin of its key: a free bin where the key has none, `wait` with all busy. A group that is complete and
finds no slot stays in its bin (R40), with the records deposited before: the lane that completes it and fails has not deposited
(R390; notes/assumptions/12.md). -/
def State.deposit (s : State) (d : Nat) (f : Bin) : Spill :=
  let new (s : State) : Spill := match SMap.freeFrom (s.die d).bins 0 Config.bins with
    | some k => .ok (s.setBin d k f)
    | none => .wait s none
  match (s.die d).bins.find? (fun x => x.2.keyIs f) with
  | none => new s
  | some (k, b) =>
    if b.held != 0 then match State.freed (s.spillTurn d b.formed) d k with
      | .ok s => new s
      | r => r
    else
      let b' := { b with recs := b.recs ++ f.recs, npay := max b.npay f.npay, t := max b.t f.t }
      if b'.recs.length < Config.W then .ok (s.setBin d k b')
      else match State.freed (s.sendFormed d b'.formed) d k with
        | .full s => .full ({ s with seq := s.seq + 1 }.setBin d k { b with held := s.seq + 1 })
        | r => r

/-- Deposits of a list of lanes: the state, and whether the overflow area was full. -/
def depositLanes (d : Nat) (f : Nat → Bin) : List Nat → State → Spill
  | [], s => .ok s
  | i :: r, s => match s.deposit d (f i) with
    | .ok s => depositLanes d f r s
    | x => x

/-- A payload of n registers of a lane. -/
def payloadOf (g : Group) (first : Opd) (n i : Nat) : SMap Word :=
  (g.words i first n).zipIdx.foldl (fun m w => SMap.setD m w.2 w.1 0) []

/-- The record a lane deposits, as a bin of one. -/
def spawnRec (s : State) (p : Nat) (g : Group) (entry : DWord) (ent : Header) (first : Opd) (n i : Nat) : Bin where
  ctx := g.ctx
  queue := g.queue
  seqNo := g.seqNo
  entry := entry
  ent := ent
  npay := n
  recs := [payloadOf g first n i]
  t := (s.core (placeCore p)).t
  held := 0

/-- What a word that waits keeps of what it has done: the requests that stand at walk records and on the agenda. -/
def State.keepWaits (s t : State) : State :=
  let w (x y : Die) : Die := { x with walks := y.walks, walkRR := y.walkRR }
  { s with
    agenda := t.agenda
    waits := t.waits
    die0 := w s.die0 t.die0
    die1 := w s.die1 t.die1
    remote := s.remote.map (fun x => (x.1, match t.remote.find x.1 with
      | some y => w x.2 y
      | none => x.2)) }

/-- `SPAWN`: the deposit is a release, so the group's queued stores are performed before it (R163). It waits as a whole where one of
its deposits does. -/
def execSpawn (h : Hdr) (first : Opd) (count : BitVec 4) (x : Bool) (t : Word) (s : State) : Out :=
  issueWord (.spawn h first count x t) h.sched [] s (fun y =>
    let g := y.g
    let m := g.exec h.guard &&& ~~~g.help
    if g.inTrap || g.kind != .ordinary then .trap .illegal g.ir
    else match branchTo g.pc t.toInt with
    | none => .trap .illegal g.ir
    | some pc =>
      match (opdRegs first count.toNat).find? (fun r => g.regs ≤ r) with
      | some r => .trap .regBudget (bv 64 r)
      | none =>
        if m = 0 then .done s g
        else if g.spawnTab = 0 then .trap .spawnEntry pc
        else match findEntry g.ctx pc.toNat spawnTable g.spawnTab.toNat s with
          | .wait s w => .wait (match w with
            | some (d, n) => s.await (.word y.p) d g.ctx (some n)
            | none => s)
          | .fault s d => .gone (s.parkWord y.p d g.ctx)
          | .poisoned _ | .far _ => .trap .poisoned g.spawnTab
          | .ok _ .none => .trap .spawnEntry pc
          | .ok _ (.bad va) => .trap .badOwner (bv 64 va)
          | .ok s (.entry ent) =>
            if !g.loadsDone || !g.sq.isEmpty then .wait s
            else match depositLanes (placeDie y.p) (spawnRec s y.p g pc ent first count.toNat) (maskLanes m) s with
              | .wait t w => .wait (match w with
                | some (d, n) => (s.keepWaits t).await (.word y.p) d g.ctx (some n)
                | none => s.keepWaits t)
              | .full s => .gone (s.takeTrap y.p { cause := .spawnOverflow, info := pc, pc := g.pc })
              | .ok s => if x then endBody s y.p (y.now s) m g.npc h.sched g.lpend.length else .done s (y.now s))

/-- A bin's timer expires: a partial group of the records it holds (R39). A group that stays in its bin goes to the ring alone (R40). -/
def execBinTimerExpiry (d bin : Nat) (s : State) : Out :=
  .next (match (s.die d).bins.find bin with
    | some b => if b.held = 0 then s.formOrHold d bin b else s.spillOrHold d bin b
    | none => s)

end Sys2Proof.Machine
end

