-- ==== Sys2Proof/Machine/Unit.lean ====
section
/-!
DEFINITION. Memory accesses of units: copy engines, splicers, coilers (R138, R144, R170, R234, R452), and the 128-byte
blocks that `KICK`, `BLD` and `CMPCT` read from stash (R231, R312, R350).
-/
namespace Sys2Proof.Machine

/-! ## Reads and writes at the homes -/


/-- n bytes at an address as a unit reads them, and the latest time of the writes they come from. -/
def unitGet (s : State) (ctx va n : Nat) (acc : AccK) : Ans (Nat × Nat) :=
  let r := (rangeAsks va n).foldl (fun (a : Ans (List Line × Nat)) l =>
    a.andThen fun s x => (unitRead s ctx l.2 acc).andThen fun s y =>
      .ok s (x.1 ++ [y.1.data], max x.2 y.2)) (.ok s ([], 0))
  r.andThen fun s x => .ok s (bits (joinLines x.1) (8 * (va % 128)) (8 * n), x.2)

/-- The part of a line's home that n bytes of a value at an address write, at logical time t; with `whole` the unit has now
written all its bytes (R138). -/
def unitPutLine (s : State) (ctx va n v t : Nat) (acc : AccK) (whole : Bool) (line at_ : Nat) : Ans Nat :=
  let lo := max va (line * 128)
  let hi := min (va + n) (line * 128 + 128)
  let x := linePut 0 (lo % 128) (hi - lo) (bits v (8 * (lo - va)) (8 * (hi - lo)))
  let m := byteMask (lo % 128) (hi - lo)
  (homeWriteLine s ctx at_ acc t none (whole || m == ~~~0) (fun h => (some (lineMerge h.data x m), ()))).andThen
    fun s y => .ok s y.w

/-- Writing n bytes for a unit of a die; the latest time of the writes. A line that no link reaches is dropped (R253). -/
def unitPut (s : State) (ctx va n v t : Nat) (acc : AccK) (whole : Bool) (die : Nat) : Ans Nat :=
  (rangeAsks va n).foldl (fun (a : Ans Nat) l => a.andThen fun s w =>
    if s.owner l.2 = .far then .ok (s.linkDropped die) w
    else (unitPutLine s ctx va n v t acc whole l.1 l.2).andThen fun s w' => .ok s (max w w')) (.ok s 0)

/-- Asking for the lines a write is about to change, so that what follows does not stop half-way. -/
def unitTouch (s : State) (ctx va n : Nat) (acc : AccK) : Ans Unit :=
  (rangeAsks va n).foldl (fun (a : Ans Unit) l => a.andThen fun s _ =>
    if s.owner l.2 = .far then .ok s ()
    else (homeWriteLine s ctx l.2 acc 0 none false (fun _ => (none, ()))).andThen fun s _ => .ok s ())
    (.ok s ())

/-- The bytes of an aligned 16-byte unit from an address on, at most `total` less `pos` (R234). -/
def pieceBytes (dst pos total : Nat) : Nat := min (16 - (dst + pos) % 16) (total - pos)

/-- Does a piece of n bytes finish a line that a write of `total` bytes covers? -/
def pieceWhole (dst pos n : Nat) : Bool := (dst + pos + n) % 128 == 0 && 128 ≤ pos + n

/-- A unit's counter add (R170, R452): an add to a page that is not counter-capable, to an address that is no counter's, or
to an owner that is reserved or outside the domain is dropped and counted. -/
def unitAdd (s : State) (ctx va amount t die : Nat) : Ans Nat :=
  let drop (s : State) : State := s.cnt die (fun c => { c with ctrdrop := sat64 (c.ctrdrop + 1) })
  if va % 8 != 0 || s.owner va = .bad then .ok (drop s) 0
  else if s.owner va = .far then .ok (s.linkDropped die) 0
  else (addAtHome s ctx va amount t none).andThen fun s y => if y.out then .ok s y.w else .ok (drop s) 0

/-! ## Request blocks -/

/-- Reading a block at a stash offset of the issuing group: a release, so its loads are done and its queue is empty; a line
bound to a global address is read there. It is no load instruction's request, and adds to no feedback counter (R192;
notes/assumptions/27.md, DESIGN CHOICE). -/
def readBlock (s : State) (x : Issuer) (off : Nat) (k : State → Line → Issue) : Issue :=
  let g := x.g
  if !g.loadsDone || !g.sq.isEmpty then .wait s
  else
    let ts := s.tgts x.p g true off 128
    let ls := linesOf (globs ts)
    let f := fetchLines s (placeCore x.p) g.ctx .load [] s.seq (ls.map (·.1)) ls
    match f.fault, f.poisoned with
    | some k, _ => .gone ((f.s.modGrp x.p (fun g => { g with fetchPark := some k })).parkGroup x.p)
    | none, l :: _ => .trap .poisoned (bv 64 ((SMap.find ls l).getD (l * 128)))
    | none, [] =>
      if f.stuck then .wait (match f.walk with
        | some (d, n) => f.s.await (.word x.p) d g.ctx (some n)
        | none => f.s)
      else match loadBytes f.s x.p g f.got f.s.seq ts with
        | none => .wait f.s
        | some n => k f.s (bv 1024 n)

/-- The two checks of a block's place: alignment, then the allocation. -/
def blockBad (s : State) (x : Issuer) (off : Nat) : Option (Cause × DWord) :=
  if off % 128 != 0 then some (.misaligned, bv 64 off)
  else if !Gang.holds (s.stashGang x.p x.g) off 128 then some (.stashRange, bv 64 off)
  else none

end Sys2Proof.Machine
end

