-- ==== Sys2Proof/Machine/Engine.lean ====
section
/-!
DEFINITION. Kicking a request, the reel slot, and stream decoding (R171, R172, R231 to R233, R243 to R246, R308, R350,
R391).
-/
namespace Sys2Proof.Machine

/-! ## Request blocks (R232, R233) -/

def reqSrc (x : Line) : Nat := bits x.toNat 0 64
def reqDst (x : Line) : Nat := bits x.toNat 64 64
def reqLen (x : Line) : Nat := bits x.toNat 128 40
def reqC0 (x : Line) : Nat := bits x.toNat 192 64
def reqC1 (x : Line) : Nat := bits x.toNat 256 64

def reqSfmt (x : Line) : Nat := bits x.toNat 326 6
def reqDfmt (x : Line) : Nat := bits x.toNat 332 6

/-- `esz`, and the index width in bytes, of a gather or scatter. -/
def reqElem (x : Line) : Nat := 2 ^ bits x.toNat 448 3
def reqIdxBytes (x : Line) : Nat := if bit x.toNat 451 then 8 else 4
def reqIdx (x : Line) : Nat := bits x.toNat 384 64
def reqLim (x : Line) : Nat := bits x.toNat 456 40

/-- A depth composite's rounds, rank and pixel bytes. -/
def reqK (x : Line) : Nat := bits x.toNat 448 8
def reqRank (x : Line) : Nat := bits x.toNat 456 12
def reqPixel (x : Line) : Nat := 8 * 2 ^ bits x.toNat 468 2
def reqAux (x : Line) : Nat := bits x.toNat 512 64
def reqRbuf (x : Line) : Nat := bits x.toNat 576 64

/-- A dedup-write's table size. -/
def reqFsz (x : Line) : Nat := bits x.toNat 448 5

/-- The kind fields: first bit and width. -/
def reqFields (x : Line) : List (Nat × Nat) := match reqKind x with
  | 0 => if reqCvt x = 2 then [(384, 128), (512, 40)] else []
  | 1 | 2 => [(384, 64), (448, 3), (451, 1), (456, 40)]
  | 3 => [(384, 64)]
  | 4 => [(384, 64), (448, 8), (456, 12), (468, 2), (512, 64), (576, 64), (640, 64)]
  | 5 => [(384, 64), (448, 5), (512, 64), (576, 64), (640, 64), (704, 32), (736, 64), (800, 64)]
  | 6 => [(384, 1)]
  | _ => []

/-- Every reserved bit is zero. -/
def reqReservedOk (x : Line) : Bool :=
  let used := (((0, 168) :: (192, 146) :: reqFields x).map (fun f => (2 ^ f.2 - 1) * 2 ^ f.1)).sum
  (x.toNat &&& (2 ^ 1024 - 1 - used)) == 0

/-- The formats an element copy accepts. -/
def copyFmt (n : Nat) : Bool := [0x00, 0x01, 0x02, 0x08, 0x09, 0x0A, 0x0C, 0x11, 0x12, 0x13].contains n

/-- Stored bits of a format code. -/
def fmtBits (n : Nat) : Nat := storedWidth ((tileTy n).getD .f32)

/-- The checks of a block that raise `ILLEGAL` (R231, R233). -/
def reqLegal (x : Line) : Bool :=
  reqKind x < 7 && reqCvt x != 3 && reqReservedOk x
  && (reqKind x == 0 || reqCvt x == 0)
  && (if reqKind x = 0 && reqCvt x = 1 then
        copyFmt (reqSfmt x) && copyFmt (reqDfmt x)
        && reqLen x * fmtBits (reqSfmt x) % 8 == 0 && reqLen x * fmtBits (reqDfmt x) % 8 == 0
      else reqSfmt x == 0 && reqDfmt x == 0)
  && (if reqKind x = 4 then reqK x ≤ 11 && bits x.toNat 468 2 != 3
      else if reqKind x = 5 then 8 ≤ reqFsz x && reqFsz x ≤ 24 else true)

/-- The privileged kinds. -/
def reqPriv (x : Line) : Bool := reqKind x == 5 || reqKind x == 6

/-- The ranges a request registers: base, length, destination (R233). -/
def reqRanges (x : Line) : List (Nat × Nat × Bool) :=
  let n := reqLen x
  let src := reqSrc x
  let dst := reqDst x
  match reqKind x with
  | 0 => match reqCvt x with
    | 0 => [(src, n, false), (dst, n, true)]
    | 1 => [(src, n * fmtBits (reqSfmt x) / 8, false), (dst, n * fmtBits (reqDfmt x) / 8, true)]
    | _ => [(src, n, false), (dst, bits x.toNat 512 40, true)]
  | 1 => [(reqIdx x, n * reqIdxBytes x, false), (src, reqLim x * reqElem x, false), (dst, n * reqElem x, true)]
  | 2 => [(reqIdx x, n * reqIdxBytes x, false), (src, n * reqElem x, false), (dst, reqLim x * reqElem x, true)]
  | 3 => [(dst, n, true)]
  | 4 => [(dst, n * reqPixel x, true), (reqAux x, 2 * n, true), (reqRbuf x, n * (reqPixel x + 2), true)]
  | 5 => [(src, 65536 * n, false), (dst, 65536 * n, true)]
  | _ => []

/-- Does R172 hold a request back: too few entries, or an overlap with an outstanding one? -/
def Core.holdsBack (c : Core) (ctx : Nat) (xs : List (Nat × Nat × Bool)) : Bool :=
  Config.lockEntries < c.locks.length + xs.length
  || xs.any (fun x => c.locks.any (fun l => l.ctx == ctx && (x.2.2 || l.dst) && overlaps x.1 x.2.1 l.lo l.len))

/-! ## KICK (R231) -/


/-- The requests an engine of a die holds, those in kick registers on their way to it included. -/
def State.engLoad (s : State) (d e : Nat) : Nat :=
  ((s.die d).engine e).length
    + (s.cores.filter (fun c => coreDie c.1 == d && (match c.2.kick with
      | some k => k.1 == e
      | none => false))).length

/-- The engine a request goes to. -/
def State.pickEngine (s : State) (d sel : Nat) : Nat :=
  if bit sel 5 then
    ((upTo 32).foldl (fun (b : Nat × Nat) e => if s.engLoad d e < b.2 then (e, s.engLoad d e) else b) (0, s.engLoad d 0)).1
  else sel % 32

def execKick (h : Hdr) (r : Regs) (s : State) : Out :=
  issueWord (.kick h r) h.sched [] s (fun x =>
    let g := x.g
    let c := placeCore x.p
    let off := g.read [] 0 (src r.a false .none)
    match blockBad s x off with
    | some (k, info) => .trap k info
    | none => readBlock s x off (fun s b =>
      if !reqLegal b then .trap .illegal (bv 64 off)
      else if reqPriv b && !g.privileged then .trap .privilege (bv 64 off)
      else
        let core := s.core c
        let e := s.pickEngine (placeDie x.p) (g.read [] 0 (src r.b false .none))
        let rs := reqRanges b
        if core.kick.isSome || Config.engineQueue ≤ s.engLoad (placeDie x.p) e || core.holdsBack g.ctx rs then .wait s
        else
          let q : EngReq := {
            id := s.seq, block := b, ctx := g.ctx, frm := g.frm, t := core.t, tw := core.t, core := c, queue := g.queue
            seqNo := g.seqNo, gang := g.gangKey, index := g.gang.toNat, spawned := g.spawned
            stage := if reqLen b = 0 then 3 else 0, fail := false, phase := 0, pos := 0
            bytes := 0, round := 0, lo := 0, hi := 0, used := 0, shared := 0, units := [], met := false }
          .done (s.tick.setCore c { core with
            kick := some (e, q)
            locks := core.locks ++ rs.map (fun y => { ctx := g.ctx, lo := y.1, len := y.2.1, dst := y.2.2, id := s.seq }) }) (x.now s)))

/-! ## The reel slot (R244, R245, R391) -/


/-- Can the slot's place take a stream: it is free, and its pipe has 32 registers left (R29)? -/
def State.reelFree (s : State) (c : Nat) : Bool :=
  (s.grp (reelPlace c)).isNone && s.pipeRegs (placePipeKey (reelPlace c)) (fun _ => true) + 32 ≤ 128

/-- A stream group of the issuing group (R244); its launch registers are the issuing group's. -/
def streamGroup (g : Group) (order : Nat) (entry arg : DWord) : Group :=
  { (Group.fresh .reel g.ctx entry 32 order (~~~0)).setS2 0 arg with
    prio := g.prio
    gangKey := g.gangKey
    ngroups := g.ngroups
    group := g.group
    gang := g.gang
    span := g.span
    member := g.member
    queue := g.queue
    seqNo := g.seqNo
    spawned := g.spawned
    spawnTab := g.spawnTab
    args := g.args }

/-- Does a stream of another context occupy the slot of the core? `SSTART` then reports status 1 (R391). -/
def State.otherStream (s : State) (c ctx : Nat) : Bool := match s.stream c with
  | some y => y.ctx != ctx
  | none => false

def execSstart (h : Hdr) (r : Regs) (s : State) : Out :=
  issueWord (.sstart h r) h.sched [] s (fun x =>
    let g := x.g
    let c := placeCore x.p
    let status (s : State) (n : Nat) : Issue := .done s (g.wrs (dstWr 0 r.d false n))
    if g.kind == .reel then .trap .illegal g.ir
    else if s.otherStream c g.ctx then status s 1
    else if !(s.core c).mayOwn g.ctx then .wait s
    else
      let s := s.modCore c (fun k => { k with qowner := some g.ctx })
      match s.stream c with
      | some y => if y.running then status s 1 else .wait s
      | none =>
        if !s.reelFree c then status s 2
        else
          let y := streamGroup g (s.seq + 1) (bv 64 (g.read [] 0 (src r.a true .none))) (bv 64 (g.read [] 0 (src r.b true .none)))
          let s := (s.tick.setGrp (reelPlace c) y).modCore c (fun k => { k with
            reelGang := g.gangKey, reelCtx := g.ctx, reelEnd := 0 })
          status s 0)

/-- `SSTOP` waits until its context's stream has stopped, and reports how the last one ended. -/
def execSstop (h : Hdr) (r : Regs) (s : State) : Out :=
  issueWord (.sstop h r) h.sched [] s (fun x =>
    let g := x.g
    let c := placeCore x.p
    let mine := (s.core c).reelCtx == g.ctx
    if g.kind == .reel then .trap .illegal g.ir
    else match s.stream c with
      | some y =>
        if y.ctx = g.ctx then .wait (if y.running then s.endReel (reelPlace c) 1 else s)
        else .done s (g.wrs (dstWr 0 r.d false 0))
      | none => .done s (g.wrs (dstWr 0 r.d false (if mine then (s.core c).reelEnd.toNat else 0))))

/-! ## BDEC (R246, R308) -/

/-- How far a decode has come: it needs a byte; it reads a byte outside; a value and the bits it takes; no code; or a
table length that the spec gives no meaning. -/
inductive Bd where
  | more (off : Nat)
  | out (off : Nat)
  | val (v n : Nat)
  | bad
  | open_

/-- Bit n of a stream whose known bytes are given: 7 − (n mod 8) of byte ⌊n/8⌋. -/
def streamBit (size : Nat) (rd : Nat → Option Byte) (n : Nat) : Except Bd Bool :=
  if size ≤ n / 8 then .error (.out (n / 8))
  else match rd (n / 8) with
    | some b => .ok (b.getLsbD (7 - n % 8))
    | none => .error (.more (n / 8))

/-- k bits from n on as an unsigned number, after what is read already. -/
def streamBits (size : Nat) (rd : Nat → Option Byte) : Nat → Nat → Nat → Except Bd Nat
  | 0, _, a => .ok a
  | k + 1, n, a => match streamBit size rd n with
    | .ok b => streamBits size rd k (n + 1) (2 * a + b.toNat)
    | .error e => .error e

/-- The zeros of an Exp-Golomb code: their number, or none after as many as the fuel. -/
def streamZeros (size : Nat) (rd : Nat → Option Byte) : Nat → Nat → Nat → Except Bd (Option Nat)
  | 0, _, _ => .ok none
  | fuel + 1, n, z => match streamBit size rd n with
    | .ok true => .ok (some z)
    | .ok false => streamZeros size rd fuel (n + 1) (z + 1)
    | .error e => .error e

def decodeEg (size : Nat) (rd : Nat → Option Byte) (k c : Nat) : Bd :=
  match streamZeros size rd (32 - k) c 0 with
  | .error e => e
  | .ok none => .bad
  | .ok (some z) => match streamBits size rd (z + 1 + k) (c + z) 0 with
    | .error e => e
    | .ok x => .val (x - 2 ^ k) (2 * z + 1 + k)

/-- A prefix code: the next 8 bits, zero past the allocation, index the table. -/
def decodePfx (size : Nat) (rd : Nat → Option Byte) (tab c : Nat) : Bd :=
  let byte (o : Nat) : Except Bd Nat := if size ≤ o then .ok 0 else match rd o with
    | some b => .ok b.toNat
    | none => .error (.more o)
  match byte (c / 8), byte (c / 8 + 1) with
  | .error e, _ => e
  | .ok a, y =>
    let idx : Except Bd Nat := if c % 8 = 0 then .ok a else match y with
      | .error e => .error e
      | .ok b => .ok (bits (a * 256 + b) (8 - c % 8) 8)
    match idx with
    | .error e => e
    | .ok i => match byte (tab + 2 * i), byte (tab + 2 * i + 1) with
      | .error e, _ | _, .error e => e
      | .ok lo, .ok hi =>
        let x := lo + 256 * hi
        let n := bits x 12 4
        if n = 0 then .bad else if 8 < n then .open_ else .val (bits x 0 12) n

def decodeOne (kind : BdecKind) (k size tab : Nat) (rd : Nat → Option Byte) (c : Nat) : Bd := match kind with
  | .fix => (match streamBits size rd k c 0 with
    | .error e => e
    | .ok v => .val v k)
  | .eg => decodeEg size rd k c
  | .pfx => decodePfx size rd tab c

/-- Bytes of a prefix table. -/
def pfxBytes : Nat := 512

def execBdec (h : Hdr) (kind : BdecKind) (k : BitVec 10) (r : Regs) (s : State) : Out :=
  issueWord (.bdec h kind k r) h.sched (opdRegs r.d 1 ++ opdRegs r.a 1) s (fun x =>
    let g := x.g
    let e := g.exec h.guard
    let tab := g.read [] 0 (src r.b false .none)
    if kind == .pfx && tab % 2 != 0 then .trap .illegal g.ir
    else if kind == .pfx && e != 0 && !Gang.holds (s.stashGang x.p g) tab pfxBytes then .trap .stashRange (bv 64 tab)
    else issueTagged s x (.bdec h kind k r) h.sched.set.toNat e (e &&& g.help)
      (fun i => g.words i r.a 1 ++ [bv 32 tab]) [])

/-- Asking for the bytes that the lanes' decodes still need, until no lane can go on. -/
def bdecFetch (p : Nat) (g : Group) (o : POp) (out : Fetched → Nat → Bd) : Nat → Fetched → Fetched
  | 0, f => f
  | fuel + 1, f =>
    let offs := (maskLanes o.todo).filterMap (fun i => match out f i with
      | .more n => some n
      | _ => none)
    let ls := (linesOf (globs ((offs.map (fun n => f.s.tgts p g true n 1)).flatten))).filter (fun l =>
      (f.got.find l.1).isNone && !f.poisoned.contains l.1 && !f.faulted.contains l.1)
    if ls.isEmpty then f
    else bdecFetch p g o out fuel (ls.foldl (fetchLine (placeCore p) g.ctx .load o.faults o.seq o.counted) f)

/-- What the decode of a lane comes to: nothing yet, or a value and where the cursor then stands. -/
def Bd.result (o : POp) (fresh i : Nat) : Bd → Option (Nat × Nat)
  | .val v n => some (v, (o.word 0 i).toNat + n)
  | .bad => some (0xFFFFFFFF, (o.word 0 i).toNat)
  | .open_ => some ((Config.freeWord (fresh + 2 * i)).toNat, (Config.freeWord (fresh + 2 * i + 1)).toNat)
  | .more _ | .out _ => none

/-- A `BDEC` that an earlier access holds back waits for it, or parks along with it, its helpers still to decode; one of helpers
alone is done, and they get zero (notes/assumptions/38.md, DESIGN CHOICE). -/
def heldBdec (s : State) (p t : Nat) (g : Group) (o : POp) (r : Regs) : State := match g.heldBy o.seq 0 with
  | some k =>
    if o.todo &&& ~~~o.help = 0 then s.parkAlong p t o k (fun i => dstWr i r.d false 0) else s.parkTagBut p t o 0 k
  | none => s

/-- Performing `BDEC`. Nothing is written before every lane is decided, since one that reads outside the allocation traps for all
(R308); a fault parks the word with every thread unfinished but the helpers whose own line is not to be had, which get zero
(R32). -/
def performBdec (s : State) (p t : Nat) (g : Group) (o : POp) (kind : BdecKind) (k : BitVec 10) (r : Regs) : State :=
  if !g.mayLoad o then heldBdec s p t g o r
  else
    let size := match s.stashGang p g with
      | some x => x.stashSize
      | none => 0
    let rd (f : Fetched) (n : Nat) : Option Byte := match f.s.tgts p g true n 1 with
      | b :: _ => loadByte f.s p g f.got o.seq b
      | [] => none
    let out (f : Fetched) (i : Nat) : Bd :=
      decodeOne kind k.toNat size (o.word 1 i).toNat (rd f) (o.word 0 i).toNat
    let f := bdecFetch p g o out 4
      { s := s, got := [], poisoned := [], faulted := [], fault := none, stuck := false, walk := none }
    let need (i : Nat) : List (Nat × Nat) := match out f i with
      | .more n => linesOf (globs (f.s.tgts p g true n 1))
      | _ => []
    let hits (xs : List Nat) (i : Nat) : Bool := (need i).any (fun y => xs.contains y.1)
    let given (i : Nat) : Bool := o.help.getLsbD i && (hits f.poisoned i || hits f.faulted i)
    let rs := (maskLanes o.todo).map (fun i => (i, out f i))
    let stuck := (rs.filter (fun y => (match y.2 with
      | .more _ => true
      | _ => false) && !given y.1)).map (·.1)
    let wr (i : Nat) (x : Nat × Nat) : List Wr := dstWr i r.d false x.1 ++ dstWr i r.a false x.2
    let of (is : List Nat) : List Wr := (is.map (fun i => match (out f i).result o f.s.fresh i with
      | some x => wr i x
      | none => dstWr i r.d false 0)).flatten
    match stuck.find? (hits f.poisoned), stuck.find? (hits f.faulted), f.fault with
    | some i, _, _ => f.s.poisonTag p t o ((need i).headD (0, 0)).2
    | none, some _, some k =>
      let zs := (maskLanes o.todo).filter given
      f.s.parkTagBut p t { o with res := (zs.map (fun i => dstWr i r.d false 0)).flatten } (maskOf zs.contains) k
    | none, _, _ =>
      if !stuck.isEmpty then State.holdReads f p t o
      else match rs.findSome? (fun y => match y.2 with
        | .out n => some n
        | _ => none) with
      | some n => f.s.trapTag p t .stashRange (bv 64 n) o.pc
      | none => { f.s.modGrp p (fun g => g.setOp t (some { o with todo := 0, res := of (maskLanes o.todo) })) with
          fresh := f.s.fresh + 64 }

end Sys2Proof.Machine
end

