-- ==== Sys2Proof/Machine/SceneNum.lean ====
section
/-!
DEFINITION. The arithmetic of scenes: boxes, slab and triangle tests, node formats, node tests, Morton codes and
quantising (R205 to R212, R214 to R218, R374).
-/
namespace Sys2Proof.Machine

/-! ## Exact f32 values -/

def f32v (x : Nat) : FVal := unpack fmtF32 x

/-- An exact value rounded to f32; these roundings ignore `frm` and set no flag. -/
def f32r (rm : Rm) (v : FVal) : Nat := (roundTo fmtF32 rm v).1

def addV (a b : FVal) : FVal := (sumVal .rne [a, b]).1
def subV (a b : FVal) : FVal := addV a b.flip

/-- An exact quotient, to 64 bits and a sticky bit. -/
def quotVal (a b : FVal) : FVal := match a, b with
  | .nan _, _ | _, .nan _ | .inf _, .inf _ => .nan false
  | .inf x, y => .inf (x != y.neg)
  | x, .inf y => .num (x.neg != y) 0 0
  | .num x m e, .num y n k =>
    if n = 0 then (if m = 0 then .nan false else .inf (x != y))
    else if m = 0 then .num (x != y) 0 0
    else
      let j := n.log2 + 66
      let q := m * 2 ^ j / n
      .num (x != y) (2 * q + (if m * 2 ^ j % n = 0 then 0 else 1)) (e - k - j - 1)

/-- Half of a value. -/
def halfV : FVal → FVal
  | .num s m e => .num s m (e - 1)
  | v => v

/-- Comparisons that a NaN fails. -/
def leV (a b : FVal) : Bool := !a.isNaN && !b.isNaN && decide (cmpVal a b ≤ 0)
def ltV (a b : FVal) : Bool := !a.isNaN && !b.isNaN && decide (cmpVal a b < 0)
def eqV (a b : FVal) : Bool := !a.isNaN && !b.isNaN && decide (cmpVal a b = 0)

/-- The larger and the smaller of two f32 codes. -/
def f32max (a b : Nat) : Nat := (fMinMax fmtF32 true a b).1
def f32min (a b : Nat) : Nat := (fMinMax fmtF32 false a b).1

def f32inf : Nat := 0x7F800000

/-! ## Slab and triangle tests (R211, R212) -/

/-- A ray: origin, direction, interval, as f32 codes. -/
structure Ray where
  o : List Nat
  d : List Nat
  t0 : Nat
  t1 : Nat

def Ray.hasNaN (r : Ray) : Bool := (r.o ++ r.d ++ [r.t0, r.t1]).any (fun x => (f32v x).isNaN)

def Ray.ov (r : Ray) (a : Nat) : FVal := f32v (r.o.getD a 0)
def Ray.dv (r : Ray) (a : Nat) : FVal := f32v (r.d.getD a 0)

/-- One axis narrows the interval, or misses. -/
def slabAxis (r : Ray) (lo hi : List FVal) (t : Option (Nat × Nat)) (a : Nat) : Option (Nat × Nat) :=
  match t with
  | none => none
  | some (t0, t1) =>
    let l := lo.getD a (.nan false)
    let u := hi.getD a (.nan false)
    let o := r.ov a
    let d := r.dv a
    if d.isZero then (if leV l o && leV o u then some (t0, t1) else none)
    else
      let x := quotVal (subV l o) d
      let y := quotVal (subV u o) d
      if x.isNaN || y.isNaN then none
      else
        let (n, f) := if leV x y then (x, y) else (y, x)
        some (f32max t0 (f32r .rdn n), f32min t1 (f32r .rup f))

/-- The entry distance of a box, as an f32 code; none for a miss. -/
def slab (r : Ray) (lo hi : List FVal) : Option Nat :=
  if r.hasNaN then none
  else match (upTo 3).foldl (slabAxis r lo hi) (some (r.t0, r.t1)) with
    | some (t0, t1) => if leV (f32v t0) (f32v t1) then some t0 else none
    | none => none

/-- The f32 operations of the triangle test. -/
def tAdd (a b : Nat) : Nat := (fAdd fmtF32 .rne a b).1
def tSub (a b : Nat) : Nat := (fSub fmtF32 .rne a b).1
def tMul (a b : Nat) : Nat := (fMul fmtF32 .rne a b).1
def tDiv (a b : Nat) : Nat := f32r .rne (quotVal (f32v a) (f32v b))

abbrev V3 := Nat × Nat × Nat

def V3.of (xs : List Nat) (k : Nat) : V3 := (xs.getD k 0, xs.getD (k + 1) 0, xs.getD (k + 2) 0)
def vSub (a b : V3) : V3 := (tSub a.1 b.1, tSub a.2.1 b.2.1, tSub a.2.2 b.2.2)
def vDot (a b : V3) : Nat := tAdd (tAdd (tMul a.1 b.1) (tMul a.2.1 b.2.1)) (tMul a.2.2 b.2.2)
def vCross (a b : V3) : V3 :=
  (tSub (tMul a.2.1 b.2.2) (tMul a.2.2 b.2.1), tSub (tMul a.2.2 b.1) (tMul a.1 b.2.2),
    tSub (tMul a.1 b.2.1) (tMul a.2.1 b.1))

/-- A triangle test: (t, u, v) of a hit. -/
def triTest (r : Ray) (vs : List Nat) : Option (Nat × Nat × Nat) :=
  let o := V3.of r.o 0
  let d := V3.of r.d 0
  let v0 := V3.of vs 0
  let e1 := vSub (V3.of vs 3) v0
  let e2 := vSub (V3.of vs 6) v0
  let p := vCross d e2
  let det := vDot e1 p
  if (f32v det).isZero || (f32v det).isNaN then none
  else
    let s := vSub o v0
    let u := tDiv (vDot s p) det
    let q := vCross s e1
    let v := tDiv (vDot d q) det
    let t := tDiv (vDot e2 q) det
    let zero := f32v 0
    if leV zero (f32v u) && leV zero (f32v v) && leV (f32v (tAdd u v)) (f32v 0x3F800000)
        && leV (f32v r.t0) (f32v t) && leV (f32v t) (f32v r.t1) then some (t, u, v)
    else none

/-! ## The node-format table (R208 to R210) -/

/-- An entry of the table. -/
structure NFmt where
  goff : Nat
  hoff : Nat
  boff : Nat
  moff : Nat
  csz : Nat
  coff : Nat
  koff : Nat
  fan : Nat
  kind : Nat
  valid : Bool
  res : Nat

def NFmt.of (x : Nat) : NFmt where
  goff := bits x 120 8
  hoff := bits x 112 8
  boff := bits x 104 8
  moff := bits x 96 8
  csz := bits x 88 8
  coff := bits x 80 8
  koff := bits x 72 8
  fan := bits x 68 4 + 1
  kind := bits x 65 3
  valid := bit x 64
  res := bits x 0 64

def absent : Nat := 0xFF

/-- The range of a kind's fan-out. -/
def NFmt.fanOk (e : NFmt) : Bool := match e.kind with
  | 0 | 1 | 4 => 2 ≤ e.fan
  | 2 => e.fan == 2
  | 3 => e.fan == 8
  | 5 => e.fan ≤ 3
  | 6 => e.fan == 1
  | _ => true

/-- Bytes of a child record that a kind's test reads. -/
def NFmt.recBytes (e : NFmt) : Nat := match e.kind with
  | 0 => 6
  | 1 => 24
  | 4 => 8
  | 5 => 36
  | _ => 0

/-- Are child records used at all? -/
def NFmt.hasRecs (e : NFmt) : Bool := e.kind != 6 && (e.recBytes != 0 || (e.moff != absent && e.kind != 5))

/-- The fields an entry uses: offset and length. The children of a triangle leaf are those its count names: a `moff` that is present
there is not used; nor are the bytes of a child record beyond those its kind reads (notes/assumptions/56.md, DESIGN CHOICE: R209
says neither). -/
def NFmt.fields (e : NFmt) : List (Nat × Nat) :=
  (match e.kind with
    | 0 => [(e.koff, 15)]
    | 2 => [(e.koff, 1), (e.koff + 4, 4)]
    | 3 => [(e.koff, 24)]
    | 5 => [(e.koff, 9)]
    | 6 => [(e.koff, 12), (e.koff + 16, 32)]
    | _ => [])
  ++ (if e.goff = absent then [] else [(e.goff, 1)])
  ++ (if e.hoff = absent then [] else [(e.hoff, 4)])
  ++ (if e.boff = absent then [] else [(e.boff, 8)])
  ++ (if e.hasRecs then
        ((upTo e.fan).map (fun c => (e.coff + c * e.csz, e.recBytes)
          :: (if e.moff = absent || e.kind == 5 then [] else [(e.coff + c * e.csz + e.moff, 1)]))).flatten
      else [])

/-- A valid entry (R209). One whose records are smaller than what its kind reads of them, or whose `moff` lies past their end, counts
as not valid (notes/assumptions/56.md, DESIGN CHOICE). -/
def NFmt.ok (e : NFmt) : Bool :=
  e.valid && e.res == 0 && e.fanOk
  && (!e.hasRecs || (1 ≤ e.csz && e.csz ≤ 120 && e.recBytes ≤ e.csz
      && (e.moff == absent || e.kind == 5 || e.moff < e.csz)))
  && e.fields.all (fun f => f.1 + f.2 ≤ 128 && !(f.1 ≤ 15 && 15 < f.1 + f.2))

/-! ## Node tests (R207, R210, R214) -/

/-- Child c's meta byte. -/
def childMeta (e : NFmt) (x : Line) (c : Nat) : Nat :=
  if e.moff = absent then 0x80 + c else lineGet x (e.coff + c * e.csz + e.moff) 1

def metaPresent (m : Nat) : Bool := bit m 7
def metaHroot (m : Nat) : Bool := bit m 4

/-- The two hitch snapshots: their low words and error bits. -/
structure Snaps where
  s0 : Nat
  s1 : Nat
  e0 : Bool
  e1 : Bool

def Snaps.val (s : Snaps) (hsel : Bool) : Nat := if hsel then s.s1 else s.s0
def Snaps.err (s : Snaps) (hsel : Bool) : Bool := if hsel then s.e1 else s.e0

/-- Is a hitch ready under a snapshot (R214)? -/
def hitchReady (s : Snaps) (hsel : Bool) (h : Nat) : Bool :=
  !s.err hsel && wrap 32 ((s.val hsel : Int) - h) < 2 ^ 31

/-- f32 values of consecutive words of a line. -/
def lineF32 (x : Line) (k n : Nat) : List FVal := (upTo n).map (fun j => f32v (lineGet x (k + 4 * j) 4))

/-- The side of a split plane at a distance (R210). -/
def planeSide (r : Ray) (a : Nat) (plane : FVal) (t : FVal) : Nat :=
  if ltV (f32v (f32r .rne (addV (r.ov a) (mulVal t (r.dv a)).1))) plane then 0 else 1

/-- The side at tmax, with side(+∞) standing for +∞. -/
def planeSideEnd (r : Ray) (a : Nat) (plane : FVal) (s0 : Nat) : Nat :=
  match f32v r.t1 with
  | .inf false => if (r.dv a).isZero then s0 else if (r.dv a).neg then 0 else 1
  | t => planeSide r a plane t

/-- The hit children with their entry distances, unordered, of an interior kind. `pres` lists the present ones. -/
def interiorHits (e : NFmt) (x : Line) (r : Ray) (pres : List Nat) : List (Nat × Nat) :=
  let rec_ (c : Nat) : Nat := e.coff + c * e.csz
  let boxes (f : Nat → Option Nat) : List (Nat × Nat) := pres.filterMap (fun c => (f c).map (fun t => (t, c)))
  match e.kind with
  | 0 =>
    let ex (a : Nat) : Nat := lineGet x (e.koff + 12 + a) 1
    if (upTo 3).any (fun a => ex a == 0xFF) then []
    else
      let side (c k : Nat) : List FVal := (upTo 3).map (fun a =>
        addV (f32v (lineGet x (e.koff + 4 * a) 4)) (.num false (lineGet x (rec_ c + k + a) 1) ((ex a : Int) - 127)))
      boxes (fun c => slab r (side c 0) (side c 3))
  | 1 => boxes (fun c => slab r (lineF32 x (rec_ c) 3) (lineF32 x (rec_ c + 12) 3))
  | 2 =>
    let a := lineGet x e.koff 1
    let plane := f32v (lineGet x (e.koff + 4) 4)
    if r.hasNaN || !leV (f32v r.t0) (f32v r.t1) then []
    else
      let s0 := planeSide r a plane (f32v r.t0)
      let s1 := planeSideEnd r a plane s0
      let far := f32max r.t0 (f32r .rdn (quotVal (subV plane (r.ov a)) (r.dv a)))
      [(r.t0, s0)] ++ (if s1 = s0 then [] else [(far, 1 - s0)])
  | 3 =>
    let lo := lineF32 x e.koff 3
    let hi := lineF32 x (e.koff + 12) 3
    let mid := (upTo 3).map (fun a => f32v (f32r .rne (halfV (addV (lo.getD a (.nan false)) (hi.getD a (.nan false))))))
    let pick (c : Nat) (low up : List FVal) : List FVal := (upTo 3).map (fun a =>
      if bit c (2 - a) then up.getD a (.nan false) else low.getD a (.nan false))
    boxes (fun c => slab r (pick c lo mid) (pick c mid hi))
  | 4 =>
    let key := r.o.getD 0 0 + r.o.getD 1 0 * 2 ^ 32
    let best := pres.foldl (fun (b : Option (Nat × Nat)) c =>
      let k := lineGet x (rec_ c) 8
      if key < k then b
      else match b with
        | some (k', _) => if k' < k then some (k, c) else b
        | none => some (k, c)) none
    match best with
    | some (_, c) => [(0, c)]
    | none => []
  | _ => pres.map (fun c => (0, c))

/-- Does a hit stand before another: by distance, then by child index; a split plane's near child stands first. -/
def hitBefore (a b : Nat × Nat) : Bool :=
  ltV (f32v a.1) (f32v b.1) || (!ltV (f32v b.1) (f32v a.1) && a.2 < b.2)

/-- Inserting by near-to-far order. -/
def insertHit (a : Nat × Nat) : List (Nat × Nat) → List (Nat × Nat)
  | [] => [a]
  | b :: r => if hitBefore a b then a :: b :: r else b :: insertHit a r

/-- Σ of fields at their places. -/
def packAt (w : Nat) (xs : List Nat) : Nat := xs.zipIdx.foldl (fun a x => a + x.1 % 2 ^ w * 2 ^ (w * x.2)) 0

/-- The results of an interior node in word order, without the status. Bytes of children not present are 0, and no such child counts
among the hitch roots before another; without a hitch field vD+9 is 0, as without a generation the status bit is
(notes/assumptions/56.md, DESIGN CHOICE: R214 does not say). -/
def interiorWords (e : NFmt) (x : Line) (r : Ray) (hsel : Bool) (s : Snaps) (base : Nat) : List Nat :=
  let ms := (upTo e.fan).map (childMeta e x)
  let m (c : Nat) : Nat := ms.getD c 0
  let pres := (upTo e.fan).filter (fun c => metaPresent (m c))
  let h := if e.hoff = absent then 0 else lineGet x e.hoff 4
  let roots (c : Nat) : Nat := (pres.filter (fun k => k < c && metaHroot (m k))).length
  let ready (c : Nat) : Bool := !metaHroot (m c) || e.hoff == absent || hitchReady s hsel (h + roots c)
  let raw := (interiorHits e x r pres).filter (fun y => pres.contains y.2)
  let hits := if e.kind = 2 then raw else raw.foldr insertHit []
  let order := packAt 4 (hits.map (·.2))
  let bytes := packAt 8 ((upTo 16).map (fun c => if pres.contains c then
    bits (m c) 0 4 + bits (m c) 5 2 * 16 + (metaHroot (m c)).toNat * 64 else 0))
  [ (hits.map (fun y => 2 ^ y.2)).sum + (pres.map (fun c => if ready c then 2 ^ (16 + c) else 0)).sum,
    order, order / 2 ^ 32, base, base / 2 ^ 32, bytes, bytes / 2 ^ 32, bytes / 2 ^ 64, bytes / 2 ^ 96, h,
    0, match hits with
      | y :: _ => y.1
      | [] => f32inf ]

/-- The results of a cluster leaf; the entry distance of one that is missed is +∞ (notes/assumptions/56.md, DESIGN CHOICE). -/
def leafWords (e : NFmt) (x : Line) (r : Ray) : List Nat :=
  let k := e.koff
  let d := slab r (lineF32 x k 3) (lineF32 x (k + 16) 3)
  let lines := lineGet x (k + 32) 8
  [ d.isSome.toNat, lineGet x (k + 40) 4, lineGet x (k + 44) 4, lines, lines / 2 ^ 32, 0x20, 0, 0, 0,
    (lineGet x (k + 28) 4 + 2) / 3, 0, d.getD f32inf ]

/-- The results of a triangle leaf; with no triangle hit the words of the nearest hit are 0 and +∞ (notes/assumptions/56.md,
DESIGN CHOICE). -/
def triWords (e : NFmt) (x : Line) (r : Ray) : List Nat :=
  let n := lineGet x (e.koff + 8) 1
  let hs := (upTo n).filterMap (fun c =>
    (triTest r ((upTo 9).map (fun j => lineGet x (e.coff + c * e.csz + 4 * j) 4))).map (fun h => (c, h)))
  let prim (c : Nat) : Nat := (lineGet x (e.koff + 4) 4 + c) % 2 ^ 32
  let near := hs.foldl (fun (b : Option (Nat × Nat × Nat × Nat)) h => match b with
    | none => some h
    | some b =>
      if ltV (f32v h.2.1) (f32v b.2.1) || (eqV (f32v h.2.1) (f32v b.2.1) && prim h.1 < prim b.1) then some h
      else some b) none
  let hit := (hs.map (fun h => 2 ^ h.1)).sum
  match near with
  | some (c, t, u, v) => [hit, lineGet x e.koff 4, prim c, u, v, 0, 0, 0, 0, 0, 0, t]
  | none => [hit, lineGet x e.koff 4, 0, 0, 0, 0, 0, 0, 0, 0, 0, f32inf]

/-- A node test (R214): the twelve result words. `open_` gives the bits the spec leaves open: the kind, `hsel` and
`gen` reported under an entry that is not valid, and the base of a format without one. Under such an entry the stale and failed
bits are 0 (notes/assumptions/56.md, DESIGN CHOICE). -/
def ntestWords (table : BitVec 2048) (open_ : Nat) (x : Line) (r : Ray) (gen : Bool) (s : Snaps) (away : Bool) : List Nat :=
  let ty := lineGet x 15 1 % 16
  let e := NFmt.of (bits table.toNat (128 * ty) 128)
  let has := e.goff != absent
  let g := has && bit (lineGet x e.goff 1) 0
  let hsel := has && bit (lineGet x e.goff 1) 1
  let badCount : Bool := match e.kind with
    | 2 => 2 < lineGet x e.koff 1
    | 5 => lineGet x (e.koff + 8) 1 == 0 || e.fan < lineGet x (e.koff + 8) 1
    | 6 => lineGet x (e.koff + 28) 4 == 0 || 128 < lineGet x (e.koff + 28) 4
    | _ => false
  let stale := has && g != gen
  let failed := e.hoff != absent && s.err hsel
  let status := if e.ok then
      ty + e.kind * 2 ^ 4 + hsel.toNat * 2 ^ 7 + g.toNat * 2 ^ 8 + away.toNat * 2 ^ 9 + stale.toNat * 2 ^ 10
        + failed.toNat * 2 ^ 11 + badCount.toNat * 2 ^ 12
    else ty + bits open_ 0 5 * 2 ^ 4 + away.toNat * 2 ^ 9 + 2 ^ 12
  let ws := if bits status 9 4 != 0 then [0, 0, 0, 0, 0, 0, 0, 0, 0, 0, 0, f32inf]
    else match e.kind with
      | 5 => triWords e x r
      | 6 => leafWords e x r
      | _ => interiorWords e x r hsel s (if e.boff = absent then open_ else lineGet x e.boff 8)
  (ws.take 10 ++ [status] ++ ws.drop 11).map (· % 2 ^ 32)

/-! ## The traversal stack's entries (R215) -/

/-- What `TRVPUSH` pushes for a block of twelve words, in push order: address with flags, and hitch. -/
def pushList (b : Nat → Nat) : List (Nat × Nat) :=
  let st := b 10
  let gen := (bit st 8).toNat
  let hsel := (bit st 7).toNat * 16
  let addr (base k flags : Nat) : Nat := (base + 128 * k) % 2 ^ 64 / 128 * 128 + flags
  if bits st 9 4 != 0 then []
  else match bits st 4 3 with
    | 5 => []
    | 6 =>
      if bit (b 0) 0 then
        (upTo (min (b 9) 43)).reverse.map (fun j => (addr (b 3 + b 4 * 2 ^ 32) j (gen + 4 + hsel), 0))
      else []
    | _ =>
      let base := b 3 + b 4 * 2 ^ 32
      let hit := (upTo 16).filter (fun c => bit (b 0) c)
      let order := (upTo hit.length).map (fun p => bits (b (1 + p / 8)) (4 * (p % 8)) 4)
      let byte (c : Nat) : Nat := bits (b (5 + c / 4)) (8 * (c % 4)) 8
      let roots (c : Nat) : Nat := ((upTo c).filter (fun k => bit (byte k) 6)).length
      let ready (c : Nat) : Bool := bit (b 0) (16 + c)
      let ent (c : Nat) : Nat × Nat :=
        let root := bit (byte c) 6
        (addr base (bits (byte c) 0 4) (gen + bits (byte c) 4 2 * 2 + (!ready c).toNat * 8 + hsel + root.toNat * 32),
          if root then (b 9 + roots c) % 2 ^ 32 else 0)
      let far := order.reverse
      (far.filter (fun c => !ready c)).map ent ++ (far.filter ready).map ent

/-- A popped entry's address word: bit 3 of a hitch root is judged again. -/
def popAddr (s : Snaps) (addr hitch : Nat) : Nat :=
  if bit addr 5 then
    addr - (bit addr 3).toNat * 8 + (!hitchReady s (bit addr 4) hitch).toNat * 8
  else addr

/-! ## Hits (R216) -/

/-- Does a candidate replace the record: t, then instance, geometry, primitive? -/
def hitBeats (c r : Nat → Nat) : Bool :=
  ltV (f32v (c 0)) (f32v (r 0))
  || (eqV (f32v (c 0)) (f32v (r 0))
      && (c 1 < r 1 || (c 1 == r 1 && (c 2 < r 2 || (c 2 == r 2 && c 3 < r 3)))))

/-! ## Morton codes and quantising (R217, R218, R374) -/

/-- The largest integer at or below a finite value. -/
def floorV : FVal → Int
  | .num s m e => (roundInt .rdn s m e).1
  | _ => 0

def ceilV : FVal → Int
  | .num s m e => (roundInt .rup s m e).1
  | _ => 0

/-- One axis of a Morton code. -/
def mortonAxis (p lo hi : Nat) : Nat :=
  let pv := f32v p
  let l := f32v lo
  let h := f32v hi
  if pv.isNaN || l.isNaN || h.isNaN || l.isInf || h.isInf || !ltV l h then 0
  else match pv with
    | .inf n => if n then 0 else 1023
    | _ =>
      match f32v (f32r .rne (quotVal (subV pv l) (subV h l))) with
      | .inf n => if n then 0 else 1023
      | .num s m e => (min (max (floorV (.num s m (e + 10))) 0) 1023).toNat
      | .nan _ => 0

/-- The Morton code of a point in a box. -/
def mortonCode (p box : Nat → Nat) : Nat :=
  let q (a : Nat) : Nat := mortonAxis (p a) (box a) (box (3 + a))
  (upTo 10).foldl (fun c k =>
    c + (bit (q 0) k).toNat * 2 ^ (3 * k + 2) + (bit (q 1) k).toNat * 2 ^ (3 * k + 1) + (bit (q 2) k).toNat * 2 ^ (3 * k)) 0

/-- The centroid of an axis. -/
def centroid (lo hi : Nat) : Nat := f32r .rne (halfV (addV (f32v lo) (f32v hi)))

/-- The smallest exponent code with 255 × 2^(e − 127) at or above the extent; `free` where the extent is infinite and
none is. -/
def frameCode (lo hi free : Nat) : Nat :=
  let l := f32v lo
  let h := f32v hi
  let d := subV h l
  if l.isNaN || h.isNaN then 0xFF
  else if d.isInf && !d.neg || d.isNaN then free % 256
  else if !ltV (f32v 0) d then 0
  else ((upTo 255).find? (fun (c : Nat) => leV d (.num false 255 ((c : Int) - 127)))).getD 0xFE

/-- The frame word of a box. -/
def frameWord (box : Nat → Nat) (free : Nat) : Nat :=
  packAt 8 ((upTo 3).map (fun a => frameCode (box a) (box (3 + a)) (free / 2 ^ (8 * a))))

/-- One bound quantised: floor or ceiling, clamped; `free` where the quotient is no number. -/
def quantise (up : Bool) (x org : Nat) (code free : Nat) : Nat :=
  match subV (f32v x) (f32v org) with
  | .num s m e =>
    let v := FVal.num s m (e - ((code : Int) - 127))
    (min (max (if up then ceilV v else floorV v) 0) 255).toNat
  | .inf n => if n then 0 else 255
  | .nan _ => free % 256

/-- The two words of a child box in a frame. -/
def quantWords (box frame : Nat → Nat) (free : Nat) : List Nat :=
  let code (a : Nat) : Nat := bits (frame 3) (8 * a) 8
  if (upTo 3).any (fun a => code a == 0xFF) || (upTo 6).any (fun a => (f32v (box a)).isNaN) then [0x00FFFFFF, 0]
  else
    let lo := (upTo 3).map (fun a => quantise false (box a) (frame a) (code a) (free / 2 ^ (8 * a)))
    let hi := (upTo 3).map (fun a => quantise true (box (3 + a)) (frame a) (code a) (free / 2 ^ (24 + 8 * a)))
    let w := packAt 8 (lo ++ hi)
    [w % 2 ^ 32, w / 2 ^ 32]

end Sys2Proof.Machine
end

