-- ==== Sys2Proof/Machine/EngineRun.lean ====
section
/-!
DEFINITION. The copy engines at work (R112, R229, R230, R234 to R241; notes/assumptions/17.md). A request advances by one
piece of its kind at a time, which reads one aligned 16-byte unit of a source or writes one of a destination; when its data is
written it adds to its counters and ends.
-/
namespace Sys2Proof.Machine

/-! ## Queues of engines -/


/-- Requests in the kick registers of a die's cores pass to their engine. -/
def State.passKicks (s : State) (d e : Nat) : State :=
  (dieCores d).foldl (fun s c => match (s.core c).kick with
    | some (k, r) => if k = e then (s.modCore c (fun x => { x with kick := none })).setEngine d e ((s.die d).engine e ++ [r]) else s
    | none => s) s


/-- The head ends: its range-lock entries are free (R172). -/
def State.endEng (s : State) (d e : Nat) (r : EngReq) : State :=
  (s.setEngine d e ((s.die d).engine e).tail).modCore r.core (fun c => { c with locks := c.locks.filter (fun l => l.id != r.id) })

/-- The request fails: it adds the error token to its counters and writes nothing further (R236). -/
def EngReq.failed (r : EngReq) : EngReq := { r with fail := true, stage := 2 }

/-- Its data is written: the bytes are counted, then its end (R235). -/
def EngReq.finished (r : EngReq) : EngReq := { r with stage := 2 }

/-- n more bytes written at a time. -/
def EngReq.wrote (r : EngReq) (n w : Nat) : EngReq := { r with bytes := r.bytes + n, tw := max r.tw w }

/-- A further access's time. -/
def EngReq.seen (r : EngReq) (w : Nat) : EngReq := { r with tw := max r.tw w }

/-- A tile copy that meets a fault: its span is killed or its launch fails, and its counters take the error token (R112, R236). -/
def State.tileCopyFault (s : State) (d e : Nat) (r : EngReq) : State := (s.setEngHead d e r.failed).relaunchFor r 0x05

/-- What the head's piece was answered with. -/
def State.engAnswer (s : State) (d e : Nat) (r : EngReq) (a : Ans EngReq) : State :=
  match a with
  | .ok s r' => s.setEngHead d e r'
  | .wait s w => match w with
    | some (k, n) => s.await (.engine d e) k r.ctx (some n)
    | none => s
  | .fault s' k =>
    if r.isTile && r.stage = 0 then s'.tileCopyFault d e r
    else s'.await (.engine d e) k r.ctx none
  | .poisoned s' | .far s' =>
    if r.isTile && r.stage = 0 then s'.tileCopyFault d e r
    else if r.stage = 0 then s'.setEngHead d e r.failed
    else s

/-! ## Units of memory (R173, R234) -/

def engGet (s : State) (r : EngReq) (va n : Nat) : Ans (Nat × Nat) := unitGet s r.ctx va n .engRead
def engPut (s : State) (r : EngReq) (va n v : Nat) (whole : Bool) : Ans Nat :=
  unitPut s r.ctx va n v r.t .engWrite whole (coreDie r.core)

/-- The aligned 16-byte units a byte range names. -/
def rangeUnits (a n : Nat) : List Nat :=
  if n = 0 then [] else (upTo ((a + n - 1) / 16 - a / 16 + 1)).map (fun k => (a / 16 + k) % 2 ^ 60)

/-- Source bytes out of the units that are read, or the first unit that is not: each is read once, at one time. -/
def EngReq.have_ (r : EngReq) (va n : Nat) : Except Nat Nat :=
  let us := rangeUnits va n
  match us.find? (fun u => (r.units.find u).isNone) with
  | some u => .error u
  | none => .ok (bits ((us.zipIdx.map (fun y => r.units.getD y.1 0 * 2 ^ (128 * y.2))).sum) (8 * (va % 16)) (8 * n))

/-- All of a list of bytes, or the first unit that is missing. -/
def allOf {α : Type} (f : Nat → Except Nat α) : List Nat → Except Nat (List α)
  | [] => .ok []
  | k :: ks => match f k, allOf f ks with
    | .error u, _ | _, .error u => .error u
    | .ok x, .ok xs => .ok (x :: xs)

/-- Going on with source bytes; where a unit is missing, this piece of the request reads it. -/
def EngReq.with_ {α : Type} (r : EngReq) (s : State) (x : Except Nat α) (k : α → Ans EngReq) : Ans EngReq :=
  match x with
  | .ok v => k v
  | .error u => (engGet s r (16 * u) 16).andThen fun s y => .ok s { (r.seen y.2) with units := r.units.put u y.1 }

/-- The next piece of a destination is written, and counted. -/
def EngReq.put (r : EngReq) (s : State) (dst n v : Nat) : Ans EngReq :=
  (engPut s r (dst + r.pos) n v (pieceWhole dst r.pos n)).andThen fun s w => .ok s { (r.wrote n w) with pos := r.pos + n }

/-- Bytes [pos, pos + n) of consecutive elements of `size` bits, element by element. -/
def elemBytes (size pos n : Nat) (f : Nat → Except Nat Nat) : Except Nat Nat :=
  let k0 := 8 * pos / size
  let k1 := (8 * (pos + n) + size - 1) / size
  match allOf f ((upTo (k1 - k0)).map (· + k0)) with
  | .error u => .error u
  | .ok xs =>
    let v := (xs.zipIdx.map (fun x => x.1 % 2 ^ size * 2 ^ (size * x.2))).sum
    .ok (bits v (8 * pos - size * k0) (8 * n))

/-! ## Copy (R237) -/

def copyBytes (s : State) (r : EngReq) : Ans EngReq :=
  let b := r.block
  let n := pieceBytes (reqDst b) r.pos (reqLen b)
  if reqLen b ≤ r.pos then .ok s r.finished
  else r.with_ s (r.have_ (reqSrc b + r.pos) n) (fun v => r.put s (reqDst b) n v)

/-- An element of an element copy (R84 to R87); integers go to the nearest limit. -/
def copyElem (dt st : Ty) (rm : Rm) (x : Nat) : Nat :=
  if tyIsInt st then
    let v := intOf st x
    if tyIsInt dt then wrap (tyWidth dt) (min (max v (tyMin dt)) (tyMax dt)) else (i2f dt rm v).1
  else if tyIsInt dt then wrap (tyWidth dt) (f2i dt rm (unpackTy st x)).1
  else (fCvt dt st rm x).1

/-- Element k of an element copy, converted. -/
def EngReq.converted (r : EngReq) (st dt : Ty) (k : Nat) : Except Nat Nat :=
  let sw := storedWidth st
  match r.have_ (reqSrc r.block + k * sw / 8) ((k * sw % 8 + sw + 7) / 8) with
  | .error u => .error u
  | .ok x => .ok (copyElem dt st (Rm.of r.frm) (bits x (k * sw % 8) sw))

def copyElems (s : State) (r : EngReq) : Ans EngReq :=
  let b := r.block
  let st := (tileTy (reqSfmt b)).getD .f32
  let dt := (tileTy (reqDfmt b)).getD .f32
  let total := reqLen b * storedWidth dt / 8
  let n := pieceBytes (reqDst b) r.pos total
  if total ≤ r.pos then .ok s r.finished
  else r.with_ s (elemBytes (storedWidth dt) r.pos n (r.converted st dt)) (fun v => r.put s (reqDst b) n v)

/-! ### Tiles in memory -/

/-- A memory tile as it is read: its header and its bytes by offset. -/
structure MTile where
  h : THdr
  rd : Reader

/-- Element idx of the payload. -/
def MTile.pay (f : MTile) (idx : Nat) : Nat :=
  let b := idx * f.h.width
  bits (f.rd (16 * f.h.off + b / 8) ((f.h.width + 7) / 8)) (b % 8) f.h.width

def MTile.nibble (f : MTile) (n : Nat) : Nat := bits (f.rd (f.h.metaOff + n / 2) 1) (4 * (n % 2)) 4

/-- The stored elements at a row and column. -/
def MTile.stored (f : MTile) (row col : Nat) : List Nat :=
  let (i, k) := f.h.at_ row col
  if f.h.spa = 1 then
    let n := f.nibble (i * (f.h.run / 4) + k / 4)
    (if bits n 0 2 = k % 4 then [f.pay (f.h.payIdx i (k / 4 * 2))] else [])
    ++ (if bits n 2 2 = k % 4 then [f.pay (f.h.payIdx i (k / 4 * 2 + 1))] else [])
  else [f.pay (f.h.payIdx i k)]

/-- The outlier value at a row and column; the earlier of two entries applies. -/
def MTile.outlier (f : MTile) (row col : Nat) : Option Nat :=
  if f.h.spa = 2 then
    ((upTo f.h.ocnt).find? (fun e => f.rd (f.h.listOff + 8 * e) 4 == row * 2 ^ f.h.cols + col)).map
      (fun e => f.rd (f.h.listOff + 8 * e + 4) 4)
  else none

/-- The index of the scale that a row and column have in memory. -/
def THdr.scaleOf (h : THdr) (row col : Nat) : Nat := match h.scl with
  | 1 => row
  | 2 => col
  | _ =>
    let (i, k) := h.at_ row col
    h.scaleIdx i (k / h.block)

/-- The rows and columns that share a scale. -/
def THdr.scaleCells (h : THdr) (n : Nat) : List (Nat × Nat) := match h.scl with
  | 1 => (upTo (2 ^ h.cols)).map (fun c => (n, c))
  | 2 => (upTo (2 ^ h.rows)).map (fun r => (r, n))
  | _ =>
    let per := h.run / h.block
    (upTo h.block).map (fun k => h.cell (n / per) (n % per * h.block + k))

/-- `ElemX` of a memory tile (R106). -/
def MTile.elem (f : MTile) (row col : Nat) : FVal :=
  match f.outlier row col with
  | some v => if tyIsInt f.h.ty then FVal.ofInt (sgn 32 v) else unpack fmtF32 v
  | none =>
    let v := match (f.stored row col).map (storedVal f.h.ty) with
      | [] => FVal.num false 0 0
      | [x] => x
      | xs => (sumVal .rne xs).1
    if f.h.scl = 0 then v
    else
      let c := f.rd (16 + f.h.scaleOf row col) 1
      (mulVal v (if f.h.scl = 4 then unpack fmtE4m3 c else unpackE8m0 c)).1

/-- The sign bit of the element. -/
def MTile.signBit (f : MTile) (row col : Nat) : Bool :=
  match f.outlier row col with
  | some v => bit v 31
  | none => (f.stored row col).any (elemSign f.h.ty)

/-- The header a tile copy writes before the conversion. -/
def copyTileHdr (tmpl a : THdr) : THdr := tcvtHdr tmpl a

/-- The image a tile copy writes (R99, R109): a number of `tstBytes` bytes, and the free values it took. -/
def copyImage (f : MTile) (d : THdr) (fresh : Nat) : Nat × Nat :=
  let codes : List Nat := (upTo d.memScales).map (fun n =>
    let xs := (d.scaleCells n).map (fun rc => f.elem rc.1 rc.2)
    if d.scl = 4 then blockE4m3 d.ty xs else (blockExp d.ty xs + 127).toNat)
  let step (r : Narrowed) (rc : Nat × Nat) : Narrowed :=
    let v := f.elem rc.1 rc.2
    let code := if d.scl = 0 then 0 else codes.getD (d.scaleOf rc.1 rc.2) 0
    narrowStep d.ty d.cap r (rc.1 * 2 ^ d.cols + rc.2) v (scaleDown d.scl code v) (f.signBit rc.1 rc.2)
  let r := d.cells.foldl step { els := [], list := [], lost := false, fresh := fresh }
  let out := tstHdr { d with ocnt := r.list.length, olost := d.olost || r.lost }
  let scales := (codes.zipIdx.map (fun c => c.1 % 256 * 2 ^ (8 * c.2))).sum
  let list := (r.list.zipIdx.map (fun e => (e.1.1 + e.1.2 * 2 ^ 32) * 2 ^ (64 * e.2))).sum
  let pay := ((d.cells.zip r.els).map (fun x =>
    let (i, k) := d.at_ x.1.1 x.1.2
    x.2 % 2 ^ d.width * 2 ^ (d.width * d.payIdx i k))).sum
  (out.word.toNat + scales * 2 ^ 128 + list * 2 ^ (8 * d.listOff) + pay * 2 ^ (8 * d.sideEnd), r.fresh - fresh)

/-- The checks of a tile copy against its source header and template (R237); a breach fails the request. -/
def tileCopyOk (b : Line) (x tmpl : Header) : Bool :=
  let m := THdr.of x
  let t := THdr.of tmpl
  let d := copyTileHdr t m
  headerOk x && m.consistent false && m.loc && m.memOk
  && (m.extents 0).all (fun e => e.1 + e.2 ≤ reqLen b)
  && headerOk tmpl && d.consistent false && d.rowBits % 8 == 0
  && m.ty != .res48 && t.ty != .res48 && t.spa != 1
  && tstBytes d ≤ bits b.toNat 512 40

/-- The template of a tile copy. -/
def reqTmpl (b : Line) : Header := bv 128 (bits b.toNat 384 128)

/-- The header of the source tile, and its bytes by offset, once they are read. -/
def EngReq.sideOf (r : EngReq) (m : THdr) : Except Nat (Nat × Nat) :=
  match r.have_ (reqSrc r.block) m.sideEnd, r.have_ (reqSrc r.block + 16 * m.off) ((m.payBits + 7) / 8) with
  | .error u, _ | _, .error u => .error u
  | .ok x, .ok y => .ok (x, y)

/-- A tile copy: its source is read; the lines of the result are asked for, all before the first is written; then it is written. -/
def copyTile (s : State) (r : EngReq) : Ans EngReq :=
  let b := r.block
  let a := reqSrc b
  if a % 16 != 0 || reqDst b % 16 != 0 || reqLen b < 16 then .ok s r.failed
  else r.with_ s (r.have_ a 16) (fun x =>
    if !tileCopyOk b (bv 128 x) (reqTmpl b) then .ok s r.failed
    else
      let m := THdr.of (bv 128 x)
      let d := copyTileHdr (THdr.of (reqTmpl b)) m
      let n := tstBytes d
      r.with_ s (r.sideOf m) (fun y =>
        let rd (lo n : Nat) : Nat :=
          if 16 * m.off ≤ lo then bits y.2 (8 * (lo - 16 * m.off)) (8 * n) else bits y.1 (8 * lo) (8 * n)
        let img (base : Nat) : Nat × Nat := copyImage { h := m, rd := rd } d base
        if r.phase = 0 then
          (unitTouch s r.ctx (reqDst b) n .engWrite).andThen fun s _ =>
            .ok { s with fresh := s.fresh + (img s.fresh).2 } { r with phase := 1, used := s.fresh }
        else if n ≤ r.pos then .ok s r.finished
        else
          let k := pieceBytes (reqDst b) r.pos n
          r.put s (reqDst b) k (bits (img r.used).1 (8 * r.pos) (8 * k))))

def copyStep (s : State) (r : EngReq) : Ans EngReq := match reqCvt r.block with
  | 0 => copyBytes s r
  | 1 => copyElems s r
  | _ => copyTile s r

/-! ## Gather, scatter, fill (R238) -/

/-- Index i of a list. -/
def EngReq.index_ (r : EngReq) (i : Nat) : Except Nat Nat :=
  let n := reqIdxBytes r.block
  r.have_ (reqIdx r.block + n * i) n

/-- The element that position k of a gather takes; one outside the limit is zeros. -/
def EngReq.gathered (r : EngReq) (k : Nat) : Except Nat Nat :=
  let n := reqElem r.block
  match r.index_ k with
  | .error u => .error u
  | .ok x => if x < reqLim r.block then r.have_ ((reqSrc r.block + n * x) % 2 ^ 64) n else .ok 0

def gatherStep (s : State) (r : EngReq) : Ans EngReq :=
  let b := r.block
  let total := reqLen b * reqElem b
  let n := pieceBytes (reqDst b) r.pos total
  if total ≤ r.pos then .ok s r.finished
  else r.with_ s (elemBytes (8 * reqElem b) r.pos n r.gathered) (fun v => r.put s (reqDst b) n v)

/-- The lines of an element are asked for before the first is written, so that a fault on one finds none of it written (R236). -/
def scatterStep (s : State) (r : EngReq) : Ans EngReq :=
  let b := r.block
  let n := reqElem b
  if reqLen b ≤ r.pos then .ok s r.finished
  else r.with_ s (r.index_ r.pos) (fun x =>
    if reqLim b ≤ x then .ok s { (r.wrote n 0) with pos := r.pos + 1 }
    else r.with_ s (r.have_ (reqSrc b + n * r.pos) n) (fun y =>
      let at_ := (reqDst b + n * x) % 2 ^ 64
      (unitTouch s r.ctx at_ n .engWrite).andThen fun s _ => (engPut s r at_ n y false).andThen fun s w =>
        .ok s { (r.wrote n w) with pos := r.pos + 1 }))

/-- The bytes of a fill from `pos` on. -/
def fillBytes (b : Line) (pos n : Nat) : Nat :=
  ((upTo n).map (fun k => bits b.toNat (384 + 8 * ((pos + k) % 8)) 8 * 2 ^ (8 * k))).sum

def fillStep (s : State) (r : EngReq) : Ans EngReq :=
  let b := r.block
  let n := pieceBytes (reqDst b) r.pos (reqLen b)
  if reqLen b ≤ r.pos then .ok s r.finished else r.put s (reqDst b) n (fillBytes b r.pos n)

/-! ## Depth composite (R229, R230, R239) -/

/-- An entry of `peers`: `rbuf` and the sync counter of a rank. -/
def engPeer (s : State) (r : EngReq) (p : Nat) : Ans (Nat × Nat) :=
  (engGet s r (bits r.block.toNat 384 64 + 32 * p) 16).andThen fun s x => .ok s (bits x.1 0 64, bits x.1 64 64)

/-- The partner of this round, the middle of the region, and the kept and the sent half. -/
def EngReq.partner (r : EngReq) : Nat := reqRank r.block ^^^ 2 ^ r.round
def EngReq.mid (r : EngReq) : Nat := r.lo + (r.hi - r.lo + 1) / 2
def EngReq.keepsLow (r : EngReq) : Bool := !bit (reqRank r.block) r.round
def EngReq.kept (r : EngReq) : Nat × Nat := if r.keepsLow then (r.lo, r.mid) else (r.mid, r.hi)
def EngReq.away (r : EngReq) : Nat × Nat := if r.keepsLow then (r.mid, r.hi) else (r.lo, r.mid)

/-- A piece of a composite is written. -/
def EngReq.putPiece (r : EngReq) (s : State) (dst q n v : Nat) : Ans EngReq :=
  (engPut s r (dst + q) n v (pieceWhole dst q n)).andThen fun s w => .ok s { (r.seen w) with pos := r.pos + n }

/-- Sending the next bytes of the half: its pixels, then their ranks, to the partner's `rbuf` (R239). -/
def sendPiece (s : State) (r : EngReq) (rbuf : Nat) : Ans EngReq :=
  let b := r.block
  let px := reqPixel b
  let a := r.away.1
  let m := r.away.2 - a
  let go (src dst q total : Nat) : Ans EngReq :=
    let n := pieceBytes dst q total
    r.with_ s (r.have_ (src + q) n) (fun v => r.putPiece s dst q n v)
  if r.pos < m * px then go (reqDst b + px * a) (rbuf + px * a) r.pos (m * px)
  else go (reqAux b + 2 * a) (rbuf + reqLen b * px + 2 * a) (r.pos - m * px) (2 * m)

/-- Does a received pixel replace the kept one: depth, then source rank (R230)? -/
def pixelLess (d1 r1 d0 r0 : Nat) : Bool :=
  let x := f32v d1
  let y := f32v d0
  if x.isNaN && y.isNaN then r1 < r0
  else if x.isNaN then false
  else if y.isNaN then true
  else ltV x y || (eqV x y && r1 < r0)

/-- The pieces of a depth composite before its merges. Phases: 0 sets `aux`, 1 sends, 2 adds to the partner's counter,
3 waits for the own one; 4 merges. -/
def compositeStep (s : State) (r : EngReq) : Ans EngReq :=
  let b := r.block
  let n := reqLen b
  let px := reqPixel b
  if 2 ^ reqK b ≤ reqRank b then .ok s r.failed
  else match r.phase with
    | 0 =>
      let m := pieceBytes (reqAux b) r.pos (2 * n)
      if 2 * n ≤ r.pos then .ok s { r with phase := 1, pos := 0, lo := 0, hi := n }
      else
        let v := ((upTo m).map (fun k => bits (reqRank b) (8 * ((r.pos + k) % 2)) 8 * 2 ^ (8 * k))).sum
        r.putPiece s (reqAux b) r.pos m v
    | 1 =>
      if reqK b ≤ r.round then .ok s ({ r with bytes := (r.hi - r.lo) * px }).finished
      else if (r.away.2 - r.away.1) * (px + 2) ≤ r.pos then .ok s { r with phase := 2, pos := 0, units := [] }
      else (engPeer s r r.partner).andThen fun s peer => sendPiece s r peer.1
    | 2 => (engPeer s r r.partner).andThen fun s peer =>
        (unitAdd s r.ctx peer.2 1 (max r.t r.tw) (coreDie r.core)).andThen fun s w =>
          .ok s { (r.seen w) with phase := 3 }
    | _ => (engPeer s r (reqRank b)).andThen fun s peer =>
        (readAtHome s r.ctx peer.2).andThen fun s y => match y with
          | none => .ok s r.failed
          | some (v, w) =>
            let target := (bits b.toNat 640 64 + r.round + 1) % 2 ^ 64
            if bit v 63 then .ok s r.failed
            else if bits target 0 63 ≤ v then .ok s { (r.seen w) with phase := 4, pos := 0, units := [] }
            else .ok s r

/-- Does the received pixel i win, by the depths and ranks as they stood before this merge? -/
def EngReq.wins (r : EngReq) (i : Nat) : Except Nat Bool :=
  let b := r.block
  let px := reqPixel b
  match r.have_ (reqRbuf b + px * i) 4, r.have_ (reqRbuf b + reqLen b * px + 2 * i) 2, r.have_ (reqDst b + px * i) 4,
      r.have_ (reqAux b + 2 * i) 2 with
  | .ok d1, .ok r1, .ok d0, .ok r0 => .ok (pixelLess d1 r1 d0 r0)
  | .error u, _, _, _ | _, .error u, _, _ | _, _, .error u, _ | _, _, _, .error u => .error u

/-- What element i of `w` bytes, one a pixel, gives a piece [q, q + n) of its array: first byte, length and bytes. -/
def EngReq.mergePart (r : EngReq) (from_ w q n i : Nat) : Except Nat (Option (Nat × Nat × Nat)) :=
  let lo := max q (w * i)
  let m := min (q + n) (w * i + w) - lo
  match r.wins i with
  | .error u => .error u
  | .ok false => .ok none
  | .ok true => match r.have_ (from_ + lo) m with
    | .error u => .error u
    | .ok v => .ok (some (lo, m, v))

/-- Merging the received half into the kept one, in pieces of one unit: the pixels, then the ranks (R230). -/
def mergeStep (s : State) (r : EngReq) : Ans EngReq :=
  let b := r.block
  let px := reqPixel b
  let k0 := r.kept.1
  let m := r.kept.2 - k0
  let go (from_ dst w q0 : Nat) : Ans EngReq :=
    let q := w * k0 + (r.pos - q0)
    let n := pieceBytes dst q (w * (k0 + m))
    r.with_ s (allOf (r.mergePart from_ w q n) ((upTo ((q + n - 1) / w - q / w + 1)).map (· + q / w))) (fun xs =>
      (xs.filterMap id).foldl (fun (a : Ans EngReq) x => a.andThen fun s r =>
        (engPut s r (dst + x.1) x.2.1 x.2.2 false).andThen fun s w => .ok s (r.seen w)) (.ok s { r with pos := r.pos + n }))
  if m * (px + 2) ≤ r.pos then
    .ok s { r with phase := 1, pos := 0, lo := k0, hi := r.kept.2, round := r.round + 1, units := [] }
  else if r.pos < m * px then go (reqRbuf b) (reqDst b) px 0
  else go (reqRbuf b + reqLen b * px) (reqAux b) 2 (m * px)

/-! ## Deduplicating write (R240) -/

def pageBytes : Nat := 65536

/-- Physical bytes that a request may use. -/
def physRange (a n : Nat) : Bool := physOk a && physOk (a + n - 1)

/-- Physical bytes as they are stored, unless 8 of them are poisoned (R370). -/
def State.physGet (s : State) (d a n : Nat) : Option Nat :=
  if (upTo ((a + n - 1) / 8 - a / 8 + 1)).any (fun k => s.physPoison d (a / 8 * 8 + 8 * k)) then none else some (s.phys d a n)

/-- A memory read that comes back poisoned is counted (R251), and fails the request (R236). -/
def EngReq.poisoned (r : EngReq) (s : State) : Ans EngReq :=
  .ok (s.cnt (coreDie r.core) (fun c => { c with memPoison := sat64 (c.memPoison + 1) })) r.failed

/-- The fingerprint of a page. -/
def fingerprint (x : Nat) : Nat :=
  ((upTo 8192).foldl (fun a k => a + bits x (64 * k) 64 * (2 * k + 1)) 0) % 2 ^ 64

/-- What the probes of the table find: a frame to share, or none and the empty slot where there is one; a bound forbids going on;
a read is poisoned. -/
inductive Probe where
  | share (frame : Nat)
  | miss (slot : Option Nat)
  | bound
  | poisoned
deriving DecidableEq, Repr

def probeTable (s : State) (d ftab fsz fp page : Nat) : Nat → Nat → Probe
  | 0, _ => .miss none
  | fuel + 1, j =>
    let e := ftab + 16 * ((fp + j) % 2 ^ fsz)
    if !physRange e 16 then .bound
    else match s.physGet d e 16 with
      | none => .poisoned
      | some x =>
        let f := bits x 64 64
        if f = 0 then .miss (some e)
        else if bits x 0 64 = fp then
          if !physRange f pageBytes then .bound
          else match s.physGet d f pageBytes with
            | none => .poisoned
            | some y => if y = page then .share f else probeTable s d ftab fsz fp page fuel (j + 1)
        else probeTable s d ftab fsz fp page fuel (j + 1)

/-- Storing physical bytes by 8-byte words, as `PST` does. -/
def State.physPut (s : State) (d a n v t : Nat) : State :=
  (upTo (n / 8)).foldl (fun s k => s.physWrite d (a + 8 * k) (bv 64 (bits v (64 * k) 64)) t) s

/-- A page's entry from the template: the frame, `v`, `leaf` and `cow` set, `wr` and `ctg` clear. -/
def dedupPte (tmpl f : Nat) : Nat :=
  let keep := tmpl &&& (2 ^ 64 - 1 - (((2 ^ 40 - 1) * 2 ^ 12) ||| 2 ^ 0 ||| 2 ^ 2 ||| 2 ^ 54 ||| 2 ^ 10 ||| 2 ^ 3))
  keep + bits f 12 40 * 2 ^ 12 + 1 + 4 + 2 ^ 54

/-- The address of a frame's reference count. -/
def reqRcnt (b : Line) (f : Nat) : Nat := bits b.toNat 512 64 + 4 * (f / 65536)

/-- The page's last store: its entry, where the bound lets it (R240). -/
def dedupMap (s : State) (r : EngReq) (f : Nat) (next : EngReq) : Ans EngReq :=
  let pte := bits r.block.toNat 576 64 + 8 * r.pos
  if !physRange pte 8 then .ok s r.failed
  else .ok (s.physWrite (coreDie r.core) pte (bv 64 (dedupPte (bits r.block.toNat 800 64) f)) r.t) next

/-- `AtomicAdd` of 1 to a frame's count (R5): an atomic access at its home. -/
def dedupCount (s : State) (r : EngReq) (f : Nat) : Ans Nat :=
  (unitGet s r.ctx (reqRcnt r.block f) 4 .atomic).andThen fun s c =>
    (unitPut s r.ctx (reqRcnt r.block f) 4 ((c.1 + 1) % 2 ^ 32) r.t .atomic false (coreDie r.core)).andThen fun s w => .ok s (max c.2 w)

/-- One page, in the order of R240; an access that has to wait does so before the page's first write. -/
def dedupPage (s : State) (r : EngReq) : Ans EngReq :=
  let b := r.block
  let d := coreDie r.core
  (engGet s r (reqSrc b + pageBytes * r.pos) pageBytes).andThen fun s p =>
    let fp := fingerprint p.1
    let done (w : Nat) : EngReq := { (r.wrote pageBytes (max w p.2)) with pos := r.pos + 1, stage := 1 }
    match probeTable s d (reqIdx b) (reqFsz b) fp p.1 8 0 with
    | .bound => .ok s r.failed
    | .poisoned => r.poisoned s
    | .share f =>
      (unitTouch s r.ctx (reqRcnt b f) 4 .atomic).andThen fun s _ =>
        (dedupCount s r f).andThen fun s w => dedupMap s r f { (done w) with shared := r.shared + 1 }
    | .miss slot =>
      if r.used = bits b.toNat 704 32 then .ok s r.failed
      else (engGet s r (bits b.toNat 640 64 + 8 * r.used) 8).andThen fun s f =>
        if !physRange f.1 pageBytes then .ok s r.failed
        else (unitTouch s r.ctx (reqRcnt b f.1) 4 .engWrite).andThen fun s _ =>
          (engPut (s.physPut d f.1 pageBytes p.1 r.t) r (reqRcnt b f.1) 4 1 false).andThen fun s w =>
            let s := match slot with
              | some e => s.physPut d e 16 (fp + f.1 * 2 ^ 64) r.t
              | none => s
            dedupMap s r f.1 { (done (max w f.2)) with used := r.used + 1 }

def dedupStep (s : State) (r : EngReq) : Ans EngReq :=
  if reqLen r.block ≤ r.pos then
    (engPut s r (bits r.block.toNat 736 64) 8 (r.used % 2 ^ 32 + r.shared * 2 ^ 32) false).andThen fun s w => .ok s (r.seen w).finished
  else dedupPage s r

/-! ## Checkpoint stream (R241) -/

/-- The dirty managed copies of a die's lines, by core and key. -/
def State.managedOf (s : State) (d : Nat) : List (Nat × Nat) :=
  (s.cores.map (fun y => (y.2.l1.filter (fun z => z.2.st == .managed && z.2.mask != 0
    && (s.owner (keyVa z.1) == .die d || s.owner (keyVa z.1) == .host d))).map (fun z => (y.1, z.1)))).flatten

/-- Every owned copy of the die's lines is recalled, and every dirty line of its L2 goes to memory. -/
def State.flushL2 (s : State) (d : Nat) : State :=
  (s.die d).l2.foldl (fun s y => match (s.die d).l2.find y.1 with
    | some h =>
      let (s, h) := match h.owner with
        | some c => s.recallLine d (keyCtx y.1) (keyVa y.1) h c true
        | none => (s, h)
      if h.dirty then s.homeOut d (keyCtx y.1) (keyVa y.1) h else s
    | none => s) s

/-- The lines whose owner a flush cannot ask yet: within 256 beats of the grant (R145), or in recovery (R150). -/
def State.flushHeld (s : State) (d : Nat) : List Instr :=
  (s.die d).l2.filterMap (fun y =>
    if y.2.unknown then some (.directoryRecoveryDone d (keyCtx y.1) (keyVa y.1))
    else if y.2.owner.isSome && y.2.hold then some (.ownershipHoldExpiry d (keyCtx y.1) (keyVa y.1))
    else none)

/-- The bounds of a checkpoint: a host's or a peer's destination, whole pages. -/
def checkpointOk (s : State) (b : Line) : Bool :=
  reqSrc b % 65536 == 0 && reqLen b % 65536 == 0 && reqDst b % 65536 == 0 && reqSrc b + reqLen b ≤ Config.memBytes
  && (match s.owner (reqDst b) with
    | .host _ | .far => true
    | .die d => 2 ≤ d
    | .bad => false)

def checkpointStep (s : State) (r : EngReq) : Ans EngReq :=
  let b := r.block
  let d := coreDie r.core
  if !checkpointOk s b then .ok s r.failed
  else if r.phase = 0 && bit b.toNat 384 then
    match s.flushHeld d with
    | i :: _ => .wait (s.first [i]) none
    | [] => (recallCopies (s.managedOf d) s).andThen fun s _ => .ok (s.flushL2 d) { r with phase := 1 }
  else if reqLen b ≤ r.pos then .ok s r.finished
  else match s.physGet d (reqSrc b + r.pos) 16 with
    | none => r.poisoned s
    | some x => r.put s (reqDst b) 16 x

/-! ## Counting and the end (R235, R236) -/

def engCount (s : State) (r : EngReq) : Ans EngReq :=
  let c0 := reqC0 r.block
  let next : EngReq := { r with stage := if r.stage = 1 then 0 else 3, bytes := 0 }
  if c0 = 0 || (r.bytes = 0 && !r.fail) then .ok s next
  else (unitAdd s r.ctx c0 (if r.fail then tokenAmount.toNat else r.bytes) (max r.t r.tw) (coreDie r.core)).andThen
    fun s w => .ok s (next.seen w)

/-- The add to `c1`; then the request is no more. -/
def State.engLast (s : State) (d e : Nat) (r : EngReq) : State :=
  let c1 := reqC1 r.block
  if c1 = 0 then s.endEng d e r
  else match unitAdd s r.ctx c1 (if r.fail then tokenAmount.toNat else 1) (max r.t r.tw) (coreDie r.core) with
    | .ok s _ => s.endEng d e r
    | a => s.engAnswer d e r (a.andThen fun s _ => .ok s r)

/-- One piece of the head of an engine's queue, when it is of the kind the event is for. -/
def State.engRun (s : State) (d e : Nat) (mine : EngReq → Bool) (f : State → EngReq → Ans EngReq) : State :=
  let s := s.passKicks d e
  match (s.die d).engine e with
  | [] => s
  | r :: _ =>
    if !mine r || s.waiting (.engine d e) then s
    else match r.stage with
      | 0 => if r.met then s.tileCopyFault d e r else s.engAnswer d e r (f s r)
      | 3 => s.engLast d e r
      | _ => s.engAnswer d e r (engCount s r)

def kindIs (k : Nat) (r : EngReq) : Bool := reqKind r.block == k

def execEngineCopy (die eng : Nat) (s : State) : Out := .next (s.engRun die eng (kindIs 0) copyStep)
def execEngineGather (die eng : Nat) (s : State) : Out := .next (s.engRun die eng (kindIs 1) gatherStep)
def execEngineScatter (die eng : Nat) (s : State) : Out := .next (s.engRun die eng (kindIs 2) scatterStep)
def execEngineFill (die eng : Nat) (s : State) : Out := .next (s.engRun die eng (kindIs 3) fillStep)
def execEngineDepthComposite (die eng : Nat) (s : State) : Out :=
  .next (s.engRun die eng (fun r => kindIs 4 r && !(r.stage == 0 && r.phase == 4)) compositeStep)
def execDepthCompositeMerge (die eng : Nat) (s : State) : Out :=
  .next (s.engRun die eng (fun r => kindIs 4 r && r.stage == 0 && r.phase == 4) mergeStep)
def execEngineDedupWrite (die eng : Nat) (s : State) : Out := .next (s.engRun die eng (kindIs 5) dedupStep)
def execEngineCheckpointStream (die eng : Nat) (s : State) : Out := .next (s.engRun die eng (kindIs 6) checkpointStep)

end Sys2Proof.Machine
end

