-- ==== Sys2Proof/Machine/Scene.lean ====
section
/-!
DEFINITION. The scene instructions: node tests, the traversal stack, hits, Morton codes, boxes and node-format tables
(R213 to R218, R344, R362, R365, R367, R368, R374, R400, R401).
-/
namespace Sys2Proof.Machine

/-- The first s register an operand names. -/
def sFirst : Opd → Nat
  | .s n => n.toNat
  | _ => 0

/-- Word k of a run of v registers in a lane. -/
def runWord (g : Group) (o : Opd) (i k : Nat) : Nat := match o with
  | .v n => (g.getV (n.toNat + k) i).toNat
  | _ => 0

/-- Writes of consecutive words from a v register in a lane. -/
def runWrs (o : Opd) (i : Nat) (ws : List Nat) : List Wr := match o with
  | .v n => ws.zipIdx.map (fun w => .v (n.toNat + w.2) i (bv 32 w.1))
  | _ => []

/-! ## NTEST (R214, R367, R368) -/

/-- The snapshots as a tag captures them: two low words from word k on, and their error bits in bits 1 and 2 of
word e (notes/assumptions/11.md). -/
def snapsOf (o : POp) (e k i : Nat) : Snaps where
  s0 := (o.word k i).toNat
  s1 := (o.word (k + 1) i).toNat
  e0 := bit (o.word e i).toNat 1
  e1 := bit (o.word e i).toNat 2

/-- The two snapshots at issue: low words, and error bits at bits 1 and 2. -/
def snapWords (g : Group) (c : Opd) : Word × Word × Word :=
  let n := sFirst c
  (g.getS n, g.getS (n + 2), bv 32 ((bit (g.getS (n + 1)).toNat 31).toNat * 2 + (bit (g.getS (n + 3)).toNat 31).toNat * 4))

/-- The node-format table of the group's context on its die, none installed being zeros (R213). -/
def State.nodeTable (s : State) (p : Nat) (g : Group) : BitVec 2048 := ((s.die (placeDie p)).tables.find g.ctx).getD 0

/-- Captured word 8: the address's low word with the error bits of the snapshots at bits 1 and 2; a helper's address with a
non-zero bit among 6:1 shows in bit 3 (R32, R368). -/
def ntestLow (raw : Nat) (eb : Word) : Word :=
  (bv 32 raw &&& ~~~0x7E) ||| eb ||| (if bits raw 1 6 != 0 then 8 else 0)

def execNtest (h : Hdr) (r : Regs) (s : State) : Out :=
  issueWord (.ntest h r) h.sched (opdRegs r.d 12 ++ opdRegs r.a 8 ++ opdRegs r.b 2) s (fun x =>
    let g := x.g
    let e := g.exec h.guard
    let hs := e &&& g.help
    let raw (i : Nat) : Nat := g.read [] i (src r.b true .none)
    let live := maskLanes (e &&& ~~~hs)
    match live.find? (fun i => bits (raw i) 1 6 != 0) with
    | some i => .trap .misaligned (bv 64 (raw i))
    | none =>
      match s.checkAcc x.p g (live.map (fun i => { lane := i, addr := raw i / 2 * 2, width := 128 : LaneAcc })) false false with
      | some (c, info) => .trap c info
      | none =>
        let (s0, s1, eb) := snapWords g r.c
        let o := s.newOp g (.ntest h r) e hs
          (fun i => g.words i r.a 8 ++ [ntestLow (raw i) eb, bv 32 (raw i / 2 ^ 32), s0, s1])
        .done s.tick (g.alloc h.sched.set.toNat { o with tab := some (s.nodeTable x.p g) }))

/-- The ray a node test has captured in lane i. -/
def rayOf (o : POp) (i : Nat) : Ray where
  o := (upTo 3).map (fun k => (o.word k i).toNat)
  d := (upTo 3).map (fun k => (o.word (3 + k) i).toNat)
  t0 := (o.word 6 i).toNat
  t1 := (o.word 7 i).toNat

/-- Performing `NTEST` under the table of its issue: one line for each thread; a helper whose read would fault, or whose word parks
along with an earlier one, tests a line of zeros (R32, R368). What the rules leave open of a result is free. -/
def performNtest (s : State) (p t : Nat) (g : Group) (o : POp) (r : Regs) : State :=
  let table := o.tab.getD (s.nodeTable p g)
  let open_ (i : Nat) : Nat := (pair (Config.freeWord (s.fresh + 2 * i)) (Config.freeWord (s.fresh + 2 * i + 1))).toNat
  let gen (i : Nat) : Bool := bit (o.word 8 i).toNat 0
  let test (i x : Nat) (away : Bool) : List Wr :=
    runWrs r.d i (ntestWords table (open_ i) (bv 1024 x) (rayOf o i) (gen i) (snapsOf o 8 10 i) away)
  if !g.mayLoad o then (match g.heldBy o.seq 0 with
    | some k => { s with fresh := s.fresh + 64 }.parkAlong p t o k (fun i => test i 0 false)
    | none => s)
  else
    let s := { s with fresh := s.fresh + 64 }
    let a (i : Nat) : Nat := (o.word2 8 i).toNat / 128 * 128
    let locked (i : Nat) : Bool := o.help.getLsbD i
      && ((s.core (placeCore p)).locked g.ctx (a i) 128 false || bits (o.word 8 i).toNat 3 4 != 0)
    let need (i : Nat) : List (Nat × Nat) := if locked i then [] else needBytes g o (s.tgts p g false (a i) 128)
    let f := fetchLines s (placeCore p) g.ctx .ntest o.faults o.seq o.counted (linesOf ((maskLanes o.todo).map need).flatten)
    State.finishReads f p t o need
      (fun s i =>
        if locked i then some (test i 0 false)
        else (loadBytes s p g f.got o.seq (s.tgts p g false (a i) 128)).map (fun x =>
          test i x (match f.got.find (a i / 128) with
            | some y => y.absent
            | none => false)))
      (fun i => test i 0 false)

/-! ## NFMT (R213, R365) -/

def execNfmt (h : Hdr) (r : Regs) (s : State) : Out :=
  issueWord (.nfmt h r) h.sched [] s (fun x =>
    let a := x.g.read [] 0 (src r.a true .none)
    if a % 128 != 0 then .trap .misaligned (bv 64 a)
    else match s.checkAcc x.p x.g [{ lane := 0, addr := a, width := 256 }] false false with
      | some (c, info) => .trap c info
      | none => issueTagged s x (.nfmt h r) h.sched.set.toNat 1 0 (fun i => x.g.words i r.a 2) [])

/-- Performing `NFMT`: the table is the context's on this die. -/
def performNfmt (s : State) (p t : Nat) (g : Group) (o : POp) : State :=
  if !g.mayLoad o then s.heldOp p t g o 0 (fun _ => [])
  else
    let ts := s.tgts p g false (o.word2 0 0).toNat 256
    let need (_ : Nat) : List (Nat × Nat) := needBytes g o ts
    let f := fetchLines s (placeCore p) g.ctx .load o.faults o.seq o.counted (linesOf (need 0))
    let v := loadBytes f.s p g f.got o.seq ts
    let s' := State.finishReads f p t o need (fun _ _ => v.map (fun _ => [])) (fun _ => [])
    match v with
    | some x => s'.modDie (placeDie p) (fun y => { y with tables := y.tables.put g.ctx (bv 2048 x) })
    | none => s'

/-! ## HITK (R216, R344) -/

def execHitk (h : Hdr) (r : Regs) (s : State) : Out :=
  issueWord (.hitk h r) h.sched (opdRegs r.d 6 ++ opdRegs r.a 12 ++ opdRegs r.b 1) s (fun x =>
    let g := x.g
    let lane (i : Nat) : List Wr :=
      let b (k : Nat) : Nat := runWord g r.a i k
      let c (k : Nat) : Nat := match k with
        | 0 => b 11
        | 1 => g.read [] i (src r.b false .none)
        | k => b (k - 1)
      if b 0 % 8 != 0 && hitBeats c (runWord g r.d i) then runWrs r.d i ((upTo 6).map c) else []
    .done s (g.wrs ((maskLanes (g.exec h.guard)).map lane).flatten))

/-! ## The traversal stack (R215, R400, R401) -/

/-- Depths of the stack, entries in stash, bytes of a lane's stacks. -/
def stackMax : Nat := 1056
def stackTop : Nat := 32
def stackBytes : Nat := 16384

/-- The stash offset of the entry at a depth of a lane, and its spill place. -/
def slotOff (base i d : Nat) : Nat := base + 512 * i + 16 * (d % 32)
def spillVa (spill i d : Nat) : Nat := (spill + 16384 * i + 16 * (d - 32)) % 2 ^ 64

/-- A lane's pushes from a depth: entry depth, address word, hitch; and its vK. -/
def lanePushes (k : Nat) (xs : List (Nat × Nat)) : List (Nat × Nat × Nat) × Nat :=
  let d := k % 2 ^ 16
  let n := min xs.length (stackMax - d)
  ((xs.take n).zipIdx.map (fun x => (d + x.2, x.1)), d + n + (bit k 31 || n < xs.length).toNat * 2 ^ 31)

/-- The 16 bytes of an entry. -/
def entryBytes (x : Nat × Nat) : Nat := x.1 % 2 ^ 64 + x.2 % 2 ^ 32 * 2 ^ 64

/-- Two 8-byte accesses for 16 bytes. -/
def acc16 (i : Nat) (stash : Bool) (a v : Nat) : List SqAcc :=
  [{ lane := i, stash := stash, addr := bv 64 a, width := 8, data := bv 64 v, done := 0 },
    { lane := i, stash := stash, addr := bv 64 (a + 8), width := 8, data := bv 64 (v / 2 ^ 64), done := 0 }]

/-- A lane's stores in push order: an entry that leaves the top 32 is stored to its spill place first. `old` is what
the stash slots hold before. -/
def laneStores (base spill i : Nat) (old : Nat → Nat) (xs : List (Nat × Nat × Nat)) : List SqAcc :=
  (xs.foldl (fun (r : List SqAcc × SMap Nat) x =>
    let d := x.1
    let was := (r.2.find (d % 32)).getD (old (d % 32))
    let out := if stackTop ≤ d then acc16 i false (spillVa spill i d) was else []
    (r.1 ++ out ++ acc16 i true (slotOff base i d) (entryBytes x.2), r.2.put (d % 32) (entryBytes x.2))) ([], [])).1

def execTrvpush (h : Hdr) (r : Regs) (s : State) : Out :=
  issueWord (.trvpush h r) h.sched (opdRegs r.d 1 ++ opdRegs r.a 12) s (fun x =>
    let g := x.g
    let c := placeCore x.p
    let e := g.exec h.guard
    let n := sFirst r.b
    let base := (g.getS n).toNat
    let spill := (g.getS2 (n + 2)).toNat
    if e != 0 && !Gang.holds (s.stashGang x.p g) base stackBytes then .trap .stashRange (bv 64 base)
    else
      let pushes (i : Nat) : List (Nat × Nat × Nat) × Nat :=
        lanePushes (runWord g r.d i 0) (pushList (runWord g r.a i))
      let ls := maskLanes (e &&& ~~~g.help)
      let deep := (ls.map (fun i => ((pushes i).1.filter (fun y => stackTop ≤ y.1)).map (fun y => (i, y.1)))).flatten
      if !deep.isEmpty && spill % 16 != 0 then .trap .misaligned (bv 64 spill)
      else
        let stash := (ls.map (fun i => (pushes i).1.map (fun y =>
          { lane := i, addr := slotOff base i y.1, width := 16 : LaneAcc }))).flatten
        match s.checkAcc x.p g (deep.map (fun y => { lane := y.1, addr := spillVa spill y.1 y.2, width := 16 })) false true,
            s.checkStash x.p g stash true with
        | some (c, info), _ | none, some (c, info) => .trap c info
        | none, none =>
          let slot (i k : Nat) : List Tgt := s.tgts x.p g true (base + 512 * i + 16 * k) 16
          let held (ts : List Tgt) : List (Nat × Nat) := globs (ts.filter (fun t => match fwdByte g.sq s.seq t with
            | .byte _ => false
            | _ => true))
          let ls' := linesOf (deep.map (fun y => held (slot y.1 (y.2 % 32)))).flatten
          let f := fetchLines s c g.ctx .load [] s.seq [] ls'
          match f.fault, f.poisoned with
          | some k, _ => .gone ((f.s.modGrp x.p (fun g => { g with fetchPark := some k })).parkGroup x.p)
          | none, l :: _ => .trap .poisoned (bv 64 ((SMap.find ls' l).getD (l * 128)))
          | none, [] =>
            if f.stuck then .wait (match f.walk with
              | some (d, n) => f.s.await (.word x.p) d g.ctx (some n)
              | none => f.s)
            else
              let old (i k : Nat) : Option Nat := loadBytes f.s x.p g f.got f.s.seq (slot i k)
              if deep.any (fun y => (old y.1 (y.2 % 32)).isNone) then .wait f.s
              else
                let accs := (ls.map (fun i => laneStores base spill i (fun k => (old i k).getD 0) (pushes i).1)).flatten
                let g' := (x.now f.s).wrs ((maskLanes e).map (fun i => dstWr i r.d false (pushes i).2)).flatten
                enterStore f.s { x with g := g' } 0 .store .rlx .gang (accs.map (bindAcc f.s x.p g)).flatten)

def execTrvpop (h : Hdr) (r : Regs) (s : State) : Out :=
  issueWord (.trvpop h r) h.sched (opdRegs r.d 4 ++ opdRegs r.a 1) s (fun x =>
    let g := x.g
    let e := g.exec h.guard
    let hs := e &&& g.help
    let n := sFirst r.b
    let base := (g.getS n).toNat
    let spill := (g.getS2 (n + 2)).toNat
    let d (i : Nat) : Nat := runWord g r.a i 0 % 2 ^ 16
    if e != 0 && !Gang.holds (s.stashGang x.p g) base stackBytes then .trap .stashRange (bv 64 base)
    else
      let live := (maskLanes (e &&& ~~~hs)).filter (fun i => 0 < d i)
      let deep := live.filter (fun i => stackTop < d i)
      if !deep.isEmpty && spill % 16 != 0 then .trap .misaligned (bv 64 spill)
      else
        let slots (is : List Nat) : List LaneAcc := is.map (fun i => { lane := i, addr := slotOff base i (d i - 1), width := 16 })
        match s.checkAcc x.p g (deep.map (fun i => { lane := i, addr := spillVa spill i (d i - 1), width := 16 })) false false,
            s.checkStash x.p g (slots live) false, s.checkStash x.p g (slots deep) true with
        | some (c, info), _, _ | none, some (c, info), _ | none, none, some (c, info) => .trap c info
        | none, none, none =>
          let (s0, s1, eb) := snapWords g r.c
          let todo := e &&& maskOf (fun i => 0 < d i)
          issueTagged s x (.trvpop h r) h.sched.set.toNat todo (hs &&& todo)
            (fun i => g.words i r.a 1 ++ [g.getS n, g.getS (n + 2), g.getS (n + 3), s0, s1, eb])
            ((maskLanes (e &&& ~~~todo)).map (fun i => runWrs r.d i [0, 0, 0, 1])).flatten)

/-- Inserting a queue entry in issue order. -/
def insertSq (e : SqEntry) : List SqEntry → List SqEntry
  | [] => [e]
  | x :: r => if e.seq < x.seq then e :: x :: r else x :: insertSq e r

/-- The freed slot takes the entry from its spill place: raw stash at once, a bound line by the store queue. -/
def State.refill (s : State) (p : Nat) (g : Group) (o : POp) (xs : List (Nat × Nat × Nat)) : State :=
  let accs := ((xs.map (fun x => acc16 x.1 true x.2.1 x.2.2)).flatten.map (bindAcc s p g)).flatten
  let raw := accs.filter (fun a => a.stash)
  let bound := accs.filter (fun a => !a.stash)
  let s := match s.stashGang p g with
    | some k => if raw.isEmpty then s else s.modCore (placeCore p) (fun c =>
        raw.foldl (fun c a => c.stashPut (k.stashBase + a.addr.toNat) a.width a.data.toNat) c)
    | none => s
  if bound.isEmpty then s
  else
    let e : SqEntry := {
      pc := o.pc, kind := .store, ord := .rlx, scope := .gang, accs := bound, tag := 0, frm := o.frm, seq := o.seq, parked := none
      after := 0, whole := [] }
    s.modGrp p (fun g => { g with sq := insertSq e g.sq })

/-- Performing `TRVPOP`. -/
def performTrvpop (s : State) (p t : Nat) (g : Group) (o : POp) (r : Regs) : State :=
  let k (i : Nat) : Nat := (o.word 0 i).toNat
  let d (i : Nat) : Nat := k i % 2 ^ 16
  let base (i : Nat) : Nat := (o.word 1 i).toNat
  let spill (i : Nat) : Nat := (o.word2 2 i).toNat
  let off (i : Nat) : Nat := slotOff (base i) i (d i - 1)
  let deep (i : Nat) : Bool := stackTop < d i && !o.help.getLsbD i
  let slot (i : Nat) : List Tgt := s.tgts p g true (off i) 16
  let back (i : Nat) : List Tgt := if deep i then s.tgts p g false (spillVa (spill i) i (d i - 1)) 16 else []
  let queued (i : Nat) : Bool := (slot i).any (fun b => match fwdByte g.sq o.seq b with
    | .none => false
    | _ => true)
  let write (i x : Nat) : List Wr :=
    let hitch := bits x 64 32
    let a := popAddr (snapsOf o 6 4 i) (x % 2 ^ 64) hitch
    runWrs r.d i [a, a / 2 ^ 32, hitch, 0] ++ dstWr i r.a false (d i - 1 + (bit (k i) 31).toNat * 2 ^ 31)
  if !g.mayLoad o then s.heldOp p t g o 0 (fun i => write i 0)
  else if (maskLanes o.todo).any (fun i => deep i && queued i) then
    (match (g.sq.head?).bind (·.parked) with
    | some k => s.parkAlong p t o k (fun i => write i 0)
    | none => s)
  else
    let need (i : Nat) : List (Nat × Nat) := needBytes g o (slot i ++ back i)
    let f := fetchLines s (placeCore p) g.ctx .load o.faults o.seq o.counted (linesOf ((maskLanes o.todo).map need).flatten)
    let vals (i : Nat) : Option (Nat × Nat) :=
      match loadBytes f.s p g f.got o.seq (slot i), loadBytes f.s p g f.got o.seq (back i) with
      | some x, some y => some (x, y)
      | _, _ => none
    let s' := State.finishReads f p t o need (fun _ i => (vals i).map (fun v => write i v.1)) (fun i => write i 0)
    let left := match (s'.grp p).bind (fun g => g.op t) with
      | some o' => o'.todo
      | none => o.todo
    let done := (maskLanes (o.todo &&& ~~~left)).filter deep
    s'.refill p g o (done.filterMap (fun i => (vals i).map (fun v => (i, off i, v.2))))

/-! ## MORTON, QBOX (R217, R218, R362, R374) -/

def execMorton (h : Hdr) (r : Regs) (s : State) : Out :=
  longWord (.morton h r) h (opdRegs r.d 1 ++ opdRegs r.a 3) s (fun x e =>
    let box (k : Nat) : Nat := (x.g.getS (sFirst r.b + k)).toNat
    (((maskLanes e).map (fun i => dstWr i r.d false (mortonCode (runWord x.g r.a i) box))).flatten, 0))

/-- Free values of 48 bits in a lane, for the bytes that have no stated value. -/
def freeBytes (s : State) (i : Nat) : Nat := (pair (Config.freeWord (s.fresh + 2 * i)) (Config.freeWord (s.fresh + 2 * i + 1))).toNat

def execQbox (h : Hdr) (fr : Bool) (r : Regs) (s : State) : Out :=
  let vs := if fr then opdRegs r.d 4 ++ opdRegs r.a 6 else opdRegs r.d 2 ++ opdRegs r.a 6 ++ opdRegs r.b 4
  issueWord (.qbox h fr r) h.sched vs s (fun x =>
    .done { s with fresh := s.fresh + 64 } (x.g.leave h.sched.la ((maskLanes (x.g.exec h.guard)).map (fun i =>
      let box := runWord x.g r.a i
      if fr then runWrs r.d i [box 0, box 1, box 2, frameWord box (freeBytes s i)]
      else runWrs r.d i (quantWords box (runWord x.g r.b i) (freeBytes s i)))).flatten))

end Sys2Proof.Machine
end

