-- ==== Sys2Proof/Machine/Tree.lean ====
section
/-!
DEFINITION. The plan of a splicer: clusters, trees of nodes, their lines (R205 to R207, R217 to R219, R221 to R223, R225;
notes/assumptions/18.md).
-/
namespace Sys2Proof.Machine

/-! ## The build command (R219) -/

def bldClus (x : Line) : Nat := bits x.toNat 0 64
def bldNcl (x : Line) : Nat := bits x.toNat 64 32
def bldThr (x : Line) : Nat := if bits x.toNat 96 32 = 0 then 0x3FC00000 else bits x.toNat 96 32
/-- Word k of the scene box: lo x, y, z, hi x, y, z. -/
def bldBox (x : Line) (k : Nat) : Nat := bits x.toNat (128 + 32 * k) 32
def bldRoot (x : Line) : Nat := bits x.toNat 320 64
def bldPool (x : Line) : Nat := bits x.toNat 384 64
def bldPlines (x : Line) : Nat := bits x.toNat 448 32
def bldUsed (x : Line) : Nat := bits x.toNat 480 32
def bldHitch (x : Line) : Nat := bits x.toNat 512 64
def bldHbase (x : Line) : Nat := bits x.toNat 576 32
def bldHsize (x : Line) : Nat := if bits x.toNat 608 16 = 0 then 64 else bits x.toNat 608 16
def bldDone (x : Line) : Nat := bits x.toNat 624 64
def bldPeer (x : Line) : Nat := bits x.toNat 688 64
def bldPbase (x : Line) : Nat := bits x.toNat 752 64
def bldKind (x : Line) : Nat := bits x.toNat 816 2
def bldNtype (x : Line) : Nat := bits x.toNat 818 4
def bldLtype (x : Line) : Nat := bits x.toNat 822 4
def bldSplit (x : Line) : Nat := bits x.toNat 826 2
def bldGen (x : Line) : Nat := bits x.toNat 828 1

/-- No field breaks R219. -/
def bldOk (x : Line) : Bool :=
  let thr := f32v (bldThr x)
  bits x.toNat 829 195 == 0 && bldSplit x != 3 && bldKind x < 2 && 1 ≤ bldNcl x && bldNcl x ≤ 2 ^ 24
  && bldClus x % 128 == 0 && bldPool x % 128 == 0 && bldRoot x % 128 == 0
  && !thr.isNaN && !thr.isInf && leV (f32v 0x3F800000) thr

/-- The root a command writes: with `split` 1 the half root (R225). -/
def bldTop (x : Line) : Nat := if bldSplit x = 1 then bldRoot x + 128 else bldRoot x

/-! ## Clusters (R205) -/

def cluLo (x : Line) (a : Nat) : Nat := lineGet x (4 * a) 4
def cluHi (x : Line) (a : Nat) : Nat := lineGet x (16 + 4 * a) 4
def cluCount (x : Line) : Nat := lineGet x 28 4

/-- A cluster-leaf line: the header without its reserved bits, with type, stream index and version. -/
def leafLine (b x : Line) (sidx : Nat) : Line :=
  let keep := bits x.toNat 0 96 + bits x.toNat 128 256 * 2 ^ 128
  bv 1024 (keep + bldLtype b * 2 ^ 120 + sidx % 2 ^ 32 * 2 ^ 384 + bldGen b * 2 ^ 688)

/-- The axis a split takes: the longest side, ties to x, then y (R225). -/
def splitAxis (b : Line) : Nat :=
  let side (a : Nat) : FVal := subV (f32v (bldBox b (3 + a))) (f32v (bldBox b a))
  let best := if ltV (side 0) (side 1) then 1 else 0
  if ltV (side best) (side 2) then 2 else best

def splitMid (b : Line) : Nat := centroid (bldBox b (splitAxis b)) (bldBox b (3 + splitAxis b))

/-- The box Morton codes are taken in. -/
def mortonBox (b : Line) (k : Nat) : Nat :=
  if bldSplit b = 1 && k = 3 + splitAxis b then splitMid b
  else if bldSplit b = 2 && k = splitAxis b then splitMid b
  else bldBox b k

/-- Does a command take a cluster? -/
def takesCluster (b x : Line) : Bool :=
  let a := splitAxis b
  let low := ltV (f32v (centroid (cluLo x a) (cluHi x a))) (f32v (splitMid b))
  match bldSplit b with
  | 1 => low
  | 2 => !low
  | _ => true

def clusterCode (b x : Line) : Nat := mortonCode (fun a => centroid (cluLo x a) (cluHi x a)) (mortonBox b)

/-- Inserting by code, then stream index. -/
def insertCode (y : Nat × Nat) : List (Nat × Nat) → List (Nat × Nat)
  | [] => [y]
  | z :: r => if y.1 < z.1 || (y.1 == z.1 && y.2 < z.2) then y :: z :: r else z :: insertCode y r

def sortCodes (xs : List (Nat × Nat)) : List (Nat × Nat) := xs.foldr insertCode []

/-! ## Trees -/

/-- A tree of a scene: a cluster leaf by stream index; a node, whether it is new, the base of its child block, its
stored cost and its children; a child with its slot before the others. -/
inductive STree where
  | leaf (c : Nat)
  | node (new : Bool) (base cost : Nat) (kids : STree)
  | done
  | kid (slot : Nat) (x rest : STree)

/-- The clusters of a tree. -/
def STree.clusters : STree → List Nat
  | .leaf c => [c]
  | .node _ _ _ k => k.clusters
  | .done => []
  | .kid _ x r => x.clusters ++ r.clusters

def STree.size (t : STree) : Nat := t.clusters.length

/-- Number of children of a child list. -/
def STree.arity : STree → Nat
  | .kid _ _ r => r.arity + 1
  | _ => 0

/-- The digit of a code at a level. -/
def codeDigit (c l : Nat) : Nat := bits c (27 - 3 * l) 3

/-- Runs of equal digits. -/
def digitRuns (l : Nat) : List (Nat × Nat) → List (List (Nat × Nat))
  | [] => []
  | y :: r => match digitRuns l r with
    | [] => [[y]]
    | run :: rs => match run with
      | z :: _ => if codeDigit y.1 l = codeDigit z.1 l then (y :: run) :: rs else [y] :: run :: rs
      | [] => [y] :: rs

/-- Consecutive runs of m. -/
def evenRuns (m : Nat) : Nat → List (Nat × Nat) → List (List (Nat × Nat))
  | 0, _ => []
  | fuel + 1, xs => if xs.isEmpty then [] else xs.take m :: evenRuns m fuel (xs.drop m)

/-- The level from l on at which a range's codes differ, or 10. -/
def nodeLevel (xs : List (Nat × Nat)) (l : Nat) : Nat :=
  (((upTo 10).filter (fun k => l ≤ k)).find? (fun k => decide (1 < (digitRuns k xs).length))).getD 10

/-- `Node` of R221 over a sorted range. -/
def buildNode : Nat → List (Nat × Nat) → Nat → STree
  | 0, _, _ => .done
  | fuel + 1, xs, l =>
    let k := nodeLevel xs l
    let (parts, next) := if xs.length ≤ 8 then (xs.map (fun y => [y]), l)
      else if k = 10 then (evenRuns ((xs.length + 7) / 8) 8 xs, 10)
      else (digitRuns k xs, k + 1)
    .node true 0 0 (parts.zipIdx.foldr (fun p t => .kid p.2 (match p.1 with
      | [y] => .leaf y.2
      | ys => buildNode fuel ys next) t) .done)

/-- Levels a range can be cut into. -/
def buildFuel (n : Nat) : Nat := n + 12

/-! ## Boxes and costs (R221) -/

/-- The union of boxes as f32 words; none of no box. -/
def unionBox (a b : Option (List Nat)) : Option (List Nat) := match a, b with
  | none, x | x, none => x
  | some x, some y => some ((upTo 6).map (fun k =>
      if k < 3 then f32min (x.getD k 0) (y.getD k 0) else f32max (x.getD k 0) (y.getD k 0)))

/-- The box of a tree, from its clusters' headers. -/
def STree.box (cl : Nat → Line) : STree → Option (List Nat)
  | .leaf c => some ((upTo 3).map (cluLo (cl c)) ++ (upTo 3).map (cluHi (cl c)))
  | .node _ _ _ k => k.box cl
  | .done => none
  | .kid _ x r => unionBox (x.box cl) (r.box cl)

/-- SA(box) in f32. -/
def boxArea (d : Nat → Nat) : Nat := tMul 0x40000000 (tAdd (tAdd (tMul (d 0) (d 1)) (tMul (d 1) (d 2))) (tMul (d 2) (d 0)))

def areaOf : Option (List Nat) → Nat
  | none => 0
  | some x => boxArea (fun a => tSub (x.getD (3 + a) 0) (x.getD a 0))

/-- The cost of a node as f32: its area, and its node children's costs in order; `acc` is the sum so far. -/
def STree.costFrom (cl : Nat → Line) : STree → Nat → Nat
  | .leaf _, acc => acc
  | .node _ _ _ k, acc => tAdd acc (k.costFrom cl (areaOf (k.box cl)))
  | .done, acc => acc
  | .kid _ x r, acc => r.costFrom cl (x.costFrom cl acc)

def STree.costOf (cl : Nat → Line) : STree → Nat
  | .node _ _ _ k => k.costFrom cl (areaOf (k.box cl))
  | _ => 0

/-- f32 to bf16 by RNE. -/
def toBf16 (x : Nat) : Nat := (fCvt .bf16 .f32 .rne x).1

/-! ## Refit (R222) -/

/-- Rebuilding the first node on each path whose new cost exceeds the ratio. -/
def STree.refit (cl : Nat → Line) (code : Nat → Nat) (thr : Nat) : STree → STree
  | .leaf c => .leaf c
  | .node new base cost k =>
    let now := f32v ((STree.node new base cost k).costOf cl)
    if ltV (f32v (tMul thr (cost * 2 ^ 16))) now then
      buildNode (buildFuel k.size) (sortCodes (k.clusters.map (fun c => (code c, c)))) 0
    else .node new base cost (k.refit cl code thr)
  | .done => .done
  | .kid slot x r => .kid slot (x.refit cl code thr) (r.refit cl code thr)

/-- Child blocks of new nodes in pre-order from a pool line on; the next free line. -/
def STree.place (pool : Nat) : STree → Nat → STree × Nat
  | .leaf c, n => (.leaf c, n)
  | .node new base cost k, n =>
    let r := k.place pool (if new then n + k.arity else n)
    (.node new (if new then pool + 128 * n else base) cost r.1, r.2)
  | .done, n => (.done, n)
  | .kid slot x r, n =>
    let a := x.place pool n
    let b := r.place pool a.2
    (.kid slot a.1 b.1, b.2)

/-! ## Lines (R206, R207, R218) -/

/-- A child for its node's line: slot, leaf, hitch root, box. -/
structure ChildOf where
  slot : Nat
  leaf : Bool
  hroot : Bool
  box : Option (List Nat)

/-- Is a child a spine node: a node of more than `hsize` clusters? -/
def STree.big (hs : Nat) : STree → Bool
  | .node n b c k => hs < (STree.node n b c k).size
  | _ => false

def STree.children (cl : Nat → Line) (spine : Bool) (hs : Nat) : STree → List ChildOf
  | .kid slot x r =>
    { slot := slot
      leaf := match x with
        | .leaf _ => true
        | _ => false
      hroot := spine && !x.big hs
      box := x.box cl } :: r.children cl spine hs
  | _ => []

/-- A free word of a line: `fr` numbers the line's free values. -/
def freeAt (fr j : Nat) : Nat := (Config.freeWord (fr + j)).toNat

/-- Free words a line may take. -/
def lineFree : Nat := 32

/-- The line of a node; what a node without children, and a spine node without a hitch root, hold in fields that the spec gives no
value is free. -/
def nodeLine (b : Line) (fr base cost : Nat) (hitch : Option Nat) (ks : List ChildOf) : Line :=
  let box := ks.foldl (fun a k => unionBox a k.box) none
  let free48 (j : Nat) : Nat := freeAt fr j + freeAt fr (j + 1) * 2 ^ 32
  let (org, exps) : List Nat × Nat := match box with
    | some x => (x.take 3, frameWord (fun k => x.getD k 0) (free48 0))
    | none => ((upTo 3).map (freeAt fr), freeAt fr 3 % 2 ^ 24)
  let frame (k : Nat) : Nat := if k = 3 then exps else org.getD k 0
  let child (k : ChildOf) (c : Nat) : Nat :=
    let q := match k.box with
      | some x => packAt 32 (quantWords (fun j => x.getD j 0) frame (free48 (4 + 2 * c)))
      | none => free48 (4 + 2 * c)
    q % 2 ^ 48 + (0x80 + k.leaf.toNat * 32 + k.hroot.toNat * 16 + k.slot) * 2 ^ 48
  let kids := (ks.zipIdx.map (fun y => child y.1 y.2 * 2 ^ (128 + 56 * y.2))).sum
  let h := hitch.getD (freeAt fr 30)
  let k := if ks.isEmpty then freeAt fr 29 % 2 ^ 16 else cost
  bv 1024 (packAt 32 org + exps % 2 ^ 24 * 2 ^ 96 + bldNtype b * 2 ^ 120 + kids + base % 2 ^ 64 * 2 ^ 576 + h % 2 ^ 32 * 2 ^ 640
    + k * 2 ^ 672 + bldGen b * 2 ^ 688 + (bldSplit b == 2).toNat * 2 ^ 689)

/-- A line to write, which may take free values. -/
abbrev LineAt := Nat × (Nat → Line)

/-- The line of a tree's top at an address. -/
def STree.line (b : Line) (cl : Nat → Line) (spine : Bool) (hitch : Option Nat) : STree → Nat → Line
  | .leaf c, _ => leafLine b (cl c) c
  | .node new base cost k, fr =>
    nodeLine b fr base (if new then toBf16 ((STree.node new base cost k).costOf cl) else cost) hitch
      (k.children cl spine (bldHsize b))
  | _, _ => 0

/-- The lines of a subtree bottom-up, left first, its own last; its nodes carry hitch 0 (R440). -/
def STree.post (b : Line) (cl : Nat → Line) : STree → Nat → List LineAt
  | .leaf c, at_ => [(at_, (STree.leaf c).line b cl false none)]
  | .node new base cost k, at_ => k.post b cl base ++ [(at_, (STree.node new base cost k).line b cl false (some 0))]
  | .done, _ => []
  | .kid slot x r, base => x.post b cl (base + 128 * slot) ++ r.post b cl base

/-- The hitch-root children of a spine node's child list, with their addresses. -/
def STree.roots (hs base : Nat) : STree → List (Nat × STree)
  | .kid slot x r => (if x.big hs then [] else [(base + 128 * slot, x)]) ++ r.roots hs base
  | _ => []

/-- The spine in pre-order: each spine node's line, and the hitch subtrees in their numbering; `n` counts those before.
A child list is visited with its block's base as the address. -/
def STree.spine (b : Line) (cl : Nat → Line) : STree → Nat → Nat → List LineAt × List (Nat × STree)
  | .leaf _, _, _ => ([], [])
  | .node new base cost k, at_, n =>
    let rs := k.roots (bldHsize b) base
    let h := if rs.isEmpty then none else some (bldHbase b + 1 + n)
    let r := k.spine b cl base (n + rs.length)
    ((at_, (STree.node new base cost k).line b cl true h) :: r.1, rs ++ r.2)
  | .done, _, _ => ([], [])
  | .kid slot x r, base, n =>
    let a := if x.big (bldHsize b) then x.spine b cl (base + 128 * slot) n else ([], [])
    let c := r.spine b cl base (n + a.2.length)
    (a.1 ++ c.1, a.2 ++ c.2)

/-- The acts of a plan in order (R223): lines numbered for their free values from `fresh` on. -/
def planOps (b : Line) (cl : Nat → Line) (t : STree) (fresh : Nat) : List SplOp × Nat :=
  let sp := t.spine b cl (bldTop b) 0
  let lines (n : Nat) (xs : List LineAt) : List SplOp :=
    xs.zipIdx.map (fun x => .line x.1.1 (x.1.2 (fresh + lineFree * (n + x.2))))
  let one (va : Nat) : SplOp := .add (bv 64 va) false
  let subs := sp.2.foldl (fun (r : List SplOp × Nat) x =>
    let ls := x.2.post b cl x.1
    (r.1 ++ lines r.2 ls ++ [one (bldHitch b)], r.2 + ls.length)) ([], sp.1.length)
  (lines 0 sp.1 ++ (if bldSplit b = 1 then [.join] else []) ++ [one (bldDone b)] ++ subs.1 ++ [one (bldDone b)],
    lineFree * subs.2)

/-! ## The joining root (R225) -/

/-- The exact bounds of a node's present children, as a union; none without one. -/
def decodedBox (x : Line) : Option (List FVal × List FVal) :=
  let side (c k a : Nat) : FVal :=
    addV (f32v (lineGet x (4 * a) 4)) (.num false (lineGet x (16 + 7 * c + k + a) 1) ((lineGet x (12 + a) 1 : Int) - 127))
  (upTo 8).foldl (fun r c =>
    if bit (lineGet x (16 + 7 * c + 6) 1) 7 then
      let lo := (upTo 3).map (side c 0)
      let hi := (upTo 3).map (side c 3)
      match r with
      | none => some (lo, hi)
      | some (l, h) => some ((l.zip lo).map (fun y => if ltV y.2 y.1 then y.2 else y.1),
          (h.zip hi).map (fun y => if ltV y.1 y.2 then y.2 else y.1))
    else r) none

/-- An exact value as f32 where f32 holds it. -/
def exactF32 (v : FVal) (free : Nat) : Nat :=
  let (c, fl) := roundTo fmtF32 .rne v
  if v.isNaN || fl &&& fNX != 0 || fl &&& fOF != 0 then free % 2 ^ 32 else c

/-- A bound in a frame with an exact origin. -/
def quantExact (up : Bool) (x org : FVal) (code free : Nat) : Nat := match subV x org with
  | .num s m e =>
    let v := FVal.num s m (e - ((code : Int) - 127))
    (min (max (if up then ceilV v else floorV v) 0) 255).toNat
  | .inf n => if n then 0 else 255
  | .nan _ => free % 256

/-- The joining root over the two half roots' lines. An origin that f32 does not hold, and the box of a half without
children, are free. Its cost adds the costs the half roots hold to the area of the exact box (notes/assumptions/18.md, DESIGN
CHOICE: R225 states none). -/
def joinLine (b x0 x1 : Line) (fr : Nat) : Line :=
  let c0 := decodedBox x0
  let c1 := decodedBox x1
  let pick (p : FVal → FVal → Bool) (y z : FVal) : FVal := if p z y then z else y
  let all : Option (List FVal × List FVal) := match c0, c1 with
    | none, y | y, none => y
    | some y, some z => some ((y.1.zip z.1).map (fun w => pick ltV w.1 w.2), (y.2.zip z.2).map (fun w => pick (fun p q => ltV q p) w.1 w.2))
  let org : List Nat := match all with
    | some y => y.1.zipIdx.map (fun w => exactF32 w.1 (freeAt fr w.2))
    | none => (upTo 3).map (freeAt fr)
  let ext (a : Nat) : FVal := match all with
    | some y => subV (y.2.getD a (.nan false)) (y.1.getD a (.nan false))
    | none => .nan false
  let code (a : Nat) : Nat :=
    if (ext a).isNaN || (ext a).isInf then freeAt fr (3 + a) % 256
    else if !ltV (f32v 0) (ext a) then 0
    else ((upTo 255).find? (fun (c : Nat) => leV (ext a) (.num false 255 ((c : Int) - 127)))).getD 0xFE
  let child (y : Option (List FVal × List FVal)) (c : Nat) : Nat :=
    let q := match y with
      | some (lo, hi) => packAt 8
          ((upTo 3).map (fun a => quantExact false (lo.getD a (.nan false)) (f32v (org.getD a 0)) (code a) (freeAt fr (8 + 6 * c + a)))
          ++ (upTo 3).map (fun a => quantExact true (hi.getD a (.nan false)) (f32v (org.getD a 0)) (code a) (freeAt fr (11 + 6 * c + a))))
      | none => freeAt fr (8 + 6 * c) + freeAt fr (9 + 6 * c) * 2 ^ 32
    q % 2 ^ 48 + (0x80 + c) * 2 ^ 48
  let side (a : Nat) : Nat := f32r .rne (ext a)
  let half (x : Line) : Nat := lineGet x 84 2 * 2 ^ 16
  let cost := toBf16 (tAdd (tAdd (boxArea side) (half x0)) (half x1))
  bv 1024 (packAt 32 org + packAt 8 ((upTo 3).map code) * 2 ^ 96 + bldNtype b * 2 ^ 120 + child c0 0 * 2 ^ 128
    + child c1 1 * 2 ^ 184 + (bldRoot b + 128) % 2 ^ 64 * 2 ^ 576 + freeAt fr 30 % 2 ^ 32 * 2 ^ 640 + cost * 2 ^ 672
    + bldGen b * 2 ^ 688)

/-! ## Trees as they are read (R222, R227) -/

/-- The present children of a node's line: address, and kind. -/
def lineKids (x : Line) : List (Nat × Nat) :=
  ((upTo 8).map (fun c => lineGet x (16 + 7 * c + 6) 1)).filterMap (fun m =>
    if bit m 7 then some ((lineGet x 72 8 + 128 * bits m 0 4) % 2 ^ 64, bits m 5 2) else none)

/-- The tree that lines read give, from an address on. -/
def readTree (got : SMap Line) : Nat → Nat → STree
  | 0, _ => .done
  | fuel + 1, va =>
    let x := got.getD (va / 128) 0
    let ms := (upTo 8).map (fun c => lineGet x (16 + 7 * c + 6) 1)
    .node false (lineGet x 72 8) (lineGet x 84 2) (ms.foldr (fun m t =>
      if bit m 7 then
        let a := (lineGet x 72 8 + 128 * bits m 0 4) % 2 ^ 64
        .kid (bits m 0 4) (if bits m 5 2 = 1 then .leaf (lineGet (got.getD (a / 128) 0) 48 4) else readTree got fuel a) t
      else t) .done)

end Sys2Proof.Machine
end

