-- ==== Sys2Proof/Machine/TreeRun.lean ====
section
/-!
DEFINITION. `BLD` and `CMPCT`, and splicers and coilers at work (R219 to R227, R312, R321; notes/assumptions/18.md).
-/
namespace Sys2Proof.Machine

/-! ## Queueing commands -/

def Die.splicer (x : Die) (n : Nat) : List TreeReq := x.splicers.getD n []
def Die.coiler (x : Die) (n : Nat) : List TreeReq := x.coilers.getD n []

/-- One of the two kinds of unit, as the events name them. -/
inductive TreeUnit where
  | splicer
  | coiler
deriving DecidableEq, Repr

def State.treeQueue (s : State) (u : TreeUnit) (d n : Nat) : List TreeReq := match u with
  | .splicer => (s.die d).splicer n
  | .coiler => (s.die d).coiler n

def State.setTreeQueue (s : State) (u : TreeUnit) (d n : Nat) (xs : List TreeReq) : State := match u with
  | .splicer => s.modDie d (fun x => { x with splicers := x.splicers.setD n xs [] })
  | .coiler => s.modDie d (fun x => { x with coilers := x.coilers.setD n xs [] })

def TreeUnit.req (u : TreeUnit) (d n : Nat) : Req := match u with
  | .splicer => .splicer d n
  | .coiler => .coiler d n

/-- The shared body of the two words (R312, R321): the block enters the queue with context, core and logical time. -/
def queueBlock (u : TreeUnit) (n : Nat → Nat) (r : Regs) (s : State) (x : Issuer) : Issue :=
  let g := x.g
  let off := g.read [] 0 (src r.a false .none)
  let d := placeDie x.p
  let k := n (g.read [] 0 (src r.b false .none))
  match blockBad s x off with
  | some (c, info) => .trap c info
  | none =>
    if Config.treeQueue ≤ (s.treeQueue u d k).length then .wait s
    else readBlock s x off (fun s b =>
      let c := placeCore x.p
      let q : TreeReq := {
        id := s.seq, block := b, ctx := g.ctx, t := (s.core c).t, tw := (s.core c).t, core := c, phase := 0, want := []
        got := [], pos := 0, unit := 0, ops := [] }
      .done (s.tick.setTreeQueue u d k (s.treeQueue u d k ++ [q])) (x.now s))

def execBld (h : Hdr) (r : Regs) (s : State) : Out :=
  issueWord (.bld h r) h.sched [] s (queueBlock .splicer (· % 8) r s)

def execCmpct (h : Hdr) (r : Regs) (s : State) : Out :=
  issueWord (.cmpct h r) h.sched [] s (queueBlock .coiler (· % 2) r s)

/-! ## A unit's head command -/

/-- What a piece of a command was answered with; without a command left it ends. -/
def treeAnswer (u : TreeUnit) (d n : Nat) (r : TreeReq) (fail : TreeReq) (a : Ans (Option TreeReq)) : State :=
  let set (s : State) (r : Option TreeReq) : State := match s.treeQueue u d n, r with
    | _ :: xs, some r => s.setTreeQueue u d n (r :: xs)
    | _ :: xs, none => s.setTreeQueue u d n xs
    | [], _ => s
  match a with
  | .ok s r' => set s r'
  | .wait s w => match w with
    | some (k, m) => s.await (u.req d n) k r.ctx (some m)
    | none => s
  | .fault s k => s.await (u.req d n) k r.ctx none
  | .poisoned s | .far s => set s (some fail)

/-- One piece of the head of a unit's queue, when it is one the event is for. -/
def State.treeRun (s : State) (u : TreeUnit) (d n : Nat) (mine : TreeReq → Bool) (fail : TreeReq → TreeReq)
    (f : State → TreeReq → Ans (Option TreeReq)) : State :=
  match s.treeQueue u d n with
  | [] => s
  | r :: _ => if !mine r || s.waiting (u.req d n) then s else treeAnswer u d n r (fail r) (f s r)

def TreeReq.seen (r : TreeReq) (w : Nat) : TreeReq := { r with tw := max r.tw w }

/-- A line as a unit reads it. -/
def treeGet (s : State) (r : TreeReq) (va : Nat) : Ans (Nat × Nat) := unitGet s r.ctx (va / 128 * 128) 128 .engRead
/-- Unit k of a line as a unit writes it: the eight follow each other (R224). -/
def treePut (s : State) (r : TreeReq) (va : Nat) (x : Line) (k : Nat) : Ans Nat :=
  unitPut s r.ctx (va + 16 * k) 16 (bits x.toNat (128 * k) 128) r.t .engWrite (k == 7) (coreDie r.core)
def treeAdd (s : State) (r : TreeReq) (va : Nat) (token : Bool) : Ans Nat :=
  unitAdd s r.ctx va (if token then tokenAmount.toNat else 1) (max r.t r.tw) (coreDie r.core)

/-! ## Splicers (R220 to R225) -/

/-- A failing command adds the error token to `done` and to `hitch` and writes nothing further (R220). -/
def bldFailed (r : TreeReq) : TreeReq :=
  { r with phase := 3, ops := [.add (bv 64 (bldDone r.block)) true, .add (bv 64 (bldHitch r.block)) true] }

/-- Lines of a tree, its root included, that a command may visit. -/
def treeMost (r : TreeReq) : Nat := bldPlines r.block + 1

/-- The headers a plan goes by. -/
def TreeReq.cluster (r : TreeReq) (c : Nat) : Line := r.got.getD ((bldClus r.block + 128 * c) % 2 ^ 64 / 128) 0

/-- The plan, once everything is read (R221, R222). -/
def bldPlan (s : State) (r : TreeReq) : Ans (Option TreeReq) :=
  let b := r.block
  let code (c : Nat) : Nat := clusterCode b (r.cluster c)
  let t : STree × Nat :=
    if bldKind b = 0 then
      let mine := (upTo (bldNcl b)).filter (fun c => takesCluster b (r.cluster c))
      (buildNode (buildFuel mine.length) (sortCodes (mine.map (fun c => (code c, c)))) 0).place (bldPool b) 0
    else ((readTree r.got (r.got.length + 1) (bldTop b)).refit r.cluster code (bldThr b)).place (bldPool b) (bldUsed b)
  if bldPlines b < t.2 then .ok s (some (bldFailed r))
  else
    let (ops, n) := planOps b r.cluster t.1 s.fresh
    .ok { s with fresh := s.fresh + n } (some { r with phase := 3, got := [], ops := ops })

/-- Reading a cluster's header; an empty or oversized cluster fails the command. -/
def bldCluster (s : State) (r : TreeReq) (c : Nat) (next : TreeReq → TreeReq) : Ans (Option TreeReq) :=
  let va := (bldClus r.block + 128 * c) % 2 ^ 64
  (treeGet s r va).andThen fun s x =>
    let n := cluCount (bv 1024 x.1)
    if n = 0 || 128 < n then .ok s (some (bldFailed r))
    else .ok s (some (next { (r.seen x.2) with got := r.got.put (va / 128) (bv 1024 x.1) }))

/-- Reading for a refit: nodes, leaves and the clusters they name. -/
def refitRead (s : State) (r : TreeReq) : Ans (Option TreeReq) :=
  match r.want with
  | [] => bldPlan s r
  | (va, _, kind) :: rest =>
    let r := { r with want := rest }
    if kind = 2 then bldCluster s r va (fun r => r)
    else if treeMost r ≤ r.pos then .ok s (some (bldFailed r))
    else (treeGet s r va).andThen fun s x =>
      let l : Line := bv 1024 x.1
      let r := { (r.seen x.2) with got := r.got.put (va / 128) l, pos := r.pos + 1 }
      if kind = 1 then
        if bldNcl r.block ≤ lineGet l 48 4 then .ok s (some (bldFailed r))
        else .ok s (some { r with want := r.want ++ [(lineGet l 48 4, 0, 2)] })
      else if (lineKids l).any (fun y => 2 ≤ y.2) then .ok s (some (bldFailed r))
      else .ok s (some { r with want := (lineKids l).map (fun y => (y.1, 0, y.2)) ++ r.want })

/-- Checks and reads before the plan. Phases: 0 checks, 1 reads, 3 acts. -/
def bldRead (s : State) (r : TreeReq) : Ans (Option TreeReq) :=
  let b := r.block
  if r.phase = 0 then
    if !bldOk b then .ok s (some (bldFailed r))
    else .ok s (some { r with phase := 1, want := if bldKind b = 1 then [(bldTop b, 0, 0)] else [] })
  else if bldKind b = 1 then refitRead s r
  else if r.pos < bldNcl b then bldCluster s r r.pos (fun r => { r with pos := r.pos + 1 })
  else bldPlan s r

/-- The next act of a plan but the joining root; after the last the command ends. -/
def bldAct (s : State) (r : TreeReq) : Ans (Option TreeReq) :=
  match r.ops with
  | [] => .ok s none
  | .line va x :: ops => (treePut s r va x r.unit).andThen fun s w => .ok s (some (if r.unit < 7 then
      { (r.seen w) with unit := r.unit + 1 }
    else { (r.seen w) with unit := 0, ops := ops }))
  | .add va token :: ops => (treeAdd s r va.toNat token).andThen fun s w => .ok s (some { (r.seen w) with ops := ops })
  | .join :: _ => .ok s (some r)

def bldStep (s : State) (r : TreeReq) : Ans (Option TreeReq) := if r.phase = 3 then bldAct s r else bldRead s r

def TreeReq.joins (r : TreeReq) : Bool := r.phase == 3 && (match r.ops with
  | .join :: _ => true
  | _ => false)

/-- The joining root once the peer's `done` has reached its target; the token fails the command (R220, R225). -/
def joinStep (s : State) (r : TreeReq) : Ans (Option TreeReq) :=
  let b := r.block
  let target := (bldPbase b + 1) % 2 ^ 64
  (readAtHome s r.ctx (bldPeer b)).andThen fun s y => match y with
    | none => .ok s (some (bldFailed r))
    | some (v, w) =>
      if bit v 63 then .ok s (some (bldFailed r))
      else if v < bits target 0 63 then .ok s (some r)
      else
        (treeGet s r (bldRoot b + 128)).andThen fun s x0 =>
          (treeGet s r ((bldRoot b + 256) % 2 ^ 64)).andThen fun s x1 =>
            let x := joinLine b (bv 1024 x0.1) (bv 1024 x1.1) s.fresh
            .ok { s with fresh := s.fresh + lineFree }
              (some { ((r.seen w).seen (max x0.2 x1.2)) with ops := .line (bldRoot b) x :: r.ops.tail })

def isRefit (r : TreeReq) : Bool := bldKind r.block == 1

def execSplicerBuild (die n : Nat) (s : State) : Out :=
  .next (s.treeRun .splicer die n (fun r => !isRefit r && !r.joins) bldFailed bldStep)
def execSplicerRefit (die n : Nat) (s : State) : Out :=
  .next (s.treeRun .splicer die n (fun r => isRefit r && !r.joins) bldFailed bldStep)
def execJoiningRootWrite (die n : Nat) (s : State) : Out :=
  .next (s.treeRun .splicer die n TreeReq.joins bldFailed joinStep)

/-! ## Coilers (R227) -/

def cmpSrc (x : Line) : Nat := bits x.toNat 0 64
def cmpDst (x : Line) : Nat := bits x.toNat 64 64
def cmpPool (x : Line) : Nat := bits x.toNat 128 64
def cmpPlines (x : Line) : Nat := bits x.toNat 192 32
def cmpWctr (x : Line) : Nat := bits x.toNat 256 64
def cmpWtgt (x : Line) : Nat := bits x.toNat 320 64
def cmpDone (x : Line) : Nat := bits x.toNat 384 64
def cmpRes (x : Line) : Nat := bits x.toNat 448 64
def cmpGen (x : Line) : Nat := bits x.toNat 512 1

/-- A failing compaction adds the error token to `done`. -/
def cmpFailed (r : TreeReq) : TreeReq := { r with phase := 2, ops := [.add (bv 64 (cmpDone r.block)) true] }

/-- A copied line's version. -/
def withGen (x : Line) (g : Nat) : Line := linePut x 86 1 (lineGet x 86 1 / 2 * 2 + g)

/-- A copied node: its new child base and version, no hitch roots, no hitch. -/
def copiedNode (x : Line) (base gen : Nat) : Line :=
  let y := linePut (linePut (withGen x gen) 72 8 base) 80 4 0
  (upTo 8).foldl (fun y c => linePut y (16 + 7 * c + 6) 1 (lineGet y (16 + 7 * c + 6) 1 &&& 0xEF)) y

/-- Lines of a node's child block: up to its last slot. -/
def blockLines (x : Line) : Nat :=
  (upTo 8).foldl (fun n c =>
    let m := lineGet x (16 + 7 * c + 6) 1
    if bit m 7 then max n (bits m 0 4 + 1) else n) 0

/-- The wait for the retired version's readers, and the end. Phases: 0 waits, 1 copies, 2 ends. -/
def cmpWait (s : State) (r : TreeReq) : Ans (Option TreeReq) :=
  let b := r.block
  if r.phase = 0 then
    (readAtHome s r.ctx (cmpWctr b)).andThen fun s y => match y with
      | none => .ok s (some (cmpFailed r))
      | some (v, w) =>
        if bit v 63 then .ok s (some (cmpFailed r))
        else if v < bits (cmpWtgt b) 0 63 then .ok s (some r)
        else .ok s (some { (r.seen w) with phase := 1, want := [(cmpSrc b, cmpDst b, 0)] })
  else bldAct s r

/-- Copying the next line in pre-order; with none left the line count goes to `res`. -/
def cmpCopy (s : State) (r : TreeReq) : Ans (Option TreeReq) :=
  let b := r.block
  match r.ops, r.want with
  | _ :: _, _ => bldAct s r
  | [], [] => (unitPut s r.ctx (cmpRes b) 8 r.pos r.t .engWrite false (coreDie r.core)).andThen fun s w =>
      .ok s (some { (r.seen w) with phase := 2, ops := [.add (bv 64 (cmpDone b)) false] })
  | [], (va, at1, kind) :: rest => (treeGet s r va).andThen fun s x =>
      let l : Line := bv 1024 x.1
      let r := r.seen x.2
      if kind = 1 then .ok s (some { r with want := rest, ops := [.line at1 (withGen l (cmpGen b))] })
      else
        let n := blockLines l
        let base := (cmpPool b + 128 * r.pos) % 2 ^ 64
        if cmpPlines b < r.pos + n then .ok s (some (cmpFailed r))
        else
          let kids := ((upTo 8).map (fun c => lineGet l (16 + 7 * c + 6) 1)).filterMap (fun m =>
            if bit m 7 && bits m 5 2 < 2 then
              some ((lineGet l 72 8 + 128 * bits m 0 4) % 2 ^ 64, (base + 128 * bits m 0 4) % 2 ^ 64, bits m 5 2)
            else none)
          .ok s (some { r with want := kids ++ rest, pos := r.pos + n, ops := [.line at1 (copiedNode l base (cmpGen b))] })

def execCoilerCompact (die n : Nat) (s : State) : Out :=
  .next (s.treeRun .coiler die n (fun r => r.phase != 1) cmpFailed cmpWait)
def execCoilerCopy (die n : Nat) (s : State) : Out :=
  .next (s.treeRun .coiler die n (fun r => r.phase == 1) cmpFailed cmpCopy)

end Sys2Proof.Machine
end

