-- ==== Sys2Proof/Machine/Issue.lean ====
section
/-!
DEFINITION. From a pipe's turn to the meaning of a word: fetch, the choice of a group, tags, lookahead windows; and how
issued work completes (R44, R57 to R59, R62, R110, R130, R156, R243, R244, R260 to R268, R288, R328).
-/
namespace Sys2Proof.Machine

/-! ## Instruction fetch (R260, R263) -/

/-- Does the group want a word: it is neither parked nor gone? -/
def Group.wantsWord (g : Group) : Bool := (g.st == .ready || g.st == .waiting) && g.trapWait.isNone && g.tst.isNone

def execInstructionFetch (place : Nat) (s : State) : Out :=
  .next (match s.grp place with
  | none => s
  | some g =>
    let c := placeCore place
    let va := pcLine g.pc
    let trap (s : State) (k : Cause) (info : DWord) : State := s.takeTrap place { cause := k, info := info, pc := g.pc }
    if !g.wantsWord || s.waiting (.fetch place) || !pcFormOk g.pc || ((s.core c).icache.find (lineKey g.ctx va)).isSome then s
    else match s.owner va with
      | .bad => trap s .badOwner g.pc
      | .far => trap s .poisoned (bv 64 va)
      | .die _ | .host _ => (match fetchCode s c g.ctx va with
        | .ok s _ => s
        | .poisoned s | .far s => trap s .poisoned (bv 64 va)
        | .fault s d => s.parkFetch place d g.ctx
        | .wait s w => (match w with
          | some (d, n) => s.await (.fetch place) d g.ctx (some n)
          | none => s)))

/-! ## Groups on a pipe -/

/-- Does a core issue: not halted, not gated, on a die that runs? -/
def State.coreRuns (s : State) (c : Nat) : Bool :=
  !(s.core c).halted && !(s.core c).gated && s.serves (coreDie c) && (s.die (coreDie c)).up

/-- The groups on a pipe, with their places. -/
def State.onPipe (s : State) (k : Nat) : List (Nat × Group) :=
  (upTo 4).filterMap (fun j => (s.grp (4 * k + j)).map (fun g => (4 * k + j, g)))

/-- Can the group's next word be judged? -/
def State.wants (s : State) (x : Nat × Group) : Bool := x.2.wantsWord && !s.waiting (.fetch x.1) && !s.waiting (.word x.1)

/-! ## What comes between a turn and the meaning (R261, R264 to R267, R288) -/

/-- The word is ready for `exec`; the group traps at it; or something comes first, and the group waits. -/
inductive Prep where
  | go (s : State) (i : Instr)
  | trap (s : State)
  | hold (s : State)

/-- The tags the wait slots name. -/
def waitTags (x : Sched) (g : Group) : List Nat :=
  if x.w1 = 7 || x.w2 = 7 then (g.tags.map (·.1)).filter (· ≤ 7) else [x.w1.toNat, x.w2.toNat].filter (· != 0)

/-- Is one of the tags not released yet? -/
def Group.anyBusy (g : Group) (ts : List Nat) : Bool := ts.any (fun t => match g.tags.find t with
  | some x => !x.released
  | none => false)

/-- Waiting for tags clears their allocation bits. -/
def Group.consume (g : Group) (ts : List Nat) : Group := { g with tags := ts.foldl SMap.del g.tags }

/-- The word's tags: waits, then a tag that it allocates anew (R266); none while one of them is busy. -/
def Group.tagsFor (g : Group) (x : Sched) : Except Group Group :=
  let ts := waitTags x g
  if g.anyBusy ts then .error g
  else
    let g' := g.consume ts
    if g'.anyBusy [x.set.toNat] then .error g' else .ok g'

/-- The operation field of a word, as `trapinfo` reports it. -/
def wordOp (w : BitVec 80) : DWord := w.extractLsb' 0 64

/-- THE ISSUE OF THE WORD AT A GROUP'S PROGRAM COUNTER, up to its meaning. -/
def State.issuePrep (s : State) (p : Nat) : Prep :=
  let off : State := s.endTurn
  match s.grp p with
  | none => .hold off
  | some g =>
    let trap (k : Cause) (info : DWord) : Prep := .trap (off.takeTrap p { cause := k, info := info, pc := g.pc })
    if !s.wants (p, g) then .hold off
    else match g.lpend.findIdx? (fun l => l.left == 0) with
      | some k => .hold (s.first [.longResultWrite p k none])
      | none =>
        if !pcFormOk g.pc then trap .illegal 0
        else if s.owner (pcLine g.pc) = .bad then trap .badOwner g.pc
        else match (s.core (placeCore p)).icache.find (lineKey g.ctx (pcLine g.pc)) with
          | none => .hold (off.first [.instructionFetch p])
          | some l =>
            let w := lineWord l (pcSlot g.pc)
            if !lineOk l then trap .lineIntegrity (bv 64 (pcLine g.pc))
            else if lineCount l ≤ pcSlot g.pc then trap .illegal 0
            else match decodeWord w with
              | .error _ => trap .illegal (wordOp w)
              | .ok i => match g.tagsFor i.sched with
                | .error g' => .hold (off.setGrp p g'.hold)
                | .ok g' => .go (s.setGrp p { g' with ir := wordOp w, npc := nextPc g.pc (lineCount l) }) i

/-! ## The checks of a word (R195, R288) -/

/-- Registers of an operand of 32 bits, or of a pair. -/
def wide (w : Bool) : Nat := if w then 2 else 1

/-- The vector registers a word names, its operands in the order D, A, B, C (R27). -/
def wordRegs : Instr → List Nat
  | .iadd _ r | .isub _ r | .imin _ r | .imax _ r | .imul _ r | .imulh _ r | .logic _ r | .sel _ _ r =>
    opdRegs r.d (wide r.ty.is64) ++ opdRegs r.a (wide r.ty.is64) ++ opdRegs r.b (wide r.ty.is64)
  | .imad _ r =>
    opdRegs r.d (wide r.ty.is64) ++ opdRegs r.a (wide r.ty.is64) ++ opdRegs r.b (wide r.ty.is64) ++ opdRegs r.c (wide r.ty.is64)
  | .bfi _ r => opdRegs r.d (wide r.ty.is64) ++ opdRegs r.a (wide r.ty.is64) ++ opdRegs r.b (wide r.ty.is64) ++ opdRegs r.c 1
  | .bfx _ r => opdRegs r.d (wide r.ty.is64) ++ opdRegs r.a (wide r.ty.is64) ++ opdRegs r.b 1 ++ opdRegs r.c 1
  | .shl _ r | .shr _ r | .shfl _ r => opdRegs r.d (wide r.ty.is64) ++ opdRegs r.a (wide r.ty.is64) ++ opdRegs r.b 1
  | .iabs _ r | .brev _ r | .mov _ r | .qswap _ r | .lred _ r | .lscan _ r =>
    opdRegs r.d (wide r.ty.is64) ++ opdRegs r.a (wide r.ty.is64)
  | .popc _ r | .clz _ r | .matchEq _ r => opdRegs r.d 1 ++ opdRegs r.a (wide r.ty.is64)
  | .lea _ r => opdRegs r.d 2 ++ opdRegs r.a 2 ++ opdRegs r.b 1
  | .idp4 _ r | .bperm _ r | .ffma _ r | .fdot2 _ r => opdRegs r.d 1 ++ opdRegs r.a 1 ++ opdRegs r.b 1 ++ opdRegs r.c 1
  | .fadd _ r | .fmul _ r | .fmin _ r | .fmax _ r | .fscale _ r | .fmaxe _ r => opdRegs r.d 1 ++ opdRegs r.a 1 ++ opdRegs r.b 1
  | .frcp _ r | .frsq _ r | .fsqrt _ r | .fexp2 _ r | .flog2 _ r | .fsin _ r | .fcos _ r | .ftanh _ r | .frnd _ r | .fclass _ r
  | .qdiff _ r => opdRegs r.d 1 ++ opdRegs r.a 1
  | .fcvt _ r => opdRegs r.d 1 ++ opdRegs r.a 1
  | .f2i _ r => opdRegs r.d (wide r.dt.is64) ++ opdRegs r.a 1
  | .i2f _ r => opdRegs r.d 1 ++ opdRegs r.a (wide r.st.is64)
  | .iaddImm _ r | .isubImm _ r | .imulImm _ r | .logicImm _ _ r | .shlImm _ r | .shrImmLogical _ r | .shrImmArith _ r =>
    opdRegs r.d (wide r.w) ++ opdRegs r.a (wide r.w)
  | .movi _ r => opdRegs r.d (wide r.w)
  | .icmpImm _ _ _ _ r => opdRegs r.a (wide r.w)
  | .icmp _ r => opdRegs r.a (wide r.ty.is64) ++ opdRegs r.b (wide r.ty.is64)
  | .fcmp _ r => opdRegs r.a 1 ++ opdRegs r.b 1
  | .ballot _ d _ | .mpopc _ _ d _ | .csrr _ _ d => opdRegs d 1
  | .csrw _ _ a => opdRegs a 1
  | .brx _ a | .ret _ a => opdRegs a 2
  | .ld _ w m => opdRegs m.d (wide (ldIs64 w)) ++ opdRegs m.a 2
  | .lds _ w m => opdRegs m.d (wide (ldIs64 w)) ++ opdRegs m.a 1
  | .st _ w m | .sinj _ w m => opdRegs m.a 2 ++ opdRegs m.b (wide (w == .b64))
  | .sts _ w m => opdRegs m.a 1 ++ opdRegs m.b (wide (w == .b64))
  | .pref _ m => opdRegs m.a 2
  | .pld _ m => opdRegs m.d 2 ++ opdRegs m.a 2
  | .pst _ m => opdRegs m.a 2 ++ opdRegs m.b 2
  | .atom _ _ r | .acas _ r | .mred _ _ r =>
    opdRegs r.d (wide r.ty.is64) ++ opdRegs r.a 2 ++ opdRegs r.b (wide r.ty.is64) ++ opdRegs r.c (wide r.ty.is64)
  | .tlbf _ r => opdRegs r.a 1 ++ opdRegs r.b 2 ++ opdRegs r.c 1
  | .frec _ r => opdRegs r.d 1 ++ opdRegs r.a 1 ++ opdRegs r.b 2 ++ opdRegs r.c 1
  | .ntest _ r => opdRegs r.d 12 ++ opdRegs r.a 8 ++ opdRegs r.b 2
  | .hitk _ r => opdRegs r.d 6 ++ opdRegs r.a 12 ++ opdRegs r.b 1
  | .trvpush _ r => opdRegs r.d 1 ++ opdRegs r.a 12
  | .trvpop _ r => opdRegs r.d 4 ++ opdRegs r.a 1
  | .morton _ r => opdRegs r.d 1 ++ opdRegs r.a 3
  | .qbox _ true r => opdRegs r.d 4 ++ opdRegs r.a 6
  | .qbox _ false r => opdRegs r.d 2 ++ opdRegs r.a 6 ++ opdRegs r.b 4
  | .bdec _ _ _ r => opdRegs r.d 1 ++ opdRegs r.a 1
  | .dualWord _ x y => halfRegs x ++ halfRegs y
  | _ => []

/-- Does a word trap before its own entry is asked: ill-formed, not one a stream may issue, privileged, or past the register
budget (R195, R245)? -/
def Group.wordTraps (g : Group) (i : Instr) : Bool :=
  !i.wf || (g.kind == .reel && !g.inTrap && !reelAllows i) || (isPrivileged i && !g.privileged)
  || (wordRegs i).any (fun r => g.regs ≤ r)

/-! ## Words that wait before they issue (R44), and uniform words (R26) -/

/-- The operands of an arithmetic word. -/
def aluOpds : Instr → Option (Hdr × List Opd × Opd)
  | .iadd h r | .isub h r | .imin h r | .imax h r | .iabs h r | .imul h r | .imulh h r | .imad h r | .idp4 h r | .sel h _ r
  | .logic h r | .shl h r | .shr h r | .bfx h r | .bfi h r | .popc h r | .clz h r | .brev h r | .lea h r | .mov h r
  | .bperm h r | .fadd h r | .fmul h r | .ffma h r | .fmin h r | .fmax h r | .frcp h r | .frsq h r | .fsqrt h r
  | .fexp2 h r | .flog2 h r | .fsin h r | .fcos h r | .ftanh h r | .fscale h r | .fmaxe h r | .frnd h r | .fclass h r
  | .fdot2 h r | .shfl h r | .qswap h r | .qdiff h r | .matchEq h r | .lred h r | .lscan h r => some (h, [r.a, r.b, r.c], r.d)
  | .iaddImm h r | .isubImm h r | .imulImm h r | .logicImm h _ r | .shlImm h r | .shrImmLogical h r | .shrImmArith h r
  | .movi h r => some (h, [r.a], r.d)
  | .fcvt h r | .f2i h r | .i2f h r => some (h, [r.a], r.d)
  | .icmp h r | .fcmp h r => some (h, [r.a, r.b], .zero)
  | .icmpImm h _ _ _ r => some (h, [r.a], .zero)
  | _ => none

/-- The uniform-capable arithmetic words (R300, R329, R365). -/
def uniCapable : Instr → Bool
  | .iadd .. | .iaddImm .. | .isub .. | .isubImm .. | .imin .. | .imax .. | .iabs .. | .imul .. | .imulImm .. | .imulh ..
  | .imad .. | .idp4 .. | .logic .. | .logicImm .. | .shl .. | .shlImm .. | .shr .. | .shrImmLogical .. | .shrImmArith ..
  | .bfx .. | .bfi .. | .popc .. | .clz .. | .brev .. | .lea .. | .mov .. | .movi .. | .bperm .. | .fadd .. | .fmul .. | .ffma ..
  | .fmin .. | .fmax .. | .fscale .. | .fmaxe .. | .frnd .. | .fcvt .. | .f2i .. | .i2f .. | .fclass .. | .fdot2 .. => true
  | _ => false

/-- Does a group's word run on the scalar unit: a uniform-capable one by its operands, any other where its entry says so? -/
def uniformWord (g : Group) (i : Instr) : Bool := match i with
  | .ld _ _ m | .lds _ _ m | .pld _ m => m.d.isS
  | .st _ _ m | .sts _ _ m | .sinj _ _ m | .pst _ m => m.a.isS && m.b.isSZ
  | .smap .. | .sunmap .. | .wbr .. | .invr .. | .fence .. | .rlog .. | .cadd .. | .cwait .. | .crd .. | .bld .. | .cmpct ..
  | .nfmt .. | .kick .. | .sstart .. | .sstop .. | .tlbi .. => true
  | .csrr _ c _ | .csrw _ c _ => !(c == .wdata && g.wselThr)
  | _ => uniCapable i && (match aluOpds i with
    | some (_, xs, d) => d.isSZ && xs.all (·.isSZ)
    | none => false)

/-- A word that can wait, issued. -/
def waitingWord (i : Instr) (s : State) : Option Out := match i with
  | .st h w m => some (execSt h w m s)
  | .sts h w m => some (execSts h w m s)
  | .sinj h w m => some (execSinj h w m s)
  | .pst h m => some (execPst h m s)
  | .mred h op r => some (execMred h op r s)
  | .cadd h sc r => some (execCadd h sc r s)
  | .wbr h r => some (execWbr h r s)
  | .smap h r => some (execSmap h r s)
  | .sunmap h r => some (execSunmap h r s)
  | .fence h o sc => some (execFence h o sc s)
  | .rlog h r => some (execRlog h r s)
  | .cwait h sc r => some (execCwait h sc r s)
  | .brd h t j => some (execBrd h t j s)
  | .spawn h f n x t => some (execSpawn h f n x t s)
  | .tst h ha x off o sc => some (execTst h ha x off o sc s)
  | .trvpush h r => some (execTrvpush h r s)
  | .hitk h r => some (execHitk h r s)
  | .bld h r => some (execBld h r s)
  | .cmpct h r => some (execCmpct h r s)
  | .kick h r => some (execKick h r s)
  | .sstart h r => some (execSstart h r s)
  | .sstop h r => some (execSstop h r s)
  | .csrr h c d => some (execCsrr h c d s)
  | .csrw h c a => some (execCsrw h c a s)
  | .tret h => some (execTret h s)
  | .tretSave h => some (execTretSave h s)
  | .tretKill h => some (execTretKill h s)
  | _ => none

/-- What a word that has to wait leaves; none where it issues. -/
def State.wordWaits (s : State) (p : Nat) (g : Group) (i : Instr) : Option State :=
  match aluOpds i with
  | some (h, xs, d) =>
    -- a word that traps at its checks does so whatever its queues hold
    if g.wordTraps i then none
    else (match aluBody s h false false d false (xs.map (fun o => src o false .none))
        (fun _ _ _ _ => (0, 0)) { p := p, g := g } with
      | .wait t => some (t.modGrp p Group.hold)
      | _ => none)
  | none => match waitingWord i { s with cur := some p } with
    | some (.next t) => if (t.grp p).any (fun g => g.st == .waiting && g.trapWait.isNone && g.tst.isNone) then some t else none
    | _ => none

/-! ## A pipe's turn (R57 to R60) -/

/-- A group that can issue in a turn; is its word uniform? -/
structure Cand where
  p : Nat
  g : Group
  uni : Bool
deriving DecidableEq, Repr

/-- What a look at a group's next word finds: it can issue; or what waiting for it leaves. -/
inductive Look where
  | can (uni : Bool)
  | held (s : State)

def State.look (s : State) (p : Nat) : Look :=
  let ready (g : Group) : Group := { g with st := if g.st == .waiting then .ready else g.st }
  match (s.modGrp p ready).issuePrep p with
  | .trap _ => .can false
  | .hold t => .held { t.modGrp p Group.hold with cur := s.cur }
  | .go t i => match t.grp p with
    | none => .can false
    | some g => match t.wordWaits p g i with
      | some u => .held { u with cur := s.cur }
      | none => .can (uniformWord g i)

/-- The candidates of a pipe, and what the waiting of its other groups leaves (R44, R57). -/
def State.lookAll (s : State) (k : Nat) : State × List Cand :=
  if !s.coreRuns (k / 128) then (s, [])
  else ((s.onPipe k).filter s.wants).foldl (fun r x => match r.1.look x.1 with
    | .can u => (r.1, r.2 ++ [{ p := x.1, g := x.2, uni := u }])
    | .held t => (t, r.2)) (s, [])

/-- One that yielded is no candidate unless it is the only one (R59). -/
def unyielded (xs : List Cand) : List Cand := if 1 < xs.length then xs.filter (fun x => !x.g.yielded) else xs

/-- The candidates of a turn. -/
def State.candidates (s : State) (k : Nat) : List Cand := unyielded (s.lookAll k).2

/-- The rules of R58: age 64, the walker slot, the reel slot, all others. -/
def Cand.rule (x : Cand) : Nat :=
  if x.g.age = 64 then 1 else if x.g.kind = .walker then 2 else if x.g.kind = .reel then 3 else 4

/-- The order of R58 but for place numbers: the lower rule; of rule 1 the one that reached age 64 earlier; of rule 4 launch
priority, then age. -/
def Cand.before (x y : Cand) : Bool :=
  x.rule < y.rule || (x.rule == y.rule && (match x.rule with
    | 1 => x.g.aged < y.g.aged
    | 4 => y.g.prio < x.g.prio || (x.g.prio == y.g.prio && y.g.age < x.g.age)
    | _ => false))

/-- The first of a list by an order; of equals the one that comes first. -/
def firstBy (f : Cand → Cand → Bool) : List Cand → Option Cand
  | [] => none
  | x :: r => match firstBy f r with
    | none => some x
    | some y => if f y x then some y else some x

/-- The choice of R58; candidates stand in the order of their places. -/
def chooseGroup (xs : List Cand) : Option Cand := firstBy Cand.before xs

/-- The pipes of a slice in the order of the scalar unit's round-robin: from the one after the last granted (R60). -/
def State.scalarOrder (s : State) (k : Nat) : List Nat :=
  let last := (s.core (k / 128)).scalar.getD (k / 32) 31
  (upTo 32).map (fun j => k / 32 * 32 + (last + 1 + j) % 32)

/-- What the pipes of the slice present to the scalar unit when pipe k presents x: every other pipe the candidate it chooses,
when that one's word is uniform (R60). -/
def State.presented (s : State) (x : Cand) : List Cand :=
  let k := placePipeKey x.p
  (s.scalarOrder k).filterMap (fun j => if j = k then some x else (chooseGroup (s.candidates j)).filter (·.uni))

/-- Does the scalar unit grant x? -/
def State.grants (s : State) (x : Cand) : Bool := firstBy Cand.before (s.presented x) == some x

/-- The turn goes down the pipe's candidates in the order of R58, past those whose uniform word is not granted: the group that
issues, and those refused (R60). -/
def State.award (s : State) : Nat → List Cand → Option Cand × List Nat
  | 0, _ => (none, [])
  | n + 1, xs => match chooseGroup xs with
    | none => (none, [])
    | some x =>
      if !x.uni || s.grants x then (some x, [])
      else
        let r := s.award n (xs.filter (fun y => y.p != x.p))
        (r.1, x.p :: r.2)

/-- What a turn leaves of one of the pipe's groups: ages by R57, the yield spent; a refused group waits (R60), any other candidate
is Ready. -/
def Group.afterTurn (g : Group) (now : Nat) (chosen candidate refused : Bool) : Group :=
  let age := if chosen then 0 else if candidate && !refused then min 64 (g.age + 1) else g.age
  { g with
    age := age
    aged := if age = 64 && g.age < 64 then now else g.aged
    yielded := false
    st := if refused then .waiting else if candidate then .ready else g.st }

/-- One pipe chooses among the groups whose next word can issue (R57 to R60). -/
def State.issueTurn (s : State) (pipe : Nat) : State :=
  let (t, all) := s.lookAll pipe
  let xs := unyielded all
  let (w, refused) := s.award 4 xs
  let has (p : Nat) (ys : List Nat) : Bool := ys.contains p
  let t := (s.onPipe pipe).foldl (fun t x =>
    t.modGrp x.1 (fun g => g.afterTurn s.seq (has x.1 (w.toList.map (·.p))) (has x.1 (xs.map (·.p))) (has x.1 refused))) t.tick
  match w with
  | some x => { (if x.uni then t.modCore (pipe / 128) (fun c => { c with scalar := c.scalar.put (pipe / 32) (pipe % 32) }) else t) with
      cur := some x.p }
  | none => t

/-- `ISSUE_TURN`. While a group chosen before has yet to issue no turn is taken: no pipe can start an instruction (R25, R57). -/
def execIssueTurn (pipe : Nat) (s : State) : Out := .next (if s.cur.isSome then s else s.issueTurn pipe)

/-! ## Tagged results (R156, R188, R266) -/

/-- Performing the outstanding instruction of a tag. -/
def performOp (s : State) (p t : Nat) (g : Group) (o : POp) : Instr → State
  | .ld _ w m => performLoad s p t g o false w m
  | .lds _ w m => performLoad s p t g o true w m
  | .atom _ op r => performAtom s p t g o op r
  | .acas _ r => performAcas s p t g o r
  | .crd _ ord _ r => performCrd s p t g o ord r
  | .pref _ m => performPref s p t g o m
  | .ntest _ r => performNtest s p t g o r
  | .nfmt _ _ => performNfmt s p t g o
  | .trvpop _ r => performTrvpop s p t g o r
  | .bdec _ kind k r => performBdec s p t g o kind k r
  | .pld _ m => performPld s p t g o m
  | .tlbi _ rc _ => performTlbi s p t g o rc
  | .tld _ hd _ _ _ _ => s.tldArrive p t g o hd.toNat
  | _ => s.modGrp p (fun g => g.setOp t none)

/-- What the reading of a restored entry's word at its slot comes to (R199): the word; no word at all; a trap; a line that has come
or is awaited; a translation fault. -/
inductive Reread where
  | word (i : Instr)
  | gone
  | trap (s : State) (c : Cause)
  | later (s : State)
  | park (s : State) (k : Park)

def State.reread (s : State) (p : Nat) (g : Group) (pc : DWord) (r : Req) : Reread :=
  let va := pcLine pc
  match (s.core (placeCore p)).icache.find (lineKey g.ctx va) with
  | some l =>
    if !lineOk l then .trap s .lineIntegrity
    else match decodeWord (lineWord l (pcSlot pc)) with
      | .ok i => if i.wf then .word i else .gone
      | .error _ => .gone
  | none =>
    if !pcFormOk pc || s.owner va = .bad then .gone
    else match fetchCode s (placeCore p) g.ctx va with
      | .ok s _ => .later s
      | .poisoned s | .far s => .trap s .poisoned
      | .fault s d => .park s (s.park d g.ctx)
      | .wait s w => .later (match w with
        | some (d, n) => s.await r d g.ctx (some n)
        | none => s)

/-- A restored entry's word is read again at its slot (R199); an entry that names no such word is dropped. -/
def State.refetch (s : State) (p t : Nat) (g : Group) (o : POp) : State :=
  match o.faults.find? (fun y => y.1 == pcLine o.pc / 65536) with
  | some y => s.parkTag p t o y.2
  | none => match s.reread p g o.pc (.tag p t) with
  | .word i => s.modGrp p (fun g => g.setOp t (if i.sched.set.toNat = t then some { o with instr := some i } else none))
  | .gone => s.modGrp p (fun g => g.setOp t none)
  | .trap s c => s.trapTag p t c (bv 64 (pcLine o.pc)) o.pc
  | .later s => s
  | .park s k => s.parkTag p t o k

/-- The same for a restored `TST`. -/
def State.refetchTst (s : State) (p : Nat) (g : Group) (t : TstOp) : State :=
  let put (s : State) (x : Option TstOp) : State := s.modGrp p (fun g => { g with tst := x })
  match s.reread p g t.pc (.tst p) with
  | .word (.tst h ha x off ord sc) => put s (some { t with instr := some (.tst h ha x off ord sc) })
  | .word _ | .gone => put s none
  | .trap s c => (put s none).takeTrap p { cause := c, info := bv 64 (pcLine t.pc), pc := t.pc }
  | .later s => s
  | .park s k => (put s (some (t.park k))).parkGroup p

/-- Some of a result's registers are written ahead of the others (R266, R267). -/
def pickWrites (res : List Wr) (early : List Nat) : List Wr :=
  (res.zipIdx.filter (fun x => early.contains x.2)).map (·.1)

/-- What is left of the result: a register written ahead is not written again (R266, R268). -/
def leftWrites (res : List Wr) (early : List Nat) : List Wr :=
  (res.zipIdx.filter (fun x => !early.contains x.2)).map (·.1)

/-- Loads that reach their lines at different times: those of some threads are performed, and the others' stay outstanding
(R154, R421; notes/assumptions/47.md). A part that parks parks the whole word. -/
def State.performPart (s : State) (p t : Nat) (g : Group) (o : POp) (i : Instr) (m : Mask) : State :=
  let u := performOp s p t g { o with todo := o.todo &&& m } i
  match (u.grp p).bind (fun g => g.op t) with
  | some x =>
    if x.parked.isSome then performOp s p t g o i
    else u.modGrp p (fun g => g.setOp t (some { x with todo := x.todo ||| (o.todo &&& ~~~m) }))
  | none => u

/-- Is the outstanding word one whose threads may be served apart? -/
def POp.parts (o : POp) : Bool := match o.instr with
  | some (.ld ..) | some (.lds ..) => true
  | _ => false

/-- The next part of an outstanding tag: its accesses, then its registers and its release. `early` names the writes, or before that
the threads, that come ahead of the others. -/
def State.advanceTag (s : State) (p t : Nat) (early : Option (List Nat)) : State :=
  match s.grp p with
  | none => s
  | some g => match g.op t with
    | none => s
    | some o =>
      if s.waiting (.tag p t) then s
      else if o.instr.isNone && o.todo != 0 then s.refetch p t g o
      else if o.parked.isSome then s
      else if o.todo = 0 then
        match early with
        | some xs => s.setGrp p ((g.wrs (pickWrites o.res xs)).setOp t (some { o with res := leftWrites o.res xs }))
        | none => s.setGrp p ((g.wrs o.res).setOp t none)
      else match o.instr with
        | none => s.refetch p t g o
        | some i => match early with
          | some xs => if o.parts && maskOf xs.contains &&& o.todo != 0 then s.performPart p t g o i (maskOf xs.contains)
            else performOp s p t g o i
          | none => performOp s p t g o i

def execTagRelease (place tag : Nat) (early : Option (List Nat)) (s : State) : Out :=
  .next ((s.advanceTag place tag early).settle place)

def execTldArrival (place tag : Nat) (s : State) : Out :=
  .next (match (s.grp place).bind (fun g => g.op tag) with
  | some o => if o.isTld then (s.advanceTag place tag none).settle place else s
  | none => s)

/-! ## Class-L results (R267) -/

/-- Without the entry at an index. -/
def dropAt {α : Type} (xs : List α) (k : Nat) : List α := xs.take k ++ xs.drop (k + 1)

def execLongResultWrite (place idx : Nat) (early : Option (List Nat)) (s : State) : Out :=
  .next (match s.grp place with
  | none => s
  | some g => match g.lpend[idx]? with
    | none => s
    | some l => match early with
      | some xs => s.setGrp place { g.wrs (pickWrites l.res xs) with
          lpend := g.lpend.take idx ++ { l with res := leftWrites l.res xs } :: g.lpend.drop (idx + 1) }
      | none => (s.setGrp place { g.wrs l.res with lpend := dropAt g.lpend idx }).settle place)

/-! ## The store queue (R129, R130, R156) -/

/-- One line of a `WBR` is written back and stays, clean; with none left the entry leaves. One of length 0 closes the core's log
range too (R130, R133; notes/assumptions/60.md, DESIGN CHOICE). -/
def State.sqWbr (s : State) (p : Nat) (g : Group) (e : SqEntry) : State :=
  let c := placeCore p
  let s := s.closeLog c
  match (s.core c).dirtyIn g.ctx e.range.1 e.range.2 with
  | [] => s.sqDone p
  | k :: _ => match s.copyOf c g.ctx (keyVa k) with
    | none => s.loseBack p g e
    | some z => match managedBack s g.ctx (keyVa k) z.data z.mask z.poison (s.core c).t with
      | .ok s _ => s.setCopyOf c g.ctx (keyVa k) { z with mask := 0 }
      | .far s => (s.dropFar (placeDie p) (keyVa k)).loseBack p g e
      | .fault s _ | .poisoned s => s.loseBack p g e
      | .wait s w => match w with
        | some (d, n) => s.await (.sq p) d g.ctx (some n)
        | none => s

/-- The next line that an unbinding put into the queue. -/
def State.sqBack (s : State) (p : Nat) (g : Group) (e : SqEntry) (xs : List WbLine) : State :=
  match xs with
  | [] => s.sqDone p
  | y :: _ =>
    if !y.managed then (s.ownedBack (placeCore p) g.ctx y.va y.data y.w y.r y.poison).loseBack p g e
    else match managedBack s g.ctx y.va y.data y.mask y.poison (s.core (placeCore p)).t with
      | .ok s _ | .fault s _ | .poisoned s => s.loseBack p g e
      | .far s => (s.dropFar (placeDie p) y.va).loseBack p g e
      | .wait s w => match w with
        | some (d, n) => s.await (.sq p) d g.ctx (some n)
        | none => s

/-- The head of a group's queue advances; behind an empty queue, a `TST`. -/
def State.advanceSq (s : State) (p : Nat) : State :=
  match s.grp p with
  | none => s
  | some g => match g.sq with
    | e :: _ =>
      if e.parked.isSome || s.waiting (.sq p) || !g.mayStore e then s
      else match e.kind with
        | .store | .sts | .sinj _ => s.sqStores p g e
        | .mred op ty => s.sqMred p g e op ty
        | .cadd => s.sqCadd p g e
        | .wbr => s.sqWbr p g e
        | .writeBack xs => s.sqBack p g e xs
        | .phys => s.sqPhys p e
    | [] => match g.tst with
      | some t =>
        let after := if ordRels t.ord then t.seq else g.fence
        if t.parked.isSome || s.waiting (.tst p) then s
        else if t.instr.isNone then s.refetchTst p g t
        else if g.clear t.seq after then s.tstStep p g t
        else match g.heldBy t.seq after with
          | some k => (s.modGrp p (fun g => { g with tst := some (t.park k) })).parkGroup p
          | none => s
      | none => s

def execStoreQueueLeave (place : Nat) (s : State) : Out := .next ((s.advanceSq place).settle place)

/-! ## The end of a group and of its gang (R62, R66, R122, R243, R244, R328) -/

/-- Everything the group issued has landed. -/
def Group.landed (g : Group) : Bool := g.sq.isEmpty && g.tst.isNone && g.tags.all (fun x => x.2.op.isNone)

/-- Every bound line of a gang dropped: the core without them, and their write-backs. -/
def unbindAll (x : Core) (ctx : Nat) (bs : List Binding) : Core × List WbLine :=
  bs.foldl (fun r b => let y := unbind r.1 ctx b; (y.1, r.2 ++ y.2)) (x, [])

/-- A gang that is gone: exited, or killed with its bound lines discarded; its stash reads zero (R120). -/
def State.endGang (s : State) (key : Nat) (k : Gang) (killed : Bool) : State :=
  let c := s.core k.core
  let s := s.setCore k.core ((unbindAll c k.ctx k.binds).1.clearStash k.stashBase k.stashSize)
  let s := match s.task k.queue k.seqNo with
    | some t => if killed then s else s.setTask k.queue k.seqNo { t with
        exited := if k.spawned then t.exited else t.exited ++ [k.gang]
        t := max t.t c.t }
    | none => s
  { s with gangs := s.gangs.del key }

/-- Are ordinary groups of a gang Saved? -/
def State.gangAway (s : State) (key : Nat) : Bool := s.saved.any (fun x => x.gangKey == key && x.kind == .ordinary)

/-- The last that stands of a gang, a group or its stream, leaves: bound lines are written back, unless a kill discards them, and
the gang ends. With groups saved, the gang keeps its entry and its bindings for them. -/
def State.retireLast (s : State) (p : Nat) (g : Group) (k : Gang) : State :=
  let c := placeCore p
  let away := s.gangAway g.gangKey
  let killed := g.kind == .reel && !away
  let (x, wbs) := unbindAll (s.core c) g.ctx k.binds
  if !killed && !wbs.isEmpty then
    let s := { s.setCore c x with gangs := s.gangs.put g.gangKey { k with binds := if away then k.binds else [] } }
    s.tick.setGrp p (g.enqueue (wbEntry s g wbs))
  else
    let s := s.leavePlace p g
    if away then s.modCore c (fun y => y.clearStash k.stashBase k.stashSize)
    else s.endGang g.gangKey k killed

/-- A gang exits with the last of its groups: the stream it started stops first, and one that is Saved does not start again
(R244). -/
def State.exitGang (s : State) (p : Nat) (g : Group) (k : Gang) : State :=
  match s.gangStream g.gangKey k with
  | some y => if y.running then s.endReel (reelPlace k.core) 1 else s
  | none =>
    let mine (x : SavedGroup) : Bool := x.gangKey == g.gangKey && x.kind == .reel
    let s := if s.saved.any mine && (s.core k.core).reelGang == g.gangKey then s.modCore k.core (fun c => { c with reelEnd := 1 }) else s
    { s with saved := s.saved.filter (fun x => !mine x) }.retireLast p g k

/-- Has a killed gang's work landed: its groups' accesses, its stream's, and its engine requests (R62, R66)? -/
def State.gangLanded (s : State) (key : Nat) (k : Gang) : Bool :=
  k.places.all (fun p => match s.grp p with
    | some g => (g.st == .killed || g.st == .retiring) && g.landed
    | none => true)
  && (s.gangStream key k).isNone && !s.engAny (fun r => r.gang == key)

/-- The places and the stash of a killed gang are free, its registers and its allocation zero (R66). -/
def State.freeGang (s : State) (key : Nat) (k : Gang) : State :=
  ((k.places.foldl (fun s p => (s.delGrp p).dropWaiter p) s).endGang key k true).releaseQueues k.core

def execGroupRetire (place : Nat) (s : State) : Out :=
  .next (match s.grp place with
  | none => s
  | some g =>
    if !(g.st == .retiring || g.st == .killed) || !g.landed then s
    else match g.kind with
      | .walker => s.delGrp place
      | .reel => (match s.lastOf place g with
        | some k => s.retireLast place g k
        | none => (s.delGrp place).releaseQueues (placeCore place))
      | .ordinary => match s.gang g.gangKey with
        | none => s.leavePlace place g
        | some k =>
          if g.st == .killed then (if s.gangLanded g.gangKey k then s.freeGang g.gangKey k else s)
          else if k.places != [place] then s.leavePlace place g
          else if !s.gangAway g.gangKey then s.exitGang place g k
          else if (s.lastOf place g).isSome then s.retireLast place g k
          else s.leavePlace place g)

end Sys2Proof.Machine
end

