-- ==== Sys2Proof/Machine/Queue.lean ====
section
/-!
DEFINITION. Hardware queues, task records and the placer (R39, R40, R47 to R56, R62 to R68, R158, R247 to R249, R452;
notes/assumptions/21.md).
-/
namespace Sys2Proof.Machine

/-! ## Port accesses (R247 to R250) -/

/-- Ports 0 and 1 are the ports' physical functions; number 2 + 32 p + v is virtual function v of port p. -/
def portOf (port : Nat) : Nat := if port < 2 then port else (port - 2) / 32

/-- Does a port take transactions: its link is up and its die runs its firmware (R247, R255)? -/
def State.portOpen (s : State) (port : Nat) : Bool := portOf port < 2 && s.hostUp.getD (portOf port) false && (s.die (portOf port)).up

/-- Does the function behind a port number show the doorbell of a queue (R247, R250)? -/
def State.showsDoorbell (s : State) (port q : Nat) : Bool :=
  if port < 2 then true
  else
    let w := (s.vfs.getD (port - 2) 0).toNat
    (port - 2) % 32 < s.vfCount.getD (portOf port) 0 && bit w 31 && bits w 0 10 == (s.queue q).ctx

def execDoorbellWrite (port q size : Nat) (val : DWord) (s : State) : Out :=
  .next (if s.portOpen port && q < 64 && size == 8 && s.showsDoorbell port q then
      s.ringDoorbell q val 0xFF (portOf port) 0 else s)

/-- A write of 1 to 8 bytes through a physical function. -/
def execRegisterWrite (port off size : Nat) (val : DWord) (s : State) : Out :=
  .next (if s.portOpen port && port < 2 && off < 65536 then s.windowStore port off size val else s)

/-- Writing 1 to `frozen`, and every other field as it stands (R68). -/
def execQueueUnfreeze (q : Nat) (s : State) : Out :=
  .next (if q < 64 then s.setQueue q { s.queue q with frozen := false } else s)

/-! ## Taking records (R50 to R52) -/

def waitOn (s : State) (r : Req) (ctx : Nat) (w : Option (Nat × Nat)) : State := match w with
  | some (d, n) => s.await r d ctx (some n)
  | none => s

/-- What the read of a counter by the queue or the scheduler says: its value and the time of its latest write; `token` with bit 63 set. -/
inductive CtrRead where
  | bad
  | token (v w : Nat)
  | value (v w : Nat)
  | none

/-- Reading a counter in a context; a page that is not counter-capable, a reserved owner and an address that is no
counter's are bad (R52, R53, R452). Data that does not arrive says nothing. -/
def readCounter (s : State) (ctx va : Nat) : Ans CtrRead :=
  if va % 8 != 0 || s.owner va = .bad then .ok s .bad
  else match readAtHome s ctx va with
    | .ok s none => .ok s .bad
    | .ok s (some (v, w)) => .ok s (if bit v 63 then .token v w else .value v w)
    | .poisoned s | .far s => .ok s .none
    | .wait s w => .wait s w
    | .fault s d => .fault s d

/-- The queue freezes for its submit counter, and no record fails (R52). -/
def State.freezeQueue (s : State) (q : Nat) (cause : Byte) : State :=
  s.setQueue q { s.queue q with frozen := true, fcause := cause, fseq := (s.queue q).taken }

/-- The queue runs once `taken` has its value (R50). -/
def QDesc.enable (x : QDesc) (taken : DWord) : QDesc := { x with enabling := false, taken := taken }

def execQueueEnable (q : Nat) (s : State) : Out :=
  .next (
    let x := s.queue q
    if !x.enabling || s.waiting (.submit q) then s
    else match readCounter s x.ctx x.subctrNow.toNat with
      | .ok s (.value v _) => s.setQueue q (x.enable (bv 64 (bits v 0 63)))
      | .ok s (.token v _) => (s.setQueue q (x.enable (bv 64 (bits v 0 63)))).freezeQueue q 0x09
      | .ok s .bad => (s.setQueue q (x.enable x.taken)).freezeQueue q 0x08
      | .ok s .none => s
      | .wait s w => waitOn s (.submit q) x.ctx w
      | .fault s d => s.await (.submit q) d x.ctx none
      | .poisoned s | .far s => s)

/-- The address of record n. -/
def QDesc.recAddr (x : QDesc) (n : Nat) : Nat := (x.base + 128 * (n % 2 ^ x.size)) % 2 ^ 64


/-- The queue's taken records whose `st` is below 4. -/
def State.openTasks (s : State) (q : Nat) : Nat := (s.tasks.filter (fun x => x.1 % 64 == q && x.2.st < 4)).length

/-- A record as it is taken. -/
def takenTask (x : QDesc) (data : Line) (t : Nat) : Task where
  data := data
  addr := bv 64 (x.recAddr x.taken.toNat)
  ctx := x.ctx
  st := 1
  fcause := 0
  relaunches := 0
  placed := []
  exited := []
  failing := false
  t := t
  tw := 0
  owes := false

/-- The number of the record that a queue takes next. The numbers under one enabling of the queue are its own: a queue enabled
afresh leaves the open records of before as they are (R50, R52). -/
def QDesc.nextRecord (x : QDesc) : Nat := x.epoch * 2 ^ 64 + x.taken.toNat

/-- A record that cannot run: not valid, or kept from die 0 where only die 0 runs (R48, R254). -/
def State.badRecord (s : State) (x : Line) : Bool := !recValid x || (!s.status.full && !bit (recDies x) 0)

/-- The record comes into the scheduler (R52). One whose line cannot be read is none that is valid. -/
def takeInto (s : State) (q : Nat) (x : QDesc) (w : Nat) : Ans Unit :=
  let n := x.nextRecord
  let got : Ans (Line × Nat) := match unitRead s x.ctx (x.recAddr x.taken.toNat) .load with
    | .ok s y => .ok s (y.1.data, y.2)
    | .poisoned s | .far s => .ok s (0, 0)
    | .wait s w => .wait s w
    | .fault s d => .fault s d
  got.andThen fun s y =>
    let t := takenTask x y.1 (max w y.2)
    (carryOn t (writeRecord s t 1)).andThen fun s w =>
      let s := (s.setTask q n (t.noted w)).setQueue q { s.queue q with taken := x.taken + 1 }
      .ok (if s.badRecord y.1 then s.failLaunch q n 0x01
        else if (recInputs y.1).isEmpty then s.first [.taskReady q n] else s) ()

/-- Taking a queue's next record. A queue with 64 open records does not read its submit counter (notes/assumptions/21.md, DESIGN
CHOICE). -/
def execTakeRecord (q : Nat) (s : State) : Out :=
  .next (
    let x := s.queue q
    if !x.en || x.enabling || x.frozen || s.waiting (.submit q) || 64 ≤ s.openTasks q then s
    else
      let a : Ans Unit := (readCounter s x.ctx x.subctrNow.toNat).andThen fun s y => match y with
        | .bad => .ok (s.freezeQueue q 0x08) ()
        | .token .. => .ok (s.freezeQueue q 0x09) ()
        | .none => .ok s ()
        | .value v w => if v ≤ x.taken.toNat then .ok s () else takeInto s q x w
      match a with
      | .ok s _ => s
      | .wait s w => waitOn s (.submit q) x.ctx w
      | .fault s d => s.await (.submit q) d x.ctx none
      | .poisoned s | .far s => s)

/-! ## Readiness and cancellation (R53, R56, R67) -/

/-- What the input counters of a pending task say together. -/
inductive Watch where
  | bad
  | token
  | unmet
  | met (w : Nat)

/-- An input that the spec fails the task for comes before one that holds the error token (notes/assumptions/21.md, DESIGN CHOICE:
R53 does not say which of the two decides). -/
def watchInputs (ctx : Nat) : List (Nat × Nat) → Watch → State → Ans Watch
  | [], r, s => .ok s r
  | (a, target) :: xs, r, s => (readCounter s ctx a).andThen fun s y =>
      watchInputs ctx xs (match r, y with
        | .bad, _ | _, .bad => .bad
        | .token, _ | _, .token .. => .token
        | .unmet, _ | _, .none => .unmet
        | .met w, .value v w' => if target ≤ v then .met (max w w') else .unmet) s

/-- The dies of this module that a task allows and that run. -/
def State.diesOf (s : State) (t : Task) : List Nat := (taskDies t).filter (fun d => s.serves d && (s.die d).up)

/-- A persistent launch holds a reservation on every die it allows (R56). -/
def State.reserveAll (s : State) (q n : Nat) (t : Task) : State :=
  (taskDies t).foldl (fun s d => s.modDie d (fun x => { x with resv := x.resv ++ [(q, n)] })) s

/-- A task that waits for its inputs. -/
def State.pendingTask (s : State) (q n : Nat) : Option Task := match s.task q n with
  | some t => if t.st = 1 && !t.failing && !s.waiting (.watch q n) then some t else none
  | none => none

/-- The answer to a unit that watches or writes for a task. -/
def taskAnswer (q n ctx : Nat) (a : Ans Unit) : State := match a with
  | .ok s _ | .poisoned s | .far s => s
  | .wait s w => waitOn s (.watch q n) ctx w
  | .fault s d => s.await (.watch q n) d ctx none

def execTaskReady (q seq : Nat) (s : State) : Out :=
  .next (match s.pendingTask q seq with
  | none => s
  | some t => taskAnswer q seq t.ctx ((watchInputs t.ctx (recInputs t.data) (.met t.t) s).andThen fun s y => match y with
      | .bad => .ok (s.failLaunch q seq 0x08) ()
      | .token => .ok (s.first [.taskCancel q seq]) ()
      | .unmet => .ok s ()
      | .met w =>
        let t := { t with t := max t.t w }
        if recPers t.data && !s.couldHold q seq t then .ok (s.failLaunch q seq 0x02) ()
        else (carryOn t (writeRecord s t 2)).andThen fun s w =>
          let s := s.setTask q seq { t.noted w with st := 2 }
          .ok (if recPers t.data then s.reserveAll q seq t else s) ()))

/-- The end of a task: its state is written, then the add to `out` is sent, which releases that write too (R63, R67, R170). -/
def closeTask (s : State) (q n : Nat) (t : Task) (st : Nat) (amount : DWord) : Ans Unit :=
  (carryOn t (writeRecord s t st)).andThen fun s w =>
    let s := { s with tasks := s.tasks.del (taskKey q n) }
    .ok (if recOut t.data = 0 then s else s.sendAdd t.ctx (bv 64 (recOut t.data)) amount 0 (t.noted w).outTime none) ()

/-- A pending task one of whose counters holds the error token is over. The add of its end releases nothing that its watch has
acquired (notes/assumptions/21.md, DESIGN CHOICE: R158 has a task acquire as its placement starts). -/
def execTaskCancel (q seq : Nat) (s : State) : Out :=
  .next (match s.pendingTask q seq with
  | none => s
  | some t => taskAnswer q seq t.ctx ((watchInputs t.ctx (recInputs t.data) (.met t.t) s).andThen fun s y => match y with
      | .token => closeTask s q seq t 5 tokenAmount
      | _ => .ok s ()))

/-! ## The placer (R54 to R56, R68) -/

/-- The tasks a die's placer considers: ready, allowed there, with a span to place; of a frozen queue only those that have
placed one, relaunched since or not (R68). -/
def State.placeable (s : State) (d : Nat) : List (Nat × Nat × Task) :=
  (s.tasks.filter (fun x => (x.2.st == 2 || x.2.st == 3) && !x.2.failing && bit (recDies x.2.data) d
    && (s.nextSpan (x.1 % 64) (x.1 / 64) x.2).isSome && (!(s.queue (x.1 % 64)).frozen || x.2.st == 3)
    && !s.waiting (.watch (x.1 % 64) (x.1 / 64)))).map (fun x => (x.1 % 64, x.1 / 64, x.2))

/-- Rule order of R54: priority, queues in turn, the earliest task. -/
def placedBefore (rr : Nat) (x y : Nat × Nat × Task) : Bool :=
  let k (z : Nat × Nat × Task) : Nat := (z.1 + 64 - rr) % 64
  recPrio y.2.2.data < recPrio x.2.2.data
    || (recPrio x.2.2.data == recPrio y.2.2.data && (k x < k y || (x.1 == y.1 && x.2.1 < y.2.1)))

def insertTask (rr : Nat) (x : Nat × Nat × Task) : List (Nat × Nat × Task) → List (Nat × Nat × Task)
  | [] => [x]
  | y :: r => if placedBefore rr x y then x :: y :: r else y :: insertTask rr x r

/-- Is a launch held back by reservations? Any of equal or higher priority holds back a launch without one; of two launches
with reservations of one priority, the earlier goes first (notes/assumptions/21.md). -/
def State.heldBack (s : State) (d q n : Nat) (t : Task) : Bool :=
  let prio (x : Nat × Nat) : Nat := match s.task x.1 x.2 with
    | some u => recPrio u.data
    | none => 0
  let rs := (s.die d).resv
  (rs.takeWhile (fun x => x != (q, n))).any (fun x => recPrio t.data ≤ prio x)
  || rs.any (fun x => x != (q, n) && recPrio t.data < prio x)

/-- A persistent launch is placed on every die it allows at once, so it is held back by the reservations of each. -/
def State.heldAnywhere (s : State) (d q n : Nat) (t : Task) : Bool :=
  (if recPers t.data && t.st == 2 then s.diesOf t else [d]).any (fun e => s.heldBack e q n t)

/-- Placing the next of a task: a span on the die, or every span of a persistent launch. -/
def placeNext (s : State) (d q n : Nat) (t : Task) (hint : List (List Nat)) : Option State :=
  match s.nextSpan q n t with
  | none => none
  | some k =>
    if recPers t.data && t.st == 2 then placeAll q n (s.diesOf t) (liveSpans t.data) s
    else placeSpan s q n t k d hint false

/-- Proposed places that will not do leave the choice to the placer. -/
def fitHint (s : State) (d q n : Nat) (t : Task) (hint : List (List Nat)) : List (List Nat) :=
  if (placeNext s d q n t hint).isSome then hint else []

/-- One placement: the record reads 3 from its first span on, and the relaunches it has had; a placed span gives its reservation
up. -/
def placeTask (s : State) (d q n : Nat) (t : Task) (hint : List (List Nat)) : Ans Unit :=
  (if t.st = 2 || t.owes then carryOn t (writeRecord s t 3) else .ok s 0).andThen fun s w =>
    match placeNext (s.setTask q n (t.noted w)) d q n (t.noted w) hint with
    | none => .ok s ()
    | some s' =>
      let free (x : Die) : Die := { x with resv := x.resv.filter (· != (q, n)) }
      .ok ({ s' with die0 := free s'.die0, die1 := free s'.die1 }.modDie d (fun x => { x with placerRR := (q + 1) % 64 })) ()

/-- `PLACEMENT_TURN`: the first task in the order of R54 whose span fits somewhere; the others are passed over. -/
def execPlacementTurn (die : Nat) (places : List (List Nat)) (s : State) : Out :=
  .next (
    if !(s.serves die && (s.die die).up) then s
    else
      let xs := ((s.placeable die).foldr (insertTask (s.die die).placerRR) []).filter (fun x => !s.heldAnywhere die x.1 x.2.1 x.2.2)
      match xs.find? (fun x => (placeNext s die x.1 x.2.1 x.2.2 (fitHint s die x.1 x.2.1 x.2.2 places)).isSome) with
      | none => s
      | some (q, n, t) => taskAnswer q n t.ctx (placeTask s die q n t (fitHint s die q n t places)))

/-- `SPAN_RESERVATION`: a span that was passed over for 1 ms. -/
def execSpanReservation (die q seq : Nat) (s : State) : Out :=
  .next (match (s.placeable die).find? (fun x => x.1 == q && x.2.1 == seq) with
  | none => s
  | some (_, _, t) =>
    if (s.die die).resv.contains (q, seq) || (!s.heldAnywhere die q seq t && (placeNext s die q seq t []).isSome) then s
    else s.modDie die (fun x => { x with resv := x.resv ++ [(q, seq)] }))

/-! ## The end of a launch (R62 to R67) -/

/-- Engine work of a launch, requests in kick registers included. -/
def State.engWork (s : State) (q n : Nat) : Bool := s.engAny (fun r => r.queue == q && r.seqNo == n)

/-- Every tracking entry of a launch is zero. -/
def State.tracksNone (s : State) (q n : Nat) : Bool :=
  !s.gangs.any (fun x => x.2.queue == q && x.2.seqNo == n) && !s.saved.any (fun x => x.queue == q && x.seqNo == n)
  && !s.groups.any (fun x => x.2.kind != .walker && x.2.queue == q && x.2.seqNo == n) && !s.engWork q n

/-- Spawned threads of a launch that wait in bins, rings or for a place. -/
def Die.spawnsOf (x : Die) (q n : Nat) : Bool :=
  x.bins.any (fun b => b.2.queue == q && b.2.seqNo == n) || x.formed.any (fun f => f.queue == q && f.seqNo == n)
  || x.rings.any (fun r => r.2.held.any (fun y => y.1 == q && y.2.1 == n))

def execLaunchComplete (q seq : Nat) (s : State) : Out :=
  .next (match s.task q seq with
  | none => s
  | some t =>
    if t.st = 3 && !t.failing && !s.waiting (.watch q seq) && liveGangs t.data ≤ t.exited.eraseDups.length
        && s.tracksNone q seq && !s.die0.spawnsOf q seq && !s.die1.spawnsOf q seq then
      taskAnswer q seq t.ctx (closeTask s q seq t 4 (bv 64 (recOinc t.data)))
    else s)

def execFailedRecordClose (q seq : Nat) (s : State) : Out :=
  .next (match s.task q seq with
  | none => s
  | some t =>
    if t.failing && !s.waiting (.watch q seq) && s.tracksNone q seq then
      taskAnswer q seq t.ctx (closeTask s q seq t 6 tokenAmount)
    else s)

/-- A failure that its event names (R65, R67). -/
def execLaunchFail (q seq : Nat) (cause : Byte) (s : State) : Out := .next (s.failLaunch q seq cause)

/-- `GANG_WATCHDOG`: the gang has been resident for its queue's time; time does not run on a halted core (R65, R197). -/
def execGangWatchdog (gang : Nat) (s : State) : Out :=
  .next (match s.gang gang with
  | none => s
  | some k =>
    if k.places.isEmpty || (s.queue k.queue).wdog = 0xFFFF || (s.core k.core).halted then s
    else s.failLaunch k.queue k.seqNo 0x04)

/-! ## Spawned groups find their places (R39, R40) -/

/-- A launch whose spawned groups may still be placed. -/
def State.launchLives (s : State) (q n : Nat) : Bool := match s.task q n with
  | some t => !t.failing
  | none => false

/-- Has a group found its place, or what stands in its way been dealt with? -/
inductive Tried where
  | did (s : State)
  | not (s : State)

/-- The oldest group in the ring of a context: placed, dropped with its launch, or left. -/
def placeFromRing (s : State) (d ctx : Nat) (want : Option Nat) : Tried :=
  let s := s.holdDesc d ctx
  let r := s.ring d ctx
  match r.held with
  | [] => .not s
  | (q, n, _) :: rest =>
    let next (s : State) : State := s.setRing d ctx { r with head := r.head + 1, held := rest }
    if !s.launchLives q n then .did (next s)
    else
      let va := s.slotVa d ctx r.head
      match readLines ctx .load ((upTo 9).map (fun k => va + 128 * k)) s [] with
      | .ok s xs => (match s.placeSpawned d (slotFormed ctx q n r.t xs) want with
        | some s' => .did (next s')
        | none => .not s)
      | .wait s _ | .fault s _ | .poisoned s | .far s => .not s

/-- The contexts' rings in turn, up to one whose oldest group goes. -/
def placeFromRings (s : State) (d : Nat) (want : Option Nat) : Tried :=
  (s.die d).rings.foldl (fun r y => match r with
    | .did s => .did s
    | .not s => placeFromRing s d y.1 want) (.not s)

/-- The first of the queued groups that fits the place; where the place was lost since, the first that fits anywhere, or else the
first of them goes to the ring. -/
def placeFromList (s : State) (d : Nat) (want : Option Nat) : Tried :=
  let fit (w : Option Nat) : Option State := (s.die d).formed.findSome? (fun f => (s.placeSpawned d f w).map (fun s' => s'.unlist d f))
  match fit want, fit none with
  | some s', _ | none, some s' => .did s'
  | none, none => match (s.die d).formed with
    | [] => .not s
    | f :: _ => match s.spillTurn d f with
      | .ok s => .did (s.unlist d f)
      | .full s | .wait s _ => .not s


/-- Held groups leave their bins for the ring where it has a slot again (R40). -/
def State.retryBins (s : State) (d : Nat) : State :=
  ((s.die d).heldBins).foldl (fun s b => match (s.die d).bins.find b.1 with
    | some y => s.spillOrHold d b.1 y
    | none => s) s

/-- `SPAWNED_GROUP_PLACE`: a group that was queued for its place takes it; else one of the overflow rings goes. A place off the die
leaves the choice to the placer. -/
def execSpawnedGroupPlace (die place : Nat) (s : State) : Out :=
  .next (
    if !(s.serves die && (s.die die).up) then s
    else
      let want := if placeDie place = die then some place else none
      let t := match placeFromList s die want with
        | .did s => s
        | .not s => (match placeFromRings s die want with
          | .did s | .not s => s)
      t.retryBins die)

end Sys2Proof.Machine
end

