-- ==== Sys2Proof/Machine/Coherence.lean ====
section
/-!
DEFINITION. The coherence table's rows as events of their own, counter adds and pushes on their way, directory recovery,
power gating (R133, R135, R139, R143 to R152, R168, R189, R452).
-/
namespace Sys2Proof.Machine


/-! ## Rows 1, 3 and 4 -/

/-- Row 1: a share request of a core that holds nothing. A gated core asks for nothing (R152). -/
def execShareRequest (core ctx va : Nat) (s : State) : Out :=
  .next (if (s.copyOf core ctx va).isSome || s.owner va = .bad || (s.core core).gated then s
    else (shareLine s core ctx va .load 1 none true).state)

/-- Row 3: the renewal of a copy whose lease has ended. -/
def execRenewRequest (core ctx va : Nat) (s : State) : Out :=
  .next (match s.copyOf core ctx va with
  | some y =>
    if (y.st == .s || y.st == .sc) && y.r < max (s.core core).t y.w && s.owner va != .bad && !(s.core core).gated then
      (shareLine s core ctx va .load 1 (some y) true).state
    else s
  | none => s)

/-- Row 4: ownership of a line of a coherent page; the store that waits for it writes afterwards. -/
def execOwnershipRequest (core ctx va : Nat) (s : State) : Out :=
  let held := match s.copyOf core ctx va with
    | some y => y.st == .o || y.st == .managed
    | none => false
  .next (if held || s.owner va = .bad || (s.core core).gated then s
  else ((atHome s ctx va .store).andThen fun s y => match y.2 with
    | .line h => if h.perm.managed || h.perm.ctr then .ok s () else storeLine s core ctx va 0 0 none false true
    | .absent _ => .ok s ()).state)

/-! ## Recalls and evictions (rows 7 to 10, R145) -/

def State.homeAt (s : State) (d ctx va : Nat) : Option HomeLine := (s.die d).l2.find (lineKey ctx va)

/-- A recall of an owner that R145 does not hold back; a line in recovery is recalled by that. -/
def recallEvent (own : Bool) (die ctx va : Nat) (s : State) : State := match s.homeAt die ctx va with
  | some h => (match h.owner with
    | some c => if h.hold || h.unknown then s else (s.recallLine die ctx va h c own).1
    | none => s)
  | none => s

def execRecallForRead (die ctx va : Nat) (s : State) : Out := .next (recallEvent false die ctx va s)
def execRecallForOwnership (die ctx va : Nat) (s : State) : Out := .next (recallEvent true die ctx va s)

/-- A core evicts a line of its L1; a bound line stays. -/
def execLineEviction (core ctx va : Nat) (s : State) : Out :=
  .next (if (s.boundOff core ctx va).isSome then s else (recallCopy s core ctx va).state)

/-- 256 beats after a grant the home may recall (R145). -/
def execOwnershipHoldExpiry (die ctx va : Nat) (s : State) : Out :=
  .next (match s.homeAt die ctx va with
  | some h => s.setHome die ctx va { h with hold := false }
  | none => s)

/-- An L2 line leaves for memory; an owned one is recalled first (R143), which waits out the 256 beats of its grant (R145). -/
def execL2EvictToMemory (die ctx va : Nat) (s : State) : Out :=
  .next (match s.homeAt die ctx va with
  | some h =>
    if h.unknown then s
    else if h.owner.isSome && h.hold then s.first [.ownershipHoldExpiry die ctx va, .l2EvictToMemory die ctx va]
    else
      let (s, h) := match h.owner with
        | some c => s.recallLine die ctx va h c true
        | none => (s, h)
      s.homeOut die ctx va h
  | none => s)

/-- One tick every 8 beats; a gated core keeps its time (R139, R152). -/
def execTimeSelfAdvance (core : Nat) (s : State) : Out :=
  .next (if (s.core core).gated then s else s.raiseT core ((s.core core).t + 1))

/-! ## Counter adds on their way (row 12, R133, R189, R452) -/

def State.dropAdd (s : State) (id : Nat) : State := { s with adds := s.adds.filter (fun a => a.id != id) }
def State.ctrDropped (s : State) (d : Nat) : State := s.cnt d (fun c => { c with ctrdrop := sat64 (c.ctrdrop + 1) })


/-- A fault record and its add: the record goes where the counter's value says (R189). -/
def faultAdd (s : State) (a : Add) (ctx : Nat) (x : BitVec 256) : Ans Unit :=
  let d := a.die
  let s := (s.holdDesc d ctx).notePoison d (s.descAddr d ctx + 16) 8
  let desc := s.desc d ctx
  let full (s : State) : State := s.putDescBits d ctx 262 1 1
  if a.va.toNat % 8 != 0 || s.owner a.va.toNat = .bad then .ok (s.ctrDropped d) ()
  else (readAtHome s 0 a.va.toNat).andThen fun s y => match y with
    | none => .ok (s.ctrDropped d) ()
    | some (v, _) =>
      let n := bits v 0 63
      let tail := s.phys d (s.descAddr d ctx + 16) 8
      let at_ := desc.fbuf + 32 * (n % 2 ^ desc.flsize)
      if tail + 2 ^ desc.flsize ≤ n || physAt at_ != .mem then .ok (full s) ()
      else (addAtHome s 0 a.va.toNat 1 a.t none).andThen fun s _ =>
        let y := x.toNat - bits x.toNat 112 16 * 2 ^ 112 + (s.gen d ctx).toNat * 2 ^ 112
        .ok (s.setPhys d at_ 32 y) ()

/-- A log entry and its add, in the ring and of the size that the core read at its `RLOG` (R132, R133, R378); an entry that no link
carries is dropped and counted, and the add goes on (R253). -/
def logAdd (s : State) (a : Add) (core start len ring n : Nat) : Ans Unit :=
  let va := a.va.toNat
  let off := va % 128
  (homeWriteLine s a.ctx va .atomic a.t none false (fun h => (none, (h.perm.ctr, h.data)))).andThen fun s y =>
    if !y.out.1 then .ok (s.ctrDropped a.die) ()
    else
      let b := y.out.2
      let head := lineGet b off 8
      if n < 4 || 20 < n || ring % 16 != 0 || lineGet b (off + 8) 8 + 2 ^ n ≤ bits head 0 63 then
        (homeWriteLine s a.ctx va .atomic a.t none false (fun h => (some (blockOvf h.data off), ()))).andThen fun s _ => .ok s ()
      else
        let e := start + len * 2 ^ 64 + core * 2 ^ 96 + head % 2 ^ 16 * 2 ^ 112
        let at0 := (ring + 16 * (bits head 0 63 % 2 ^ n)) % 2 ^ 64
        ((homeWriteLine s a.ctx at0 .store a.t none false (fun h => (some (linePut h.data (at0 % 128) 16 e), ()))).lost a.die at0
          { out := (), w := a.t }).andThen fun s w =>
          (addAtHome s a.ctx va 1 (max a.t w.w) none).andThen fun s _ => .ok s ()

/-- Does an add wait for another that set out before it: one to the same counter keeps its place (R143), and a doorbell is a
release of every write its port sent before (R249). -/
def Add.follows (a b : Add) : Bool := (b.ctx == a.ctx && b.va == a.va) || (a.port.isSome && b.port == a.port)

/-- A pending add at its home. -/
def performAdd (s : State) (a : Add) : State :=
  let r : Ans Unit := match a.pre with
    | .plain => (unitAdd s a.ctx a.va.toNat a.amount.toNat a.t a.die).andThen fun s _ => .ok s ()
    | .fault ctx x => faultAdd s a ctx x
    | .log core start len ring n => logAdd s a core start len ring n
  match r with
  | .ok s _ => s.dropAdd a.id
  | .wait s w => waitOn s (.add a.id) a.ctx w
  | .fault s' d => match a.pre with
    -- a fault met by a fault-counter add is not recorded (R452)
    | .fault _ _ => (s.dropAdd a.id).ctrDropped a.die
    | _ => s'.await (.add a.id) d a.ctx none
  | .poisoned s => (s.dropAdd a.id).ctrDropped a.die
  | .far s => (s.dropAdd a.id).dropFar a.die a.va.toNat

def execHomeWrite (n : Nat) (s : State) : Out :=
  .next (match s.adds[n]? with
  | none => s
  | some a =>
    if s.waiting (.add a.id) || (s.adds.take n).any a.follows then s else performAdd s a)

/-! ## Pushes (R135, R146) -/

/-- A push arrives, after those of its line that were sent to the core before it (R143). The receiver finds room for it. -/
def execInjectedPush (n : Nat) (s : State) : Out :=
  .next (match s.pushes[n]? with
  | none => s
  | some x =>
    if (s.pushes.take n).any (fun y => y.isTo x.core x.ctx x.va) then s
    else match l1Room s x.core x.ctx x.va x.sect with
      | .ok s _ => { s with pushes := dropAt s.pushes n }.receive x
      | a => a.state)

/-! ## Counter waits without an entry (R168) -/

/-- Has a place a waiter entry in some slice (R168)? -/
def State.hasWaiter (s : State) (p : Nat) : Bool :=
  let f (x : Die) : Bool := x.slices.any (fun y => y.2.waiters.any (fun w => w.place == p))
  f s.die0 || f s.die1 || s.remote.any (fun y => f y.2)

/-- A `CWAIT` for which its slice had no entry re-reads its counter (R168); one with an entry is woken by its home alone (R253). -/
def execCwaitPoll (place : Nat) (s : State) : Out :=
  .next (match s.grp place with
  | none => s
  | some g => match g.cpark with
    | none => s
    | some k =>
      if s.waiting (.cwait place) || s.hasWaiter place then s
      else
        let trap (s : State) (c : Cause) : State := s.takeTrap place { cause := c, info := k.addr, pc := g.pc }
        match readAtHome s g.ctx k.addr.toNat with
        | .ok s none => trap s .counterPage
        | .ok s (some (v, w)) =>
          if counterMet v k.target.toNat then
            ((s.dropWaiter place).modGrp place (fun g => g.wake v)).raiseT (placeCore place) w
          else s
        | .poisoned s | .far s => trap s .poisoned
        | .wait s w => waitOn s (.cwait place) g.ctx w
        | .fault s d => s.faultCwait place d g.ctx)

/-! ## Directory recovery (R150) -/

def execDirectoryRecovery (die ctx va : Nat) (s : State) : Out :=
  .next (match s.homeAt die ctx va with
  | some h =>
    if h.unknown then s
    else (s.setHome die ctx va { h with unknown := true, owner := none, hold := false }).cnt die
      (fun c => { c with dirrecov := sat64 (c.dirrecov + 1) })
  | none => s)

/-- Every core drops its copy of a line; the first owned one comes back, and `htop` takes the lease end of each. -/
def recallEverywhere (die ctx va : Nat) : List Nat → Option (Line × Nat × Bool) → State → State × Option (Line × Nat × Bool)
  | [], r, s => (s, r)
  | c :: cs, r, s =>
    let (s, x) := (s.deliver c ctx va).giveBack c ctx va true
    let s := match s.copyOf c ctx va with
      | some y => if y.st = .managed then s else s.modCore c (fun z => z.dropCopy (lineKey ctx va))
      | none => s
    let s := match x with
      | some (_, _, e, _) => s.raiseTop die va e
      | none => s
    recallEverywhere die ctx va cs (match r, x with
      | none, some (l, w, _, bad) => some (l, w, bad)
      | r, _ => r) s

/-- The cores that may hold or be owed anything. -/
def State.coresInUse (s : State) : List Nat := (s.cores.map (·.1) ++ s.groups.map (fun g => placeCore g.1) ++ s.pushes.map (·.core)).eraseDups

/-- Memory is read for a line: what comes back poisoned, and the sectors a compressed image leaves unmoved, are counted (R251). -/
def State.countRead (s : State) (d : Nat) (h : HomeLine) : State :=
  let x := s.die d
  let k := x.sectors h.frame
  s.cnt d (fun c => { c with
    memPoison := if x.poison.getD (frameKey h.host h.frame) 0 != 0 then sat64 (c.memPoison + 1) else c.memPoison
    cmpSect := if h.perm.cmp && k < 4 then sat64 (c.cmpSect + (4 - k)) else c.cmpSect })

/-- The recovery ends: the copy that was written back first, else memory's data marked poisoned with W := `htop`, as an expanded
line (R150; notes/assumptions/40.md, DESIGN CHOICE). -/
def execDirectoryRecoveryDone (die ctx va : Nat) (s : State) : Out :=
  .next (match s.homeAt die ctx va with
  | none => s
  | some h =>
    if !h.unknown then s
    else
      let back : Option (Line × Nat × Bool) := h.owner.map (fun _ => (h.data, h.w, h.poison))
      let (s, r) := recallEverywhere die ctx va s.coresInUse back s
      let top := (s.slice die (homeSlice va)).htop
      let (data, w, bad) := match r with
        | some x => x
        | none => ((s.die die).lineAt h.host h.perm.cmp h.frame, top, true)
      let s := if r.isSome then s else s.countRead die h
      (s.setHome die ctx va { h with
        data := data, w := w, h := top + 4096, cls := 0, z := false, owner := none, unknown := false, hold := false
        poison := bad, dirty := true }).raiseTop die va (top + 4096))

/-! ## Power gating (R152) -/

/-- Is a directory recall open, which every agent has to answer? -/
def State.recovering (s : State) : Bool :=
  s.die0.l2.any (·.2.unknown) || s.die1.l2.any (·.2.unknown) || s.remote.any (fun x => x.2.l2.any (·.2.unknown))

/-- Gating waits until the recalls that the agent has open are answered. -/
def execCorePowerGate (core : Nat) (s : State) : Out :=
  .next (
    if (s.core core).gated || s.recovering || s.groups.any (fun g => placeCore g.1 == core) then s
    else match recallCopies ((s.core core).l1.map (fun y => (core, y.1))) s with
      | .ok s _ => s.modCore core (fun c => { c with gated := true, l1 := [], icache := [] })
      | a => a.state)

/-- A core comes back with every copy in I, and the logical time it had. -/
def execCoreUngate (core : Nat) (s : State) : Out :=
  .next (if (s.core core).gated then s.modCore core (fun c => { c with gated := false, l1 := [] }) else s)

end Sys2Proof.Machine
end

