-- ==== Sys2Proof/Machine/Cross.lean ====
section
/-!
DEFINITION. The cross-lane and quad instructions (R306, R307, R326, R357 to R359, R375, R376, R380, R402).
-/
namespace Sys2Proof.Machine

/-- `SHFL`'s source lane by mode (R380). -/
def shflLane (mode i n : Nat) : Nat := match mode with
  | 0 => n % 32
  | 1 => ((i : Int) - n % 32 + 32).toNat % 32
  | 2 => (i + n) % 32
  | _ => (i ^^^ n) % 32

def execShfl (h : Hdr) (r : RForm) (s : State) : Out :=
  crossWord (.shfl h r) h s r.d r.ty.is64 [src r.a r.ty.is64 r.ma, src r.b false r.mb]
    (fun _ v i => plain (s0 (v (shflLane r.sub.toNat i (s1 (v i))))))

/-- `QSWAP`'s member of the quad by mode (R375). -/
def qswapMember (mode k : Nat) : Nat := match mode with
  | 0 => k ^^^ 1
  | 1 => k ^^^ 2
  | 2 => k ^^^ 3
  | m => m - 3

def execQswap (h : Hdr) (r : RForm) (s : State) : Out :=
  crossWord (.qswap h r) h s r.d r.ty.is64 [src r.a r.ty.is64 r.ma]
    (fun _ v i => plain (s0 (v (i / 4 * 4 + qswapMember r.sub.toNat (i % 4)))))

/-- `QDIFF`'s two members by direction (R375). -/
def qdiffMembers (dir k : Nat) : Nat × Nat := match dir with
  | 0 => (k ||| 1, k &&& 2)
  | 1 => (k ||| 2, k &&& 1)
  | 2 => (1, 0)
  | _ => (2, 0)

def execQdiff (h : Hdr) (r : RForm) (s : State) : Out :=
  crossWord (.qdiff h r) h s r.d false [src r.a false r.ma]
    (fun rm v i =>
      let (a, b) := qdiffMembers r.sub.toNat (i % 4)
      floatElems { r with sub := 0 } 0 (fun k =>
        fSub (Fmt.ofTy r.ty) rm (elemOf r.ty (s0 (v (i / 4 * 4 + a))) k) (elemOf r.ty (s0 (v (i / 4 * 4 + b))) k)))

/-- The participants of a cross-lane form: threads of E that are not helpers (R357). -/
def parts (g : Group) (e : Mask) : Mask := e &&& ~~~g.help

/-- A result written once to an s register, or to every thread of E; nothing with E empty (R42). -/
def spread (d : Opd) (w64 : Bool) (e : Mask) (f : Nat → Nat) : List Wr :=
  if e = 0 then []
  else match d with
    | .s _ => dstWr 0 d w64 (f 0)
    | _ => ((maskLanes e).map (fun i => dstWr i d w64 (f i))).flatten

def execBallot (h : Hdr) (d : Opd) (pa : BitVec 3) (s : State) : Out :=
  longWord (.ballot h d pa) h (opdRegs d 1) s (fun x e =>
    (spread d false e (fun _ => (parts x.g e &&& x.g.getP pa.toNat).toNat), 0))

/-- The counts of `MPOPC` by mode (R359). -/
def mpopcCount (mode : Nat) (m : Mask) (i : Nat) : Nat :=
  ((maskLanes m).filter (fun j => match mode with
    | 0 => decide (j < i)
    | 1 => decide (j ≤ i)
    | _ => true)).length

def execMpopc (h : Hdr) (mode : BitVec 3) (d : Opd) (pa : BitVec 3) (s : State) : Out :=
  longWord (.mpopc h mode d pa) h (opdRegs d 1) s (fun x e =>
    (spread d false e (mpopcCount mode.toNat (parts x.g e &&& x.g.getP pa.toNat)), 0))

/-- The truth value of `VOTE` (R402). -/
def voteValue (mode : Nat) (m p : Mask) : Bool := match mode with
  | 0 => m &&& ~~~p == 0
  | 1 => m &&& p != 0
  | _ => m &&& ~~~p == 0 || m &&& p == 0

/-- A predicate as each thread of E gets it: a write of its own, since each holds its own (R6, R267, R268). -/
def predWrs (n : Nat) (e v : Mask) : List Wr := (maskLanes e).map (fun i => .p n (1#32 <<< i) v)

def execVote (h : Hdr) (mode pd pa : BitVec 3) (s : State) : Out :=
  longWord (.vote h mode pd pa) h [] s (fun x e =>
    (predWrs pd.toNat e (if voteValue mode.toNat (parts x.g e) (x.g.getP pa.toNat) then ~~~0 else 0), 0))

def execElect (h : Hdr) (pd : BitVec 3) (s : State) : Out :=
  longWord (.elect h pd) h [] s (fun x e =>
    (predWrs pd.toNat e (match maskLanes (parts x.g e) with
      | i :: _ => 1#32 <<< i
      | [] => 0), 0))

def execMatchEq (h : Hdr) (r : RForm) (s : State) : Out :=
  longWord (.matchEq h r) h (opdRegs r.d 1 ++ (src r.a r.ty.is64 r.ma).regs) s (fun x e =>
    let v (i : Nat) : Nat := x.g.read [] i (src r.a r.ty.is64 r.ma)
    (spread r.d false e (fun i => (maskOf (fun j => (parts x.g e).getLsbD j && v j == v i)).toNat), 0))

/-! ## Reductions and scans (R358) -/

/-- One step's operation on two present values. -/
def redStep (t : Ty) (op : Nat) (rm : Rm) (a b : Nat) : Elem :=
  let isF := t == .f32 || t == .f16 || t == .bf16
  match op with
  | 0 => if isF then fAdd (Fmt.ofTy t) rm a b else ((a + b) % 2 ^ tyWidth t, 0)
  | 1 => if isF then fMinMax (Fmt.ofTy t) false a b else (wrap (tyWidth t) (min (intOf t a) (intOf t b)), 0)
  | 2 => if isF then fMinMax (Fmt.ofTy t) true a b else (wrap (tyWidth t) (max (intOf t a) (intOf t b)), 0)
  | 3 => (a &&& b, 0)
  | 4 => (a ||| b, 0)
  | _ => (a ^^^ b, 0)

/-- The result with no participant. -/
def redEmpty (t : Ty) (op : Nat) : Nat :=
  let isF := t == .f32 || t == .f16 || t == .bf16
  match op with
  | 0 => 0
  | 1 => if isF then (Fmt.ofTy t).nan.getD 0 else wrap (tyWidth t) (tyMax t)
  | 2 => if isF then (Fmt.ofTy t).nan.getD 0 else wrap (tyWidth t) (tyMin t)
  | 3 => 2 ^ tyWidth t - 1
  | _ => 0

/-- Combining values that may be absent. -/
def redComb (t : Ty) (op : Nat) (rm : Rm) (a b : Option Nat) : Option Nat × Flags :=
  match a, b with
  | some x, some y => (some (redStep t op rm x y).1, (redStep t op rm x y).2)
  | some x, none => (some x, 0)
  | none, y => (y, 0)

/-- The lanes' values and the flags so far. -/
abbrev RedSt := List (Option Nat) × Flags

def RedSt.at (x : RedSt) (i : Nat) : Option Nat := x.1.getD i none

/-- Step k of `LRED`: lanes at multiples of 2^(k+1) take in the lane 2^k above. -/
def lredStep (t : Ty) (op : Nat) (rm : Rm) (x : RedSt) (k : Nat) : RedSt :=
  let ys := lanes.map (fun i => if i % 2 ^ (k + 1) = 0 then redComb t op rm (RedSt.at x i) (RedSt.at x (i + 2 ^ k)) else (RedSt.at x i, 0))
  (ys.map (·.1), ys.foldl (fun f y => f ||| y.2) x.2)

/-- Step k of `LSCAN`: every lane at or above 2^k takes in the lane 2^k below. -/
def lscanStep (t : Ty) (op : Nat) (rm : Rm) (x : RedSt) (k : Nat) : RedSt :=
  let ys := lanes.map (fun i => if 2 ^ k ≤ i then redComb t op rm (RedSt.at x (i - 2 ^ k)) (RedSt.at x i) else (RedSt.at x i, 0))
  (ys.map (·.1), ys.foldl (fun f y => f ||| y.2) x.2)

/-- `nv` for a participant's signalling NaN. -/
def redSig (t : Ty) (xs : List (Option Nat)) : Flags :=
  flagIf ((t == .f32 || t == .f16 || t == .bf16) && xs.any (fun x => match x with
    | some y => (unpack (Fmt.ofTy t) y).isSig
    | none => false)) fNV

/-- A run of five steps over one element of each participant's value. -/
def redRun (step : Ty → Nat → Rm → RedSt → Nat → RedSt) (t : Ty) (op : Nat) (rm : Rm) (xs : List (Option Nat)) : RedSt :=
  (upTo 5).foldl (step t op rm) (xs, redSig t xs)

/-- A NaN that no step has combined with another value leaves canonical too (R70). -/
def redCanon (t : Ty) (x : Nat) : Nat :=
  if (t == .f32 || t == .f16 || t == .bf16) && (unpack (Fmt.ofTy t) x).isNaN then (Fmt.ofTy t).nan.getD 0 else x

/-- The values of `LRED` or `LSCAN` in lane i: 16-bit types element by element. -/
def redLanes (step : Ty → Nat → Rm → RedSt → Nat → RedSt) (r : RForm) (g : Group) (e : Mask) : (Nat → Nat) × Flags :=
  let rm := Rm.of g.frm
  let m := parts g e
  let v (i : Nat) : Nat := g.read [] i (src r.a r.ty.is64 r.ma)
  let run (f : Nat → Nat) : RedSt :=
    redRun step r.ty r.sub.toNat rm (lanes.map (fun i => if m.getLsbD i then some (f (v i)) else none))
  let val (x : RedSt) (i : Nat) : Nat := redCanon r.ty ((RedSt.at x i).getD (redEmpty r.ty r.sub.toNat))
  if r.ty.is16 then
    let x := run (fun y => bits y 0 16)
    let y := run (fun y => bits y 16 16)
    (fun i => val x i + val y i * 2 ^ 16, x.2 ||| y.2)
  else
    let x := run id
    (val x, x.2)

/-- Flags are set only when something executes (R42). -/
def redWord (i : Instr) (h : Hdr) (r : RForm) (s : State) (scan : Bool) : Out :=
  longWord i h (opdRegs r.d (if r.ty.is64 then 2 else 1) ++ (src r.a r.ty.is64 r.ma).regs) s (fun x e =>
    let (f, fl) := redLanes (if scan then lscanStep else lredStep) r x.g e
    (spread r.d r.ty.is64 e (fun i => f (if scan then i else 0)), if e = 0 then 0 else fl))

def execLred (h : Hdr) (r : RForm) (s : State) : Out := redWord (.lred h r) h r s false
def execLscan (h : Hdr) (r : RForm) (s : State) : Out := redWord (.lscan h r) h r s true

end Sys2Proof.Machine
end

