-- ==== Sys2Proof/Machine/Service.lean ====
section
/-!
DEFINITION. Walkers placed, fault replies, shoot-downs by request, pre-emption and resume, the debugger's halt
(R123, R174, R181, R182, R187, R190, R191, R197, R200 to R202, R243; notes/assumptions/22.md).
-/
namespace Sys2Proof.Machine

/-! ## Walkers (R29, R181, R182) -/

/-- The records of a die that no walker holds. -/
def Die.openWalks (x : Die) : List (Nat × Walk) := x.walks.filter (fun w => w.2.walker.isNone)

/-- Those that wait for a core's walker slot. -/
def State.waitingWalks (s : State) (c : Nat) : List (Nat × Walk) :=
  (s.die (coreDie c)).openWalks.filter (fun w => w.2.core == coreIn c)

/-- Can a core take its walker slot: it runs, the place is free, and its pipe has 32 registers left? -/
def State.walkerFree (s : State) (c : Nat) : Bool :=
  s.coreUsable c && (s.grp (walkerPlace c)).isNone && s.pipeRegs (placePipeKey (walkerPlace c)) (fun _ => true) + 32 ≤ 128

/-- The words a lane gets of its record. -/
def walkWords (s : State) (d n : Nat) (w : Walk) : List Nat :=
  let tab := if w.host then (s.desc d w.ctx).hroot else (s.desc d w.ctx).root
  [w.host.toNat * 2 ^ 24 + w.acc.code * 2 ^ 21 + w.ctx * 2 ^ 11 + n, w.slice, w.va, w.va / 2 ^ 32, tab, tab / 2 ^ 32]

/-- A walker group over records, one for each lane. -/
def walkerGroup (s : State) (d : Nat) (ws : List (Nat × Walk)) : Group :=
  let live := maskOf (fun i => i < ws.length)
  let g := { Group.fresh .walker 0 (s.die d).walkentry 32 (s.seq + 1) live with help := 0 }
  ws.zipIdx.foldl (fun g x => (walkWords s d x.1.1 x.1.2).zipIdx.foldl (fun g y => g.setV y.2 x.2 (bv 32 y.1)) g) g

/-- The walker slot of a core is placed with up to W of the records that wait for it; a core that cannot take them hands them
on (R181). -/
def execWalkerSlotPlace (core : Nat) (s : State) : Out :=
  .next (
    let d := coreDie core
    let ws := (s.waitingWalks core).take Config.W
    if s.walkerLent core then (s.waitingWalks core).foldl (fun s w => s.handWalk d w.1 w.2) s
    else if ws.isEmpty || !s.walkerFree core then s
    else
      let p := walkerPlace core
      let s := ws.foldl (fun s w => s.holdDesc d w.2.ctx) s
      let g := walkerGroup s d ws
      (s.tick.setGrp p g).modDie d (fun x => { x with
        walks := ws.zipIdx.foldl (fun m y => SMap.put m y.1.1 { y.1.2 with walker := some (p, y.2) }) x.walks }))

/-! ## Replies (R44, R190) -/

/-- Is an entry one that the reply answers? -/
def Park.answered (k : Option Park) (d : Nat) (gen : Half) : Bool := match k with
  | some k => k.owner == d && k.gen == gen
  | none => false

/-- Does a group still hold a parked entry? -/
def Group.holdsParked (g : Group) : Bool :=
  g.tags.any (fun x => x.2.parked) || g.sq.any (fun e => e.parked.isSome) || g.fetchPark.isSome || (match g.tst with
    | some t => t.parked.isSome
    | none => false)

/-- The entries a reply answers are issued again for their unfinished threads; with none left parked the group goes on. -/
def Group.replay (g : Group) (d : Nat) (gen : Half) : Group :=
  let hit (k : Option Park) : Bool := Park.answered k d gen
  let g' := { g with
    tags := g.tags.map (fun x => (x.1, { x.2 with op := x.2.op.map (fun o =>
      if hit o.parked then { o with parked := none, faults := [] } else o) }))
    sq := g.sq.map (fun e => if hit e.parked then { e with parked := none } else e)
    tst := g.tst.map (fun t => if hit t.parked then { t with parked := none } else t)
    fetchPark := if hit g.fetchPark then none else g.fetchPark }
  if g'.st = .faultParked && !g'.holdsParked then
    { g' with st := if g'.tst.isSome || g'.trapWait.isSome then .waiting else .ready }
  else g'

/-- A reply: of the live generation it wakes groups on any die and the units of its die; any other is counted. -/
def execReplay (die ctx : Nat) (gen : Half) (s : State) : Out :=
  .next (
    if s.gen die ctx != gen then s.cnt die (fun c => { c with stalerep := sat64 (c.stalerep + 1) })
    else
      let s := s.raiseGen die ctx
      { s with
        groups := s.groups.map (fun x => (x.1, if x.2.ctx = ctx then x.2.replay die gen else x.2))
        waits := s.waits.filter (fun w => !(w.die == die && w.ctx == ctx && w.walk.isNone)) })

/-! ## Shoot-downs by request (R187) -/

/-- A shoot-down that the host asks for. One that waits for a managed copy's write-back stands in `downs`; the same event, made
again, goes on with it. -/
def execShootdownRequest (ctx : Nat) (va len : DWord) (rc : Bool) (s : State) : Out :=
  .next (
    if va.toNat % 65536 != 0 || len.toNat % 65536 != 0 then s
    else match s.owner va.toNat with
      | .die d | .host d =>
        let down : Down := { ctx := ctx, va := va, len := len }
        let rest := s.downs.filter (· != down)
        (match shootdown { s with downs := rest } d ctx va.toNat len.toNat rc with
        | .wait s _ => { s with downs := rest ++ [down] }
        | a => a.state)
      | .far => s.linkDropped 0
      | .bad => s)

/-! ## Pre-emption (R174, R191, R197, R200) -/

/-- The ordinary and stream groups of a context on a die. -/
def State.ctxGroups (s : State) (d ctx : Nat) : List (Nat × Group) :=
  s.groups.filter (fun x => placeDie x.1 == d && x.2.ctx == ctx && x.2.kind != .walker)

/-- Does the group wait to enter `PREEMPT`? -/
def Group.marked (g : Group) : Bool := match g.trapWait with
  | some r => r.cause == .preempt
  | none => false

/-- Marking one group: it issues no more. In trap mode, or on its way there, it is pre-empted at the `TRET` (R197). -/
def State.markGroup (s : State) (p : Nat) : State :=
  match s.grp p with
  | none => s
  | some g =>
    if g.st = .killed || g.st = .retiring || g.marked then s
    else if g.inTrap || g.trapWait.isSome then s.setGrp p { g with preempting := true }
    else (s.dropWaiter p).setGrp p { g with
      trapWait := some { cause := .preempt, info := 0, pc := g.pc }, st := .waiting, cpark := none, fetchPark := none }

/-- Steps 1 and 2: bins form their groups, and every group is marked; once for each request. -/
def State.markAll (s : State) (d ctx : Nat) : State :=
  if (s.ctxGroups d ctx).any (fun x => x.2.marked) then s
  else
    let s := ((s.die d).bins.filter (fun b => b.2.ctx == ctx)).foldl (fun s b => match (s.die d).bins.find b.1 with
      | some y => s.spillOrHold d b.1 y
      | none => s) s
    (s.ctxGroups d ctx).foldl (fun s x => s.markGroup x.1) s

/-- Engine requests of a context from a die's cores that have not ended. -/
def State.engPending (s : State) (d ctx : Nat) : Bool := s.engAny (fun r => r.ctx == ctx && coreDie r.core == d)

/-- The copies that the save writes back and drops: managed lines of the context, and lines bound in its stashes. -/
def State.saveCopies (s : State) (d ctx : Nat) : List (Nat × Nat) :=
  ((s.cores.filter (fun c => coreDie c.1 == d)).map (fun c =>
    (c.2.l1.filter (fun y => keyCtx y.1 == ctx && (y.2.st == .managed || (s.boundOff c.1 ctx (keyVa y.1)).isSome))).map
      (fun y => (c.1, y.1)))).flatten

/-- The write-backs that stand behind a parked head go home, and leave their queues. -/
def backLines (ctx : Nat) : List (Nat × WbLine) → State → Ans Unit
  | [], s => .ok s ()
  | (c, y) :: r, s =>
    if !y.managed then backLines ctx r (s.ownedBack c ctx y.va y.data y.w y.r y.poison)
    else match managedBack s ctx y.va y.data y.mask y.poison (s.core c).t with
      | .wait s w => .wait s w
      | .far s => backLines ctx r (s.dropFar (coreDie c) y.va)
      | a => backLines ctx r a.state

def Group.backs (g : Group) : List WbLine := (g.sq.map SqEntry.backs).flatten

def Group.dropBacks (g : Group) : Group := { g with sq := g.sq.filter (fun e => match e.kind with
  | .writeBack _ => false
  | _ => true) }

/-- The owners that a group's parked entries name (R191). -/
def Group.parkOwners (g : Group) : List Nat :=
  let ks := g.tags.filterMap (fun x => x.2.op.bind (·.parked)) ++ g.sq.filterMap (·.parked) ++ (match g.tst with
    | some t => t.parked.toList
    | none => [])
  ks.map (·.owner)

/-- Is a group's store queue drained, but for a parked head, and its `TST` performed or parked (R174, R200)? -/
def Group.drained (g : Group) : Bool :=
  (match g.sq with
  | [] => true
  | e :: _ => e.parked.isSome || (g.heldBy e.seq e.after).isSome)
  && (match g.tst with
  | none => true
  | some t => t.parked.isSome)

/-- The bank of step 4 (R200): save block, stash block, and for group 0 the allocation's size. -/
def State.loadBank (s : State) (d p : Nat) (g : Group) : Group :=
  let a := (s.die d).savetab.toNat + 16 * g.ctx
  let k := s.stashGang p g
  let base := match k with
    | some k => k.stashBase
    | none => 0
  let size := if g.kind = .ordinary && g.group = 0 then (match k with
    | some k => k.stashSize
    | none => 0) else 0
  let n := coreIn (placeCore p) * 512 + p % 512
  ((g.setS2 56 (bv 64 (s.phys d a 8 + 45056 * n))).setS2 58
    (bv 64 (s.phys d (a + 8) 8 + 524288 * coreIn (placeCore p) + base))).setS 55 (bv 32 size)

/-- Steps 3 and 4, when nothing is under way any more, in groups that leave or are in another routine included: what is left of
R174, the generations, the entry of every group. -/
def State.enterAll (s : State) (d ctx : Nat) : State :=
  let xs := (s.ctxGroups d ctx).filter (fun x => x.2.marked)
  if xs.isEmpty || !xs.all (fun x => x.2.quiet) || !(s.ctxGroups d ctx).all (fun x => x.2.drained) || s.engPending d ctx then s
  else
    let backs := (xs.map (fun x => x.2.backs.map (fun y => (placeCore x.1, y)))).flatten
    match (backLines ctx backs s).andThen fun s _ => recallCopies (s.saveCopies d ctx) s with
    | .ok s _ =>
      let owners := ((xs.map (fun x => x.2.parkOwners)).flatten).eraseDups
      let s := owners.foldl (fun s o => s.raiseGen o ctx) s
      xs.foldl (fun s x => match s.grp x.1 with
        | some g => (match g.trapWait with
          | some r => (s.notePoison d ((s.die d).savetab.toNat + 16 * ctx) 16).setGrp x.1
              (s.loadBank d x.1 (g.dropBacks.enterTrap (s.die d).trapentry r))
          | none => s)
        | none => s) s
    | a => a.state

/-- `PREEMPT`: the request marks the context's groups on the die; the same event, made again as the work completes, enters
the routine. -/
def execPreempt (die ctx : Nat) (s : State) : Out := .next ((s.markAll die ctx).enterAll die ctx)

/-! ## Resume (R202) -/

/-- A gang with saved groups and none resident. -/
def State.savedGang (s : State) (key : Nat) : Option Gang := match s.gang key with
  | some k => if k.places.isEmpty && s.saved.any (fun x => x.gangKey == key && x.kind == .ordinary) then some k else none
  | none => none

/-- The span a gang belongs to, within its launch. -/
def State.spanOf (s : State) (k : Gang) : Option (Nat × Nat × Nat) :=
  if k.spawned then none
  else (s.task k.queue k.seqNo).map (fun t => (k.queue, k.seqNo, k.gang / recSpan t.data))

/-- The saved gangs of a context, by key. -/
def State.savedGangs (s : State) (ctx : Nat) : List (Nat × Gang) :=
  (s.gangs.filter (fun x => x.2.ctx == ctx)).filterMap (fun x => (s.savedGang x.1).map (fun k => (x.1, k)))

/-- Must two saved gangs be in one unit: saved from one core, or of one span? -/
def State.together (s : State) (x y : Gang) : Bool :=
  x.core == y.core || (match s.spanOf x, s.spanOf y with
    | some a, some b => a == b
    | _, _ => false)

/-- The unit around a gang: closed over links. -/
def State.unitOf (s : State) (all : List (Nat × Gang)) : Nat → List (Nat × Gang) → List (Nat × Gang)
  | 0, u => u
  | n + 1, u =>
    let more := all.filter (fun x => !u.contains x && u.any (fun y => s.together x.2 y.2))
    if more.isEmpty then u else s.unitOf all n (u ++ more)

/-- A saved group as it starts again: in trap mode with cause `RESUME` and the addresses of the blocks it was saved to, which the
die that saved it names (R200, R202). -/
def resumedGroup (s : State) (d : Nat) (x : SavedGroup) (order : Nat) : Group :=
  let from_ := placeDie x.place
  let a := (s.die from_).savetab.toNat + 16 * x.ctx
  let size := match s.gang x.gangKey with
    | some k => if x.group = 0 && x.kind = .ordinary then k.stashSize else 0
    | none => 0
  let c := coreIn (placeCore x.place)
  let g := { Group.fresh x.kind x.ctx (s.die d).trapentry x.regs order (~~~0) with
    prio := x.prio
    gangKey := x.gangKey
    ngroups := x.ngroups
    group := x.group
    gang := x.gang
    span := x.span
    member := x.member
    queue := x.queue
    seqNo := x.seqNo
    spawned := x.spawned
    spawnTab := x.spawnTab
    args := x.args
    fence := x.fence
    trapcause := Cause.code .resume
    -- p0 reads true in every lane (R199)
    bank := some { gw := [], tw := laneWordsAt 0 1 (fun _ => [1]), tags := [], keep := [], sqPark := none, seqs := x.seqs
                   sqRest := x.sqRest, helps := x.helps, tabs := x.tabs } }
  ((g.setS2 56 (bv 64 (s.phys from_ a 8 + 45056 * (c * 512 + x.place % 512)))).setS2 58
    (bv 64 (s.phys from_ (a + 8) 8 + 524288 * c + x.stash))).setS 55 (bv 32 size)

/-- Saved groups of a gang, the one with queue entries first. -/
def State.savedOfGang (s : State) (key : Nat) : List SavedGroup :=
  let xs := s.saved.filter (fun x => x.gangKey == key && x.kind == .ordinary)
  xs.filter (·.queued) ++ xs.filter (fun x => !x.queued)

/-- The groups of a gang find places on a core. -/
def resumeGroups (d c key order : Nat) : List SavedGroup → State → Option State
  | [], s => some s
  | x :: r, s => match s.pickPlace c x.regs none with
    | none => none
    | some p =>
      let from_ := placeDie x.place
      let s := ((s.notePoison from_ ((s.die from_).savetab.toNat + 16 * x.ctx) 16).setGrp p
        (resumedGroup s d x (if x.queued then order else order + 1))).raiseT c x.t
      let s := match s.gang key with
        | some k => { s with gangs := s.gangs.put key { k with places := k.places ++ [p] } }
        | none => s
      let s := if x.queued then s.modCore c (fun y => { y with qowner := some x.ctx, qsaved := false, qmoved := false }) else s
      resumeGroups d c key order r { s with saved := s.saved.erase x }

/-- A gang on a core. -/
def resumeGang (s : State) (d c key order : Nat) (k : Gang) : Option State :=
  let xs := s.savedOfGang key
  if !s.coreUsable c || !s.trackable c k.queue k.seqNo then none
  else match s.stashBase c k.stashSize with
    | none => none
    | some b => resumeGroups d c key order xs (s.addGang key { k with core := c, stashBase := b, places := [] })

/-- The gangs saved from one core go together onto one core. -/
def resumeSet (d c order : Nat) : List (Nat × Gang) → State → Option State
  | [], s => some s
  | (key, k) :: r, s => (resumeGang s d c key order k).bind (resumeSet d c order r)

/-- Does a set of gangs saved from one core bring queue entries along? -/
def State.setQueued (s : State) (xs : List (Nat × Gang)) : Bool := xs.any (fun x => (s.savedOfGang x.1).any (·.queued))

/-- A core for a set: one that saved queue entries needs unowned queues as the unit is placed (R202). -/
def resumeAt (d order c : Nat) (xs : List (Nat × Gang)) (s : State) : Option State :=
  if s.setQueued xs && (s.core c).qowner.isSome then none else resumeSet d c order xs s

/-- Sets of gangs, by the core they were saved from, on distinct cores of a list. -/
def resumeSets (d order : Nat) : List (List (Nat × Gang)) → List Nat → State → Option State
  | [], _, s => some s
  | x :: r, cs, s => match cs.findSome? (fun c => (resumeAt d order c x s).map (fun s' => (c, s'))) with
    | none => none
    | some (c, s') => resumeSets d order r (cs.filter (· != c)) s'

/-- A unit by the cores it was saved from. -/
def coreSets (u : List (Nat × Gang)) : List (List (Nat × Gang)) :=
  ((u.map (fun x => x.2.core)).eraseDups).map (fun c => u.filter (fun x => x.2.core == c))

/-- May every launch of a unit run on a die? -/
def State.unitAllows (s : State) (d : Nat) (u : List (Nat × Gang)) : Bool := u.all (fun x => match s.task x.2.queue x.2.seqNo with
  | some t => bit (recDies t.data) d
  | none => false)

/-- A unit all at once on one cluster of a die; proposed clusters come first. -/
def State.resumeUnit (s : State) (d : Nat) (u : List (Nat × Gang)) (first : List Nat) : Option State :=
  let cls := first ++ (upTo 11).filter (fun k => !first.contains k)
  (cls.findSome? (fun k => resumeSets d (s.seq + 1) (coreSets u) ((upTo 16).map (fun m => d * Config.cores + k * 16 + m)) s)).map
    (fun s => { s with seq := s.seq + 2 })

/-- A saved stream starts again where its gang is, once the queue leader's restore is over (R202). -/
def State.resumeReel (s : State) (d : Nat) (x : SavedGroup) : State :=
  match s.gang x.gangKey with
  | none => s
  | some k =>
    let c := k.core
    let busy := (s.peers c x.ctx).any (fun y => s.qlead y.1 y.2 && y.2.inTrap && y.2.trapcause == Cause.code .resume)
    if k.places.isEmpty || busy || !s.reelFree c || coreDie c != d || !s.coreUsable c then s
    else
      let from_ := placeDie x.place
      let s' := s.notePoison from_ ((s.die from_).savetab.toNat + 16 * x.ctx) 16
      ({ s' with seq := s.seq + 1, saved := s.saved.erase x }.setGrp (reelPlace c) (resumedGroup s d x (s.seq + 1))).modCore c
        (fun y => { y with reelGang := x.gangKey, reelCtx := x.ctx, reelEnd := 0, t := max y.t x.t })

/-- `RESUME`: one unit of the context on the die, and the streams that may follow; `places` proposes clusters by their
first places. A context still on its way out is not resumed. -/
def execResume (die ctx : Nat) (places : List (List Nat)) (s : State) : Out :=
  .next (
    let leaving := s.groups.any (fun x => x.2.ctx == ctx
      && (x.2.marked || x.2.preempting || (x.2.inTrap && x.2.trapcause == Cause.code .preempt)))
    if leaving || !(s.serves die && (s.die die).up) then s
    else
      let all := s.savedGangs ctx
      let first := (places.filterMap (fun p => p.head?.map (fun q => coreCluster (placeCore q)))).filter (· < 11)
      let units := all.map (fun x => s.unitOf all all.length [x])
      let s := ((units.filter (s.unitAllows die)).findSome? (fun u => s.resumeUnit die u first)).getD s
      (s.saved.filter (fun x => x.kind == .reel && x.ctx == ctx)).foldl (fun s x => s.resumeReel die x) s)

/-! ## The debugger (R197) -/

def execDebugHalt (core : Nat) (s : State) : Out := .next (s.modCore core (fun c => { c with halted := true }))
def execDebugResume (core : Nat) (s : State) : Out := .next (s.modCore core (fun c => { c with halted := false }))

end Sys2Proof.Machine
end

