-- ==== Sys2Proof/Machine/Module.lean ====
section
/-!
DEFINITION. The module's own events: domain, bindings, semaphores, power, resets, attestation, links, and errors of its
storage (R137, R250 to R257; notes/assumptions/23.md).
-/
namespace Sys2Proof.Machine

/-! ## Registers of the window by port (R250, R252, R257) -/

def execDomainConfig (val : DWord) (s : State) : Out := .next (s.writeDomain val)

/-- The entry of virtual function vf of a port is written through the physical function of either port. -/
def execVfBindingWrite (port vf : Nat) (val : Word) (s : State) : Out :=
  .next (if (s.portOpen 0 || s.portOpen 1) && port < 2 && vf < 32 then s.writeBinding (32 * port + vf) val else s)

def execSemaphoreRead (port n : Nat) (s : State) : Out :=
  .next (if s.portOpen port && port < 2 && n < 16 then s.readSem port n else s)

def execSemaphoreRelease (port n : Nat) (s : State) : Out :=
  .next (if s.portOpen port && port < 2 && n < 16 then s.freeSem port n else s)

def execPowerCapWrite (val : Word) (s : State) : Out := .next (s.writeCap (bits val.toNat 0 12))

/-- A read of a doorbell returns its queue's submit counter, at its home (R249); of a word that is no counter the spec states no
value, and it is a free one. -/
def doorbellRead (s : State) (q : Nat) : Ans DWord :=
  (readAtHome s (s.queue q).ctx (s.queue q).sub.toNat).andThen fun s y => match y with
    | some (v, _) => .ok s (bv 64 v)
    | none => .ok { s with fresh := s.fresh + 2 } (pair (Config.freeWord s.fresh) (Config.freeWord (s.fresh + 1)))

/-- What a read of the 8-byte word at an offset through a function returns: the window through a physical one; through a virtual one
the doorbells it shows, and zero elsewhere (R247, R249, R250). The port of a die that failed its firmware check shows a service
status of 0 and the firmware-load area (R255). A port whose link is down takes no transaction. Semaphores are read by
`execSemaphoreRead`. -/
def State.portRead (s : State) (port off : Nat) : Ans (Option DWord) :=
  let some_ (a : Ans DWord) : Ans (Option DWord) := a.andThen (fun s x => .ok s (some x))
  if !s.hostUp.getD (portOf port) false then .ok s none
  else if !(s.die (portOf port)).up then
    .ok s (some (if port < 2 && off != 0 then Config.firmwareArea port off else 0))
  else if 0x2000 ≤ off && off < 0x2200 then
    if s.showsDoorbell port ((off - 0x2000) / 8) then some_ (doorbellRead s ((off - 0x2000) / 8)) else .ok s (some 0)
  else .ok s (some (if port < 2 then s.windowRead off else 0))

/-! ## Power and heat (R257) -/

/-- A millisecond in which the clock was lowered, or was not. -/
def execPowerWindow (lowered : Bool) (s : State) : Out := .next { s with thr := lowered }

def execThermalThrottle (s : State) : Out := .next { s with thr := true }

/-! ## Resets (R139, R213, R243, R254, R255) -/

/-- The status after a reset whose training completed, or did not; only dies whose firmware verified serve. -/
def resetStatus (full pass0 pass1 : Bool) : Status where
  mrate := if full then 64 else 16
  clk := if full then 1800 else 600
  mall := full
  dies := BitVec.ofBool (full && pass1) ++ BitVec.ofBool pass0
  full := full

/-- A die after a reset: its memory and the host's keep their contents (notes/assumptions/23.md). -/
def Die.cleared (x : Die) (up : Bool) : Die :=
  { Die.reset x.mem x.host up with poison := x.poison, sect := x.sect }

/-- Firmware copies the status word to physical address 0 of die 0, if die 0 runs it (R254, R255). -/
def State.putStatus (s : State) : State := if s.die0.up then s.setPhys 0 0 8 s.status.word.toNat else s

/-- A module reset. Host links keep their state, and so do the other modules. -/
def State.afterReset (s : State) (full pass0 pass1 : Bool) : State :=
  { State.reset with
    status := resetStatus full pass0 pass1
    die0 := s.die0.cleared pass0
    die1 := s.die1.cleared pass1
    remote := s.remote
    hostUp := s.hostUp
    vfCount := s.vfCount
    railOff := s.railOff }.putStatus

/-- Both signatures of a die's image must verify for it to run (R255). -/
def bothVerify (ecdsa lms : BitVec 2) (die : Nat) : Bool := ecdsa.getLsbD die && lms.getLsbD die

def execModuleReset (full : Bool) (ecdsa lms : BitVec 2) (s : State) : Out :=
  .next (s.afterReset full (bothVerify ecdsa lms 0) (bothVerify ecdsa lms 1))

/-- The module resets itself into reduced service, with the firmware it has. -/
def State.selfReset (s : State) : State := s.afterReset false s.die0.up s.die1.up

def execThermalReset (s : State) : Out := .next s.selfReset
def execUcieLinkFailure (s : State) : Out := .next s.selfReset

/-- The sensors are sampled, in units of 0.125 °C: 105 °C lowers the clock, 115 °C resets the module. -/
def execSensorSample (tdie tin : Half) (s : State) : Out :=
  .next (
    let s := { s with tdie := tdie, tin := tin }
    if 920 ≤ tdie.toInt then s.first [.thermalReset]
    else if 840 ≤ tdie.toInt then s.first [.thermalThrottle]
    else s)

/-- An attestation report of a die that runs (R255). -/
def execAttestationRequest (die : Nat) (nonce : BitVec 256) (s : State) : Out :=
  .next (if (s.die die).up then { s with report := some {
      die := die, nonce := nonce, digest := Config.firmwareDigest die, fuses := Config.fuses die, cert := Config.certificate die
      ecdsa := Config.ecdsaSign die nonce, lms := Config.lmsSign die nonce } } else s)

def execAuxiliaryRailOff (s : State) : Out := .next { s with railOff := true }

/-! ## Links (R247, R250, R252, R253) -/

def execHostLinkUp (x : PortUp) (s : State) : Out :=
  .next (if x.port < 2 then { s with
    hostUp := s.hostUp.setD x.port true false
    vfCount := s.vfCount.setD x.port (min x.vfs 32) 0 } else s)

/-- A port's semaphores are released when its link goes down. -/
def execHostLinkDown (port : Nat) (s : State) : Out :=
  .next { s with
    hostUp := s.hostUp.setD port false false
    sems := s.sems.filter (fun x => x.2 != port + 1) }

/-- A hawser port, numbered 8 die + port, learns its partner once both ends have their configuration in force. -/
def execHawserLinkUp (port partner : Nat) (s : State) : Out :=
  .next (if s.domain.set && port < 16 then { s with hawser := s.hawser.put port partner } else s)

def execHawserLinkDown (port : Nat) (s : State) : Out := .next { s with hawser := s.hawser.del port }

/-- Does a request for an address leave the module over the hawser links, which alone can fail it (R253)? -/
def State.offModule (s : State) (va : Nat) : Bool := match s.owner va with
  | .die d => 2 ≤ d
  | .far => true
  | .host _ | .bad => false

/-- A step in which nothing that leaves the module is carried: reads come back poisoned, and what is written is dropped and counted
(R253). -/
def State.unlinked (s : State) (f : State → State) : State := { f { s with hawser := [] } with hawser := s.hawser }

/-- What an outcome goes on with. -/
def nextOf (s : State) : Out → State
  | .next t => t
  | _ => s

/-- The word at a group's program counter, issued: one whose own accesses come at its issue. -/
def State.wordStep (s : State) (p : Nat) : State := match { s with cur := some p }.issuePrep p with
  | .go t i => (match waitingWord i t with
    | some u => { nextOf s u with cur := s.cur }
    | none => s)
  | _ => s

/-- The next piece of an engine's head, of whatever kind. -/
def State.engStep (s : State) (d e : Nat) : State := s.engRun d e (fun _ => true) (fun s r => match reqKind r.block with
  | 0 => copyStep s r
  | 1 => gatherStep s r
  | 2 => scatterStep s r
  | 3 => fillStep s r
  | 4 => if r.phase = 4 then mergeStep s r else compositeStep s r
  | 5 => dedupStep s r
  | _ => checkpointStep s r)

def State.splicerStep (s : State) (d n : Nat) : State :=
  s.treeRun .splicer d n (fun _ => true) bldFailed (fun s r => if r.joins then joinStep s r else bldStep s r)

def State.coilerStep (s : State) (d n : Nat) : State :=
  s.treeRun .coiler d n (fun _ => true) cmpFailed (fun s r => if r.phase = 1 then cmpCopy s r else cmpWait s r)

def State.submitStep (s : State) (q : Nat) : State :=
  nextOf s (if (s.queue q).enabling then execQueueEnable q s else execTakeRecord q s)

def State.taskStep (s : State) (q n : Nat) : State := match s.task q n with
  | some t => nextOf s (if t.failing then execFailedRecordClose q n s
      else if t.st = 1 then execTaskReady q n s else execLaunchComplete q n s)
  | none => s

/-- The next wake-up of a parked `CWAIT` whose counter lies off the module is one that no link carries. -/
def State.deafen (s : State) (p : Nat) : State := s.modGrp p (fun g => { g with
  cpark := g.cpark.map (fun k => if s.offModule k.addr.toNat then { k with deaf := true } else k) })

/-- The start a shoot-down names. -/
def tlbiStart (o : POp) : Option Nat := match o.instr with
  | some (.tlbi _ _ _) => some (o.word2 0 0).toNat
  | _ => none

/-- A line of a die's memory comes back marked poisoned, until it is written again (R137, R256). -/
def State.memoryError (s : State) (d a : Nat) : State :=
  if Config.memBytes ≤ a || 2 ≤ d then s
  else s.modDie d (fun x => { x with poison := x.poison.setD (frameKey false a) (~~~0) 0 })

/-- A request that failed its retries on every route: what it belongs to goes on as it does where nothing leaves the module; a lost
wake-up leaves its group parked (R253). -/
def execLinkRetryExhausted (r : LostReq) (s : State) : Out :=
  .next (match r with
  | .read p t => s.unlinked (fun s => (s.advanceTag p t none).settle p)
  | .fetch p => (match s.grp p with
    | some g => if g.wantsWord && s.offModule (pcLine g.pc) then s.takeTrap p { cause := .poisoned, info := bv 64 (pcLine g.pc), pc := g.pc } else s
    | none => s)
  | .store p | .tst p => s.unlinked (fun s => (s.advanceSq p).settle p)
  | .word p => s.unlinked (fun s => s.wordStep p)
  | .cwait p => s.unlinked (fun s => nextOf s (execCwaitPoll p s))
  | .add n => (match s.adds[n]? with
    | some a => if s.offModule a.va.toNat then (s.dropAdd a.id).linkDropped a.die else s
    | none => s)
  | .push n => (match s.pushes[n]? with
    | some x => if s.offModule x.va then { s with pushes := dropAt s.pushes n }.linkDropped (coreDie x.src) else s
    | none => s)
  | .shootdown p t => (match (s.grp p).bind (fun g => g.op t) with
    | some o => if (tlbiStart o).any s.offModule then s.unlinked (fun s => (s.advanceTag p t none).settle p) else s
    | none => s)
  | .wake p => s.deafen p
  | .copy c ctx va => s.unlinked (fun s => (recallCopy s c ctx va).state)
  | .engine d e => s.unlinked (fun s => s.engStep d e)
  | .splicer d n => s.unlinked (fun s => s.splicerStep d n)
  | .coiler d n => s.unlinked (fun s => s.coilerStep d n)
  | .submit q => s.unlinked (fun s => s.submitStep q)
  | .task q n => s.unlinked (fun s => s.taskStep q n)
  | .memory d a => s.memoryError d a)

/-! ## Errors of storage (R137) -/

/-- The gang whose allocation holds the byte is killed: its span relaunched, or its launch failed (R65). -/
def execStashUncorrectable (core off : Nat) (s : State) : Out :=
  .next (match s.gangs.find? (fun x => x.2.core == core && s.holdsStash x.1 x.2
      && x.2.stashBase ≤ off && off < x.2.stashBase + x.2.stashSize) with
  | some x => s.relaunch x.1 0x06
  | none => s)

def execRegUncorrectableError (place reg : Nat) (s : State) : Out :=
  .next (match s.grp place with
  | some g => s.takeTrap place { cause := .regUncorrectable, info := bv 64 reg, pc := g.pc }
  | none => s)

def execL2DataUncorrectable (die ctx va : Nat) (s : State) : Out :=
  .next (match s.homeAt die ctx va with
  | some h => s.setHome die ctx va { h with poison := true }
  | none => s)

/-- A dirty line of an L1 is written back marked poisoned, a managed one as soon as its write-back can be made; a clean one is
refetched, with no visible effect. -/
def execL1DirtyUncorrectable (core ctx va : Nat) (s : State) : Out :=
  .next (match s.copyOf core ctx va with
  | none => s
  | some y =>
    if y.stash.isNone && (y.st == .o || (y.st == .managed && y.mask != 0)) then
      (recallCopy (s.setCopyOf core ctx va { y with poison := true }) core ctx va).state
    else s)

/-- Entry n of a slice's memory-side TLB is dropped, and counted; without one nothing happens. -/
def State.dropTlb (s : State) (die slice n : Nat) : State :=
  let es := (s.die die).tlb.getD slice []
  if es.length ≤ n then s
  else (s.modDie die (fun x => { x with tlb := x.tlb.setD slice (dropAt es n) [] })).cnt die
    (fun c => { c with ceTlb := sat64 (c.ceTlb + 1) })

def execTlbParityDrop (die slice n : Nat) (s : State) : Out := .next (s.dropTlb die slice n)

def countCe (k : CeKind) (c : Counts) : Counts := match k with
  | .reg => { c with ceReg := sat64 (c.ceReg + 1) }
  | .stash => { c with ceStash := sat64 (c.ceStash + 1) }
  | .l1 => { c with ceL1 := sat64 (c.ceL1 + 1) }
  | .icache => { c with ceIcache := sat64 (c.ceIcache + 1) }
  | .l2 => { c with ceL2 := sat64 (c.ceL2 + 1) }
  | .dir => { c with ceDir := sat64 (c.ceDir + 1) }
  | .tlb _ _ => c

/-- `ce_tlb` counts the entries dropped on parity, so the error of a TLB entry drops it (R251). -/
def execCorrectedError (die : Nat) (k : CeKind) (s : State) : Out := .next (match k with
  | .tlb slice n => s.dropTlb die slice n
  | .reg | .stash | .l1 | .icache | .l2 | .dir => s.cnt die (countCe k))

def execRangeLogTimeout (core : Nat) (s : State) : Out := .next (s.closeLog core)

end Sys2Proof.Machine
end

