-- ==== Sys2Proof/Machine/Dispatch.lean ====
section
/-!
DEFINITION. One arm for each row of the opcode table.
-/
namespace Sys2Proof.Machine

def exec (i : Instr) (s : State) : Host.Outcome State Fault Refusal :=
  match i with
  | .iadd h r => Sys2Proof.Machine.execIadd h r s
  | .iaddImm h r => Sys2Proof.Machine.execIaddImm h r s
  | .isub h r => Sys2Proof.Machine.execIsub h r s
  | .isubImm h r => Sys2Proof.Machine.execIsubImm h r s
  | .imin h r => Sys2Proof.Machine.execImin h r s
  | .imax h r => Sys2Proof.Machine.execImax h r s
  | .iabs h r => Sys2Proof.Machine.execIabs h r s
  | .imul h r => Sys2Proof.Machine.execImul h r s
  | .imulImm h r => Sys2Proof.Machine.execImulImm h r s
  | .imulh h r => Sys2Proof.Machine.execImulh h r s
  | .imad h r => Sys2Proof.Machine.execImad h r s
  | .idp4 h r => Sys2Proof.Machine.execIdp4 h r s
  | .icmp h r => Sys2Proof.Machine.execIcmp h r s
  | .icmpImm h pd cond sgn r => Sys2Proof.Machine.execIcmpImm h pd cond sgn r s
  | .sel h pc r => Sys2Proof.Machine.execSel h pc r s
  | .logic h r => Sys2Proof.Machine.execLogic h r s
  | .logicImm h f r => Sys2Proof.Machine.execLogicImm h f r s
  | .shl h r => Sys2Proof.Machine.execShl h r s
  | .shlImm h r => Sys2Proof.Machine.execShlImm h r s
  | .shr h r => Sys2Proof.Machine.execShr h r s
  | .shrImmLogical h r => Sys2Proof.Machine.execShrImmLogical h r s
  | .shrImmArith h r => Sys2Proof.Machine.execShrImmArith h r s
  | .bfx h r => Sys2Proof.Machine.execBfx h r s
  | .bfi h r => Sys2Proof.Machine.execBfi h r s
  | .popc h r => Sys2Proof.Machine.execPopc h r s
  | .clz h r => Sys2Proof.Machine.execClz h r s
  | .brev h r => Sys2Proof.Machine.execBrev h r s
  | .lea h r => Sys2Proof.Machine.execLea h r s
  | .mov h r => Sys2Proof.Machine.execMov h r s
  | .movi h r => Sys2Proof.Machine.execMovi h r s
  | .bperm h r => Sys2Proof.Machine.execBperm h r s
  | .plog h f pd pa pb => Sys2Proof.Machine.execPlog h f pd pa pb s
  | .fadd h r => Sys2Proof.Machine.execFadd h r s
  | .fmul h r => Sys2Proof.Machine.execFmul h r s
  | .ffma h r => Sys2Proof.Machine.execFfma h r s
  | .fmin h r => Sys2Proof.Machine.execFmin h r s
  | .fmax h r => Sys2Proof.Machine.execFmax h r s
  | .fcmp h r => Sys2Proof.Machine.execFcmp h r s
  | .frcp h r => Sys2Proof.Machine.execFrcp h r s
  | .frsq h r => Sys2Proof.Machine.execFrsq h r s
  | .fsqrt h r => Sys2Proof.Machine.execFsqrt h r s
  | .fexp2 h r => Sys2Proof.Machine.execFexp2 h r s
  | .flog2 h r => Sys2Proof.Machine.execFlog2 h r s
  | .fsin h r => Sys2Proof.Machine.execFsin h r s
  | .fcos h r => Sys2Proof.Machine.execFcos h r s
  | .ftanh h r => Sys2Proof.Machine.execFtanh h r s
  | .fscale h r => Sys2Proof.Machine.execFscale h r s
  | .fmaxe h r => Sys2Proof.Machine.execFmaxe h r s
  | .frnd h r => Sys2Proof.Machine.execFrnd h r s
  | .fcvt h r => Sys2Proof.Machine.execFcvt h r s
  | .f2i h r => Sys2Proof.Machine.execF2i h r s
  | .i2f h r => Sys2Proof.Machine.execI2f h r s
  | .fclass h r => Sys2Proof.Machine.execFclass h r s
  | .fdot2 h r => Sys2Proof.Machine.execFdot2 h r s
  | .shfl h r => Sys2Proof.Machine.execShfl h r s
  | .qswap h r => Sys2Proof.Machine.execQswap h r s
  | .qdiff h r => Sys2Proof.Machine.execQdiff h r s
  | .ballot h d pa => Sys2Proof.Machine.execBallot h d pa s
  | .mpopc h mode d pa => Sys2Proof.Machine.execMpopc h mode d pa s
  | .vote h mode pd pa => Sys2Proof.Machine.execVote h mode pd pa s
  | .elect h pd => Sys2Proof.Machine.execElect h pd s
  | .matchEq h r => Sys2Proof.Machine.execMatchEq h r s
  | .lred h r => Sys2Proof.Machine.execLred h r s
  | .lscan h r => Sys2Proof.Machine.execLscan h r s
  | .bra h t => Sys2Proof.Machine.execBra h t s
  | .brx h a => Sys2Proof.Machine.execBrx h a s
  | .brd h t j => Sys2Proof.Machine.execBrd h t j s
  | .join h => Sys2Proof.Machine.execJoin h s
  | .call h d t => Sys2Proof.Machine.execCall h d t s
  | .ret h a => Sys2Proof.Machine.execRet h a s
  | .exit h => Sys2Proof.Machine.execExit h s
  | .nop h => Sys2Proof.Machine.execNop h s
  | .yield h => Sys2Proof.Machine.execYield h s
  | .trap h imm => Sys2Proof.Machine.execTrap h imm s
  | .spawn h first count x t => Sys2Proof.Machine.execSpawn h first count x t s
  | .ld h w m => Sys2Proof.Machine.execLd h w m s
  | .st h w m => Sys2Proof.Machine.execSt h w m s
  | .lds h w m => Sys2Proof.Machine.execLds h w m s
  | .sts h w m => Sys2Proof.Machine.execSts h w m s
  | .sinj h w m => Sys2Proof.Machine.execSinj h w m s
  | .pref h m => Sys2Proof.Machine.execPref h m s
  | .smap h r => Sys2Proof.Machine.execSmap h r s
  | .sunmap h r => Sys2Proof.Machine.execSunmap h r s
  | .wbr h r => Sys2Proof.Machine.execWbr h r s
  | .invr h r => Sys2Proof.Machine.execInvr h r s
  | .fence h ord scope => Sys2Proof.Machine.execFence h ord scope s
  | .atom h op r => Sys2Proof.Machine.execAtom h op r s
  | .acas h r => Sys2Proof.Machine.execAcas h r s
  | .mred h op r => Sys2Proof.Machine.execMred h op r s
  | .cadd h scope r => Sys2Proof.Machine.execCadd h scope r s
  | .cwait h scope r => Sys2Proof.Machine.execCwait h scope r s
  | .crd h ord scope r => Sys2Proof.Machine.execCrd h ord scope r s
  | .rlog h r => Sys2Proof.Machine.execRlog h r s
  | .thdrToH h hd x => Sys2Proof.Machine.execThdrToH h hd x s
  | .thdrFromH h ha x => Sys2Proof.Machine.execThdrFromH h ha x s
  | .tchk h ha pd => Sys2Proof.Machine.execTchk h ha pd s
  | .tld h hd x off ord scope => Sys2Proof.Machine.execTld h hd x off ord scope s
  | .tst h ha x off ord scope => Sys2Proof.Machine.execTst h ha x off ord scope s
  | .tzero h hd => Sys2Proof.Machine.execTzero h hd s
  | .ttrans h hd ha => Sys2Proof.Machine.execTtrans h hd ha s
  | .mma h z hd ha hb => Sys2Proof.Machine.execMma h z hd ha hb s
  | .tcvt h hd ha => Sys2Proof.Machine.execTcvt h hd ha s
  | .tres h hd ha f => Sys2Proof.Machine.execTres h hd ha f s
  | .tcrt h hd ha => Sys2Proof.Machine.execTcrt h hd ha s
  | .ntest h r => Sys2Proof.Machine.execNtest h r s
  | .hitk h r => Sys2Proof.Machine.execHitk h r s
  | .trvpush h r => Sys2Proof.Machine.execTrvpush h r s
  | .trvpop h r => Sys2Proof.Machine.execTrvpop h r s
  | .morton h r => Sys2Proof.Machine.execMorton h r s
  | .qbox h fr r => Sys2Proof.Machine.execQbox h fr r s
  | .bld h r => Sys2Proof.Machine.execBld h r s
  | .cmpct h r => Sys2Proof.Machine.execCmpct h r s
  | .nfmt h r => Sys2Proof.Machine.execNfmt h r s
  | .kick h r => Sys2Proof.Machine.execKick h r s
  | .sstart h r => Sys2Proof.Machine.execSstart h r s
  | .sstop h r => Sys2Proof.Machine.execSstop h r s
  | .bdec h kind k r => Sys2Proof.Machine.execBdec h kind k r s
  | .csrr h csr d => Sys2Proof.Machine.execCsrr h csr d s
  | .csrw h csr a => Sys2Proof.Machine.execCsrw h csr a s
  | .tret h => Sys2Proof.Machine.execTret h s
  | .tretSave h => Sys2Proof.Machine.execTretSave h s
  | .tretKill h => Sys2Proof.Machine.execTretKill h s
  | .pld h m => Sys2Proof.Machine.execPld h m s
  | .pst h m => Sys2Proof.Machine.execPst h m s
  | .tlbf h r => Sys2Proof.Machine.execTlbf h r s
  | .tlbi h rc r => Sys2Proof.Machine.execTlbi h rc r s
  | .frec h r => Sys2Proof.Machine.execFrec h r s
  | .bkpt h => Sys2Proof.Machine.execBkpt h s
  | .dualWord sched h0 h1 => Sys2Proof.Machine.execDualWord sched h0 h1 s
  | .instructionFetch place => Sys2Proof.Machine.execInstructionFetch place s
  | .issueTurn pipe => Sys2Proof.Machine.execIssueTurn pipe s
  | .tagRelease place tag early => Sys2Proof.Machine.execTagRelease place tag early s
  | .longResultWrite place idx early => Sys2Proof.Machine.execLongResultWrite place idx early s
  | .storeQueueLeave place => Sys2Proof.Machine.execStoreQueueLeave place s
  | .tldArrival place tag => Sys2Proof.Machine.execTldArrival place tag s
  | .groupRetire place => Sys2Proof.Machine.execGroupRetire place s
  | .doorbellWrite port q size val => Sys2Proof.Machine.execDoorbellWrite port q size val s
  | .queueEnable q => Sys2Proof.Machine.execQueueEnable q s
  | .queueUnfreeze q => Sys2Proof.Machine.execQueueUnfreeze q s
  | .registerWrite port off size val => Sys2Proof.Machine.execRegisterWrite port off size val s
  | .takeRecord q => Sys2Proof.Machine.execTakeRecord q s
  | .taskReady q seq => Sys2Proof.Machine.execTaskReady q seq s
  | .taskCancel q seq => Sys2Proof.Machine.execTaskCancel q seq s
  | .placementTurn die places => Sys2Proof.Machine.execPlacementTurn die places s
  | .spanReservation die q seq => Sys2Proof.Machine.execSpanReservation die q seq s
  | .gangWatchdog gang => Sys2Proof.Machine.execGangWatchdog gang s
  | .launchFail q seq cause => Sys2Proof.Machine.execLaunchFail q seq cause s
  | .failedRecordClose q seq => Sys2Proof.Machine.execFailedRecordClose q seq s
  | .launchComplete q seq => Sys2Proof.Machine.execLaunchComplete q seq s
  | .binTimerExpiry die bin => Sys2Proof.Machine.execBinTimerExpiry die bin s
  | .spawnedGroupPlace die place => Sys2Proof.Machine.execSpawnedGroupPlace die place s
  | .shareRequest core ctx va => Sys2Proof.Machine.execShareRequest core ctx va s
  | .renewRequest core ctx va => Sys2Proof.Machine.execRenewRequest core ctx va s
  | .ownershipRequest core ctx va => Sys2Proof.Machine.execOwnershipRequest core ctx va s
  | .recallForRead die ctx va => Sys2Proof.Machine.execRecallForRead die ctx va s
  | .recallForOwnership die ctx va => Sys2Proof.Machine.execRecallForOwnership die ctx va s
  | .lineEviction core ctx va => Sys2Proof.Machine.execLineEviction core ctx va s
  | .homeWrite n => Sys2Proof.Machine.execHomeWrite n s
  | .injectedPush n => Sys2Proof.Machine.execInjectedPush n s
  | .l2EvictToMemory die ctx va => Sys2Proof.Machine.execL2EvictToMemory die ctx va s
  | .timeSelfAdvance core => Sys2Proof.Machine.execTimeSelfAdvance core s
  | .cwaitPoll place => Sys2Proof.Machine.execCwaitPoll place s
  | .directoryRecovery die ctx va => Sys2Proof.Machine.execDirectoryRecovery die ctx va s
  | .directoryRecoveryDone die ctx va => Sys2Proof.Machine.execDirectoryRecoveryDone die ctx va s
  | .corePowerGate core => Sys2Proof.Machine.execCorePowerGate core s
  | .coreUngate core => Sys2Proof.Machine.execCoreUngate core s
  | .walkerSlotPlace core => Sys2Proof.Machine.execWalkerSlotPlace core s
  | .replay die ctx gen => Sys2Proof.Machine.execReplay die ctx gen s
  | .shootdownRequest ctx va len rc => Sys2Proof.Machine.execShootdownRequest ctx va len rc s
  | .preempt die ctx => Sys2Proof.Machine.execPreempt die ctx s
  | .resume die ctx places => Sys2Proof.Machine.execResume die ctx places s
  | .debugHalt core => Sys2Proof.Machine.execDebugHalt core s
  | .engineCopy die eng => Sys2Proof.Machine.execEngineCopy die eng s
  | .engineGather die eng => Sys2Proof.Machine.execEngineGather die eng s
  | .engineScatter die eng => Sys2Proof.Machine.execEngineScatter die eng s
  | .engineFill die eng => Sys2Proof.Machine.execEngineFill die eng s
  | .engineDepthComposite die eng => Sys2Proof.Machine.execEngineDepthComposite die eng s
  | .depthCompositeMerge die eng => Sys2Proof.Machine.execDepthCompositeMerge die eng s
  | .engineDedupWrite die eng => Sys2Proof.Machine.execEngineDedupWrite die eng s
  | .engineCheckpointStream die eng => Sys2Proof.Machine.execEngineCheckpointStream die eng s
  | .splicerBuild die n => Sys2Proof.Machine.execSplicerBuild die n s
  | .splicerRefit die n => Sys2Proof.Machine.execSplicerRefit die n s
  | .joiningRootWrite die n => Sys2Proof.Machine.execJoiningRootWrite die n s
  | .coilerCompact die n => Sys2Proof.Machine.execCoilerCompact die n s
  | .coilerCopy die n => Sys2Proof.Machine.execCoilerCopy die n s
  | .rangeLogTimeout core => Sys2Proof.Machine.execRangeLogTimeout core s
  | .domainConfig val => Sys2Proof.Machine.execDomainConfig val s
  | .vfBindingWrite port vf val => Sys2Proof.Machine.execVfBindingWrite port vf val s
  | .semaphoreRead port n => Sys2Proof.Machine.execSemaphoreRead port n s
  | .semaphoreRelease port n => Sys2Proof.Machine.execSemaphoreRelease port n s
  | .powerCapWrite val => Sys2Proof.Machine.execPowerCapWrite val s
  | .powerWindow lowered => Sys2Proof.Machine.execPowerWindow lowered s
  | .thermalThrottle => Sys2Proof.Machine.execThermalThrottle s
  | .thermalReset => Sys2Proof.Machine.execThermalReset s
  | .moduleReset full ecdsa lms => Sys2Proof.Machine.execModuleReset full ecdsa lms s
  | .attestationRequest die nonce => Sys2Proof.Machine.execAttestationRequest die nonce s
  | .hostLinkDown port => Sys2Proof.Machine.execHostLinkDown port s
  | .hawserLinkUp port partner => Sys2Proof.Machine.execHawserLinkUp port partner s
  | .linkRetryExhausted r => Sys2Proof.Machine.execLinkRetryExhausted r s
  | .ucieLinkFailure => Sys2Proof.Machine.execUcieLinkFailure s
  | .stashUncorrectable core off => Sys2Proof.Machine.execStashUncorrectable core off s
  | .regUncorrectableError place reg => Sys2Proof.Machine.execRegUncorrectableError place reg s
  | .ownershipHoldExpiry die ctx va => Sys2Proof.Machine.execOwnershipHoldExpiry die ctx va s
  | .debugResume core => Sys2Proof.Machine.execDebugResume core s
  | .sensorSample tdie tin => Sys2Proof.Machine.execSensorSample tdie tin s
  | .hostLinkUp port => Sys2Proof.Machine.execHostLinkUp port s
  | .hawserLinkDown port => Sys2Proof.Machine.execHawserLinkDown port s
  | .auxiliaryRailOff => Sys2Proof.Machine.execAuxiliaryRailOff s
  | .l2DataUncorrectable die ctx va => Sys2Proof.Machine.execL2DataUncorrectable die ctx va s
  | .l1DirtyUncorrectable core ctx va => Sys2Proof.Machine.execL1DirtyUncorrectable core ctx va s
  | .tlbParityDrop die slice n => Sys2Proof.Machine.execTlbParityDrop die slice n s
  | .correctedError die k => Sys2Proof.Machine.execCorrectedError die k s

end Sys2Proof.Machine
end

