-- ==== Sys2Proof/Machine/Work.lean ====
section
/-!
DEFINITION. What the module does next of its own accord when no word issues: one of the events that are pending, chosen by
the count of turns (notes/assumptions/1.md), and a group placed by hand for one word.
-/
namespace Sys2Proof.Machine

/-! ## Pending events by kind -/

def pairsOf {α : Type} (xs : SMap α) (f : Nat → α → List Instr) : List Instr := (xs.map (fun x => f x.1 x.2)).flatten

/-- Writes that come early: a subset named by the turn (R266, R267). -/
def earlyOf (turn n : Nat) : List Nat := (upTo n).filter (fun k => turn.testBit (k % 16))

def State.issueWork (s : State) : List Instr :=
  ((s.groups.filter (fun x => x.2.wantsWord && s.coreRuns (placeCore x.1))).map (fun x => placePipeKey x.1)).eraseDups.map .issueTurn

def State.tagWork (s : State) : List Instr := pairsOf s.groups (fun p g => pairsOf g.tags (fun t x => match x.op with
  | some o =>
    if o.parked.isSome || s.waiting (.tag p t) then []
    else if o.todo = 0 then [.tagRelease p t (some (earlyOf s.turn o.res.length)), .tagRelease p t none]
    else if o.isTld then [.tldArrival p t]
    else if o.parts then [.tagRelease p t (some (earlyOf s.turn 32)), .tagRelease p t none] else [.tagRelease p t none]
  | none => []))

def State.longWork (s : State) : List Instr := pairsOf s.groups (fun p g => (g.lpend.zipIdx.map (fun x =>
  [Instr.longResultWrite p x.2 (some (earlyOf s.turn x.1.res.length)), .longResultWrite p x.2 none])).flatten)

def State.queueWork (s : State) : List Instr := pairsOf s.groups (fun p g => match g.sq, g.tst with
  | e :: _, _ => if e.parked.isSome || s.waiting (.sq p) then [] else [.storeQueueLeave p]
  | [], some t => if t.parked.isSome || s.waiting (.tst p) then [] else [.storeQueueLeave p]
  | [], none => [])

def State.retireWork (s : State) : List Instr := pairsOf s.groups (fun p g =>
  if (g.st == .retiring || g.st == .killed) && g.landed then [.groupRetire p] else [])

/-- The dies that run. -/
def State.liveDies (s : State) : List Nat := (upTo 2).filter (fun d => s.serves d && (s.die d).up)

/-- Walker slots with records to take or to hand on (R181). -/
def State.walkWork (s : State) : List Instr := (s.liveDies.map (fun d =>
  ((((s.die d).openWalks.map (fun w => d * Config.cores + w.2.core)).eraseDups).filter
    (fun c => s.walkerFree c || s.walkerLent c)).map .walkerSlotPlace)).flatten

/-- Shoot-downs that wait for copies to come home (R187). -/
def State.downWork (s : State) : List Instr := s.downs.map (fun x => .shootdownRequest x.ctx x.va x.len true)

def State.addWork (s : State) : List Instr :=
  (s.adds.zipIdx.filter (fun x => !s.waiting (.add x.1.id))).map (fun x => .homeWrite x.2)

def State.pushWork (s : State) : List Instr := (upTo s.pushes.length).map .injectedPush

/-- Dirty managed lines marked poisoned that are still to go home (R137). -/
def State.evictWork (s : State) : List Instr := pairsOf s.cores (fun c x => (x.l1.filter (fun y =>
  y.2.st == .managed && y.2.mask != 0 && y.2.poison && y.2.stash.isNone && !s.waiting (.recall c y.1))).map (fun y =>
    .lineEviction c (keyCtx y.1) (keyVa y.1)))

/-- The event of an engine's head. -/
def engEvent (d e : Nat) (r : EngReq) : Instr := match reqKind r.block with
  | 0 => .engineCopy d e
  | 1 => .engineGather d e
  | 2 => .engineScatter d e
  | 3 => .engineFill d e
  | 4 => if r.stage = 0 && r.phase = 4 then .depthCompositeMerge d e else .engineDepthComposite d e
  | 5 => .engineDedupWrite d e
  | _ => .engineCheckpointStream d e

/-- Requests that stand in kick registers, with their engines. -/
def State.kicked (s : State) : List (Nat × Nat × EngReq) := s.cores.filterMap (fun c => c.2.kick.map (fun k => (coreDie c.1, k.1, k.2)))

def State.engWorkList (s : State) : List Instr :=
  (s.liveDies.map (fun d => ((s.die d).engines.filterMap (fun x => match x.2 with
    | r :: _ => if s.waiting (.engine d x.1) then none else some (engEvent d x.1 r)
    | [] => none)))).flatten
  ++ s.kicked.map (fun x => match (s.die x.1).engine x.2.1 with
    | r :: _ => engEvent x.1 x.2.1 r
    | [] => engEvent x.1 x.2.1 x.2.2)

def State.treeWork (s : State) : List Instr := (s.liveDies.map (fun d =>
  ((s.die d).splicers.filterMap (fun x => match x.2 with
    | r :: _ => if s.waiting (.splicer d x.1) then none
      else some (if r.joins then .joiningRootWrite d x.1 else if isRefit r then .splicerRefit d x.1 else .splicerBuild d x.1)
    | [] => none))
  ++ ((s.die d).coilers.filterMap (fun x => match x.2 with
    | r :: _ => if s.waiting (.coiler d x.1) then none
      else some (if r.phase = 1 then .coilerCopy d x.1 else .coilerCompact d x.1)
    | [] => none)))).flatten


def State.pollWork (s : State) : List Instr := pairsOf s.groups (fun p g =>
  if g.cpark.isSome && !s.waiting (.cwait p) && !s.hasWaiter p then [.cwaitPoll p] else [])

def State.takeWork (s : State) : List Instr := pairsOf s.queues (fun q x =>
  if s.waiting (.submit q) then []
  else (if x.enabling then [.queueEnable q] else [])
    ++ (if x.en && !x.enabling && !x.frozen then [.takeRecord q] else []))

def State.readyWork (s : State) : List Instr := pairsOf s.tasks (fun k t =>
  if t.st = 1 && !t.failing && !s.waiting (.watch (k % 64) (k / 64)) then [.taskReady (k % 64) (k / 64)] else [])

def State.placeWork (s : State) : List Instr :=
  (s.liveDies.filter (fun d => !(s.placeable d).isEmpty)).map (fun d => .placementTurn d [])

/-- A place on no die: the placer chooses. -/
def anyPlace : Nat := 512 * 2 * Config.cores

def State.spawnWork (s : State) : List Instr :=
  (s.liveDies.filter (fun d => !(s.die d).formed.isEmpty || (s.die d).rings.any (fun r => !r.2.held.isEmpty)
    || !(s.die d).heldBins.isEmpty)).map (fun d => .spawnedGroupPlace d anyPlace)

def State.closeWork (s : State) : List Instr := pairsOf s.tasks (fun k t =>
  if s.waiting (.watch (k % 64) (k / 64)) then []
  else if t.failing then [.failedRecordClose (k % 64) (k / 64)]
  else if t.st = 3 && liveGangs t.data ≤ t.exited.length then [.launchComplete (k % 64) (k / 64)] else [])

def State.preemptWork (s : State) : List Instr :=
  (((s.groups.filter (fun x => x.2.marked)).map (fun x => (placeDie x.1, x.2.ctx))).eraseDups).map (fun x => .preempt x.1 x.2)

/-- Time passes for one core after the other. -/
def State.timeWork (_ : State) (round : Nat) : List Instr := [.timeSelfAdvance (round % (2 * Config.cores))]

/-- What a timer or the scheduler's patience brings, now and then. -/
def State.timerWork (s : State) (round : Nat) : List Instr :=
  if round % 64 != 0 then []
  else
    (s.liveDies.map (fun d => pairsOf (s.die d).bins (fun k b => if b.held = 0 then [.binTimerExpiry d k] else [])
      ++ (s.placeable d).map (fun x => .spanReservation d x.1 x.2.1)
      ++ ((s.saved.map (·.ctx)).eraseDups).map (fun c => .resume d c []))).flatten
    ++ pairsOf s.cores (fun c x => if x.logOpen.isSome then [.rangeLogTimeout c] else [])

/-- Kinds of work. -/
def workKinds : Nat := 18

/-- The pending events of a kind. -/
def State.workOf (s : State) (round : Nat) : Nat → List Instr
  | 0 => s.issueWork
  | 1 => s.tagWork
  | 2 => s.longWork
  | 3 => s.queueWork
  | 4 => s.retireWork
  | 5 => s.walkWork
  | 6 => s.addWork ++ s.downWork
  | 7 => s.pushWork ++ s.evictWork
  | 8 => s.engWorkList
  | 9 => s.treeWork
  | 10 => s.pollWork
  | 11 => s.takeWork
  | 12 => s.readyWork
  | 13 => s.placeWork
  | 14 => s.spawnWork ++ s.preemptWork
  | 15 => s.closeWork
  | 16 => s.timeWork round
  | _ => s.timerWork round

/-- The next event: the first kind with work, from the turn's kind on, and of it the one that the round names. -/
def State.pickWork (s : State) : Option Instr :=
  let round := s.turn / workKinds
  ((upTo workKinds).map (fun k => (s.turn + k) % workKinds)).findSome? (fun k =>
    let xs := s.workOf round k
    xs[round % xs.length]?)

/-- Both dies' clocks go on by a beat or more: how many is free (notes/assumptions/5.md). -/
def State.passTime (s : State) : State :=
  { s with
    turn := s.turn + 1
    fresh := s.fresh + 2
    die0 := { s.die0 with clock := s.die0.clock + 1 + (Config.freeWord s.fresh).setWidth 64 }
    die1 := { s.die1 with clock := s.die1.clock + 1 + (Config.freeWord (s.fresh + 1)).setWidth 64 } }

/-! ## A word placed by hand -/

/-- The place of a group placed by hand. -/
def handPlace : Nat := 0

/-- Its program counter: slot 0 of the line at the start of die 0's own space. -/
def State.handPc (s : State) : DWord := bv 64 (s.dieid 0 * 2 ^ 52)

/-- A group of context 0 in program mode, W live threads, with the full budget. -/
def State.handGroup (s : State) : Group := Group.fresh .ordinary 0 s.handPc 128 0 (~~~0)

/-- The machine about to issue one word: a group at its turn whose code line, with that word alone, is in its core's
instruction cache. -/
def State.placeWord (s : State) (w : BitVec 80) : State :=
  let t : State := { s with
    agenda := []
    cur := some handPlace
    waits := s.waits.filter (fun x => !x.req.atPlace handPlace)
    status := { s.status with dies := s.status.dies ||| 1 }
    die0 := { s.die0 with up := true }
    railOff := false }
  (t.setGrp handPlace s.handGroup).modCore 0 (fun c => { c with
    icache := c.icache.put (lineKey 0 s.handPc.toNat) (codeLine [w]) })

end Sys2Proof.Machine
end

