-- ==== Sys2Proof/Machine/Step.lean ====
section
/-!
DEFINITION. One step of the module: what the agenda holds, the word of the group at its turn, or the next pending event.
-/
namespace Sys2Proof.Machine

/-- A step. A module whose auxiliary rail is off answers nothing. -/
def step (s : State) : Host.Outcome State Fault Refusal :=
  if s.railOff then .fault .auxiliaryRailOff
  else match s.agenda with
  | i :: r => exec i { s with agenda := r }
  | [] => match s.cur with
    | some p => match s.issuePrep p with
      | .go t i => exec i t
      | .trap t | .hold t => .next t
    | none => match s.pickWork with
      | some i => exec i s.passTime
      | none => .next s.passTime

/-- The word in the low 80 bits of w stands where the next step takes its word from. -/
def State.withFetchWord (s : State) (_nbits w : Nat) : State := s.placeWord (BitVec.ofNat 80 w)

end Sys2Proof.Machine
end

