-- ==== Sys2Proof/Safety.lean ====
section
/-!
DEFINITION. What counts as a safe run, and the properties of states that claims speak of.
-/
namespace Sys2Proof.Machine

/-- Both memories of a die are in canonical form: addresses strictly rising, no byte at what an unlisted one reads. -/
def Die.canonical (x : Die) : Bool := Memory.wf x.mem && Memory.wf x.host

/-- Every die's memories are in canonical form. -/
def State.canonical (s : State) : Bool := s.die0.canonical && s.die1.canonical && s.remote.all (fun x => x.2.canonical)

/-- A die's L2, its slices' counters and translations, its walk records, generations, engines and poison marks list each key once. -/
def Die.mapsWf (x : Die) : Bool :=
  x.l2.wf && x.slices.wf && x.tlb.wf && x.walks.wf && x.gens.wf && x.engines.wf && x.poison.wf

/-- A group's registers, predicates, headers and tags list each key once, and so do the tags that a trap has banked. -/
def Group.mapsWf (g : Group) : Bool :=
  g.v.wf && g.s.wf && g.p.wf && g.h.wf && g.tags.wf && (match g.bank with
    | some b => b.tags.wf
    | none => true)

/-- A core's L1 and instruction cache list each line once, and its stash is in canonical form. -/
def Core.mapsWf (c : Core) : Bool := c.l1.wf && c.icache.wf && Memory.wf c.stash

/-- The state's own maps list each key once, and so do those of every group, core and die. -/
def State.mapsWf (s : State) : Bool :=
  s.groups.wf && s.groups.all (fun x => x.2.mapsWf) && s.gangs.wf && s.tasks.wf
  && s.cores.wf && s.cores.all (fun x => x.2.mapsWf)
  && s.die0.mapsWf && s.die1.mapsWf && s.remote.wf && s.remote.all (fun x => x.2.mapsWf)
  && s.vfs.wf && s.vfCount.wf && s.sems.wf && s.hostUp.wf && s.hawser.wf

/-- A domain register in force stands within its bounds (R250). -/
def Domain.legal (x : Domain) : Bool := !x.set || (decide (x.module ≤ x.last) && decide (x.last ≤ 1535))

/-- The module's registers hold what the spec lets them hold: the power cap within its clamp (R257), the domain register
within its bounds once it is in force, reserved bits of the binding table zero (R250), and every semaphore held by one of
the two ports (R252). -/
def State.registersLegal (s : State) : Bool :=
  decide (800 ≤ s.cap) && decide (s.cap ≤ 2700) && s.domain.legal
  && s.vfs.all (fun x => x.2 &&& 0x7FFFFC00 == 0)
  && s.sems.all (fun x => x.2 == 1 || x.2 == 2)

/-- The invariant of every step. -/
def State.Inv (s : State) : Prop := s.canonical = true ∧ s.mapsWf = true ∧ s.registersLegal = true

/-- A run of n steps that never stops. -/
def State.safeFor (s : State) (n : Nat) : Prop := ∃ t, Host.Core.run ⟨State, Fault, Refusal, step, State.reset⟩ n s = .next t

/-- No byte of any memory differs: of a die's own memory or of the host's behind its port. -/
def State.sameMemory (s t : State) : Prop :=
  ∀ (d : Nat) (host : Bool) (a : Nat), (((t.die d).memOf host).read a) = (((s.die d).memOf host).read a)

/-- The state but for the group at a place, which now is `g`, and the turn, which is over. -/
def State.wrote (s : State) (p : Nat) (g : Group) : State := (s.setGrp p g).endTurn

/-- It is the turn of the group g at place p to issue the word i, which names the vector registers vs, and none of the
checks of R195 that precede a meaning stops it: the word is legal, allowed to this group, and within its budget. -/
structure State.Issues (s : State) (p : Nat) (g : Group) (i : Instr) (vs : List Nat) : Prop where
  turn : s.cur = some p
  here : s.grp p = some g
  legal : i.wf = true
  stream : g.kind = .reel → g.inTrap = false → reelAllows i = true
  mode : isPrivileged i = true → g.privileged = true
  budget : ∀ r ∈ vs, r < g.regs

end Sys2Proof.Machine
end

