-- ==== Sys2Proof/Claims.lean ====
section
/-!
DEFINITION. The words of the claims: what the reference entries say of the value that each arithmetic word gives a lane, stated apart
from the functions that compute it.
-/
namespace Sys2Proof.Machine

/-! ## Arithmetic words -/

/-- An arithmetic word as its reference entry describes it: whether it may run uniformly (R26) and whether it is of class L,
its destination and its width, its sources, and the relation between all lanes' sources, and a lane's result and flags. -/
structure Alu where
  h : Hdr
  uc : Bool
  long : Bool
  d : Opd
  dw : Bool
  xs : List SrcOp
  rel : Group → Nat → (Nat → List Nat) → Nat → Flags → Prop

/-- It runs once, on s registers and zeros only. -/
def Alu.uniform (a : Alu) : Bool := isUniform a.uc a.d a.xs

/-- The lanes that compute: lane 0 alone, or the threads of E (R26, R30). -/
def Alu.mask (a : Alu) (g : Group) : Mask := if a.uniform then 1 else g.exec a.h.guard

/-- The vector registers it names. -/
def Alu.regs (a : Alu) : List Nat := opdRegs a.d (if a.dw then 2 else 1) ++ (a.xs.map SrcOp.regs).flatten

/-- The queues it names as sources, and as destination. -/
def Alu.popsOf (a : Alu) : List Nat := queuesOf (a.xs.map (·.o))
def Alu.pushesTo (a : Alu) : List Nat := queuesOf [a.d]

/-- It names no queue (R242). -/
def Alu.noQueue (a : Alu) : Prop := a.popsOf = [] ∧ a.pushesTo = []

/-- The values of its sources in a lane. -/
def Alu.inputs (a : Alu) (g : Group) (pops : Popped) (i : Nat) : List Nat := a.xs.map (g.read pops i)

/-- The register writes of the lanes' results. -/
def Alu.writes (a : Alu) (g : Group) (val : Nat → Nat) : List Wr :=
  ((maskLanes (a.mask g)).map (fun i => dstWr i a.d a.dw (val i))).flatten

/-- The flags it raises: of a uniform word its own, else those of the threads of A (R43). -/
def Alu.flags (a : Alu) (g : Group) (fl : Nat → Flags) : Flags :=
  if a.uniform then fl 0 else laneFlags g.act ((maskLanes (a.mask g)).map (fun i => (i, fl i)))

/-- The group after it: flags raised; registers written at once, or left for the window of a class-L word; on at the next
slot. Nothing else of the group differs. -/
def Alu.after (a : Alu) (g : Group) (val : Nat → Nat) (fl : Nat → Flags) : Group :=
  let g1 := g.raise (a.flags g fl)
  (if a.long then g1.leave a.h.sched.la (a.writes g val) else g1.wrs (a.writes g val)).issued a.h.sched g.lpend.length g.npc

/-- The lanes' results are what the reference entry says. -/
def Alu.right (a : Alu) (g : Group) (pops : Popped) (val : Nat → Nat) (fl : Nat → Flags) : Prop :=
  ∀ i, (a.mask g).getLsbD i = true → a.rel g i (a.inputs g pops) (val i) (fl i)

/-! ## Values of the integer words -/

/-- A result without flags, from one, two or three sources of the lane. -/
def rel1 (f : Nat → Nat → Prop) : Group → Nat → (Nat → List Nat) → Nat → Flags → Prop :=
  fun _ i v r fl => f (s0 (v i)) r ∧ fl = 0
def rel2 (f : Nat → Nat → Nat → Prop) : Group → Nat → (Nat → List Nat) → Nat → Flags → Prop :=
  fun _ i v r fl => f (s0 (v i)) (s1 (v i)) r ∧ fl = 0
def rel3 (f : Nat → Nat → Nat → Nat → Prop) : Group → Nat → (Nat → List Nat) → Nat → Flags → Prop :=
  fun _ i v r fl => f (s0 (v i)) (s1 (v i)) (s2 (v i)) r ∧ fl = 0

/-- Element k of a packed value. -/
def elemAt (t : Ty) (x k : Nat) : Int := intOf t (x / 2 ^ (tyWidth t * k))

/-- Every packed element of the result stands in a relation to those of the sources. -/
def Elems (t : Ty) (f : Int → Int → Int → Prop) (a b r : Nat) : Prop :=
  r < 2 ^ (tyWidth t * packs t) ∧ ∀ k, k < packs t → f (elemAt t a k) (elemAt t b k) (elemAt t r k)

/-- Equal modulo 2^width. -/
def Wraps (t : Ty) (x z : Int) : Prop := (z - x) % (2 ^ tyWidth t : Int) = 0

/-- Saturated to the type's range, or wrapped (R345). -/
def Fits (t : Ty) (sat : Bool) (x z : Int) : Prop := if sat then z = min (max x (tyMin t)) (tyMax t) else Wraps t x z

/-- A register word of two sources of the type's width. -/
def aluR2 (h : Hdr) (r : RForm) (f : Nat → Nat → Nat → Prop) : Alu where
  h := h
  uc := true
  long := false
  d := r.d
  dw := r.ty.is64
  xs := [src r.a r.ty.is64 r.ma, src r.b r.ty.is64 r.mb]
  rel := rel2 f

/-- An immediate word: I stands in the place of source B, sign-extended in a 64-bit form (R277). -/
def aluImm (h : Hdr) (r : IForm) (f : Ty → Nat → Nat → Nat → Prop) : Alu where
  h := h
  uc := true
  long := false
  d := r.d
  dw := r.w
  xs := [src r.a r.w .none]
  rel := rel1 (fun a z => f (if r.w then .n64 else .n32) a (if r.w then (r.imm.signExtend 64).toNat else r.imm.toNat) z)

/-- The four byte products of `IDP4`; under `.mix` b is read with the opposite signedness (R347). -/
def dotRel (signedA signedB : Bool) (a b c r : Nat) : Prop :=
  let x (sg : Bool) (v k : Nat) : Int := elemAt (if sg then .i8 else .n8) v k
  r < 2 ^ 32 ∧ Wraps .n32 (c + x signedA a 0 * x signedB b 0 + x signedA a 1 * x signedB b 1
    + x signedA a 2 * x signedB b 2 + x signedA a 3 * x signedB b 3) r

/-- The add family and the products (R345, R347), and `LEA` (R354). -/
def arithRow : Instr → Option Alu
  | .iadd h r => some (aluR2 h r (Elems r.ty (fun x y z => Fits r.ty (r.sub == 1) (x + y) z)))
  | .isub h r => some (aluR2 h r (Elems r.ty (fun x y z => Fits r.ty (r.sub == 1) (x - y) z)))
  | .imin h r => some (aluR2 h r (Elems r.ty (fun x y z => z = min x y)))
  | .imax h r => some (aluR2 h r (Elems r.ty (fun x y z => z = max x y)))
  | .iabs h r => some { aluR2 h r (fun _ _ _ => True) with
      xs := [src r.a r.ty.is64 r.ma]
      rel := rel1 (fun a z => Elems r.ty (fun x _ z => Fits r.ty (r.sub == 1) (if x < 0 then -x else x) z) a 0 z) }
  | .imul h r => some (aluR2 h r (Elems r.ty (fun x y z => Wraps r.ty (x * y) z)))
  | .imulh h r => some (aluR2 h r (Elems r.ty (fun x y z =>
      z * 2 ^ tyWidth r.ty ≤ x * y ∧ x * y < (z + 1) * 2 ^ tyWidth r.ty)))
  | .imad h r => some { aluR2 h r (fun _ _ _ => True) with
      xs := [src r.a r.ty.is64 r.ma, src r.b r.ty.is64 r.mb, src r.c r.ty.is64 .none]
      rel := rel3 (fun a b c z => z < 2 ^ tyWidth r.ty ∧ Wraps r.ty (elemAt r.ty a 0 * elemAt r.ty b 0 + elemAt r.ty c 0) z) }
  | .idp4 h r => some { aluR2 h r (fun _ _ _ => True) with
      dw := false
      xs := [src r.a false r.ma, src r.b false r.mb, src r.c false .none]
      rel := rel3 (dotRel (r.ty == .i8) ((r.ty == .i8) != (r.sub == 1))) }
  | .iaddImm h r => some (aluImm h r (fun t => Elems t (fun x y z => Wraps t (x + y) z)))
  | .isubImm h r => some (aluImm h r (fun t => Elems t (fun x y z => Wraps t (x - y) z)))
  | .imulImm h r => some (aluImm h r (fun t => Elems t (fun x y z => Wraps t (x * y) z)))
  | .lea h r => some { aluR2 h r (fun _ _ _ => True) with
      dw := true
      xs := [src r.a true r.ma, src r.b false r.mb]
      rel := rel2 (fun a b z => z < 2 ^ 64 ∧
        Wraps .n64 (a + (if r.ty = .i64 then elemAt .i32 b 0 else (b : Int)) * 2 ^ r.sub.toNat) z) }
  | _ => none

/-- Every bit below n of the result is a function of its place. -/
def Bits (n r : Nat) (f : Nat → Bool) : Prop := r < 2 ^ n ∧ ∀ k, k < n → r.testBit k = f k

/-- The logic functions of one bit, by code (R355). -/
def logicBit (f : Nat) (a b : Bool) : Bool := match f with
  | 0 => a && b
  | 1 => a || b
  | 2 => a != b
  | 3 => a && !b
  | 4 => a || !b
  | 5 => a == b
  | 6 => !(a && b)
  | _ => !(a || b)

/-- Bit k of a value of n bits that is extended without limit, with its sign or with zeros. -/
def extBit (sg : Bool) (n a k : Nat) : Bool := if k < n then a.testBit k else sg && a.testBit (n - 1)

def shlRel (n a amount r : Nat) : Prop := Bits n r (fun k => decide (amount ≤ k) && a.testBit (k - amount))
def shrRel (sg : Bool) (n a amount r : Nat) : Prop := Bits n r (fun k => extBit sg n a (k + amount))

/-- The field of len bits from pos, extended (R310). -/
def bfxRel (sg : Bool) (n a pos len r : Nat) : Prop :=
  Bits n r (fun k => if k < len then extBit sg n a (pos + k) else sg && decide (0 < len) && extBit sg n a (pos + len - 1))

/-- The field of len bits from pos taken from A, the rest from B (R309). -/
def bfiRel (n a b pos len r : Nat) : Prop :=
  Bits n r (fun k => if pos ≤ k ∧ k < pos + len then a.testBit (k - pos) else b.testBit k)

/-- The number of zero bits that lead, or of bits below the sign that equal it (R320). -/
def clzRel (sg : Bool) (n a r : Nat) : Prop :=
  let top := if sg then n - 1 else n
  let lead := sg && a.testBit (n - 1)
  r ≤ top ∧ (∀ k, k < top → top - r ≤ k → a.testBit k = lead) ∧ (r < top → a.testBit (top - r - 1) = !lead)

/-- Byte k of the result of `BPERM` (R313). -/
def permByte (a b c k : Nat) : Nat :=
  let e := c / 16 ^ k % 16
  let x := (if e % 8 < 4 then a / 256 ^ (e % 4) else b / 256 ^ (e % 4)) % 256
  if e < 8 then x else if x < 128 then 0 else 255

/-- Logic, shifts and bit fields (R309, R310, R313, R316, R320, R355, R372, R381). -/
def bitRow : Instr → Option Alu
  | .logic h r => some (aluR2 h r (fun a b z => Bits (tyWidth r.ty) z (fun k => logicBit r.sub.toNat (a.testBit k) (b.testBit k))))
  | .logicImm h f r => some (aluImm h r (fun t a b z => Bits (tyWidth t) z (fun k => logicBit f.toNat (a.testBit k) (b.testBit k))))
  | .shl h r => some { aluR2 h r (fun _ _ _ => True) with
      xs := [src r.a r.ty.is64 r.ma, src r.b false r.mb]
      rel := rel2 (fun a b z => shlRel (tyWidth r.ty) a (b % 256) z) }
  | .shr h r => some { aluR2 h r (fun _ _ _ => True) with
      xs := [src r.a r.ty.is64 r.ma, src r.b false r.mb]
      rel := rel2 (fun a b z => shrRel (tySigned r.ty) (tyWidth r.ty) a (b % 256) z) }
  | .shlImm h r => some (aluImm h r (fun t a _ z => shlRel (tyWidth t) a r.imm.toNat z))
  | .shrImmLogical h r => some (aluImm h r (fun t a _ z => shrRel false (tyWidth t) a r.imm.toNat z))
  | .shrImmArith h r => some (aluImm h r (fun t a _ z => shrRel true (tyWidth t) a r.imm.toNat z))
  | .bfx h r => some { aluR2 h r (fun _ _ _ => True) with
      xs := [src r.a r.ty.is64 r.ma, src r.b false r.mb, src r.c false .none]
      rel := rel3 (fun a b c z => bfxRel (tySigned r.ty) (tyWidth r.ty) a (b % 256) (min (c % 256) (tyWidth r.ty)) z) }
  | .bfi h r => some { aluR2 h r (fun _ _ _ => True) with
      xs := [src r.a r.ty.is64 r.ma, src r.b r.ty.is64 r.mb, src r.c false .none]
      rel := rel3 (fun a b c z => bfiRel (tyWidth r.ty) a b (c % 256) (min (c / 256 % 256) (tyWidth r.ty)) z) }
  | .popc h r => some { aluR2 h r (fun _ _ _ => True) with
      dw := false
      xs := [src r.a r.ty.is64 r.ma]
      rel := rel1 (fun a z => z = ((List.range (tyWidth r.ty)).filter a.testBit).length) }
  | .clz h r => some { aluR2 h r (fun _ _ _ => True) with
      dw := false
      xs := [src r.a r.ty.is64 r.ma]
      rel := rel1 (clzRel (tySigned r.ty) (tyWidth r.ty)) }
  | .brev h r => some { aluR2 h r (fun _ _ _ => True) with
      xs := [src r.a r.ty.is64 r.ma]
      rel := rel1 (fun a z => Bits (tyWidth r.ty) z (fun k => a.testBit (tyWidth r.ty - 1 - k))) }
  | .bperm h r => some { aluR2 h r (fun _ _ _ => True) with
      dw := false
      xs := [src r.a false r.ma, src r.b false r.mb, src r.c false .none]
      rel := rel3 (fun a b c z => z < 2 ^ 32 ∧ ∀ k, k < 4 → z / 256 ^ k % 256 = permByte a b c k) }
  | _ => none

/-- Element 0 of a 16-bit result in its destination half (R79, R356): the other half as it was, or zero where none is named. -/
def halfRel (half : DstHalf) (old x r : Nat) : Prop := match half with
  | .none => r = x % 2 ^ 16
  | .lo => r % 2 ^ 16 = x % 2 ^ 16 ∧ r / 2 ^ 16 = old / 2 ^ 16
  | .hi => r / 2 ^ 16 = x % 2 ^ 16 ∧ r % 2 ^ 16 = old % 2 ^ 16

/-- Moves and selection (R356, R379). -/
def moveRow : Instr → Option Alu
  | .mov h r => some { aluR2 h r (fun _ _ _ => True) with
      xs := [src r.a r.ty.is64 r.ma]
      rel := fun g i v z fl => fl = 0 ∧ (if r.ty = .n16 then halfRel r.half (g.old i r.d) (s0 (v i)) z else z = s0 (v i)) }
  | .movi h r => some { aluImm h r (fun _ _ _ _ => True) with
      xs := []
      rel := fun _ _ _ z fl => fl = 0 ∧ (if r.w then z < 2 ^ 64 ∧ Wraps .n64 r.imm.toInt z else z = r.imm.toNat) }
  | .sel h pc r => some { aluR2 h r (fun _ _ _ => True) with
      uc := false
      rel := fun g i v z fl => fl = 0 ∧ z = if (g.getP pc.toNat).getLsbD i then s0 (v i) else s1 (v i) }
  | _ => none

/-! ## Values of the float words -/

/-- A float result over its packing, from the results and flags of its elements: an f32 whole, two 16-bit elements, or under `.s`
element 0 alone in its destination half (R77, R79, R330). -/
def floatRel (r : RForm) (old : Nat) (f : Nat → Elem) (z : Nat) (fl : Flags) : Prop :=
  if r.ty.is16 then
    if r.sub = 1 then halfRel r.half old (f 0).1 z ∧ fl = (f 0).2
    else z = (f 0).1 % 2 ^ 16 + (f 1).1 % 2 ^ 16 * 2 ^ 16 ∧ fl = (f 0).2 ||| (f 1).2
  else z = (f 0).1 ∧ fl = (f 0).2

/-- Element k of a float source. -/
def fElem (t : Ty) (x k : Nat) : Nat := if t.is16 then x / 2 ^ (16 * k) % 2 ^ 16 else x % 2 ^ 32

/-- A float word of one, two or three sources. -/
def aluF (h : Hdr) (r : RForm) (xs : List SrcOp) (f : Rm → (Nat → Nat) → Nat → Elem) : Alu where
  h := h
  uc := true
  long := false
  d := r.d
  dw := false
  xs := xs
  rel := fun g i v z fl => floatRel r (g.old i r.d) (fun k => f (Rm.of g.frm) (fun j => (v i).getD j 0) k) z fl

def aluF2 (h : Hdr) (r : RForm) (f : Fmt → Rm → Nat → Nat → Elem) : Alu :=
  aluF h r [src r.a false r.ma, src r.b false r.mb]
    (fun rm v k => f (Fmt.ofTy r.ty) rm (fElem r.ty (v 0) k) (fElem r.ty (v 1) k))

/-- A function form: class L, never uniform (R339). -/
def aluFn (fn : Fn) (h : Hdr) (r : RForm) : Alu :=
  { aluF h r [src r.a false r.ma] (fun rm v k => fnElem fn (Fmt.ofTy r.ty) rm (fElem r.ty (v 0) k)) with
    uc := false, long := true }

/-- Element k of width n of the result is x, the others are as they were (R332). -/
def elemRel (n k old x z : Nat) : Prop :=
  z / 2 ^ (n * k) % 2 ^ n = x % 2 ^ n ∧ ∀ j, (j < n * k ∨ n * k + n ≤ j) → z.testBit j = old.testBit j

/-- A conversion word. -/
def aluC (h : Hdr) (r : CForm) (f : Rm → Nat → Nat → Nat → Flags → Prop) : Alu where
  h := h
  uc := true
  long := false
  d := r.d
  dw := r.dt.is64
  xs := [src r.a r.st.is64 r.ma]
  rel := fun g i v z fl => f (Rm.of g.frm) (g.old i r.d) (s0 (v i)) z fl

/-- The mode that `FRND`'s sub-form names; 0 is `frm` (R331). -/
def frndRm (rm : Rm) (sub : BitVec 3) : Rm := if sub = 0 then rm else Rm.of (BitVec.ofNat 2 (sub.toNat - 1))

/-- The float words (R329 to R342). -/
def floatRow : Instr → Option Alu
  | .fadd h r => some (aluF2 h r fAdd)
  | .fmul h r => some (aluF2 h r fMul)
  | .fmin h r => some (aluF2 h r (fun f _ => fMinMax f false))
  | .fmax h r => some (aluF2 h r (fun f _ => fMinMax f true))
  | .ffma h r => some (aluF h r [src r.a false r.ma, src r.b false r.mb, src r.c false .none]
      (fun rm v k => fFma (Fmt.ofTy r.ty) rm (fElem r.ty (v 0) k) (fElem r.ty (v 1) k) (fElem r.ty (v 2) k)))
  | .fdot2 h r => some { aluF2 h r fAdd with
      xs := [src r.a false r.ma, src r.b false r.mb, src r.c false .none]
      rel := fun g i v z fl =>
        z = (fDot2 (Fmt.ofTy r.ty) (Rm.of g.frm) (s0 (v i)) (s1 (v i)) (s2 (v i))).1
        ∧ fl = (fDot2 (Fmt.ofTy r.ty) (Rm.of g.frm) (s0 (v i)) (s1 (v i)) (s2 (v i))).2 }
  | .frcp h r => some (aluFn .rcp h r)
  | .frsq h r => some (aluFn .rsq h r)
  | .fsqrt h r => some (aluFn .sqrt h r)
  | .fexp2 h r => some (aluFn .exp2 h r)
  | .flog2 h r => some (aluFn .log2 h r)
  | .fsin h r => some (aluFn .sin h r)
  | .fcos h r => some (aluFn .cos h r)
  | .ftanh h r => some (aluFn .tanh h r)
  | .fscale h r => some (aluF h r [src r.a false r.ma, src r.b false r.mb]
      (fun rm v k => fScale (Fmt.ofTy r.ty) rm (fElem r.ty (v 0) k) (intOf .i32 (v 1))))
  | .fmaxe h r => some { aluF2 h r fAdd with
      rel := rel2 (fun a b z => z < 2 ^ 32 ∧ intOf .i32 z = max (intOf .i32 a) (expOf (Fmt.ofTy r.ty) (fElem r.ty b 0))) }
  | .frnd h r => some (aluF h { r with sub := 0 } [src r.a false r.ma]
      (fun rm v k => fRnd (Fmt.ofTy r.ty) (frndRm rm r.sub) (fElem r.ty (v 0) k)))
  | .fclass h r => some { aluF2 h r fAdd with
      xs := [src r.a false r.ma]
      rel := rel1 (fun a z => z = 2 ^ fClass (Fmt.ofTy r.ty) (a % 2 ^ tyWidth r.ty)) }
  | .fcvt h r => some { aluC h r (fun rm old a z fl =>
        elemRel (tyWidth r.dt) r.k.toNat old (fCvt r.dt r.st rm (a % 2 ^ tyWidth r.st)).1 z
        ∧ fl = (fCvt r.dt r.st rm (a % 2 ^ tyWidth r.st)).2) with dw := false, xs := [src r.a false r.ma] }
  | .f2i h r => some { aluC h r (fun rm _ a z fl =>
        let y := f2i r.dt rm (unpackTy r.st (a % 2 ^ tyWidth r.st))
        z < 2 ^ (if r.dt.is64 then 64 else 32) ∧ (z - y.1) % (2 ^ (if r.dt.is64 then 64 else 32) : Int) = 0 ∧ fl = y.2) with
      xs := [src r.a false r.ma] }
  | .i2f h r => some { aluC h r (fun rm old a z fl =>
        elemRel (tyWidth r.dt) r.k.toNat old (i2f r.dt rm (intOf r.st a)).1 z ∧ fl = (i2f r.dt rm (intOf r.st a)).2) with
      dw := false }
  | _ => none

/-! ## Values of the cross-lane words -/

/-- The lane whose value a thread of `SHFL` receives: an exact number modulo 32 (R380). -/
def shflFrom (mode : BitVec 3) (i n : Nat) : Nat :=
  if mode = 0 then n % 32
  else if mode = 1 then (((i : Int) - n) % 32).toNat
  else if mode = 2 then (((i : Int) + n) % 32).toNat
  else (i ^^^ n) % 32

/-- The member of the quad that member k of `QSWAP` receives (R375). -/
def quadFrom (mode : BitVec 3) (k : Nat) : Nat :=
  if mode = 0 then k ^^^ 1 else if mode = 1 then k ^^^ 2 else if mode = 2 then k ^^^ 3 else mode.toNat - 3

/-- The members whose values `QDIFF` subtracts (R375). -/
def quadDiff (dir : BitVec 3) (k : Nat) : Nat × Nat :=
  if dir = 0 then (k ||| 1, k &&& 2) else if dir = 1 then (k ||| 2, k &&& 1) else if dir = 2 then (1, 0) else (2, 0)

/-- The cross-lane words that read other lanes' registers (R375, R376, R380). -/
def laneRow : Instr → Option Alu
  | .shfl h r => some { aluR2 h r (fun _ _ _ => True) with
      uc := false
      long := true
      xs := [src r.a r.ty.is64 r.ma, src r.b false r.mb]
      rel := fun _ i v z fl => fl = 0 ∧ z = s0 (v (shflFrom r.sub i (s1 (v i)))) }
  | .qswap h r => some { aluR2 h r (fun _ _ _ => True) with
      uc := false
      long := true
      xs := [src r.a r.ty.is64 r.ma]
      rel := fun _ i v z fl => fl = 0 ∧ z = s0 (v (i / 4 * 4 + quadFrom r.sub (i % 4))) }
  | .qdiff h r => some { aluR2 h r (fun _ _ _ => True) with
      uc := false
      long := true
      dw := false
      xs := [src r.a false r.ma]
      rel := fun g i v z fl => floatRel { r with sub := 0 } 0 (fun k => fSub (Fmt.ofTy r.ty) (Rm.of g.frm)
        (fElem r.ty (s0 (v (i / 4 * 4 + (quadDiff r.sub (i % 4)).1))) k)
        (fElem r.ty (s0 (v (i / 4 * 4 + (quadDiff r.sub (i % 4)).2))) k)) z fl }
  | _ => none

/-- Every arithmetic word. -/
def aluRow (i : Instr) : Option Alu :=
  (arithRow i).or ((bitRow i).or ((moveRow i).or ((floatRow i).or (laneRow i))))

/-- A cross-lane word whose result gathers the participants: destination and width, the registers it names besides, and
the relation of a lane's value to the group, the threads of E and those that take part. -/
structure Gather where
  h : Hdr
  d : Opd
  dw : Bool
  vs : List Nat
  rel : Group → Mask → Nat → Nat → Prop
  fl : Group → Mask → Flags

/-- A group's reduction of integers over the participants up to a lane (R358). -/
def redRel (t : Ty) (op : Nat) (xs : List Nat) (z : Nat) : Prop :=
  z < 2 ^ tyWidth t ∧ (match op with
    | 0 => z = xs.sum % 2 ^ tyWidth t
    | 1 => if xs = [] then intOf t z = tyMax t else (∃ x ∈ xs, intOf t x = intOf t z) ∧ ∀ x ∈ xs, intOf t z ≤ intOf t x
    | 2 => if xs = [] then intOf t z = tyMin t else (∃ x ∈ xs, intOf t x = intOf t z) ∧ ∀ x ∈ xs, intOf t x ≤ intOf t z
    | 3 => ∀ k, k < tyWidth t → (z.testBit k = true ↔ ∀ x ∈ xs, x.testBit k = true)
    | 4 => ∀ k, k < tyWidth t → (z.testBit k = true ↔ ∃ x ∈ xs, x.testBit k = true)
    | _ => ∀ k, k < tyWidth t → (z.testBit k = decide ((xs.filter (fun x => x.testBit k)).length % 2 = 1)))

/-- The participants' values in lanes up to n. -/
def partVals (g : Group) (e : Mask) (x : SrcOp) (n : Nat) : List Nat :=
  ((lanes.filter (fun j => (parts g e).getLsbD j && decide (j ≤ n))).map (fun j => g.read [] j x))

def isFloatTy (t : Ty) : Bool := t == .f32 || t == .f16 || t == .bf16

/-- `LRED` and `LSCAN`: integers by their mathematical result; floats in the fixed order of R358. -/
def redGather (h : Hdr) (r : RForm) (scan : Bool) : Gather where
  h := h
  d := r.d
  dw := r.ty.is64
  vs := (src r.a r.ty.is64 r.ma).regs
  rel := fun g e i z =>
    if isFloatTy r.ty then z = (redLanes (if scan then lscanStep else lredStep) r g e).1 (if scan then i else 0)
    else redRel r.ty r.sub.toNat (partVals g e (src r.a r.ty.is64 r.ma) (if scan then i else 31)) z
  fl := fun g e => if e = 0 ∨ isFloatTy r.ty = false then 0 else (redLanes (if scan then lscanStep else lredStep) r g e).2

/-- Ballots, counts, matches, reductions and scans (R307, R357 to R359). -/
def gatherRow : Instr → Option Gather
  | .ballot h d pa => some {
      h := h, d := d, dw := false, vs := [], fl := fun _ _ => 0
      rel := fun g e _ z => Bits 32 z (fun j => (parts g e).getLsbD j && (g.getP pa.toNat).getLsbD j) }
  | .mpopc h mode d pa => some {
      h := h, d := d, dw := false, vs := [], fl := fun _ _ => 0
      rel := fun g e i z => z = (lanes.filter (fun j => (parts g e).getLsbD j && (g.getP pa.toNat).getLsbD j
        && (if mode = 0 then decide (j < i) else if mode = 1 then decide (j ≤ i) else true))).length }
  | .matchEq h r => some {
      h := h, d := r.d, dw := false, vs := (src r.a r.ty.is64 r.ma).regs, fl := fun _ _ => 0
      rel := fun g e i z => Bits 32 z (fun j => (parts g e).getLsbD j
        && g.read [] j (src r.a r.ty.is64 r.ma) == g.read [] i (src r.a r.ty.is64 r.ma)) }
  | .lred h r => some (redGather h r false)
  | .lscan h r => some (redGather h r true)
  | _ => none

/-- What it leaves for its window: once for an s destination, for each thread of E for a v one; nothing with E empty (R42). -/
def Gather.writes (a : Gather) (e : Mask) (val : Nat → Nat) : List Wr :=
  if e = 0 then []
  else match a.d with
    | .s _ => dstWr 0 a.d a.dw (val 0)
    | _ => ((maskLanes e).map (fun i => dstWr i a.d a.dw (val i))).flatten

def Gather.after (a : Gather) (g : Group) (val : Nat → Nat) : Group :=
  ((g.raise (a.fl g (g.exec a.h.guard))).leave a.h.sched.la (a.writes (g.exec a.h.guard) val)).issued
    a.h.sched g.lpend.length g.npc

/-! ## Predicates -/

/-- A word that writes a predicate in the threads of E: its predicate, its sources, and the truth value and flags of a lane. -/
structure PredW where
  h : Hdr
  pd : BitVec 3
  xs : List SrcOp
  rel : Group → Nat → List Nat → Bool → Flags → Prop

/-- The conditions of `ICMP` by code (R346). -/
def condHolds (c : BitVec 3) (a b : Int) : Bool :=
  if c = 0 then a == b else if c = 1 then a != b else if c = 2 then decide (a < b) else if c = 3 then decide (a ≤ b)
  else if c = 4 then decide (a > b) else decide (a ≥ b)

/-- Compares (R336, R346). -/
def predRow : Instr → Option PredW
  | .icmp h r => some {
      h := h, pd := r.pd, xs := [src r.a r.ty.is64 r.ma, src r.b r.ty.is64 r.mb]
      rel := fun _ _ v b fl => fl = 0 ∧ b = condHolds r.cond (intOf r.ty (s0 v)) (intOf r.ty (s1 v)) }
  | .icmpImm h pd cond sg r => some {
      h := h, pd := pd, xs := [src r.a r.w .none]
      rel := fun _ _ v b fl => fl = 0 ∧ b = (
        let t : Ty := if r.w then (if sg then .i64 else .n64) else (if sg then .i32 else .n32)
        condHolds cond (intOf t (s0 v)) (intOf t (if r.w then (r.imm.signExtend 64).toNat else r.imm.toNat))) }
  | .fcmp h r => some {
      h := h, pd := r.pd, xs := [src r.a false r.ma, src r.b false r.mb]
      rel := fun _ _ v b fl =>
        b = (fCmp (Fmt.ofTy r.ty) r.cond.toNat (fElem r.ty (s0 v) 0) (fElem r.ty (s1 v) 0)).1
        ∧ fl = (fCmp (Fmt.ofTy r.ty) r.cond.toNat (fElem r.ty (s0 v) 0) (fElem r.ty (s1 v) 0)).2 }
  | _ => none

/-- A predicate's writes of a word that leaves them for its window: one per thread of e, since each thread holds its own predicate and
may see its write early (R6, R267, R268). -/
def eachP (n : Nat) (e v : Mask) : List Wr := (maskLanes e).map (fun i => .p n (1#32 <<< i) v)

/-- What it writes: the predicate in the threads of E, and the flags of the threads of A. -/
def PredW.after (a : PredW) (g : Group) (vals : Mask) (fl : Nat → Flags) : Group :=
  ((g.raise (laneFlags g.act ((maskLanes (g.exec a.h.guard)).map (fun i => (i, fl i))))).setP a.pd.toNat (g.exec a.h.guard) vals).issued
    a.h.sched g.lpend.length g.npc

def PredW.right (a : PredW) (g : Group) (pops : Popped) (vals : Mask) (fl : Nat → Flags) : Prop :=
  ∀ i, (g.exec a.h.guard).getLsbD i = true → a.rel g i (a.xs.map (g.read pops i)) (vals.getLsbD i) (fl i)

/-! ## Dual words -/

/-- The full word a half stands for: D and A are its d, B is its s; `MOV` copies s (R285). -/
def halfWord (x : HalfW) : Option Instr :=
  let h : Hdr := { sched := Sched.ofBits 0, guard := { neg := false, p := 0 } }
  let r : RForm := { ty := x.ty, sub := 0, half := .none, d := .v x.d, a := .v x.d, b := .v x.s, c := .zero, ma := .none, mb := x.m }
  match x.op with
  | .nop => none
  | .iadd => some (.iadd h r)
  | .isub => some (.isub h r)
  | .imul => some (.imul h r)
  | .imin => some (.imin h r)
  | .imax => some (.imax h r)
  | .land => some (.logic h { r with sub := 0 })
  | .lor => some (.logic h { r with sub := 1 })
  | .lxor => some (.logic h { r with sub := 2 })
  | .shl => some (.shl h r)
  | .shr => some (.shr h r)
  | .mov => some (.mov h { r with a := .v x.s, b := .zero, mb := .none })
  | .fadd => some (.fadd h r)
  | .fmul => some (.fmul h r)
  | .fmin => some (.fmin h r)
  | .fmax => some (.fmax h r)
  | .fscale => some (.fscale h r)
  | .fmaxe => some (.fmaxe h r)

/-- A half's register writes and flags from the registers at issue, as its full word gives them. -/
def halfRight (x : HalfW) (g : Group) (ws : List Wr) (fl : Flags) : Prop :=
  match (halfWord x).bind aluRow with
  | none => ws = [] ∧ fl = 0
  | some a => ∃ val f, a.right g [] val f ∧ ws = a.writes g val ∧ fl = a.flags g f

/-- What a vote finds over the threads e of the predicate v: every thread's holds, some thread's holds, or all agree (R402). -/
def voteHolds (mode : BitVec 3) (e v : Mask) : Prop :=
  if mode = 0 then ∀ i, e.getLsbD i = true → v.getLsbD i = true
  else if mode = 1 then ∃ i, e.getLsbD i = true ∧ v.getLsbD i = true
  else ∀ i j, e.getLsbD i = true → e.getLsbD j = true → v.getLsbD i = v.getLsbD j

/-! ## Control -/

/-- The threads of A whose guard holds (R34). -/
def takenBy (g : Group) (x : Guard) : Mask := g.act &&& g.guard x

/-- The group goes on at an address. -/
def Group.at (g : Group) (h : Hdr) (n : Nat) (pc : DWord) : Group := g.issued h.sched n pc

/-- A trap that a word raises at itself. -/
def State.trapsAt (s : State) (p : Nat) (g : Group) (c : Cause) (info : DWord) : State :=
  s.endTurn.takeTrap p { cause := c, info := info, pc := g.pc }

/-- Joining at a slot: the other side runs, or the threads of M that live meet and go on (R35). -/
def joined (g : Group) (j next : DWord) (g' : Group) (pc : DWord) : Prop :=
  ∃ e r, g.div = e :: r ∧ e.j = j ∧
    ((e.p ≠ 0 ∧ g' = { g with act := e.p, div := { e with p := 0 } :: r } ∧ pc = e.pp)
      ∨ (e.p = 0 ∧ g' = { g with act := e.m &&& g.live, div := r } ∧ pc = next))

/-- Threads that end leave L, A and the stack; those with a live thread in their quad become helpers, and helpers of quads
without one retire (R31, R32). -/
def ended (g g' : Group) (m : Mask) : Prop :=
  g'.live = g.live &&& ~~~m ∧ g'.act = g.act &&& ~~~m
  ∧ (∀ i, i < 32 → g'.help.getLsbD i
      = ((g.help.getLsbD i || (m.getLsbD i && g.live.getLsbD i)) && (List.range 4).any (fun k => g'.live.getLsbD (i / 4 * 4 + k))))
  ∧ g'.div = g.div.map (fun e => { e with m := e.m &&& ~~~m, p := e.p &&& ~~~m })
  ∧ g' = { g with live := g'.live, act := g'.act, help := g'.help, div := g'.div }

/-! ## Memory words -/

/-- Two byte ranges have no byte in common. -/
def Apart (a n b m : Nat) : Prop := a + n ≤ b ∨ b + m ≤ a ∨ n = 0 ∨ m = 0

/-- A range lock of the core that bears on a group's reads or writes: any range on a write, a destination on a read (R173). -/
def State.lockFor (s : State) (p : Nat) (g : Group) (write : Bool) (l : Lock) : Prop :=
  l ∈ (s.core (placeCore p)).locks ∧ l.ctx = g.ctx ∧ (write = true ∨ l.dst = true)

/-- No range lock forbids the bytes; those past the end of the addresses stand at 0. -/
def State.unlocked (s : State) (p : Nat) (g : Group) (write : Bool) (a n : Nat) : Prop :=
  ∀ l, s.lockFor p g write l → Apart a n l.lo l.len ∧ Apart 0 (a + n - 2 ^ 64) l.lo l.len

/-- A global access that passes the checks at issue (R114, R154, R173); its first and its last byte name every owner it has. -/
def State.accessOk (s : State) (p : Nat) (g : Group) (aligned write : Bool) (a n : Nat) : Prop :=
  (aligned = true → a % n = 0) ∧ s.owner a ≠ .bad ∧ s.owner ((a + n - 1) % 2 ^ 64) ≠ .bad ∧ s.unlocked p g write a n

/-- A stash access that passes them: within the gang's allocation, and none of its bytes bound to a global address that is locked
(R120, R123, R353, R384). -/
def State.stashOk (s : State) (p : Nat) (g : Group) (write : Bool) (a n : Nat) : Prop :=
  ∃ k, s.stashGang p g = some k ∧ a + n ≤ k.stashSize
    ∧ ∀ j va, j < n → k.tgt (a + j) = .glob va → ∀ l, s.lockFor p g write l → Apart va 1 l.lo l.len

/-- The address of a lane: base plus signed offset, modulo 2^64, or modulo 2^32 in stash (R278). -/
def memAddr (g : Group) (stash : Bool) (m : MForm) (i : Nat) : Nat :=
  (((g.read [] i (src m.a (!stash) .none) : Int) + m.off.toInt) % (2 ^ (if stash then 32 else 64) : Int)).toNat

/-- The threads an access word runs for, and those of them that are helpers; a uniform word runs once (R26, R32). -/
def memLanes (g : Group) (h : Hdr) (uni : Bool) : Mask := if uni then 1 else g.exec h.guard
def memHelpers (g : Group) (h : Hdr) (uni : Bool) : Mask := if uni then 0 else g.exec h.guard &&& g.help

/-- The threads of a mask that are not in another. -/
def others (e hs : Mask) : Mask := e &&& ~~~hs

/-- An outstanding instruction with nothing done. -/
def outstanding (s : State) (g : Group) (i : Instr) (todo help : Mask) (src : SMap Word) (res : List Wr) : POp where
  pc := g.pc
  instr := some i
  todo := todo
  help := help
  src := src
  frm := g.frm
  seq := s.seq
  parked := none
  faults := []
  res := res
  tab := none
  counted := []

/-- Zero in the destination of every thread of a mask. -/
def zeros (m : Mask) (d : Opd) (w64 : Bool) : List Wr := ((maskLanes m).map (fun i => dstWr i d w64 0)).flatten

/-- A word of the load kind issues: its tag stands for what it has still to do, and the group goes on (R156, R266). -/
def State.tagged (s : State) (p : Nat) (g : Group) (h : Hdr) (o : POp) : State :=
  s.tick.wrote p ((g.alloc h.sched.set.toNat o).at h g.lpend.length g.npc)

/-- A store enters the queue's end, with the tag it names (R156, R199); a release stands behind every earlier access of its group, any other
behind those before the group's last release fence (R158, R337). -/
def State.stored (s : State) (p : Nat) (g : Group) (h : Hdr) (k : SqKind) (ord : Order) (sc : Scope) (accs : List SqAcc) : State :=
  s.tick.wrote p (((g.allocAsync h.sched.set.toNat).enqueue {
    pc := g.pc, kind := k, ord := ord, scope := sc, accs := accs, tag := h.sched.set.toNat, frm := g.frm, seq := s.seq, parked := none
    after := if ord = .rel ∨ ord = .ar then s.seq else g.fence
    whole := wholeLines accs }).at h g.lpend.length g.npc)

/-- The state after a word whose accesses enter the store queue: they stand at its end, or, with nothing to store, its tag is free. -/
def State.queued (s : State) (p : Nat) (g : Group) (h : Hdr) (k : SqKind) (ord : Order) (sc : Scope) (accs : List SqAcc) : State :=
  if accs = [] then s.wrote p ((g.allocDone h.sched.set.toNat).at h g.lpend.length g.npc) else s.stored p g h k ord sc accs

/-- The accesses of a store word in lane order: address and the low bytes of the source, for each thread that is no helper. -/
def memStores (g : Group) (h : Hdr) (uni stash : Bool) (n : Nat) (a v : Nat → Nat) : List SqAcc :=
  (maskLanes (others (memLanes g h uni) (memHelpers g h uni))).map (fun i =>
    { lane := i, stash := stash, addr := BitVec.ofNat 64 (a i), width := n, data := BitVec.ofNat 64 (v i % 2 ^ (8 * n)), done := 0 })

/-- A loaded value of a width in its destination: extended with its sign, or with zeros (R351). -/
def loadedAs (w : LdW) (x r : Nat) : Prop := match w with
  | .i8 => r < 2 ^ 32 ∧ Wraps .n32 (intOf .i8 x) r
  | .i16 => r < 2 ^ 32 ∧ Wraps .n32 (intOf .i16 x) r
  | _ => r = x

/-- The number whose n bytes, lowest first, are given. -/
def BytesAre (n x : Nat) (f : Nat → Byte) : Prop := x < 256 ^ n ∧ ∀ k, k < n → x / 256 ^ k % 256 = (f k).toNat

/-- New value of an atomic operation: modulo 2^width, by the type's order, bit by bit; floats by their arithmetic (R302, R304). -/
def atomRel (op : AtomOp) (ty : Ty) (rm : Rm) (v x z : Nat) : Prop := match op with
  | .add => if ty = .f32 then z = (fAdd fmtF32 rm v x).1 else z < 2 ^ tyWidth ty ∧ Wraps ty (v + x) z
  | .min => if ty = .f32 then z = (fMinMax fmtF32 false v x).1
    else (z = v ∨ z = x) ∧ intOf ty z ≤ intOf ty v ∧ intOf ty z ≤ intOf ty x
  | .max => if ty = .f32 then z = (fMinMax fmtF32 true v x).1
    else (z = v ∨ z = x) ∧ intOf ty v ≤ intOf ty z ∧ intOf ty x ≤ intOf ty z
  | .and => ∀ k, z.testBit k = (v.testBit k && x.testBit k)
  | .or => ∀ k, z.testBit k = (v.testBit k || x.testBit k)
  | .xor => ∀ k, z.testBit k = (v.testBit k != x.testBit k)
  | .exch => z = x

/-! ## Homes -/

/-- The line of an address stands at its home on die d, in a context that is enabled, and its permissions allow the access (R117, R149). -/
structure State.Holds (s : State) (d ctx va : Nat) (acc : AccK) (hl : HomeLine) : Prop where
  owner : s.owner va = .die d
  enabled : (s.desc d ctx).en = true
  line : (s.die d).l2.find (lineKey ctx va) = some hl
  permits : hl.perm.permits acc = true
  known : hl.unknown = false

/-- A binding that R121 accepts for a gang. -/
def State.bindable (s : State) (c : Nat) (k : Gang) (b : Binding) : Prop :=
  b.o % 128 = 0 ∧ b.a.toNat % 128 = 0 ∧ b.n % 128 = 0 ∧ 128 ≤ b.n ∧ b.o + b.n ≤ k.stashSize ∧ k.binds.length < 8
  ∧ (∀ y ∈ k.binds, Apart y.o y.n b.o b.n ∧ Apart y.a.toNat y.n b.a.toNat b.n)
  ∧ ∀ x ∈ s.gangs, x.2.core = c → x.2 ≠ k → x.2.places ≠ [] → ∀ y ∈ x.2.binds, Apart y.a.toNat y.n b.a.toNat b.n

/-- The group that a gang's block of a request is read for: its loads are done, its queue is empty, and the block lies aligned in
the gang's stash, with no binding (R231, R312). -/
structure State.BlockAt (s : State) (p : Nat) (g : Group) (off : Nat) (b : Line) (k : Gang) : Prop where
  loads : ∀ t x o, (t, x) ∈ g.tags → x.op = some o → o.todo = 0 ∨ o.isPref = true
  queue : g.sq = []
  gang : s.stashGang p g = some k
  aligned : off % 128 = 0
  inside : off + 128 ≤ k.stashSize
  unbound : k.binds = []
  bytes : ∀ j, j < 128 → b.toNat / 256 ^ j % 256 = (Memory.read (s.core (placeCore p)).stash (k.stashBase + off + j)).toNat

/-! ## Tiles -/

/-- A header's fragment that R98, R101 and R102 accept, within the budget. -/
def fragOk (g : Group) (h : THdr) (res : Bool) : Prop :=
  h.consistent res = true ∧ h.loc = false ∧ h.fits = true ∧ h.sideOk = true ∧ h.over g.regs = none

/-- A source header that passes every check of R105. -/
def srcOk (g : Group) (n : BitVec 4) (res : Bool) : Prop := headerOk (g.getH n.toNat) = true ∧ fragOk g (g.thdr n) res

/-- Register r is of the run, of the side data, or of the outlier list of a fragment (R101, R102). -/
def THdr.inFrag (h : THdr) (r : Nat) : Prop := (h.base ≤ r ∧ r < h.base + h.runRegs) ∨ (h.sbase ≤ r ∧ r < h.sbase + h.sideRegs)

/-- The run and the side data share no register. -/
def THdr.apart (h : THdr) : Prop := h.base + h.runRegs ≤ h.sbase ∨ h.sbase + h.sideRegs ≤ h.base ∨ h.sideRegs = 0

/-- Every write is one to a v register of the fragment, in one of the 32 lanes. -/
def onlyFrag (h : THdr) (ws : List Wr) : Prop := ∀ w ∈ ws, ∃ r i x, w = .v r i x ∧ h.inFrag r ∧ i < 32

/-- A tile word's end: its destination header at once, its registers at the window (R108). -/
def State.tiled (s : State) (p : Nat) (g : Group) (h : Hdr) (hd : BitVec 4) (d : Header) (ws : List Wr) (used : Nat) : State :=
  { s with fresh := s.fresh + used }.wrote p (((g.setH hd.toNat d).leave h.sched.la ws).at h g.lpend.length g.npc)

/-- An element of a fragment, as stored. -/
def cellRaw (f : Frag) (row col : Nat) : Nat := f.raw (f.h.at_ row col).1 (f.h.at_ row col).2

/-- What an element is where a tile word moves it: e3m2 without bits 7:6, res48 with each residue reduced by its modulus (R69, R73). -/
def movedAs (t : Ty) (x y : Nat) : Prop := match t with
  | .e3m2 => y = x % 2 ^ 6
  | .res48 => y < 2 ^ 48 ∧ ∀ n m, (n, m) ∈ [(0, resA), (16, resB), (32, resC)] → y / 2 ^ n % 2 ^ 16 = x / 2 ^ n % 2 ^ 16 % m
  | _ => y = x

/-! ## System words -/

/-- When `CSRW` writes: `frm`; `fflags` once every earlier result is written; in trap mode `trappc`, `wsel`, `tagstate`, and `wdata` at an
index of its unit, with a v source for the thread unit and an s one or zero for the group unit (R199, R282, R323). -/
def csrWrites (g : Group) (c : Csr) (a : Opd) : Prop := match c with
  | .frm => True
  | .fflags => g.lpend = [] ∧ ∀ t x, (t, x) ∈ g.tags → x.op = none
  | .trappc | .wsel | .tagstate => g.inTrap = true
  | .wdata => g.inTrap = true ∧ (if g.wselThr then g.wselIdx < 192 ∧ a.isV = true else g.wselIdx < 320 ∧ a.isSZ = true)
  | _ => False

/-- What a control register but `wdata` reads, field by field (R16, R17, R22, R24, R81, R83, R190, R198, R283). A group's place p is
512 × core + 128 × slice + 4 × pipe + the place on the pipe, with 176 cores on a die. -/
def csrHolds (s : State) (p : Nat) (g : Group) (c : Csr) (x : Nat) : Prop := match c with
  | .gwidth => x = 32
  | .frm => x = g.frm.toNat
  | .fflags => x = g.fflags.toNat
  | .gid => x = g.ngroups * 2 ^ 8 + g.group
  | .gangid => x = g.gang.toNat
  | .spanid => x = g.span.toNat * 2 ^ 4 + g.member
  | .launchid => x = g.queue * 2 ^ 26 + g.seqNo % 2 ^ 26
  | .coreid => x = p / 128 % 4 * 2 ^ 18 + p / 4 % 32 * 2 ^ 13 + p / 512 % 176 / 16 * 2 ^ 8 + p / 512 % 176
  | .dieid => x = s.dieid (p / 512 / 176)
  | .ctxid => x = g.ctx
  | .fltgen => x = ((s.die (p / 512 / 176)).gens.getD g.ctx 0).toNat
  | .clock => x = (s.die (p / 512 / 176)).clock.toNat
  | .trapcause => x = g.trapcause.toNat
  | .trapinfo => x = g.trapinfo.toNat
  | .trappc => x = g.trappc.toNat
  | .parkmask => ∃ b, g.bank = some b ∧ x < 2 ^ 8 ∧ x.testBit 7 = b.tst.isSome ∧ x.testBit 6 = b.sqPark.isSome
    ∧ ∀ k, k < 6 → x.testBit k = (b.g (259 + 4 * k) != 0)
  | .tagstate => ∃ (b : Bank) (depth : Nat → Nat), g.bank = some b
    ∧ (∀ q, depth q = if s.qlead p g = true ∧ (s.core (p / 512)).qowner = some g.ctx then ((s.core (p / 512)).q.getD q []).length else 0)
    ∧ x = (s.qlead p g).toNat * 2 ^ 31 + depth 3 * 2 ^ 25 + depth 2 * 2 ^ 20 + depth 1 * 2 ^ 15 + depth 0 * 2 ^ 10
      + (g.regs / 16 - 1) * 2 ^ 7 + (b.tags.map (fun t => 2 ^ (t.1 - 1))).sum
  | .divstack => ∃ b, g.bank = some b ∧ x = min (b.g 137).toNat 16
  | .wsel => x = g.wselThr.toNat * 2 ^ 31 + g.wselIdx
  | .wdata => False

/-- What group-unit word k of the hidden state reads: s0 to s47, h0 to h14, `trappc`, `trapcause` and `tagstate` stand in the group; the
program's copies of s48 to s63 and of h15, and the words from 131 on that the table lists, stand in the bank; others read 0 (R199). -/
def groupWordIs (s : State) (p : Nat) (g : Group) (b : Bank) (k : Nat) (x : Word) : Prop :=
  if k < 48 then x = g.getS k
  else if 64 ≤ k ∧ k < 124 then x.toNat = (g.getH ((k - 64) / 4)).toNat / 2 ^ (32 * ((k - 64) % 4)) % 2 ^ 32
  else if k = 128 then x.toNat = g.trappc.toNat % 2 ^ 32
  else if k = 129 then x.toNat = g.trappc.toNat / 2 ^ 32
  else if k = 130 then x.toNat = g.trapcause.toNat
  else if k = 133 then ∃ y, csrHolds s p g .tagstate y ∧ x = BitVec.ofNat 32 y
  else if k < 138 ∨ (144 ≤ k ∧ k < 256 ∧ (k - 144) % 7 ≠ 6) ∨ (256 ≤ k ∧ k < 318) then x = b.g k
  else x = 0

/-- What thread-unit word k reads in lane i: the predicates, the parked tags' source words and the store queue's in the bank, and entry e of
queue q, lowest entry first, where the group leads its context's queues (R199). -/
def threadWordIs (s : State) (p : Nat) (g : Group) (b : Bank) (k i : Nat) (x : Word) : Prop :=
  if k < 105 then x = b.t k i
  else if 128 ≤ k ∧ s.qlead p g = true ∧ (s.core (p / 512)).qowner = some g.ctx then
    x = ((((s.core (p / 512)).q.getD ((k - 128) / 16) [])[(k - 128) % 16]?).getD []).getD i 0
  else x = 0

/-- Bits lo to lo + n − 1 of a word. -/
def field (x lo n : Nat) : Nat := x / 2 ^ lo % 2 ^ n

/-- Does the group lead the queues of its context, which owns its core's (R198, R243)? -/
def State.leads (s : State) (p : Nat) (g : Group) : Prop := s.qlead p g = true ∧ (s.core (placeCore p)).qowner = some g.ctx

/-- Allocated tags after a write of `alloc` bits: a tag whose bit is set is as it was, or released where it is new; the others are free (R198). -/
def tagsSet (old : SMap TagSt) (v : Nat) (tags : SMap TagSt) : Prop :=
  tags.wf = true ∧ ∀ n, tags.find n = if 1 ≤ n ∧ n ≤ 6 ∧ v.testBit (n - 1) = true then some ((old.find n).getD { op := none, async := false }) else none

/-- Queues after a write of their depths: cut, or with empty entries behind (R198, R199). -/
def depthsSet (c c' : Core) (v : Nat) : Prop :=
  c' = { c with q := c'.q, qmoved := true }
  ∧ ∀ n, c'.queue n = if n < 4 then (c.queue n ++ List.replicate 16 []).take (min (field v (10 + 5 * n) 5) 16) else c.queue n

/-- The group after word k of the group unit is written, `tagstate` aside (R199). -/
def groupWordSet (g : Group) (b : Bank) (k : Nat) (v : Word) (g' : Group) : Prop :=
  if k < 48 then g' = g.setS k v
  else if 64 ≤ k ∧ k < 124 then ∃ x : Header, g' = g.setH ((k - 64) / 4) x
    ∧ ∀ j, j < 128 → x.getLsbD j = if j / 32 = k % 4 then v.getLsbD (j % 32) else (g.getH ((k - 64) / 4)).getLsbD j
  else if k = 128 then ∃ x : DWord, g' = { g with trappc := x } ∧ x.toNat = g.trappc.toNat / 2 ^ 32 * 2 ^ 32 + v.toNat
  else if k = 129 then ∃ x : DWord, g' = { g with trappc := x } ∧ x.toNat = v.toNat * 2 ^ 32 + g.trappc.toNat % 2 ^ 32
  else if k ≠ 130 ∧ (k < 138 ∨ (144 ≤ k ∧ k < 256 ∧ (k - 144) % 7 ≠ 6) ∨ (256 ≤ k ∧ k < 318)) then
    ∃ b' : Bank, g' = { g with bank := some b' } ∧ b' = { b with gw := b'.gw }
      ∧ ∀ j, b'.g j = if j = k then (if k = 131 then v &&& 3 else if k = 132 then v &&& 31 else v) else b.g j
  else g' = g

/-- The bank after word k of the thread unit, below the queues', is written in the lanes of a mask; p0 keeps its bit (R199). -/
def threadWordSet (b : Bank) (k : Nat) (m : Mask) (f : Nat → Word) (b' : Bank) : Prop :=
  b' = { b with tw := b'.tw } ∧ ∀ j i, i < 32 →
    b'.t j i = if j = k ∧ k < 105 ∧ m.getLsbD i = true then (if k = 0 then f i &&& 0xFE ||| 1 else f i) else b.t j i

/-- The queues after entry e of queue q is written in the lanes of a mask (R199). -/
def entrySet (c c' : Core) (q e : Nat) (m : Mask) (f : Nat → Word) : Prop :=
  c' = { c with q := c'.q, qmoved := true } ∧ (∀ j, j ≠ q → c'.queue j = c.queue j) ∧ (c'.queue q).length = (c.queue q).length
  ∧ ∀ (n i : Nat) (x y : SMap Word), (c.queue q)[n]? = some x → (c'.queue q)[n]? = some y → i < 32 →
    y.getD i 0 = if n = e ∧ m.getLsbD i = true then f i else x.getD i 0

/-- Canonical maps of a core's queues, their entries, and a bank. -/
def State.wordsWf (s : State) (p : Nat) (b : Bank) : Prop :=
  b.gw.wf = true ∧ b.tw.wf = true ∧ (s.core (placeCore p)).q.wf = true ∧ ∀ n, ∀ x ∈ (s.core (placeCore p)).queue n, SMap.wf x = true

/-- A group goes on with `idx` raised. -/
def Group.nextIdx (g : Group) : Group := { g with wselIdx := (g.wselIdx + 1) % 512 }

/-! ## Page-table entries (R177, R178, R184, R189) -/

/-- A valid entry x read at a level for an address of a device's or the host's space is malformed (R178). -/
def pteIll (x level : Nat) (host : Bool) (va : Nat) : Prop :=
  let leaf := x.testBit 2
  let awf := x.testBit 55
  let a := field x 12 40 * 2 ^ 12
  (∃ k ∈ [1, 4, 5, 6, 7, 8, 52, 53, 60, 61, 62, 63], x.testBit k = true) ∨ 2 ≤ field x 58 2
  ∨ (leaf = true ∧ 3 ≤ level) ∨ (leaf = false ∧ level = 1)
  ∨ ((x.testBit 57 = true ∨ x.testBit 56 = true) ∧ field x 58 2 = 1) ∨ (x.testBit 56 = true ∧ (x.testBit 57 = true ∨ x.testBit 54 = true))
  ∨ (leaf = true ∧ host = false ∧ awf = false ∧ 2 ^ 37 - 2 ^ 28 ≤ a) ∨ (leaf = false ∧ 2 ^ 37 - 2 ^ 28 ≤ a)
  ∨ (leaf = true ∧ host = true ∧ (x.testBit 57 = true ∨ x.testBit 56 = true)) ∨ (leaf = true ∧ field x 12 4 ≠ 0)
  ∨ (leaf = true ∧ awf = false ∧ level = 2 ∧ field x 16 9 ≠ 0)
  ∨ (leaf = true ∧ awf = false ∧ x.testBit 3 = true ∧ level = 1 ∧ field x 16 5 ≠ va / 2 ^ 16 % 32)
  ∨ (leaf = true ∧ awf = false ∧ x.testBit 3 = true ∧ level = 2 ∧ field x 25 5 ≠ va / 2 ^ 25 % 32)

/-- The cause with which an entry ends a record, or 0 where it fills (R184). -/
def entryCause (x level : Nat) (host : Bool) (va : Nat) (acc : AccK) (c : Nat) : Prop :=
  (x.testBit 0 = false → c = 1)
  ∧ (x.testBit 0 = true → (pteIll x level host va ∨ x.testBit 2 = false) → c = 2)
  ∧ (x.testBit 0 = true → ¬ pteIll x level host va → x.testBit 2 = true →
    (acc ∈ [AccK.load, .ntest, .engRead, .prefetch] → c = if x.testBit 9 = true ∨ x.testBit 55 = true then 0 else 3)
    ∧ (acc ∈ [AccK.store, .atomic, .engWrite] → c = if x.testBit 54 then 6 else if x.testBit 55 then 7 else if x.testBit 10 then 0 else 4)
    ∧ (acc = .fetch → c = if x.testBit 55 then 7 else if x.testBit 11 then 0 else 5))

/-- The translation that a leaf read at a level gives (R176, R177, R180). -/
def fillOf (x level : Nat) (w : Walk) (e : TlbE) : Prop :=
  e.ctx = w.ctx ∧ e.size = (if level = 1 then (if x.testBit 3 then 21 else 16) else (if x.testBit 3 then 30 else 25))
  ∧ e.page = w.va / 2 ^ e.size * 2 ^ e.size
  ∧ (x.testBit 55 = false → e.frame = field x 12 40 * 2 ^ 12 / 2 ^ e.size * 2 ^ e.size)
  ∧ e.perm = { rd := x.testBit 9, wr := x.testBit 10, ex := x.testBit 11, cow := x.testBit 54, awf := x.testBit 55
               managed := w.host || field x 58 2 == 1, ctr := x.testBit 56, cmp := x.testBit 57, fbi := field x 16 36 }

/-- The fault record of a walk record that a die ends (R189). -/
def faultIs (r : BitVec 256) (d : Nat) (w : Walk) (cause level pte gen : Nat) : Prop :=
  let f := field r.toNat
  f 0 64 = w.va ∧ f 64 20 = 0 ∧ f 84 1 = d % 2 ∧ f 85 5 = w.slice ∧ f 90 10 = w.ctx ∧ f 100 1 = w.host.toNat ∧ f 101 3 = w.acc.code
  ∧ f 104 8 = cause ∧ f 112 16 = gen ∧ f 128 64 = pte ∧ f 192 8 = level ∧ f 200 56 = 0

/-- The fields of a walk record fit those of a fault record. -/
def Walk.small (w : Walk) : Prop := w.va < 2 ^ 64 ∧ w.slice < 32 ∧ w.ctx < 1024

/-! ## The traversal stack -/

/-- An entry of the stack, address word and hitch, field by field (R215). -/
def entryIs (x : Nat × Nat) (addr : Nat) (gen : Bool) (kind : Nat) (away hsel root : Bool) (hitch : Nat) : Prop :=
  x.1 < 2 ^ 64 ∧ x.1 / 2 ^ 7 = addr % 2 ^ 64 / 2 ^ 7 ∧ field x.1 0 1 = gen.toNat ∧ field x.1 1 2 = kind ∧ field x.1 3 1 = away.toNat
  ∧ field x.1 4 1 = hsel.toNat ∧ field x.1 5 1 = root.toNat ∧ field x.1 6 1 = 0 ∧ x.2 = hitch

/-- Byte c of the children's bytes in a block of `NTEST`, and the child at a place of its near-to-far order (R214). -/
def blockByte (b : Nat → Nat) (c : Nat) : Nat := field (b (5 + c / 4)) (8 * (c % 4)) 8
def blockChild (b : Nat → Nat) (k : Nat) : Nat := if k < 8 then field (b 1) (4 * k) 4 else field (b 2) (4 * (k - 8)) 4

/-- The entries that `TRVPUSH` pushes for a block, first to last (R215): nothing under a failed test or a triangle leaf; the lines of a cluster
leaf that was hit, last to first, R215 having 43 of them at most; of an interior node the hit children that are not ready, far to near, then
the ready ones. -/
def pushesOf (b : Nat → Nat) (xs : List (Nat × Nat)) : Prop :=
  let base := b 3 + b 4 * 2 ^ 32
  let gen := (b 10).testBit 8
  let hsel := (b 10).testBit 7
  (field (b 10) 9 4 ≠ 0 ∨ field (b 10) 4 3 = 5 → xs = [])
  ∧ (field (b 10) 9 4 = 0 → field (b 10) 4 3 = 6 →
    xs.length = (if (b 0).testBit 0 then min (b 9) 43 else 0)
    ∧ ∀ j x, xs[j]? = some x → entryIs x (base + 128 * (xs.length - 1 - j)) gen 2 false hsel false 0)
  ∧ (field (b 10) 9 4 = 0 → field (b 10) 4 3 ≠ 5 → field (b 10) 4 3 ≠ 6 →
    let far := ((List.range ((List.range 16).filter (b 0).testBit).length).map (blockChild b)).reverse
    let order := far.filter (fun c => !(b 0).testBit (16 + c)) ++ far.filter (fun c => (b 0).testBit (16 + c))
    xs.length = order.length ∧ ∀ (j : Nat) (x : Nat × Nat) (c : Nat), xs[j]? = some x → order[j]? = some c →
      entryIs x (base + 128 * field (blockByte b c) 0 4) gen (field (blockByte b c) 4 2) (!(b 0).testBit (16 + c)) hsel
        ((blockByte b c).testBit 6)
        (if (blockByte b c).testBit 6 then
          (b 9 + ((List.range c).filter (fun k => (blockByte b k).testBit 6)).length) % 2 ^ 32 else 0))

/-- A lane's depth before, how many of its entries the depth of 1,056 leaves room for, and the depths that they take. -/
def pushFrom (g : Group) (r : Regs) (i : Nat) : Nat := runWord g r.d i 0 % 2 ^ 16
def pushCount (g : Group) (r : Regs) (xs : Nat → List (Nat × Nat)) (i : Nat) : Nat := min (xs i).length (1056 - pushFrom g r i)
def pushesAt (g : Group) (r : Regs) (xs : Nat → List (Nat × Nat)) (i d : Nat) : Prop :=
  pushFrom g r i ≤ d ∧ d < pushFrom g r i + pushCount g r xs i

/-- An entry's 16 bytes, and the two accesses that store 16 bytes. -/
def entryVal (x : Nat × Nat) : Nat := x.1 + x.2 * 2 ^ 64
def twoAccs (n : Nat) (stash : Bool) (a v : Nat) : List SqAcc :=
  [{ lane := n, stash := stash, addr := BitVec.ofNat 64 a, width := 8, data := BitVec.ofNat 64 v, done := 0 },
    { lane := n, stash := stash, addr := BitVec.ofNat 64 (a + 8), width := 8, data := BitVec.ofNat 64 (v / 2 ^ 64), done := 0 }]

/-- What a lane stores for its j-th entry: at a depth d of 32 or more first the entry of depth d − 32, which the lane has pushed itself or which
stood in the slot, at its spill place; then the entry in the slot of its depth (R215). -/
def pushAccs (base spill n k : Nat) (xs : List (Nat × Nat)) (old : Nat → Nat) (j : Nat) : List SqAcc :=
  let d := k + j
  (if 32 ≤ d then twoAccs n false ((spill + 16384 * n + 16 * (d - 32)) % 2 ^ 64)
    (if 32 ≤ j then entryVal (xs.getD (j - 32) (0, 0)) else old (d % 32)) else [])
  ++ twoAccs n true (base + 512 * n + 16 * (d % 32)) (entryVal (xs.getD j (0, 0)))

/-! ## Node tests (R209 to R212, R214) -/

/-- Where a ray enters and leaves the slab of an axis whose direction is not zero: the exact quotients rounded down and up (R211). -/
def slabEnter (r : Ray) (lo hi : Nat → FVal) (a : Nat) : Nat :=
  let x := quotVal (subV (lo a) (r.ov a)) (r.dv a)
  let y := quotVal (subV (hi a) (r.ov a)) (r.dv a)
  f32r .rdn (if leV x y then x else y)
def slabExit (r : Ray) (lo hi : Nat → FVal) (a : Nat) : Nat :=
  let x := quotVal (subV (lo a) (r.ov a)) (r.dv a)
  let y := quotVal (subV (hi a) (r.ov a)) (r.dv a)
  f32r .rup (if leV x y then y else x)

/-- The distances that bound a box's interval from below and from above. -/
def slabLower (r : Ray) (lo hi : Nat → FVal) (x : Nat) : Prop :=
  x = r.t0 ∨ ∃ a, a < 3 ∧ (r.dv a).isZero = false ∧ x = slabEnter r lo hi a
def slabUpper (r : Ray) (lo hi : Nat → FVal) (x : Nat) : Prop :=
  x = r.t1 ∨ ∃ a, a < 3 ∧ (r.dv a).isZero = false ∧ x = slabExit r lo hi a

/-- A ray without a NaN meets a box at entry distance t: on an axis along which it does not move it stands within the box, no lower bound
is above an upper one, and t is the greatest of the lower ones (R211). -/
def slabHit (r : Ray) (lo hi : Nat → FVal) (t : Nat) : Prop :=
  r.hasNaN = false
  ∧ (∀ a, a < 3 → (r.dv a).isZero = true → leV (lo a) (r.ov a) = true ∧ leV (r.ov a) (hi a) = true)
  ∧ slabLower r lo hi t
  ∧ ∀ x, slabLower r lo hi x → leV (f32v x) (f32v t) = true ∧ ∀ y, slabUpper r lo hi y → leV (f32v x) (f32v y) = true

/-- A triangle of nine f32 codes is hit at (t, u, w): each operation rounded by itself, to nearest, in the order R212 writes. -/
def triHit (r : Ray) (v : Nat → Nat) (t u w : Nat) : Prop :=
  let dot (a b : Nat → Nat) : Nat := tAdd (tAdd (tMul (a 0) (b 0)) (tMul (a 1) (b 1))) (tMul (a 2) (b 2))
  let cross (a b : Nat → Nat) (k : Nat) : Nat :=
    tSub (tMul (a ((k + 1) % 3)) (b ((k + 2) % 3))) (tMul (a ((k + 2) % 3)) (b ((k + 1) % 3)))
  let d (k : Nat) : Nat := r.d.getD k 0
  let e (n k : Nat) : Nat := tSub (v (3 * n + k)) (v k)
  let p := cross d (e 2)
  let det := dot (e 1) p
  let s (k : Nat) : Nat := tSub (r.o.getD k 0) (v k)
  let q := cross s (e 1)
  (f32v det).isZero = false ∧ (f32v det).isNaN = false
  ∧ u = tDiv (dot s p) det ∧ w = tDiv (dot d q) det ∧ t = tDiv (dot (e 2) q) det
  ∧ leV (f32v 0) (f32v u) = true ∧ leV (f32v 0) (f32v w) = true ∧ leV (f32v (tAdd u w)) (f32v 0x3F800000) = true
  ∧ leV (f32v r.t0) (f32v t) = true ∧ leV (f32v t) (f32v r.t1) = true

/-- The bounds of child c's box on an axis: in kind 0 the origin plus the code times 2^(exponent − 127), exactly; in kind 1 six f32 values (R210). -/
def boxLo (e : NFmt) (x : Line) (c a : Nat) : FVal :=
  if e.kind = 0 then addV (f32v (lineGet x (e.koff + 4 * a) 4))
    (.num false (lineGet x (e.coff + c * e.csz + a) 1) ((lineGet x (e.koff + 12 + a) 1 : Int) - 127))
  else f32v (lineGet x (e.coff + c * e.csz + 4 * a) 4)
def boxHi (e : NFmt) (x : Line) (c a : Nat) : FVal :=
  if e.kind = 0 then addV (f32v (lineGet x (e.koff + 4 * a) 4))
    (.num false (lineGet x (e.coff + c * e.csz + 3 + a) 1) ((lineGet x (e.koff + 12 + a) 1 : Int) - 127))
  else f32v (lineGet x (e.coff + c * e.csz + 12 + 4 * a) 4)

/-- A hitch is ready under the snapshot that `hsel` selects: no error bit, and (S[31:0] − h) mod 2^32 below 2^31 (R214). -/
def readyAt (sn : Snaps) (hsel : Bool) (h : Nat) : Prop :=
  sn.err hsel = false ∧ ((sn.val hsel : Int) - h) % (2 ^ 32 : Int) < (2 ^ 31 : Int)

/-- Is child c of a node present, and is it a hitch root (R207, R209)? -/
def childHere (e : NFmt) (x : Line) (c : Nat) : Bool := metaPresent (childMeta e x c)
def childRoot (e : NFmt) (x : Line) (c : Nat) : Bool := metaHroot (childMeta e x c)

/-- The words of a triangle leaf: the mask of the triangles that are hit, and the nearest one's primitive, u, v and t (R212, R214). -/
def triResult (e : NFmt) (x : Line) (r : Ray) (w : Nat → Nat) : Prop :=
  let vs (c j : Nat) : Nat := lineGet x (e.coff + c * e.csz + 4 * j) 4
  w 0 < 8 ∧ w 1 = lineGet x e.koff 4
  ∧ (∀ c, c < 3 → ((w 0).testBit c = true ↔ c < lineGet x (e.koff + 8) 1 ∧ ∃ t u v, triHit r (vs c) t u v))
  ∧ (w 0 ≠ 0 → ∃ c, c < lineGet x (e.koff + 8) 1 ∧ triHit r (vs c) (w 11) (w 3) (w 4)
    ∧ w 2 = (lineGet x (e.koff + 4) 4 + c) % 2 ^ 32
    ∧ ∀ k t u v, k < lineGet x (e.koff + 8) 1 → triHit r (vs k) t u v → leV (f32v (w 11)) (f32v t) = true)

/-- The words of a cluster leaf (R205, R214). -/
def leafResult (e : NFmt) (x : Line) (r : Ray) (w : Nat → Nat) : Prop :=
  let lo (a : Nat) : FVal := f32v (lineGet x (e.koff + 4 * a) 4)
  let hi (a : Nat) : FVal := f32v (lineGet x (e.koff + 16 + 4 * a) 4)
  w 0 < 2 ∧ (w 0 = 1 ↔ ∃ t, slabHit r lo hi t) ∧ (w 0 = 1 → slabHit r lo hi (w 11))
  ∧ w 1 = lineGet x (e.koff + 40) 4 ∧ w 2 = lineGet x (e.koff + 44) 4 ∧ w 3 + w 4 * 2 ^ 32 = lineGet x (e.koff + 32) 8
  ∧ w 5 = 0x20 ∧ w 6 = 0 ∧ w 7 = 0 ∧ w 8 = 0 ∧ w 9 = (lineGet x (e.koff + 28) 4 + 2) / 3

/-- The words of an interior node: its hit children, near to far, in the masks, the order and the nearest one's distance; which present
children are ready; and the hitch. Of the kinds it says which children are hit for the box kinds 0 and 1 and for kind 7 (R210, R211, R214). -/
def interiorResult (e : NFmt) (x : Line) (r : Ray) (hsel : Bool) (sn : Snaps) (w : Nat → Nat) : Prop :=
  let H := if e.hoff = absent then 0 else lineGet x e.hoff 4
  let hc (c : Nat) : Nat := H + ((List.range e.fan).filter (fun k => k < c && childHere e x k && childRoot e x k)).length
  (∃ (hits : List (Nat × Nat)) (ready : Nat → Bool), (hits.map (·.2)).Nodup
    ∧ (∀ y ∈ hits, y.2 < e.fan ∧ childHere e x y.2 = true)
    ∧ (∀ c, ready c = true ↔ (childRoot e x c = false ∨ e.hoff = absent ∨ readyAt sn hsel (hc c)))
    ∧ w 0 = (hits.map (fun y => 2 ^ y.2)).sum
      + (((List.range e.fan).filter (fun c => childHere e x c && ready c)).map (fun c => 2 ^ (16 + c))).sum
    ∧ (∀ k y, hits[k]? = some y → (if k < 8 then w 1 / 2 ^ (4 * k) % 16 else w 2 / 2 ^ (4 * (k - 8)) % 16) = y.2)
    ∧ w 11 = (match hits with
      | y :: _ => y.1
      | [] => f32inf)
    ∧ ((e.kind = 1 ∨ (e.kind = 0 ∧ ∀ a, a < 3 → lineGet x (e.koff + 12 + a) 1 ≠ 255)) →
      (∀ y ∈ hits, slabHit r (boxLo e x y.2) (boxHi e x y.2) y.1)
      ∧ (∀ c t, c < e.fan → childHere e x c = true → slabHit r (boxLo e x c) (boxHi e x c) t → ∃ y ∈ hits, y.2 = c)
      ∧ hits.Pairwise (fun a b => leV (f32v a.1) (f32v b.1) = true))
    ∧ (e.kind = 7 → hits = ((List.range e.fan).filter (childHere e x)).map (fun c => (0, c))))
  ∧ w 9 = H ∧ (e.boff ≠ absent → w 3 + w 4 * 2 ^ 32 = lineGet x e.boff 8)

/-- The twelve words of a node test of the line x under a table's entry e: the status field by field, and the words of the kind where no bit of
12 to 9 is set (R214). -/
def nodeResult (e : NFmt) (x : Line) (r : Ray) (gen : Bool) (sn : Snaps) (away : Bool) (w : Nat → Nat) : Prop :=
  let has := decide (e.goff ≠ absent)
  let g := has && (lineGet x e.goff 1).testBit 0
  let hsel := has && (lineGet x e.goff 1).testBit 1
  w 10 < 2 ^ 13 ∧ w 10 % 16 = lineGet x 15 1 % 16 ∧ (w 10).testBit 9 = away
  ∧ (e.ok = false → (w 10).testBit 12 = true)
  ∧ (e.ok = true → w 10 / 2 ^ 4 % 8 = e.kind ∧ (w 10).testBit 7 = hsel ∧ (w 10).testBit 8 = g
    ∧ (w 10).testBit 10 = (has && g != gen) ∧ (w 10).testBit 11 = (decide (e.hoff ≠ absent) && sn.err hsel)
    ∧ (e.kind = 5 → (w 10).testBit 12 = decide (lineGet x (e.koff + 8) 1 = 0 ∨ e.fan < lineGet x (e.koff + 8) 1))
    ∧ (e.kind = 6 → (w 10).testBit 12 = decide (lineGet x (e.koff + 28) 4 = 0 ∨ 128 < lineGet x (e.koff + 28) 4))
    ∧ (e.kind = 2 → (w 10).testBit 12 = decide (2 < lineGet x e.koff 1))
    ∧ (e.kind ∉ [2, 5, 6] → (w 10).testBit 12 = false))
  ∧ (w 10 / 2 ^ 9 ≠ 0 → w 11 = f32inf ∧ ∀ k, k < 10 → w k = 0)
  ∧ (w 10 / 2 ^ 9 = 0 → if e.kind = 5 then triResult e x r w else if e.kind = 6 then leafResult e x r w else interiorResult e x r hsel sn w)

/-- The ray, the expected generation and the snapshots that an outstanding `NTEST` captured in a lane. -/
def capturedRay (o : POp) (n : Nat) : Ray where
  o := (List.range 3).map (fun k => (o.word k n).toNat)
  d := (List.range 3).map (fun k => (o.word (3 + k) n).toNat)
  t0 := (o.word 6 n).toNat
  t1 := (o.word 7 n).toNat

/-- A helper of an `NTEST` that gets a line of zeros: its address is misaligned, or a range lock stands on its line (R32, R368). -/
def nodeBlank (s : State) (p : Nat) (g : Group) (o : POp) (n : Nat) : Bool :=
  o.help.getLsbD n && ((s.core (placeCore p)).locked g.ctx ((o.word2 8 n).toNat / 128 * 128) 128 false
    || (o.word 8 n).toNat / 2 ^ 3 % 2 ^ 4 != 0)

/-! ## Exact rounding -/

/-- A value as a multiple of 2^q: y × 2^q, exactly. -/
def FVal.isAt (v : FVal) (q y : Int) : Prop :=
  ∃ (s : Bool) (m : Nat) (e : Int), v = .num s m e ∧ q ≤ e ∧ y = (if s then -1 else 1) * ((m : Int) * 2 ^ (e - q).toNat)

/-- The exponent of a format's least unit. -/
def Fmt.lo (f : Fmt) : Int := 1 - f.bias - f.mb

/-- y × 2^q has at most the format's significant bits, in a unit of 2^lo or above; the exponent has no upper bound. -/
def Fmt.grid (f : Fmt) (lo q y : Int) : Prop :=
  ∃ k u : Int, lo ≤ u ∧ q ≤ u ∧ k.natAbs < 2 ^ (f.mb + 1) ∧ y = k * 2 ^ (u - q).toNat

/-- And its last significant bit is 0. -/
def Fmt.even (f : Fmt) (lo q y : Int) : Prop :=
  ∃ k u : Int, lo ≤ u ∧ q ≤ u ∧ (2 * k).natAbs < 2 ^ (f.mb + 1) ∧ y = 2 * k * 2 ^ (u - q).toNat

/-- y × 2^q is x × 2^q rounded by a mode (R81): the nearest, of two as near the even one; the nearest of no greater magnitude; the least not
below; the greatest not above. -/
def Fmt.nearest (f : Fmt) (rm : Rm) (lo q x y : Int) : Prop :=
  f.grid lo q y ∧ ∀ w, f.grid lo q w → match rm with
    | .rne => (x - y).natAbs ≤ (x - w).natAbs ∧ ((x - y).natAbs = (x - w).natAbs → w ≠ y → f.even lo q y)
    | .rtz => 0 ≤ x * y ∧ y.natAbs ≤ x.natAbs ∧ (0 ≤ x * w → w.natAbs ≤ x.natAbs → w.natAbs ≤ y.natAbs)
    | .rup => x ≤ y ∧ (x ≤ w → y ≤ w)
    | .rdn => y ≤ x ∧ (w ≤ x → w ≤ y)

/-- The code z and the flags are those of x × 2^q, not zero, rounded into a format: `nx` where the value differs, `uf` where it does and what
the mode makes of it without a least exponent lies below the least normal number; past the greatest finite value what R84 gives, `of` and
`nx` (R81, R83, R84). -/
def Fmt.rounds (f : Fmt) (rm : Rm) (q x : Int) (z : Nat) (fl : Flags) : Prop :=
  ∃ y t top : Int, f.nearest rm f.lo q x y ∧ f.nearest rm q q x t ∧ (unpack f f.maxc).isAt q top ∧
    if y.natAbs ≤ top.natAbs then
      z < 2 ^ (f.mag + 1) ∧ (unpack f z).isAt q y ∧ (unpack f z).neg = decide (x < 0)
      ∧ fl = flagIf (decide (y ≠ x)) fNX ||| flagIf (decide (y ≠ x ∧ t.natAbs < 2 ^ (1 - f.bias - q).toNat)) fUF
    else
      z = (if f.inf && (rm == .rne || (rm == .rup && decide (0 < x)) || (rm == .rdn && decide (x < 0))) then f.maxc + 1 else f.maxc)
          + (if x < 0 then 2 ^ f.mag else 0)
      ∧ fl = fOF ||| fNX

/-- An exact zero in a format: the sign that both terms have, else +0, under RDN −0; no flag (R330). -/
def Fmt.zeroSum (f : Fmt) (rm : Rm) (a b : Bool) (q : Int) (z : Nat) (fl : Flags) : Prop :=
  (unpack f z).isAt q 0 ∧ (unpack f z).neg = (if a = b then a else rm == .rdn) ∧ fl = 0

/-- n is x × 2^q rounded to an integer by a mode (R86). -/
def nearestInt (rm : Rm) (q x n : Int) : Prop :=
  ∀ w : Int, let at_ (v : Int) : Int := v * 2 ^ (-q).toNat
    match rm with
    | .rne => (x - at_ n).natAbs ≤ (x - at_ w).natAbs ∧ ((x - at_ n).natAbs = (x - at_ w).natAbs → w ≠ n → n % 2 = 0)
    | .rtz => 0 ≤ x * n ∧ (at_ n).natAbs ≤ x.natAbs ∧ (0 ≤ x * w → (at_ w).natAbs ≤ x.natAbs → w.natAbs ≤ n.natAbs)
    | .rup => x ≤ at_ n ∧ (x ≤ at_ w → n ≤ w)
    | .rdn => at_ n ≤ x ∧ (at_ w ≤ x → w ≤ n)

/-! ## Float words against exact values -/

/-- Order and equality of two values that are no NaN; the zeros are equal (R336). -/
def FVal.below (a b : FVal) : Prop :=
  (a = .inf true ∧ b ≠ .inf true) ∨ (b = .inf false ∧ a ≠ .inf false) ∨ ∃ q x y : Int, a.isAt q x ∧ b.isAt q y ∧ x < y
def FVal.equal (a b : FVal) : Prop := (∃ n, a = .inf n ∧ b = .inf n) ∨ ∃ q x : Int, a.isAt q x ∧ b.isAt q x

/-- The flags of a signalling operand (R330). -/
def sigFlags (xs : List FVal) (fl : Flags) : Prop := fl = if ∃ x ∈ xs, x.isSig = true then fNV else 0

/-- `FMIN` and `FMAX` of two codes (R334): −0 stands below +0. -/
def minMaxIs (f : Fmt) (big : Bool) (a b : Nat) (r : Elem) : Prop :=
  let x := unpack f a
  let y := unpack f b
  let under (v w : FVal) : Prop := v.below w ∨ (v.equal w ∧ v.neg = true ∧ w.neg = false)
  sigFlags [x, y] r.2
  ∧ (x.isNaN = true → y.isNaN = true → some r.1 = f.nan) ∧ (x.isNaN = true → y.isNaN = false → r.1 = b)
  ∧ (x.isNaN = false → y.isNaN = true → r.1 = a)
  ∧ (x.isNaN = false → y.isNaN = false → (r.1 = a ∨ r.1 = b)
    ∧ ∀ c, c = a ∨ c = b → if big then ¬ under (unpack f r.1) (unpack f c) else ¬ under (unpack f c) (unpack f r.1))

/-- `FCMP` of two values (R336). -/
def compareIs (cond : Nat) (x y : FVal) (r : Bool × Flags) : Prop :=
  if x.isNaN = true ∨ y.isNaN = true then
    r.1 = (cond == 1 || cond == 6) ∧ r.2 = if x.isSig = true ∨ y.isSig = true ∨ (2 ≤ cond ∧ cond ≤ 5) then fNV else 0
  else r.2 = 0 ∧ (r.1 = true ↔ match cond with
    | 0 => x.equal y
    | 1 => ¬ x.equal y
    | 2 => x.below y
    | 3 => ¬ y.below x
    | 4 => y.below x
    | 5 => ¬ x.below y
    | 6 => False
    | _ => True)

/-- The class bit of a value in a format (R335). -/
def classIs (f : Fmt) (v : FVal) (c : Nat) : Prop := match v with
  | .nan s => c = if s then 8 else 9
  | .inf n => c = if n then 0 else 7
  | .num n _ _ => ∀ q x : Int, q ≤ f.lo → v.isAt q x →
    if x = 0 then c = if n then 3 else 4
    else if x.natAbs < 2 ^ (1 - f.bias - q).toNat then c = if n then 2 else 5
    else c = if n then 1 else 6

/-- `FSCALE` of a code by 2^n (R94). -/
def scaleIs (f : Fmt) (rm : Rm) (a : Nat) (n : Int) (r : Elem) : Prop := match unpack f a with
  | .nan s => some r.1 = f.nan ∧ sigFlags [.nan s] r.2
  | .inf _ => r = (a, 0)
  | .num s m e => (m = 0 → r = (a, 0))
    ∧ ∀ q x top : Int, m ≠ 0 → q ≤ f.lo → (FVal.num s m (e + n)).isAt q x → (unpack f f.maxc).isAt q top →
      (x.natAbs ≤ top.natAbs → f.rounds rm q x r.1 r.2)
      ∧ (top.natAbs < x.natAbs → unpack f r.1 = .inf s ∧ r.1 < 2 ^ (f.mag + 1) ∧ r.2 = fOF ||| fNX)

/-- The exponent of a value, as `FMAXE` takes it (R93). -/
def expIs (f : Fmt) (v : FVal) (z : Int) : Prop := match v with
  | .nan _ => z = 2 ^ 31 - 1
  | .inf _ => z = 128
  | .num _ _ _ => ∀ q x : Int, q ≤ f.lo → v.isAt q x →
    if x = 0 then z = -2 ^ 31 else q ≤ z ∧ 2 ^ (z - q).toNat ≤ x.natAbs ∧ x.natAbs < 2 ^ (z + 1 - q).toNat

/-- `FRND` of a code (R332). -/
def integralIs (f : Fmt) (rm : Rm) (a : Nat) (r : Elem) : Prop := match unpack f a with
  | .nan s => some r.1 = f.nan ∧ sigFlags [.nan s] r.2
  | .inf _ => r = (a, 0)
  | .num s _ _ => r.2 = 0 ∧ r.1 < 2 ^ (f.mag + 1) ∧ (unpack f r.1).neg = s
    ∧ ∀ q x : Int, q ≤ f.lo → q ≤ 0 → (unpack f a).isAt q x → ∃ n, nearestInt rm q x n ∧ (unpack f r.1).isAt q (n * 2 ^ (-q).toNat)

/-- A value converted into a format but e8m0 (R84, R332). -/
def convertIs (f : Fmt) (rm : Rm) (v : FVal) (r : Elem) : Prop := match v with
  | .nan s => r = match f.nan with
    | some c => (c, if s then fNV else 0)
    | none => (0, fNV)
  | .inf n => r.1 < 2 ^ (f.mag + 1) ∧ if f.inf then unpack f r.1 = .inf n ∧ r.2 = 0
    else r.1 = f.maxc + (if n then 2 ^ f.mag else 0) ∧ r.2 = fOF ||| fNX
  | .num s _ _ => ∀ q x : Int, q ≤ f.lo → v.isAt q x →
    if x = 0 then (unpack f r.1).isAt q 0 ∧ (unpack f r.1).neg = s ∧ r.1 < 2 ^ (f.mag + 1) ∧ r.2 = 0 else f.rounds rm q x r.1 r.2

/-- A value converted into e8m0 (R85): of |x| the power of two below, above or nearer; of a midpoint the one with an even code. -/
def scaleCodeIs (rm : Rm) (v : FVal) (r : Elem) : Prop := match v with
  | .nan s => r = (0xFF, if s then fNV else 0)
  | .inf _ => r = (0xFE, fOF ||| fNX)
  | .num _ _ _ => ∀ q x : Int, v.isAt q x →
    if x = 0 then r = (0, fUF ||| fNX)
    else ∃ (k : Nat) (l : Int), 2 ^ k ≤ x.natAbs ∧ x.natAbs < 2 ^ (k + 1)
      ∧ (l = q + k ∨ l = q + k + 1)
      ∧ (match rm with
        | .rtz | .rdn => l = q + k
        | .rup => l = q + k ↔ x.natAbs = 2 ^ k
        | .rne => (2 * x.natAbs < 3 * 2 ^ k → l = q + k) ∧ (3 * 2 ^ k < 2 * x.natAbs → l = q + k + 1)
          ∧ (2 * x.natAbs = 3 * 2 ^ k → (l + 127) % 2 = 0))
      ∧ r = if l < -127 then (0, fUF ||| fNX) else if 127 < l then (0xFE, fOF ||| fNX)
        else ((l + 127).toNat, if x.natAbs = 2 ^ k then 0 else fNX)

/-- A value converted to an integer type (R86). -/
def integerIs (t : Ty) (rm : Rm) (v : FVal) (r : Int × Flags) : Prop := match v with
  | .nan _ => r = (0, fNV)
  | .inf n => r = (if n then tyMin t else tyMax t, fNV)
  | .num _ _ _ => ∀ q x : Int, q ≤ 0 → v.isAt q x → ∃ n, nearestInt rm q x n
    ∧ r = if n < tyMin t then (tyMin t, fNV) else if tyMax t < n then (tyMax t, fNV)
      else (n, if n * 2 ^ (-q).toNat = x then 0 else fNX)

/-! ## Function forms against real values (R339 to R342) -/

/-- The real number that a finite value is. -/
def FVal.realIs (v : FVal) (y : ℝ) : Prop :=
  ∃ (s : Bool) (m : Nat) (e : Int), v = .num s m e ∧ y = (if s then -1 else 1) * (m : ℝ) * (2 : ℝ) ^ e

/-- A real number has at most the format's significant bits, in a unit of 2^lo or above; and its last significant bit is 0. -/
def Fmt.gridReal (f : Fmt) (lo : Int) (w : ℝ) : Prop :=
  ∃ k u : Int, lo ≤ u ∧ k.natAbs < 2 ^ (f.mb + 1) ∧ w = (k : ℝ) * (2 : ℝ) ^ u
def Fmt.evenReal (f : Fmt) (lo : Int) (w : ℝ) : Prop :=
  ∃ k u : Int, lo ≤ u ∧ (2 * k).natAbs < 2 ^ (f.mb + 1) ∧ w = 2 * (k : ℝ) * (2 : ℝ) ^ u

/-- w is y rounded by a mode to the numbers of a grid (R81). -/
def nearestReal (rm : Rm) (grid even : ℝ → Prop) (y w : ℝ) : Prop :=
  grid w ∧ ∀ v, grid v → match rm with
    | .rne => |y - w| ≤ |y - v| ∧ (|y - w| = |y - v| → v ≠ w → even w)
    | .rtz => 0 ≤ y * w ∧ |w| ≤ |y| ∧ (0 ≤ y * v → |v| ≤ |y| → |v| ≤ |w|)
    | .rup => y ≤ w ∧ (y ≤ v → w ≤ v)
    | .rdn => w ≤ y ∧ (v ≤ y → v ≤ w)

/-- The code z and the flags are those of y, not zero, rounded into a format (R81, R83, R84). -/
def Fmt.roundsReal (f : Fmt) (rm : Rm) (y : ℝ) (z : Nat) (fl : Flags) : Prop :=
  ∃ w t top : ℝ, nearestReal rm (f.gridReal f.lo) (f.evenReal f.lo) y w
    ∧ nearestReal rm (fun v => ∃ lo, f.gridReal lo v) (fun v => ∃ lo, f.evenReal lo v) y t ∧ (unpack f f.maxc).realIs top
    ∧ (|w| ≤ top → z < 2 ^ (f.mag + 1) ∧ (unpack f z).realIs w ∧ ((unpack f z).neg = true ↔ y < 0)
      ∧ (w = y → fl = 0) ∧ (w ≠ y → |t| < (2 : ℝ) ^ (1 - (f.bias : Int)) → fl = fNX ||| fUF)
      ∧ (w ≠ y → (2 : ℝ) ^ (1 - (f.bias : Int)) ≤ |t| → fl = fNX))
    ∧ (top < |w| → fl = fOF ||| fNX ∧ ∃ neg : Bool, (neg = true ↔ y < 0)
      ∧ z = (if rm = .rne ∨ (rm = .rup ∧ neg = false) ∨ (rm = .rdn ∧ neg = true) then f.maxc + 1 else f.maxc) + (if neg then 2 ^ f.mag else 0))

/-- What a function form gives for a special operand, and its flags (R340). -/
def fnSpecial (fn : Fn) (v : FVal) : Option (FVal × Flags) := match v with
  | .nan s => some (.nan false, if s then fNV else 0)
  | .inf n => some (match fn with
    | .rcp => (.num n 0 0, 0)
    | .rsq => if n then (.nan false, fNV) else (.num false 0 0, 0)
    | .sqrt | .log2 => if n then (.nan false, fNV) else (.inf false, 0)
    | .exp2 => if n then (.num false 0 0, 0) else (.inf false, 0)
    | .sin | .cos => (.nan false, fNV)
    | .tanh => (.num n 1 0, 0))
  | .num n m _ =>
    if m = 0 then some (match fn with
      | .rcp | .rsq => (.inf n, fDZ)
      | .sqrt | .sin | .tanh => (.num n 0 0, 0)
      | .exp2 | .cos => (.num false 1 0, 0)
      | .log2 => (.inf true, fDZ))
    else if n && (fn == .rsq || fn == .sqrt || fn == .log2) then some (.nan false, fNV)
    else none

/-- A code of a format stands for a value: a NaN's canonical code, an infinity, or a number with its sign. -/
def codeIs (f : Fmt) (z : Nat) (v : FVal) : Prop := z < 2 ^ (f.mag + 1) ∧ match v with
  | .nan _ => some z = f.nan
  | .inf n => unpack f z = .inf n
  | .num n _ _ => (unpack f z).neg = n ∧ ∃ q x : Int, v.isAt q x ∧ (unpack f z).isAt q x

/-- The exact value of a form that is not rounded correctly. -/
def fnReal (fn : Fn) (r y : ℝ) : Prop := match fn with
  | .rcp => y = 1 / r
  | .rsq => y = 1 / Real.sqrt r
  | .sqrt => y = Real.sqrt r
  | .exp2 => y = (2 : ℝ) ^ r
  | .log2 => y = Real.logb 2 r
  | .sin => y = Real.sin r
  | .cos => y = Real.cos r
  | .tanh => y = Real.tanh r

/-- An f32 result w lies as near the exact value y of a form of r as R341 asks; ulp(y) is 2^(max(k, −126) − 23) for 2^k ≤ |y| < 2^(k + 1). -/
def fnBound (fn : Fn) (r y w : ℝ) : Prop := ∀ k : Int, (2 : ℝ) ^ k ≤ |y| → |y| < (2 : ℝ) ^ (k + 1) →
  let ulp : ℝ := (2 : ℝ) ^ (max k (-126) - 23)
  match fn with
  | .log2 => ((1 / 2 ≤ r ∧ r ≤ 2) → |w - y| ≤ (2 : ℝ) ^ (-22 : Int)) ∧ (¬ (1 / 2 ≤ r ∧ r ≤ 2) → |w - y| ≤ 2 * ulp)
  | .sin | .cos | .tanh => |w - y| ≤ max (2 * ulp) ((2 : ℝ) ^ (-23 : Int))
  | _ => |w - y| ≤ 2 * ulp

/-- The operands for which a form is exact (R340). -/
def fnExact (fn : Fn) (r y : ℝ) : Prop := match fn with
  | .rsq => ∃ n : Int, r = (4 : ℝ) ^ n
  | .exp2 => ∃ n : Int, r = n ∧ fmtF32.gridReal fmtF32.lo y
  | .log2 => ∃ n : Int, r = (2 : ℝ) ^ n
  | _ => False

/-- The f32 result of a form that is not rounded correctly, and its flags (R340 to R342): exact where R340 says so; of `FRSQ` a neighbour of the
exact value, of the others one within the bound; past the range of `FEXP2` infinity. -/
def fnSingle (fn : Fn) (r : ℝ) (c : Nat) (fl : Flags) : Prop := c < 2 ^ 32 ∧ ∃ y, fnReal fn r y
  ∧ (fn = .exp2 → 128 ≤ r → unpack fmtF32 c = .inf false ∧ fl = fOF ||| fNX)
  ∧ ((fn = .exp2 → r < 128) → ∃ w, (unpack fmtF32 c).realIs w
    ∧ (fnExact fn r y → w = y ∧ fl = 0)
    ∧ (¬ fnExact fn r y → |w| < (2 : ℝ) ^ (-126 : Int) → fl = fNX ||| fUF) ∧ (¬ fnExact fn r y → (2 : ℝ) ^ (-126 : Int) ≤ |w| → fl = fNX)
    ∧ (fn = .rsq → ¬ fnExact fn r y → nearestReal .rdn (fmtF32.gridReal fmtF32.lo) (fun _ => True) y w
      ∨ nearestReal .rup (fmtF32.gridReal fmtF32.lo) (fun _ => True) y w)
    ∧ (fn ≠ .rsq → fnBound fn r y w))

/-- Such a form on an element of a format: in a 16-bit one its f32 result rounded to nearest, the flags judged on what comes out (R341, R342). -/
def fnRounded (fn : Fn) (f : Fmt) (r : ℝ) (x : Elem) : Prop :=
  if f.mb = 23 then fnSingle fn r x.1 x.2
  else ∃ (c : Nat) (fl gl : Flags), fnSingle fn r c fl ∧ convertIs f .rne (unpack fmtF32 c) (x.1, gl)
    ∧ (fn = .exp2 → 128 ≤ r → x.2 = fl)
    ∧ ((fn = .exp2 → r < 128) → ∃ y, fnReal fn r y ∧ (fnExact fn r y → x.2 = gl)
      ∧ (¬ fnExact fn r y → x.2 = gl ||| fNX ||| if x.1 % 2 ^ f.mag < 2 ^ f.mb then fUF else 0))

/-! ## Numbers of tiles (R73 to R76, R88 to R90, R109) -/

/-- The value of a scale's code: of the e4m3 layout its number, of the others a power of two, 1 without scales; a NaN code has none. -/
def codeScale (scl c : Nat) (y : ℝ) : Prop := match scl with
  | 0 => y = 1
  | 4 => (unpack fmtE4m3 c).realIs y
  | _ => c < 255 ∧ y = (2 : ℝ) ^ ((c : Int) - 127)

/-- The block of position k in a thread's run. -/
def THdr.blockAt (h : THdr) (k : Nat) : Nat := if h.block = 0 then 0 else k / h.block

/-- The scale code that `TCVT` gives block b of a thread with these values: the least whose scale brings each finite value within the format,
or the last; 1.0 for a block with no finite value but zeros. -/
def scaleChosen (d : THdr) (x : Nat → FVal) (b c : Nat) : Prop :=
  let low := if d.scl = 4 then 1 else 0
  let last := if d.scl = 4 then 0x7E else 254
  let within (sc top : ℝ) : Prop := ∀ k ∈ d.blockCells b, ∀ y, (x k).realIs y → |y| ≤ sc * top
  low ≤ c ∧ c ≤ last
  ∧ ((∀ k ∈ d.blockCells b, ∀ y, (x k).realIs y → y = 0) → codeScale d.scl c 1)
  ∧ ∀ k y top, k ∈ d.blockCells b → (x k).realIs y → y ≠ 0 → (unpack (Fmt.ofTy d.ty) (Fmt.ofTy d.ty).maxc).realIs top →
    (∀ sc, codeScale d.scl c sc → within sc top ∨ c = last) ∧ ∀ c' sc, low ≤ c' → c' < c → codeScale d.scl c' sc → ¬ within sc top

/-- A value over a scale, narrowed into a tile's format (R88): the code it is rounded to, or none where it overflows. -/
def narrowsTo (t : Ty) (v : FVal) (sc : ℝ) (z : Option Nat) : Prop := match v with
  | .nan _ => z = if tyIsInt t then none else (Fmt.ofTy t).nan
  | .inf n => (z = none ↔ tyIsInt t = true ∨ (Fmt.ofTy t).inf = false) ∧ ∀ c, z = some c → c < 2 ^ ((Fmt.ofTy t).mag + 1) ∧ unpack (Fmt.ofTy t) c = .inf n
  | .num n _ _ => ∀ y, v.realIs y →
    if tyIsInt t then ∃ k : Int, nearestReal .rne (fun w => ∃ j : Int, w = j) (fun w => ∃ j : Int, w = 2 * j) (y / sc) k
      ∧ (tyMin t ≤ k → k ≤ tyMax t → ∃ c, z = some c ∧ Wraps t k c) ∧ (k < tyMin t ∨ tyMax t < k → z = none)
    else let f := Fmt.ofTy t
      ∃ w top, nearestReal .rne (f.gridReal f.lo) (f.evenReal f.lo) (y / sc) w ∧ (unpack f f.maxc).realIs top
      ∧ (|w| ≤ top → ∃ c, z = some c ∧ c < 2 ^ (f.mag + 1) ∧ (unpack f c).realIs w ∧ (unpack f c).neg = n) ∧ (top < |w| → z = none)

/-- The value of an outlier entry is the unscaled value (R89): f32, or i32 for an integer format, where that holds it. -/
def entryHolds (t : Ty) (v : FVal) (x : Nat) : Prop := match v with
  | .nan _ => tyIsInt t = false → x = 0x7FC00000
  | .inf n => tyIsInt t = false → unpack fmtF32 x = .inf n
  | .num _ _ _ => ∀ y, v.realIs y →
    if tyIsInt t then ∀ j : Int, y = j → -2 ^ 31 ≤ j → j < 2 ^ 31 → sgn 32 x = j else (∃ c, (unpack fmtF32 c).realIs y) → (unpack fmtF32 x).realIs y

/-- An element of a narrowed fragment (R88 to R90): its code; or 0 with its entry in the list; or, where the list is full of entries of earlier
elements, the limit of its sign, and the loss is noted. -/
def narrowedCell (d : THdr) (f : Frag) (lost : Bool) (row col : Nat) (v : FVal) (sign : Bool) (z : Option Nat) : Prop :=
  let idx := row * 2 ^ d.cols + col
  match z with
  | some c => cellRaw f row col = c % 2 ^ d.width ∧ ∀ e ∈ f.list, e.1 ≠ idx
  | none => (cellRaw f row col = 0 ∧ ∃ e ∈ f.list, e.1 = idx ∧ entryHolds d.ty v e.2)
    ∨ (f.h.ocnt = d.cap ∧ lost = true ∧ (∀ e ∈ f.list, e.1 < idx)
      ∧ cellRaw f row col = limitCode d.ty (if v.isNaN then sign else v.neg) % 2 ^ d.width)

/-- X is the integer that a res48 element stands for (R73). -/
def standsFor (x : Nat) (X : Int) : Prop :=
  (∀ n m, (n, m) ∈ [(0, 65521), (16, 65535), (32, 65536)] → (X - ((x / 2 ^ n % 2 ^ 16 : Nat) : Int)) % (m : Nat) = 0)
  ∧ -140703129108480 ≤ X ∧ X ≤ 140703129108479

/-- The canonical residues of an integer. -/
def residuesOf (X : Int) (x : Nat) : Prop :=
  x < 2 ^ 48 ∧ ∀ n m, (n, m) ∈ [(0, 65521), (16, 65535), (32, 65536)] → ((x / 2 ^ n % 2 ^ 16 : Nat) : Int) = X % (m : Nat)

/-- The exponent of a block of `TRES` (R75): of integers 0; of floats the greatest of their exponents less F, not below −127, or 0. -/
def resScale (d : THdr) (int : Bool) (frac : Nat) (x : Nat → FVal) (b : Nat) (sexp : Int) : Prop :=
  (int = true → sexp = 0) ∧ (int = false →
    ((∀ k ∈ d.blockCells b, ∀ y, (x k).realIs y → y = 0) → sexp = 0)
    ∧ ∀ k (y : ℝ) (e : Int), k ∈ d.blockCells b → (x k).realIs y → (2 : ℝ) ^ e ≤ |y| →
      (∀ j ∈ d.blockCells b, ∀ y, (x j).realIs y → |y| < (2 : ℝ) ^ (e + 1)) → sexp = max (e - frac) (-127))

/-- One element of `TRES`, and whether it sets `sat`: an integer modulo the range; a float over its scale, rounded to an integer, in range, else 0. -/
def resCell (int : Bool) (v : FVal) (sexp : Int) (z : Nat) (sat : Prop) : Prop :=
  ((v.isNaN = true ∨ v.isInf = true) → z = 0 ∧ sat) ∧ ∀ y, v.realIs y →
    ∃ X : Int, nearestReal .rne (fun w => ∃ j : Int, w = j) (fun w => ∃ j : Int, w = 2 * j) (y / (2 : ℝ) ^ sexp) X
      ∧ (sat ↔ X < -140703129108480 ∨ 140703129108479 < X)
      ∧ (int = true ∨ (-140703129108480 ≤ X ∧ X ≤ 140703129108479) → residuesOf X z)
      ∧ (int = false → X < -140703129108480 ∨ 140703129108479 < X → z = 0)

/-- One element of `TCRT` with its scale, in f32 (R76). -/
def crtCell (x : Nat) (scale : FVal) (z : Nat) : Prop :=
  (scale.isNaN = true → z = 0x7FC00000)
  ∧ ∀ X sc, standsFor x X → scale.realIs sc →
    ((X : ℝ) * sc = 0 → (unpack fmtF32 z).realIs 0 ∧ z < 2 ^ 32) ∧ ((X : ℝ) * sc ≠ 0 → ∃ fl, fmtF32.roundsReal .rne (X * sc) z fl)

/-! ## Boxes (R218, R374) -/

/-- The exponent code of a frame's axis: 255 with a NaN bound, 0 where the extent is not positive, else the least that covers it; of an infinite
extent none is stated. -/
def frameIs (lo hi code : Nat) : Prop :=
  code < 256 ∧ ((f32v lo).isNaN = true ∨ (f32v hi).isNaN = true → code = 255) ∧ (ltV (f32v hi) (f32v lo) = true → code = 0)
  ∧ ∀ q x y : Int, q ≤ -149 → (f32v lo).isAt q x → (f32v hi).isAt q y →
    (y ≤ x → code = 0)
    ∧ (x < y → code < 255 ∧ y - x ≤ 255 * 2 ^ ((code : Int) - 127 - q).toNat
      ∧ ∀ c : Nat, c < code → 255 * 2 ^ ((c : Int) - 127 - q).toNat < y - x)

/-- The four words of `QBOX.FR`: the box's low corner, and the codes in bytes 0 to 2. -/
def frameWords (box : Nat → Nat) (ws : List Nat) : Prop :=
  ∃ w, ws = [box 0, box 1, box 2, w] ∧ w < 2 ^ 24 ∧ ∀ a, a < 3 → frameIs (box a) (box (3 + a)) (w / 256 ^ a % 256)

/-- A bound x quantised from an origin in units of 2^(code − 127), down or up, clamped to 0..255. -/
def quantIs (up : Bool) (x org code byte : Nat) : Prop :=
  (∀ n, subV (f32v x) (f32v org) = .inf n → byte = if n then 0 else 255)
  ∧ ∀ q y o : Int, q ≤ -149 → (f32v x).isAt q y → (f32v org).isAt q o →
    let u : Int := 2 ^ ((code : Int) - 127 - q).toNat
    (byte : Int) = min (max (if up then -(-(y - o) / u) else (y - o) / u) 0) 255

/-- The two words of `QBOX`: bounds that are never hit where a code is 255 or a bound a NaN, else each of the six bounds in its byte. -/
def boxWords (box frame : Nat → Nat) (ws : List Nat) : Prop :=
  ∃ w, ws = [w % 2 ^ 32, w / 2 ^ 32] ∧ w < 2 ^ 48
    ∧ (((∃ a, a < 3 ∧ frame 3 / 256 ^ a % 256 = 255) ∨ (∃ a, a < 6 ∧ (f32v (box a)).isNaN = true)) → w = 0x00FFFFFF)
    ∧ ((∀ a, a < 3 → frame 3 / 256 ^ a % 256 ≠ 255) → (∀ a, a < 6 → (f32v (box a)).isNaN = false) → ∀ a, a < 6 →
      quantIs (decide (3 ≤ a)) (box a) (frame (a % 3)) (frame 3 / 256 ^ (a % 3) % 256) (w / 256 ^ a % 256))

/-- The snapshots of four s registers, as a scene word captures them (R214): two low words, and bit 31 of the words after them. -/
def snapsAt (g : Group) (c : Opd) : Snaps where
  s0 := (g.getS (sFirst c)).toNat
  s1 := (g.getS (sFirst c + 2)).toNat
  e0 := (g.getS (sFirst c + 1)).getLsbD 31
  e1 := (g.getS (sFirst c + 3)).getLsbD 31

/-! ## Events -/

/-- n bytes of a memory from an address on are those given, and no other byte differs. -/
def Written (m m' : Memory) (a n : Nat) (byte : Nat → Byte) : Prop :=
  ∀ x, Memory.read m' x = if a ≤ x ∧ x < a + n then byte (x - a) else Memory.read m x

/-- No access of the group is outstanding that one issued as number `seq` waits for: no load or atomic issued before it, save a prefetch
and a parked one that is no acquire; and of those before `after` no parked one (R156, R158, R337, R373). -/
def Group.noneBefore (g : Group) (seq after : Nat) : Prop :=
  ∀ n x o, (n, x) ∈ g.tags → x.op = some o → o.todo ≠ 0 → o.seq < seq → o.isPref = false →
    o.parked ≠ none ∧ o.acquires = false ∧ after ≤ o.seq

/-- Lines as they arrived: each was answered, none by a fault, none poisoned. -/
def Fetched.whole (f : Fetched) : Prop := f.fault = none ∧ f.faulted = [] ∧ f.poisoned = [] ∧ f.stuck = false

/-- The byte of an address in lines that arrived. -/
def gotByte (got : SMap Got) (va : Nat) : Byte := match got.find (va / 128) with
  | some y => lineByte y.data (va % 128)
  | none => 0

/-- The lines that lanes of a mask ask for, n bytes each from their addresses. -/
def laneAsks (m : Mask) (n : Nat → Nat) (a : Nat → Nat) : List (Nat × Nat) :=
  linesOf ((maskLanes m).map (fun i => (List.range (n i)).map (fun j => ((a i + j) % 2 ^ 64, 1)))).flatten

/-- An outstanding word whose lanes have all finished with these writes; what it noted of absent lines is left open. -/
def POp.finished (o o' : POp) (ws : List Wr) : Prop := ∃ c, o' = { o with todo := 0, res := o.res ++ ws, counted := c }

/-- A launch has failed for a cause: its queue is frozen and names it, its task fails, its resident groups are killed (R66, R67). -/
structure LaunchFailed (s t : State) (q n : Nat) (tk : Task) (why : Byte) : Prop where
  frozen : (t.queue q).frozen = true
  cause : (t.queue q).fcause = why
  which : (t.queue q).fseq = BitVec.ofNat 64 n
  task : t.task q n = some { tk with failing := true, fcause := why }
  killed : ∀ key k p g, s.gang key = some k → k.queue = q → k.seqNo = n → p ∈ k.places → s.grp p = some g →
    ∃ g', t.grp p = some g' ∧ g'.st = .killed

/-- The task of a launch that can still fail. -/
def State.running (s : State) (q n : Nat) (tk : Task) : Prop := s.task q n = some tk ∧ tk.failing = false ∧ tk.st < 4

/-- A request at the head of an engine's queue, with no other on its way there, waiting for nothing, and met by no fault. -/
structure State.EngAt (s : State) (d e : Nat) (r : EngReq) : Prop where
  head : ((s.die d).engine e).head? = some r
  kicks : ∀ c k q, c ∈ dieCores d → (s.core c).kick = some (k, q) → k ≠ e
  idle : s.waiting (.engine d e) = false
  clear : r.met = false

/-- A command at the head of a splicer's or a coiler's queue, waiting for nothing. -/
def State.TreeAt (s : State) (u : TreeUnit) (d n : Nat) (r : TreeReq) (rest : List TreeReq) : Prop :=
  s.treeQueue u d n = r :: rest ∧ s.waiting (u.req d n) = false

/-- The head goes on as another, or is gone. -/
def State.treeNow (s : State) (u : TreeUnit) (d n : Nat) (r : Option TreeReq) (rest : List TreeReq) : State :=
  s.setTreeQueue u d n (r.toList ++ rest)

/-- A core holds a line in one of the coherent states, in its L1 and not bound in a stash. -/
structure State.Has (s : State) (c ctx va : Nat) (y : Copy) : Prop where
  copy : (s.core c).l1.find (lineKey ctx va) = some y
  unbound : s.boundOff c ctx va = none
  plain : y.stash = none

/-- A core holds nothing of a line, and has not bound it. -/
def State.hasNone (s : State) (c ctx va : Nat) : Prop :=
  (s.core c).l1.find (lineKey ctx va) = none ∧ s.boundOff c ctx va = none

/-- A core's L1 has room for a line, its copy of that line aside (R11). -/
def State.l1Fits (s : State) (c ctx va : Nat) : Prop := ((s.core c).dropCopy (lineKey ctx va)).l1Used + 4 ≤ Config.l1Sectors

/-- No push of a line is on its way to a core. -/
def State.noPush (s : State) (c ctx va : Nat) : Prop := ∀ x ∈ s.pushes, x.isTo c ctx va = false

/-- The lease of a class (R141). -/
def leaseOf (cls : Nat) : Nat := 16 * 4 ^ cls

/-- The home of a line, after an event. -/
def State.homeIs (s : State) (d ctx va : Nat) (h : HomeLine) : Prop := (s.die d).l2.find (lineKey ctx va) = some h

end Sys2Proof.Machine
end

