-- ==== Sys2Proof/Certificates/Slice0/Obligations.lean ====
section
/-!
DEFINITION. The statements for the provers.
-/
open Sys2Proof Sys2Proof.Machine

/-! ## Arithmetic words -/

/-- R345, R347, R354: the add family, the products and `LEA` write D := the stated value in every executing lane and nothing else. -/
def Obligations.IntegerArithmetic : Prop :=
  ∀ (i : Instr) (a : Alu) (s : State) (p : Nat) (g : Group), arithRow i = some a → s.Issues p g i a.regs → a.noQueue →
    ∃ val fl, a.right g [] val fl ∧ exec i s = .next (s.wrote p (a.after g val fl))

/-- R309, R310, R313, R316, R320, R355, R356, R372, R379, R381: every bit of a logic, shift or bit-field result; `MOV`, `MOVI` and `SEL`. -/
def Obligations.BitsAndMoves : Prop :=
  (∀ (i : Instr) (a : Alu) (s : State) (p : Nat) (g : Group), bitRow i = some a → s.Issues p g i a.regs → a.noQueue →
    ∃ val fl, a.right g [] val fl ∧ exec i s = .next (s.wrote p (a.after g val fl)))
  ∧ (∀ (i : Instr) (a : Alu) (s : State) (p : Nat) (g : Group), moveRow i = some a → s.Issues p g i a.regs → a.noQueue →
    ∃ val fl, a.right g [] val fl ∧ exec i s = .next (s.wrote p (a.after g val fl)))

/-- R43, R85 to R87, R93, R94, R329 to R338: every float word: packing, rounding mode, destination half or element, and whose flags it raises. Against
exact values: minima, maxima and comparisons, classes, scaling, exponents, rounding to an integral value, and the conversions. What its rounded
sums and products are, `AtomicArithmetic` states; what the function forms are, `FunctionForms` and `FunctionBounds`. -/
def Obligations.FloatWords : Prop :=
  (∀ (i : Instr) (a : Alu) (s : State) (p : Nat) (g : Group), floatRow i = some a → s.Issues p g i a.regs → a.noQueue →
    ∃ val fl, a.right g [] val fl ∧ exec i s = .next (s.wrote p (a.after g val fl)))
  ∧ (∀ (f : Fmt) (rm : Rm) (a b : Nat) (n : Int), f ∈ [fmtF32, fmtF16, fmtBf16] → a < 2 ^ (f.mag + 1) → b < 2 ^ (f.mag + 1) →
    (∀ big, minMaxIs f big a b (fMinMax f big a b))
    ∧ (∀ cond, cond < 8 → compareIs cond (unpack f a) (unpack f b) (fCmp f cond a b))
    ∧ scaleIs f rm a n (fScale f rm a n) ∧ integralIs f rm a (fRnd f rm a) ∧ expIs f (unpack f a) (expOf f a))
  ∧ (∀ (f : Fmt) (a : Nat), f ∈ [fmtF32, fmtF16, fmtBf16, fmtE5m2, fmtE4m3, fmtE3m2, fmtE2m1] → classIs f (unpack f a) (fClass f a))
  ∧ (∀ (dt st : Ty) (rm : Rm) (a : Nat), dt ∈ [Ty.f32, .f16, .bf16, .e5m2, .e4m3, .e3m2, .e2m1, .e8m0] →
    st ∈ [Ty.f32, .f16, .bf16, .e5m2, .e4m3, .e3m2, .e2m1, .e8m0] → a < 2 ^ tyWidth st →
    (dt ≠ .e8m0 → convertIs (Fmt.ofTy dt) rm (unpackTy st a) (fCvt dt st rm a))
    ∧ (dt = .e8m0 → if st = .e8m0 then fCvt dt st rm a = (a, 0) else scaleCodeIs rm (unpackTy st a) (fCvt dt st rm a)))
  ∧ (∀ (t : Ty) (rm : Rm) (v : FVal), integerIs t rm v (f2i t rm v))
  ∧ (∀ (t : Ty) (rm : Rm) (x q : Int), t ∈ [Ty.f32, .f16, .bf16] → q ≤ (Fmt.ofTy t).lo → (x = 0 → i2f t rm x = (0, 0))
    ∧ (x ≠ 0 → (Fmt.ofTy t).rounds rm q (x * 2 ^ (-q).toNat) (i2f t rm x).1 (i2f t rm x).2))

/-- R339 to R342: the function forms' results for special operands, and against the real value of the function: a reciprocal and a square root are
rounded correctly by the mode; a reciprocal square root is exact or a neighbour of the exact value, in f32, and that rounded to nearest in a
16-bit type. Which neighbour it is stays open (log entry 6). -/
def Obligations.FunctionForms : Prop :=
  ∀ (fn : Fn) (f : Fmt) (rm : Rm) (a : Nat), f ∈ [fmtF32, fmtF16, fmtBf16] → a < 2 ^ (f.mag + 1) →
    (∀ v fl, fnSpecial fn (unpack f a) = some (v, fl) → codeIs f (fnElem fn f rm a).1 v ∧ (fnElem fn f rm a).2 = fl)
    ∧ (∀ r : ℝ, fnSpecial fn (unpack f a) = none → (unpack f a).realIs r →
      (fn = .rcp ∨ fn = .sqrt → ∃ y, fnReal fn r y ∧ f.roundsReal rm y (fnElem fn f rm a).1 (fnElem fn f rm a).2)
      ∧ (fn = .rsq → fnRounded fn f r (fnElem fn f rm a)))

/-- R340 to R342: exponential, logarithm, sine, cosine and hyperbolic tangent lie within the bound of R341 of the function's real value, in f32, and
are that rounded to nearest in a 16-bit type; they are exact where R340 says so, with the flags of R342. Which value within the bound it is
stays open (log entry 6). -/
def Obligations.FunctionBounds : Prop :=
  ∀ (fn : Fn) (f : Fmt) (rm : Rm) (a : Nat) (r : ℝ), f ∈ [fmtF32, fmtF16, fmtBf16] → a < 2 ^ (f.mag + 1) → fn ∈ [Fn.exp2, .log2, .sin, .cos, .tanh] →
    fnSpecial fn (unpack f a) = none → (unpack f a).realIs r → fnRounded fn f r (fnElem fn f rm a)

/-- R33, R307, R357 to R359, R375, R376, R380: lane exchanges read the other lanes' registers at issue, whether or not these execute; ballots,
counts, matches, reductions and scans go over the threads of E that are not helpers; each leaves its result for its window. -/
def Obligations.LaneWords : Prop :=
  (∀ (i : Instr) (a : Alu) (s : State) (p : Nat) (g : Group), laneRow i = some a → s.Issues p g i a.regs → a.noQueue →
    ∃ val fl, a.right g [] val fl ∧ exec i s = .next (s.wrote p (a.after g val fl)))
  ∧ (∀ (i : Instr) (a : Gather) (s : State) (p : Nat) (g : Group), gatherRow i = some a →
    s.Issues p g i (opdRegs a.d (if a.dw then 2 else 1) ++ a.vs) →
    ∃ val, (∀ n, g.exec a.h.guard ≠ 0 → (if a.d.isS then n = 0 else (g.exec a.h.guard).getLsbD n = true) → a.rel g (g.exec a.h.guard) n (val n))
      ∧ exec i s = .next (s.wrote p (a.after g val)))

/-- R326, R336, R346, R371, R402: compares and `PLOG` write their predicate in the threads of E at once, `VOTE` and `ELECT` in
their window, thread by thread; p0 discards. -/
def Obligations.PredicateWords : Prop :=
  (∀ (i : Instr) (a : PredW) (s : State) (p : Nat) (g : Group), predRow i = some a → s.Issues p g i ((a.xs.map SrcOp.regs).flatten) →
    queuesOf (a.xs.map (·.o)) = [] →
    ∃ vals fl, a.right g [] vals fl ∧ exec i s = .next (s.wrote p (a.after g vals fl)))
  ∧ (∀ (h : Hdr) (f pd pa pb : BitVec 3) (s : State) (p : Nat) (g : Group), s.Issues p g (.plog h f pd pa pb) [] →
    ∃ vals : Mask, (∀ i, i < 32 → vals.getLsbD i = logicBit f.toNat ((g.getP pa.toNat).getLsbD i) ((g.getP pb.toNat).getLsbD i))
      ∧ exec (.plog h f pd pa pb) s = .next (s.wrote p ((g.setP pd.toNat (g.exec h.guard) vals).issued h.sched g.lpend.length g.npc)))
  ∧ (∀ (h : Hdr) (mode pd pa : BitVec 3) (s : State) (p : Nat) (g : Group), s.Issues p g (.vote h mode pd pa) [] →
    ∃ vals : Mask, (voteHolds mode (parts g (g.exec h.guard)) (g.getP pa.toNat) → vals = BitVec.allOnes 32)
      ∧ (¬voteHolds mode (parts g (g.exec h.guard)) (g.getP pa.toNat) → vals = 0)
      ∧ exec (.vote h mode pd pa) s = .next (s.wrote p
        ((g.leave h.sched.la (eachP pd.toNat (g.exec h.guard) vals)).issued h.sched g.lpend.length g.npc)))
  ∧ (∀ (h : Hdr) (pd : BitVec 3) (s : State) (p : Nat) (g : Group), s.Issues p g (.elect h pd) [] →
    ∃ vals : Mask, (∀ i : Nat, i < 32 → (vals.getLsbD i = true ↔ (parts g (g.exec h.guard)).getLsbD i = true
          ∧ ∀ j, j < i → (parts g (g.exec h.guard)).getLsbD j = false))
      ∧ exec (.elect h pd) s = .next (s.wrote p
        ((g.leave h.sched.la (eachP pd.toNat (g.exec h.guard) vals)).issued h.sched g.lpend.length g.npc)))

/-- R42, R242, R243: a word that names queues pops each source queue's head once, gives lane i its word i, and pushes one entry; it
takes the queues for its context. It waits, nothing popped or written, while a source queue is empty, its destination is full, or another
context owns the queues. With E empty it takes them and moves no entry. -/
def Obligations.QueueOperands : Prop :=
  (∀ (i : Instr) (a : Alu) (s : State) (p : Nat) (g : Group), aluRow i = some a → s.Issues p g i a.regs →
    a.uniform = false → (a.popsOf ≠ [] ∨ a.pushesTo ≠ []) →
    ((s.core (placeCore p)).mayOwn g.ctx = false → exec i s = .next (s.wrote p g.hold))
    ∧ ((s.core (placeCore p)).mayOwn g.ctx = true → g.exec a.h.guard = 0 → exec i s
      = .next ((s.setCore (placeCore p) { s.core (placeCore p) with qowner := some g.ctx }).wrote p (a.after g (fun _ => 0) (fun _ => 0))))
    ∧ ((s.core (placeCore p)).mayOwn g.ctx = true → g.exec a.h.guard ≠ 0 →
      ((s.core (placeCore p)).pops a.popsOf = none →
        exec i s = .next ((s.setCore (placeCore p) { s.core (placeCore p) with qowner := some g.ctx }).wrote p g.hold))
      ∧ ∀ (k : Core) (pops : Popped), (s.core (placeCore p)).pops a.popsOf = some (k, pops) →
        (∀ n, a.d = .q n → 16 ≤ (k.queue n.toNat).length →
          exec i s = .next ((s.setCore (placeCore p) { s.core (placeCore p) with qowner := some g.ctx }).wrote p g.hold))
        ∧ ((∀ n, a.d = .q n → (k.queue n.toNat).length < 16) →
          ∃ val fl, a.right g pops val fl ∧ exec i s = .next ((s.setCore (placeCore p) { (match a.d with
            | .q n => k.setQ n.toNat (k.queue n.toNat
                ++ [(maskLanes (g.exec a.h.guard)).foldl (fun m j => SMap.setD m j (BitVec.ofNat 32 (val j)) 0) []])
            | _ => k) with qowner := some g.ctx }).wrote p (a.after g val fl)))))
  ∧ (∀ (i : Instr) (a : PredW) (s : State) (p : Nat) (g : Group) (k : Core) (pops : Popped), predRow i = some a →
    s.Issues p g i ((a.xs.map SrcOp.regs).flatten) → queuesOf (a.xs.map (·.o)) ≠ [] → (s.core (placeCore p)).mayOwn g.ctx = true →
    (if g.exec a.h.guard = 0 then some (s.core (placeCore p), []) else (s.core (placeCore p)).pops (queuesOf (a.xs.map (·.o)))) = some (k, pops) →
    ∃ vals fl, a.right g pops vals fl ∧ exec i s
      = .next ((s.setCore (placeCore p) { k with qowner := some g.ctx }).wrote p (a.after g vals fl)))

/-- R285, R286: both halves of a dual word take their sources before either writes, and each acts as its full word. -/
def Obligations.DualWords : Prop :=
  ∀ (x : Sched) (h0 h1 : HalfW) (s : State) (p : Nat) (g : Group), s.Issues p g (.dualWord x h0 h1) ((h0.regs ++ h1.regs).map (·.toNat)) →
    ∃ w0 f0 w1 f1, halfRight h0 g w0 f0 ∧ halfRight h1 g w1 f1
      ∧ exec (.dualWord x h0 h1) s = .next (s.wrote p (((g.raise (f0 ||| f1)).wrs (w0 ++ w1)).issued x g.lpend.length g.npc))

/-! ## Control -/

/-- R34, R301, R317, R319, R377: a uniform branch is taken, is not taken, or raises `DIVERGENT_BRANCH` with the guard ballot; a relative
target outside the owner's space raises `ILLEGAL` before any effect; `CALL` writes the next slot's address when it is taken; an indirect
branch goes where the threads of A agree, and raises `DIVERGENT_BRANCH` where their targets differ. -/
def Obligations.Branches : Prop :=
  (∀ (h : Hdr) (d : Opd) (t : Word) (s : State) (p : Nat) (g : Group),
    (s.Issues p g (.bra h t) [] →
      (branchTo g.pc t.toInt = none → exec (.bra h t) s = .next (s.trapsAt p g .illegal g.ir))
      ∧ ∀ pc, branchTo g.pc t.toInt = some pc →
        (takenBy g h.guard = 0 → exec (.bra h t) s = .next (s.wrote p (g.at h g.lpend.length g.npc)))
        ∧ (takenBy g h.guard = g.act → g.act ≠ 0 → exec (.bra h t) s = .next (s.wrote p (g.at h g.lpend.length pc)))
        ∧ (takenBy g h.guard ≠ 0 → takenBy g h.guard ≠ g.act →
          exec (.bra h t) s = .next (s.trapsAt p g .divergentBranch ((takenBy g h.guard).setWidth 64))))
    ∧ (s.Issues p g (.call h d t) [] →
      (branchTo g.pc t.toInt = none → exec (.call h d t) s = .next (s.trapsAt p g .illegal g.ir))
      ∧ ∀ pc, branchTo g.pc t.toInt = some pc →
        (takenBy g h.guard = 0 → exec (.call h d t) s = .next (s.wrote p (g.at h g.lpend.length g.npc)))
        ∧ (takenBy g h.guard = g.act → g.act ≠ 0 → exec (.call h d t) s
          = .next (s.wrote p ((g.wrs (dstWr 0 d true g.npc.toNat)).at h g.lpend.length pc)))
        ∧ (takenBy g h.guard ≠ 0 → takenBy g h.guard ≠ g.act →
          exec (.call h d t) s = .next (s.trapsAt p g .divergentBranch ((takenBy g h.guard).setWidth 64)))))
  ∧ (∀ (h : Hdr) (a : Opd) (s : State) (p : Nat) (g : Group) (i : Instr), (i = .brx h a ∨ i = .ret h a) →
    s.Issues p g i (opdRegs a 2) →
    (∀ n m, g.act.getLsbD n = true → g.act.getLsbD m = true → g.read [] n (src a true .none) ≠ g.read [] m (src a true .none) →
      exec i s = .next (s.trapsAt p g .divergentBranch ((takenBy g h.guard).setWidth 64)))
    ∧ ∀ target : DWord, (∀ n, g.act.getLsbD n = true → g.read [] n (src a true .none) = target.toNat) →
    (takenBy g h.guard = 0 → exec i s = .next (s.wrote p (g.at h g.lpend.length g.npc)))
    ∧ (takenBy g h.guard = g.act → g.act ≠ 0 → exec i s = .next (s.wrote p (g.at h g.lpend.length target)))
    ∧ (takenBy g h.guard ≠ 0 → takenBy g h.guard ≠ g.act →
      exec i s = .next (s.trapsAt p g .divergentBranch ((takenBy g h.guard).setWidth 64))))

/-- R35, R36: opening and leaving a divergent region, and joining. The stack holds 16 entries, 8 in trap mode. Where the last thread
leaves by the exit form, the slot after J follows by the `count` of J's line (R261), which is read where it is not in the instruction
cache; that such a read stops as a fetch does is read by inference (log entry 24). -/
def Obligations.Divergence : Prop :=
  (∀ (h : Hdr) (t : Word) (j : Half) (s : State) (p : Nat) (g : Group) (tp jp : DWord), s.Issues p g (.brd h t j) [] →
    branchTo g.pc t.toInt = some tp → branchTo g.pc j.toInt = some jp →
    (t.toInt ≠ j.toInt →
      (g.div.length = (if g.inTrap then 8 else 16) → exec (.brd h t j) s = .next (s.trapsAt p g .divOverflow 0))
      ∧ (g.div.length < (if g.inTrap then 8 else 16) →
        (takenBy g h.guard ≠ 0 → exec (.brd h t j) s = .next (s.wrote p (Group.at { g with
          act := takenBy g h.guard
          div := { j := jp, m := g.act, p := g.act &&& ~~~(g.guard h.guard), pp := g.npc } :: g.div } h g.lpend.length tp)))
        ∧ (takenBy g h.guard = 0 → exec (.brd h t j) s = .next (s.wrote p (Group.at { g with
          act := g.act &&& ~~~(g.guard h.guard)
          div := { j := jp, m := g.act, p := 0, pp := g.npc } :: g.div } h g.lpend.length g.npc)))))
    ∧ (t.toInt = j.toInt →
      ((∀ e r, g.div = e :: r → e.j ≠ jp) → exec (.brd h t j) s = .next (s.trapsAt p g .divMismatch jp))
      ∧ (∀ e r, g.div = e :: r → e.j = jp → g.act &&& ~~~(g.guard h.guard) ≠ 0 →
        exec (.brd h t j) s = .next (s.wrote p (Group.at { g with act := g.act &&& ~~~(g.guard h.guard) } h g.lpend.length g.npc)))
      ∧ (∀ e r, g.div = e :: r → e.j = jp → g.act &&& ~~~(g.guard h.guard) = 0 → e.p ≠ 0 → exec (.brd h t j) s
        = .next (s.wrote p (Group.at { g with act := e.p, div := { e with p := 0 } :: r } h g.lpend.length e.pp)))
      ∧ (∀ e r (t' : State) (l : Line) (g' : Group), g.div = e :: r → e.j = jp → g.act &&& ~~~(g.guard h.guard) = 0 → e.p = 0 →
        s.owner (pcLine jp) ≠ .bad → fetchCode s (placeCore p) g.ctx (pcLine jp) = .ok t' l → lineOk l = true →
        t'.grp p = some g' → g'.div = g.div → g'.act = g.act → exec (.brd h t j) s
          = .next (t'.wrote p (Group.at { g' with act := e.m &&& g'.live, div := r } h g.lpend.length (nextPc jp (lineCount l)))))))
  ∧ (∀ (h : Hdr) (s : State) (p : Nat) (g : Group), s.Issues p g (.join h) [] →
    (∀ g' pc, joined g g.pc g.npc g' pc → exec (.join h) s = .next (s.wrote p (g'.at h g.lpend.length pc)))
    ∧ ((∀ e r, g.div = e :: r → e.j ≠ g.pc) → exec (.join h) s = .next (s.trapsAt p g .divMismatch g.pc)))

/-- R31, R32, R59, R195, R327, R328, R366, R398, R404: `EXIT` ends the threads of A whose guard holds; a group without a live thread retires. `NOP`
only goes on; `YIELD` goes on and yields; `TRAP` and `BKPT` raise their traps at the next instruction, with the immediate, or 0, in `trapinfo`, and
yield where they carry `YLD`. -/
def Obligations.EndOfThreads : Prop :=
  (∀ (h : Hdr) (s : State) (p : Nat) (g : Group), s.Issues p g (.exit h) [] → g.inTrap = false → g.kind = .ordinary →
    ∃ g', ended g g' (takenBy g h.guard)
      ∧ (g'.live ≠ 0 → exec (.exit h) s = .next (s.wrote p (g'.at h g.lpend.length g.npc)))
      ∧ (g'.live = 0 → exec (.exit h) s = .next (s.wrote p { g'.at h g.lpend.length g.npc with st := .retiring })))
  ∧ (∀ (h : Hdr) (s : State) (p : Nat) (g : Group),
    (s.Issues p g (.nop h) [] → exec (.nop h) s = .next (s.wrote p (g.at h g.lpend.length g.npc)))
    ∧ (s.Issues p g (.yield h) [] →
      exec (.yield h) s = .next (s.wrote p { g.at h g.lpend.length g.npc with yielded := true, age := 0 })))
  ∧ (∀ (h : Hdr) (imm : Word) (s : State) (p : Nat) (g : Group),
    (s.Issues p g (.trap h imm) [] →
      exec (.trap h imm) s = .next ((s.wrote p { g with yielded := h.sched.yld, age := if h.sched.yld then 0 else g.age }).takeTrap p {
        cause := .software, info := imm.setWidth 64, pc := g.npc }))
    ∧ (s.Issues p g (.bkpt h) [] →
      exec (.bkpt h) s = .next ((s.wrote p { g with yielded := h.sched.yld, age := if h.sched.yld then 0 else g.age }).takeTrap p {
        cause := .breakpoint, info := 0, pc := g.npc })))

/-! ## Memory words -/

/-- R156, R173, R266, R278, R351 to R353, R384: a load that passes its checks allocates its tag and goes on; what it captured gives each
thread's address; a helper whose access a check forbids gets zero. -/
def Obligations.LoadsIssue : Prop :=
  ∀ (h : Hdr) (w : LdW) (m : MForm) (stash : Bool) (i : Instr) (s : State) (p : Nat) (g : Group),
    i = (if stash then .lds h w m else .ld h w m) →
    s.Issues p g i (opdRegs m.d (if w = .b64 then 2 else 1) ++ opdRegs m.a (if stash then 1 else 2)) →
    (∀ n, (others (memLanes g h m.d.isS) (memHelpers g h m.d.isS)).getLsbD n = true →
      if stash then s.stashOk p g false (memAddr g true m n) (ldBytes w)
      else s.accessOk p g (m.ord != .rlx) false (memAddr g false m n) (ldBytes w)) →
    ∃ (z : Mask) (words : SMap Word),
      (∀ n, n < 32 → (z.getLsbD n = true ↔ (memHelpers g h m.d.isS).getLsbD n = true
        ∧ ¬ (if stash then s.stashOk p g false (memAddr g true m n) (ldBytes w) else s.unlocked p g false (memAddr g false m n) (ldBytes w))))
      ∧ (∀ n, (others (memLanes g h m.d.isS) z).getLsbD n = true →
        loadAddr stash m (outstanding s g i (others (memLanes g h m.d.isS) z) (others (memHelpers g h m.d.isS) z) words []) n = memAddr g stash m n)
      ∧ exec i s = .next (s.tagged p g h (outstanding s g i (others (memLanes g h m.d.isS) z) (others (memHelpers g h m.d.isS) z) words
          (zeros z m.d (w == .b64))))

/-- R120, R123, R156, R199, R369, R382 to R385: `ST`, `SINJ`, `PST` and `STS` whose accesses pass their checks, with room in the store queue
or nothing to store, complete: one access for each of their threads that is no helper stands at the queue's end, and the group goes on. A full
queue makes them wait. In stash an access within a binding goes to the global address it is bound to. -/
def Obligations.StoresIssue : Prop :=
  (∀ (h : Hdr) (w : StW) (m : MForm) (s : State) (p : Nat) (g : Group) (xs : List SqAcc),
    (∀ n, (others (memLanes g h (m.a.isS && m.b.isSZ)) (memHelpers g h (m.a.isS && m.b.isSZ))).getLsbD n = true →
      s.accessOk p g (m.ord != .rlx) true (memAddr g false m n) (stBytes w)) →
    xs = memStores g h (m.a.isS && m.b.isSZ) false (stBytes w) (memAddr g false m) (fun n => g.read [] n (src m.b (w == .b64) .none)) →
    (s.Issues p g (.st h w m) (stRegs false w m) →
      ((g.sq.length < 8 ∨ xs = []) → exec (.st h w m) s = .next (s.queued p g h .store m.ord m.scope xs))
      ∧ (8 ≤ g.sq.length → xs ≠ [] → exec (.st h w m) s = .next (s.wrote p g.hold)))
    ∧ (s.Issues p g (.sinj h w m) (stRegs false w m) →
      ((g.sq.length < 8 ∨ xs = []) → exec (.sinj h w m) s
        = .next (s.queued p g h (.sinj (BitVec.ofNat 16 (g.read [] 0 (src m.d false .none)))) m.ord m.scope xs))
      ∧ (8 ≤ g.sq.length → xs ≠ [] → exec (.sinj h w m) s = .next (s.wrote p g.hold))))
  ∧ (∀ (h : Hdr) (m : MForm) (s : State) (p : Nat) (g : Group) (xs : List SqAcc), s.Issues p g (.pst h m) (opdRegs m.a 2 ++ opdRegs m.b 2) →
    (∀ n, (others (memLanes g h (m.a.isS && m.b.isSZ)) (memHelpers g h (m.a.isS && m.b.isSZ))).getLsbD n = true →
      memAddr g false m n % 8 = 0 ∧ physAt (memAddr g false m n) ≠ .bad) →
    xs = memStores g h (m.a.isS && m.b.isSZ) false 8 (memAddr g false m) (fun n => g.read [] n (src m.b true .none)) →
    ((g.sq.length < 8 ∨ xs = []) → exec (.pst h m) s = .next (s.queued p g h .phys .rlx .sys xs))
    ∧ (8 ≤ g.sq.length → xs ≠ [] → exec (.pst h m) s = .next (s.wrote p g.hold)))
  ∧ (∀ (h : Hdr) (w : StW) (m : MForm) (s : State) (p : Nat) (g : Group) (xs : List SqAcc), s.Issues p g (.sts h w m) (stRegs true w m) →
    (∀ n, (others (memLanes g h (m.a.isS && m.b.isSZ)) (memHelpers g h (m.a.isS && m.b.isSZ))).getLsbD n = true →
      s.stashOk p g true (memAddr g true m n) (stBytes w)) →
    xs = memStores g h (m.a.isS && m.b.isSZ) true (stBytes w) (memAddr g true m) (fun n => g.read [] n (src m.b (w == .b64) .none)) →
    ((g.sq.length < 8 ∨ xs = []) → exec (.sts h w m) s = .next (s.queued p g h .sts m.ord m.scope (xs.map (bindAcc s p g)).flatten))
    ∧ (8 ≤ g.sq.length → xs ≠ [] → exec (.sts h w m) s = .next (s.wrote p g.hold)))
  ∧ (∀ (s : State) (p : Nat) (g : Group) (k : Gang) (y : SqAcc), s.stashGang p g = some k → y.stash = true → 0 < y.width →
    y.addr.toNat + y.width ≤ 2 ^ 32 →
    ((∀ b ∈ k.binds, y.addr.toNat + y.width ≤ b.o ∨ b.o + b.n ≤ y.addr.toNat) → bindAcc s p g y = [y])
    ∧ (∀ b, k.binds = [b] → b.o ≤ y.addr.toNat → y.addr.toNat + y.width ≤ b.o + b.n →
      bindAcc s p g y = [{ y with stash := false, addr := BitVec.ofNat 64 (b.a.toNat + (y.addr.toNat - b.o)) }]))

/-- R166, R318, R363, R403: `MRED`, `CADD` and `WBR` complete by entering the store queue, and wait for a full one. -/
def Obligations.QueuedUpdates : Prop :=
  ∀ (h : Hdr) (s : State) (p : Nat) (g : Group),
    (∀ (op : AtomOp) (r : AForm) (xs : List SqAcc), s.Issues p g (.mred h op r) (atomRegs r) →
      (∀ n, (others (memLanes g h false) (memHelpers g h false)).getLsbD n = true →
        s.accessOk p g true true (g.read [] n (src r.a true .none)) (tyWidth r.ty / 8)) →
      xs = memStores g h false false (tyWidth r.ty / 8)
        (fun n => g.read [] n (src r.a true .none)) (fun n => g.read [] n (src r.b r.ty.is64 .none)) →
      ((g.sq.length < 8 ∨ xs = []) → exec (.mred h op r) s = .next (s.queued p g h (.mred op r.ty) r.ord r.scope xs))
      ∧ (8 ≤ g.sq.length → xs ≠ [] → exec (.mred h op r) s = .next (s.wrote p g.hold)))
    ∧ (∀ (sc : Scope) (r : Regs), s.Issues p g (.cadd h sc r) [] →
      s.accessOk p g true true (g.read [] 0 (src r.a true .none)) 8 →
      (g.sq.length < 8 → exec (.cadd h sc r) s = .next (s.queued p g h .cadd .rel sc [{
        lane := 0, stash := false, addr := BitVec.ofNat 64 (g.read [] 0 (src r.a true .none)), width := 8
        data := BitVec.ofNat 64 (g.read [] 0 (src r.b true .none)), done := 0 }]))
      ∧ (8 ≤ g.sq.length → exec (.cadd h sc r) s = .next (s.wrote p g.hold)))
    ∧ (∀ (r : Regs), s.Issues p g (.wbr h r) [] →
      (g.sq.length < 8 → exec (.wbr h r) s = .next (s.queued p g h .wbr .rlx .gang [{
        lane := 0, stash := false, addr := BitVec.ofNat 64 (g.read [] 0 (src r.a true .none)), width := 0
        data := BitVec.ofNat 64 (g.read [] 0 (src r.b false .none)), done := 0 }]))
      ∧ (8 ≤ g.sq.length → exec (.wbr h r) s = .next (s.wrote p g.hold)))

/-- R154, R302, R303, R318, R322: `ATOM`, `ACAS` and `CRD` allocate their tags; helpers get zero and perform nothing. -/
def Obligations.AtomicsIssue : Prop :=
  ∀ (h : Hdr) (s : State) (p : Nat) (g : Group),
    (∀ (op : AtomOp) (r : AForm) (i : Instr), (i = .atom h op r ∨ i = .acas h r) → s.Issues p g i (atomRegs r) →
      (∀ n, (others (g.exec h.guard) g.help).getLsbD n = true →
        s.accessOk p g true true (g.read [] n (src r.a true .none)) (tyWidth r.ty / 8)) →
      ∃ words : SMap Word,
        (∀ n, (others (g.exec h.guard) g.help).getLsbD n = true →
          ((outstanding s g i (others (g.exec h.guard) g.help) 0 words []).word2 0 n).toNat = g.read [] n (src r.a true .none)
          ∧ (outstanding s g i (others (g.exec h.guard) g.help) 0 words []).data r.ty 2 n = g.read [] n (src r.b r.ty.is64 .none)
          ∧ (i = .acas h r → (outstanding s g i (others (g.exec h.guard) g.help) 0 words []).data r.ty (if r.ty.is64 then 4 else 3) n
            = g.read [] n (src r.c r.ty.is64 .none)))
        ∧ exec i s = .next (s.tagged p g h (outstanding s g i (others (g.exec h.guard) g.help) 0 words
          (zeros (g.exec h.guard &&& g.help) r.d r.ty.is64))))
    ∧ (∀ (ord : Order) (sc : Scope) (r : Regs), s.Issues p g (.crd h ord sc r) [] →
      s.accessOk p g true false (g.read [] 0 (src r.a true .none)) 8 →
      ∃ words : SMap Word,
        ((outstanding s g (.crd h ord sc r) 1 0 words []).word2 0 0).toNat = g.read [] 0 (src r.a true .none)
        ∧ exec (.crd h ord sc r) s = .next (s.tagged p g h (outstanding s g (.crd h ord sc r) 1 0 words [])))

/-- R81, R83, R84, R86, R91, R165, R166, R167, R304, R330: what each atomic operation makes of the old value and the operand; an equal-address set goes
in ascending order of the lanes, each reading what the one before it left; a counter's counts are added and saturate, and its token stays
once it is set. And what the float operations of every word are, against the exact result: a value rounded into a format is the one that its
mode names, with its flags; sums, products and fused sums of finite operands are the exact result rounded once; so is each block of 32 products
of `MMA`; rounding to an integer is exact likewise. -/
def Obligations.AtomicArithmetic : Prop :=
  (∀ (op : AtomOp) (ty : Ty) (rm : Rm) (v x : Nat), v < 2 ^ tyWidth ty → x < 2 ^ tyWidth ty → atomRel op ty rm v x (atomValue op ty rm v x))
  ∧ (∀ (f : Nat → Nat → Nat) (v i : Nat) (is : List Nat),
    (atomSet f v []).2 = v
    ∧ (atomSet f v (i :: is)).1 = (i, v) :: (atomSet f (f i v) is).1
    ∧ (atomSet f v (i :: is)).2 = (atomSet f (f i v) is).2)
  ∧ (∀ v x : Nat, counterAdd v x % 2 ^ 63 = min (v % 2 ^ 63 + x % 2 ^ 63) (2 ^ 63 - 1)
    ∧ (counterAdd v x).testBit 63 = (v.testBit 63 || x.testBit 63) ∧ counterAdd v x < 2 ^ 64)
  ∧ (∀ (f : Fmt) (rm : Rm) (neg : Bool) (m : Nat) (e q : Int),
    f ∈ [fmtF32, fmtF16, fmtBf16, fmtE5m2, fmtE4m3, fmtE3m2, fmtE2m1] → m ≠ 0 → q ≤ e → q ≤ f.lo →
    f.rounds rm q ((if neg then -1 else 1) * ((m : Int) * 2 ^ (e - q).toNat)) (roundTo f rm (.num neg m e)).1 (roundTo f rm (.num neg m e)).2)
  ∧ (∀ (f : Fmt) (rm : Rm) (a b c : Nat) (q x y z : Int), f ∈ [fmtF32, fmtF16, fmtBf16] → q ≤ f.lo →
    (unpack f a).isAt q x → (unpack f b).isAt q y →
    (x + y ≠ 0 → f.rounds rm q (x + y) (fAdd f rm a b).1 (fAdd f rm a b).2)
    ∧ (x + y = 0 → f.zeroSum rm (unpack f a).neg (unpack f b).neg q (fAdd f rm a b).1 (fAdd f rm a b).2)
    ∧ (x * y ≠ 0 → f.rounds rm (2 * q) (x * y) (fMul f rm a b).1 (fMul f rm a b).2)
    ∧ (x * y = 0 → f.zeroSum rm ((unpack f a).neg != (unpack f b).neg) ((unpack f a).neg != (unpack f b).neg) q (fMul f rm a b).1 (fMul f rm a b).2)
    ∧ ((unpack f c).isAt (2 * q) z →
      (x * y + z ≠ 0 → f.rounds rm (2 * q) (x * y + z) (fFma f rm a b c).1 (fFma f rm a b c).2)
      ∧ (x * y + z = 0 → f.zeroSum rm ((unpack f a).neg != (unpack f b).neg) (unpack f c).neg q (fFma f rm a b c).1 (fFma f rm a b c).2)))
  ∧ (∀ (f : Fmt) (rm : Rm) (a b c : Nat) (q x0 x1 y0 y1 z : Int), f ∈ [fmtF16, fmtBf16] → 2 * q ≤ fmtF32.lo →
    (unpack f (a % 2 ^ 16)).isAt q x0 → (unpack f (a / 2 ^ 16 % 2 ^ 16)).isAt q x1 →
    (unpack f (b % 2 ^ 16)).isAt q y0 → (unpack f (b / 2 ^ 16 % 2 ^ 16)).isAt q y1 → (unpack fmtF32 c).isAt (2 * q) z →
    x0 * y0 + x1 * y1 + z ≠ 0 → fmtF32.rounds rm (2 * q) (x0 * y0 + x1 * y1 + z) (fDot2 f rm a b c).1 (fDot2 f rm a b c).2)
  ∧ (∀ (a b : Frag) (k i j c : Nat), ∃ acc : Nat → Nat, acc 0 = c ∧ acc ((k + 31) / 32) = mmaFloat a b k i j c
    ∧ ∀ (blk : Nat) (q r v : Int) (x y : Nat → Int), blk < (k + 31) / 32 → q + r ≤ fmtF32.lo → (unpack fmtF32 (acc blk)).isAt (q + r) v →
      (∀ l, l < k → l / 32 = blk → (a.elem i l).isAt q (x l) ∧ (b.elem l j).isAt r (y l)) →
      ∀ sum : Int, sum = v + (((List.range k).filter (fun l => l / 32 = blk)).map (fun l => x l * y l)).sum →
        (sum ≠ 0 → ∃ fl, fmtF32.rounds .rne (q + r) sum (acc (blk + 1)) fl)
        ∧ (sum = 0 → (unpack fmtF32 (acc (blk + 1))).isAt (q + r) 0))
  ∧ (∀ (rm : Rm) (neg : Bool) (m : Nat) (e q x n : Int), q ≤ e → q ≤ 0 → x = (if neg then -1 else 1) * ((m : Int) * 2 ^ (e - q).toNat) →
    n = (roundInt rm neg m e).1 * 2 ^ (-q).toNat →
    ((roundInt rm neg m e).2 = true ↔ n = x)
    ∧ ∀ w : Int, match rm with
      | .rne => (x - n).natAbs ≤ (x - w * 2 ^ (-q).toNat).natAbs
        ∧ ((x - n).natAbs = (x - w * 2 ^ (-q).toNat).natAbs → w ≠ (roundInt rm neg m e).1 → (roundInt rm neg m e).1 % 2 = 0)
      | .rtz => 0 ≤ x * n ∧ n.natAbs ≤ x.natAbs ∧ (0 ≤ x * w → (w * 2 ^ (-q).toNat).natAbs ≤ x.natAbs → w.natAbs ≤ (roundInt rm neg m e).1.natAbs)
      | .rup => x ≤ n ∧ (x ≤ w * 2 ^ (-q).toNat → n ≤ w * 2 ^ (-q).toNat)
      | .rdn => n ≤ x ∧ (w * 2 ^ (-q).toNat ≤ x → w * 2 ^ (-q).toNat ≤ n))

/-- R130, R161, R337, R348, R373: a release fence goes on, and stands before every later store; an acquire waits for the group's loads, an
acquire-release for its queued stores too. `PREF` goes on with its requests outstanding, and of lines the core holds asks for nothing. `INVR`
drops the core's managed copies of the lines in its range, keeps the range for the loads that are outstanding, and changes nothing else. That
a prefetch without a tag is outstanding under a number of its own is the model's choice (log entry 10). -/
def Obligations.FencesAndHints : Prop :=
  (∀ (h : Hdr) (ord : Order) (sc : Scope) (s : State) (p : Nat) (g : Group), s.Issues p g (.fence h ord sc) [] →
    ((ord = .acq ∨ ord = .ar) → (∃ t x o, (t, x) ∈ g.tags ∧ x.op = some o ∧ o.todo ≠ 0 ∧ o.isPref = false) →
      exec (.fence h ord sc) s = .next (s.wrote p g.hold))
    ∧ (ord = .ar → g.sq ≠ [] → exec (.fence h ord sc) s = .next (s.wrote p g.hold))
    ∧ ((ord = .acq ∨ ord = .ar) → (∀ t x o, (t, x) ∈ g.tags → x.op = some o → o.todo = 0 ∨ o.isPref = true) → (ord = .ar → g.sq = []) →
      exec (.fence h ord sc) s = .next (s.wrote p (g.at h g.lpend.length g.npc)))
    ∧ (ord = .rel → exec (.fence h ord sc) s = .next (s.tick.wrote p (Group.at { g with fence := s.seq } h g.lpend.length g.npc))))
  ∧ (∀ (h : Hdr) (m : MForm) (s : State) (p : Nat) (g : Group), s.Issues p g (.pref h m) (opdRegs m.a 2) →
    (h.sched.set = 0 → g.exec h.guard = 0 → exec (.pref h m) s = .next (s.wrote p (g.at h g.lpend.length g.npc)))
    ∧ (h.sched.set ≠ 0 ∨ g.exec h.guard ≠ 0 → ∃ words : SMap Word,
      (∀ n, (g.exec h.guard).getLsbD n = true → addrOf ((outstanding s g (.pref h m) (g.exec h.guard) 0 words []).word2 0 n).toNat (MForm.offset m) 64
        = memAddr g false m n)
      ∧ exec (.pref h m) s = .next (s.tick.wrote p ((g.alloc (if h.sched.set = 0 then g.freeKey else h.sched.set.toNat)
          (outstanding s g (.pref h m) (g.exec h.guard) 0 words [])).at h g.lpend.length g.npc))))
  ∧ (∀ (h : Hdr) (m : MForm) (s : State) (p n : Nat) (g : Group) (o : POp), s.grp p = some g → g.op n = some o → o.instr = some (.pref h m) →
    o.parked = none → s.waiting (.tag p n) = false → o.todo ≠ 0 →
    (∀ i, o.todo.getLsbD i = true → s.holdsLine (placeCore p) g.ctx (addrOf (o.word2 0 i).toNat (MForm.offset m) 64) = true) →
    s.advanceTag p n none = s.setGrp p (g.setOp n (some { o with todo := 0 })))
  ∧ ((∀ (h : Hdr) (r : Regs) (s : State) (p : Nat) (g : Group), s.Issues p g (.invr h r) [] →
    ∃ k : Core, exec (.invr h r) s = .next ((s.setCore (placeCore p) k).tick.wrote p (g.at h g.lpend.length g.npc))
      ∧ k = { s.core (placeCore p) with l1 := k.l1, invs := k.invs }
      ∧ (s.readsBefore (placeCore p) s.seq = true → 0 < g.read [] 0 (src r.b false .none) → ∃ x ∈ k.invs, x.ctx = g.ctx ∧ x.seq = s.seq
        ∧ x.lo = g.read [] 0 (src r.a true .none) / 128 * 128
        ∧ x.hi = (g.read [] 0 (src r.a true .none) + g.read [] 0 (src r.b false .none) + 127) / 128 * 128)
      ∧ ∀ x, x ∈ k.l1 ↔ x ∈ (s.core (placeCore p)).l1 ∧ ¬ (x.2.st = .managed ∧ keyCtx x.1 = g.ctx
          ∧ 0 < g.read [] 0 (src r.b false .none)
          ∧ keyVa x.1 / 128 * 128 < g.read [] 0 (src r.a true .none) + g.read [] 0 (src r.b false .none)
          ∧ g.read [] 0 (src r.a true .none) < keyVa x.1 / 128 * 128 + 128)))

/-! ## Stash bindings, counters, the log -/

/-- R121, R122, R386, R387, R388: `SMAP` adds a binding that R121 accepts and refuses any other; `SUNMAP` drops one with every copy of its
range in the core's L1, and puts write-backs of the owned and the dirty ones into the queue. That it waits for queued stores to the range is
read by inference (log entry 50). -/
def Obligations.StashBindings : Prop :=
  (∀ (h : Hdr) (r : Regs) (s : State) (p : Nat) (g : Group) (k : Gang), s.gang g.gangKey = some k →
    (∀ b : Binding, s.Issues p g (.smap h r) [] →
      b = { o := g.read [] 0 (src r.a false .none), a := BitVec.ofNat 64 (g.read [] 0 (src r.b true .none))
            n := g.read [] 0 (src r.c false .none) } →
      s.owner (g.read [] 0 (src r.b true .none)) ≠ .bad →
      s.owner (g.read [] 0 (src r.b true .none) + b.n - 1) ≠ .bad →
      (¬ s.bindable (placeCore p) k b → exec (.smap h r) s = .next (s.trapsAt p g .smapConflict b.a))
      ∧ (s.bindable (placeCore p) k b → s.queuedIn (placeCore p) g.ctx b.a.toNat b.n = false → s.rawIn g.gangKey b.o b.n = false →
        (s.core (placeCore p)).copiesIn g.ctx b.a.toNat b.n = [] →
        exec (.smap h r) s = .next ({ s with gangs := s.gangs.put g.gangKey { k with binds := k.binds ++ [b] } }.wrote p
          (g.at h g.lpend.length g.npc))))
    ∧ (s.Issues p g (.sunmap h r) [] →
      ((∀ b ∈ k.binds, b.o ≠ g.read [] 0 (src r.a false .none)) →
        exec (.sunmap h r) s = .next (s.wrote p (g.at h g.lpend.length g.npc)))
      ∧ (∀ (b : Binding) (rest : List Binding), k.binds = b :: rest → b.o = g.read [] 0 (src r.a false .none) →
        (∀ y ∈ rest, y.o ≠ b.o) → ∀ (y : Core) (ws : List WbLine), unbind (s.core (placeCore p)) g.ctx b = (y, ws) →
        (s.queuedIn (placeCore p) g.ctx b.a.toNat b.n = true → exec (.sunmap h r) s = .next (s.wrote p g.hold))
        ∧ (s.queuedIn (placeCore p) g.ctx b.a.toNat b.n = false →
        (ws = [] → exec (.sunmap h r) s = .next
          ({ s.setCore (placeCore p) y with gangs := s.gangs.put g.gangKey { k with binds := rest } }.wrote p
            (g.at h g.lpend.length g.npc)))
        ∧ (ws ≠ [] → g.sq.length < 8 → exec (.sunmap h r) s = .next
          ({ s.setCore (placeCore p) y with gangs := s.gangs.put g.gangKey { k with binds := rest } }.tick.wrote p
            ((g.enqueue (wbEntry s g ws)).at h g.lpend.length g.npc)))
        ∧ (ws ≠ [] → 8 ≤ g.sq.length → exec (.sunmap h r) s = .next (s.wrote p g.hold))))))
  ∧ (∀ (x y : Core) (ctx : Nat) (b : Binding) (ws : List WbLine), x.l1.wf = true → unbind x ctx b = (y, ws) →
    (∀ k c, y.l1.find k = some c ↔ x.l1.find k = some c ∧ ¬ (keyCtx k = ctx ∧ ¬ Apart (keyVa k) 128 b.a.toNat b.n))
    ∧ (∀ w ∈ ws, ∃ k c, x.l1.find k = some c ∧ keyCtx k = ctx ∧ w.va = keyVa k ∧ w.data = x.copyData c
        ∧ ((w.managed = false ∧ c.st = .o) ∨ (w.managed = true ∧ c.st = .managed ∧ w.mask = c.mask ∧ c.mask ≠ 0)))
    ∧ (∀ k c, x.l1.find k = some c → keyCtx k = ctx → ¬ Apart (keyVa k) 128 b.a.toNat b.n →
      (c.st = .o ∨ (c.st = .managed ∧ c.mask ≠ 0)) → ∃ w ∈ ws, w.va = keyVa k))

/-- R167, R168, R325: `CWAIT` reads the counter at its home: a count that has reached the target, or the token, satisfies it and the
value is written; otherwise the group parks at its own address, with an entry at the counter's slice while it has one free. -/
def Obligations.CounterWaits : Prop :=
  ∀ (h : Hdr) (sc : Scope) (r : Regs) (s t : State) (p : Nat) (g : Group) (v w : Nat), s.Issues p g (.cwait h sc r) [] →
    s.accessOk p g true false (g.read [] 0 (src r.a true .none)) 8 →
    (∀ n x o, (n, x) ∈ g.tags → x.op = some o → o.todo = 0 ∨ o.isPref = true) →
    g.sq = [] →
    readAtHome s g.ctx (g.read [] 0 (src r.a true .none)) = .ok t (some (v, w)) →
    ((g.read [] 0 (src r.b true .none) % 2 ^ 63 ≤ v % 2 ^ 63 ∨ v.testBit 63 = true) →
      exec (.cwait h sc r) s = .next ((t.raiseT (placeCore p) w).wrote p ((g.wrs (dstWr 0 r.d true v)).at h g.lpend.length g.npc)))
    ∧ (¬ (g.read [] 0 (src r.b true .none) % 2 ^ 63 ≤ v % 2 ^ 63 ∨ v.testBit 63 = true) → ∀ n, r.d = .s n →
      exec (.cwait h sc r) s = .next ((t.addWaiter p g.ctx (g.read [] 0 (src r.a true .none)) (g.read [] 0 (src r.b true .none))).wrote p
        { g.at h g.lpend.length g.pc with
          st := .counterParked
          cpark := some {
            addr := BitVec.ofNat 64 (g.read [] 0 (src r.a true .none)), target := BitVec.ofNat 64 (g.read [] 0 (src r.b true .none))
            npc := g.npc, d := n.toNat, deaf := false } }))

/-- R132, R133, R378: `RLOG` with `zero` closes the open range and stops logging; with a block on a counter-capable page it logs to
the block's ring. -/
def Obligations.RangeLogControl : Prop :=
  ∀ (h : Hdr) (r : Regs) (s : State) (p : Nat) (g : Group), s.Issues p g (.rlog h r) [] →
    (r.a = .zero → exec (.rlog h r) s = .next
      (((s.closeLog (placeCore p)).modCore (placeCore p) (fun y => { y with log := none, logOpen := none })).wrote p
        (g.at h g.lpend.length g.npc)))
    ∧ (∀ (a d : Nat) (hl : HomeLine), r.a ≠ .zero → a = g.read [] 0 (src r.a true .none) → a % 64 = 0 → s.Holds d g.ctx a .atomic hl →
      s.noPush (placeCore p) g.ctx a → hl.perm.ctr = true → hl.owner = none → hl.poison = false → blockLsize hl.data (a % 128) ≤ 20 → 4 ≤ blockLsize hl.data (a % 128) →
      blockRing hl.data (a % 128) % 16 = 0 →
      exec (.rlog h r) s = .next (((((s.closeLog (placeCore p)).holdDesc d g.ctx).raiseT (placeCore p) hl.w).modCore (placeCore p) (fun y =>
        { y with
          log := some { ctx := g.ctx, block := BitVec.ofNat 64 a, lsize := blockLsize hl.data (a % 128)
                        ring := BitVec.ofNat 64 (blockRing hl.data (a % 128)) }
          logOpen := none })).wrote p (g.at h g.lpend.length g.npc)))

/-! ## Spawning -/

/-- R38, R39, R40, R41, R163, R389, R390: `SPAWN` deposits one record for each of its threads that is no helper, `.x` ends these threads, and
with the last of them the group; a register past the budget traps. A record goes to the bin of its context, launch and entry, or to a free
one; the 32nd forms a group, which takes a place, or spills to the ring, or where the ring is full fails its lane. That a deposit that waits
is tried again is read by inference (log entries 12, 37). -/
def Obligations.Spawning : Prop :=
  (∀ (h : Hdr) (first : Opd) (count : BitVec 4) (x : Bool) (t : Word) (s : State) (p : Nat) (g : Group) (pc : DWord),
    s.Issues p g (.spawn h first count x t) [] → g.inTrap = false → g.kind = .ordinary → branchTo g.pc t.toInt = some pc →
    (∀ pre r rest, opdRegs first count.toNat = pre ++ r :: rest → (∀ y ∈ pre, y < g.regs) → g.regs ≤ r →
      exec (.spawn h first count x t) s = .next (s.trapsAt p g .regBudget (BitVec.ofNat 64 r)))
    ∧ ((∀ r ∈ opdRegs first count.toNat, r < g.regs) →
    (others (g.exec h.guard) g.help = 0 → exec (.spawn h first count x t) s = .next (s.wrote p (g.at h g.lpend.length g.npc)))
    ∧ (others (g.exec h.guard) g.help ≠ 0 → g.spawnTab = 0 →
      exec (.spawn h first count x t) s = .next (s.trapsAt p g .spawnEntry pc))
    ∧ (∀ (s1 s2 : State) (ent : Header) (g2 : Group), others (g.exec h.guard) g.help ≠ 0 → g.spawnTab ≠ 0 →
      findEntry g.ctx pc.toNat spawnTable g.spawnTab.toNat s = .ok s1 (.entry ent) →
      (∀ n x o, (n, x) ∈ g.tags → x.op = some o → o.todo = 0 ∨ o.isPref = true) → g.sq = [] →
      depositLanes (placeDie p) (spawnRec s1 p g pc ent first count.toNat) (maskLanes (others (g.exec h.guard) g.help)) s1 = .ok s2 →
      s2.grp p = some g2 →
      (x = false → exec (.spawn h first count x t) s = .next (s2.wrote p (g2.at h g.lpend.length g.npc)))
      ∧ (x = true → g2.kind = .ordinary → ∃ g', ended g2 g' (others (g.exec h.guard) g.help)
        ∧ (g'.live ≠ 0 → exec (.spawn h first count x t) s = .next (s2.wrote p (g'.at h g.lpend.length g.npc)))
        ∧ (g'.live = 0 → exec (.spawn h first count x t) s
          = .next (s2.wrote p { g'.at h g.lpend.length g.npc with st := .retiring }))))
    ∧ (∀ (s1 : State) (va : Nat), others (g.exec h.guard) g.help ≠ 0 → g.spawnTab ≠ 0 →
      findEntry g.ctx pc.toNat spawnTable g.spawnTab.toNat s = .ok s1 (.bad va) →
      exec (.spawn h first count x t) s = .next (s.trapsAt p g .badOwner (BitVec.ofNat 64 va)))))
  ∧ (∀ (s : State) (d : Nat) (f : Bin),
    (∀ k b rest pre, (s.die d).bins = pre ++ (k, b) :: rest → (∀ y ∈ pre, y.2.keyIs f = false) → b.keyIs f = true → b.held = 0 →
      b.recs.length + f.recs.length < 32 →
      s.deposit d f = .ok (s.setBin d k { b with recs := b.recs ++ f.recs, npay := max b.npay f.npay, t := max b.t f.t }))
    ∧ (∀ k b rest pre (y : Formed) (s1 : State), (s.die d).bins = pre ++ (k, b) :: rest → (∀ y ∈ pre, y.2.keyIs f = false) →
      b.keyIs f = true → b.held = 0 → b.recs.length + f.recs.length = 32 → s1 = s.holdDesc d b.ctx →
      y = { ctx := b.ctx, queue := b.queue, seqNo := b.seqNo, entry := b.entry, ent := b.ent, npay := max b.npay f.npay
            recs := b.recs ++ f.recs, t := max b.t f.t, no := 0 } →
      (∀ p, s1.ringHas d y = false → s1.spawnPlace d y = some p → s.deposit d f
        = .ok ((({ s1 with seq := s1.seq + 1 }.modDie d (fun x => { x with formed := x.formed ++ [{ y with no := s1.seq + 1 }] })).first
          [.spawnedGroupPlace d p]).modDie d (fun x => { x with bins := x.bins.del k })))
      ∧ (s1.ringHas d y = true ∨ s1.spawnPlace d y = none →
        (∀ t, s1.spillTurn d y = .ok t → s.deposit d f = .ok (t.modDie d (fun x => { x with bins := x.bins.del k })))
        ∧ (∀ t, s1.spillTurn d y = .full t → s.deposit d f
          = .full ({ t with seq := t.seq + 1 }.modDie d (fun x => { x with bins := x.bins.put k { b with held := t.seq + 1 } })))))
    ∧ ((∀ y ∈ (s.die d).bins, y.2.keyIs f = false) →
      (∀ k, SMap.freeFrom (s.die d).bins 0 256 = some k → s.deposit d f = .ok (s.setBin d k f))
      ∧ (SMap.freeFrom (s.die d).bins 0 256 = none → s.deposit d f = .wait s none)))
  ∧ (∀ (s : State) (d : Nat) (y : Formed),
    ((s.die d).bins.filter (fun x => x.2.held != 0 && x.2.ctx == y.ctx) = [] → s.spillTurn d y = s.spill d y)
    ∧ (∀ k b, (s.die d).bins.filter (fun x => x.2.held != 0 && x.2.ctx == y.ctx) = [(k, b)] →
      ((y.no = 0 ∨ b.held < y.no) →
        (∀ t, s.spill d b.formed = .ok t → s.spillTurn d y = (t.modDie d (fun x => { x with bins := x.bins.del k })).spill d y)
        ∧ (∀ t, s.spill d b.formed = .full t → s.spillTurn d y = .full t))
      ∧ (y.no ≠ 0 → y.no ≤ b.held → s.spillTurn d y = s.spill d y)))

/-! ## Tiles -/

/-- R69, R73, R96, R108: `THDR` moves a header between an h and four s registers, with its check computed anew; `TCHK` tests it. `TZERO` writes zero
to the run and the outlier list of its fragment, and nothing else; `TTRANS` gives the other layout of the same matrix: every element stands where
the destination's layout has it, in the form in which elements are written. -/
def Obligations.HeadersAndTileMoves : Prop :=
  (∀ (h : Hdr) (s : State) (p : Nat) (g : Group) (n : BitVec 4) (k : BitVec 6) (pd : BitVec 3),
    (s.Issues p g (.thdrToH h n (.s k)) [] → ∃ x : Header,
      (∀ j, j < 120 → x.getLsbD j = (g.getS (k.toNat + j / 32)).getLsbD (j % 32)) ∧ bits x.toNat 120 8 = crc8 15 x.toNat
      ∧ exec (.thdrToH h n (.s k)) s = .next (s.wrote p ((g.setH n.toNat x).at h g.lpend.length g.npc)))
    ∧ (s.Issues p g (.thdrFromH h n (.s k)) [] →
      exec (.thdrFromH h n (.s k)) s = .next (s.wrote p (((((g.setS k.toNat ((g.getH n.toNat).extractLsb' 0 32)).setS (k.toNat + 1)
        ((g.getH n.toNat).extractLsb' 32 32)).setS (k.toNat + 2) ((g.getH n.toNat).extractLsb' 64 32)).setS (k.toNat + 3)
        ((g.getH n.toNat).extractLsb' 96 32)).at h g.lpend.length g.npc)))
    ∧ (s.Issues p g (.tchk h n pd) [] →
      ((headerOk (g.getH n.toNat) = true ∧ (g.thdr n).consistent false = true) →
        exec (.tchk h n pd) s = .next (s.wrote p ((g.setP pd.toNat (BitVec.allOnes 32) (BitVec.allOnes 32)).at h g.lpend.length g.npc)))
      ∧ (¬ (headerOk (g.getH n.toNat) = true ∧ (g.thdr n).consistent false = true) →
        exec (.tchk h n pd) s = .next (s.wrote p ((g.setP pd.toNat (BitVec.allOnes 32) 0).at h g.lpend.length g.npc)))))
  ∧ (∀ (h : Hdr) (hd : BitVec 4) (s : State) (p : Nat) (g : Group), s.Issues p g (.tzero h hd) [] → g.v.wf = true →
    headerOk (g.getH hd.toNat) = true → fragOk g (tzeroHdr (g.thdr hd)) false →
    ∃ ws, exec (.tzero h hd) s = .next (s.tiled p g h hd (tzeroHdr (g.thdr hd)).word ws 0)
      ∧ (∀ w ∈ ws, ∃ r i, w = .v r i 0 ∧ (g.thdr hd).inFrag r)
      ∧ (∀ row col, row < 2 ^ (g.thdr hd).rows → col < 2 ^ (g.thdr hd).cols → (g.thdr hd).spa ≠ 1 →
        cellRaw ((g.wrs ws).frag (tzeroHdr (g.thdr hd))) row col = 0))
  ∧ (∀ (h : Hdr) (hd ha : BitVec 4) (s : State) (p : Nat) (g : Group), s.Issues p g (.ttrans h hd ha) [] → g.v.wf = true →
    srcOk g ha false → headerOk (g.getH hd.toNat) = true → fragOk g (ttransHdr (g.thdr hd) (g.thdr ha)) false →
    (g.thdr ha).scl = 0 → (g.thdr ha).spa ≠ 1 →
    ∃ ws, exec (.ttrans h hd ha) s = .next (s.tiled p g h hd (ttransHdr (g.thdr hd) (g.thdr ha)).word ws 0)
      ∧ onlyFrag (ttransHdr (g.thdr hd) (g.thdr ha)) ws
      ∧ ((ttransHdr (g.thdr hd) (g.thdr ha)).apart → ∀ row col, row < 2 ^ (g.thdr ha).rows → col < 2 ^ (g.thdr ha).cols →
        movedAs (g.thdr ha).ty (cellRaw (g.frag (g.thdr ha)) row col)
          (cellRaw ((g.wrs ws).frag (ttransHdr (g.thdr hd) (g.thdr ha))) row col)))

/-- R88 to R90, R109: `TCVT` completes on every source and template whose headers pass their checks and whose formats are not residues: it
writes its header, the converted elements, scales and outliers, and nothing else: each block's scale is the least that brings its values
within the format; an element over its scale that the format holds is rounded into it, any other is 0 beside its outlier entry, entries in
ascending order, or saturated once the list is full. An outlier's value that its class does not hold is free, the sign of a NaN is the
stored element's (log entries 5, 32). -/
def Obligations.TileConvert : Prop :=
  ∀ (h : Hdr) (hd ha : BitVec 4) (s : State) (p : Nat) (g : Group), s.Issues p g (.tcvt h hd ha) [] → g.v.wf = true →
    srcOk g ha false → headerOk (g.getH hd.toNat) = true → fragOk g (tcvtHdr (g.thdr hd) (g.thdr ha)) false →
    (g.thdr ha).ty ≠ .res48 → (g.thdr hd).ty ≠ .res48 → (g.thdr hd).spa ≠ 1 →
    ∃ ws d used, exec (.tcvt h hd ha) s = .next (s.tiled p g h hd (THdr.word d) ws used)
      ∧ onlyFrag d ws
      ∧ ∃ n lost, d = { tcvtHdr (g.thdr hd) (g.thdr ha) with ocnt := n, olost := (g.thdr ha).olost || lost } ∧ n ≤ d.cap
      ∧ (d.apart → let f := g.frag (g.thdr ha)
        let out := (g.wrs ws).frag d
        (out.list.map (·.1)).Pairwise (· < ·)
        ∧ (∀ i b, i ∈ d.holders → b < d.scaleBytes → scaleChosen d (fun k => f.elem (d.cell i k).1 (d.cell i k).2) b (out.scaleByte i b))
        ∧ ∀ row col, row < 2 ^ d.rows → col < 2 ^ d.cols → ∀ sc, codeScale d.scl (out.scaleByte (d.at_ row col).1 (d.blockAt (d.at_ row col).2)) sc →
          ∃ z, narrowsTo d.ty (f.elem row col) sc z ∧ narrowedCell d out lost row col (f.elem row col) (f.signBit row col) z)

/-- R73 to R76: `TRES` and `TCRT` between numbers and residues: the scales of the blocks, each element's residues or its value times its scale
rounded to f32, and `sat`. A scale exponent past 127 is written modulo 256 (log entry 58); `TRES` reads elements as `ElemX` gives them, and a
res48 source with e4m3 scales has their values as its scales (log entry 32). -/
def Obligations.TileResidues : Prop :=
  ∀ (h : Hdr) (hd ha : BitVec 4) (fr : BitVec 6) (s : State) (p : Nat) (g : Group), g.v.wf = true →
    (s.Issues p g (.tres h hd ha fr) [] → srcOk g ha false → headerOk (g.getH hd.toNat) = true →
      fragOk g (tresHdr (g.thdr hd) (g.thdr ha)) true →
      (g.thdr ha).ty ∈ [Ty.i8, .i16, .i32, .i64, .f32, .bf16, .f16] → (g.thdr hd).scl ≠ 4 →
      ∃ ws sat, exec (.tres h hd ha fr) s = .next (s.tiled p g h hd
          { tresHdr (g.thdr hd) (g.thdr ha) with sat := (g.thdr ha).sat || sat }.word ws 0)
        ∧ onlyFrag (tresHdr (g.thdr hd) (g.thdr ha)) ws
        ∧ ((tresHdr (g.thdr hd) (g.thdr ha)).apart → let d := tresHdr (g.thdr hd) (g.thdr ha)
          let f := g.frag (g.thdr ha)
          let out := (g.wrs ws).frag d
          let int := tyIsInt (g.thdr ha).ty
          ∃ (sexp : Nat → Nat → Int) (lost : Nat → Nat → Prop),
            (∀ i b, i ∈ d.holders → b < d.scaleBytes → (out.scaleByte i b : Int) = (sexp i b + 127) % 256
              ∧ resScale d int fr.toNat (fun k => f.elem (d.cell i k).1 (d.cell i k).2) b (sexp i b))
            ∧ (∀ row col, row < 2 ^ d.rows → col < 2 ^ d.cols → resCell int (f.elem row col)
              (if d.scl = 0 then 0 else sexp (d.at_ row col).1 (d.blockAt (d.at_ row col).2)) (cellRaw out row col) (lost row col))
            ∧ (sat = true ↔ ∃ row col, row < 2 ^ d.rows ∧ col < 2 ^ d.cols ∧ lost row col)))
    ∧ (s.Issues p g (.tcrt h hd ha) [] → srcOk g ha true → headerOk (g.getH hd.toNat) = true →
      fragOk g (tcrtHdr (g.thdr hd) (g.thdr ha)) false →
      (g.thdr ha).ty = .res48 → (g.thdr ha).spa = 0 → ((g.thdr hd).ty = .i64 ∨ (g.thdr hd).ty = .f32) →
      ∃ ws sat, exec (.tcrt h hd ha) s = .next (s.tiled p g h hd
          { tcrtHdr (g.thdr hd) (g.thdr ha) with sat := (g.thdr ha).sat || sat }.word ws 0)
        ∧ onlyFrag (tcrtHdr (g.thdr hd) (g.thdr ha)) ws
        ∧ (let out := (g.wrs ws).frag (tcrtHdr (g.thdr hd) (g.thdr ha))
          let f := g.frag (g.thdr ha)
          (∀ row col, row < 2 ^ f.h.rows → col < 2 ^ f.h.cols → (∃ X, standsFor (cellRaw f row col) X)
            ∧ ((g.thdr hd).ty = .i64 → ∀ X, standsFor (cellRaw f row col) X → Wraps .n64 X (cellRaw out row col))
            ∧ ((g.thdr hd).ty = .f32 → crtCell (cellRaw f row col) (f.scale (f.h.at_ row col).1 (f.h.at_ row col).2) (cellRaw out row col)))
          ∧ (sat = true ↔ (g.thdr hd).ty = .f32 ∧ ∃ row col, row < 2 ^ f.h.rows ∧ col < 2 ^ f.h.cols
            ∧ (unpack fmtF32 (cellRaw out row col)).isInf = true)))

/-- R37, R104 to R107, R360: `MMA` with nothing to run writes nothing; else it writes its header, and in the rows of its threads
D := A × B + D: integers modulo 2^32, residues channel by channel, floats in blocks as R91 rounds them, which `AtomicArithmetic` states against
the exact sum of each block. -/
def Obligations.MatrixMultiply : Prop :=
  ∀ (h : Hdr) (z : Bool) (hd ha hb : BitVec 4) (s : State) (p : Nat) (g : Group), s.Issues p g (.mma h z hd ha hb) [] → g.v.wf = true →
    (takenBy g h.guard = 0 → exec (.mma h z hd ha hb) s = .next (s.wrote p (g.at h g.lpend.length g.npc)))
    ∧ (∀ c, takenBy g h.guard ≠ 0 → firstBad (badMma s g z hd ha hb) = none → mmaClass (g.thdr ha).ty (g.thdr hb).ty = some c →
      ∃ ws d, d = mmaHdr c z (g.thdr hd) (g.thdr ha) (g.thdr hb)
        ∧ exec (.mma h z hd ha hb) s = .next (s.tiled p g h hd d.word ws 0)
        ∧ (∀ w ∈ ws, ∃ r i x, w = .v r i x ∧ d.base ≤ r ∧ r < d.base + d.runRegs ∧ (takenBy g h.guard).getLsbD i = true)
        ∧ ∀ i j, (takenBy g h.guard).getLsbD i = true → j < 2 ^ (g.thdr hb).cols →
          let a := g.frag (g.thdr ha)
          let b := g.frag (g.thdr hb)
          let k := 2 ^ (g.thdr ha).cols
          let old := if z then 0 else (g.frag d).raw i j
          let new := ((g.wrs ws).frag d).raw i j
          match c with
          | .int8 | .int4 => new < 2 ^ 32
            ∧ Wraps .n32 ((old : Int) + ((List.range k).map (fun x => a.int i x * b.int x j)).sum) new
          | .res => ∀ n m, (n, m) ∈ [(0, resA), (16, resB), (32, resC)] →
            (new / 2 ^ n % 2 ^ 16) % m = (old / 2 ^ n % 2 ^ 16
              + ((List.range k).map (fun x => cellRaw a i x / 2 ^ n % 2 ^ 16 * (cellRaw b x j / 2 ^ n % 2 ^ 16))).sum) % m
          | _ => new = mmaFloat a b k i j old % 2 ^ 32)

/-- R108, R110, R111: `TLD` allocates its tag over the 16 bytes of a header; `TST` leaves the group waiting until its tile is stored. -/
def Obligations.TileAccesses : Prop :=
  ∀ (h : Hdr) (n : BitVec 4) (x : Opd) (off : BitVec 20) (ord : Order) (sc : Scope) (s : State) (p : Nat) (g : Group) (a : Nat),
    a = (((g.read [] 0 (src x true .none) : Int) + off.toInt) % (2 ^ 64 : Int)).toNat → a % 16 = 0 → s.owner a ≠ .bad →
    (s.Issues p g (.tld h n x off ord sc) [] → headerOk (g.getH n.toNat) = true → s.unlocked p g false a 16 →
      s.owner ((a + 15) % 2 ^ 64) ≠ .bad →
      ∃ words : SMap Word,
        ((outstanding s g (.tld h n x off ord sc) 1 0 words []).word2 0 0).toNat = a
        ∧ exec (.tld h n x off ord sc) s = .next (s.tagged p g h (outstanding s g (.tld h n x off ord sc) 1 0 words [])))
    ∧ (s.Issues p g (.tst h n x off ord sc) [] → srcOk g n false → (g.thdr n).rowBits % 8 = 0 →
      s.accessOk p g false true a (tstBytes (g.thdr n)) →
      exec (.tst h n x off ord sc) s = .next (s.tick.wrote p { g.at h g.lpend.length g.npc with
        st := .waiting
        tst := some { pc := g.pc, instr := some (.tst h n x off ord sc), h := n.toNat
                      base := BitVec.ofNat 64 (g.read [] 0 (src x true .none)), pos := 0, seq := s.seq, parked := none } }))

/-! ## System words -/

/-- R16, R17, R22, R24, R81, R190, R198, R199, R282, R283, R324: `CSRR` reads a register that the mode may read, field by field, or a word of
the hidden state, which raises `idx`; `fflags` once every earlier result is written. -/
def Obligations.ControlReads : Prop :=
  ∀ (h : Hdr) (c : Csr) (d : Opd) (s : State) (p : Nat) (g : Group), s.Issues p g (.csrr h c d) (opdRegs d 1) →
    (c.isPriv = true → g.inTrap = false → exec (.csrr h c d) s = .next (s.trapsAt p g .illegal g.ir))
    ∧ ((c.isPriv = true → g.inTrap = true) →
      (c ≠ .wdata → c ≠ .fflags → ∃ x, csrHolds s p g c x
        ∧ exec (.csrr h c d) s = .next (s.wrote p ((g.wrs (dstWr 0 d c.is64 x)).at h g.lpend.length g.npc)))
      ∧ (c = .fflags → (∀ t x, (t, x) ∈ g.tags → x.op = none) → g.lpend = [] →
        exec (.csrr h c d) s = .next (s.wrote p ((g.wrs (dstWr 0 d false g.fflags.toNat)).at h g.lpend.length g.npc)))
      ∧ (c = .fflags → g.lpend ≠ [] → exec (.csrr h c d) s = .next (s.wrote p g.hold))
      ∧ (∀ b, c = .wdata → g.bank = some b → g.wselThr = d.isV → g.wselIdx < (if g.wselThr then 192 else 320) →
        ∃ x : Nat → Word, (∀ i, if g.wselThr then threadWordIs s p g b g.wselIdx i (x i) else groupWordIs s p g b g.wselIdx (x i))
          ∧ exec (.csrr h c d) s = .next (s.wrote p (({ g.wrs (if g.wselThr then
              ((maskLanes (g.exec h.guard)).map (fun i => dstWr i d false (x i).toNat)).flatten
            else dstWr 0 d false (x 0).toNat) with wselIdx := (g.wselIdx + 1) % 512 }).at h g.lpend.length g.npc)))
      ∧ (c = .wdata → (g.wselThr ≠ d.isV ∨ (if g.wselThr then 192 else 320) ≤ g.wselIdx) →
        exec (.csrr h c d) s = .next (s.trapsAt p g .illegal g.ir)))

/-- R81, R83, R198, R199, R282, R323: `CSRW` completes on every register that may be written: it writes `frm`, `fflags`, and in trap mode
`trappc`, `wsel`, `tagstate`, and through `wdata` the word of the hidden state that `wsel` names, which raises `idx`; read-only words, and the
queues' where the group does not lead those of its context, stay. A number that may not be written raises `ILLEGAL`, and `fflags` waits for
earlier results. -/
def Obligations.ControlWrites : Prop :=
  ∀ (h : Hdr) (c : Csr) (a : Opd) (s : State) (p : Nat) (g : Group), s.Issues p g (.csrw h c a) (opdRegs a 1) →
    (csrWrites g c a → ∃ (t : State) (g' : Group), exec (.csrw h c a) s = .next (t.wrote p g') ∧ g'.pc = g.npc)
    ∧ (¬ csrWrites g c a → c ≠ .fflags → exec (.csrw h c a) s = .next (s.trapsAt p g .illegal g.ir))
    ∧ (¬ csrWrites g c a → c = .fflags → exec (.csrw h c a) s = .next (s.wrote p g.hold))
    ∧ (c = .frm → exec (.csrw h c a) s = .next (s.wrote p (Group.at { g with frm := BitVec.ofNat 2 (g.read [] 0 (src a false .none)) }
      h g.lpend.length g.npc)))
    ∧ (c = .fflags → g.lpend = [] → (∀ t x, (t, x) ∈ g.tags → x.op = none) → exec (.csrw h c a) s
      = .next (s.wrote p (Group.at { g with fflags := BitVec.ofNat 5 (g.read [] 0 (src a false .none)) } h g.lpend.length g.npc)))
    ∧ (∀ b, g.bank = some b → g.inTrap = true →
      (c = .trappc → exec (.csrw h c a) s
        = .next (s.wrote p (Group.at { g with trappc := BitVec.ofNat 64 (g.read [] 0 (src a true .none)) } h g.lpend.length g.npc)))
      ∧ (c = .wsel → exec (.csrw h c a) s = .next (s.wrote p (Group.at { g with
          wselThr := (g.read [] 0 (src a false .none)).testBit 31, wselIdx := g.read [] 0 (src a false .none) % 2 ^ 9 }
            h g.lpend.length g.npc)))
      ∧ (∀ f : Group → Group, (c = .tagstate ∧ f = id) ∨ (c = .wdata ∧ g.wselThr = false ∧ a.isSZ = true ∧ g.wselIdx = 133 ∧ f = Group.nextIdx) →
        ∃ tags, tagsSet b.tags (g.read [] 0 (src a false .none)) tags
          ∧ (¬ s.leads p g → exec (.csrw h c a) s
            = .next (s.wrote p ((f { g with bank := some { b with tags := tags } }).at h g.lpend.length g.npc)))
          ∧ (s.leads p g → s.wordsWf p b → ∃ k, depthsSet (s.core (placeCore p)) k (g.read [] 0 (src a false .none)) ∧ exec (.csrw h c a) s
            = .next ((s.setCore (placeCore p) k).wrote p ((f { g with bank := some { b with tags := tags } }).at h g.lpend.length g.npc))))
      ∧ (c = .wdata → g.wselThr = false → a.isSZ = true → g.wselIdx < 320 → g.wselIdx ≠ 133 → s.wordsWf p b →
        ∃ g', groupWordSet g b g.wselIdx (BitVec.ofNat 32 (g.read [] 0 (src a false .none))) g'
          ∧ exec (.csrw h c a) s = .next (s.wrote p (g'.nextIdx.at h g.lpend.length g.npc)))
      ∧ (∀ f : Nat → Word, c = .wdata → g.wselThr = true → a.isV = true → g.wselIdx < 192 → s.wordsWf p b →
        (∀ i, f i = BitVec.ofNat 32 (g.read [] i (src a false .none))) →
        (g.wselIdx < 128 → ∃ b', threadWordSet b g.wselIdx (g.exec h.guard) f b'
          ∧ exec (.csrw h c a) s = .next (s.wrote p ((Group.nextIdx { g with bank := some b' }).at h g.lpend.length g.npc)))
        ∧ (128 ≤ g.wselIdx → ¬ s.leads p g → exec (.csrw h c a) s = .next (s.wrote p (g.nextIdx.at h g.lpend.length g.npc)))
        ∧ (128 ≤ g.wselIdx → s.leads p g → ∃ k,
          entrySet (s.core (placeCore p)) k ((g.wselIdx - 128) / 16) ((g.wselIdx - 128) % 16) (g.exec h.guard) f
          ∧ exec (.csrw h c a) s = .next ((s.setCore (placeCore p) k).wrote p (g.nextIdx.at h g.lpend.length g.npc)))))

/-- R190, R199, R203: `TRET` waits until the routine's own work is done; it then installs the banked state, judges the parked entries,
and goes on at `trappc`; without a trap to return from each form is illegal. That the routine's own results are waited for is read by
inference (log entry 33). -/
def Obligations.TrapReturns : Prop :=
  (∀ (h : Hdr) (s : State) (p : Nat) (g : Group) (i : Instr), (i = .tret h ∨ i = .tretSave h ∨ i = .tretKill h) → s.Issues p g i [] →
    (g.bank = none → exec i s = .next (s.trapsAt p g .illegal g.ir))
    ∧ (∀ b, g.bank = some b → (g.quiet = false ∨ g.sq ≠ []) → exec i s = .next (s.wrote p g.hold))
    ∧ (∀ b, g.bank = some b → g.quiet = true → g.sq = [] →
      (i = .tret h → g.preempting = false → exec i s = .next (s.wrote p ((s.judge (g.leaveTrap b)).yields h.sched)))
      ∧ (∀ g', i = .tret h → g.preempting = true → g' = (s.judge (g.leaveTrap b)).yields h.sched → exec i s
        = .next (((s.setGrp p g').setGrp p { g' with preempting := false }).takeTrap p { cause := .preempt, info := 0, pc := g'.pc }).endTurn)
      ∧ (i = .tretSave h → g.trapcause = Cause.code .preempt → s.groups.wf = true → s.lastCopies p g = [] →
        ∃ t, exec i s = .next t ∧ t.grp p = none ∧ t.saved = s.saved.map (fun x =>
            if x.ctx = g.ctx ∧ placeCore x.place = placeCore p ∧ s.savesQueues p g = true
              ∧ (s.takesQueues p g = true ∨ (s.core (placeCore p)).qsaved = true)
            then { x with queued := false } else x) ++ [savedOf s p g b])
      ∧ ((i = .tretKill h ∨ (i = .tretSave h ∧ g.trapcause ≠ Cause.code .preempt)) →
        exec i s = .next (s.failLaunch g.queue g.seqNo 0x03).endTurn)))
  ∧ (∀ (g : Group) (b : Bank), (g.leaveTrap b).pc = g.trappc ∧ (g.leaveTrap b).bank = none ∧ (g.leaveTrap b).v = g.v
    ∧ (g.leaveTrap b).live = b.g 134 ∧ (g.leaveTrap b).act = b.g 135 &&& b.g 134 ∧ (g.leaveTrap b).help = b.g 136 &&& ~~~(b.g 134)
    ∧ (g.leaveTrap b).div.length = min (b.g 137).toNat 16
    ∧ (g.s.wf = true →
      (∀ n, n < 48 → (g.leaveTrap b).getS n = g.getS n) ∧ (∀ n, 48 ≤ n → n < 64 → (g.leaveTrap b).getS n = b.g n))
    ∧ (g.h.wf = true → ∀ n, n < 15 → (g.leaveTrap b).getH n = g.getH n))

/-- R195, R196, R245: a trap sets the cause registers, banks the masks, s48 to s63, h15, the predicates, `frm`, `fflags`, the divergence
stack and the tags, gives fresh ones, and goes on at `trapentry`; within a routine it fails the launch; the walker's group retires, and a stream
ends with state 3. -/
def Obligations.TrapEntry : Prop :=
  (∀ (s : State) (p : Nat) (g : Group) (r : TrapReq), s.grp p = some g → g.inTrap = false → g.kind = .ordinary →
    g.st ≠ .killed → g.st ≠ .retiring → g.quiet = true → g.cpark = none → g.trapWait = none → r.cause ≠ .preempt →
    ∃ g', s.takeTrap p r = s.setGrp p g'
      ∧ g'.pc = (s.die (placeDie p)).trapentry ∧ g'.trapcause = r.cause.code ∧ g'.trapinfo = r.info ∧ g'.trappc = r.pc
      ∧ g'.bank = some g.toBank ∧ g'.live = BitVec.allOnes 32 ∧ g'.act = BitVec.allOnes 32 ∧ g'.help = 0 ∧ g'.div = [] ∧ g'.p = []
      ∧ g'.frm = 0 ∧ g'.fflags = 0 ∧ g'.tags = [] ∧ g'.sq = [] ∧ g'.st = .ready ∧ g'.v = g.v ∧ g'.ctx = g.ctx
      ∧ (g.s.wf = true → (∀ n, n < 48 → g'.getS n = g.getS n) ∧ (∀ n, 48 ≤ n → n < 64 → g'.getS n = 0))
      ∧ (g.h.wf = true → g'.getH 15 = 0 ∧ ∀ n, n < 15 → g'.getH n = g.getH n))
  ∧ (∀ (s : State) (p : Nat) (g : Group) (r : TrapReq), s.grp p = some g → g.st ≠ .killed → g.st ≠ .retiring →
    (g.inTrap = true → s.takeTrap p r = s.failLaunch g.queue g.seqNo 0x03)
    ∧ (g.inTrap = false → g.kind = .walker → SMap.wf (s.die (placeDie p)).walks = true →
      ∃ g', (s.takeTrap p r).grp p = some g' ∧ g'.st = .retiring
      ∧ ∀ n w, (n, w) ∈ ((s.takeTrap p r).die (placeDie p)).walks → ∀ i, w.walker ≠ some (p, i))
    ∧ (g.inTrap = false → g.kind = .reel → r.cause ≠ .preempt → s.cores.wf = true → ∃ g', (s.takeTrap p r).grp p = some g' ∧ g'.st = .killed
      ∧ ((s.takeTrap p r).core (placeCore p)).reelEnd = BitVec.ofNat 32 (3 + 256 * r.cause.code.toNat)))

/-- R27, R195, R245, R287, R288: before any effect a word that is no legal one, or that a stream may not issue, raises `ILLEGAL`; one that
its mode may not issue `PRIVILEGE`; one that names a register at or above the budget `REG_BUDGET` with its number: of several the first, of D, A,
B and C in this order, as the model reads R195, which gives none (log entry 26). -/
def Obligations.IssueChecks : Prop :=
  (∀ (i : Instr) (s : State) (p : Nat) (g : Group), i.isWord = true → s.cur = some p → s.grp p = some g →
    (i.wf = false → exec i s = .next (s.trapsAt p g .illegal g.ir))
    ∧ (i.wf = true → g.kind = .reel → g.inTrap = false → reelAllows i = false → exec i s = .next (s.trapsAt p g .illegal g.ir))
    ∧ (i.wf = true → (g.kind = .reel → g.inTrap = false → reelAllows i = true) → isPrivileged i = true → g.privileged = false →
      exec i s = .next (s.trapsAt p g .privilege g.ir))
    ∧ (i.wf = true → (g.kind = .reel → g.inTrap = false → reelAllows i = true) → (isPrivileged i = true → g.privileged = true) →
      ∀ before r rest, wordRegs i = before ++ r :: rest → (∀ x ∈ before, x < g.regs) → g.regs ≤ r →
        exec i s = .next (s.trapsAt p g .regBudget (BitVec.ofNat 64 r))))
  ∧ (∀ (h : Hdr) (r : RForm) (m : MForm) (c : Csr) (d : Opd) (rc : Bool) (e : Regs) (n : BitVec 4),
    isPrivileged (.tlbf h e) = true ∧ isPrivileged (.frec h e) = true ∧ isPrivileged (.pld h m) = true ∧ isPrivileged (.pst h m) = true
    ∧ isPrivileged (.tlbi h rc e) = true ∧ isPrivileged (.tret h) = true ∧ isPrivileged (.csrr h c d) = c.isPriv
    ∧ isPrivileged (.csrw h c d) = c.isPriv ∧ isPrivileged (.iadd h r) = false
    ∧ reelAllows (.ffma h r) = false ∧ reelAllows (.tzero h n) = false
    ∧ (queuesOf [r.a, r.b, r.c] ≠ [] → reelAllows (.iadd h r) = false)
    ∧ wordRegs (.imad h r) = opdRegs r.d (if r.ty.is64 then 2 else 1) ++ opdRegs r.a (if r.ty.is64 then 2 else 1)
      ++ opdRegs r.b (if r.ty.is64 then 2 else 1) ++ opdRegs r.c (if r.ty.is64 then 2 else 1))
  ∧ (∀ (h : Hdr) (c : Csr) (d : Opd) (s : State) (p : Nat) (g : Group), s.cur = some p → s.grp p = some g →
    (c = .trapcause ∨ c = .trapinfo ∨ c = .clock ∨ c = .gid ∨ c = .ctxid) →
      exec (.csrw h c d) s = .next (s.trapsAt p g .illegal g.ir))

/-- R176 to R178, R180, R183 to R185, R189, R343, R369, R370, R394, R395: the walker's words: `TLBF` and `FREC` hand the lanes' records over in
ascending order, `PLD` and `TLBI` allocate their tags with their addresses, the range and the context. A fill that the entry permits gives the
slice's TLB the page's translation; an entry that is not valid, malformed, a table's, or denies the access ends the record with the cause that
the rules name, as `FREC` does with its own: the record is free, the fault record waits for the fault counter, or `fovf` is set, and the word that
waited is answered. -/
def Obligations.WalkerWords : Prop :=
  (∀ (h : Hdr) (r : Regs) (rc : Bool) (m : MForm) (s : State) (p : Nat) (g : Group),
    (∀ t g', s.Issues p g (.tlbf h r) (opdRegs r.a 1 ++ opdRegs r.b 2 ++ opdRegs r.c 1) →
      t = (maskLanes (g.exec h.guard)).foldl (fun a i => a.tlbfill (placeDie p) (g.read [] i (src r.a false .none) % 2 ^ 11)
        (g.read [] i (src r.c false .none) % 2 ^ 3) (g.read [] i (src r.b true .none))) s → t.grp p = some g' →
      exec (.tlbf h r) s = .next (t.wrote p (g'.at h g.lpend.length g.npc)))
    ∧ (∀ t g', s.Issues p g (.frec h r) (opdRegs r.d 1 ++ opdRegs r.a 1 ++ opdRegs r.b 2 ++ opdRegs r.c 1) →
      ((∃ i, (g.exec h.guard).getLsbD i = true ∧ (g.read [] i (src r.d false .none) % 2 ^ 8 = 0 ∨ 8 < g.read [] i (src r.d false .none) % 2 ^ 8)) →
        exec (.frec h r) s = .next (s.trapsAt p g .illegal g.ir))
      ∧ ((∀ i, (g.exec h.guard).getLsbD i = true → 0 < g.read [] i (src r.d false .none) % 2 ^ 8 ∧ g.read [] i (src r.d false .none) % 2 ^ 8 ≤ 8) →
        t = (maskLanes (g.exec h.guard)).foldl (fun a i => a.frecord (placeDie p) (g.read [] i (src r.a false .none) % 2 ^ 11)
          (g.read [] i (src r.d false .none) % 2 ^ 8) (g.read [] i (src r.c false .none) % 2 ^ 3) (g.read [] i (src r.b true .none))) s →
        t.grp p = some g' → exec (.frec h r) s = .next (t.wrote p (g'.at h g.lpend.length g.npc))))
    ∧ (s.Issues p g (.tlbi h rc r) [] → g.read [] 0 (src r.a true .none) % 65536 = 0 → g.read [] 0 (src r.b false .none) % 65536 = 0 →
      s.owner (g.read [] 0 (src r.a true .none)) ≠ .bad →
      g.read [] 0 (src r.a true .none) % 2 ^ 52 + g.read [] 0 (src r.b false .none) ≤ 2 ^ 52 →
      ∃ (words : SMap Word) (o : POp), o = outstanding s g (.tlbi h rc r) 1 0 words []
        ∧ (o.word2 0 0).toNat = g.read [] 0 (src r.a true .none) ∧ (o.word 2 0).toNat = g.read [] 0 (src r.b false .none)
        ∧ (o.word 3 0).toNat = g.read [] 0 (src r.c false .none)
        ∧ exec (.tlbi h rc r) s = .next (s.tagged p g h o))
    ∧ (s.Issues p g (.pld h m) (opdRegs m.d 2 ++ opdRegs m.a 2) →
      (∀ n, (others (memLanes g h m.d.isS) (memHelpers g h m.d.isS)).getLsbD n = true →
        memAddr g false m n % 8 = 0 ∧ physAt (memAddr g false m n) = .mem) →
      ∃ (words : SMap Word) (o : POp), o = outstanding s g (.pld h m) (others (memLanes g h m.d.isS) (memHelpers g h m.d.isS)) 0 words
          (zeros (memHelpers g h m.d.isS) m.d true)
        ∧ (∀ n, (others (memLanes g h m.d.isS) (memHelpers g h m.d.isS)).getLsbD n = true → loadAddr false m o n = memAddr g false m n)
        ∧ exec (.pld h m) s = .next (s.tagged p g h o)))
  ∧ (∀ (s : State) (d n level pte cause : Nat) (x : Walk), (s.die d).walks.find n = some x →
    (x.stale = true → s.tlbfill d n level pte = s.freeWalk d n ∧ s.frecord d n cause level pte = s.freeWalk d n)
    ∧ (x.stale = false → s.frecord d n cause level pte = s.endFault d n x cause level pte)
    ∧ (x.stale = false → 1 ≤ level → level ≤ 4 → pte < 2 ^ 64 → ∃ c, entryCause pte level x.host x.va x.acc c
      ∧ (c = 0 → s.tlbfill d n level pte = (s.fillTlb d x level pte).freeWalk d n
        ∧ ∃ e, ((s.fillTlb d x level pte).die d).tlbFind x.slice x.ctx x.va = some e ∧ fillOf pte level x e)
      ∧ (c ≠ 0 → s.tlbfill d n level pte = s.endFault d n x c level pte)))
  ∧ (∀ (s t : State) (d n cause level pte : Nat) (x : Walk), d < 2 → (s.die d).walks.find n = some x → x.small → cause < 2 ^ 8 → level < 2 ^ 3 →
    pte < 2 ^ 64 → (s.waitsOn d n = [] ∨ ∃ w p k, s.waitsOn d n = [w] ∧ w.req = .tag p k) → t = s.endFault d n x cause level pte →
    (t.die d).walks = (s.die d).walks.del n ∧ (∀ w ∈ t.waits, w ∈ s.waits ∧ w ∉ s.waitsOn d n)
    ∧ (x.acc = .prefetch → t.adds = s.adds)
    ∧ (x.acc ≠ .prefetch → (s.desc d x.ctx).fhead ≠ 0 → 4 ≤ (s.desc d x.ctx).flsize → (s.desc d x.ctx).flsize ≤ 16 → ∃ r,
      faultIs r d x cause level pte (s.gen d x.ctx).toNat ∧ t.adds = s.adds ++ [{
        id := s.seq, ctx := 0, va := BitVec.ofNat 64 (s.desc d x.ctx).fhead, amount := 1, token := false, pre := .fault x.ctx r, die := d, t := 0
        port := none }])
    ∧ (x.acc ≠ .prefetch → (s.desc d x.ctx).fhead = 0 ∨ (s.desc d x.ctx).flsize < 4 ∨ 16 < (s.desc d x.ctx).flsize →
      t.adds = s.adds ∧ (s.waitsOn d n = [] → t = ((s.freeWalk d n).holdDesc d x.ctx).putDescBits d x.ctx 262 1 1))
    ∧ (∀ w p k g o, s.waitsOn d n = [w] → w.req = .tag p k → s.grp p = some g → g.op k = some o → ∃ g', t.grp p = some g'
      ∧ g'.op k = some { o with faults := o.faults ++ [(x.va / 65536, { owner := d, gen := s.gen d w.ctx })] }
      ∧ t.agenda = .tagRelease p k none :: s.agenda))

/-! ## Scene words -/

/-- R216, R217, R344, R362: `HITK` replaces a record by a candidate that comes before it; `MORTON` interleaves the three axes' codes. -/
def Obligations.HitWords : Prop :=
  (∀ (h : Hdr) (r : Regs) (s : State) (p : Nat) (g : Group), s.Issues p g (.hitk h r) (opdRegs r.d 6 ++ opdRegs r.a 12 ++ opdRegs r.b 1) →
    ∀ (c : Nat → Nat → Nat) (takes : Nat → Bool),
      (∀ i k, c i k = if k = 0 then runWord g r.a i 11 else if k = 1 then g.read [] i (src r.b false .none) else runWord g r.a i (k - 1)) →
      (∀ i, takes i = true ↔ runWord g r.a i 0 % 8 ≠ 0 ∧ (ltV (f32v (c i 0)) (f32v (runWord g r.d i 0)) = true
        ∨ (eqV (f32v (c i 0)) (f32v (runWord g r.d i 0)) = true ∧ (c i 1 < runWord g r.d i 1
          ∨ (c i 1 = runWord g r.d i 1 ∧ (c i 2 < runWord g r.d i 2 ∨ (c i 2 = runWord g r.d i 2 ∧ c i 3 < runWord g r.d i 3))))))) →
      exec (.hitk h r) s = .next (s.wrote p ((g.wrs ((maskLanes (g.exec h.guard)).map (fun i =>
        if takes i then runWrs r.d i ((List.range 6).map (c i)) else [])).flatten).at h g.lpend.length g.npc)))
  ∧ (∀ (h : Hdr) (r : Regs) (s : State) (p : Nat) (g : Group),
    s.Issues p g (.morton h r) (opdRegs r.d 1 ++ opdRegs r.a 3) → ∃ val : Nat → Nat,
      (∀ i a, a < 3 → val i < 2 ^ 30 ∧ ∀ k, k < 10 → (val i).testBit (3 * k + 2 - a)
        = (mortonAxis (runWord g r.a i a) (g.getS (sFirst r.b + a)).toNat (g.getS (sFirst r.b + 3 + a)).toNat).testBit k)
      ∧ exec (.morton h r) s = .next (s.wrote p ((g.leave h.sched.la
          ((maskLanes (g.exec h.guard)).map (fun i => dstWr i r.d false (val i))).flatten).at h g.lpend.length g.npc)))

/-- R32, R42, R120, R214, R215, R218, R365, R367, R368, R374, R401: `NTEST`, `NFMT` and `TRVPOP` allocate their tags over the threads that have
a node, a table or an entry to read, `NTEST` with the node-format table of its issue; `QBOX` packs a frame or the bounds in one. The bytes of
`QBOX` for an infinite extent are free (log entry 35). -/
def Obligations.SceneReads : Prop :=
  ∀ (h : Hdr) (r : Regs) (s : State) (p : Nat) (g : Group),
    (s.Issues p g (.ntest h r) (opdRegs r.d 12 ++ opdRegs r.a 8 ++ opdRegs r.b 2) →
      (∀ n, (others (g.exec h.guard) g.help).getLsbD n = true → g.read [] n (src r.b true .none) / 2 % 64 = 0
        ∧ s.accessOk p g false false (g.read [] n (src r.b true .none) / 2 * 2) 128) →
      ∃ (words : SMap Word) (o : POp), o = outstanding s g (.ntest h r) (g.exec h.guard) (g.exec h.guard &&& g.help) words []
        ∧ exec (.ntest h r) s = .next (s.tagged p g h { o with tab := some (s.nodeTable p g) })
        ∧ ∀ n a, (g.exec h.guard).getLsbD n = true → a = g.read [] n (src r.b true .none) →
          (∀ k, k < 8 → (o.word k n).toNat = runWord g r.a n k)
          ∧ (o.word2 8 n).toNat / 128 = a / 128 ∧ (o.word 8 n).getLsbD 0 = a.testBit 0
          ∧ ((o.word 8 n).toNat / 2 ^ 3 % 2 ^ 4 ≠ 0 ↔ a / 2 % 64 ≠ 0) ∧ snapsOf o 8 10 n = snapsAt g r.c)
    ∧ (s.Issues p g (.nfmt h r) [] → g.read [] 0 (src r.a true .none) % 128 = 0 →
      s.accessOk p g false false (g.read [] 0 (src r.a true .none)) 256 →
      ∃ words : SMap Word, ((outstanding s g (.nfmt h r) 1 0 words []).word2 0 0).toNat = g.read [] 0 (src r.a true .none)
        ∧ exec (.nfmt h r) s = .next (s.tagged p g h (outstanding s g (.nfmt h r) 1 0 words [])))
    ∧ (s.Issues p g (.trvpop h r) (opdRegs r.d 4 ++ opdRegs r.a 1) → g.exec h.guard = 0 →
      exec (.trvpop h r) s = .next (s.tagged p g h (outstanding s g (.trvpop h r) 0 0 [] [])))
    ∧ (∀ k base spill, s.Issues p g (.trvpop h r) (opdRegs r.d 4 ++ opdRegs r.a 1) → s.stashGang p g = some k → k.binds = [] →
      base = (g.getS (sFirst r.b)).toNat → spill = (g.getS2 (sFirst r.b + 2)).toNat → base + 16384 ≤ k.stashSize →
      (∀ n, (others (g.exec h.guard) g.help).getLsbD n = true → 32 < runWord g r.a n 0 % 2 ^ 16 →
        spill % 16 = 0 ∧ s.accessOk p g false false (spillVa spill n (runWord g r.a n 0 % 2 ^ 16 - 1)) 16) →
      ∃ (words : SMap Word) (todo : Mask) (o : POp),
        (∀ n, n < 32 → (todo.getLsbD n = true ↔ (g.exec h.guard).getLsbD n = true ∧ 0 < runWord g r.a n 0 % 2 ^ 16))
        ∧ o = outstanding s g (.trvpop h r) todo (g.exec h.guard &&& g.help &&& todo) words
          ((maskLanes (others (g.exec h.guard) todo)).map (fun i => runWrs r.d i [0, 0, 0, 1])).flatten
        ∧ (∀ n, todo.getLsbD n = true → (o.word 0 n).toNat = runWord g r.a n 0 ∧ (o.word 1 n).toNat = base ∧ (o.word2 2 n).toNat = spill
          ∧ snapsOf o 6 4 n = snapsAt g r.c)
        ∧ exec (.trvpop h r) s = .next (s.tagged p g h o))
    ∧ (∀ fr : Bool, s.Issues p g (.qbox h fr r)
        (if fr then opdRegs r.d 4 ++ opdRegs r.a 6 else opdRegs r.d 2 ++ opdRegs r.a 6 ++ opdRegs r.b 4) →
      ∃ ws : Nat → List Nat,
        (∀ n, (g.exec h.guard).getLsbD n = true →
          if fr then frameWords (runWord g r.a n) (ws n) else boxWords (runWord g r.a n) (runWord g r.b n) (ws n))
        ∧ exec (.qbox h fr r) s = .next ({ s with fresh := s.fresh + 64 }.wrote p ((g.leave h.sched.la
          ((maskLanes (g.exec h.guard)).map (fun i => runWrs r.d i (ws i))).flatten).at h g.lpend.length g.npc)))

/-- R42, R215, R400: `TRVPUSH` with no thread only goes on. Otherwise, in a gang without bindings, it completes where no lane goes past the 32
entries that stand in stash and the store queue has room, or where the queue is empty and every spill place that it needs may be written: each
entry of the block goes to the stash slot of its depth, the entry that a deeper one replaces before it to its spill place, and nothing else is
stored; the depth rises, and no other register changes; where 1,056 entries leave no room, bit 31 is set. That bits 30:16 of the depth come out
zero, and that a cluster leaf's block with more than the 43 lines that R215 allows pushes 43, is the model's reading (log entry 44). -/
def Obligations.StackPushes : Prop :=
  ∀ (h : Hdr) (r : Regs) (s : State) (p : Nat) (g : Group), s.Issues p g (.trvpush h r) (opdRegs r.d 1 ++ opdRegs r.a 12) →
    (g.exec h.guard = 0 → exec (.trvpush h r) s = .next (s.wrote p (g.at h g.lpend.length g.npc)))
    ∧ (∀ (k : Gang) (base spill : Nat) (xs : Nat → List (Nat × Nat)) (old : Nat → Nat → Nat) (accs : List SqAcc),
      g.exec h.guard ≠ 0 → s.stashGang p g = some k → k.binds = [] →
      base = (g.getS (sFirst r.b)).toNat → spill = (g.getS2 (sFirst r.b + 2)).toNat → base + 16384 ≤ k.stashSize →
      (∀ n, n < 32 → pushesOf (runWord g r.a n) (xs n)) →
      (∀ n m, n < 32 → m < 32 → BytesAre 16 (old n m) (fun j =>
        Memory.read (s.core (placeCore p)).stash (k.stashBase + (base + 512 * n + 16 * m) + j))) →
      ((g.sq.length < 8 ∧ ∀ n d, (others (g.exec h.guard) g.help).getLsbD n = true → pushesAt g r xs n d → d < 32)
        ∨ (g.sq = [] ∧ spill % 16 = 0 ∧ ∀ n d, (others (g.exec h.guard) g.help).getLsbD n = true → pushesAt g r xs n d → 32 ≤ d →
          s.accessOk p g false true ((spill + 16384 * n + 16 * (d - 32)) % 2 ^ 64) 16)) →
      accs = ((maskLanes (others (g.exec h.guard) g.help)).map (fun n => ((List.range (pushCount g r xs n)).map
        (pushAccs base spill n (pushFrom g r n) (xs n) (old n))).flatten)).flatten →
      exec (.trvpush h r) s = .next ((if accs = [] then s else s.tick).wrote p (Group.at { g.wrs ((maskLanes (g.exec h.guard)).map (fun n =>
          dstWr n r.d false (pushFrom g r n + pushCount g r xs n
            + if (runWord g r.d n 0).testBit 31 = true ∨ pushCount g r xs n < (xs n).length then 2 ^ 31 else 0))).flatten with
        sq := g.sq ++ (if accs = [] then [] else [{
          pc := g.pc, kind := .store, ord := .rlx, scope := .gang, accs := accs, tag := 0, frm := g.frm, seq := s.seq, parked := none
          after := g.fence, whole := wholeLines accs }]) } h g.lpend.length g.npc)))

/-! ## Requests to engines, splicers, coilers, the reel -/

/-- R171, R172, R231 to R233, R236, R350: `KICK` takes a legal block into its core's kick register with its context, launch and time,
and registers its ranges. That the word waits as a release does is read by inference (log entry 37). -/
def Obligations.Kicks : Prop :=
  ∀ (h : Hdr) (r : Regs) (s : State) (p : Nat) (g : Group) (b : Line) (k : Gang) (e : Nat), s.Issues p g (.kick h r) [] →
    s.BlockAt p g (g.read [] 0 (src r.a false .none)) b k →
    (reqLegal b = false → exec (.kick h r) s = .next (s.trapsAt p g .illegal (BitVec.ofNat 64 (g.read [] 0 (src r.a false .none)))))
    ∧ (reqLegal b = true → reqPriv b = true → g.privileged = false →
      exec (.kick h r) s = .next (s.trapsAt p g .privilege (BitVec.ofNat 64 (g.read [] 0 (src r.a false .none)))))
    ∧ (reqLegal b = true → (reqPriv b = true → g.privileged = true) → e = s.pickEngine (placeDie p) (g.read [] 0 (src r.b false .none)) →
      ((s.core (placeCore p)).kick ≠ none → exec (.kick h r) s = .next (s.wrote p g.hold))
      ∧ ((s.core (placeCore p)).kick = none → s.engLoad (placeDie p) e < 16 → (s.core (placeCore p)).locks.length + (reqRanges b).length ≤ 32 →
        (∀ x ∈ reqRanges b, ∀ l ∈ (s.core (placeCore p)).locks, l.ctx = g.ctx → (x.2.2 = true ∨ l.dst = true) → Apart x.1 x.2.1 l.lo l.len) →
        ∃ q : EngReq, exec (.kick h r) s = .next ((s.tick.setCore (placeCore p) { s.core (placeCore p) with
            kick := some (e, q)
            locks := (s.core (placeCore p)).locks ++ (reqRanges b).map (fun y => { ctx := g.ctx, lo := y.1, len := y.2.1, dst := y.2.2, id := s.seq })
            }).wrote p (g.at h g.lpend.length g.npc))
          ∧ q.id = s.seq ∧ q.block = b ∧ q.ctx = g.ctx ∧ q.frm = g.frm ∧ q.core = placeCore p ∧ q.queue = g.queue ∧ q.seqNo = g.seqNo
          ∧ q.gang = g.gangKey ∧ q.index = g.gang.toNat ∧ q.spawned = g.spawned ∧ q.t = (s.core (placeCore p)).t ∧ q.fail = false
          ∧ q.pos = 0 ∧ q.bytes = 0 ∧ q.phase = 0 ∧ q.units = [] ∧ q.met = false
          ∧ (q.stage = 3 ↔ reqLen b = 0) ∧ (q.stage = 0 ↔ reqLen b ≠ 0)))

/-- R220, R312, R321: `BLD` queues its block at the splicer its operand names, `CMPCT` at a coiler; a full queue makes the group wait. -/
def Obligations.TreeCommands : Prop :=
  ∀ (h : Hdr) (r : Regs) (s : State) (p : Nat) (g : Group) (b : Line) (k : Gang) (u : TreeUnit) (n : Nat) (i : Instr),
    ((u = .splicer ∧ i = .bld h r ∧ n = g.read [] 0 (src r.b false .none) % 8)
      ∨ (u = .coiler ∧ i = .cmpct h r ∧ n = g.read [] 0 (src r.b false .none) % 2)) →
    s.Issues p g i [] → s.BlockAt p g (g.read [] 0 (src r.a false .none)) b k →
    (4 ≤ (s.treeQueue u (placeDie p) n).length → exec i s = .next (s.wrote p g.hold))
    ∧ ((s.treeQueue u (placeDie p) n).length < 4 → ∃ q : TreeReq,
      exec i s = .next ((s.tick.setTreeQueue u (placeDie p) n (s.treeQueue u (placeDie p) n ++ [q])).wrote p (g.at h g.lpend.length g.npc))
      ∧ q.id = s.seq ∧ q.block = b ∧ q.ctx = g.ctx ∧ q.core = placeCore p ∧ q.t = (s.core (placeCore p)).t ∧ q.phase = 0 ∧ q.pos = 0
      ∧ q.want = [] ∧ q.got = [] ∧ q.unit = 0 ∧ q.ops = [])

/-- R243 to R245, R391: `SSTART` starts a stream group, or reports that one runs or that the slot is not free; `SSTOP` reports how the
last one ended. That the queues are taken by a start that reports 1 or 2, and that the report of 1 for another context's stream
does not wait for the queues, are read by inference (log entry 36). -/
def Obligations.StreamControl : Prop :=
  ∀ (h : Hdr) (r : Regs) (s : State) (p : Nat) (g : Group), g.kind = .ordinary →
    (s.Issues p g (.sstart h r) [] → (s.core (placeCore p)).qowner = none ∨ (s.core (placeCore p)).qowner = some g.ctx →
      ∀ own, own = s.setCore (placeCore p) { s.core (placeCore p) with qowner := some g.ctx } →
      (∀ y, s.stream (placeCore p) = some y → y.ctx = g.ctx → y.running = true →
        exec (.sstart h r) s = .next (own.wrote p ((g.wrs (dstWr 0 r.d false 1)).at h g.lpend.length g.npc)))
      ∧ (s.stream (placeCore p) = none → s.reelFree (placeCore p) = false →
        exec (.sstart h r) s = .next (own.wrote p ((g.wrs (dstWr 0 r.d false 2)).at h g.lpend.length g.npc)))
      ∧ (s.stream (placeCore p) = none → s.reelFree (placeCore p) = true → p ≠ reelPlace (placeCore p) → s.cores.wf = true →
        ∃ (t : State) (y : Group), exec (.sstart h r) s = .next (t.wrote p ((g.wrs (dstWr 0 r.d false 0)).at h g.lpend.length g.npc))
          ∧ t.grp (reelPlace (placeCore p)) = some y ∧ y.kind = .reel ∧ y.st = .ready ∧ y.ctx = g.ctx ∧ y.gangKey = g.gangKey
          ∧ y.pc = BitVec.ofNat 64 (g.read [] 0 (src r.a true .none)) ∧ y.live = BitVec.allOnes 32 ∧ y.regs = 32
          ∧ (y.getS2 0).toNat = g.read [] 0 (src r.b true .none) ∧ y.v = [] ∧ y.p = []
          ∧ (t.core (placeCore p)).qowner = some g.ctx ∧ (t.core (placeCore p)).reelGang = g.gangKey
          ∧ (t.core (placeCore p)).reelCtx = g.ctx))
    ∧ (s.Issues p g (.sstart h r) [] → ∀ y, s.stream (placeCore p) = some y → y.ctx ≠ g.ctx →
      exec (.sstart h r) s = .next (s.wrote p ((g.wrs (dstWr 0 r.d false 1)).at h g.lpend.length g.npc)))
    ∧ (s.Issues p g (.sstop h r) [] →
      (s.stream (placeCore p) = none → exec (.sstop h r) s = .next (s.wrote p ((g.wrs (dstWr 0 r.d false
        (if (s.core (placeCore p)).reelCtx = g.ctx then (s.core (placeCore p)).reelEnd.toNat else 0))).at h g.lpend.length g.npc)))
      ∧ (∀ y, s.stream (placeCore p) = some y → y.ctx = g.ctx → y.running = true → p ≠ reelPlace (placeCore p) →
        ∃ t y', exec (.sstop h r) s = .next t ∧ t.grp p = some g.hold ∧ t.grp (reelPlace (placeCore p)) = some y' ∧ y'.st = .killed))

/-- R246, R308: `BDEC` allocates its tag over the threads of E, with their cursors; it reads k bits, or an Exp-Golomb code, from the
most significant bit of a byte on. That helpers decode and trap like live threads is read by inference (log entry 38). -/
def Obligations.BitDecoding : Prop :=
  (∀ (h : Hdr) (kind : BdecKind) (k : BitVec 10) (r : Regs) (s : State) (p : Nat) (g : Group),
    s.Issues p g (.bdec h kind k r) (opdRegs r.d 1 ++ opdRegs r.a 1) →
    (kind = .pfx → g.read [] 0 (src r.b false .none) % 2 = 1 → exec (.bdec h kind k r) s = .next (s.trapsAt p g .illegal g.ir))
    ∧ ((kind = .pfx → g.read [] 0 (src r.b false .none) % 2 = 0 ∧ ∃ x, s.stashGang p g = some x
        ∧ g.read [] 0 (src r.b false .none) + 512 ≤ x.stashSize) →
      ∃ words, (∀ n, (g.exec h.guard).getLsbD n = true →
          ((outstanding s g (.bdec h kind k r) (g.exec h.guard) (g.exec h.guard &&& g.help) words []).word 0 n).toNat
            = g.read [] n (src r.a false .none))
        ∧ exec (.bdec h kind k r) s = .next (s.tagged p g h
          (outstanding s g (.bdec h kind k r) (g.exec h.guard) (g.exec h.guard &&& g.help) words []))))
  ∧ (∀ (size c k : Nat) (rd : Nat → Option Byte), (∀ n, n < size → ∃ b, rd n = some b) →
    (c + k ≤ 8 * size → ∃ v, decodeOne .fix k size 0 rd c = .val v k ∧ v < 2 ^ k
      ∧ ∀ j, j < k → ∃ b, rd ((c + j) / 8) = some b ∧ v.testBit (k - 1 - j) = b.getLsbD (7 - (c + j) % 8))
    ∧ (∀ z : Nat, k ≤ 31 → z + k ≤ 31 → c + 2 * z + 1 + k ≤ 8 * size →
      (∀ j, j < z → ∃ b, rd ((c + j) / 8) = some b ∧ b.getLsbD (7 - (c + j) % 8) = false) →
      (∃ b, rd ((c + z) / 8) = some b ∧ b.getLsbD (7 - (c + z) % 8) = true) →
      ∃ v, decodeOne .eg k size 0 rd c = .val v (2 * z + 1 + k) ∧ v + 2 ^ k < 2 ^ (z + k + 1) ∧ 2 ^ (z + k) ≤ v + 2 ^ k
        ∧ ∀ j, j < z + k → ∃ b, rd ((c + z + 1 + j) / 8) = some b ∧ (v + 2 ^ k).testBit (z + k - 1 - j) = b.getLsbD (7 - (c + z + 1 + j) % 8)))

/-! ## Events of groups -/

/-- R11, R57 to R60, R260, R263: a line that is not in the instruction cache is read at its home into it, and takes another line's place in a
full one. A pipe's turn goes to the candidate that R58 names, when its word is not uniform or the slice's scalar unit grants it; its age is 0
from then on while the other candidates' ages rise to 64 and a refused one's stays; the yields are spent. A uniform word is granted where no
other pipe of the slice presents one. Which groups are candidates is what a look at each one's next word finds (log entry 20). -/
def Obligations.FetchAndTurn : Prop :=
  (∀ (s : State) (p d : Nat) (g : Group) (hl : HomeLine), s.grp p = some g → g.wantsWord = true → s.waiting (.fetch p) = false →
    pcFormOk g.pc = true → s.Holds d g.ctx (pcLine g.pc) .fetch hl → hl.owner = none → hl.poison = false →
    (s.core (placeCore p)).icache.find (lineKey g.ctx (pcLine g.pc)) = none →
    ((s.core (placeCore p)).icache.length < 1536 →
      exec (.instructionFetch p) s = .next ((s.holdDesc d g.ctx).modCore (placeCore p) (fun k => { k with
        icache := k.icache.put (lineKey g.ctx (pcLine g.pc)) hl.data })))
    ∧ (1536 ≤ (s.core (placeCore p)).icache.length → ∃ v : Nat, exec (.instructionFetch p) s
      = .next ({ s.holdDesc d g.ctx with fresh := (s.holdDesc d g.ctx).fresh + 1 }.modCore (placeCore p) (fun k => { k with
        icache := (k.icache.del v).put (lineKey g.ctx (pcLine g.pc)) hl.data }))))
  ∧ (∀ (s s1 : State) (k : Nat) (xs : List Cand) (refused : List Nat), s.cur = none → xs = s.candidates k → s1 = (s.lookAll k).1 →
    refused = (s.award 4 xs).2 → ∃ t, exec (.issueTurn k) s = .next t
    ∧ ((∀ x ∈ s.onPipe k, s.wants x = true → ∃ u, s.look x.1 = .can u) → s1 = s)
    ∧ (∀ x ∈ xs, s.grp x.p = some x.g ∧ placePipeKey x.p = k ∧ s.wants (x.p, x.g) = true ∧ (x.g.yielded = true → xs = [x]))
    ∧ (∀ p, t.cur = some p → ∃ x ∈ xs, x.p = p)
    ∧ (∀ p g, placePipeKey p = k → s.grp p ≠ none → s1.grp p = some g → ∃ g', t.grp p = some g'
      ∧ g' = { g with age := g'.age, aged := g'.aged, yielded := false, st := g'.st }
      ∧ (t.cur = some p → g'.age = 0)
      ∧ (t.cur ≠ some p → p ∈ refused → g'.age = g.age ∧ g'.st = .waiting)
      ∧ (t.cur ≠ some p → p ∉ refused → (∃ x ∈ xs, x.p = p) → g'.age = min 64 (g.age + 1) ∧ g'.st = .ready)
      ∧ (t.cur ≠ some p → p ∉ refused → (∀ x ∈ xs, x.p ≠ p) → g'.age = g.age ∧ g'.st = g.st)
      ∧ (g'.age = 64 → g.age < 64 → g'.aged = s.seq))
    ∧ (∀ p, placePipeKey p ≠ k → t.grp p = s1.grp p)
    ∧ ∀ x ∈ xs, (x.uni = false ∨ s.grants x = true) →
      (x.g.age = 64 → (∀ y ∈ xs, y.g.age = 64 → y.p ≠ x.p → x.g.aged < y.g.aged ∨ (x.g.aged = y.g.aged ∧ x.p < y.p)) → t.cur = some x.p)
      ∧ ((∀ y ∈ xs, y.g.age ≠ 64) →
        (x.g.kind = .walker → (∀ y ∈ xs, y.g.kind = .walker → y.p = x.p) → t.cur = some x.p)
        ∧ ((∀ y ∈ xs, y.g.kind ≠ .walker) →
          (x.g.kind = .reel → (∀ y ∈ xs, y.g.kind = .reel → y.p = x.p) → t.cur = some x.p)
          ∧ ((∀ y ∈ xs, y.g.kind ≠ .reel) →
            (∀ y ∈ xs, y.p ≠ x.p → y.g.prio < x.g.prio
              ∨ (x.g.prio = y.g.prio ∧ (y.g.age < x.g.age ∨ (x.g.age = y.g.age ∧ x.p < y.p)))) → t.cur = some x.p)))
      ∧ (t.cur = some x.p → x.uni = true → (t.core (k / 128)).scalar.find (k / 32) = some (k % 32)))
  ∧ (∀ (s : State) (x : Cand), (∀ j y, j ≠ placePipeKey x.p → j / 32 = placePipeKey x.p / 32 →
      chooseGroup (s.candidates j) = some y → y.uni = false) → s.grants x = true)

/-- R110, R156, R165, R175, R188, R210 to R215, R266 to R268, R302, R303, R308, R322, R394, R401: a finished result is written and its tag released, or
some of it is written early and not again. What each word finds when its lines arrive: a load the bytes of its addresses; a tile its header, over
the fragment's registers alone; an atomic, at its home or in the line its core owns, each thread's old value, with `ACAS` changing what matches alone; a
counter read its value; a node test its slab and triangle results; a pop the entry of its depth, and the freed slot the spilled one; a table
and a physical word their bytes; a bit decode its value and cursor. Which results come early is the event's (log entry 8); lanes that finish
in one step do so by choice (log entry 47); stale and failed are told beside a bad format, and a box with a NaN is missed, by inference (log
entry 34); so is what a pop leaves in bits 30:16 of its depth (log entry 44); the words of a leaf without a hit, and that only present hitch
roots count, are the model's choice (log entry 56). -/
def Obligations.ResultsArrive : Prop :=
  ∀ (s : State) (p t : Nat) (g : Group), s.grp p = some g → g.trapWait = none →
    (∀ (k : Nat) (l : LPend), g.lpend[k]? = some l →
      exec (.longResultWrite p k none) s = .next (s.setGrp p { g.wrs l.res with lpend := g.lpend.eraseIdx k })
      ∧ ∀ early, ∃ ws left : List Wr, ws.Sublist l.res ∧ left.Sublist l.res ∧ ws.length + left.length = l.res.length
        ∧ exec (.longResultWrite p k (some early)) s = .next (s.setGrp p { g.wrs ws with
            lpend := g.lpend.take k ++ { l with res := left } :: g.lpend.drop (k + 1) }))
    ∧ ∀ o : POp, g.op t = some o → o.parked = none → s.waiting (.tag p t) = false →
      (o.todo = 0 →
        exec (.tagRelease p t none) s = .next (s.setGrp p ((g.wrs o.res).setOp t none))
        ∧ ∀ early, ∃ ws left : List Wr, ws.Sublist o.res ∧ left.Sublist o.res ∧ ws.length + left.length = o.res.length
          ∧ exec (.tagRelease p t (some early)) s = .next (s.setGrp p ((g.wrs ws).setOp t (some { o with res := left }))))
      ∧ (∀ (h : Hdr) (w : LdW) (m : MForm) (k : Gang), o.instr = some (.lds h w m) → o.todo ≠ 0 → g.noneBefore o.seq 0 →
        s.stashGang p g = some k → k.binds = [] → g.sq = [] →
        ∃ val : Nat → Nat,
          (∀ n, o.todo.getLsbD n = true → ∃ x, BytesAre (ldBytes w) x (fun j =>
              Memory.read (s.core (placeCore p)).stash (k.stashBase + (loadAddr true m o n + j))) ∧ loadedAs w x (val n))
          ∧ exec (.tagRelease p t none) s = .next (s.setGrp p (g.setOp t (some { o with
              todo := 0, res := o.res ++ ((maskLanes o.todo).map (fun n => dstWr n m.d (w == .b64) (val n))).flatten }))))
      ∧ (∀ (h : Hdr) (hd : BitVec 4) (x : Opd) (off : BitVec 20) (ord : Order) (sc : Scope) (f1 f2 : Fetched) (a n : Nat) (want m : THdr)
          (g2 : Group), o.instr = some (.tld h hd x off ord sc) → o.todo ≠ 0 → g.noneBefore o.seq 0 → g.sq = [] →
        a = (o.word2 0 0).toNat → want = THdr.of (o.word 5 0 ++ o.word 4 0 ++ o.word 3 0 ++ o.word 2 0) →
        f1 = fetchLines s (placeCore p) g.ctx .load o.faults o.seq o.counted (asksOf [(a, 16)]) → f1.whole →
        loadBytes f1.s p g f1.got o.seq (f1.s.tgts p g false a 16) = some n → m = THdr.of (BitVec.ofNat 128 n) →
        firstBad (badArrival want m (BitVec.ofNat 128 n) g.regs a) = none →
        (∀ e ∈ m.extents a, f1.s.accessOk p g false false (e.1 % 2 ^ 64) e.2) →
        f2 = fetchLines f1.s (placeCore p) g.ctx .load o.faults o.seq o.counted (asksOf (m.extents a)) →
        f2.whole → f2.s.grp p = some g2 → g2.trapWait = none →
        ∃ ws d, exec (.tldArrival p t) s = .next (f2.s.setGrp p (g2.setOp t (some { o with
            todo := 0, res := ws ++ [.h hd.toNat (THdr.word d)] })))
          ∧ onlyFrag d ws ∧ d.base = want.base ∧ d.sbase = want.sbase ∧ d.lay = want.lay ∧ d.loc = false
          ∧ d.ty = m.ty ∧ d.rows = m.rows ∧ d.cols = m.cols ∧ d.spa = m.spa ∧ d.scl = m.scl ∧ d.ocnt = min m.ocnt 32)
      ∧ (o.todo ≠ 0 → g.sq = [] → g.noneBefore o.seq 0 →
        (∀ (h : Hdr) (w : LdW) (m : MForm) (f : Fetched) (g2 : Group), o.instr = some (.ld h w m) →
          f = fetchLines s (placeCore p) g.ctx .load o.faults o.seq o.counted (laneAsks o.todo (fun _ => ldBytes w) (loadAddr false m o)) → f.whole →
          f.s.grp p = some g2 → g2.trapWait = none →
          ∃ (val : Nat → Nat) (o' : POp),
            (∀ n, o.todo.getLsbD n = true → ∃ x, BytesAre (ldBytes w) x (fun j => gotByte f.got ((loadAddr false m o n + j) % 2 ^ 64))
              ∧ loadedAs w x (val n))
            ∧ o.finished o' ((maskLanes o.todo).map (fun n => dstWr n m.d (w == .b64) (val n))).flatten
            ∧ exec (.tagRelease p t none) s = .next (f.s.setGrp p (g2.setOp t (some o'))))
        ∧ (∀ (h : Hdr) (r : Regs) (f : Fetched) (g2 : Group), o.instr = some (.ntest h r) →
          f = fetchLines { s with fresh := s.fresh + 64 } (placeCore p) g.ctx .ntest o.faults o.seq o.counted
            (laneAsks o.todo (fun n => if nodeBlank s p g o n then 0 else 128) (fun n => (o.word2 8 n).toNat / 128 * 128)) → f.whole →
          f.s.grp p = some g2 → g2.trapWait = none →
          ∃ (w : Nat → Nat → Nat) (o' : POp),
            (∀ n, o.todo.getLsbD n = true → ∃ x : Line, (∀ j, j < 128 → lineByte x j
                = if nodeBlank s p g o n then 0 else gotByte f.got ((o.word2 8 n).toNat / 128 * 128 + j))
              ∧ nodeResult (NFmt.of ((o.tab.getD (s.nodeTable p g)).toNat / 2 ^ (128 * (lineGet x 15 1 % 16)) % 2 ^ 128)) x (capturedRay o n)
                  ((o.word 8 n).toNat.testBit 0) (snapsOf o 8 10 n)
                  (!nodeBlank s p g o n && (match f.got.find ((o.word2 8 n).toNat / 128) with
                    | some y => y.absent
                    | none => false)) (w n))
            ∧ o.finished o' ((maskLanes o.todo).map (fun n => runWrs r.d n ((List.range 12).map (w n)))).flatten
            ∧ exec (.tagRelease p t none) s = .next (f.s.setGrp p (g2.setOp t (some o'))))
        ∧ (∀ (h : Hdr) (r : Regs) (f : Fetched) (g2 : Group), o.instr = some (.nfmt h r) →
          f = fetchLines s (placeCore p) g.ctx .load o.faults o.seq o.counted (laneAsks 1 (fun _ => 256) (fun _ => (o.word2 0 0).toNat)) → f.whole →
          f.s.grp p = some g2 → g2.trapWait = none →
          ∃ (x : BitVec 2048) (o' : POp), BytesAre 256 x.toNat (fun j => gotByte f.got (((o.word2 0 0).toNat + j) % 2 ^ 64)) ∧ o.finished o' []
            ∧ exec (.tagRelease p t none) s = .next ((f.s.setGrp p (g2.setOp t (some o'))).modDie (placeDie p) (fun y => { y with
                tables := y.tables.put g.ctx x })))
        ∧ (∀ (h : Hdr) (r : Regs) (f : Fetched) (g2 : Group) (k : Gang) (depth off spill : Nat → Nat), o.instr = some (.trvpop h r) →
          (∀ n, depth n = (o.word 0 n).toNat % 2 ^ 16 ∧ off n = slotOff (o.word 1 n).toNat n (depth n - 1)
            ∧ spill n = spillVa (o.word2 2 n).toNat n (depth n - 1)) →
          f = fetchLines s (placeCore p) g.ctx .load o.faults o.seq o.counted
            (laneAsks o.todo (fun n => if 32 < depth n ∧ o.help.getLsbD n = false then 16 else 0) spill) → f.whole →
          s.stashGang p g = some k → f.s.stashGang p g = some k → k.binds = [] → SMap.wf (f.s.core (placeCore p)).stash = true →
          (∀ n m, o.todo.getLsbD n = true → o.todo.getLsbD m = true → o.word 1 n = o.word 1 m) → f.s.grp p = some g2 → g2.trapWait = none →
          ∃ (e a : Nat → Nat) (o' : POp) (t' : State),
            (∀ n, o.todo.getLsbD n = true →
              BytesAre 16 (e n) (fun j => Memory.read (f.s.core (placeCore p)).stash (k.stashBase + (off n + j)))
              ∧ (∃ b : Bool, (b = false ↔ readyAt (snapsOf o 6 4 n) ((e n).testBit 4) (e n / 2 ^ 64 % 2 ^ 32))
                ∧ a n < 2 ^ 64 ∧ ∀ j, j < 64 → (a n).testBit j = if j = 3 ∧ (e n).testBit 5 = true then b else (e n).testBit j))
            ∧ o.finished o' ((maskLanes o.todo).map (fun n => runWrs r.d n [a n, a n / 2 ^ 32, e n / 2 ^ 64 % 2 ^ 32, 0]
              ++ dstWr n r.a false (depth n - 1 + (if (o.word 0 n).toNat.testBit 31 then 2 ^ 31 else 0)))).flatten
            ∧ exec (.tagRelease p t none) s = .next t' ∧ t'.grp p = some (g2.setOp t (some o'))
            ∧ ∀ n j, o.todo.getLsbD n = true → 32 < depth n → o.help.getLsbD n = false → j < 16 →
              Memory.read (t'.core (placeCore p)).stash (k.stashBase + (off n + j)) = gotByte f.got ((spill n + j) % 2 ^ 64))
        ∧ (∀ (h : Hdr) (m : MForm), o.instr = some (.pld h m) →
          (∀ n, o.todo.getLsbD n = true → s.physPoison (placeDie p) (loadAddr false m o n) = false) →
          exec (.tagRelease p t none) s = .next (s.setGrp p (g.setOp t (some { o with todo := 0, res := o.res
            ++ ((maskLanes o.todo).map (fun n => dstWr n m.d true (s.phys (placeDie p) (loadAddr false m o n) 8 % 2 ^ 64))).flatten }))))
        ∧ (∀ (h : Hdr) (kind : BdecKind) (n : BitVec 10) (r : Regs) (k : Gang) (val cur : Nat → Nat), o.instr = some (.bdec h kind n r) →
          s.stashGang p g = some k → k.binds = [] →
          (∀ i, o.todo.getLsbD i = true → match decodeOne kind n.toNat k.stashSize (o.word 1 i).toNat
              (fun a => some (Memory.read (s.core (placeCore p)).stash (k.stashBase + a))) (o.word 0 i).toNat with
            | .val v u => val i = v ∧ cur i = (o.word 0 i).toNat + u
            | .bad => val i = 2 ^ 32 - 1 ∧ cur i = (o.word 0 i).toNat
            | _ => False) →
          exec (.tagRelease p t none) s = .next { s.setGrp p (g.setOp t (some { o with todo := 0, res :=
            ((maskLanes o.todo).map (fun i => dstWr i r.d false (val i) ++ dstWr i r.a false (cur i))).flatten })) with fresh := s.fresh + 64 }))
      ∧ (∀ (h : Hdr) (ord : Order) (sc : Scope) (r : Regs) (t' : State) (g2 : Group) (v w : Nat), o.instr = some (.crd h ord sc r) → o.todo ≠ 0 →
        g.sq = [] → g.noneBefore o.seq (if ord = .rel ∨ ord = .ar then o.seq else 0) → o.faults = [] →
        readAtHome s g.ctx (o.word2 0 0).toNat = .ok t' (some (v, w)) → t'.grp p = some g2 → g2.trapWait = none →
        exec (.tagRelease p t none) s = .next ((t'.raiseT (placeCore p) w).setGrp p (g2.setOp t (some { o with
          todo := 0, res := dstWr 0 r.d true v }))))
      ∧ (∀ (h : Hdr) (op : AtomOp) (r : AForm) (a n : Nat) (upd : Nat → Nat → Nat),
        ((o.instr = some (.atom h op r) ∧ ∀ i v, upd i v = atomValue op r.ty (Rm.of o.frm) v (o.data r.ty 2 i))
          ∨ (o.instr = some (.acas h r)
            ∧ ∀ i v, upd i v = if v = o.data r.ty 2 i then o.data r.ty (if r.ty.is64 then 4 else 3) i else v)) → o.todo ≠ 0 →
        n = tyWidth r.ty / 8 → g.sq = [] → g.noneBefore o.seq (if r.ord = .rel ∨ r.ord = .ar then o.seq else 0) → o.faults = [] →
        (∀ i, o.todo.getLsbD i = true → (o.word2 0 i).toNat = a) → a % 128 + n ≤ 128 →
        (∀ y : Copy, s.Has (placeCore p) g.ctx a y → y.st = .o → y.poison = false → (r.scope = .gang ∨ r.scope = .span ∨ r.scope = .die) →
          ∃ t' y', exec (.tagRelease p t none) s = .next t' ∧ t'.Has (placeCore p) g.ctx a y' ∧ y'.st = .o
            ∧ y'.w = max (s.core (placeCore p)).t (y.r + 1) ∧ y'.r = y'.w ∧ (t'.core (placeCore p)).t = y'.w
            ∧ lineGet y'.data (a % 128) n = (atomSet upd (lineGet y.data (a % 128) n) (maskLanes o.todo)).2 % 256 ^ n
            ∧ (∀ j, j < 128 → ¬ (a % 128 ≤ j ∧ j < a % 128 + n) → lineByte y'.data j = lineByte y.data j)
            ∧ t'.grp p = some (g.setOp t (some { o with todo := 0, res := o.res
              ++ ((atomSet upd (lineGet y.data (a % 128) n) (maskLanes o.todo)).1.map (fun x => dstWr x.1 r.d r.ty.is64 x.2)).flatten })))
        ∧ (∀ (d : Nat) (hl : HomeLine), s.Holds d g.ctx a .atomic hl → hl.owner = none → hl.poison = false → hl.perm.managed = false →
          hl.perm.ctr = false → s.hasNone (placeCore p) g.ctx a → s.noPush (placeCore p) g.ctx a →
          ∃ t' hl', exec (.tagRelease p t none) s = .next t' ∧ t'.homeIs d g.ctx a hl'
            ∧ hl'.w = max (hl.h + 1) (s.core (placeCore p)).t ∧ hl'.h = hl'.w ∧ (t'.core (placeCore p)).t = hl'.w
            ∧ lineGet hl'.data (a % 128) n = (atomSet upd (lineGet hl.data (a % 128) n) (maskLanes o.todo)).2 % 256 ^ n
            ∧ (∀ j, j < 128 → ¬ (a % 128 ≤ j ∧ j < a % 128 + n) → lineByte hl'.data j = lineByte hl.data j)
            ∧ t'.grp p = some (g.setOp t (some { o with todo := 0, res := o.res
              ++ ((atomSet upd (lineGet hl.data (a % 128) n) (maskLanes o.todo)).1.map (fun x => dstWr x.1 r.d r.ty.is64 x.2)).flatten }))))

/-- R62, R120, R139, R156, R199, R328, R382 to R385: the head of a store queue that waits for no earlier access stores its bytes, in stash or
in a line its core owns, and leaves with its tag; a retired group leaves its place, and with the last one its gang ends and its stash reads
zero. That a head's stores to one line that follow one another leave in a step is the model's choice (log entry 47). -/
def Obligations.StoresLeave : Prop :=
  (∀ (s : State) (p : Nat) (g : Group) (e : SqEntry) (r : List SqEntry), s.grp p = some g → g.trapWait = none → g.sq = e :: r →
    (e.kind = .store ∨ e.kind = .sts) → e.parked = none → s.waiting (.sq p) = false → g.noneBefore e.seq e.after →
    (e.accs = [] → exec (.storeQueueLeave p) s
      = .next (s.setGrp p { (if e.tag = 0 then g else g.setOp e.tag none) with sq := r }))
    ∧ (∀ (a : SqAcc) (k : Gang), e.accs = [a] → a.stash = true → s.stashGang p g = some k → SMap.wf (s.core (placeCore p)).stash = true →
      ∃ m : Memory, Written (s.core (placeCore p)).stash m (k.stashBase + a.addr.toNat) a.width (fun j => BitVec.ofNat 8 (a.data.toNat / 256 ^ j))
        ∧ exec (.storeQueueLeave p) s = .next ((s.setCore (placeCore p) { s.core (placeCore p) with stash := m }).setGrp p
            { g with sq := { e with accs := [] } :: r }))
    ∧ (∀ (a : SqAcc) (y : Copy), e.accs = [a] → a.stash = false → a.done = 0 → 0 < a.width → a.width ≤ 8 →
      a.addr.toNat % 128 + a.width ≤ 128 → s.Has (placeCore p) g.ctx a.addr.toNat y → y.st = .o →
      ∃ t y', exec (.storeQueueLeave p) s = .next t ∧ (t.core (placeCore p)).l1.find (lineKey g.ctx a.addr.toNat) = some y'
        ∧ y'.st = .o ∧ y'.w = max (s.core (placeCore p)).t (y.r + 1) ∧ y'.r = y'.w ∧ (t.core (placeCore p)).t = y'.w
        ∧ (∀ j, j < 128 → lineByte y'.data j = if a.addr.toNat % 128 ≤ j ∧ j < a.addr.toNat % 128 + a.width
            then a.data.extractLsb' (8 * (j - a.addr.toNat % 128)) 8 else lineByte y.data j)
        ∧ t.grp p = some { g with sq := { e with accs := [] } :: r }))
  ∧ (∀ (s : State) (p : Nat) (g : Group), s.grp p = some g → g.st = .retiring → g.landed = true →
    (g.kind = .walker → exec (.groupRetire p) s = .next (s.delGrp p))
    ∧ (∀ k : Gang, g.kind = .ordinary → s.gang g.gangKey = some k → s.groups.wf = true →
      (k.places ≠ [p] → ∃ t, exec (.groupRetire p) s = .next t ∧ t.grp p = none ∧ (∀ q, q ≠ p → t.grp q = s.grp q)
        ∧ t.gang g.gangKey = some { k with places := k.places.filter (· != p) } ∧ t.tasks = s.tasks)
      ∧ (∀ tk : Task, k.places = [p] → k.binds = [] → k.core = placeCore p → k.spawned = false → s.stream k.core = none →
        (∀ x ∈ s.saved, x.gangKey ≠ g.gangKey) → s.gangs.wf = true → s.cores.wf = true → s.task k.queue k.seqNo = some tk →
        ∃ t, exec (.groupRetire p) s = .next t ∧ t.grp p = none ∧ (∀ q, q ≠ p → t.grp q = s.grp q) ∧ t.gang g.gangKey = none
          ∧ (∀ a, k.stashBase ≤ a → a < k.stashBase + k.stashSize → Memory.read (t.core k.core).stash a = 0)
          ∧ t.task k.queue k.seqNo = some { tk with exited := tk.exited ++ [k.gang], t := max tk.t (s.core k.core).t })))

/-! ## Events of ports and queues -/

/-- R50, R68, R247, R248, R249, R250: a doorbell of 8 bytes adds its value to the submit counter in force, of another size nothing; one that a
virtual function does not show rings nothing; a write of `subctr`, `ring` or an entry register stands there; enabling applies the
settings of that moment and takes `taken` from the counter; 1 to `frozen` unfreezes. That bits 6:0 of a ring's address are dropped is the
model's choice, and that enabling a queue whose counter holds the token freezes it is read by inference (log entry 21); so is that unfreezing
keeps `fcause` and `fseq` (log entry 41). -/
def Obligations.QueueRegisters : Prop :=
  (∀ (s : State) (port q size : Nat) (v : DWord), s.portOpen port = true → q < 64 →
    (port < 2 ∨ ((port - 2) % 32 < s.vfCount.getD ((port - 2) / 32) 0 ∧ (s.vfs.getD (port - 2) 0).getLsbD 31 = true
      ∧ (s.vfs.getD (port - 2) 0).toNat % 2 ^ 10 = (s.queue q).ctx) →
      exec (.doorbellWrite port q size v) s = .next (if size = 8 then { s with
        seq := s.seq + 1
        adds := s.adds ++ [{ id := s.seq, ctx := (s.queue q).ctx, va := if (s.queue q).en then (s.queue q).subctrNow else (s.queue q).subctr
                             amount := v, token := false, pre := .plain, die := portOf port, t := 0, port := some (portOf port) }] } else s))
    ∧ (2 ≤ port → s.vfCount.getD ((port - 2) / 32) 0 ≤ (port - 2) % 32 ∨ (s.vfs.getD (port - 2) 0).getLsbD 31 = false
      ∨ (s.vfs.getD (port - 2) 0).toNat % 2 ^ 10 ≠ (s.queue q).ctx → exec (.doorbellWrite port q size v) s = .next s))
  ∧ (∀ (s : State) (port q d : Nat) (v : DWord), s.portOpen port = true → port < 2 → q < 64 → d < 2 →
    exec (.registerWrite port (0x1000 + 64 * q + 56) 8 v) s = .next (s.setQueue q { s.queue q with subctr := v })
    ∧ exec (.registerWrite port (0x1000 + 64 * q + 48) 8 v) s = .next (s.setQueue q { s.queue q with ring := v &&& ~~~0x7F })
    ∧ ((s.queue q).en = false → v.getLsbD 0 = true → exec (.registerWrite port (0x1000 + 64 * q + 32) 8 v) s
      = .next ((s.setQueue q { s.queue q with
          wdog := v.extractLsb' 48 16, ctx := v.toNat / 2 ^ 38 % 2 ^ 10, lsize := v.toNat / 2 ^ 33 % 2 ^ 5
          frozen := (s.queue q).frozen && !v.getLsbD 32, en := true, enabling := true, subctrNow := (s.queue q).subctr
          ringNow := (s.queue q).ring, lsizeNow := v.toNat / 2 ^ 33 % 2 ^ 5, epoch := (s.queue q).epoch + 1 }).first [.queueEnable q]))
    ∧ (v.getLsbD 0 = false → exec (.registerWrite port (0x1000 + 64 * q + 32) 8 v) s
      = .next (s.setQueue q { s.queue q with
          wdog := v.extractLsb' 48 16, ctx := v.toNat / 2 ^ 38 % 2 ^ 10, lsize := v.toNat / 2 ^ 33 % 2 ^ 5
          frozen := (s.queue q).frozen && !v.getLsbD 32, en := false, enabling := false }))
    ∧ exec (.registerWrite port (0x3000 + 0x800 * d) 8 v) s = .next (s.modDie d (fun x => { x with ctxtab := v }))
    ∧ exec (.registerWrite port (0x3000 + 0x800 * d + 8) 8 v) s = .next (s.modDie d (fun x => { x with walkentry := v }))
    ∧ exec (.registerWrite port (0x3000 + 0x800 * d + 16) 8 v) s = .next (s.modDie d (fun x => { x with trapentry := v }))
    ∧ exec (.registerWrite port (0x3000 + 0x800 * d + 24) 8 v) s = .next (s.modDie d (fun x => { x with savetab := v })))
  ∧ (∀ (s t : State) (q v w : Nat), (s.queue q).enabling = true → s.waiting (.submit q) = false → (s.queue q).subctrNow.toNat % 8 = 0 →
    s.owner (s.queue q).subctrNow.toNat ≠ .bad →
    readAtHome s (s.queue q).ctx (s.queue q).subctrNow.toNat = .ok t (some (v, w)) →
    (v.testBit 63 = false → exec (.queueEnable q) s = .next (t.setQueue q { s.queue q with
      enabling := false, taken := BitVec.ofNat 64 (v % 2 ^ 63) }))
    ∧ (v.testBit 63 = true → ∃ t', exec (.queueEnable q) s = .next t' ∧ (t'.queue q).enabling = false ∧ (t'.queue q).frozen = true
      ∧ (t'.queue q).fcause = 0x09 ∧ (t'.queue q).taken = BitVec.ofNat 64 (v % 2 ^ 63) ∧ (t'.queue q).fseq = (t'.queue q).taken))
  ∧ (∀ (s : State) (q : Nat), q < 64 → exec (.queueUnfreeze q) s = .next (s.setQueue q { s.queue q with frozen := false }))

/-- R250, R252, R257: the domain register takes a legal value once; a binding keeps its defined bits; a free semaphore is acquired by the port
that reads it and released by its holder alone; the power cap is clamped; the sensors are kept, lower the clock and reset the module. -/
def Obligations.ModuleRegisters : Prop :=
  (∀ (s : State) (v : DWord),
    (s.domain.set = true → exec (.domainConfig v) s = .next s)
    ∧ (s.domain.set = false → v.getLsbD 63 = false → exec (.domainConfig v) s = .next { s with
        domain := { set := false, last := v.toNat / 2 ^ 16 % 2 ^ 11, module := v.toNat % 2 ^ 11 } })
    ∧ (s.domain.set = false → v.getLsbD 63 = true → exec (.domainConfig v) s = .next (
        if v.toNat % 2 ^ 11 ≤ v.toNat / 2 ^ 16 % 2 ^ 11 ∧ v.toNat / 2 ^ 16 % 2 ^ 11 ≤ 1535 then { s with
          domain := { set := true, last := v.toNat / 2 ^ 16 % 2 ^ 11, module := v.toNat % 2 ^ 11 } } else s)))
  ∧ (∀ (s : State) (port n : Nat) (v : Word), s.portOpen port = true → port < 2 →
    (n < 32 → s.vfs.wf = true → ∃ t, exec (.vfBindingWrite port n v) s = .next t ∧ t = { s with vfs := t.vfs }
      ∧ ∀ k, t.vfs.getD k 0 = if k = 32 * port + n then v &&& 0x800003FF else s.vfs.getD k 0)
    ∧ (n < 16 → s.sems.wf = true → ∃ t, exec (.semaphoreRead port n) s = .next t
      ∧ t = { s with sems := t.sems, portData := t.portData }
      ∧ (∀ k, t.sems.getD k 0 = if k = n ∧ s.sems.getD n 0 = 0 then port + 1 else s.sems.getD k 0)
      ∧ (s.sems.getD n 0 = 0 → t.portData = BitVec.ofNat 64 (5 + 2 * port))
      ∧ (∀ h, s.sems.getD n 0 = h + 1 → t.portData = BitVec.ofNat 64 (4 + 2 * h + if h = port then 1 else 0)))
    ∧ (n < 16 → s.sems.wf = true →
      (s.sems.getD n 0 = port + 1 → ∃ t, exec (.semaphoreRelease port n) s = .next t ∧ t = { s with sems := t.sems }
        ∧ ∀ k, t.sems.getD k 0 = if k = n then 0 else s.sems.getD k 0)
      ∧ (s.sems.getD n 0 ≠ port + 1 → exec (.semaphoreRelease port n) s = .next s)))
  ∧ (∀ (s : State) (v : Word) (lowered : Bool) (tdie tin : Half),
    exec (.powerCapWrite v) s = .next { s with cap := max 800 (min 2700 (v.toNat % 2 ^ 12)) }
    ∧ exec (.powerWindow lowered) s = .next { s with thr := lowered }
    ∧ exec .thermalThrottle s = .next { s with thr := true }
    ∧ exec (.sensorSample tdie tin) s = .next { s with
        tdie := tdie
        tin := tin
        agenda := (if 8 * 115 ≤ tdie.toInt then [.thermalReset] else if 8 * 105 ≤ tdie.toInt then [.thermalThrottle] else []) ++ s.agenda })

/-! ## Events of tasks and of the placer -/

/-- R48, R52, R53, R63 to R67: a queue takes the next valid record, fails one that is not, and freezes for the token of its submit
counter; a task whose inputs have all reached their targets is ready, one that meets a token is cancelled; a task that is over writes
its state and adds to `out`, which releases that write too; a failing launch freezes its queue and kills its groups. That a counter on a
page that is none, or a line that cannot be read, ends so is read by inference (log entry 21). -/
def Obligations.Tasks : Prop :=
  (∀ (s t t1 t2 : State) (q v w w1 w2 : Nat) (y : Got) (tk : Task), (s.queue q).en = true → (s.queue q).enabling = false →
    (s.queue q).frozen = false → s.waiting (.submit q) = false → s.openTasks q < 64 →
    readCounter s (s.queue q).ctx (s.queue q).subctrNow.toNat = .ok t (.value v w) →
    (v ≤ (s.queue q).taken.toNat → exec (.takeRecord q) s = .next t)
    ∧ ((s.queue q).taken.toNat < v →
      unitRead t (s.queue q).ctx ((s.queue q).recAddr (s.queue q).taken.toNat) .load = .ok t1 (y, w1) →
      tk = takenTask (s.queue q) y.data (max w w1) → writeRecord t1 tk 1 = .ok t2 w2 →
      (t2.badRecord y.data = false → recInputs y.data ≠ [] → exec (.takeRecord q) s
        = .next ((t2.setTask q (s.queue q).nextRecord { tk with tw := w2 }).setQueue q { t2.queue q with taken := (s.queue q).taken + 1 }))
      ∧ (t2.badRecord y.data = false → recInputs y.data = [] → exec (.takeRecord q) s
        = .next (((t2.setTask q (s.queue q).nextRecord { tk with tw := w2 }).setQueue q
          { t2.queue q with taken := (s.queue q).taken + 1 }).first [.taskReady q (s.queue q).nextRecord]))
      ∧ (t2.badRecord y.data = true → ∃ t', exec (.takeRecord q) s = .next t' ∧ (t'.queue q).frozen = true ∧ (t'.queue q).fcause = 0x01
        ∧ (t'.queue q).fseq = (s.queue q).taken
        ∧ t'.task q (s.queue q).nextRecord = some { tk with failing := true, fcause := 0x01, tw := w2 })))
  ∧ (∀ (s t : State) (q v w : Nat), (s.queue q).en = true → (s.queue q).enabling = false → (s.queue q).frozen = false →
    s.waiting (.submit q) = false → s.openTasks q < 64 →
    readCounter s (s.queue q).ctx (s.queue q).subctrNow.toNat = .ok t (.token v w) → ∃ t', exec (.takeRecord q) s = .next t'
      ∧ (t'.queue q).frozen = true ∧ (t'.queue q).fcause = 0x09 ∧ t'.tasks = t.tasks)
  ∧ (∀ (s t t1 : State) (q n w w1 : Nat) (tk : Task), s.pendingTask q n = some tk →
    (watchInputs tk.ctx (recInputs tk.data) (.met tk.t) s = .ok t (.met w) → recPers tk.data = false →
      writeRecord t { tk with t := max tk.t w } 2 = .ok t1 w1 →
      exec (.taskReady q n) s = .next (t1.setTask q n { tk with st := 2, t := max tk.t w, tw := max tk.tw w1, owes := false }))
    ∧ (watchInputs tk.ctx (recInputs tk.data) (.met tk.t) s = .ok t .unmet → exec (.taskReady q n) s = .next t)
    ∧ (watchInputs tk.ctx (recInputs tk.data) (.met tk.t) s = .ok t .token →
      exec (.taskReady q n) s = .next (t.first [.taskCancel q n])
      ∧ (writeRecord t tk 5 = .ok t1 w1 → recOut tk.data ≠ 0 → exec (.taskCancel q n) s
        = .next ({ t1 with tasks := t1.tasks.del (taskKey q n) }.sendAdd tk.ctx (BitVec.ofNat 64 (recOut tk.data)) (BitVec.ofNat 64 (2 ^ 63)) 0
          (max tk.t (max tk.tw w1)) none))))
  ∧ (∀ (s t : State) (ctx a target v w r : Nat), a % 8 = 0 → s.owner a ≠ .bad → readAtHome s ctx a = .ok t (some (v, w)) →
    (v.testBit 63 = true → watchInputs ctx [(a, target)] (.met r) s = .ok t .token)
    ∧ (v.testBit 63 = false → target ≤ v → watchInputs ctx [(a, target)] (.met r) s = .ok t (.met (max r w)))
    ∧ (v.testBit 63 = false → v < target → watchInputs ctx [(a, target)] (.met r) s = .ok t .unmet))
  ∧ (∀ (s t : State) (q n w : Nat) (tk : Task), s.task q n = some tk → s.waiting (.watch q n) = false → s.tracksNone q n = true →
    recOut tk.data ≠ 0 →
    (tk.st = 3 → tk.failing = false → liveGangs tk.data ≤ tk.exited.eraseDups.length → s.die0.spawnsOf q n = false → s.die1.spawnsOf q n = false →
      writeRecord s tk 4 = .ok t w → exec (.launchComplete q n) s = .next ({ t with tasks := t.tasks.del (taskKey q n) }.sendAdd tk.ctx
        (BitVec.ofNat 64 (recOut tk.data)) (BitVec.ofNat 64 (recOinc tk.data)) 0 (max tk.t (max tk.tw w)) none))
    ∧ (tk.failing = true → writeRecord s tk 6 = .ok t w → exec (.failedRecordClose q n) s
        = .next ({ t with tasks := t.tasks.del (taskKey q n) }.sendAdd tk.ctx (BitVec.ofNat 64 (recOut tk.data)) (BitVec.ofNat 64 (2 ^ 63)) 0
          (max tk.t (max tk.tw w)) none)))
  ∧ (∀ (s : State) (q n : Nat) (tk : Task) (why : Byte), s.running q n tk →
    ∃ t, exec (.launchFail q n why) s = .next t ∧ LaunchFailed s t q n tk why)
  ∧ (∀ (s : State) (key : Nat) (k : Gang) (tk : Task), s.gang key = some k → k.places ≠ [] → (s.core k.core).halted = false →
    s.running k.queue k.seqNo tk →
    ((s.queue k.queue).wdog = 0xFFFF → exec (.gangWatchdog key) s = .next s)
    ∧ ((s.queue k.queue).wdog ≠ 0xFFFF → ∃ t, exec (.gangWatchdog key) s = .next t ∧ LaunchFailed s t k.queue k.seqNo tk 0x04))

/-- R28, R30, R39, R40, R49, R54 to R56: the placer places the span of the one task it considers, a span passed over reserves the die;
the group that an expired bin forms is queued for the place it takes, or else spills to its context's ring or stays in its bin; a formed group
starts at a place with its records in its lanes. That the first fitting place is taken without a proposal is the model's choice (log
entry 43). -/
def Obligations.Placement : Prop :=
  (∀ (s s1 t : State) (d q n k w : Nat) (tk tk1 : Task), s.serves d = true → (s.die d).up = true → s.placeable d = [(q, n, tk)] →
    s.heldBack d q n tk = false → recPers tk.data = false → s.nextSpan q n tk = some k →
    ((if tk.st = 2 ∨ tk.owes = true then writeRecord s tk 3 = .ok s1 w else s1 = s ∧ w = 0) → (placeSpan s q n tk k d [] false).isSome = true →
      tk1 = { tk with owes := false, tw := max tk.tw w } → s1.nextSpan q n tk1 = some k →
      placeSpan (s1.setTask q n tk1) q n tk1 k d [] false = some t → ∃ t', exec (.placementTurn d []) s = .next t'
      ∧ t'.task q n = some { tk1 with st := 3, placed := tk.placed ++ [k] } ∧ t'.groups = t.groups ∧ t'.gangs = t.gangs
      ∧ t'.cores = t.cores ∧ (t'.die d).placerRR = (q + 1) % 64 ∧ (t'.die d).resv = (t.die d).resv.filter (· != (q, n)))
    ∧ (placeSpan s q n tk k d [] false = none → (q, n) ∉ (s.die d).resv →
      exec (.placementTurn d []) s = .next s
      ∧ exec (.spanReservation d q n) s = .next (s.modDie d (fun x => { x with resv := x.resv ++ [(q, n)] }))))
  ∧ (∀ (tk : Task) (q n gang k key order : Nat) (g : Group), g = launchGroup tk q n gang k key order →
    g.pc = BitVec.ofNat 64 (recEntry tk.data) ∧ g.regs = recRegs tk.data ∧ g.st = .ready ∧ g.ctx = tk.ctx ∧ g.v = [] ∧ g.div = []
    ∧ (∀ i, i < 32 → (g.live.getLsbD i = true ↔ (gang * recGroups tk.data + k) * 32 + i < recThreads tk.data)
      ∧ (g.help.getLsbD i = true ↔ g.live.getLsbD i = false ∧ ∃ j, j < 4 ∧ g.live.getLsbD (i / 4 * 4 + j) = true))
    ∧ g.act = g.live ∧ g.getS2 0 = BitVec.ofNat 64 (recArgs tk.data)
    ∧ g.getS2 2 = BitVec.ofNat 64 ((gang * recGroups tk.data + k) * 32))
  ∧ (∀ (s s1 : State) (d k : Nat) (b : Bin) (before : Bool), (s.die d).bins.find k = some b → s1 = s.holdDesc d b.ctx →
    before = s1.ringHas d b.formed →
    (b.held ≠ 0 →
      (∀ t, s.spillTurn d b.formed = .ok t → exec (.binTimerExpiry d k) s = .next (t.modDie d (fun x => { x with bins := x.bins.del k })))
      ∧ (∀ t, s.spillTurn d b.formed = .full t → exec (.binTimerExpiry d k) s = .next t))
    ∧ (∀ p, b.held = 0 → before = false → s1.spawnPlace d b.formed = some p → exec (.binTimerExpiry d k) s
      = .next ((({ s1 with seq := s1.seq + 1 }.modDie d (fun x => { x with formed := x.formed ++ [{ b.formed with no := s1.seq + 1 }] })).first
        [.spawnedGroupPlace d p]).modDie d (fun x => { x with bins := x.bins.del k })))
    ∧ (b.held = 0 → (before = true ∨ s1.spawnPlace d b.formed = none) →
      (∀ t, s1.spillTurn d b.formed = .ok t → exec (.binTimerExpiry d k) s = .next (t.modDie d (fun x => { x with bins := x.bins.del k })))
      ∧ (∀ t, s1.spillTurn d b.formed = .full t → exec (.binTimerExpiry d k) s
        = .next ({ t with seq := t.seq + 1 }.modDie d (fun x => { x with bins := x.bins.put k { b with held := t.seq + 1 } })))))
  ∧ (∀ (s t : State) (d p : Nat) (f : Formed), s.serves d = true → (s.die d).up = true → placeDie p = d → (s.die d).rings = [] →
    (s.die d).formed = [f] → (s.die d).bins = [] → placeFormed s f (placeCore p) (some p) = some t →
    exec (.spawnedGroupPlace d p) s = .next (t.modDie d (fun x => { x with formed := [] }))
    ∧ ∃ (key : Nat) (g : Group) (tab args : DWord), t.grp p = some g ∧ g = spawnGroup f tab args key ∧ g.pc = f.entry ∧ g.ctx = f.ctx
      ∧ g.spawned = true ∧ g.st = .ready ∧ (∀ i, i < 32 → (g.live.getLsbD i = true ↔ i < f.recs.length)) ∧ g.getS2 0 = args
      ∧ (∀ i j x, i < 32 → f.recs[i]? = some x → SMap.wf x = true → g.getV j i = x.getD j 0))

/-! ## Events of copies and homes -/

/-- R134, R135, R139 to R147: a share grants a lease from max(W, t) by the line's class, and of a compressed line its sectors; a renewal of
a line unwritten since gets the lease alone and raises the class; ownership starts a write after the last lease; a recall and an eviction bring
the owner's data home; a push is taken, or refused and counted at its source. When each request is made is the agenda's (log entry 14). -/
def Obligations.CopiesOfLines : Prop :=
  (∀ (s : State) (c d ctx va : Nat) (hl : HomeLine), s.Holds d ctx va .load hl → hl.owner = none → hl.poison = false → hl.perm.ctr = false →
    hl.perm.managed = false → s.boundOff c ctx va = none → (s.core c).gated = false → s.l1Fits c ctx va → s.noPush c ctx va →
    ((s.core c).l1.find (lineKey ctx va) = none → ∃ t y, exec (.shareRequest c ctx va) s = .next t ∧ t.Has c ctx va y
      ∧ y.st = (if hl.z then .sc else .s) ∧ y.sect = (if hl.z then (s.die d).sectors hl.frame else 4)
      ∧ y.data = hl.data ∧ y.w = hl.w ∧ y.r = max hl.w (s.core c).t + leaseOf hl.cls
      ∧ y.unread = false ∧ t.homeIs d ctx va { hl with h := max hl.h y.r } ∧ (t.core c).t = max (s.core c).t hl.w
      ∧ (t.slice d (homeSlice va)).htop = max (s.slice d (homeSlice va)).htop y.r)
    ∧ (∀ y0 : Copy, s.Has c ctx va y0 → (y0.st = .s ∨ y0.st = .sc) → y0.r < max (s.core c).t y0.w → y0.sect ≤ 4 →
      ∃ t y, exec (.renewRequest c ctx va) s = .next t ∧ t.Has c ctx va y
        ∧ (y0.w = hl.w → y = { y0 with r := max hl.w (s.core c).t + leaseOf hl.cls, unread := false })
        ∧ (y0.w ≠ hl.w → y.data = hl.data ∧ y.w = hl.w ∧ y.r = max hl.w (s.core c).t + leaseOf hl.cls ∧ y.poison = false)
        ∧ t.homeIs d ctx va { hl with h := max hl.h y.r, cls := if y0.w = hl.w then min 4 (hl.cls + 1) else hl.cls }
        ∧ (t.core c).t = max (s.core c).t hl.w))
  ∧ (∀ (s : State) (c d ctx va : Nat) (hl : HomeLine), s.Holds d ctx va .store hl → hl.owner = none → hl.perm.ctr = false → hl.perm.managed = false →
    s.hasNone c ctx va → (s.core c).gated = false → s.l1Fits c ctx va → s.noPush c ctx va →
    ∃ t y, exec (.ownershipRequest c ctx va) s = .next t ∧ t.Has c ctx va y ∧ y.st = .o ∧ y.data = hl.data
      ∧ y.w = max (s.core c).t (hl.h + 1) ∧ y.r = y.w ∧ y.poison = hl.poison ∧ (t.core c).t = y.w
      ∧ t.homeIs d ctx va { hl with owner := some c, hold := true, cls := 0, z := false })
  ∧ (∀ (s : State) (c d ctx va : Nat) (hl : HomeLine) (y : Copy), s.homeIs d ctx va hl → hl.unknown = false → hl.owner = some c →
    s.Has c ctx va y → y.st = .o → s.cores.wf = true → (s.core c).l1.wf = true →
    (hl.hold = true → exec (.recallForRead d ctx va) s = .next s ∧ exec (.recallForOwnership d ctx va) s = .next s)
    ∧ (hl.hold = false →
      (∃ t, exec (.recallForRead d ctx va) s = .next t ∧ t.Has c ctx va { y with st := .s }
        ∧ t.homeIs d ctx va { hl with data := y.data, w := y.w, h := max hl.h y.r, owner := none, poison := y.poison, dirty := true })
      ∧ ∃ t, exec (.recallForOwnership d ctx va) s = .next t ∧ (t.core c).l1.find (lineKey ctx va) = none
        ∧ t.homeIs d ctx va { hl with data := y.data, w := y.w, h := max hl.h y.r, owner := none, poison := y.poison, dirty := true })
    ∧ (s.owner va = .die d → s.waiting (.recall c (lineKey ctx va)) = false →
      ∃ t, exec (.lineEviction c ctx va) s = .next t ∧ (t.core c).l1.find (lineKey ctx va) = none
      ∧ t.homeIs d ctx va { hl with
          data := y.data, w := y.w, h := max hl.h y.r, owner := none, hold := false, poison := y.poison, dirty := true }))
  ∧ (∀ (s : State) (n : Nat) (x : Push), s.pushes[n]? = some x → s.hasNone x.core x.ctx x.va → s.l1Fits x.core x.ctx x.va → x.sect ≤ 4 →
    (∀ y ∈ s.pushes.take n, y.isTo x.core x.ctx x.va = false) →
    ((s.core x.core).gated = false → ((s.core x.core).l1.filter (fun y => y.2.unread && (s.core x.core).t ≤ y.2.r)).length < 64 →
      ∃ t, exec (.injectedPush n) s = .next t ∧ t.pushes = s.pushes.eraseIdx n ∧ t.Has x.core x.ctx x.va {
        st := if x.z then .sc else .s, data := x.data, w := x.w, r := x.r, mask := 0, unread := true, poison := x.poison, stash := none
        sect := x.sect })
    ∧ ((s.core x.core).gated = true ∨ 64 ≤ ((s.core x.core).l1.filter (fun y => y.2.unread && (s.core x.core).t ≤ y.2.r)).length →
      exec (.injectedPush n) s = .next ({ s with pushes := s.pushes.eraseIdx n }.modCore x.src (fun y => { y with
        injrefused := min (y.injrefused + 1) (2 ^ 64 - 1) }))))

/-- R127, R143, R145, R150, R152, R166, R168, R170, R133, R139: a counter add changes its counter alone and starts a write after the
last lease; a parked `CWAIT` polls its counter; a dirty line goes to memory whole; a directory in recovery knows no owner until the
cores have answered, and with no answer has memory's data, poisoned; a gated core holds no line and keeps its time. When each event is
made is the agenda's (log entry 14); the H that a recovery leaves and the emptied instruction cache of a gated core are read by inference (log
entry 40); that a poisoned line takes an add is the model's choice (log entry 55), as are the bytes that memory shows under a line whose page
is compressed (log entry 16). -/
def Obligations.HomesAndTime : Prop :=
  (∀ (s : State) (n d : Nat) (a : Add) (hl : HomeLine), s.adds[n]? = some a → a.pre = .plain → s.waiting (.add a.id) = false →
    (∀ b ∈ s.adds.take n, (b.ctx ≠ a.ctx ∨ b.va ≠ a.va) ∧ (a.port = none ∨ b.port ≠ a.port)) → a.va.toNat % 8 = 0 →
    s.Holds d a.ctx a.va.toNat .atomic hl → hl.perm.ctr = true →
    hl.perm.managed = false → hl.owner = none → (s.slice d (homeSlice a.va.toNat)).waiters = [] →
    ∃ t hl', exec (.homeWrite n) s = .next t ∧ t.adds = s.adds.filter (fun b => b.id != a.id) ∧ t.homeIs d a.ctx a.va.toNat hl'
      ∧ hl'.w = max (hl.h + 1) a.t ∧ hl'.h = hl'.w
      ∧ lineGet hl'.data (a.va.toNat % 128) 8 = counterAdd (lineGet hl.data (a.va.toNat % 128) 8) a.amount.toNat
      ∧ ∀ j, j < 128 → ¬ (a.va.toNat % 128 ≤ j ∧ j < a.va.toNat % 128 + 8) → lineByte hl'.data j = lineByte hl.data j)
  ∧ (∀ (s t : State) (p v w : Nat) (g : Group) (k : CPark), s.grp p = some g → g.cpark = some k → s.waiting (.cwait p) = false →
    s.hasWaiter p = false → g.s.wf = true → k.d + 1 < 64 → readAtHome s g.ctx k.addr.toNat = .ok t (some (v, w)) → t.grp p = some g →
    (k.target.toNat % 2 ^ 63 ≤ v % 2 ^ 63 ∨ v.testBit 63 = true → ∃ t' g', exec (.cwaitPoll p) s = .next t' ∧ t'.grp p = some g'
      ∧ g'.pc = k.npc ∧ g'.cpark = none ∧ g'.getS2 k.d = BitVec.ofNat 64 v)
    ∧ (¬ (k.target.toNat % 2 ^ 63 ≤ v % 2 ^ 63 ∨ v.testBit 63 = true) → exec (.cwaitPoll p) s = .next t))
  ∧ (∀ (s : State) (p : Nat), s.hasWaiter p = true → exec (.cwaitPoll p) s = .next s)
  ∧ (∀ (s : State) (d ctx va : Nat) (hl : HomeLine), d < 2 → s.homeIs d ctx va hl →
    exec (.ownershipHoldExpiry d ctx va) s = .next (s.setHome d ctx va { hl with hold := false })
    ∧ (hl.unknown = false → exec (.directoryRecovery d ctx va) s = .next ((s.setHome d ctx va { hl with
        unknown := true, owner := none, hold := false }).cnt d (fun c => { c with dirrecov := min (c.dirrecov + 1) (2 ^ 64 - 1) })))
    ∧ (hl.unknown = false → hl.owner = none → hl.dirty = true → s.canonical = true → (s.die d).l2.wf = true → (s.die d).slices.wf = true →
      (hl.host = true ∨ hl.perm.cmp = true ∨ (hl.frame % 128 = 0 ∧ hl.frame < 2 ^ 37 - 2 ^ 28)) →
      ∃ t, exec (.l2EvictToMemory d ctx va) s = .next t ∧ (t.die d).l2.find (lineKey ctx va) = none
        ∧ Written ((s.die d).memOf hl.host) ((t.die d).memOf hl.host) hl.frame 128 (lineByte hl.data)
        ∧ (∀ b, b ≠ hl.host → (t.die d).memOf b = (s.die d).memOf b)
        ∧ (t.slice d (homeSlice va)).mts = max (s.slice d (homeSlice va)).mts hl.h)
    ∧ (hl.unknown = true → hl.owner = none → s.pushes = [] → (∀ x ∈ s.groups, x.2.wbIn (va / 128 * 128) = none) →
      (∀ (c : Nat) (k : Core) (y : Copy), s.cores = [(c, k)] → s.Has c ctx va y → y.st = .o → k.l1.wf = true →
        ∃ t, exec (.directoryRecoveryDone d ctx va) s = .next t ∧ t.homeIs d ctx va { hl with
          data := y.data, w := y.w, h := max (s.slice d (homeSlice va)).htop y.r + 4096, cls := 0, z := false, owner := none, unknown := false
          hold := false, poison := y.poison, dirty := true } ∧ (t.core c).l1.find (lineKey ctx va) = none)
      ∧ (s.cores = [] → ∃ t, exec (.directoryRecoveryDone d ctx va) s = .next t ∧ t.homeIs d ctx va { hl with
          data := (s.die d).lineAt hl.host hl.perm.cmp hl.frame, w := (s.slice d (homeSlice va)).htop
          h := (s.slice d (homeSlice va)).htop + 4096, cls := 0, z := false, owner := none, unknown := false, hold := false
          poison := true, dirty := true })))
  ∧ (∀ (s : State) (c : Nat),
    ((s.core c).gated = false → exec (.timeSelfAdvance c) s = .next (s.modCore c (fun k => { k with t := k.t + 1 })))
    ∧ ((s.core c).gated = true → exec (.timeSelfAdvance c) s = .next s)
    ∧ ((s.core c).gated = false → s.recovering = false → (∀ x ∈ s.groups, placeCore x.1 ≠ c) →
      (∀ x ∈ (s.core c).l1, x.2.st = .s ∨ x.2.st = .sc) →
      (∀ x ∈ (s.core c).l1, s.boundOff c (keyCtx x.1) (keyVa x.1) = none) → (∀ k, s.waiting (.recall c k) = false) → s.cores.wf = true →
      ∃ t, exec (.corePowerGate c) s = .next t ∧ t.core c = { s.core c with gated := true, l1 := [], icache := [] })
    ∧ ((s.core c).gated = false → s.recovering = true → exec (.corePowerGate c) s = .next s)
    ∧ ((s.core c).gated = true → exec (.coreUngate c) s = .next (s.modCore c (fun k => { k with gated := false, l1 := [] })))
    ∧ ((s.core c).gated = false → exec (.coreUngate c) s = .next s)
    ∧ (∀ (l : Log) (a n : Nat), (s.core c).log = some l → (s.core c).logOpen = some (a, n) → exec (.rangeLogTimeout c) s
      = .next { s.setCore c { s.core c with logOpen := none } with
          seq := s.seq + 1
          adds := s.adds ++ [{ id := s.seq, ctx := l.ctx, va := l.block, amount := 1, token := false
                               pre := .log c a n l.ring.toNat l.lsize, die := coreDie c, t := (s.core c).t, port := none }] })
    ∧ ((s.core c).logOpen = none → exec (.rangeLogTimeout c) s = .next s))

/-! ## Events of translation, pre-emption and the debugger -/

/-- R181, R182, R187, R190, R191, R197, R200, R202: a walker group takes the records that wait for its core into its lanes; a reply of the
live generation wakes what it answers, any other is counted; a shoot-down drops translations and permissions of its range; pre-emption
stops the context's groups, and once all they issued is done raises the generations their parked entries name and enters each at `trapentry`
under `PREEMPT`; a resumed unit starts under `RESUME` with the blocks it was saved to; the debugger halts a core. That one event is made
again until the pre-emption is done is the model's (log entry 22). -/
def Obligations.ServiceEvents : Prop :=
  (∀ (s : State) (c : Nat) (ws : List (Nat × Walk)),
    ws = ((s.die (coreDie c)).openWalks.filter (fun w => w.2.core == coreIn c)).take 32 → ws ≠ [] → s.walkerLent c = false →
    s.walkerFree c = true → ∃ t g, exec (.walkerSlotPlace c) s = .next t ∧ t.grp (walkerPlace c) = some g ∧ g.kind = .walker ∧ g.st = .ready
      ∧ g.pc = (s.die (coreDie c)).walkentry ∧ g.regs = 32 ∧ g.help = 0 ∧ (∀ i, i < 32 → (g.live.getLsbD i = true ↔ i < ws.length))
      ∧ (∀ i n w, ws[i]? = some (n, w) → g.getV 2 i = BitVec.ofNat 32 w.va ∧ g.getV 3 i = BitVec.ofNat 32 (w.va / 2 ^ 32)
        ∧ g.getV 0 i = BitVec.ofNat 32 (n + w.ctx * 2 ^ 11 + w.acc.code * 2 ^ 21 + w.host.toNat * 2 ^ 24)
        ∧ g.getV 1 i = BitVec.ofNat 32 w.slice))
  ∧ (∀ (s : State) (d ctx : Nat) (gen : Half),
    (s.gen d ctx ≠ gen → exec (.replay d ctx gen) s = .next (s.cnt d (fun c => { c with stalerep := min (c.stalerep + 1) (2 ^ 64 - 1) })))
    ∧ (s.gen d ctx = gen → (s.die d).gens.wf = true → ∃ t, exec (.replay d ctx gen) s = .next t ∧ t.gen d ctx = gen + 1
      ∧ (∀ w ∈ t.waits, ¬ (w.die = d ∧ w.ctx = ctx ∧ w.walk = none))
      ∧ ∀ p g, s.grp p = some g → ∃ g', t.grp p = some g' ∧ (g.ctx ≠ ctx → g' = g)
        ∧ (g.ctx = ctx → (∀ k, g'.fetchPark = some k → ¬ (k.owner = d ∧ k.gen = gen))
          ∧ (∀ e ∈ g'.sq, ∀ k, e.parked = some k → ¬ (k.owner = d ∧ k.gen = gen))
          ∧ (∀ n x o, (n, x) ∈ g'.tags → x.op = some o → ∀ k, o.parked = some k → ¬ (k.owner = d ∧ k.gen = gen))
          ∧ (g.st = .faultParked → g'.holdsParked = false → g'.st ≠ .faultParked) ∧ g'.v = g.v ∧ g'.s = g.s ∧ g'.pc = g.pc)))
  ∧ (∀ (s : State) (d ctx : Nat) (va len : DWord), s.owner va.toNat = .die d → va.toNat % 65536 = 0 → len.toNat % 65536 = 0 → len ≠ 0 →
    ∃ t, exec (.shootdownRequest ctx va len false) s = .next t
      ∧ (∀ k es, (k, es) ∈ (t.die d).tlb → ∀ e ∈ es, e.ctx = ctx → inRange va.toNat len.toNat e.page = false)
      ∧ (∀ k h, (k, h) ∈ (t.die d).l2 → keyCtx k = ctx → inRange va.toNat len.toNat (keyVa k) = true → ∀ acc, h.perm.permits acc = false)
      ∧ (∀ n w, (n, w) ∈ (t.die d).walks → w.ctx = ctx → inRange va.toNat len.toNat (w.va / 65536 * 65536) = true → w.stale = true)
      ∧ t.groups = s.groups ∧ s.sameMemory t)
  ∧ (∀ (s : State) (d ctx : Nat), s.groups.wf = true → (∀ x ∈ (s.die d).bins, x.2.ctx ≠ ctx) → (∀ x ∈ s.ctxGroups d ctx, x.2.marked = false) →
    (∃ x ∈ s.ctxGroups d ctx, x.2.st ≠ .killed ∧ x.2.st ≠ .retiring ∧ x.2.inTrap = false ∧ x.2.trapWait = none ∧ x.2.quiet = false) →
    ∃ t, exec (.preempt d ctx) s = .next t ∧ ∀ p g, (p, g) ∈ s.ctxGroups d ctx → ∃ g', t.grp p = some g'
      ∧ (g.st ≠ .killed → g.st ≠ .retiring → g.inTrap = false → g.trapWait = none →
        g'.trapWait = some { cause := .preempt, info := 0, pc := g.pc } ∧ g'.st = .waiting ∧ g'.cpark = none)
      ∧ (g.inTrap = true ∨ g.trapWait ≠ none → g.st ≠ .killed → g.st ≠ .retiring → g'.preempting = true)
      ∧ g'.v = g.v ∧ g'.s = g.s)
  ∧ (∀ (s : State) (d ctx p : Nat) (g : Group) (r : TrapReq), s.ctxGroups d ctx = [(p, g)] → s.groups.wf = true → g.trapWait = some r →
    r.cause = .preempt → g.quiet = true → s.engPending d ctx = false → g.backs = [] → s.saveCopies d ctx = [] →
    (∀ o, (s.die o).gens.wf = true) →
    ∃ t g', exec (.preempt d ctx) s = .next t ∧ t.grp p = some g' ∧ g'.trapcause = 0x20 ∧ g'.trappc = r.pc ∧ g'.pc = (s.die d).trapentry
      ∧ g'.inTrap = true ∧ g'.live = BitVec.allOnes 32 ∧ g'.act = BitVec.allOnes 32 ∧ g'.help = 0 ∧ g'.v = g.v
      ∧ (∀ o, o < 2 → t.gen o ctx = if o ∈ g.parkOwners then s.gen o ctx + 1 else s.gen o ctx))
  ∧ (∀ (s t : State) (d ctx key : Nat) (k : Gang), (∀ x ∈ s.groups, x.2.ctx ≠ ctx) → s.serves d = true → (s.die d).up = true →
    s.savedGangs ctx = [(key, k)] → s.unitAllows d [(key, k)] = true → s.resumeUnit d [(key, k)] [] = some t →
    (∀ x ∈ t.saved, x.kind ≠ .reel) → exec (.resume d ctx []) s = .next t)
  ∧ (∀ (s : State) (d order a : Nat) (x : SavedGroup) (g : Group), g = resumedGroup s d x order →
    a = (s.die (placeDie x.place)).savetab.toNat + 16 * x.ctx →
    g.trapcause = 0x21 ∧ g.pc = (s.die d).trapentry ∧ g.inTrap = true ∧ g.ctx = x.ctx ∧ g.regs = x.regs ∧ g.live = BitVec.allOnes 32
    ∧ g.getS2 56 = BitVec.ofNat 64 (s.phys (placeDie x.place) a 8 + 45056 * (coreIn (placeCore x.place) * 512 + x.place % 512))
    ∧ g.getS2 58 = BitVec.ofNat 64 (s.phys (placeDie x.place) (a + 8) 8 + 524288 * coreIn (placeCore x.place) + x.stash))
  ∧ (∀ (s : State) (c : Nat), exec (.debugHalt c) s = .next (s.modCore c (fun k => { k with halted := true }))
    ∧ exec (.debugResume c) s = .next (s.modCore c (fun k => { k with halted := false })))

/-! ## Events of engines, splicers and coilers -/

/-- R173, R229, R230, R234 to R241: a piece of each kind's work. A piece reads one 16-byte unit of a source, or writes one of a destination
from units it has read, once each; the bytes written are added to `c0`, and the request ends with the add to `c1`, its range locks free. How
the work is cut into pieces is the model's (log entry 17). -/
def Obligations.EngineEvents : Prop :=
  (∀ (r : EngReq) (va n : Nat), 0 < n → va + n ≤ 2 ^ 64 → (∀ u x, r.units.find u = some x → x < 2 ^ 128) →
    (∀ v, r.have_ va n = .ok v → v < 256 ^ n ∧ ∀ j, j < n → ∃ x, r.units.find ((va + j) / 16) = some x
      ∧ v / 256 ^ j % 256 = x / 256 ^ ((va + j) % 16) % 256)
    ∧ (∀ u, r.have_ va n = .error u → va / 16 ≤ u ∧ 16 * u < va + n ∧ r.units.find u = none))
  ∧ ∀ (s : State) (d e : Nat) (r : EngReq), s.EngAt d e r →
    (r.stage = 0 →
      (∀ (n : Nat), reqKind r.block = 0 → reqCvt r.block = 0 → r.pos < reqLen r.block →
        n = min (16 - (reqDst r.block + r.pos) % 16) (reqLen r.block - r.pos) →
        (∀ (u x w : Nat) (s1 : State), r.have_ (reqSrc r.block + r.pos) n = .error u → unitGet s r.ctx (16 * u) 16 .engRead = .ok s1 (x, w) →
          exec (.engineCopy d e) s = .next (s1.setEngHead d e { r with tw := max r.tw w, units := r.units.put u x }))
        ∧ (∀ (v w : Nat) (s1 : State), r.have_ (reqSrc r.block + r.pos) n = .ok v →
          unitPut s r.ctx (reqDst r.block + r.pos) n v r.t .engWrite
            ((reqDst r.block + r.pos + n) % 128 == 0 && decide (128 ≤ r.pos + n)) (coreDie r.core) = .ok s1 w →
          exec (.engineCopy d e) s = .next (s1.setEngHead d e { r with bytes := r.bytes + n, tw := max r.tw w, pos := r.pos + n })))
      ∧ (∀ (st dt : Ty) (n total v w : Nat) (s1 : State), reqKind r.block = 0 → reqCvt r.block = 1 → tileTy (reqSfmt r.block) = some st →
        tileTy (reqDfmt r.block) = some dt → total = reqLen r.block * storedWidth dt / 8 → r.pos < total →
        n = min (16 - (reqDst r.block + r.pos) % 16) (total - r.pos) →
        elemBytes (storedWidth dt) r.pos n (r.converted st dt) = .ok v →
        unitPut s r.ctx (reqDst r.block + r.pos) n v r.t .engWrite
          ((reqDst r.block + r.pos + n) % 128 == 0 && decide (128 ≤ r.pos + n)) (coreDie r.core) = .ok s1 w →
        exec (.engineCopy d e) s = .next (s1.setEngHead d e { r with bytes := r.bytes + n, tw := max r.tw w, pos := r.pos + n }))
      ∧ (reqKind r.block = 0 → reqCvt r.block = 2 → reqSrc r.block % 16 ≠ 0 ∨ reqDst r.block % 16 ≠ 0 ∨ reqLen r.block < 16 →
        exec (.engineCopy d e) s = .next (s.setEngHead d e { r with fail := true, stage := 2 }))
      ∧ (∀ (n total el ib x w : Nat) (s1 : State), reqKind r.block = 1 → el = reqElem r.block → 0 < el → ib = reqIdxBytes r.block →
        total = reqLen r.block * el → r.pos < total → n = min (16 - (reqDst r.block + r.pos) % 16) (total - r.pos) → x < 256 ^ n →
        (∀ k, k < n → ∃ i, r.have_ (reqIdx r.block + ib * ((r.pos + k) / el)) ib = .ok i
          ∧ (if i < reqLim r.block then ∃ y, r.have_ ((reqSrc r.block + el * i) % 2 ^ 64) el = .ok y
              ∧ x / 256 ^ k % 256 = y / 256 ^ ((r.pos + k) % el) % 256
            else x / 256 ^ k % 256 = 0)) →
        unitPut s r.ctx (reqDst r.block + r.pos) n x r.t .engWrite
          ((reqDst r.block + r.pos + n) % 128 == 0 && decide (128 ≤ r.pos + n)) (coreDie r.core) = .ok s1 w →
        exec (.engineGather d e) s = .next (s1.setEngHead d e { r with bytes := r.bytes + n, tw := max r.tw w, pos := r.pos + n }))
      ∧ (∀ (s0 s1 : State) (i x w : Nat), reqKind r.block = 2 → r.pos < reqLen r.block →
        r.have_ (reqIdx r.block + reqIdxBytes r.block * r.pos) (reqIdxBytes r.block) = .ok i →
        (reqLim r.block ≤ i → exec (.engineScatter d e) s
          = .next (s.setEngHead d e { r with bytes := r.bytes + reqElem r.block, pos := r.pos + 1 }))
        ∧ (i < reqLim r.block → r.have_ (reqSrc r.block + reqElem r.block * r.pos) (reqElem r.block) = .ok x →
          unitTouch s r.ctx ((reqDst r.block + reqElem r.block * i) % 2 ^ 64) (reqElem r.block) .engWrite = .ok s0 () →
          unitPut s0 r.ctx ((reqDst r.block + reqElem r.block * i) % 2 ^ 64) (reqElem r.block) x r.t .engWrite false (coreDie r.core) = .ok s1 w →
          exec (.engineScatter d e) s
            = .next (s1.setEngHead d e { r with bytes := r.bytes + reqElem r.block, tw := max r.tw w, pos := r.pos + 1 })))
      ∧ (∀ (s1 : State) (n x w : Nat), reqKind r.block = 3 → r.pos < reqLen r.block →
        n = min (16 - (reqDst r.block + r.pos) % 16) (reqLen r.block - r.pos) → x < 256 ^ n →
        (∀ k, k < n → x / 256 ^ k % 256 = r.block.toNat / 2 ^ (384 + 8 * ((r.pos + k) % 8)) % 256) →
        unitPut s r.ctx (reqDst r.block + r.pos) n x r.t .engWrite
          ((reqDst r.block + r.pos + n) % 128 == 0 && decide (128 ≤ r.pos + n)) (coreDie r.core) = .ok s1 w →
        exec (.engineFill d e) s = .next (s1.setEngHead d e { r with bytes := r.bytes + n, tw := max r.tw w, pos := r.pos + n }))
      ∧ (∀ (s1 s2 : State) (rbuf sync w : Nat), reqKind r.block = 4 → reqRank r.block < 2 ^ reqK r.block → r.phase = 2 →
        engPeer s r (reqRank r.block ^^^ 2 ^ r.round) = .ok s1 (rbuf, sync) →
        unitAdd s1 r.ctx sync 1 (max r.t r.tw) (coreDie r.core) = .ok s2 w →
        exec (.engineDepthComposite d e) s = .next (s2.setEngHead d e { r with tw := max r.tw w, phase := 3 }))
      ∧ (∀ (i x a y c px : Nat) (b : Bool), px = reqPixel r.block → r.have_ (reqRbuf r.block + px * i) 4 = .ok x →
        r.have_ (reqRbuf r.block + reqLen r.block * px + 2 * i) 2 = .ok a → r.have_ (reqDst r.block + px * i) 4 = .ok y →
        r.have_ (reqAux r.block + 2 * i) 2 = .ok c → r.wins i = .ok b →
        (b = true ↔ ((f32v x).isNaN = true ∧ (f32v y).isNaN = true ∧ a < c) ∨ ((f32v x).isNaN = false ∧ (f32v y).isNaN = true)
          ∨ ((f32v x).isNaN = false ∧ (f32v y).isNaN = false ∧ (ltV (f32v x) (f32v y) = true ∨ (eqV (f32v x) (f32v y) = true ∧ a < c)))))
      ∧ (∀ (from_ at_ wid q n k0 m px : Nat), reqKind r.block = 4 → r.phase = 4 → px = reqPixel r.block → 0 < px → k0 = r.kept.1 →
        m = r.kept.2 - k0 →
        ((r.pos < m * px ∧ from_ = reqRbuf r.block ∧ at_ = reqDst r.block ∧ wid = px ∧ q = px * k0 + r.pos)
          ∨ (m * px ≤ r.pos ∧ r.pos < m * (px + 2) ∧ from_ = reqRbuf r.block + reqLen r.block * px ∧ at_ = reqAux r.block ∧ wid = 2
            ∧ q = 2 * k0 + (r.pos - m * px))) →
        n = min (16 - (at_ + q) % 16) (wid * (k0 + m) - q) →
        ((∀ i, q / wid ≤ i → i ≤ (q + n - 1) / wid → r.wins i = .ok false) →
          exec (.depthCompositeMerge d e) s = .next (s.setEngHead d e { r with pos := r.pos + n }))
        ∧ (∀ (s1 : State) (v w : Nat), (q + n - 1) / wid = q / wid → r.wins (q / wid) = .ok true → r.have_ (from_ + q) n = .ok v →
          unitPut s r.ctx (at_ + q) n v r.t .engWrite false (coreDie r.core) = .ok s1 w →
          exec (.depthCompositeMerge d e) s = .next (s1.setEngHead d e { r with tw := max r.tw w, pos := r.pos + n })))
      ∧ (reqKind r.block = 4 → r.phase = 4 → (r.kept.2 - r.kept.1) * (reqPixel r.block + 2) ≤ r.pos → exec (.depthCompositeMerge d e) s
        = .next (s.setEngHead d e { r with phase := 1, pos := 0, lo := r.kept.1, hi := r.kept.2, round := r.round + 1, units := [] }))
      ∧ (∀ (s1 : State) (x w : Nat) (pr : Probe), reqKind r.block = 5 → r.pos < reqLen r.block →
        unitGet s r.ctx (reqSrc r.block + 65536 * r.pos) 65536 .engRead = .ok s1 (x, w) →
        pr = probeTable s1 (coreDie r.core) (reqIdx r.block) (reqFsz r.block) (fingerprint x) x 8 0 →
        (pr = .bound → exec (.engineDedupWrite d e) s = .next (s1.setEngHead d e { r with fail := true, stage := 2 }))
        ∧ (pr = .poisoned → exec (.engineDedupWrite d e) s = .next ((s1.cnt (coreDie r.core) (fun c => { c with
            memPoison := min (c.memPoison + 1) (2 ^ 64 - 1) })).setEngHead d e { r with fail := true, stage := 2 }))
        ∧ (∀ (s2 s3 s4 : State) (f c w2 w3 pte : Nat), pr = .share f → pte = r.block.toNat / 2 ^ 576 % 2 ^ 64 + 8 * r.pos →
          unitTouch s1 r.ctx (reqRcnt r.block f) 4 .atomic = .ok s2 () →
          unitGet s2 r.ctx (reqRcnt r.block f) 4 .atomic = .ok s3 (c, w2) →
          unitPut s3 r.ctx (reqRcnt r.block f) 4 ((c + 1) % 2 ^ 32) r.t .atomic false (coreDie r.core) = .ok s4 w3 →
          (physRange pte 8 = true → exec (.engineDedupWrite d e) s = .next ((s4.physWrite (coreDie r.core) pte
              (BitVec.ofNat 64 (dedupPte (r.block.toNat / 2 ^ 800 % 2 ^ 64) f)) r.t).setEngHead d e { r with
            bytes := r.bytes + 65536, tw := max r.tw (max (max w2 w3) w), pos := r.pos + 1, stage := 1, shared := r.shared + 1 }))
          ∧ (physRange pte 8 = false → exec (.engineDedupWrite d e) s = .next (s4.setEngHead d e { r with fail := true, stage := 2 })))
        ∧ (∀ (s2 s3 s4 : State) (slot : Option Nat) (f w2 w3 pte : Nat), pr = .miss slot → r.used ≠ r.block.toNat / 2 ^ 704 % 2 ^ 32 →
          unitGet s1 r.ctx (r.block.toNat / 2 ^ 640 % 2 ^ 64 + 8 * r.used) 8 .engRead = .ok s2 (f, w2) → physRange f 65536 = true →
          unitTouch s2 r.ctx (reqRcnt r.block f) 4 .engWrite = .ok s3 () →
          unitPut (s3.physPut (coreDie r.core) f 65536 x r.t) r.ctx (reqRcnt r.block f) 4 1 r.t .engWrite false (coreDie r.core) = .ok s4 w3 →
          pte = r.block.toNat / 2 ^ 576 % 2 ^ 64 + 8 * r.pos → physRange pte 8 = true →
          exec (.engineDedupWrite d e) s = .next (((match slot with
              | some a => s4.physPut (coreDie r.core) a 16 (fingerprint x + f * 2 ^ 64) r.t
              | none => s4).physWrite (coreDie r.core) pte
              (BitVec.ofNat 64 (dedupPte (r.block.toNat / 2 ^ 800 % 2 ^ 64) f)) r.t).setEngHead d e { r with
            bytes := r.bytes + 65536, tw := max r.tw (max (max w3 w2) w), pos := r.pos + 1, stage := 1, used := r.used + 1 })))
      ∧ (∀ (s1 : State) (x w : Nat), reqKind r.block = 6 → checkpointOk s r.block = true → r.block.getLsbD 384 = false → r.pos < reqLen r.block →
        s.physGet (coreDie r.core) (reqSrc r.block + r.pos) 16 = some x →
        unitPut s r.ctx (reqDst r.block + r.pos) 16 x r.t .engWrite
          ((reqDst r.block + r.pos + 16) % 128 == 0 && decide (128 ≤ r.pos + 16)) (coreDie r.core) = .ok s1 w →
        exec (.engineCheckpointStream d e) s
          = .next (s1.setEngHead d e { r with bytes := r.bytes + 16, tw := max r.tw w, pos := r.pos + 16 })))
    ∧ (∀ (s1 : State) (w : Nat), r.stage = 2 → reqKind r.block < 7 → reqC0 r.block ≠ 0 → r.bytes ≠ 0 → r.fail = false →
      unitAdd s r.ctx (reqC0 r.block) r.bytes (max r.t r.tw) (coreDie r.core) = .ok s1 w →
      exec (engEvent d e r) s = .next (s1.setEngHead d e { r with stage := 3, bytes := 0, tw := max r.tw w }))
    ∧ (∀ (s1 : State) (w : Nat), r.stage = 3 → reqKind r.block < 7 → reqC1 r.block ≠ 0 → r.fail = false →
      unitAdd s r.ctx (reqC1 r.block) 1 (max r.t r.tw) (coreDie r.core) = .ok s1 w →
      (s1.die d).engines.wf = true → s1.cores.wf = true → ∃ t, exec (engEvent d e r) s = .next t
        ∧ (t.die d).engine e = ((s1.die d).engine e).tail
        ∧ ∀ l, l ∈ (t.core r.core).locks ↔ l ∈ (s1.core r.core).locks ∧ l.id ≠ r.id)

/-- R220 to R227: splicers and coilers act in their plans' order: the units of a line written, a counter raised; a joining root waits for its
peer's `done`, whose error token fails the command; a coiler waits for the retired version's readers and copies a leaf with its version; the
last act ends the command. How the work is cut into steps is the model's (log entry 18). -/
def Obligations.TreeEvents : Prop :=
  (∀ (s : State) (u : TreeUnit) (d n : Nat) (r : TreeReq) (rest : List TreeReq) (i : Instr), s.TreeAt u d n r rest →
    ((u = .splicer ∧ r.phase = 3 ∧ ((isRefit r = false ∧ i = .splicerBuild d n) ∨ (isRefit r = true ∧ i = .splicerRefit d n)))
      ∨ (u = .coiler ∧ ((r.phase = 2 ∧ i = .coilerCompact d n) ∨ (r.phase = 1 ∧ i = .coilerCopy d n ∧ r.ops ≠ [])))) →
    (r.ops = [] → exec i s = .next (s.treeNow u d n none rest))
    ∧ (∀ (s1 : State) (va w : Nat) (x : Line) (ops : List SplOp), r.ops = .line va x :: ops →
      unitPut s r.ctx (va + 16 * r.unit) 16 (x.toNat / 2 ^ (128 * r.unit) % 2 ^ 128) r.t .engWrite (r.unit == 7) (coreDie r.core) = .ok s1 w →
      s1.treeQueue u d n = r :: rest →
      exec i s = .next (s1.treeNow u d n (some (if r.unit < 7 then { r with tw := max r.tw w, unit := r.unit + 1 }
        else { r with tw := max r.tw w, unit := 0, ops := ops })) rest))
    ∧ (∀ (s1 : State) (va : DWord) (token : Bool) (w : Nat) (ops : List SplOp), r.ops = .add va token :: ops →
      unitAdd s r.ctx va.toNat (if token then 2 ^ 63 else 1) (max r.t r.tw) (coreDie r.core) = .ok s1 w → s1.treeQueue u d n = r :: rest →
      exec i s = .next (s1.treeNow u d n (some { r with tw := max r.tw w, ops := ops }) rest)))
  ∧ (∀ (s : State) (d n : Nat) (r fail : TreeReq) (rest : List TreeReq), s.TreeAt .splicer d n r rest →
    fail = { r with phase := 3, ops := [.add (BitVec.ofNat 64 (bldDone r.block)) true, .add (BitVec.ofNat 64 (bldHitch r.block)) true] } →
    (∀ (i : Instr), ((isRefit r = false ∧ i = .splicerBuild d n) ∨ (isRefit r = true ∧ i = .splicerRefit d n)) →
      (r.phase = 0 → bldOk r.block = true → ∃ want, exec i s = .next (s.treeNow .splicer d n (some { r with phase := 1, want := want }) rest))
      ∧ (r.phase = 0 → bldOk r.block = false → exec i s = .next (s.treeNow .splicer d n (some fail) rest)))
    ∧ (∀ (s1 s2 s3 : State) (v w x0 w0 x1 w1 : Nat) (ops : List SplOp), r.phase = 3 → r.ops = .join :: ops →
      readAtHome s r.ctx (bldPeer r.block) = .ok s1 (some (v, w)) →
      (v.testBit 63 = true → s1.treeQueue .splicer d n = r :: rest →
        exec (.joiningRootWrite d n) s = .next (s1.treeNow .splicer d n (some fail) rest))
      ∧ (v.testBit 63 = false → v < (bldPbase r.block + 1) % 2 ^ 63 → s1.treeQueue .splicer d n = r :: rest →
        exec (.joiningRootWrite d n) s = .next (s1.treeNow .splicer d n (some r) rest))
      ∧ (v.testBit 63 = false → (bldPbase r.block + 1) % 2 ^ 63 ≤ v →
        unitGet s1 r.ctx ((bldRoot r.block + 128) / 128 * 128) 128 .engRead = .ok s2 (x0, w0) →
        unitGet s2 r.ctx ((bldRoot r.block + 256) % 2 ^ 64 / 128 * 128) 128 .engRead = .ok s3 (x1, w1) →
        s3.treeQueue .splicer d n = r :: rest →
        ∃ tw, exec (.joiningRootWrite d n) s = .next ({ s3 with fresh := s3.fresh + 32 }.treeNow .splicer d n (some { r with
            tw := tw, ops := .line (bldRoot r.block) (joinLine r.block (BitVec.ofNat 1024 x0) (BitVec.ofNat 1024 x1) s3.fresh) :: ops }) rest)
          ∧ tw = max (max r.tw w) (max w0 w1))))
  ∧ (∀ (s : State) (d n : Nat) (r : TreeReq) (rest : List TreeReq), s.TreeAt .coiler d n r rest →
    (∀ (s1 : State) (v w : Nat), r.phase = 0 → readAtHome s r.ctx (cmpWctr r.block) = .ok s1 (some (v, w)) →
      s1.treeQueue .coiler d n = r :: rest →
      (v.testBit 63 = true → exec (.coilerCompact d n) s = .next (s1.treeNow .coiler d n (some { r with
          phase := 2, ops := [.add (BitVec.ofNat 64 (cmpDone r.block)) true] }) rest))
      ∧ (v.testBit 63 = false → v < cmpWtgt r.block % 2 ^ 63 → exec (.coilerCompact d n) s = .next (s1.treeNow .coiler d n (some r) rest))
      ∧ (v.testBit 63 = false → cmpWtgt r.block % 2 ^ 63 ≤ v → exec (.coilerCompact d n) s = .next (s1.treeNow .coiler d n (some { r with
          tw := max r.tw w, phase := 1, want := [(cmpSrc r.block, cmpDst r.block, 0)] }) rest)))
    ∧ (∀ (s1 : State) (va a x w : Nat) (want : List (Nat × Nat × Nat)), r.phase = 1 → r.ops = [] → r.want = (va, a, 1) :: want →
      unitGet s r.ctx (va / 128 * 128) 128 .engRead = .ok s1 (x, w) → x < 2 ^ 1024 → s1.treeQueue .coiler d n = r :: rest →
      ∃ l : Line, l.toNat = x - x / 2 ^ 688 % 2 * 2 ^ 688 + cmpGen r.block * 2 ^ 688
        ∧ exec (.coilerCopy d n) s = .next (s1.treeNow .coiler d n (some { r with tw := max r.tw w, want := want, ops := [.line a l] }) rest))
    ∧ (∀ (s1 : State) (w : Nat), r.phase = 1 → r.ops = [] → r.want = [] →
      unitPut s r.ctx (cmpRes r.block) 8 r.pos r.t .engWrite false (coreDie r.core) = .ok s1 w → s1.treeQueue .coiler d n = r :: rest →
      exec (.coilerCopy d n) s = .next (s1.treeNow .coiler d n (some { r with
        tw := max r.tw w, phase := 2, ops := [.add (BitVec.ofNat 64 (cmpDone r.block)) false] }) rest)))

/-! ## Events of the module -/

/-- R139, R213, R243, R247, R250, R252, R253, R254, R255: a reset leaves no group, core or queue as it was and shows the service it comes to
at physical address 0, if die 0 runs its firmware, which both signatures of a die's image allow; a failing link of the two dies, or heat,
resets into reduced service; links come and go, a report is of a die that runs, and a module without its auxiliary rail answers nothing: that
the step then stops with a fault of its own is read by inference (log entry 46). What a reset keeps of memory, and that a self-reset has the
present firmware, is read by inference (log entry 23). -/
def Obligations.ResetsAndLinks : Prop :=
  (∀ (s : State) (full : Bool) (ecdsa lms : BitVec 2), s.canonical = true → ∃ (t : State) (p0 p1 : Bool),
    exec (.moduleReset full ecdsa lms) s = .next t
    ∧ p0 = (ecdsa.getLsbD 0 && lms.getLsbD 0) ∧ p1 = (ecdsa.getLsbD 1 && lms.getLsbD 1)
    ∧ t = { State.reset with
        status := t.status, die0 := t.die0, die1 := t.die1, remote := s.remote, hostUp := s.hostUp, vfCount := s.vfCount, railOff := s.railOff }
    ∧ t.status.full = full ∧ t.status.mall = full ∧ t.status.clk = (if full then 1800 else 600) ∧ t.status.mrate = (if full then 64 else 16)
    ∧ t.status.dies.getLsbD 0 = p0 ∧ t.status.dies.getLsbD 1 = (full && p1)
    ∧ t.die0 = { Die.reset t.die0.mem s.die0.host p0 with poison := s.die0.poison, sect := t.die0.sect }
    ∧ t.die1 = { Die.reset s.die1.mem s.die1.host p1 with poison := s.die1.poison, sect := s.die1.sect }
    ∧ (p0 = true → t.phys 0 0 8 = t.status.word.toNat ∧ ∀ a, 8 ≤ a → a < 2 ^ 37 - 2 ^ 28 → t.phys 0 a 1 = s.phys 0 a 1)
    ∧ (p0 = false → t.die0.mem = s.die0.mem ∧ t.die0.sect = s.die0.sect))
  ∧ (∀ (s : State) (v : BitVec 2), v.getLsbD 0 = s.die0.up → v.getLsbD 1 = s.die1.up →
    exec .thermalReset s = exec (.moduleReset false v v) s ∧ exec .ucieLinkFailure s = exec (.moduleReset false v v) s)
  ∧ (∀ (s : State), (∃ t, exec .thermalReset s = .next t ∧ t.groups = [] ∧ t.status.full = false)
    ∧ (∃ t, exec .ucieLinkFailure s = .next t ∧ t.groups = [] ∧ t.status.full = false)
    ∧ (∃ t, exec .auxiliaryRailOff s = .next t ∧ t = { s with railOff := true } ∧ step t = .fault .auxiliaryRailOff))
  ∧ (∀ (s : State) (port q n : Nat), s.hostUp.wf = true → s.vfCount.wf = true → s.sems.wf = true → s.hawser.wf = true →
    (port < 2 → ∃ t, exec (.hostLinkUp { port := port, vfs := n }) s = .next t ∧ t = { s with hostUp := t.hostUp, vfCount := t.vfCount }
      ∧ (∀ k, t.hostUp.getD k false = if k = port then true else s.hostUp.getD k false)
      ∧ ∀ k, t.vfCount.getD k 0 = if k = port then min n 32 else s.vfCount.getD k 0)
    ∧ (∃ t, exec (.hostLinkDown port) s = .next t ∧ t = { s with hostUp := t.hostUp, sems := t.sems } ∧ t.hostUp.getD port false = false
      ∧ ∀ n, t.sems.getD n 0 = if s.sems.getD n 0 = port + 1 then 0 else s.sems.getD n 0)
    ∧ (s.domain.set = true → port < 16 → ∃ t, exec (.hawserLinkUp port q) s = .next t ∧ t = { s with hawser := t.hawser }
      ∧ ∀ k, t.hawser.find k = if k = port then some q else s.hawser.find k)
    ∧ (∃ t, exec (.hawserLinkDown port) s = .next t ∧ t = { s with hawser := t.hawser }
      ∧ ∀ k, t.hawser.find k = if k = port then none else s.hawser.find k))
  ∧ (∀ (s : State) (d : Nat) (nonce : BitVec 256),
    ((s.die d).up = false → exec (.attestationRequest d nonce) s = .next s)
    ∧ ((s.die d).up = true → ∃ x : Report, exec (.attestationRequest d nonce) s = .next { s with report := some x }
      ∧ x.die = d ∧ x.nonce = nonce))

/-- R64, R65, R112, R137, R138, R195, R251, R253, R256: what a lost message and an uncorrectable error do: an add or a push that was to
leave the module is dropped and counted, a fetch that was to leave it traps as poisoned, one within the module cannot be lost; memory that
fails gives poisoned data; an error in stash kills the gang and relaunches its span or fails its launch; one in registers traps; poison stays
with its line; corrected errors and dropped translations are counted. What a lost message leaves is read by inference (log entries 23, 40). -/
def Obligations.ErrorEvents : Prop :=
  (∀ (s : State) (n p : Nat),
    (∀ a : Add, s.adds[n]? = some a →
      (s.offModule a.va.toNat = true → exec (.linkRetryExhausted (.add n)) s
        = .next ({ s with adds := s.adds.filter (fun b => b.id != a.id) }.cnt a.die (fun c => { c with linkdrop := min (c.linkdrop + 1) (2 ^ 64 - 1) })))
      ∧ (s.offModule a.va.toNat = false → exec (.linkRetryExhausted (.add n)) s = .next s))
    ∧ (∀ x : Push, s.pushes[n]? = some x →
      (s.offModule x.va = true → exec (.linkRetryExhausted (.push n)) s
        = .next ({ s with pushes := s.pushes.eraseIdx n }.cnt (coreDie x.src) (fun c => { c with linkdrop := min (c.linkdrop + 1) (2 ^ 64 - 1) })))
      ∧ (s.offModule x.va = false → exec (.linkRetryExhausted (.push n)) s = .next s))
    ∧ (∀ g : Group, s.grp p = some g → g.wantsWord = true →
      (s.offModule (pcLine g.pc) = true → exec (.linkRetryExhausted (.fetch p)) s
        = .next (s.takeTrap p { cause := .poisoned, info := BitVec.ofNat 64 (pcLine g.pc), pc := g.pc }))
      ∧ (s.offModule (pcLine g.pc) = false → exec (.linkRetryExhausted (.fetch p)) s = .next s))
    ∧ (∀ g : Group, s.grp p = some g → exec (.regUncorrectableError p n) s
      = .next (s.takeTrap p { cause := .regUncorrectable, info := BitVec.ofNat 64 n, pc := g.pc })))
  ∧ (∀ (s : State) (d a ctx va : Nat) (e : TlbE) (t : State), d < 2 → a < 2 ^ 37 → exec (.linkRetryExhausted (.memory d a)) s = .next t →
    (s.die d).poison.wf = true → (e.frame + va % 2 ^ e.size) / 128 = a / 128 → (t.fillLine d false ctx va e).2.poison = true)
  ∧ (∀ (s : State) (d a : Nat), d < 2 → a < 2 ^ 37 → ∃ t, exec (.linkRetryExhausted (.memory d a)) s = .next t)
  ∧ (∀ (s : State) (c off key : Nat) (k : Gang) (tk : Task), s.gangs = [(key, k)] → k.core = c → k.places ≠ [] → s.dying k = false →
    k.stashBase ≤ off → off < k.stashBase + k.stashSize → s.running k.queue k.seqNo tk → k.spawned = false →
    (recIdem tk.data = false → ∃ t, exec (.stashUncorrectable c off) s = .next t ∧ LaunchFailed s t k.queue k.seqNo tk 0x06)
    ∧ (recIdem tk.data = true → 3 ≤ tk.relaunches →
      ∃ t, exec (.stashUncorrectable c off) s = .next t ∧ LaunchFailed s t k.queue k.seqNo tk 0x07)
    ∧ (recIdem tk.data = true → tk.relaunches < 3 → ∃ (t : State) (x : Task), exec (.stashUncorrectable c off) s = .next t
      ∧ t.task k.queue k.seqNo = some x ∧ x.relaunches = tk.relaunches + 1 ∧ x.placed = tk.placed.filter (· != k.gang / recSpan tk.data)
      ∧ x.exited = tk.exited.filter (fun g => g / recSpan tk.data != k.gang / recSpan tk.data)
      ∧ x.data = tk.data ∧ x.st = tk.st ∧ x.failing = false
      ∧ ∀ p g, p ∈ k.places → s.grp p = some g → ∃ g', t.grp p = some g' ∧ g'.st = .killed))
  ∧ (∀ (s : State) (c d ctx va : Nat) (hl : HomeLine), s.homeIs d ctx va hl →
    exec (.l2DataUncorrectable d ctx va) s = .next (s.setHome d ctx va { hl with poison := true })
    ∧ (∀ y : Copy, s.owner va = .die d → s.Has c ctx va y → y.st = .o → hl.owner = some c → hl.unknown = false → s.cores.wf = true →
      (s.core c).l1.wf = true → s.waiting (.recall c (lineKey ctx va)) = false →
      ∃ t, exec (.l1DirtyUncorrectable c ctx va) s = .next t ∧ (t.core c).l1.find (lineKey ctx va) = none ∧ t.homeIs d ctx va { hl with
        data := y.data, w := y.w, h := max hl.h y.r, owner := none, hold := false, poison := true, dirty := true }))
  ∧ (∀ (s : State) (d slice n : Nat) (k : CeKind),
    (n < ((s.die d).tlb.getD slice []).length → (s.die d).tlb.wf = true → ∃ t, exec (.tlbParityDrop d slice n) s = .next t
      ∧ (t.die d).tlb.getD slice [] = ((s.die d).tlb.getD slice []).eraseIdx n ∧ (t.die d).cnt.ceTlb = min ((s.die d).cnt.ceTlb + 1) (2 ^ 64 - 1))
    ∧ exec (.correctedError d (.tlb slice n)) s = exec (.tlbParityDrop d slice n) s
    ∧ ((∀ i j, k ≠ .tlb i j) → ∃ f : Counts → Counts, exec (.correctedError d k) s = .next (s.cnt d f) ∧ ∀ c : Counts,
      (f c).ceReg = (if k = .reg then min (c.ceReg + 1) (2 ^ 64 - 1) else c.ceReg)
      ∧ (f c).ceStash = (if k = .stash then min (c.ceStash + 1) (2 ^ 64 - 1) else c.ceStash)
      ∧ (f c).ceL1 = (if k = .l1 then min (c.ceL1 + 1) (2 ^ 64 - 1) else c.ceL1)
      ∧ (f c).ceIcache = (if k = .icache then min (c.ceIcache + 1) (2 ^ 64 - 1) else c.ceIcache)
      ∧ (f c).ceL2 = (if k = .l2 then min (c.ceL2 + 1) (2 ^ 64 - 1) else c.ceL2)
      ∧ (f c).ceDir = (if k = .dir then min (c.ceDir + 1) (2 ^ 64 - 1) else c.ceDir)
      ∧ (f c).ceTlb = c.ceTlb
      ∧ (f c).dirrecov = c.dirrecov ∧ (f c).linkdrop = c.linkdrop ∧ (f c).ctrdrop = c.ctrdrop))

/-! ## Words, steps, invariants -/

/-- R258, R264, R270 to R288: what the spec's worked encodings stand for. -/
def Obligations.WorkedEncodings : Prop :=
  let h0 : Hdr := { sched := Sched.ofBits 0, guard := { neg := false, p := 0 } }
  decodeTableWord 80 0x104080509880000800 = some (.ld { sched := Sched.ofBits 0x10, guard := { neg := false, p := 0 } } .b32
      { d := .v 2, a := .s 4, b := .zero, off := 0x40, ord := .rlx, scope := .gang })
  ∧ decodeTableWord 80 0x1000E0E118800000 = some (.fadd h0
      { ty := .f32, sub := 0, half := .none, d := .v 7, a := .v 7, b := .v 8, c := .zero, ma := .none, mb := .none })
  ∧ decodeTableWord 80 0x0B010100000003FE = some (.logicImm h0 0 { d := .v 8, a := .v 8, imm := 0x1FF, w := false })
  ∧ decodeTableWord 80 0x3000000000000006 = some (.bra h0 3)
  ∧ decodeTableWord 80 0x8108244022185800 = some (.dualWord (Sched.ofBits 0)
      { op := .iadd, d := 4, s := 9, ty := .n32, m := .none } { op := .fmul, d := 6, s := 11, ty := .f32, m := .none })
  ∧ decodeTableWord 80 0 = none

/-- R258 to R288: every well-formed instruction word reads back from its 80 bits, with every operand at every value its encoding admits. -/
def Obligations.DecodeEncode : Prop :=
  ∀ i : Instr, i.isWord = true → i.wf = true → ∃ w, encode i = some w ∧ decodeWord w = .ok i

/-- R258 to R288: what decodes is well-formed, and no other 80 bits stand for the same instruction: no bit of a word goes unread. -/
def Obligations.EncodeDecode : Prop :=
  ∀ (w : BitVec 80) (i : Instr), decodeWord w = .ok i → i.wf = true ∧ encode i = some w

/-- R261, R263, R264 to R267, R288: with the group at its turn and its code line at hand, a step is exec of the instruction that the
slot decodes to, once no tag the word names is outstanding; the tags it waits for are consumed, and the next slot is noted. A damaged
line, a slot past the last and a word that decodes to nothing trap. What comes first on the agenda is next, and without a turn one of
the pending events. That the agenda comes first and what is picked without it is the model's choice (log entry 1). -/
def Obligations.StepRunsDecoded : Prop :=
  ∀ (s : State), s.railOff = false →
    (∀ i r, s.agenda = i :: r → step s = exec i { s with agenda := r })
    ∧ (s.agenda = [] → s.cur = none → ∀ i, s.pickWork = some i → step s = exec i s.passTime)
    ∧ ∀ (p : Nat) (g : Group) (l : Line) (slot : Nat), s.agenda = [] → s.cur = some p → s.grp p = some g → g.st = .ready → g.trapWait = none →
      g.tst = none → s.waiting (.fetch p) = false → s.waiting (.word p) = false → (∀ x ∈ g.lpend, x.left ≠ 0) →
      g.pc.toNat / 16 % 8 = 0 → slot = g.pc.toNat % 16 → slot < 12 → s.owner (g.pc.toNat / 128 * 128) ≠ .bad →
      (s.core (placeCore p)).icache.find (lineKey g.ctx (g.pc.toNat / 128 * 128)) = some l →
      (lineOk l = false → step s = .next (s.trapsAt p g .lineIntegrity (BitVec.ofNat 64 (g.pc.toNat / 128 * 128))))
      ∧ (lineOk l = true → lineCount l ≤ slot → step s = .next (s.trapsAt p g .illegal 0))
      ∧ (lineOk l = true → slot < lineCount l →
        (∀ e, decodeWord (l.extractLsb' (80 * slot) 80) = .error e → step s = .next (s.trapsAt p g .illegal (l.extractLsb' (80 * slot) 64)))
        ∧ (∀ i : Instr, decodeWord (l.extractLsb' (80 * slot) 80) = .ok i → g.tags.wf = true →
          ((∀ t x, g.tags.find t = some x → x.released = false →
              t ≠ i.sched.w1.toNat ∧ t ≠ i.sched.w2.toNat ∧ t ≠ i.sched.set.toNat ∧ (t ≤ 7 → i.sched.w1 ≠ 7 ∧ i.sched.w2 ≠ 7)) →
            ∃ tags : SMap TagSt,
              step s = exec i (s.setGrp p { g with
                tags := tags
                ir := l.extractLsb' (80 * slot) 64
                npc := if slot + 1 < lineCount l then g.pc + 1 else BitVec.ofNat 64 (g.pc.toNat / 128 * 128 + 128) })
              ∧ ∀ t, t ≠ 0 → tags.find t = if (t ≤ 7 ∧ (i.sched.w1 = 7 ∨ i.sched.w2 = 7)) ∨ t = i.sched.w1.toNat ∨ t = i.sched.w2.toNat
                then none else g.tags.find t)
          ∧ (∀ t x, g.tags.find t = some x → x.released = false → t ≠ 0 →
              (t = i.sched.w1.toNat ∨ t = i.sched.w2.toNat ∨ t = i.sched.set.toNat ∨ (t ≤ 7 ∧ (i.sched.w1 = 7 ∨ i.sched.w2 = 7))) →
            ∃ g', step s = .next (s.wrote p g') ∧ g'.st = .waiting ∧ g'.pc = g.pc ∧ g'.v = g.v ∧ g'.s = g.s)))

/-- Every step keeps the memories in canonical form; keeps each map canonical (the places, gangs, tasks, cores and dies, a group's registers,
predicates, headers and tags, a core's L1, instruction cache and stash, a die's L2, slices, translations, walk records, generations, engines and poison
marks, the module's bindings, semaphores and links), no key listed twice; and the module's registers at what R250, R252 and R257 let them
hold. The canonical form is the model's (log entry 3). -/
def Obligations.StepKeepsInv : Prop := ∀ s t : State, s.Inv → step s = .next t → t.Inv

/-- R139, R213, R243, R250, R254, R257: what a module reset leaves, and that it meets the invariant. That unlisted memory reads zero,
and that caches and tables are empty, is the model's choice (log entries 2, 3). -/
def Obligations.ResetState : Prop :=
  State.reset.Inv
  ∧ (∀ c k, (State.reset.core c).t = 0 ∧ (State.reset.core c).l1 = [] ∧ (State.reset.core c).qowner = none ∧ (State.reset.core c).queue k = [])
  ∧ (∀ d k, (State.reset.slice d k).mts = 0 ∧ (State.reset.slice d k).htop = 0 ∧ (State.reset.die d).tables = [])
  ∧ State.reset.status.mrate = 16 ∧ State.reset.status.clk = 600 ∧ State.reset.status.mall = false ∧ State.reset.status.dies = 0b01
  ∧ State.reset.status.full = false ∧ State.reset.cap = 2700 ∧ State.reset.tdie = 0x8000 ∧ State.reset.tin = 0x8000 ∧ State.reset.thr = false
  ∧ State.reset.domain.set = false ∧ State.reset.sems = [] ∧ State.reset.vfs = [] ∧ (∀ q, State.reset.queue q = QDesc.reset)
  ∧ State.reset.die0.mem.get 0 8 = State.reset.status.word.toNat ∧ ∀ a, 8 ≤ a → Memory.read State.reset.die0.mem a = 0
end

