-- ==== Sys2Proof/Laws/State.lean ====
section
/-!
SUPPORT. What each update of the state leaves of each field: one lemma for a field and an update, all by rfl, so that
no proof about a meaning unfolds a record update.
-/
namespace Sys2Proof.Machine

variable (s : State) (g : Group)

/-! ## Updates of the state -/

@[simp] theorem State.setGrp_agenda (p : Nat) (x : Group) : (s.setGrp p x).agenda = s.agenda := rfl
@[simp] theorem State.setGrp_cur (p : Nat) (x : Group) : (s.setGrp p x).cur = s.cur := rfl
@[simp] theorem State.setGrp_turn (p : Nat) (x : Group) : (s.setGrp p x).turn = s.turn := rfl
@[simp] theorem State.setGrp_fresh (p : Nat) (x : Group) : (s.setGrp p x).fresh = s.fresh := rfl
@[simp] theorem State.setGrp_seq (p : Nat) (x : Group) : (s.setGrp p x).seq = s.seq := rfl
@[simp] theorem State.setGrp_gangs (p : Nat) (x : Group) : (s.setGrp p x).gangs = s.gangs := rfl
@[simp] theorem State.setGrp_saved (p : Nat) (x : Group) : (s.setGrp p x).saved = s.saved := rfl
@[simp] theorem State.setGrp_tasks (p : Nat) (x : Group) : (s.setGrp p x).tasks = s.tasks := rfl
@[simp] theorem State.setGrp_queues (p : Nat) (x : Group) : (s.setGrp p x).queues = s.queues := rfl
@[simp] theorem State.setGrp_cores (p : Nat) (x : Group) : (s.setGrp p x).cores = s.cores := rfl
@[simp] theorem State.setGrp_die0 (p : Nat) (x : Group) : (s.setGrp p x).die0 = s.die0 := rfl
@[simp] theorem State.setGrp_die1 (p : Nat) (x : Group) : (s.setGrp p x).die1 = s.die1 := rfl
@[simp] theorem State.setGrp_remote (p : Nat) (x : Group) : (s.setGrp p x).remote = s.remote := rfl
@[simp] theorem State.setGrp_waits (p : Nat) (x : Group) : (s.setGrp p x).waits = s.waits := rfl
@[simp] theorem State.setGrp_adds (p : Nat) (x : Group) : (s.setGrp p x).adds = s.adds := rfl
@[simp] theorem State.setGrp_pushes (p : Nat) (x : Group) : (s.setGrp p x).pushes = s.pushes := rfl
@[simp] theorem State.setGrp_downs (p : Nat) (x : Group) : (s.setGrp p x).downs = s.downs := rfl
@[simp] theorem State.setGrp_status (p : Nat) (x : Group) : (s.setGrp p x).status = s.status := rfl
@[simp] theorem State.setGrp_domain (p : Nat) (x : Group) : (s.setGrp p x).domain = s.domain := rfl
@[simp] theorem State.setGrp_sems (p : Nat) (x : Group) : (s.setGrp p x).sems = s.sems := rfl
@[simp] theorem State.setGrp_cap (p : Nat) (x : Group) : (s.setGrp p x).cap = s.cap := rfl
@[simp] theorem State.setGrp_thr (p : Nat) (x : Group) : (s.setGrp p x).thr = s.thr := rfl
@[simp] theorem State.setGrp_tdie (p : Nat) (x : Group) : (s.setGrp p x).tdie = s.tdie := rfl
@[simp] theorem State.setGrp_tin (p : Nat) (x : Group) : (s.setGrp p x).tin = s.tin := rfl
@[simp] theorem State.setGrp_vfs (p : Nat) (x : Group) : (s.setGrp p x).vfs = s.vfs := rfl
@[simp] theorem State.setGrp_vfCount (p : Nat) (x : Group) : (s.setGrp p x).vfCount = s.vfCount := rfl
@[simp] theorem State.setGrp_hostUp (p : Nat) (x : Group) : (s.setGrp p x).hostUp = s.hostUp := rfl
@[simp] theorem State.setGrp_hawser (p : Nat) (x : Group) : (s.setGrp p x).hawser = s.hawser := rfl
@[simp] theorem State.setGrp_portData (p : Nat) (x : Group) : (s.setGrp p x).portData = s.portData := rfl
@[simp] theorem State.setGrp_report (p : Nat) (x : Group) : (s.setGrp p x).report = s.report := rfl
@[simp] theorem State.setGrp_railOff (p : Nat) (x : Group) : (s.setGrp p x).railOff = s.railOff := rfl

@[simp] theorem State.delGrp_agenda (p : Nat) : (s.delGrp p).agenda = s.agenda := rfl
@[simp] theorem State.delGrp_cur (p : Nat) : (s.delGrp p).cur = s.cur := rfl
@[simp] theorem State.delGrp_turn (p : Nat) : (s.delGrp p).turn = s.turn := rfl
@[simp] theorem State.delGrp_fresh (p : Nat) : (s.delGrp p).fresh = s.fresh := rfl
@[simp] theorem State.delGrp_seq (p : Nat) : (s.delGrp p).seq = s.seq := rfl
@[simp] theorem State.delGrp_gangs (p : Nat) : (s.delGrp p).gangs = s.gangs := rfl
@[simp] theorem State.delGrp_saved (p : Nat) : (s.delGrp p).saved = s.saved := rfl
@[simp] theorem State.delGrp_tasks (p : Nat) : (s.delGrp p).tasks = s.tasks := rfl
@[simp] theorem State.delGrp_queues (p : Nat) : (s.delGrp p).queues = s.queues := rfl
@[simp] theorem State.delGrp_cores (p : Nat) : (s.delGrp p).cores = s.cores := rfl
@[simp] theorem State.delGrp_die0 (p : Nat) : (s.delGrp p).die0 = s.die0 := rfl
@[simp] theorem State.delGrp_die1 (p : Nat) : (s.delGrp p).die1 = s.die1 := rfl
@[simp] theorem State.delGrp_remote (p : Nat) : (s.delGrp p).remote = s.remote := rfl
@[simp] theorem State.delGrp_waits (p : Nat) : (s.delGrp p).waits = s.waits := rfl
@[simp] theorem State.delGrp_adds (p : Nat) : (s.delGrp p).adds = s.adds := rfl
@[simp] theorem State.delGrp_pushes (p : Nat) : (s.delGrp p).pushes = s.pushes := rfl
@[simp] theorem State.delGrp_downs (p : Nat) : (s.delGrp p).downs = s.downs := rfl
@[simp] theorem State.delGrp_status (p : Nat) : (s.delGrp p).status = s.status := rfl
@[simp] theorem State.delGrp_domain (p : Nat) : (s.delGrp p).domain = s.domain := rfl
@[simp] theorem State.delGrp_sems (p : Nat) : (s.delGrp p).sems = s.sems := rfl
@[simp] theorem State.delGrp_cap (p : Nat) : (s.delGrp p).cap = s.cap := rfl
@[simp] theorem State.delGrp_thr (p : Nat) : (s.delGrp p).thr = s.thr := rfl
@[simp] theorem State.delGrp_tdie (p : Nat) : (s.delGrp p).tdie = s.tdie := rfl
@[simp] theorem State.delGrp_tin (p : Nat) : (s.delGrp p).tin = s.tin := rfl
@[simp] theorem State.delGrp_vfs (p : Nat) : (s.delGrp p).vfs = s.vfs := rfl
@[simp] theorem State.delGrp_vfCount (p : Nat) : (s.delGrp p).vfCount = s.vfCount := rfl
@[simp] theorem State.delGrp_hostUp (p : Nat) : (s.delGrp p).hostUp = s.hostUp := rfl
@[simp] theorem State.delGrp_hawser (p : Nat) : (s.delGrp p).hawser = s.hawser := rfl
@[simp] theorem State.delGrp_portData (p : Nat) : (s.delGrp p).portData = s.portData := rfl
@[simp] theorem State.delGrp_report (p : Nat) : (s.delGrp p).report = s.report := rfl
@[simp] theorem State.delGrp_railOff (p : Nat) : (s.delGrp p).railOff = s.railOff := rfl

@[simp] theorem State.setCore_agenda (c : Nat) (x : Core) : (s.setCore c x).agenda = s.agenda := rfl
@[simp] theorem State.setCore_cur (c : Nat) (x : Core) : (s.setCore c x).cur = s.cur := rfl
@[simp] theorem State.setCore_turn (c : Nat) (x : Core) : (s.setCore c x).turn = s.turn := rfl
@[simp] theorem State.setCore_fresh (c : Nat) (x : Core) : (s.setCore c x).fresh = s.fresh := rfl
@[simp] theorem State.setCore_seq (c : Nat) (x : Core) : (s.setCore c x).seq = s.seq := rfl
@[simp] theorem State.setCore_groups (c : Nat) (x : Core) : (s.setCore c x).groups = s.groups := rfl
@[simp] theorem State.setCore_gangs (c : Nat) (x : Core) : (s.setCore c x).gangs = s.gangs := rfl
@[simp] theorem State.setCore_saved (c : Nat) (x : Core) : (s.setCore c x).saved = s.saved := rfl
@[simp] theorem State.setCore_tasks (c : Nat) (x : Core) : (s.setCore c x).tasks = s.tasks := rfl
@[simp] theorem State.setCore_queues (c : Nat) (x : Core) : (s.setCore c x).queues = s.queues := rfl
@[simp] theorem State.setCore_die0 (c : Nat) (x : Core) : (s.setCore c x).die0 = s.die0 := rfl
@[simp] theorem State.setCore_die1 (c : Nat) (x : Core) : (s.setCore c x).die1 = s.die1 := rfl
@[simp] theorem State.setCore_remote (c : Nat) (x : Core) : (s.setCore c x).remote = s.remote := rfl
@[simp] theorem State.setCore_waits (c : Nat) (x : Core) : (s.setCore c x).waits = s.waits := rfl
@[simp] theorem State.setCore_adds (c : Nat) (x : Core) : (s.setCore c x).adds = s.adds := rfl
@[simp] theorem State.setCore_pushes (c : Nat) (x : Core) : (s.setCore c x).pushes = s.pushes := rfl
@[simp] theorem State.setCore_downs (c : Nat) (x : Core) : (s.setCore c x).downs = s.downs := rfl
@[simp] theorem State.setCore_status (c : Nat) (x : Core) : (s.setCore c x).status = s.status := rfl
@[simp] theorem State.setCore_domain (c : Nat) (x : Core) : (s.setCore c x).domain = s.domain := rfl
@[simp] theorem State.setCore_sems (c : Nat) (x : Core) : (s.setCore c x).sems = s.sems := rfl
@[simp] theorem State.setCore_cap (c : Nat) (x : Core) : (s.setCore c x).cap = s.cap := rfl
@[simp] theorem State.setCore_thr (c : Nat) (x : Core) : (s.setCore c x).thr = s.thr := rfl
@[simp] theorem State.setCore_tdie (c : Nat) (x : Core) : (s.setCore c x).tdie = s.tdie := rfl
@[simp] theorem State.setCore_tin (c : Nat) (x : Core) : (s.setCore c x).tin = s.tin := rfl
@[simp] theorem State.setCore_vfs (c : Nat) (x : Core) : (s.setCore c x).vfs = s.vfs := rfl
@[simp] theorem State.setCore_vfCount (c : Nat) (x : Core) : (s.setCore c x).vfCount = s.vfCount := rfl
@[simp] theorem State.setCore_hostUp (c : Nat) (x : Core) : (s.setCore c x).hostUp = s.hostUp := rfl
@[simp] theorem State.setCore_hawser (c : Nat) (x : Core) : (s.setCore c x).hawser = s.hawser := rfl
@[simp] theorem State.setCore_portData (c : Nat) (x : Core) : (s.setCore c x).portData = s.portData := rfl
@[simp] theorem State.setCore_report (c : Nat) (x : Core) : (s.setCore c x).report = s.report := rfl
@[simp] theorem State.setCore_railOff (c : Nat) (x : Core) : (s.setCore c x).railOff = s.railOff := rfl

@[simp] theorem State.setQueue_agenda (q : Nat) (x : QDesc) : (s.setQueue q x).agenda = s.agenda := rfl
@[simp] theorem State.setQueue_cur (q : Nat) (x : QDesc) : (s.setQueue q x).cur = s.cur := rfl
@[simp] theorem State.setQueue_turn (q : Nat) (x : QDesc) : (s.setQueue q x).turn = s.turn := rfl
@[simp] theorem State.setQueue_fresh (q : Nat) (x : QDesc) : (s.setQueue q x).fresh = s.fresh := rfl
@[simp] theorem State.setQueue_seq (q : Nat) (x : QDesc) : (s.setQueue q x).seq = s.seq := rfl
@[simp] theorem State.setQueue_groups (q : Nat) (x : QDesc) : (s.setQueue q x).groups = s.groups := rfl
@[simp] theorem State.setQueue_gangs (q : Nat) (x : QDesc) : (s.setQueue q x).gangs = s.gangs := rfl
@[simp] theorem State.setQueue_saved (q : Nat) (x : QDesc) : (s.setQueue q x).saved = s.saved := rfl
@[simp] theorem State.setQueue_tasks (q : Nat) (x : QDesc) : (s.setQueue q x).tasks = s.tasks := rfl
@[simp] theorem State.setQueue_cores (q : Nat) (x : QDesc) : (s.setQueue q x).cores = s.cores := rfl
@[simp] theorem State.setQueue_die0 (q : Nat) (x : QDesc) : (s.setQueue q x).die0 = s.die0 := rfl
@[simp] theorem State.setQueue_die1 (q : Nat) (x : QDesc) : (s.setQueue q x).die1 = s.die1 := rfl
@[simp] theorem State.setQueue_remote (q : Nat) (x : QDesc) : (s.setQueue q x).remote = s.remote := rfl
@[simp] theorem State.setQueue_waits (q : Nat) (x : QDesc) : (s.setQueue q x).waits = s.waits := rfl
@[simp] theorem State.setQueue_adds (q : Nat) (x : QDesc) : (s.setQueue q x).adds = s.adds := rfl
@[simp] theorem State.setQueue_pushes (q : Nat) (x : QDesc) : (s.setQueue q x).pushes = s.pushes := rfl
@[simp] theorem State.setQueue_downs (q : Nat) (x : QDesc) : (s.setQueue q x).downs = s.downs := rfl
@[simp] theorem State.setQueue_status (q : Nat) (x : QDesc) : (s.setQueue q x).status = s.status := rfl
@[simp] theorem State.setQueue_domain (q : Nat) (x : QDesc) : (s.setQueue q x).domain = s.domain := rfl
@[simp] theorem State.setQueue_sems (q : Nat) (x : QDesc) : (s.setQueue q x).sems = s.sems := rfl
@[simp] theorem State.setQueue_cap (q : Nat) (x : QDesc) : (s.setQueue q x).cap = s.cap := rfl
@[simp] theorem State.setQueue_thr (q : Nat) (x : QDesc) : (s.setQueue q x).thr = s.thr := rfl
@[simp] theorem State.setQueue_tdie (q : Nat) (x : QDesc) : (s.setQueue q x).tdie = s.tdie := rfl
@[simp] theorem State.setQueue_tin (q : Nat) (x : QDesc) : (s.setQueue q x).tin = s.tin := rfl
@[simp] theorem State.setQueue_vfs (q : Nat) (x : QDesc) : (s.setQueue q x).vfs = s.vfs := rfl
@[simp] theorem State.setQueue_vfCount (q : Nat) (x : QDesc) : (s.setQueue q x).vfCount = s.vfCount := rfl
@[simp] theorem State.setQueue_hostUp (q : Nat) (x : QDesc) : (s.setQueue q x).hostUp = s.hostUp := rfl
@[simp] theorem State.setQueue_hawser (q : Nat) (x : QDesc) : (s.setQueue q x).hawser = s.hawser := rfl
@[simp] theorem State.setQueue_portData (q : Nat) (x : QDesc) : (s.setQueue q x).portData = s.portData := rfl
@[simp] theorem State.setQueue_report (q : Nat) (x : QDesc) : (s.setQueue q x).report = s.report := rfl
@[simp] theorem State.setQueue_railOff (q : Nat) (x : QDesc) : (s.setQueue q x).railOff = s.railOff := rfl

@[simp] theorem State.setTask_agenda (q n : Nat) (x : Task) : (s.setTask q n x).agenda = s.agenda := rfl
@[simp] theorem State.setTask_cur (q n : Nat) (x : Task) : (s.setTask q n x).cur = s.cur := rfl
@[simp] theorem State.setTask_turn (q n : Nat) (x : Task) : (s.setTask q n x).turn = s.turn := rfl
@[simp] theorem State.setTask_fresh (q n : Nat) (x : Task) : (s.setTask q n x).fresh = s.fresh := rfl
@[simp] theorem State.setTask_seq (q n : Nat) (x : Task) : (s.setTask q n x).seq = s.seq := rfl
@[simp] theorem State.setTask_groups (q n : Nat) (x : Task) : (s.setTask q n x).groups = s.groups := rfl
@[simp] theorem State.setTask_gangs (q n : Nat) (x : Task) : (s.setTask q n x).gangs = s.gangs := rfl
@[simp] theorem State.setTask_saved (q n : Nat) (x : Task) : (s.setTask q n x).saved = s.saved := rfl
@[simp] theorem State.setTask_queues (q n : Nat) (x : Task) : (s.setTask q n x).queues = s.queues := rfl
@[simp] theorem State.setTask_cores (q n : Nat) (x : Task) : (s.setTask q n x).cores = s.cores := rfl
@[simp] theorem State.setTask_die0 (q n : Nat) (x : Task) : (s.setTask q n x).die0 = s.die0 := rfl
@[simp] theorem State.setTask_die1 (q n : Nat) (x : Task) : (s.setTask q n x).die1 = s.die1 := rfl
@[simp] theorem State.setTask_remote (q n : Nat) (x : Task) : (s.setTask q n x).remote = s.remote := rfl
@[simp] theorem State.setTask_waits (q n : Nat) (x : Task) : (s.setTask q n x).waits = s.waits := rfl
@[simp] theorem State.setTask_adds (q n : Nat) (x : Task) : (s.setTask q n x).adds = s.adds := rfl
@[simp] theorem State.setTask_pushes (q n : Nat) (x : Task) : (s.setTask q n x).pushes = s.pushes := rfl
@[simp] theorem State.setTask_downs (q n : Nat) (x : Task) : (s.setTask q n x).downs = s.downs := rfl
@[simp] theorem State.setTask_status (q n : Nat) (x : Task) : (s.setTask q n x).status = s.status := rfl
@[simp] theorem State.setTask_domain (q n : Nat) (x : Task) : (s.setTask q n x).domain = s.domain := rfl
@[simp] theorem State.setTask_sems (q n : Nat) (x : Task) : (s.setTask q n x).sems = s.sems := rfl
@[simp] theorem State.setTask_cap (q n : Nat) (x : Task) : (s.setTask q n x).cap = s.cap := rfl
@[simp] theorem State.setTask_thr (q n : Nat) (x : Task) : (s.setTask q n x).thr = s.thr := rfl
@[simp] theorem State.setTask_tdie (q n : Nat) (x : Task) : (s.setTask q n x).tdie = s.tdie := rfl
@[simp] theorem State.setTask_tin (q n : Nat) (x : Task) : (s.setTask q n x).tin = s.tin := rfl
@[simp] theorem State.setTask_vfs (q n : Nat) (x : Task) : (s.setTask q n x).vfs = s.vfs := rfl
@[simp] theorem State.setTask_vfCount (q n : Nat) (x : Task) : (s.setTask q n x).vfCount = s.vfCount := rfl
@[simp] theorem State.setTask_hostUp (q n : Nat) (x : Task) : (s.setTask q n x).hostUp = s.hostUp := rfl
@[simp] theorem State.setTask_hawser (q n : Nat) (x : Task) : (s.setTask q n x).hawser = s.hawser := rfl
@[simp] theorem State.setTask_portData (q n : Nat) (x : Task) : (s.setTask q n x).portData = s.portData := rfl
@[simp] theorem State.setTask_report (q n : Nat) (x : Task) : (s.setTask q n x).report = s.report := rfl
@[simp] theorem State.setTask_railOff (q n : Nat) (x : Task) : (s.setTask q n x).railOff = s.railOff := rfl

@[simp] theorem State.modCore_agenda (c : Nat) (f : Core → Core) : (s.modCore c f).agenda = s.agenda := rfl
@[simp] theorem State.modCore_cur (c : Nat) (f : Core → Core) : (s.modCore c f).cur = s.cur := rfl
@[simp] theorem State.modCore_turn (c : Nat) (f : Core → Core) : (s.modCore c f).turn = s.turn := rfl
@[simp] theorem State.modCore_fresh (c : Nat) (f : Core → Core) : (s.modCore c f).fresh = s.fresh := rfl
@[simp] theorem State.modCore_seq (c : Nat) (f : Core → Core) : (s.modCore c f).seq = s.seq := rfl
@[simp] theorem State.modCore_groups (c : Nat) (f : Core → Core) : (s.modCore c f).groups = s.groups := rfl
@[simp] theorem State.modCore_gangs (c : Nat) (f : Core → Core) : (s.modCore c f).gangs = s.gangs := rfl
@[simp] theorem State.modCore_saved (c : Nat) (f : Core → Core) : (s.modCore c f).saved = s.saved := rfl
@[simp] theorem State.modCore_tasks (c : Nat) (f : Core → Core) : (s.modCore c f).tasks = s.tasks := rfl
@[simp] theorem State.modCore_queues (c : Nat) (f : Core → Core) : (s.modCore c f).queues = s.queues := rfl
@[simp] theorem State.modCore_die0 (c : Nat) (f : Core → Core) : (s.modCore c f).die0 = s.die0 := rfl
@[simp] theorem State.modCore_die1 (c : Nat) (f : Core → Core) : (s.modCore c f).die1 = s.die1 := rfl
@[simp] theorem State.modCore_remote (c : Nat) (f : Core → Core) : (s.modCore c f).remote = s.remote := rfl
@[simp] theorem State.modCore_waits (c : Nat) (f : Core → Core) : (s.modCore c f).waits = s.waits := rfl
@[simp] theorem State.modCore_adds (c : Nat) (f : Core → Core) : (s.modCore c f).adds = s.adds := rfl
@[simp] theorem State.modCore_pushes (c : Nat) (f : Core → Core) : (s.modCore c f).pushes = s.pushes := rfl
@[simp] theorem State.modCore_downs (c : Nat) (f : Core → Core) : (s.modCore c f).downs = s.downs := rfl
@[simp] theorem State.modCore_status (c : Nat) (f : Core → Core) : (s.modCore c f).status = s.status := rfl
@[simp] theorem State.modCore_domain (c : Nat) (f : Core → Core) : (s.modCore c f).domain = s.domain := rfl
@[simp] theorem State.modCore_sems (c : Nat) (f : Core → Core) : (s.modCore c f).sems = s.sems := rfl
@[simp] theorem State.modCore_cap (c : Nat) (f : Core → Core) : (s.modCore c f).cap = s.cap := rfl
@[simp] theorem State.modCore_thr (c : Nat) (f : Core → Core) : (s.modCore c f).thr = s.thr := rfl
@[simp] theorem State.modCore_tdie (c : Nat) (f : Core → Core) : (s.modCore c f).tdie = s.tdie := rfl
@[simp] theorem State.modCore_tin (c : Nat) (f : Core → Core) : (s.modCore c f).tin = s.tin := rfl
@[simp] theorem State.modCore_vfs (c : Nat) (f : Core → Core) : (s.modCore c f).vfs = s.vfs := rfl
@[simp] theorem State.modCore_vfCount (c : Nat) (f : Core → Core) : (s.modCore c f).vfCount = s.vfCount := rfl
@[simp] theorem State.modCore_hostUp (c : Nat) (f : Core → Core) : (s.modCore c f).hostUp = s.hostUp := rfl
@[simp] theorem State.modCore_hawser (c : Nat) (f : Core → Core) : (s.modCore c f).hawser = s.hawser := rfl
@[simp] theorem State.modCore_portData (c : Nat) (f : Core → Core) : (s.modCore c f).portData = s.portData := rfl
@[simp] theorem State.modCore_report (c : Nat) (f : Core → Core) : (s.modCore c f).report = s.report := rfl
@[simp] theorem State.modCore_railOff (c : Nat) (f : Core → Core) : (s.modCore c f).railOff = s.railOff := rfl

@[simp] theorem State.endTurn_agenda : (s.endTurn).agenda = s.agenda := rfl
@[simp] theorem State.endTurn_turn : (s.endTurn).turn = s.turn := rfl
@[simp] theorem State.endTurn_fresh : (s.endTurn).fresh = s.fresh := rfl
@[simp] theorem State.endTurn_seq : (s.endTurn).seq = s.seq := rfl
@[simp] theorem State.endTurn_groups : (s.endTurn).groups = s.groups := rfl
@[simp] theorem State.endTurn_gangs : (s.endTurn).gangs = s.gangs := rfl
@[simp] theorem State.endTurn_saved : (s.endTurn).saved = s.saved := rfl
@[simp] theorem State.endTurn_tasks : (s.endTurn).tasks = s.tasks := rfl
@[simp] theorem State.endTurn_queues : (s.endTurn).queues = s.queues := rfl
@[simp] theorem State.endTurn_cores : (s.endTurn).cores = s.cores := rfl
@[simp] theorem State.endTurn_die0 : (s.endTurn).die0 = s.die0 := rfl
@[simp] theorem State.endTurn_die1 : (s.endTurn).die1 = s.die1 := rfl
@[simp] theorem State.endTurn_remote : (s.endTurn).remote = s.remote := rfl
@[simp] theorem State.endTurn_waits : (s.endTurn).waits = s.waits := rfl
@[simp] theorem State.endTurn_adds : (s.endTurn).adds = s.adds := rfl
@[simp] theorem State.endTurn_pushes : (s.endTurn).pushes = s.pushes := rfl
@[simp] theorem State.endTurn_downs : (s.endTurn).downs = s.downs := rfl
@[simp] theorem State.endTurn_status : (s.endTurn).status = s.status := rfl
@[simp] theorem State.endTurn_domain : (s.endTurn).domain = s.domain := rfl
@[simp] theorem State.endTurn_sems : (s.endTurn).sems = s.sems := rfl
@[simp] theorem State.endTurn_cap : (s.endTurn).cap = s.cap := rfl
@[simp] theorem State.endTurn_thr : (s.endTurn).thr = s.thr := rfl
@[simp] theorem State.endTurn_tdie : (s.endTurn).tdie = s.tdie := rfl
@[simp] theorem State.endTurn_tin : (s.endTurn).tin = s.tin := rfl
@[simp] theorem State.endTurn_vfs : (s.endTurn).vfs = s.vfs := rfl
@[simp] theorem State.endTurn_vfCount : (s.endTurn).vfCount = s.vfCount := rfl
@[simp] theorem State.endTurn_hostUp : (s.endTurn).hostUp = s.hostUp := rfl
@[simp] theorem State.endTurn_hawser : (s.endTurn).hawser = s.hawser := rfl
@[simp] theorem State.endTurn_portData : (s.endTurn).portData = s.portData := rfl
@[simp] theorem State.endTurn_report : (s.endTurn).report = s.report := rfl
@[simp] theorem State.endTurn_railOff : (s.endTurn).railOff = s.railOff := rfl

@[simp] theorem State.tick_agenda : (s.tick).agenda = s.agenda := rfl
@[simp] theorem State.tick_cur : (s.tick).cur = s.cur := rfl
@[simp] theorem State.tick_turn : (s.tick).turn = s.turn := rfl
@[simp] theorem State.tick_fresh : (s.tick).fresh = s.fresh := rfl
@[simp] theorem State.tick_groups : (s.tick).groups = s.groups := rfl
@[simp] theorem State.tick_gangs : (s.tick).gangs = s.gangs := rfl
@[simp] theorem State.tick_saved : (s.tick).saved = s.saved := rfl
@[simp] theorem State.tick_tasks : (s.tick).tasks = s.tasks := rfl
@[simp] theorem State.tick_queues : (s.tick).queues = s.queues := rfl
@[simp] theorem State.tick_cores : (s.tick).cores = s.cores := rfl
@[simp] theorem State.tick_die0 : (s.tick).die0 = s.die0 := rfl
@[simp] theorem State.tick_die1 : (s.tick).die1 = s.die1 := rfl
@[simp] theorem State.tick_remote : (s.tick).remote = s.remote := rfl
@[simp] theorem State.tick_waits : (s.tick).waits = s.waits := rfl
@[simp] theorem State.tick_adds : (s.tick).adds = s.adds := rfl
@[simp] theorem State.tick_pushes : (s.tick).pushes = s.pushes := rfl
@[simp] theorem State.tick_downs : (s.tick).downs = s.downs := rfl
@[simp] theorem State.tick_status : (s.tick).status = s.status := rfl
@[simp] theorem State.tick_domain : (s.tick).domain = s.domain := rfl
@[simp] theorem State.tick_sems : (s.tick).sems = s.sems := rfl
@[simp] theorem State.tick_cap : (s.tick).cap = s.cap := rfl
@[simp] theorem State.tick_thr : (s.tick).thr = s.thr := rfl
@[simp] theorem State.tick_tdie : (s.tick).tdie = s.tdie := rfl
@[simp] theorem State.tick_tin : (s.tick).tin = s.tin := rfl
@[simp] theorem State.tick_vfs : (s.tick).vfs = s.vfs := rfl
@[simp] theorem State.tick_vfCount : (s.tick).vfCount = s.vfCount := rfl
@[simp] theorem State.tick_hostUp : (s.tick).hostUp = s.hostUp := rfl
@[simp] theorem State.tick_hawser : (s.tick).hawser = s.hawser := rfl
@[simp] theorem State.tick_portData : (s.tick).portData = s.portData := rfl
@[simp] theorem State.tick_report : (s.tick).report = s.report := rfl
@[simp] theorem State.tick_railOff : (s.tick).railOff = s.railOff := rfl

@[simp] theorem State.first_cur (xs : List Instr) : (s.first xs).cur = s.cur := rfl
@[simp] theorem State.first_turn (xs : List Instr) : (s.first xs).turn = s.turn := rfl
@[simp] theorem State.first_fresh (xs : List Instr) : (s.first xs).fresh = s.fresh := rfl
@[simp] theorem State.first_seq (xs : List Instr) : (s.first xs).seq = s.seq := rfl
@[simp] theorem State.first_groups (xs : List Instr) : (s.first xs).groups = s.groups := rfl
@[simp] theorem State.first_gangs (xs : List Instr) : (s.first xs).gangs = s.gangs := rfl
@[simp] theorem State.first_saved (xs : List Instr) : (s.first xs).saved = s.saved := rfl
@[simp] theorem State.first_tasks (xs : List Instr) : (s.first xs).tasks = s.tasks := rfl
@[simp] theorem State.first_queues (xs : List Instr) : (s.first xs).queues = s.queues := rfl
@[simp] theorem State.first_cores (xs : List Instr) : (s.first xs).cores = s.cores := rfl
@[simp] theorem State.first_die0 (xs : List Instr) : (s.first xs).die0 = s.die0 := rfl
@[simp] theorem State.first_die1 (xs : List Instr) : (s.first xs).die1 = s.die1 := rfl
@[simp] theorem State.first_remote (xs : List Instr) : (s.first xs).remote = s.remote := rfl
@[simp] theorem State.first_waits (xs : List Instr) : (s.first xs).waits = s.waits := rfl
@[simp] theorem State.first_adds (xs : List Instr) : (s.first xs).adds = s.adds := rfl
@[simp] theorem State.first_pushes (xs : List Instr) : (s.first xs).pushes = s.pushes := rfl
@[simp] theorem State.first_downs (xs : List Instr) : (s.first xs).downs = s.downs := rfl
@[simp] theorem State.first_status (xs : List Instr) : (s.first xs).status = s.status := rfl
@[simp] theorem State.first_domain (xs : List Instr) : (s.first xs).domain = s.domain := rfl
@[simp] theorem State.first_sems (xs : List Instr) : (s.first xs).sems = s.sems := rfl
@[simp] theorem State.first_cap (xs : List Instr) : (s.first xs).cap = s.cap := rfl
@[simp] theorem State.first_thr (xs : List Instr) : (s.first xs).thr = s.thr := rfl
@[simp] theorem State.first_tdie (xs : List Instr) : (s.first xs).tdie = s.tdie := rfl
@[simp] theorem State.first_tin (xs : List Instr) : (s.first xs).tin = s.tin := rfl
@[simp] theorem State.first_vfs (xs : List Instr) : (s.first xs).vfs = s.vfs := rfl
@[simp] theorem State.first_vfCount (xs : List Instr) : (s.first xs).vfCount = s.vfCount := rfl
@[simp] theorem State.first_hostUp (xs : List Instr) : (s.first xs).hostUp = s.hostUp := rfl
@[simp] theorem State.first_hawser (xs : List Instr) : (s.first xs).hawser = s.hawser := rfl
@[simp] theorem State.first_portData (xs : List Instr) : (s.first xs).portData = s.portData := rfl
@[simp] theorem State.first_report (xs : List Instr) : (s.first xs).report = s.report := rfl
@[simp] theorem State.first_railOff (xs : List Instr) : (s.first xs).railOff = s.railOff := rfl

@[simp] theorem State.setDie_agenda (d : Nat) (x : Die) : (s.setDie d x).agenda = s.agenda := by
  unfold State.setDie; repeat (split <;> try rfl)
@[simp] theorem State.setDie_cur (d : Nat) (x : Die) : (s.setDie d x).cur = s.cur := by
  unfold State.setDie; repeat (split <;> try rfl)
@[simp] theorem State.setDie_turn (d : Nat) (x : Die) : (s.setDie d x).turn = s.turn := by
  unfold State.setDie; repeat (split <;> try rfl)
@[simp] theorem State.setDie_fresh (d : Nat) (x : Die) : (s.setDie d x).fresh = s.fresh := by
  unfold State.setDie; repeat (split <;> try rfl)
@[simp] theorem State.setDie_seq (d : Nat) (x : Die) : (s.setDie d x).seq = s.seq := by
  unfold State.setDie; repeat (split <;> try rfl)
@[simp] theorem State.setDie_groups (d : Nat) (x : Die) : (s.setDie d x).groups = s.groups := by
  unfold State.setDie; repeat (split <;> try rfl)
@[simp] theorem State.setDie_gangs (d : Nat) (x : Die) : (s.setDie d x).gangs = s.gangs := by
  unfold State.setDie; repeat (split <;> try rfl)
@[simp] theorem State.setDie_saved (d : Nat) (x : Die) : (s.setDie d x).saved = s.saved := by
  unfold State.setDie; repeat (split <;> try rfl)
@[simp] theorem State.setDie_tasks (d : Nat) (x : Die) : (s.setDie d x).tasks = s.tasks := by
  unfold State.setDie; repeat (split <;> try rfl)
@[simp] theorem State.setDie_queues (d : Nat) (x : Die) : (s.setDie d x).queues = s.queues := by
  unfold State.setDie; repeat (split <;> try rfl)
@[simp] theorem State.setDie_cores (d : Nat) (x : Die) : (s.setDie d x).cores = s.cores := by
  unfold State.setDie; repeat (split <;> try rfl)
@[simp] theorem State.setDie_waits (d : Nat) (x : Die) : (s.setDie d x).waits = s.waits := by
  unfold State.setDie; repeat (split <;> try rfl)
@[simp] theorem State.setDie_adds (d : Nat) (x : Die) : (s.setDie d x).adds = s.adds := by
  unfold State.setDie; repeat (split <;> try rfl)
@[simp] theorem State.setDie_pushes (d : Nat) (x : Die) : (s.setDie d x).pushes = s.pushes := by
  unfold State.setDie; repeat (split <;> try rfl)
@[simp] theorem State.setDie_downs (d : Nat) (x : Die) : (s.setDie d x).downs = s.downs := by
  unfold State.setDie; repeat (split <;> try rfl)
@[simp] theorem State.setDie_status (d : Nat) (x : Die) : (s.setDie d x).status = s.status := by
  unfold State.setDie; repeat (split <;> try rfl)
@[simp] theorem State.setDie_domain (d : Nat) (x : Die) : (s.setDie d x).domain = s.domain := by
  unfold State.setDie; repeat (split <;> try rfl)
@[simp] theorem State.setDie_sems (d : Nat) (x : Die) : (s.setDie d x).sems = s.sems := by
  unfold State.setDie; repeat (split <;> try rfl)
@[simp] theorem State.setDie_cap (d : Nat) (x : Die) : (s.setDie d x).cap = s.cap := by
  unfold State.setDie; repeat (split <;> try rfl)
@[simp] theorem State.setDie_thr (d : Nat) (x : Die) : (s.setDie d x).thr = s.thr := by
  unfold State.setDie; repeat (split <;> try rfl)
@[simp] theorem State.setDie_tdie (d : Nat) (x : Die) : (s.setDie d x).tdie = s.tdie := by
  unfold State.setDie; repeat (split <;> try rfl)
@[simp] theorem State.setDie_tin (d : Nat) (x : Die) : (s.setDie d x).tin = s.tin := by
  unfold State.setDie; repeat (split <;> try rfl)
@[simp] theorem State.setDie_vfs (d : Nat) (x : Die) : (s.setDie d x).vfs = s.vfs := by
  unfold State.setDie; repeat (split <;> try rfl)
@[simp] theorem State.setDie_vfCount (d : Nat) (x : Die) : (s.setDie d x).vfCount = s.vfCount := by
  unfold State.setDie; repeat (split <;> try rfl)
@[simp] theorem State.setDie_hostUp (d : Nat) (x : Die) : (s.setDie d x).hostUp = s.hostUp := by
  unfold State.setDie; repeat (split <;> try rfl)
@[simp] theorem State.setDie_hawser (d : Nat) (x : Die) : (s.setDie d x).hawser = s.hawser := by
  unfold State.setDie; repeat (split <;> try rfl)
@[simp] theorem State.setDie_portData (d : Nat) (x : Die) : (s.setDie d x).portData = s.portData := by
  unfold State.setDie; repeat (split <;> try rfl)
@[simp] theorem State.setDie_report (d : Nat) (x : Die) : (s.setDie d x).report = s.report := by
  unfold State.setDie; repeat (split <;> try rfl)
@[simp] theorem State.setDie_railOff (d : Nat) (x : Die) : (s.setDie d x).railOff = s.railOff := by
  unfold State.setDie; repeat (split <;> try rfl)

@[simp] theorem State.modDie_agenda (d : Nat) (f : Die → Die) : (s.modDie d f).agenda = s.agenda := by
  unfold State.modDie State.setDie; repeat (split <;> try rfl)
@[simp] theorem State.modDie_cur (d : Nat) (f : Die → Die) : (s.modDie d f).cur = s.cur := by
  unfold State.modDie State.setDie; repeat (split <;> try rfl)
@[simp] theorem State.modDie_turn (d : Nat) (f : Die → Die) : (s.modDie d f).turn = s.turn := by
  unfold State.modDie State.setDie; repeat (split <;> try rfl)
@[simp] theorem State.modDie_fresh (d : Nat) (f : Die → Die) : (s.modDie d f).fresh = s.fresh := by
  unfold State.modDie State.setDie; repeat (split <;> try rfl)
@[simp] theorem State.modDie_seq (d : Nat) (f : Die → Die) : (s.modDie d f).seq = s.seq := by
  unfold State.modDie State.setDie; repeat (split <;> try rfl)
@[simp] theorem State.modDie_groups (d : Nat) (f : Die → Die) : (s.modDie d f).groups = s.groups := by
  unfold State.modDie State.setDie; repeat (split <;> try rfl)
@[simp] theorem State.modDie_gangs (d : Nat) (f : Die → Die) : (s.modDie d f).gangs = s.gangs := by
  unfold State.modDie State.setDie; repeat (split <;> try rfl)
@[simp] theorem State.modDie_saved (d : Nat) (f : Die → Die) : (s.modDie d f).saved = s.saved := by
  unfold State.modDie State.setDie; repeat (split <;> try rfl)
@[simp] theorem State.modDie_tasks (d : Nat) (f : Die → Die) : (s.modDie d f).tasks = s.tasks := by
  unfold State.modDie State.setDie; repeat (split <;> try rfl)
@[simp] theorem State.modDie_queues (d : Nat) (f : Die → Die) : (s.modDie d f).queues = s.queues := by
  unfold State.modDie State.setDie; repeat (split <;> try rfl)
@[simp] theorem State.modDie_cores (d : Nat) (f : Die → Die) : (s.modDie d f).cores = s.cores := by
  unfold State.modDie State.setDie; repeat (split <;> try rfl)
@[simp] theorem State.modDie_waits (d : Nat) (f : Die → Die) : (s.modDie d f).waits = s.waits := by
  unfold State.modDie State.setDie; repeat (split <;> try rfl)
@[simp] theorem State.modDie_adds (d : Nat) (f : Die → Die) : (s.modDie d f).adds = s.adds := by
  unfold State.modDie State.setDie; repeat (split <;> try rfl)
@[simp] theorem State.modDie_pushes (d : Nat) (f : Die → Die) : (s.modDie d f).pushes = s.pushes := by
  unfold State.modDie State.setDie; repeat (split <;> try rfl)
@[simp] theorem State.modDie_downs (d : Nat) (f : Die → Die) : (s.modDie d f).downs = s.downs := by
  unfold State.modDie State.setDie; repeat (split <;> try rfl)
@[simp] theorem State.modDie_status (d : Nat) (f : Die → Die) : (s.modDie d f).status = s.status := by
  unfold State.modDie State.setDie; repeat (split <;> try rfl)
@[simp] theorem State.modDie_domain (d : Nat) (f : Die → Die) : (s.modDie d f).domain = s.domain := by
  unfold State.modDie State.setDie; repeat (split <;> try rfl)
@[simp] theorem State.modDie_sems (d : Nat) (f : Die → Die) : (s.modDie d f).sems = s.sems := by
  unfold State.modDie State.setDie; repeat (split <;> try rfl)
@[simp] theorem State.modDie_cap (d : Nat) (f : Die → Die) : (s.modDie d f).cap = s.cap := by
  unfold State.modDie State.setDie; repeat (split <;> try rfl)
@[simp] theorem State.modDie_thr (d : Nat) (f : Die → Die) : (s.modDie d f).thr = s.thr := by
  unfold State.modDie State.setDie; repeat (split <;> try rfl)
@[simp] theorem State.modDie_tdie (d : Nat) (f : Die → Die) : (s.modDie d f).tdie = s.tdie := by
  unfold State.modDie State.setDie; repeat (split <;> try rfl)
@[simp] theorem State.modDie_tin (d : Nat) (f : Die → Die) : (s.modDie d f).tin = s.tin := by
  unfold State.modDie State.setDie; repeat (split <;> try rfl)
@[simp] theorem State.modDie_vfs (d : Nat) (f : Die → Die) : (s.modDie d f).vfs = s.vfs := by
  unfold State.modDie State.setDie; repeat (split <;> try rfl)
@[simp] theorem State.modDie_vfCount (d : Nat) (f : Die → Die) : (s.modDie d f).vfCount = s.vfCount := by
  unfold State.modDie State.setDie; repeat (split <;> try rfl)
@[simp] theorem State.modDie_hostUp (d : Nat) (f : Die → Die) : (s.modDie d f).hostUp = s.hostUp := by
  unfold State.modDie State.setDie; repeat (split <;> try rfl)
@[simp] theorem State.modDie_hawser (d : Nat) (f : Die → Die) : (s.modDie d f).hawser = s.hawser := by
  unfold State.modDie State.setDie; repeat (split <;> try rfl)
@[simp] theorem State.modDie_portData (d : Nat) (f : Die → Die) : (s.modDie d f).portData = s.portData := by
  unfold State.modDie State.setDie; repeat (split <;> try rfl)
@[simp] theorem State.modDie_report (d : Nat) (f : Die → Die) : (s.modDie d f).report = s.report := by
  unfold State.modDie State.setDie; repeat (split <;> try rfl)
@[simp] theorem State.modDie_railOff (d : Nat) (f : Die → Die) : (s.modDie d f).railOff = s.railOff := by
  unfold State.modDie State.setDie; repeat (split <;> try rfl)

@[simp] theorem State.setGrp_groups (p : Nat) (x : Group) : (s.setGrp p x).groups = s.groups.put p x := rfl
@[simp] theorem State.delGrp_groups (p : Nat) : (s.delGrp p).groups = s.groups.del p := rfl
@[simp] theorem State.setCore_cores (c : Nat) (x : Core) : (s.setCore c x).cores = s.cores.setD c x Core.reset := rfl
@[simp] theorem State.setQueue_queues (q : Nat) (x : QDesc) : (s.setQueue q x).queues = s.queues.setD q x QDesc.reset := rfl
@[simp] theorem State.setTask_tasks (q n : Nat) (x : Task) : (s.setTask q n x).tasks = s.tasks.put (taskKey q n) x := rfl
@[simp] theorem State.endTurn_cur : s.endTurn.cur = none := rfl
@[simp] theorem State.tick_seq : s.tick.seq = s.seq + 1 := rfl
@[simp] theorem State.first_agenda (xs : List Instr) : (s.first xs).agenda = xs ++ s.agenda := rfl
@[simp] theorem State.setDie_zero (x : Die) : (s.setDie 0 x).die0 = x := rfl
@[simp] theorem State.setDie_zero_other (x : Die) : (s.setDie 0 x).die1 = s.die1 := rfl
@[simp] theorem State.setDie_one (x : Die) : (s.setDie 1 x).die1 = x := rfl
@[simp] theorem State.setDie_one_other (x : Die) : (s.setDie 1 x).die0 = s.die0 := rfl
@[simp] theorem State.setDie_zero_remote (x : Die) : (s.setDie 0 x).remote = s.remote := rfl
@[simp] theorem State.setDie_one_remote (x : Die) : (s.setDie 1 x).remote = s.remote := rfl
@[simp] theorem State.setDie_module0 (d : Nat) (x : Die) : (s.setDie (d + 2) x).die0 = s.die0 := rfl
@[simp] theorem State.setDie_module1 (d : Nat) (x : Die) : (s.setDie (d + 2) x).die1 = s.die1 := rfl
@[simp] theorem State.setDie_module (d : Nat) (x : Die) : (s.setDie (d + 2) x).remote = s.remote.put (d + 2) x := rfl

/-! ## Updates of a group -/

@[simp] theorem Group.setV_kind (r i : Nat) (x : Word) : (g.setV r i x).kind = g.kind := rfl
@[simp] theorem Group.setV_st (r i : Nat) (x : Word) : (g.setV r i x).st = g.st := rfl
@[simp] theorem Group.setV_pc (r i : Nat) (x : Word) : (g.setV r i x).pc = g.pc := rfl
@[simp] theorem Group.setV_npc (r i : Nat) (x : Word) : (g.setV r i x).npc = g.npc := rfl
@[simp] theorem Group.setV_ir (r i : Nat) (x : Word) : (g.setV r i x).ir = g.ir := rfl
@[simp] theorem Group.setV_s (r i : Nat) (x : Word) : (g.setV r i x).s = g.s := rfl
@[simp] theorem Group.setV_p (r i : Nat) (x : Word) : (g.setV r i x).p = g.p := rfl
@[simp] theorem Group.setV_h (r i : Nat) (x : Word) : (g.setV r i x).h = g.h := rfl
@[simp] theorem Group.setV_live (r i : Nat) (x : Word) : (g.setV r i x).live = g.live := rfl
@[simp] theorem Group.setV_act (r i : Nat) (x : Word) : (g.setV r i x).act = g.act := rfl
@[simp] theorem Group.setV_help (r i : Nat) (x : Word) : (g.setV r i x).help = g.help := rfl
@[simp] theorem Group.setV_div (r i : Nat) (x : Word) : (g.setV r i x).div = g.div := rfl
@[simp] theorem Group.setV_frm (r i : Nat) (x : Word) : (g.setV r i x).frm = g.frm := rfl
@[simp] theorem Group.setV_fflags (r i : Nat) (x : Word) : (g.setV r i x).fflags = g.fflags := rfl
@[simp] theorem Group.setV_regs (r i : Nat) (x : Word) : (g.setV r i x).regs = g.regs := rfl
@[simp] theorem Group.setV_prio (r i : Nat) (x : Word) : (g.setV r i x).prio = g.prio := rfl
@[simp] theorem Group.setV_age (r i : Nat) (x : Word) : (g.setV r i x).age = g.age := rfl
@[simp] theorem Group.setV_aged (r i : Nat) (x : Word) : (g.setV r i x).aged = g.aged := rfl
@[simp] theorem Group.setV_yielded (r i : Nat) (x : Word) : (g.setV r i x).yielded = g.yielded := rfl
@[simp] theorem Group.setV_order (r i : Nat) (x : Word) : (g.setV r i x).order = g.order := rfl
@[simp] theorem Group.setV_ctx (r i : Nat) (x : Word) : (g.setV r i x).ctx = g.ctx := rfl
@[simp] theorem Group.setV_gangKey (r i : Nat) (x : Word) : (g.setV r i x).gangKey = g.gangKey := rfl
@[simp] theorem Group.setV_ngroups (r i : Nat) (x : Word) : (g.setV r i x).ngroups = g.ngroups := rfl
@[simp] theorem Group.setV_group (r i : Nat) (x : Word) : (g.setV r i x).group = g.group := rfl
@[simp] theorem Group.setV_gang (r i : Nat) (x : Word) : (g.setV r i x).gang = g.gang := rfl
@[simp] theorem Group.setV_span (r i : Nat) (x : Word) : (g.setV r i x).span = g.span := rfl
@[simp] theorem Group.setV_member (r i : Nat) (x : Word) : (g.setV r i x).member = g.member := rfl
@[simp] theorem Group.setV_queue (r i : Nat) (x : Word) : (g.setV r i x).queue = g.queue := rfl
@[simp] theorem Group.setV_seqNo (r i : Nat) (x : Word) : (g.setV r i x).seqNo = g.seqNo := rfl
@[simp] theorem Group.setV_spawned (r i : Nat) (x : Word) : (g.setV r i x).spawned = g.spawned := rfl
@[simp] theorem Group.setV_spawnTab (r i : Nat) (x : Word) : (g.setV r i x).spawnTab = g.spawnTab := rfl
@[simp] theorem Group.setV_args (r i : Nat) (x : Word) : (g.setV r i x).args = g.args := rfl
@[simp] theorem Group.setV_bank (r i : Nat) (x : Word) : (g.setV r i x).bank = g.bank := rfl
@[simp] theorem Group.setV_trapWait (r i : Nat) (x : Word) : (g.setV r i x).trapWait = g.trapWait := rfl
@[simp] theorem Group.setV_preempting (r i : Nat) (x : Word) : (g.setV r i x).preempting = g.preempting := rfl
@[simp] theorem Group.setV_trapcause (r i : Nat) (x : Word) : (g.setV r i x).trapcause = g.trapcause := rfl
@[simp] theorem Group.setV_trapinfo (r i : Nat) (x : Word) : (g.setV r i x).trapinfo = g.trapinfo := rfl
@[simp] theorem Group.setV_trappc (r i : Nat) (x : Word) : (g.setV r i x).trappc = g.trappc := rfl
@[simp] theorem Group.setV_wselThr (r i : Nat) (x : Word) : (g.setV r i x).wselThr = g.wselThr := rfl
@[simp] theorem Group.setV_wselIdx (r i : Nat) (x : Word) : (g.setV r i x).wselIdx = g.wselIdx := rfl
@[simp] theorem Group.setV_tags (r i : Nat) (x : Word) : (g.setV r i x).tags = g.tags := rfl
@[simp] theorem Group.setV_lpend (r i : Nat) (x : Word) : (g.setV r i x).lpend = g.lpend := rfl
@[simp] theorem Group.setV_sq (r i : Nat) (x : Word) : (g.setV r i x).sq = g.sq := rfl
@[simp] theorem Group.setV_tst (r i : Nat) (x : Word) : (g.setV r i x).tst = g.tst := rfl
@[simp] theorem Group.setV_cpark (r i : Nat) (x : Word) : (g.setV r i x).cpark = g.cpark := rfl
@[simp] theorem Group.setV_fetchPark (r i : Nat) (x : Word) : (g.setV r i x).fetchPark = g.fetchPark := rfl
@[simp] theorem Group.setV_walks (r i : Nat) (x : Word) : (g.setV r i x).walks = g.walks := rfl
@[simp] theorem Group.setV_fence (r i : Nat) (x : Word) : (g.setV r i x).fence = g.fence := rfl

@[simp] theorem Group.setS_kind (r : Nat) (x : Word) : (g.setS r x).kind = g.kind := rfl
@[simp] theorem Group.setS_st (r : Nat) (x : Word) : (g.setS r x).st = g.st := rfl
@[simp] theorem Group.setS_pc (r : Nat) (x : Word) : (g.setS r x).pc = g.pc := rfl
@[simp] theorem Group.setS_npc (r : Nat) (x : Word) : (g.setS r x).npc = g.npc := rfl
@[simp] theorem Group.setS_ir (r : Nat) (x : Word) : (g.setS r x).ir = g.ir := rfl
@[simp] theorem Group.setS_v (r : Nat) (x : Word) : (g.setS r x).v = g.v := rfl
@[simp] theorem Group.setS_p (r : Nat) (x : Word) : (g.setS r x).p = g.p := rfl
@[simp] theorem Group.setS_h (r : Nat) (x : Word) : (g.setS r x).h = g.h := rfl
@[simp] theorem Group.setS_live (r : Nat) (x : Word) : (g.setS r x).live = g.live := rfl
@[simp] theorem Group.setS_act (r : Nat) (x : Word) : (g.setS r x).act = g.act := rfl
@[simp] theorem Group.setS_help (r : Nat) (x : Word) : (g.setS r x).help = g.help := rfl
@[simp] theorem Group.setS_div (r : Nat) (x : Word) : (g.setS r x).div = g.div := rfl
@[simp] theorem Group.setS_frm (r : Nat) (x : Word) : (g.setS r x).frm = g.frm := rfl
@[simp] theorem Group.setS_fflags (r : Nat) (x : Word) : (g.setS r x).fflags = g.fflags := rfl
@[simp] theorem Group.setS_regs (r : Nat) (x : Word) : (g.setS r x).regs = g.regs := rfl
@[simp] theorem Group.setS_prio (r : Nat) (x : Word) : (g.setS r x).prio = g.prio := rfl
@[simp] theorem Group.setS_age (r : Nat) (x : Word) : (g.setS r x).age = g.age := rfl
@[simp] theorem Group.setS_aged (r : Nat) (x : Word) : (g.setS r x).aged = g.aged := rfl
@[simp] theorem Group.setS_yielded (r : Nat) (x : Word) : (g.setS r x).yielded = g.yielded := rfl
@[simp] theorem Group.setS_order (r : Nat) (x : Word) : (g.setS r x).order = g.order := rfl
@[simp] theorem Group.setS_ctx (r : Nat) (x : Word) : (g.setS r x).ctx = g.ctx := rfl
@[simp] theorem Group.setS_gangKey (r : Nat) (x : Word) : (g.setS r x).gangKey = g.gangKey := rfl
@[simp] theorem Group.setS_ngroups (r : Nat) (x : Word) : (g.setS r x).ngroups = g.ngroups := rfl
@[simp] theorem Group.setS_group (r : Nat) (x : Word) : (g.setS r x).group = g.group := rfl
@[simp] theorem Group.setS_gang (r : Nat) (x : Word) : (g.setS r x).gang = g.gang := rfl
@[simp] theorem Group.setS_span (r : Nat) (x : Word) : (g.setS r x).span = g.span := rfl
@[simp] theorem Group.setS_member (r : Nat) (x : Word) : (g.setS r x).member = g.member := rfl
@[simp] theorem Group.setS_queue (r : Nat) (x : Word) : (g.setS r x).queue = g.queue := rfl
@[simp] theorem Group.setS_seqNo (r : Nat) (x : Word) : (g.setS r x).seqNo = g.seqNo := rfl
@[simp] theorem Group.setS_spawned (r : Nat) (x : Word) : (g.setS r x).spawned = g.spawned := rfl
@[simp] theorem Group.setS_spawnTab (r : Nat) (x : Word) : (g.setS r x).spawnTab = g.spawnTab := rfl
@[simp] theorem Group.setS_args (r : Nat) (x : Word) : (g.setS r x).args = g.args := rfl
@[simp] theorem Group.setS_bank (r : Nat) (x : Word) : (g.setS r x).bank = g.bank := rfl
@[simp] theorem Group.setS_trapWait (r : Nat) (x : Word) : (g.setS r x).trapWait = g.trapWait := rfl
@[simp] theorem Group.setS_preempting (r : Nat) (x : Word) : (g.setS r x).preempting = g.preempting := rfl
@[simp] theorem Group.setS_trapcause (r : Nat) (x : Word) : (g.setS r x).trapcause = g.trapcause := rfl
@[simp] theorem Group.setS_trapinfo (r : Nat) (x : Word) : (g.setS r x).trapinfo = g.trapinfo := rfl
@[simp] theorem Group.setS_trappc (r : Nat) (x : Word) : (g.setS r x).trappc = g.trappc := rfl
@[simp] theorem Group.setS_wselThr (r : Nat) (x : Word) : (g.setS r x).wselThr = g.wselThr := rfl
@[simp] theorem Group.setS_wselIdx (r : Nat) (x : Word) : (g.setS r x).wselIdx = g.wselIdx := rfl
@[simp] theorem Group.setS_tags (r : Nat) (x : Word) : (g.setS r x).tags = g.tags := rfl
@[simp] theorem Group.setS_lpend (r : Nat) (x : Word) : (g.setS r x).lpend = g.lpend := rfl
@[simp] theorem Group.setS_sq (r : Nat) (x : Word) : (g.setS r x).sq = g.sq := rfl
@[simp] theorem Group.setS_tst (r : Nat) (x : Word) : (g.setS r x).tst = g.tst := rfl
@[simp] theorem Group.setS_cpark (r : Nat) (x : Word) : (g.setS r x).cpark = g.cpark := rfl
@[simp] theorem Group.setS_fetchPark (r : Nat) (x : Word) : (g.setS r x).fetchPark = g.fetchPark := rfl
@[simp] theorem Group.setS_walks (r : Nat) (x : Word) : (g.setS r x).walks = g.walks := rfl
@[simp] theorem Group.setS_fence (r : Nat) (x : Word) : (g.setS r x).fence = g.fence := rfl

@[simp] theorem Group.setH_kind (r : Nat) (x : Header) : (g.setH r x).kind = g.kind := rfl
@[simp] theorem Group.setH_st (r : Nat) (x : Header) : (g.setH r x).st = g.st := rfl
@[simp] theorem Group.setH_pc (r : Nat) (x : Header) : (g.setH r x).pc = g.pc := rfl
@[simp] theorem Group.setH_npc (r : Nat) (x : Header) : (g.setH r x).npc = g.npc := rfl
@[simp] theorem Group.setH_ir (r : Nat) (x : Header) : (g.setH r x).ir = g.ir := rfl
@[simp] theorem Group.setH_v (r : Nat) (x : Header) : (g.setH r x).v = g.v := rfl
@[simp] theorem Group.setH_s (r : Nat) (x : Header) : (g.setH r x).s = g.s := rfl
@[simp] theorem Group.setH_p (r : Nat) (x : Header) : (g.setH r x).p = g.p := rfl
@[simp] theorem Group.setH_live (r : Nat) (x : Header) : (g.setH r x).live = g.live := rfl
@[simp] theorem Group.setH_act (r : Nat) (x : Header) : (g.setH r x).act = g.act := rfl
@[simp] theorem Group.setH_help (r : Nat) (x : Header) : (g.setH r x).help = g.help := rfl
@[simp] theorem Group.setH_div (r : Nat) (x : Header) : (g.setH r x).div = g.div := rfl
@[simp] theorem Group.setH_frm (r : Nat) (x : Header) : (g.setH r x).frm = g.frm := rfl
@[simp] theorem Group.setH_fflags (r : Nat) (x : Header) : (g.setH r x).fflags = g.fflags := rfl
@[simp] theorem Group.setH_regs (r : Nat) (x : Header) : (g.setH r x).regs = g.regs := rfl
@[simp] theorem Group.setH_prio (r : Nat) (x : Header) : (g.setH r x).prio = g.prio := rfl
@[simp] theorem Group.setH_age (r : Nat) (x : Header) : (g.setH r x).age = g.age := rfl
@[simp] theorem Group.setH_aged (r : Nat) (x : Header) : (g.setH r x).aged = g.aged := rfl
@[simp] theorem Group.setH_yielded (r : Nat) (x : Header) : (g.setH r x).yielded = g.yielded := rfl
@[simp] theorem Group.setH_order (r : Nat) (x : Header) : (g.setH r x).order = g.order := rfl
@[simp] theorem Group.setH_ctx (r : Nat) (x : Header) : (g.setH r x).ctx = g.ctx := rfl
@[simp] theorem Group.setH_gangKey (r : Nat) (x : Header) : (g.setH r x).gangKey = g.gangKey := rfl
@[simp] theorem Group.setH_ngroups (r : Nat) (x : Header) : (g.setH r x).ngroups = g.ngroups := rfl
@[simp] theorem Group.setH_group (r : Nat) (x : Header) : (g.setH r x).group = g.group := rfl
@[simp] theorem Group.setH_gang (r : Nat) (x : Header) : (g.setH r x).gang = g.gang := rfl
@[simp] theorem Group.setH_span (r : Nat) (x : Header) : (g.setH r x).span = g.span := rfl
@[simp] theorem Group.setH_member (r : Nat) (x : Header) : (g.setH r x).member = g.member := rfl
@[simp] theorem Group.setH_queue (r : Nat) (x : Header) : (g.setH r x).queue = g.queue := rfl
@[simp] theorem Group.setH_seqNo (r : Nat) (x : Header) : (g.setH r x).seqNo = g.seqNo := rfl
@[simp] theorem Group.setH_spawned (r : Nat) (x : Header) : (g.setH r x).spawned = g.spawned := rfl
@[simp] theorem Group.setH_spawnTab (r : Nat) (x : Header) : (g.setH r x).spawnTab = g.spawnTab := rfl
@[simp] theorem Group.setH_args (r : Nat) (x : Header) : (g.setH r x).args = g.args := rfl
@[simp] theorem Group.setH_bank (r : Nat) (x : Header) : (g.setH r x).bank = g.bank := rfl
@[simp] theorem Group.setH_trapWait (r : Nat) (x : Header) : (g.setH r x).trapWait = g.trapWait := rfl
@[simp] theorem Group.setH_preempting (r : Nat) (x : Header) : (g.setH r x).preempting = g.preempting := rfl
@[simp] theorem Group.setH_trapcause (r : Nat) (x : Header) : (g.setH r x).trapcause = g.trapcause := rfl
@[simp] theorem Group.setH_trapinfo (r : Nat) (x : Header) : (g.setH r x).trapinfo = g.trapinfo := rfl
@[simp] theorem Group.setH_trappc (r : Nat) (x : Header) : (g.setH r x).trappc = g.trappc := rfl
@[simp] theorem Group.setH_wselThr (r : Nat) (x : Header) : (g.setH r x).wselThr = g.wselThr := rfl
@[simp] theorem Group.setH_wselIdx (r : Nat) (x : Header) : (g.setH r x).wselIdx = g.wselIdx := rfl
@[simp] theorem Group.setH_tags (r : Nat) (x : Header) : (g.setH r x).tags = g.tags := rfl
@[simp] theorem Group.setH_lpend (r : Nat) (x : Header) : (g.setH r x).lpend = g.lpend := rfl
@[simp] theorem Group.setH_sq (r : Nat) (x : Header) : (g.setH r x).sq = g.sq := rfl
@[simp] theorem Group.setH_tst (r : Nat) (x : Header) : (g.setH r x).tst = g.tst := rfl
@[simp] theorem Group.setH_cpark (r : Nat) (x : Header) : (g.setH r x).cpark = g.cpark := rfl
@[simp] theorem Group.setH_fetchPark (r : Nat) (x : Header) : (g.setH r x).fetchPark = g.fetchPark := rfl
@[simp] theorem Group.setH_walks (r : Nat) (x : Header) : (g.setH r x).walks = g.walks := rfl
@[simp] theorem Group.setH_fence (r : Nat) (x : Header) : (g.setH r x).fence = g.fence := rfl

@[simp] theorem Group.raise_kind (f : Flags) : (g.raise f).kind = g.kind := rfl
@[simp] theorem Group.raise_st (f : Flags) : (g.raise f).st = g.st := rfl
@[simp] theorem Group.raise_pc (f : Flags) : (g.raise f).pc = g.pc := rfl
@[simp] theorem Group.raise_npc (f : Flags) : (g.raise f).npc = g.npc := rfl
@[simp] theorem Group.raise_ir (f : Flags) : (g.raise f).ir = g.ir := rfl
@[simp] theorem Group.raise_v (f : Flags) : (g.raise f).v = g.v := rfl
@[simp] theorem Group.raise_s (f : Flags) : (g.raise f).s = g.s := rfl
@[simp] theorem Group.raise_p (f : Flags) : (g.raise f).p = g.p := rfl
@[simp] theorem Group.raise_h (f : Flags) : (g.raise f).h = g.h := rfl
@[simp] theorem Group.raise_live (f : Flags) : (g.raise f).live = g.live := rfl
@[simp] theorem Group.raise_act (f : Flags) : (g.raise f).act = g.act := rfl
@[simp] theorem Group.raise_help (f : Flags) : (g.raise f).help = g.help := rfl
@[simp] theorem Group.raise_div (f : Flags) : (g.raise f).div = g.div := rfl
@[simp] theorem Group.raise_frm (f : Flags) : (g.raise f).frm = g.frm := rfl
@[simp] theorem Group.raise_regs (f : Flags) : (g.raise f).regs = g.regs := rfl
@[simp] theorem Group.raise_prio (f : Flags) : (g.raise f).prio = g.prio := rfl
@[simp] theorem Group.raise_age (f : Flags) : (g.raise f).age = g.age := rfl
@[simp] theorem Group.raise_aged (f : Flags) : (g.raise f).aged = g.aged := rfl
@[simp] theorem Group.raise_yielded (f : Flags) : (g.raise f).yielded = g.yielded := rfl
@[simp] theorem Group.raise_order (f : Flags) : (g.raise f).order = g.order := rfl
@[simp] theorem Group.raise_ctx (f : Flags) : (g.raise f).ctx = g.ctx := rfl
@[simp] theorem Group.raise_gangKey (f : Flags) : (g.raise f).gangKey = g.gangKey := rfl
@[simp] theorem Group.raise_ngroups (f : Flags) : (g.raise f).ngroups = g.ngroups := rfl
@[simp] theorem Group.raise_group (f : Flags) : (g.raise f).group = g.group := rfl
@[simp] theorem Group.raise_gang (f : Flags) : (g.raise f).gang = g.gang := rfl
@[simp] theorem Group.raise_span (f : Flags) : (g.raise f).span = g.span := rfl
@[simp] theorem Group.raise_member (f : Flags) : (g.raise f).member = g.member := rfl
@[simp] theorem Group.raise_queue (f : Flags) : (g.raise f).queue = g.queue := rfl
@[simp] theorem Group.raise_seqNo (f : Flags) : (g.raise f).seqNo = g.seqNo := rfl
@[simp] theorem Group.raise_spawned (f : Flags) : (g.raise f).spawned = g.spawned := rfl
@[simp] theorem Group.raise_spawnTab (f : Flags) : (g.raise f).spawnTab = g.spawnTab := rfl
@[simp] theorem Group.raise_args (f : Flags) : (g.raise f).args = g.args := rfl
@[simp] theorem Group.raise_bank (f : Flags) : (g.raise f).bank = g.bank := rfl
@[simp] theorem Group.raise_trapWait (f : Flags) : (g.raise f).trapWait = g.trapWait := rfl
@[simp] theorem Group.raise_preempting (f : Flags) : (g.raise f).preempting = g.preempting := rfl
@[simp] theorem Group.raise_trapcause (f : Flags) : (g.raise f).trapcause = g.trapcause := rfl
@[simp] theorem Group.raise_trapinfo (f : Flags) : (g.raise f).trapinfo = g.trapinfo := rfl
@[simp] theorem Group.raise_trappc (f : Flags) : (g.raise f).trappc = g.trappc := rfl
@[simp] theorem Group.raise_wselThr (f : Flags) : (g.raise f).wselThr = g.wselThr := rfl
@[simp] theorem Group.raise_wselIdx (f : Flags) : (g.raise f).wselIdx = g.wselIdx := rfl
@[simp] theorem Group.raise_tags (f : Flags) : (g.raise f).tags = g.tags := rfl
@[simp] theorem Group.raise_lpend (f : Flags) : (g.raise f).lpend = g.lpend := rfl
@[simp] theorem Group.raise_sq (f : Flags) : (g.raise f).sq = g.sq := rfl
@[simp] theorem Group.raise_tst (f : Flags) : (g.raise f).tst = g.tst := rfl
@[simp] theorem Group.raise_cpark (f : Flags) : (g.raise f).cpark = g.cpark := rfl
@[simp] theorem Group.raise_fetchPark (f : Flags) : (g.raise f).fetchPark = g.fetchPark := rfl
@[simp] theorem Group.raise_walks (f : Flags) : (g.raise f).walks = g.walks := rfl
@[simp] theorem Group.raise_fence (f : Flags) : (g.raise f).fence = g.fence := rfl

@[simp] theorem Group.hold_kind : g.hold.kind = g.kind := rfl
@[simp] theorem Group.hold_pc : g.hold.pc = g.pc := rfl
@[simp] theorem Group.hold_npc : g.hold.npc = g.npc := rfl
@[simp] theorem Group.hold_ir : g.hold.ir = g.ir := rfl
@[simp] theorem Group.hold_v : g.hold.v = g.v := rfl
@[simp] theorem Group.hold_s : g.hold.s = g.s := rfl
@[simp] theorem Group.hold_p : g.hold.p = g.p := rfl
@[simp] theorem Group.hold_h : g.hold.h = g.h := rfl
@[simp] theorem Group.hold_live : g.hold.live = g.live := rfl
@[simp] theorem Group.hold_act : g.hold.act = g.act := rfl
@[simp] theorem Group.hold_help : g.hold.help = g.help := rfl
@[simp] theorem Group.hold_div : g.hold.div = g.div := rfl
@[simp] theorem Group.hold_frm : g.hold.frm = g.frm := rfl
@[simp] theorem Group.hold_fflags : g.hold.fflags = g.fflags := rfl
@[simp] theorem Group.hold_regs : g.hold.regs = g.regs := rfl
@[simp] theorem Group.hold_prio : g.hold.prio = g.prio := rfl
@[simp] theorem Group.hold_age : g.hold.age = g.age := rfl
@[simp] theorem Group.hold_aged : g.hold.aged = g.aged := rfl
@[simp] theorem Group.hold_yielded : g.hold.yielded = g.yielded := rfl
@[simp] theorem Group.hold_order : g.hold.order = g.order := rfl
@[simp] theorem Group.hold_ctx : g.hold.ctx = g.ctx := rfl
@[simp] theorem Group.hold_gangKey : g.hold.gangKey = g.gangKey := rfl
@[simp] theorem Group.hold_ngroups : g.hold.ngroups = g.ngroups := rfl
@[simp] theorem Group.hold_group : g.hold.group = g.group := rfl
@[simp] theorem Group.hold_gang : g.hold.gang = g.gang := rfl
@[simp] theorem Group.hold_span : g.hold.span = g.span := rfl
@[simp] theorem Group.hold_member : g.hold.member = g.member := rfl
@[simp] theorem Group.hold_queue : g.hold.queue = g.queue := rfl
@[simp] theorem Group.hold_seqNo : g.hold.seqNo = g.seqNo := rfl
@[simp] theorem Group.hold_spawned : g.hold.spawned = g.spawned := rfl
@[simp] theorem Group.hold_spawnTab : g.hold.spawnTab = g.spawnTab := rfl
@[simp] theorem Group.hold_args : g.hold.args = g.args := rfl
@[simp] theorem Group.hold_bank : g.hold.bank = g.bank := rfl
@[simp] theorem Group.hold_trapWait : g.hold.trapWait = g.trapWait := rfl
@[simp] theorem Group.hold_preempting : g.hold.preempting = g.preempting := rfl
@[simp] theorem Group.hold_trapcause : g.hold.trapcause = g.trapcause := rfl
@[simp] theorem Group.hold_trapinfo : g.hold.trapinfo = g.trapinfo := rfl
@[simp] theorem Group.hold_trappc : g.hold.trappc = g.trappc := rfl
@[simp] theorem Group.hold_wselThr : g.hold.wselThr = g.wselThr := rfl
@[simp] theorem Group.hold_wselIdx : g.hold.wselIdx = g.wselIdx := rfl
@[simp] theorem Group.hold_tags : g.hold.tags = g.tags := rfl
@[simp] theorem Group.hold_lpend : g.hold.lpend = g.lpend := rfl
@[simp] theorem Group.hold_sq : g.hold.sq = g.sq := rfl
@[simp] theorem Group.hold_tst : g.hold.tst = g.tst := rfl
@[simp] theorem Group.hold_cpark : g.hold.cpark = g.cpark := rfl
@[simp] theorem Group.hold_fetchPark : g.hold.fetchPark = g.fetchPark := rfl
@[simp] theorem Group.hold_walks : g.hold.walks = g.walks := rfl
@[simp] theorem Group.hold_fence : g.hold.fence = g.fence := rfl

@[simp] theorem Group.issued_kind (x : Sched) (n : Nat) (pc : DWord) : (g.issued x n pc).kind = g.kind := rfl
@[simp] theorem Group.issued_st (x : Sched) (n : Nat) (pc : DWord) : (g.issued x n pc).st = g.st := rfl
@[simp] theorem Group.issued_npc (x : Sched) (n : Nat) (pc : DWord) : (g.issued x n pc).npc = g.npc := rfl
@[simp] theorem Group.issued_ir (x : Sched) (n : Nat) (pc : DWord) : (g.issued x n pc).ir = g.ir := rfl
@[simp] theorem Group.issued_v (x : Sched) (n : Nat) (pc : DWord) : (g.issued x n pc).v = g.v := rfl
@[simp] theorem Group.issued_s (x : Sched) (n : Nat) (pc : DWord) : (g.issued x n pc).s = g.s := rfl
@[simp] theorem Group.issued_p (x : Sched) (n : Nat) (pc : DWord) : (g.issued x n pc).p = g.p := rfl
@[simp] theorem Group.issued_h (x : Sched) (n : Nat) (pc : DWord) : (g.issued x n pc).h = g.h := rfl
@[simp] theorem Group.issued_live (x : Sched) (n : Nat) (pc : DWord) : (g.issued x n pc).live = g.live := rfl
@[simp] theorem Group.issued_act (x : Sched) (n : Nat) (pc : DWord) : (g.issued x n pc).act = g.act := rfl
@[simp] theorem Group.issued_help (x : Sched) (n : Nat) (pc : DWord) : (g.issued x n pc).help = g.help := rfl
@[simp] theorem Group.issued_div (x : Sched) (n : Nat) (pc : DWord) : (g.issued x n pc).div = g.div := rfl
@[simp] theorem Group.issued_frm (x : Sched) (n : Nat) (pc : DWord) : (g.issued x n pc).frm = g.frm := rfl
@[simp] theorem Group.issued_fflags (x : Sched) (n : Nat) (pc : DWord) : (g.issued x n pc).fflags = g.fflags := rfl
@[simp] theorem Group.issued_regs (x : Sched) (n : Nat) (pc : DWord) : (g.issued x n pc).regs = g.regs := rfl
@[simp] theorem Group.issued_prio (x : Sched) (n : Nat) (pc : DWord) : (g.issued x n pc).prio = g.prio := rfl
@[simp] theorem Group.issued_aged (x : Sched) (n : Nat) (pc : DWord) : (g.issued x n pc).aged = g.aged := rfl
@[simp] theorem Group.issued_order (x : Sched) (n : Nat) (pc : DWord) : (g.issued x n pc).order = g.order := rfl
@[simp] theorem Group.issued_ctx (x : Sched) (n : Nat) (pc : DWord) : (g.issued x n pc).ctx = g.ctx := rfl
@[simp] theorem Group.issued_gangKey (x : Sched) (n : Nat) (pc : DWord) : (g.issued x n pc).gangKey = g.gangKey := rfl
@[simp] theorem Group.issued_ngroups (x : Sched) (n : Nat) (pc : DWord) : (g.issued x n pc).ngroups = g.ngroups := rfl
@[simp] theorem Group.issued_group (x : Sched) (n : Nat) (pc : DWord) : (g.issued x n pc).group = g.group := rfl
@[simp] theorem Group.issued_gang (x : Sched) (n : Nat) (pc : DWord) : (g.issued x n pc).gang = g.gang := rfl
@[simp] theorem Group.issued_span (x : Sched) (n : Nat) (pc : DWord) : (g.issued x n pc).span = g.span := rfl
@[simp] theorem Group.issued_member (x : Sched) (n : Nat) (pc : DWord) : (g.issued x n pc).member = g.member := rfl
@[simp] theorem Group.issued_queue (x : Sched) (n : Nat) (pc : DWord) : (g.issued x n pc).queue = g.queue := rfl
@[simp] theorem Group.issued_seqNo (x : Sched) (n : Nat) (pc : DWord) : (g.issued x n pc).seqNo = g.seqNo := rfl
@[simp] theorem Group.issued_spawned (x : Sched) (n : Nat) (pc : DWord) : (g.issued x n pc).spawned = g.spawned := rfl
@[simp] theorem Group.issued_spawnTab (x : Sched) (n : Nat) (pc : DWord) : (g.issued x n pc).spawnTab = g.spawnTab := rfl
@[simp] theorem Group.issued_args (x : Sched) (n : Nat) (pc : DWord) : (g.issued x n pc).args = g.args := rfl
@[simp] theorem Group.issued_bank (x : Sched) (n : Nat) (pc : DWord) : (g.issued x n pc).bank = g.bank := rfl
@[simp] theorem Group.issued_trapWait (x : Sched) (n : Nat) (pc : DWord) : (g.issued x n pc).trapWait = g.trapWait := rfl
@[simp] theorem Group.issued_preempting (x : Sched) (n : Nat) (pc : DWord) : (g.issued x n pc).preempting = g.preempting := rfl
@[simp] theorem Group.issued_trapcause (x : Sched) (n : Nat) (pc : DWord) : (g.issued x n pc).trapcause = g.trapcause := rfl
@[simp] theorem Group.issued_trapinfo (x : Sched) (n : Nat) (pc : DWord) : (g.issued x n pc).trapinfo = g.trapinfo := rfl
@[simp] theorem Group.issued_trappc (x : Sched) (n : Nat) (pc : DWord) : (g.issued x n pc).trappc = g.trappc := rfl
@[simp] theorem Group.issued_wselThr (x : Sched) (n : Nat) (pc : DWord) : (g.issued x n pc).wselThr = g.wselThr := rfl
@[simp] theorem Group.issued_wselIdx (x : Sched) (n : Nat) (pc : DWord) : (g.issued x n pc).wselIdx = g.wselIdx := rfl
@[simp] theorem Group.issued_tags (x : Sched) (n : Nat) (pc : DWord) : (g.issued x n pc).tags = g.tags := rfl
@[simp] theorem Group.issued_sq (x : Sched) (n : Nat) (pc : DWord) : (g.issued x n pc).sq = g.sq := rfl
@[simp] theorem Group.issued_tst (x : Sched) (n : Nat) (pc : DWord) : (g.issued x n pc).tst = g.tst := rfl
@[simp] theorem Group.issued_cpark (x : Sched) (n : Nat) (pc : DWord) : (g.issued x n pc).cpark = g.cpark := rfl
@[simp] theorem Group.issued_fetchPark (x : Sched) (n : Nat) (pc : DWord) : (g.issued x n pc).fetchPark = g.fetchPark := rfl
@[simp] theorem Group.issued_walks (x : Sched) (n : Nat) (pc : DWord) : (g.issued x n pc).walks = g.walks := rfl
@[simp] theorem Group.issued_fence (x : Sched) (n : Nat) (pc : DWord) : (g.issued x n pc).fence = g.fence := rfl

@[simp] theorem Group.yields_kind (x : Sched) : (g.yields x).kind = g.kind := rfl
@[simp] theorem Group.yields_st (x : Sched) : (g.yields x).st = g.st := rfl
@[simp] theorem Group.yields_pc (x : Sched) : (g.yields x).pc = g.pc := rfl
@[simp] theorem Group.yields_npc (x : Sched) : (g.yields x).npc = g.npc := rfl
@[simp] theorem Group.yields_ir (x : Sched) : (g.yields x).ir = g.ir := rfl
@[simp] theorem Group.yields_v (x : Sched) : (g.yields x).v = g.v := rfl
@[simp] theorem Group.yields_s (x : Sched) : (g.yields x).s = g.s := rfl
@[simp] theorem Group.yields_p (x : Sched) : (g.yields x).p = g.p := rfl
@[simp] theorem Group.yields_h (x : Sched) : (g.yields x).h = g.h := rfl
@[simp] theorem Group.yields_live (x : Sched) : (g.yields x).live = g.live := rfl
@[simp] theorem Group.yields_act (x : Sched) : (g.yields x).act = g.act := rfl
@[simp] theorem Group.yields_help (x : Sched) : (g.yields x).help = g.help := rfl
@[simp] theorem Group.yields_div (x : Sched) : (g.yields x).div = g.div := rfl
@[simp] theorem Group.yields_frm (x : Sched) : (g.yields x).frm = g.frm := rfl
@[simp] theorem Group.yields_fflags (x : Sched) : (g.yields x).fflags = g.fflags := rfl
@[simp] theorem Group.yields_regs (x : Sched) : (g.yields x).regs = g.regs := rfl
@[simp] theorem Group.yields_prio (x : Sched) : (g.yields x).prio = g.prio := rfl
@[simp] theorem Group.yields_aged (x : Sched) : (g.yields x).aged = g.aged := rfl
@[simp] theorem Group.yields_order (x : Sched) : (g.yields x).order = g.order := rfl
@[simp] theorem Group.yields_ctx (x : Sched) : (g.yields x).ctx = g.ctx := rfl
@[simp] theorem Group.yields_gangKey (x : Sched) : (g.yields x).gangKey = g.gangKey := rfl
@[simp] theorem Group.yields_ngroups (x : Sched) : (g.yields x).ngroups = g.ngroups := rfl
@[simp] theorem Group.yields_group (x : Sched) : (g.yields x).group = g.group := rfl
@[simp] theorem Group.yields_gang (x : Sched) : (g.yields x).gang = g.gang := rfl
@[simp] theorem Group.yields_span (x : Sched) : (g.yields x).span = g.span := rfl
@[simp] theorem Group.yields_member (x : Sched) : (g.yields x).member = g.member := rfl
@[simp] theorem Group.yields_queue (x : Sched) : (g.yields x).queue = g.queue := rfl
@[simp] theorem Group.yields_seqNo (x : Sched) : (g.yields x).seqNo = g.seqNo := rfl
@[simp] theorem Group.yields_spawned (x : Sched) : (g.yields x).spawned = g.spawned := rfl
@[simp] theorem Group.yields_spawnTab (x : Sched) : (g.yields x).spawnTab = g.spawnTab := rfl
@[simp] theorem Group.yields_args (x : Sched) : (g.yields x).args = g.args := rfl
@[simp] theorem Group.yields_bank (x : Sched) : (g.yields x).bank = g.bank := rfl
@[simp] theorem Group.yields_trapWait (x : Sched) : (g.yields x).trapWait = g.trapWait := rfl
@[simp] theorem Group.yields_preempting (x : Sched) : (g.yields x).preempting = g.preempting := rfl
@[simp] theorem Group.yields_trapcause (x : Sched) : (g.yields x).trapcause = g.trapcause := rfl
@[simp] theorem Group.yields_trapinfo (x : Sched) : (g.yields x).trapinfo = g.trapinfo := rfl
@[simp] theorem Group.yields_trappc (x : Sched) : (g.yields x).trappc = g.trappc := rfl
@[simp] theorem Group.yields_wselThr (x : Sched) : (g.yields x).wselThr = g.wselThr := rfl
@[simp] theorem Group.yields_wselIdx (x : Sched) : (g.yields x).wselIdx = g.wselIdx := rfl
@[simp] theorem Group.yields_tags (x : Sched) : (g.yields x).tags = g.tags := rfl
@[simp] theorem Group.yields_lpend (x : Sched) : (g.yields x).lpend = g.lpend := rfl
@[simp] theorem Group.yields_sq (x : Sched) : (g.yields x).sq = g.sq := rfl
@[simp] theorem Group.yields_tst (x : Sched) : (g.yields x).tst = g.tst := rfl
@[simp] theorem Group.yields_cpark (x : Sched) : (g.yields x).cpark = g.cpark := rfl
@[simp] theorem Group.yields_fetchPark (x : Sched) : (g.yields x).fetchPark = g.fetchPark := rfl
@[simp] theorem Group.yields_walks (x : Sched) : (g.yields x).walks = g.walks := rfl
@[simp] theorem Group.yields_fence (x : Sched) : (g.yields x).fence = g.fence := rfl

@[simp] theorem Group.setV2_kind (r i : Nat) (x : DWord) : (g.setV2 r i x).kind = g.kind := rfl
@[simp] theorem Group.setV2_st (r i : Nat) (x : DWord) : (g.setV2 r i x).st = g.st := rfl
@[simp] theorem Group.setV2_pc (r i : Nat) (x : DWord) : (g.setV2 r i x).pc = g.pc := rfl
@[simp] theorem Group.setV2_npc (r i : Nat) (x : DWord) : (g.setV2 r i x).npc = g.npc := rfl
@[simp] theorem Group.setV2_ir (r i : Nat) (x : DWord) : (g.setV2 r i x).ir = g.ir := rfl
@[simp] theorem Group.setV2_s (r i : Nat) (x : DWord) : (g.setV2 r i x).s = g.s := rfl
@[simp] theorem Group.setV2_p (r i : Nat) (x : DWord) : (g.setV2 r i x).p = g.p := rfl
@[simp] theorem Group.setV2_h (r i : Nat) (x : DWord) : (g.setV2 r i x).h = g.h := rfl
@[simp] theorem Group.setV2_live (r i : Nat) (x : DWord) : (g.setV2 r i x).live = g.live := rfl
@[simp] theorem Group.setV2_act (r i : Nat) (x : DWord) : (g.setV2 r i x).act = g.act := rfl
@[simp] theorem Group.setV2_help (r i : Nat) (x : DWord) : (g.setV2 r i x).help = g.help := rfl
@[simp] theorem Group.setV2_div (r i : Nat) (x : DWord) : (g.setV2 r i x).div = g.div := rfl
@[simp] theorem Group.setV2_frm (r i : Nat) (x : DWord) : (g.setV2 r i x).frm = g.frm := rfl
@[simp] theorem Group.setV2_fflags (r i : Nat) (x : DWord) : (g.setV2 r i x).fflags = g.fflags := rfl
@[simp] theorem Group.setV2_regs (r i : Nat) (x : DWord) : (g.setV2 r i x).regs = g.regs := rfl
@[simp] theorem Group.setV2_prio (r i : Nat) (x : DWord) : (g.setV2 r i x).prio = g.prio := rfl
@[simp] theorem Group.setV2_age (r i : Nat) (x : DWord) : (g.setV2 r i x).age = g.age := rfl
@[simp] theorem Group.setV2_aged (r i : Nat) (x : DWord) : (g.setV2 r i x).aged = g.aged := rfl
@[simp] theorem Group.setV2_yielded (r i : Nat) (x : DWord) : (g.setV2 r i x).yielded = g.yielded := rfl
@[simp] theorem Group.setV2_order (r i : Nat) (x : DWord) : (g.setV2 r i x).order = g.order := rfl
@[simp] theorem Group.setV2_ctx (r i : Nat) (x : DWord) : (g.setV2 r i x).ctx = g.ctx := rfl
@[simp] theorem Group.setV2_gangKey (r i : Nat) (x : DWord) : (g.setV2 r i x).gangKey = g.gangKey := rfl
@[simp] theorem Group.setV2_ngroups (r i : Nat) (x : DWord) : (g.setV2 r i x).ngroups = g.ngroups := rfl
@[simp] theorem Group.setV2_group (r i : Nat) (x : DWord) : (g.setV2 r i x).group = g.group := rfl
@[simp] theorem Group.setV2_gang (r i : Nat) (x : DWord) : (g.setV2 r i x).gang = g.gang := rfl
@[simp] theorem Group.setV2_span (r i : Nat) (x : DWord) : (g.setV2 r i x).span = g.span := rfl
@[simp] theorem Group.setV2_member (r i : Nat) (x : DWord) : (g.setV2 r i x).member = g.member := rfl
@[simp] theorem Group.setV2_queue (r i : Nat) (x : DWord) : (g.setV2 r i x).queue = g.queue := rfl
@[simp] theorem Group.setV2_seqNo (r i : Nat) (x : DWord) : (g.setV2 r i x).seqNo = g.seqNo := rfl
@[simp] theorem Group.setV2_spawned (r i : Nat) (x : DWord) : (g.setV2 r i x).spawned = g.spawned := rfl
@[simp] theorem Group.setV2_spawnTab (r i : Nat) (x : DWord) : (g.setV2 r i x).spawnTab = g.spawnTab := rfl
@[simp] theorem Group.setV2_args (r i : Nat) (x : DWord) : (g.setV2 r i x).args = g.args := rfl
@[simp] theorem Group.setV2_bank (r i : Nat) (x : DWord) : (g.setV2 r i x).bank = g.bank := rfl
@[simp] theorem Group.setV2_trapWait (r i : Nat) (x : DWord) : (g.setV2 r i x).trapWait = g.trapWait := rfl
@[simp] theorem Group.setV2_preempting (r i : Nat) (x : DWord) : (g.setV2 r i x).preempting = g.preempting := rfl
@[simp] theorem Group.setV2_trapcause (r i : Nat) (x : DWord) : (g.setV2 r i x).trapcause = g.trapcause := rfl
@[simp] theorem Group.setV2_trapinfo (r i : Nat) (x : DWord) : (g.setV2 r i x).trapinfo = g.trapinfo := rfl
@[simp] theorem Group.setV2_trappc (r i : Nat) (x : DWord) : (g.setV2 r i x).trappc = g.trappc := rfl
@[simp] theorem Group.setV2_wselThr (r i : Nat) (x : DWord) : (g.setV2 r i x).wselThr = g.wselThr := rfl
@[simp] theorem Group.setV2_wselIdx (r i : Nat) (x : DWord) : (g.setV2 r i x).wselIdx = g.wselIdx := rfl
@[simp] theorem Group.setV2_tags (r i : Nat) (x : DWord) : (g.setV2 r i x).tags = g.tags := rfl
@[simp] theorem Group.setV2_lpend (r i : Nat) (x : DWord) : (g.setV2 r i x).lpend = g.lpend := rfl
@[simp] theorem Group.setV2_sq (r i : Nat) (x : DWord) : (g.setV2 r i x).sq = g.sq := rfl
@[simp] theorem Group.setV2_tst (r i : Nat) (x : DWord) : (g.setV2 r i x).tst = g.tst := rfl
@[simp] theorem Group.setV2_cpark (r i : Nat) (x : DWord) : (g.setV2 r i x).cpark = g.cpark := rfl
@[simp] theorem Group.setV2_fetchPark (r i : Nat) (x : DWord) : (g.setV2 r i x).fetchPark = g.fetchPark := rfl
@[simp] theorem Group.setV2_walks (r i : Nat) (x : DWord) : (g.setV2 r i x).walks = g.walks := rfl
@[simp] theorem Group.setV2_fence (r i : Nat) (x : DWord) : (g.setV2 r i x).fence = g.fence := rfl

@[simp] theorem Group.setS2_kind (r : Nat) (x : DWord) : (g.setS2 r x).kind = g.kind := rfl
@[simp] theorem Group.setS2_st (r : Nat) (x : DWord) : (g.setS2 r x).st = g.st := rfl
@[simp] theorem Group.setS2_pc (r : Nat) (x : DWord) : (g.setS2 r x).pc = g.pc := rfl
@[simp] theorem Group.setS2_npc (r : Nat) (x : DWord) : (g.setS2 r x).npc = g.npc := rfl
@[simp] theorem Group.setS2_ir (r : Nat) (x : DWord) : (g.setS2 r x).ir = g.ir := rfl
@[simp] theorem Group.setS2_v (r : Nat) (x : DWord) : (g.setS2 r x).v = g.v := rfl
@[simp] theorem Group.setS2_p (r : Nat) (x : DWord) : (g.setS2 r x).p = g.p := rfl
@[simp] theorem Group.setS2_h (r : Nat) (x : DWord) : (g.setS2 r x).h = g.h := rfl
@[simp] theorem Group.setS2_live (r : Nat) (x : DWord) : (g.setS2 r x).live = g.live := rfl
@[simp] theorem Group.setS2_act (r : Nat) (x : DWord) : (g.setS2 r x).act = g.act := rfl
@[simp] theorem Group.setS2_help (r : Nat) (x : DWord) : (g.setS2 r x).help = g.help := rfl
@[simp] theorem Group.setS2_div (r : Nat) (x : DWord) : (g.setS2 r x).div = g.div := rfl
@[simp] theorem Group.setS2_frm (r : Nat) (x : DWord) : (g.setS2 r x).frm = g.frm := rfl
@[simp] theorem Group.setS2_fflags (r : Nat) (x : DWord) : (g.setS2 r x).fflags = g.fflags := rfl
@[simp] theorem Group.setS2_regs (r : Nat) (x : DWord) : (g.setS2 r x).regs = g.regs := rfl
@[simp] theorem Group.setS2_prio (r : Nat) (x : DWord) : (g.setS2 r x).prio = g.prio := rfl
@[simp] theorem Group.setS2_age (r : Nat) (x : DWord) : (g.setS2 r x).age = g.age := rfl
@[simp] theorem Group.setS2_aged (r : Nat) (x : DWord) : (g.setS2 r x).aged = g.aged := rfl
@[simp] theorem Group.setS2_yielded (r : Nat) (x : DWord) : (g.setS2 r x).yielded = g.yielded := rfl
@[simp] theorem Group.setS2_order (r : Nat) (x : DWord) : (g.setS2 r x).order = g.order := rfl
@[simp] theorem Group.setS2_ctx (r : Nat) (x : DWord) : (g.setS2 r x).ctx = g.ctx := rfl
@[simp] theorem Group.setS2_gangKey (r : Nat) (x : DWord) : (g.setS2 r x).gangKey = g.gangKey := rfl
@[simp] theorem Group.setS2_ngroups (r : Nat) (x : DWord) : (g.setS2 r x).ngroups = g.ngroups := rfl
@[simp] theorem Group.setS2_group (r : Nat) (x : DWord) : (g.setS2 r x).group = g.group := rfl
@[simp] theorem Group.setS2_gang (r : Nat) (x : DWord) : (g.setS2 r x).gang = g.gang := rfl
@[simp] theorem Group.setS2_span (r : Nat) (x : DWord) : (g.setS2 r x).span = g.span := rfl
@[simp] theorem Group.setS2_member (r : Nat) (x : DWord) : (g.setS2 r x).member = g.member := rfl
@[simp] theorem Group.setS2_queue (r : Nat) (x : DWord) : (g.setS2 r x).queue = g.queue := rfl
@[simp] theorem Group.setS2_seqNo (r : Nat) (x : DWord) : (g.setS2 r x).seqNo = g.seqNo := rfl
@[simp] theorem Group.setS2_spawned (r : Nat) (x : DWord) : (g.setS2 r x).spawned = g.spawned := rfl
@[simp] theorem Group.setS2_spawnTab (r : Nat) (x : DWord) : (g.setS2 r x).spawnTab = g.spawnTab := rfl
@[simp] theorem Group.setS2_args (r : Nat) (x : DWord) : (g.setS2 r x).args = g.args := rfl
@[simp] theorem Group.setS2_bank (r : Nat) (x : DWord) : (g.setS2 r x).bank = g.bank := rfl
@[simp] theorem Group.setS2_trapWait (r : Nat) (x : DWord) : (g.setS2 r x).trapWait = g.trapWait := rfl
@[simp] theorem Group.setS2_preempting (r : Nat) (x : DWord) : (g.setS2 r x).preempting = g.preempting := rfl
@[simp] theorem Group.setS2_trapcause (r : Nat) (x : DWord) : (g.setS2 r x).trapcause = g.trapcause := rfl
@[simp] theorem Group.setS2_trapinfo (r : Nat) (x : DWord) : (g.setS2 r x).trapinfo = g.trapinfo := rfl
@[simp] theorem Group.setS2_trappc (r : Nat) (x : DWord) : (g.setS2 r x).trappc = g.trappc := rfl
@[simp] theorem Group.setS2_wselThr (r : Nat) (x : DWord) : (g.setS2 r x).wselThr = g.wselThr := rfl
@[simp] theorem Group.setS2_wselIdx (r : Nat) (x : DWord) : (g.setS2 r x).wselIdx = g.wselIdx := rfl
@[simp] theorem Group.setS2_tags (r : Nat) (x : DWord) : (g.setS2 r x).tags = g.tags := rfl
@[simp] theorem Group.setS2_lpend (r : Nat) (x : DWord) : (g.setS2 r x).lpend = g.lpend := rfl
@[simp] theorem Group.setS2_sq (r : Nat) (x : DWord) : (g.setS2 r x).sq = g.sq := rfl
@[simp] theorem Group.setS2_tst (r : Nat) (x : DWord) : (g.setS2 r x).tst = g.tst := rfl
@[simp] theorem Group.setS2_cpark (r : Nat) (x : DWord) : (g.setS2 r x).cpark = g.cpark := rfl
@[simp] theorem Group.setS2_fetchPark (r : Nat) (x : DWord) : (g.setS2 r x).fetchPark = g.fetchPark := rfl
@[simp] theorem Group.setS2_walks (r : Nat) (x : DWord) : (g.setS2 r x).walks = g.walks := rfl
@[simp] theorem Group.setS2_fence (r : Nat) (x : DWord) : (g.setS2 r x).fence = g.fence := rfl

@[simp] theorem Group.setP_kind (n : Nat) (l x : Mask) : (g.setP n l x).kind = g.kind := by
  unfold Group.setP; split <;> rfl
@[simp] theorem Group.setP_st (n : Nat) (l x : Mask) : (g.setP n l x).st = g.st := by
  unfold Group.setP; split <;> rfl
@[simp] theorem Group.setP_pc (n : Nat) (l x : Mask) : (g.setP n l x).pc = g.pc := by
  unfold Group.setP; split <;> rfl
@[simp] theorem Group.setP_npc (n : Nat) (l x : Mask) : (g.setP n l x).npc = g.npc := by
  unfold Group.setP; split <;> rfl
@[simp] theorem Group.setP_ir (n : Nat) (l x : Mask) : (g.setP n l x).ir = g.ir := by
  unfold Group.setP; split <;> rfl
@[simp] theorem Group.setP_v (n : Nat) (l x : Mask) : (g.setP n l x).v = g.v := by
  unfold Group.setP; split <;> rfl
@[simp] theorem Group.setP_s (n : Nat) (l x : Mask) : (g.setP n l x).s = g.s := by
  unfold Group.setP; split <;> rfl
@[simp] theorem Group.setP_h (n : Nat) (l x : Mask) : (g.setP n l x).h = g.h := by
  unfold Group.setP; split <;> rfl
@[simp] theorem Group.setP_live (n : Nat) (l x : Mask) : (g.setP n l x).live = g.live := by
  unfold Group.setP; split <;> rfl
@[simp] theorem Group.setP_act (n : Nat) (l x : Mask) : (g.setP n l x).act = g.act := by
  unfold Group.setP; split <;> rfl
@[simp] theorem Group.setP_help (n : Nat) (l x : Mask) : (g.setP n l x).help = g.help := by
  unfold Group.setP; split <;> rfl
@[simp] theorem Group.setP_div (n : Nat) (l x : Mask) : (g.setP n l x).div = g.div := by
  unfold Group.setP; split <;> rfl
@[simp] theorem Group.setP_frm (n : Nat) (l x : Mask) : (g.setP n l x).frm = g.frm := by
  unfold Group.setP; split <;> rfl
@[simp] theorem Group.setP_fflags (n : Nat) (l x : Mask) : (g.setP n l x).fflags = g.fflags := by
  unfold Group.setP; split <;> rfl
@[simp] theorem Group.setP_regs (n : Nat) (l x : Mask) : (g.setP n l x).regs = g.regs := by
  unfold Group.setP; split <;> rfl
@[simp] theorem Group.setP_prio (n : Nat) (l x : Mask) : (g.setP n l x).prio = g.prio := by
  unfold Group.setP; split <;> rfl
@[simp] theorem Group.setP_age (n : Nat) (l x : Mask) : (g.setP n l x).age = g.age := by
  unfold Group.setP; split <;> rfl
@[simp] theorem Group.setP_aged (n : Nat) (l x : Mask) : (g.setP n l x).aged = g.aged := by
  unfold Group.setP; split <;> rfl
@[simp] theorem Group.setP_yielded (n : Nat) (l x : Mask) : (g.setP n l x).yielded = g.yielded := by
  unfold Group.setP; split <;> rfl
@[simp] theorem Group.setP_order (n : Nat) (l x : Mask) : (g.setP n l x).order = g.order := by
  unfold Group.setP; split <;> rfl
@[simp] theorem Group.setP_ctx (n : Nat) (l x : Mask) : (g.setP n l x).ctx = g.ctx := by
  unfold Group.setP; split <;> rfl
@[simp] theorem Group.setP_gangKey (n : Nat) (l x : Mask) : (g.setP n l x).gangKey = g.gangKey := by
  unfold Group.setP; split <;> rfl
@[simp] theorem Group.setP_ngroups (n : Nat) (l x : Mask) : (g.setP n l x).ngroups = g.ngroups := by
  unfold Group.setP; split <;> rfl
@[simp] theorem Group.setP_group (n : Nat) (l x : Mask) : (g.setP n l x).group = g.group := by
  unfold Group.setP; split <;> rfl
@[simp] theorem Group.setP_gang (n : Nat) (l x : Mask) : (g.setP n l x).gang = g.gang := by
  unfold Group.setP; split <;> rfl
@[simp] theorem Group.setP_span (n : Nat) (l x : Mask) : (g.setP n l x).span = g.span := by
  unfold Group.setP; split <;> rfl
@[simp] theorem Group.setP_member (n : Nat) (l x : Mask) : (g.setP n l x).member = g.member := by
  unfold Group.setP; split <;> rfl
@[simp] theorem Group.setP_queue (n : Nat) (l x : Mask) : (g.setP n l x).queue = g.queue := by
  unfold Group.setP; split <;> rfl
@[simp] theorem Group.setP_seqNo (n : Nat) (l x : Mask) : (g.setP n l x).seqNo = g.seqNo := by
  unfold Group.setP; split <;> rfl
@[simp] theorem Group.setP_spawned (n : Nat) (l x : Mask) : (g.setP n l x).spawned = g.spawned := by
  unfold Group.setP; split <;> rfl
@[simp] theorem Group.setP_spawnTab (n : Nat) (l x : Mask) : (g.setP n l x).spawnTab = g.spawnTab := by
  unfold Group.setP; split <;> rfl
@[simp] theorem Group.setP_args (n : Nat) (l x : Mask) : (g.setP n l x).args = g.args := by
  unfold Group.setP; split <;> rfl
@[simp] theorem Group.setP_bank (n : Nat) (l x : Mask) : (g.setP n l x).bank = g.bank := by
  unfold Group.setP; split <;> rfl
@[simp] theorem Group.setP_trapWait (n : Nat) (l x : Mask) : (g.setP n l x).trapWait = g.trapWait := by
  unfold Group.setP; split <;> rfl
@[simp] theorem Group.setP_preempting (n : Nat) (l x : Mask) : (g.setP n l x).preempting = g.preempting := by
  unfold Group.setP; split <;> rfl
@[simp] theorem Group.setP_trapcause (n : Nat) (l x : Mask) : (g.setP n l x).trapcause = g.trapcause := by
  unfold Group.setP; split <;> rfl
@[simp] theorem Group.setP_trapinfo (n : Nat) (l x : Mask) : (g.setP n l x).trapinfo = g.trapinfo := by
  unfold Group.setP; split <;> rfl
@[simp] theorem Group.setP_trappc (n : Nat) (l x : Mask) : (g.setP n l x).trappc = g.trappc := by
  unfold Group.setP; split <;> rfl
@[simp] theorem Group.setP_wselThr (n : Nat) (l x : Mask) : (g.setP n l x).wselThr = g.wselThr := by
  unfold Group.setP; split <;> rfl
@[simp] theorem Group.setP_wselIdx (n : Nat) (l x : Mask) : (g.setP n l x).wselIdx = g.wselIdx := by
  unfold Group.setP; split <;> rfl
@[simp] theorem Group.setP_tags (n : Nat) (l x : Mask) : (g.setP n l x).tags = g.tags := by
  unfold Group.setP; split <;> rfl
@[simp] theorem Group.setP_lpend (n : Nat) (l x : Mask) : (g.setP n l x).lpend = g.lpend := by
  unfold Group.setP; split <;> rfl
@[simp] theorem Group.setP_sq (n : Nat) (l x : Mask) : (g.setP n l x).sq = g.sq := by
  unfold Group.setP; split <;> rfl
@[simp] theorem Group.setP_tst (n : Nat) (l x : Mask) : (g.setP n l x).tst = g.tst := by
  unfold Group.setP; split <;> rfl
@[simp] theorem Group.setP_cpark (n : Nat) (l x : Mask) : (g.setP n l x).cpark = g.cpark := by
  unfold Group.setP; split <;> rfl
@[simp] theorem Group.setP_fetchPark (n : Nat) (l x : Mask) : (g.setP n l x).fetchPark = g.fetchPark := by
  unfold Group.setP; split <;> rfl
@[simp] theorem Group.setP_walks (n : Nat) (l x : Mask) : (g.setP n l x).walks = g.walks := by
  unfold Group.setP; split <;> rfl
@[simp] theorem Group.setP_fence (n : Nat) (l x : Mask) : (g.setP n l x).fence = g.fence := by
  unfold Group.setP; split <;> rfl

@[simp] theorem Group.wr_kind (w : Wr) : (g.wr w).kind = g.kind := by
  cases w <;> simp [Group.wr]
@[simp] theorem Group.wr_st (w : Wr) : (g.wr w).st = g.st := by
  cases w <;> simp [Group.wr]
@[simp] theorem Group.wr_pc (w : Wr) : (g.wr w).pc = g.pc := by
  cases w <;> simp [Group.wr]
@[simp] theorem Group.wr_npc (w : Wr) : (g.wr w).npc = g.npc := by
  cases w <;> simp [Group.wr]
@[simp] theorem Group.wr_ir (w : Wr) : (g.wr w).ir = g.ir := by
  cases w <;> simp [Group.wr]
@[simp] theorem Group.wr_live (w : Wr) : (g.wr w).live = g.live := by
  cases w <;> simp [Group.wr]
@[simp] theorem Group.wr_act (w : Wr) : (g.wr w).act = g.act := by
  cases w <;> simp [Group.wr]
@[simp] theorem Group.wr_help (w : Wr) : (g.wr w).help = g.help := by
  cases w <;> simp [Group.wr]
@[simp] theorem Group.wr_div (w : Wr) : (g.wr w).div = g.div := by
  cases w <;> simp [Group.wr]
@[simp] theorem Group.wr_frm (w : Wr) : (g.wr w).frm = g.frm := by
  cases w <;> simp [Group.wr]
@[simp] theorem Group.wr_fflags (w : Wr) : (g.wr w).fflags = g.fflags := by
  cases w <;> simp [Group.wr]
@[simp] theorem Group.wr_regs (w : Wr) : (g.wr w).regs = g.regs := by
  cases w <;> simp [Group.wr]
@[simp] theorem Group.wr_prio (w : Wr) : (g.wr w).prio = g.prio := by
  cases w <;> simp [Group.wr]
@[simp] theorem Group.wr_age (w : Wr) : (g.wr w).age = g.age := by
  cases w <;> simp [Group.wr]
@[simp] theorem Group.wr_aged (w : Wr) : (g.wr w).aged = g.aged := by
  cases w <;> simp [Group.wr]
@[simp] theorem Group.wr_yielded (w : Wr) : (g.wr w).yielded = g.yielded := by
  cases w <;> simp [Group.wr]
@[simp] theorem Group.wr_order (w : Wr) : (g.wr w).order = g.order := by
  cases w <;> simp [Group.wr]
@[simp] theorem Group.wr_ctx (w : Wr) : (g.wr w).ctx = g.ctx := by
  cases w <;> simp [Group.wr]
@[simp] theorem Group.wr_gangKey (w : Wr) : (g.wr w).gangKey = g.gangKey := by
  cases w <;> simp [Group.wr]
@[simp] theorem Group.wr_ngroups (w : Wr) : (g.wr w).ngroups = g.ngroups := by
  cases w <;> simp [Group.wr]
@[simp] theorem Group.wr_group (w : Wr) : (g.wr w).group = g.group := by
  cases w <;> simp [Group.wr]
@[simp] theorem Group.wr_gang (w : Wr) : (g.wr w).gang = g.gang := by
  cases w <;> simp [Group.wr]
@[simp] theorem Group.wr_span (w : Wr) : (g.wr w).span = g.span := by
  cases w <;> simp [Group.wr]
@[simp] theorem Group.wr_member (w : Wr) : (g.wr w).member = g.member := by
  cases w <;> simp [Group.wr]
@[simp] theorem Group.wr_queue (w : Wr) : (g.wr w).queue = g.queue := by
  cases w <;> simp [Group.wr]
@[simp] theorem Group.wr_seqNo (w : Wr) : (g.wr w).seqNo = g.seqNo := by
  cases w <;> simp [Group.wr]
@[simp] theorem Group.wr_spawned (w : Wr) : (g.wr w).spawned = g.spawned := by
  cases w <;> simp [Group.wr]
@[simp] theorem Group.wr_spawnTab (w : Wr) : (g.wr w).spawnTab = g.spawnTab := by
  cases w <;> simp [Group.wr]
@[simp] theorem Group.wr_args (w : Wr) : (g.wr w).args = g.args := by
  cases w <;> simp [Group.wr]
@[simp] theorem Group.wr_bank (w : Wr) : (g.wr w).bank = g.bank := by
  cases w <;> simp [Group.wr]
@[simp] theorem Group.wr_trapWait (w : Wr) : (g.wr w).trapWait = g.trapWait := by
  cases w <;> simp [Group.wr]
@[simp] theorem Group.wr_preempting (w : Wr) : (g.wr w).preempting = g.preempting := by
  cases w <;> simp [Group.wr]
@[simp] theorem Group.wr_trapcause (w : Wr) : (g.wr w).trapcause = g.trapcause := by
  cases w <;> simp [Group.wr]
@[simp] theorem Group.wr_trapinfo (w : Wr) : (g.wr w).trapinfo = g.trapinfo := by
  cases w <;> simp [Group.wr]
@[simp] theorem Group.wr_trappc (w : Wr) : (g.wr w).trappc = g.trappc := by
  cases w <;> simp [Group.wr]
@[simp] theorem Group.wr_wselThr (w : Wr) : (g.wr w).wselThr = g.wselThr := by
  cases w <;> simp [Group.wr]
@[simp] theorem Group.wr_wselIdx (w : Wr) : (g.wr w).wselIdx = g.wselIdx := by
  cases w <;> simp [Group.wr]
@[simp] theorem Group.wr_tags (w : Wr) : (g.wr w).tags = g.tags := by
  cases w <;> simp [Group.wr]
@[simp] theorem Group.wr_lpend (w : Wr) : (g.wr w).lpend = g.lpend := by
  cases w <;> simp [Group.wr]
@[simp] theorem Group.wr_sq (w : Wr) : (g.wr w).sq = g.sq := by
  cases w <;> simp [Group.wr]
@[simp] theorem Group.wr_tst (w : Wr) : (g.wr w).tst = g.tst := by
  cases w <;> simp [Group.wr]
@[simp] theorem Group.wr_cpark (w : Wr) : (g.wr w).cpark = g.cpark := by
  cases w <;> simp [Group.wr]
@[simp] theorem Group.wr_fetchPark (w : Wr) : (g.wr w).fetchPark = g.fetchPark := by
  cases w <;> simp [Group.wr]
@[simp] theorem Group.wr_walks (w : Wr) : (g.wr w).walks = g.walks := by
  cases w <;> simp [Group.wr]
@[simp] theorem Group.wr_fence (w : Wr) : (g.wr w).fence = g.fence := by
  cases w <;> simp [Group.wr]

@[simp] theorem Group.wrs_kind (ws : List Wr) : (g.wrs ws).kind = g.kind := by
  unfold Group.wrs
  induction ws generalizing g with
  | nil => rfl
  | cons w ws ih => simp [ih]
@[simp] theorem Group.wrs_st (ws : List Wr) : (g.wrs ws).st = g.st := by
  unfold Group.wrs
  induction ws generalizing g with
  | nil => rfl
  | cons w ws ih => simp [ih]
@[simp] theorem Group.wrs_pc (ws : List Wr) : (g.wrs ws).pc = g.pc := by
  unfold Group.wrs
  induction ws generalizing g with
  | nil => rfl
  | cons w ws ih => simp [ih]
@[simp] theorem Group.wrs_npc (ws : List Wr) : (g.wrs ws).npc = g.npc := by
  unfold Group.wrs
  induction ws generalizing g with
  | nil => rfl
  | cons w ws ih => simp [ih]
@[simp] theorem Group.wrs_ir (ws : List Wr) : (g.wrs ws).ir = g.ir := by
  unfold Group.wrs
  induction ws generalizing g with
  | nil => rfl
  | cons w ws ih => simp [ih]
@[simp] theorem Group.wrs_live (ws : List Wr) : (g.wrs ws).live = g.live := by
  unfold Group.wrs
  induction ws generalizing g with
  | nil => rfl
  | cons w ws ih => simp [ih]
@[simp] theorem Group.wrs_act (ws : List Wr) : (g.wrs ws).act = g.act := by
  unfold Group.wrs
  induction ws generalizing g with
  | nil => rfl
  | cons w ws ih => simp [ih]
@[simp] theorem Group.wrs_help (ws : List Wr) : (g.wrs ws).help = g.help := by
  unfold Group.wrs
  induction ws generalizing g with
  | nil => rfl
  | cons w ws ih => simp [ih]
@[simp] theorem Group.wrs_div (ws : List Wr) : (g.wrs ws).div = g.div := by
  unfold Group.wrs
  induction ws generalizing g with
  | nil => rfl
  | cons w ws ih => simp [ih]
@[simp] theorem Group.wrs_frm (ws : List Wr) : (g.wrs ws).frm = g.frm := by
  unfold Group.wrs
  induction ws generalizing g with
  | nil => rfl
  | cons w ws ih => simp [ih]
@[simp] theorem Group.wrs_fflags (ws : List Wr) : (g.wrs ws).fflags = g.fflags := by
  unfold Group.wrs
  induction ws generalizing g with
  | nil => rfl
  | cons w ws ih => simp [ih]
@[simp] theorem Group.wrs_regs (ws : List Wr) : (g.wrs ws).regs = g.regs := by
  unfold Group.wrs
  induction ws generalizing g with
  | nil => rfl
  | cons w ws ih => simp [ih]
@[simp] theorem Group.wrs_prio (ws : List Wr) : (g.wrs ws).prio = g.prio := by
  unfold Group.wrs
  induction ws generalizing g with
  | nil => rfl
  | cons w ws ih => simp [ih]
@[simp] theorem Group.wrs_age (ws : List Wr) : (g.wrs ws).age = g.age := by
  unfold Group.wrs
  induction ws generalizing g with
  | nil => rfl
  | cons w ws ih => simp [ih]
@[simp] theorem Group.wrs_aged (ws : List Wr) : (g.wrs ws).aged = g.aged := by
  unfold Group.wrs
  induction ws generalizing g with
  | nil => rfl
  | cons w ws ih => simp [ih]
@[simp] theorem Group.wrs_yielded (ws : List Wr) : (g.wrs ws).yielded = g.yielded := by
  unfold Group.wrs
  induction ws generalizing g with
  | nil => rfl
  | cons w ws ih => simp [ih]
@[simp] theorem Group.wrs_order (ws : List Wr) : (g.wrs ws).order = g.order := by
  unfold Group.wrs
  induction ws generalizing g with
  | nil => rfl
  | cons w ws ih => simp [ih]
@[simp] theorem Group.wrs_ctx (ws : List Wr) : (g.wrs ws).ctx = g.ctx := by
  unfold Group.wrs
  induction ws generalizing g with
  | nil => rfl
  | cons w ws ih => simp [ih]
@[simp] theorem Group.wrs_gangKey (ws : List Wr) : (g.wrs ws).gangKey = g.gangKey := by
  unfold Group.wrs
  induction ws generalizing g with
  | nil => rfl
  | cons w ws ih => simp [ih]
@[simp] theorem Group.wrs_ngroups (ws : List Wr) : (g.wrs ws).ngroups = g.ngroups := by
  unfold Group.wrs
  induction ws generalizing g with
  | nil => rfl
  | cons w ws ih => simp [ih]
@[simp] theorem Group.wrs_group (ws : List Wr) : (g.wrs ws).group = g.group := by
  unfold Group.wrs
  induction ws generalizing g with
  | nil => rfl
  | cons w ws ih => simp [ih]
@[simp] theorem Group.wrs_gang (ws : List Wr) : (g.wrs ws).gang = g.gang := by
  unfold Group.wrs
  induction ws generalizing g with
  | nil => rfl
  | cons w ws ih => simp [ih]
@[simp] theorem Group.wrs_span (ws : List Wr) : (g.wrs ws).span = g.span := by
  unfold Group.wrs
  induction ws generalizing g with
  | nil => rfl
  | cons w ws ih => simp [ih]
@[simp] theorem Group.wrs_member (ws : List Wr) : (g.wrs ws).member = g.member := by
  unfold Group.wrs
  induction ws generalizing g with
  | nil => rfl
  | cons w ws ih => simp [ih]
@[simp] theorem Group.wrs_queue (ws : List Wr) : (g.wrs ws).queue = g.queue := by
  unfold Group.wrs
  induction ws generalizing g with
  | nil => rfl
  | cons w ws ih => simp [ih]
@[simp] theorem Group.wrs_seqNo (ws : List Wr) : (g.wrs ws).seqNo = g.seqNo := by
  unfold Group.wrs
  induction ws generalizing g with
  | nil => rfl
  | cons w ws ih => simp [ih]
@[simp] theorem Group.wrs_spawned (ws : List Wr) : (g.wrs ws).spawned = g.spawned := by
  unfold Group.wrs
  induction ws generalizing g with
  | nil => rfl
  | cons w ws ih => simp [ih]
@[simp] theorem Group.wrs_spawnTab (ws : List Wr) : (g.wrs ws).spawnTab = g.spawnTab := by
  unfold Group.wrs
  induction ws generalizing g with
  | nil => rfl
  | cons w ws ih => simp [ih]
@[simp] theorem Group.wrs_args (ws : List Wr) : (g.wrs ws).args = g.args := by
  unfold Group.wrs
  induction ws generalizing g with
  | nil => rfl
  | cons w ws ih => simp [ih]
@[simp] theorem Group.wrs_bank (ws : List Wr) : (g.wrs ws).bank = g.bank := by
  unfold Group.wrs
  induction ws generalizing g with
  | nil => rfl
  | cons w ws ih => simp [ih]
@[simp] theorem Group.wrs_trapWait (ws : List Wr) : (g.wrs ws).trapWait = g.trapWait := by
  unfold Group.wrs
  induction ws generalizing g with
  | nil => rfl
  | cons w ws ih => simp [ih]
@[simp] theorem Group.wrs_preempting (ws : List Wr) : (g.wrs ws).preempting = g.preempting := by
  unfold Group.wrs
  induction ws generalizing g with
  | nil => rfl
  | cons w ws ih => simp [ih]
@[simp] theorem Group.wrs_trapcause (ws : List Wr) : (g.wrs ws).trapcause = g.trapcause := by
  unfold Group.wrs
  induction ws generalizing g with
  | nil => rfl
  | cons w ws ih => simp [ih]
@[simp] theorem Group.wrs_trapinfo (ws : List Wr) : (g.wrs ws).trapinfo = g.trapinfo := by
  unfold Group.wrs
  induction ws generalizing g with
  | nil => rfl
  | cons w ws ih => simp [ih]
@[simp] theorem Group.wrs_trappc (ws : List Wr) : (g.wrs ws).trappc = g.trappc := by
  unfold Group.wrs
  induction ws generalizing g with
  | nil => rfl
  | cons w ws ih => simp [ih]
@[simp] theorem Group.wrs_wselThr (ws : List Wr) : (g.wrs ws).wselThr = g.wselThr := by
  unfold Group.wrs
  induction ws generalizing g with
  | nil => rfl
  | cons w ws ih => simp [ih]
@[simp] theorem Group.wrs_wselIdx (ws : List Wr) : (g.wrs ws).wselIdx = g.wselIdx := by
  unfold Group.wrs
  induction ws generalizing g with
  | nil => rfl
  | cons w ws ih => simp [ih]
@[simp] theorem Group.wrs_tags (ws : List Wr) : (g.wrs ws).tags = g.tags := by
  unfold Group.wrs
  induction ws generalizing g with
  | nil => rfl
  | cons w ws ih => simp [ih]
@[simp] theorem Group.wrs_lpend (ws : List Wr) : (g.wrs ws).lpend = g.lpend := by
  unfold Group.wrs
  induction ws generalizing g with
  | nil => rfl
  | cons w ws ih => simp [ih]
@[simp] theorem Group.wrs_sq (ws : List Wr) : (g.wrs ws).sq = g.sq := by
  unfold Group.wrs
  induction ws generalizing g with
  | nil => rfl
  | cons w ws ih => simp [ih]
@[simp] theorem Group.wrs_tst (ws : List Wr) : (g.wrs ws).tst = g.tst := by
  unfold Group.wrs
  induction ws generalizing g with
  | nil => rfl
  | cons w ws ih => simp [ih]
@[simp] theorem Group.wrs_cpark (ws : List Wr) : (g.wrs ws).cpark = g.cpark := by
  unfold Group.wrs
  induction ws generalizing g with
  | nil => rfl
  | cons w ws ih => simp [ih]
@[simp] theorem Group.wrs_fetchPark (ws : List Wr) : (g.wrs ws).fetchPark = g.fetchPark := by
  unfold Group.wrs
  induction ws generalizing g with
  | nil => rfl
  | cons w ws ih => simp [ih]
@[simp] theorem Group.wrs_walks (ws : List Wr) : (g.wrs ws).walks = g.walks := by
  unfold Group.wrs
  induction ws generalizing g with
  | nil => rfl
  | cons w ws ih => simp [ih]
@[simp] theorem Group.wrs_fence (ws : List Wr) : (g.wrs ws).fence = g.fence := by
  unfold Group.wrs
  induction ws generalizing g with
  | nil => rfl
  | cons w ws ih => simp [ih]

end Sys2Proof.Machine
end

