-- ==== Sys2Proof/Laws/Issue.lean ====
section
/-!
SUPPORT. What the issue of a word can do, said once: how each of its checks ends it, and what its meaning makes of it.
-/
namespace Sys2Proof.Machine

/-- Past the checks, the meaning decides. -/
theorem issueWord_body (s : State) (p : Nat) (g : Group) (i : Instr) (x : Sched) (vs : List Nat) (body : Issuer → Issue)
    (h : s.Issues p g i vs) :
    issueWord i x vs s body = match body { p := p, g := g } with
      | .done t g' => .next (t.setGrp p (g'.issued x g.lpend.length g.npc)).endTurn
      | .jump t g' pc => .next (t.setGrp p (g'.issued x g.lpend.length pc)).endTurn
      | .trap c info => .next (s.endTurn.takeTrap p { cause := c, info := info, pc := g.pc })
      | .trapNext c info => .next ((s.setGrp p (g.yields x)).endTurn.takeTrap p { cause := c, info := info, pc := g.npc })
      | .wait t => .next (t.modGrp p Group.hold).endTurn
      | .gone t => .next t.endTurn := by
  obtain ⟨hc, hg, hw, hr, hm, hb⟩ := h
  have h1 : (!i.wf || (g.kind == .reel && !g.inTrap && !reelAllows i)) = false := by
    simp only [hw, Bool.not_true, Bool.false_or]
    cases hk : (g.kind == GKind.reel) <;> cases ht : g.inTrap <;> simp
    exact hr (by simpa using hk) ht
  have h2 : (isPrivileged i && !g.privileged) = false := by
    cases hi : isPrivileged i <;> simp
    exact hm hi
  have h3 : vs.find? (fun r => decide (g.regs ≤ r)) = none := by
    rw [List.find?_eq_none]
    intro r hr
    have := hb r hr
    simp only [decide_eq_true_eq]
    omega
  simp only [issueWord, hc, hg, h1, h2, h3, Bool.false_eq_true, if_false]
  all_goals (generalize body { p := p, g := g } = b; cases b <;> rfl)

/-- An illegal word traps (R288). -/
theorem issueWord_illegal (s : State) (p : Nat) (g : Group) (i : Instr) (x : Sched) (vs : List Nat) (body : Issuer → Issue)
    (hc : s.cur = some p) (hg : s.grp p = some g) (h : i.wf = false) :
    issueWord i x vs s body
      = .next (s.endTurn.takeTrap p { cause := .illegal, info := g.ir, pc := g.pc }) := by
  simp [issueWord, hc, hg, h]

/-- A privileged word traps in program mode (R194). -/
theorem issueWord_privilege (s : State) (p : Nat) (g : Group) (i : Instr) (x : Sched) (vs : List Nat) (body : Issuer → Issue)
    (hc : s.cur = some p) (hg : s.grp p = some g) (hw : i.wf = true) (hk : g.kind ≠ .reel) (hi : isPrivileged i = true)
    (h : g.privileged = false) :
    issueWord i x vs s body
      = .next (s.endTurn.takeTrap p { cause := .privilege, info := g.ir, pc := g.pc }) := by
  have : (g.kind == GKind.reel) = false := by simpa using hk
  simp [issueWord, hc, hg, hw, hi, h, this]

/-- The first vector register at or above the budget traps with its number (R27, R195). -/
theorem issueWord_budget (s : State) (p : Nat) (g : Group) (i : Instr) (x : Sched) (vs : List Nat) (body : Issuer → Issue) (r : Nat)
    (hc : s.cur = some p) (hg : s.grp p = some g) (hw : i.wf = true) (hk : g.kind ≠ .reel)
    (hi : (isPrivileged i && !g.privileged) = false) (hr : vs.find? (fun r => g.regs ≤ r) = some r) :
    issueWord i x vs s body
      = .next (s.endTurn.takeTrap p { cause := .regBudget, info := bv 64 r, pc := g.pc }) := by
  have : (g.kind == GKind.reel) = false := by simpa using hk
  simp [issueWord, hc, hg, hw, this, hi, hr]

/-- Whatever it does, the issue of a word neither stops the machine nor refuses. -/
theorem issueWord_next (s : State) (i : Instr) (x : Sched) (vs : List Nat) (body : Issuer → Issue) :
    ∃ t, issueWord i x vs s body = .next t := by
  unfold issueWord
  split
  · exact ⟨_, rfl⟩
  · split
    · exact ⟨_, rfl⟩
    · dsimp only
      split
      · exact ⟨_, rfl⟩
      · split
        · exact ⟨_, rfl⟩
        · split
          · exact ⟨_, rfl⟩
          · split <;> exact ⟨_, rfl⟩

/-- A trap of a group in program mode that is quiet is entered at once (R196). -/
theorem State.takeTrap_enter (s : State) (p : Nat) (g : Group) (r : TrapReq) (hg : s.grp p = some g)
    (hs : g.st ≠ .killed) (hs' : g.st ≠ .retiring) (ht : g.inTrap = false) (hk : g.kind = .ordinary) (hq : g.quiet = true)
    (hr : r.cause ≠ .preempt) (hw : g.trapWait = none) (hc : g.cpark = none) :
    s.takeTrap p r = s.setGrp p (g.enterTrap (s.die (placeDie p)).trapentry r) := by
  simp [State.takeTrap, hg, hs, hs', ht, hk, hq, hr, hc, Group.overtaken, hw]

/-- In trap mode a trap fails the launch (R196). -/
theorem State.takeTrap_double (s : State) (p : Nat) (g : Group) (r : TrapReq) (hg : s.grp p = some g)
    (hs : g.st ≠ .killed) (hs' : g.st ≠ .retiring) (ht : g.inTrap = true) :
    s.takeTrap p r = s.failLaunch g.queue g.seqNo 0x03 := by
  simp [State.takeTrap, hg, hs, hs', ht]

end Sys2Proof.Machine
end

