-- ==== Sys2Proof/Laws/Alu.lean ====
section
/-!
SUPPORT. What the shared bodies of the arithmetic, cross-lane and predicate words do, said once for any lane function.
-/
namespace Sys2Proof.Machine

theorem maskLanes_one : maskLanes 1 = [0] := by decide

/-- Setting no flag leaves the flags. -/
theorem Group.raise_zero (g : Group) : g.raise 0 = g := by
  have : g.fflags ||| 0 = g.fflags := BitVec.or_zero
  unfold Group.raise
  rw [this]

/-- Threads that set no flag set none together. -/
theorem laneFlags_zero (act : Mask) (xs : List (Nat × Flags)) (h : ∀ x ∈ xs, x.2 = 0) : laneFlags act xs = 0 := by
  unfold laneFlags
  have : ∀ f : Flags, f = 0 → xs.foldl (fun f x => if act.getLsbD x.1 then f ||| x.2 else f) f = 0 := by
    induction xs with
    | nil => exact fun _ hf => hf
    | cons x xs ih =>
      intro f hf
      refine ih (fun y hy => h y (List.mem_cons_of_mem _ hy)) _ ?_
      have hx := h x List.mem_cons_self
      subst hf
      dsimp only
      rw [hx]
      split <;> rfl
  exact this 0 rfl

/-- An arithmetic word that touches no queue: its lane function in every lane that computes, and nothing else. -/
theorem aluBody_noQueue (s : State) (p : Nat) (g : Group) (i : Instr) (a : Alu)
    (f : Rm → (Nat → List Nat) → Nat → Nat → Nat × Flags) (hi : s.Issues p g i a.regs) (hq : a.noQueue) :
    issueWord i a.h.sched a.regs s (aluBody s a.h a.uc a.long a.d a.dw a.xs f)
      = .next (s.wrote p (a.after g (fun i => (f (Rm.of g.frm) (a.inputs g []) i (g.old i a.d)).1)
          (fun i => (f (Rm.of g.frm) (a.inputs g []) i (g.old i a.d)).2))) := by
  rw [issueWord_body s p g i _ _ _ hi]
  unfold aluBody
  dsimp only
  by_cases hu : a.uniform = true
  · rw [if_pos (show isUniform a.uc a.d a.xs = true from hu)]
    simp only [Alu.after, Alu.flags, Alu.writes, hu, if_true, Alu.mask, maskLanes_one, List.map_cons, List.map_nil,
      List.flatten_cons, List.flatten_nil, List.append_nil]
    cases a.long <;> rfl
  · have hu' : isUniform a.uc a.d a.xs = false := by rw [← Bool.not_eq_true]; exact hu
    rw [if_neg (by simp [hu'])]
    have hn : ((queuesOf (a.xs.map (·.o))).isEmpty && (queuesOf [a.d]).isEmpty) = true := by
      obtain ⟨h1, h2⟩ := hq
      simp only [Alu.popsOf, Alu.pushesTo] at h1 h2
      simp [h1, h2]
    rw [if_pos (by simpa using hn)]
    simp only [Alu.after, Alu.flags, Alu.writes, hu', Alu.uniform, Alu.mask, Bool.false_eq_true, if_false, List.map_map]
    cases a.long <;> rfl

end Sys2Proof.Machine
end

