-- ==== Sys2Proof/Laws/Decode.lean ====
section
/-!
SUPPORT. Each field code reads back as what it stands for, and a word's fields lie apart.
-/
namespace Sys2Proof

@[simp] theorem Opd.ofCode_code (o : Opd) : Opd.ofCode o.code = some o := by
  cases o with
  | v n => revert n; decide
  | s n => revert n; decide
  | q n => revert n; decide
  | zero => rfl
  | tid => rfl

@[simp] theorem opd_code (o : Opd) : opd o.code = .ok o := by simp [opd, orErr]

@[simp] theorem SrcMod.ofCode_code (m : SrcMod) : SrcMod.ofCode m.code = m := by
  cases m with
  | b k => revert k; decide
  | k n => revert n; decide
  | _ => rfl

@[simp] theorem DstHalf.ofCode_code (x : DstHalf) : DstHalf.ofCode x.code = some x := by cases x <;> rfl

@[simp] theorem Order.ofCode_code (x : Order) : Order.ofCode x.code = x := by cases x <;> rfl

@[simp] theorem Scope.ofCode_code (x : Scope) : Scope.ofCode x.code = some x := by cases x <;> rfl

@[simp] theorem Guard.ofCode_code (g : Guard) : Guard.ofCode g.code = g := by
  obtain ⟨n, p⟩ := g
  cases n <;> revert p <;> decide

@[simp] theorem Csr.ofCode_code (x : Csr) : Csr.ofCode x.code = some x := by cases x <;> rfl

@[simp] theorem HalfOp.ofCode_code (x : HalfOp) : HalfOp.ofCode x.code = some x := by cases x <;> rfl

/-- A type of a column reads back from its code there. -/
theorem Ty.ofCode_code_int (t : Ty) (h : tyIntCol.contains t = true) : Ty.ofCode tyIntCol (Ty.code tyIntCol t) = some t := by
  cases t <;> first | rfl | (exfalso; revert h; decide)

theorem Ty.ofCode_code_float (t : Ty) (h : tyFloatCol.contains t = true) :
    Ty.ofCode tyFloatCol (Ty.code tyFloatCol t) = some t := by
  cases t <;> first | rfl | (exfalso; revert h; decide)

theorem Ty.ofCode_code_cross (t : Ty) (h : tyCrossCol.contains t = true) :
    Ty.ofCode tyCrossCol (Ty.code tyCrossCol t) = some t := by
  cases t <;> first | rfl | (exfalso; revert h; decide)

theorem Ty.ofCode_code_mem (t : Ty) (h : tyMemCol.contains t = true) : Ty.ofCode tyMemCol (Ty.code tyMemCol t) = some t := by
  cases t <;> first | rfl | (exfalso; revert h; decide)

@[simp] theorem AtomOp.ofCode_code (x : AtomOp) : atomOps[x.code.toNat]? = some x := by cases x <;> rfl

@[simp] theorem BdecKind.ofCode_code (x : BdecKind) : bdecKinds[x.code.toNat]? = some x := by cases x <;> rfl

/-- Bits of the upper part of a word. -/
theorem extract_high {v w : Nat} (x : BitVec v) (y : BitVec w) (lo n : Nat) (h : w ≤ lo) :
    (x ++ y).extractLsb' lo n = x.extractLsb' (lo - w) n := BitVec.extractLsb'_append_eq_of_le h

/-- Bits of the lower part. -/
theorem extract_low {v w : Nat} (x : BitVec v) (y : BitVec w) (lo n : Nat) (h : lo + n ≤ w) :
    (x ++ y).extractLsb' lo n = y.extractLsb' lo n := BitVec.extractLsb'_append_eq_of_add_le h

/-- The schedule field reads back. -/
@[simp] theorem Sched.ofBits_toBits (x : Sched) : Sched.ofBits x.toBits = x := by
  obtain ⟨ru, yld, w2, w1, set, la⟩ := x
  simp (disch := decide) only [Sched.ofBits, Sched.toBits, Sched.mk.injEq, extract_high, extract_low, Nat.sub_self,
    Nat.reduceSub, BitVec.extractLsb'_eq_self]
  simp only [BitVec.getLsbD_append]
  cases yld <;> simp

/-- The fields of a full-format word read back. -/
@[simp] theorem Raw.ofBits_toBits (r : Raw) : Raw.ofBits r.toBits = r := by
  obtain ⟨op, d, a, b, c, g, m⟩ := r
  simp (disch := decide) only [Raw.ofBits, Raw.toBits, extract_high, extract_low, Nat.sub_self,
    Nat.reduceSub, BitVec.extractLsb'_eq_self, BitVec.cast_eq]

/-! ## The fields of bits 16:0, variant by variant -/

theorem rform_fields (ty : BitVec 4) (sub : BitVec 3) (half : BitVec 2) (mb ma : BitVec 4) :
    (ty ++ sub ++ half ++ mb ++ ma : BitVec 17).extractLsb' 13 4 = ty
    ∧ (ty ++ sub ++ half ++ mb ++ ma : BitVec 17).extractLsb' 10 3 = sub
    ∧ (ty ++ sub ++ half ++ mb ++ ma : BitVec 17).extractLsb' 8 2 = half
    ∧ (ty ++ sub ++ half ++ mb ++ ma : BitVec 17).extractLsb' 4 4 = mb
    ∧ (ty ++ sub ++ half ++ mb ++ ma : BitVec 17).extractLsb' 0 4 = ma := by
  simp (disch := decide) only [extract_high, extract_low, Nat.sub_self, Nat.reduceSub, BitVec.extractLsb'_eq_self, and_self]

/-- A register-variant arithmetic word reads back (R275). -/
theorem RForm.read_raw (op : BitVec 10) (col : List Ty) (h : Hdr) (r : RForm)
    (ht : Ty.ofCode col (Ty.code col r.ty) = some r.ty) : Raw.rform (RForm.raw op col h r) col = .ok r := by
  obtain ⟨e1, e2, e3, e4, e5⟩ := rform_fields (Ty.code col r.ty) r.sub r.half.code r.mb.code r.ma.code
  simp only [Raw.rform, RForm.raw, e1, e2, e3, e4, e5, ht, orErr, DstHalf.ofCode_code, opd_code, SrcMod.ofCode_code]
  rfl

/-- The operation field and the schedule field of a word. -/
theorem word_parts (x : Half) (op : DWord) :
    (x ++ op).extractLsb' 0 64 = op ∧ (x ++ op).extractLsb' 64 16 = x := by
  constructor
  · rw [extract_low _ _ _ _ (by decide), BitVec.extractLsb'_eq_self]
  · rw [extract_high _ _ _ _ (by decide), Nat.sub_self, BitVec.extractLsb'_eq_self]

/-- A full-format word has bit 63 clear. -/
theorem Raw.bit63 (r : Raw) : r.toBits.getLsbD 63 = false := by
  obtain ⟨op, d, a, b, c, g, m⟩ := r
  simp only [Raw.toBits, BitVec.getLsbD_cast, BitVec.getLsbD_append]
  simp

/-- A full-format instruction reads back from its word when its fields read back. -/
theorem decode_full (i : Instr) (r : Raw) (hd : i.opField = some r.toBits) (hw : i.wf = true) (hi : r.instr i.sched = .ok i) :
    ∃ w, encode i = some w ∧ decodeWord w = .ok i := by
  refine ⟨i.sched.toBits ++ r.toBits, by simp [encode, hd], ?_⟩
  unfold decodeWord
  rw [(word_parts _ _).1, (word_parts _ _).2]
  simp only [decodeFields, Raw.bit63, Bool.false_eq_true, if_false, Sched.ofBits_toBits, Raw.ofBits_toBits, hi]
  simp [bind, Except.bind, need, hw]

end Sys2Proof
end

