-- ==== Sys2Proof/Laws/SMap.lean ====
section
/-!
SUPPORT. Sparse maps: reading after writing, and that every operation keeps the keys strictly rising.
-/
namespace Sys2Proof.Machine

variable {α : Type}

/-! ## Reading after writing -/

theorem SMap.find_put (m : SMap α) (n : Nat) (y : α) : (m.put n y).find n = some y := by
  induction m with
  | nil => simp [SMap.put, SMap.find]
  | cons x m ih =>
    obtain ⟨k, x⟩ := x
    by_cases h1 : n < k
    · simp [SMap.put, SMap.find, h1]
    · by_cases h2 : n = k
      · simp [SMap.put, SMap.find, h2]
      · simp [SMap.put, SMap.find, h1, h2, ih]

theorem SMap.find_put_ne (m : SMap α) (n j : Nat) (y : α) (h : j ≠ n) : (m.put n y).find j = m.find j := by
  induction m with
  | nil => simp [SMap.put, SMap.find, h]
  | cons x m ih =>
    obtain ⟨k, x⟩ := x
    by_cases h1 : n < k
    · simp only [SMap.put, h1, ↓reduceIte, SMap.find, h]
      split
      · rw [if_pos (by omega)]
      · rfl
    · by_cases h2 : n = k
      · subst h2
        simp [SMap.put, SMap.find, h]
      · simp [SMap.put, SMap.find, h1, h2, ih]

/-- Keys that rise from a bound lie above it. -/
theorem SMap.find_below (m : SMap α) (lo j : Nat) (h : SMap.risingFrom (some lo) m = true) (hj : j ≤ lo) :
    m.find j = none := by
  cases m with
  | nil => rfl
  | cons x m =>
    obtain ⟨k, x⟩ := x
    simp only [SMap.risingFrom, Bool.and_eq_true, decide_eq_true_eq] at h
    simp [SMap.find, show j < k by omega]

theorem SMap.risingFrom_weaken (m : SMap α) (lo : Option Nat) (h : SMap.risingFrom lo m = true) : m.wf = true := by
  unfold SMap.wf
  cases lo with
  | none => exact h
  | some j =>
    cases m with
    | nil => rfl
    | cons x m =>
      obtain ⟨k, x⟩ := x
      simp only [SMap.risingFrom, Bool.and_eq_true] at h ⊢
      exact h.2

theorem SMap.risingFrom_lower (m : SMap α) (a b : Nat) (hab : a ≤ b) (h : SMap.risingFrom (some b) m = true) :
    SMap.risingFrom (some a) m = true := by
  cases m with
  | nil => rfl
  | cons x m =>
    obtain ⟨k, x⟩ := x
    simp only [SMap.risingFrom, Bool.and_eq_true, decide_eq_true_eq] at h ⊢
    exact ⟨by omega, h.2⟩

theorem SMap.wf_cons (k : Nat) (x : α) (m : SMap α) : SMap.wf ((k, x) :: m) = SMap.risingFrom (some k) m := rfl

theorem SMap.find_del (m : SMap α) (n : Nat) (h : m.wf = true) : (m.del n).find n = none := by
  induction m with
  | nil => rfl
  | cons x m ih =>
    obtain ⟨k, x⟩ := x
    rw [SMap.wf_cons] at h
    by_cases h1 : n < k
    · simp [SMap.del, SMap.find, h1]
    · by_cases h2 : n = k
      · subst h2
        simp [SMap.del, SMap.find_below m n n h]
      · simp [SMap.del, SMap.find, h1, h2, ih (SMap.risingFrom_weaken m _ h)]

theorem SMap.find_del_ne (m : SMap α) (n j : Nat) (h : m.wf = true) (hj : j ≠ n) : (m.del n).find j = m.find j := by
  induction m with
  | nil => rfl
  | cons x m ih =>
    obtain ⟨k, x⟩ := x
    rw [SMap.wf_cons] at h
    by_cases h1 : n < k
    · simp [SMap.del, h1]
    · by_cases h2 : n = k
      · subst h2
        simp only [SMap.del, Nat.lt_irrefl, ↓reduceIte, SMap.find, hj]
        split
        · exact SMap.find_below m n j h (by omega)
        · rfl
      · simp [SMap.del, SMap.find, h1, h2, ih (SMap.risingFrom_weaken m _ h)]

theorem SMap.getD_setD [DecidableEq α] (m : SMap α) (n : Nat) (y d : α) (h : m.wf = true) :
    (m.setD n y d).getD n d = y := by
  unfold SMap.setD
  split
  · rename_i e
    simp [SMap.getD, SMap.find_del m n h, e]
  · simp [SMap.getD, SMap.find_put]

theorem SMap.getD_setD_ne [DecidableEq α] (m : SMap α) (n j : Nat) (y d : α) (h : m.wf = true) (hj : j ≠ n) :
    (m.setD n y d).getD j d = m.getD j d := by
  unfold SMap.setD
  split
  · simp [SMap.getD, SMap.find_del_ne m n j h hj]
  · simp [SMap.getD, SMap.find_put_ne m n j y hj]

/-! ## The canonical form -/

theorem SMap.rising_put (m : SMap α) (lo : Option Nat) (n : Nat) (y : α) (h : SMap.risingFrom lo m = true)
    (hn : ∀ j, lo = some j → j < n) : SMap.risingFrom lo (m.put n y) = true := by
  induction m generalizing lo with
  | nil =>
    cases lo with
    | none => rfl
    | some j => simp [SMap.put, SMap.risingFrom, hn j rfl]
  | cons x m ih =>
    obtain ⟨k, x⟩ := x
    have hk : SMap.risingFrom (some k) m = true := by
      cases lo with
      | none => exact h
      | some j =>
        simp only [SMap.risingFrom, Bool.and_eq_true] at h
        exact h.2
    by_cases h1 : n < k
    · have : SMap.risingFrom (some n) ((k, x) :: m) = true := by simp [SMap.risingFrom, h1, hk]
      cases lo with
      | none => simpa [SMap.put, h1, SMap.risingFrom] using this
      | some j => simpa [SMap.put, h1, SMap.risingFrom, hn j rfl] using this
    · by_cases h2 : n = k
      · subst h2
        cases lo with
        | none => simpa [SMap.put, SMap.risingFrom] using hk
        | some j => simpa [SMap.put, SMap.risingFrom, hn j rfl] using hk
      · have := ih (some k) hk (fun j hj => by injection hj; omega)
        cases lo with
        | none => simpa [SMap.put, h1, h2, SMap.risingFrom] using this
        | some j =>
          simp only [SMap.risingFrom, Bool.and_eq_true, decide_eq_true_eq] at h
          simpa [SMap.put, h1, h2, SMap.risingFrom, h.1] using this

theorem SMap.rising_del (m : SMap α) (lo : Option Nat) (n : Nat) (h : SMap.risingFrom lo m = true) :
    SMap.risingFrom lo (m.del n) = true := by
  induction m generalizing lo with
  | nil => simpa [SMap.del] using h
  | cons x m ih =>
    obtain ⟨k, x⟩ := x
    have hk : SMap.risingFrom (some k) m = true := by
      cases lo with
      | none => exact h
      | some j =>
        simp only [SMap.risingFrom, Bool.and_eq_true] at h
        exact h.2
    by_cases h1 : n < k
    · simpa [SMap.del, h1] using h
    · by_cases h2 : n = k
      · subst h2
        cases lo with
        | none =>
          simp only [SMap.del, Nat.lt_irrefl, ↓reduceIte]
          exact SMap.risingFrom_weaken m _ hk
        | some j =>
          simp only [SMap.risingFrom, Bool.and_eq_true, decide_eq_true_eq] at h
          simp only [SMap.del, Nat.lt_irrefl, ↓reduceIte]
          exact SMap.risingFrom_lower m j n (by omega) hk
      · have := ih (some k) hk
        cases lo with
        | none => simpa [SMap.del, h1, h2, SMap.risingFrom] using this
        | some j =>
          simp only [SMap.risingFrom, Bool.and_eq_true, decide_eq_true_eq] at h
          simpa [SMap.del, h1, h2, SMap.risingFrom, h.1] using this

theorem SMap.wf_put (m : SMap α) (n : Nat) (y : α) (h : m.wf = true) : (m.put n y).wf = true :=
  SMap.rising_put m none n y h (fun _ hj => by cases hj)

theorem SMap.wf_del (m : SMap α) (n : Nat) (h : m.wf = true) : (m.del n).wf = true := SMap.rising_del m none n h

theorem SMap.all_put (m : SMap α) (f : Nat × α → Bool) (n : Nat) (y : α) (h : m.all f = true) (hy : f (n, y) = true) :
    (m.put n y).all f = true := by
  induction m with
  | nil => simp [SMap.put, hy]
  | cons x m ih =>
    obtain ⟨k, x⟩ := x
    simp only [List.all_cons, Bool.and_eq_true] at h
    simp only [SMap.put]
    split
    · simp [hy, h.1, h.2]
    · split
      · simp [hy, h.2]
      · simp [h.1, ih h.2]

theorem SMap.all_find (m : SMap α) (f : Nat × α → Bool) (n : Nat) (y : α) (h : m.all f = true) (hy : m.find n = some y) :
    f (n, y) = true := by
  induction m with
  | nil => simp [SMap.find] at hy
  | cons z m ih =>
    obtain ⟨k, x⟩ := z
    rw [List.all_cons, Bool.and_eq_true] at h
    unfold SMap.find at hy
    split at hy
    · simp at hy
    · split at hy
      · subst_vars
        cases hy
        exact h.1
      · exact ih h.2 hy

theorem SMap.all_del (m : SMap α) (f : Nat × α → Bool) (n : Nat) (h : m.all f = true) : (m.del n).all f = true := by
  induction m with
  | nil => rfl
  | cons x m ih =>
    obtain ⟨k, x⟩ := x
    simp only [List.all_cons, Bool.and_eq_true] at h
    simp only [SMap.del]
    split
    · simp [h.1, h.2]
    · split
      · exact h.2
      · simp [h.1, ih h.2]

theorem SMap.wfD_setD [DecidableEq α] (m : SMap α) (n : Nat) (y d : α) (h : m.wfD d = true) :
    (m.setD n y d).wfD d = true := by
  simp only [SMap.wfD, Bool.and_eq_true] at h ⊢
  unfold SMap.setD
  split
  · exact ⟨SMap.wf_del m n h.1, SMap.all_del m _ n h.2⟩
  · rename_i e
    exact ⟨SMap.wf_put m n y h.1, SMap.all_put m _ n y h.2 (by simpa using e)⟩

end Sys2Proof.Machine
end

