-- ==== Sys2Proof/Laws/Memory.lean ====
section
/-!
SUPPORT. Memories: a read after a write, the canonical form that every memory operation keeps, and reset's memory.
-/
namespace Sys2Proof.Machine

theorem Memory.wf_parts (m : Memory) (h : Memory.wf m = true) : SMap.wf m = true := by
  unfold Memory.wf SMap.wfD at h
  exact (Bool.and_eq_true _ _ ▸ h).1

theorem Memory.read_write (m : Memory) (a : Nat) (x : Byte) (h : Memory.wf m = true) : (Memory.write m a x).read a = x :=
  SMap.getD_setD m a x 0 (Memory.wf_parts m h)

theorem Memory.read_write_ne (m : Memory) (a b : Nat) (x : Byte) (h : Memory.wf m = true) (hb : b ≠ a) :
    (Memory.write m a x).read b = m.read b :=
  SMap.getD_setD_ne m a b x 0 (Memory.wf_parts m h) hb

theorem Memory.write_wf (m : Memory) (a : Nat) (x : Byte) (h : Memory.wf m = true) : Memory.wf (Memory.write m a x) = true :=
  SMap.wfD_setD m a x 0 h

theorem Memory.put_wf (m : Memory) (a n v : Nat) (h : Memory.wf m = true) : Memory.wf (Memory.put m a n v) = true := by
  induction n generalizing m a v with
  | zero => exact h
  | succ n ih => exact ih _ _ _ (Memory.write_wf m a _ h)

/-- A byte outside the bytes written reads as before. -/
theorem Memory.read_put_outside (m : Memory) (a n v b : Nat) (h : Memory.wf m = true) (hb : b < a ∨ a + n ≤ b) :
    (Memory.put m a n v).read b = m.read b := by
  induction n generalizing m a v with
  | zero => rfl
  | succ n ih =>
    rw [Memory.put, ih _ _ _ (Memory.write_wf m a _ h) (by omega), Memory.read_write_ne m a b _ h (by omega)]

/-- A byte inside them reads as its byte of the number written. -/
theorem Memory.read_put_inside (m : Memory) (a n v k : Nat) (h : Memory.wf m = true) (hk : k < n) :
    (Memory.put m a n v).read (a + k) = BitVec.ofNat 8 (v / 256 ^ k) := by
  induction n generalizing m a v k with
  | zero => omega
  | succ n ih =>
    rw [Memory.put]
    cases k with
    | zero =>
      rw [Memory.read_put_outside _ _ _ _ _ (Memory.write_wf m a _ h) (by omega), Nat.add_zero, Memory.read_write m a _ h]
      simp [bv]
    | succ k =>
      have := ih _ (a + 1) (v / 256) k (Memory.write_wf m a (bv 8 v) h) (by omega)
      rw [show a + (k + 1) = a + 1 + k by omega, this, Nat.div_div_eq_div_mul, Nat.pow_succ, Nat.mul_comm 256]

/-! ## The canonical form of a die's memories and of the state's -/

theorem Die.canonical_setMem (x : Die) (host : Bool) (m : Memory) (h : x.canonical = true) (hm : Memory.wf m = true) :
    (x.setMem host m).canonical = true := by
  simp only [Die.canonical, Bool.and_eq_true] at h ⊢
  cases host <;> simp [Die.setMem, h, hm]

theorem State.canonical_setDie (s : State) (d : Nat) (x : Die) (h : s.canonical = true) (hx : x.canonical = true) :
    (s.setDie d x).canonical = true := by
  simp only [State.canonical, Bool.and_eq_true] at h ⊢
  unfold State.setDie
  split
  · exact ⟨⟨hx, h.1.2⟩, h.2⟩
  · split
    · exact ⟨⟨h.1.1, hx⟩, h.2⟩
    · exact ⟨h.1, SMap.all_put _ _ _ _ h.2 hx⟩

theorem State.die_canonical (s : State) (d : Nat) (h : s.canonical = true) : (s.die d).canonical = true := by
  simp only [State.canonical, Bool.and_eq_true] at h
  unfold State.die
  split
  · exact h.1.1
  · split
    · exact h.1.2
    · unfold SMap.getD
      cases hf : s.remote.find d with
      | none => rfl
      | some x => exact SMap.all_find _ _ _ _ h.2 hf

theorem State.canonical_modDie (s : State) (d : Nat) (f : Die → Die) (h : s.canonical = true)
    (hf : ∀ x, x.canonical = true → (f x).canonical = true) : (s.modDie d f).canonical = true :=
  State.canonical_setDie s d _ h (hf _ (State.die_canonical s d h))

theorem Memory.get_lt (m : Memory) (a n : Nat) : Memory.get m a n < 256 ^ n := by
  induction n generalizing a with
  | zero => simp [Memory.get]
  | succ n ih =>
    have := ih (a + 1)
    have hb := (m.read a).isLt
    rw [Memory.get, Nat.pow_succ]
    omega

theorem Die.canonical_rawSlot (x : Die) (l : Nat) (h : x.canonical = true) : (x.rawSlot l).canonical = true := by
  simp only [Die.canonical, Bool.and_eq_true] at h ⊢
  unfold Die.rawSlot
  refine ⟨?_, h.2⟩
  dsimp only
  split
  · exact Memory.put_wf _ _ _ _ h.1
  · exact h.1

/-- Writing bytes as they are to be stored keeps the canonical form. -/
theorem Die.canonical_rawPut (x : Die) (a n v : Nat) (h : x.canonical = true) : (x.rawPut a n v).canonical = true := by
  have hf : ∀ (ls : List Nat) (y : Die), y.canonical = true → (ls.foldl Die.rawSlot y).canonical = true := by
    intro ls
    induction ls with
    | nil => exact fun _ hy => hy
    | cons l ls ih => exact fun y hy => ih _ (Die.canonical_rawSlot y l hy)
  unfold Die.rawPut
  split
  · have := hf (rangeLines a n) x h
    simp only [Die.canonical, Bool.and_eq_true] at this ⊢
    exact ⟨Memory.put_wf _ _ _ _ this.1, this.2⟩
  · exact h

/-- Writing physical bytes keeps the canonical form. -/
theorem State.canonical_setPhys (s : State) (d a n v : Nat) (h : s.canonical = true) : (s.setPhys d a n v).canonical = true := by
  unfold State.setPhys
  split
  · exact h
  · exact State.canonical_modDie s d _ h (fun x hx => Die.canonical_rawPut x a n v hx)

theorem State.canonical_groups (s : State) (x : SMap Group) : State.canonical { s with groups := x } = s.canonical := rfl

theorem State.registersLegal_groups (s : State) (x : SMap Group) : State.registersLegal { s with groups := x } = s.registersLegal := rfl

/-- Placing a group keeps the invariant where the group's own maps are canonical; so does taking one away, and changing a core. -/
theorem State.inv_setGrp (s : State) (p : Nat) (g : Group) (h : s.Inv) (hg : g.mapsWf = true) : (s.setGrp p g).Inv := by
  obtain ⟨h1, h2, h3⟩ := h
  refine ⟨h1, ?_, h3⟩
  simp only [State.mapsWf, State.setGrp, Bool.and_eq_true] at h2 ⊢
  simp only [h2, SMap.wf_put, and_true, true_and]
  exact SMap.all_put _ _ p g (by simp [h2]) hg

theorem State.inv_delGrp (s : State) (p : Nat) (h : s.Inv) : (s.delGrp p).Inv := by
  obtain ⟨h1, h2, h3⟩ := h
  refine ⟨h1, ?_, h3⟩
  simp only [State.mapsWf, State.delGrp, Bool.and_eq_true] at h2 ⊢
  simp only [h2, SMap.wf_del, and_true, true_and]
  exact SMap.all_del _ _ p (by simp [h2])

theorem State.inv_setCore (s : State) (c : Nat) (x : Core) (h : s.Inv) (hx : x.mapsWf = true) : (s.setCore c x).Inv := by
  obtain ⟨h1, h2, h3⟩ := h
  refine ⟨h1, ?_, h3⟩
  simp only [State.mapsWf, State.setCore, Bool.and_eq_true] at h2 ⊢
  simp only [h2, and_true, true_and]
  unfold SMap.setD
  split
  · exact ⟨SMap.wf_del _ _ (by simp [h2]), SMap.all_del _ _ c (by simp [h2])⟩
  · exact ⟨SMap.wf_put _ _ _ (by simp [h2]), SMap.all_put _ _ c x (by simp [h2]) hx⟩

/-- A group or a core as the state holds it. -/
theorem State.grp_mapsWf (s : State) (p : Nat) (g : Group) (h : s.Inv) (hg : s.grp p = some g) : g.mapsWf = true := by
  have := h.2.1
  simp only [State.mapsWf, Bool.and_eq_true] at this
  exact SMap.all_find s.groups (fun x => x.2.mapsWf) p g (by simp [this]) hg

/-- Writing a register keeps a group's maps canonical. -/
theorem Group.mapsWf_wr (g : Group) (w : Wr) (h : g.mapsWf = true) : (g.wr w).mapsWf = true := by
  have put {β : Type} [DecidableEq β] (m : SMap β) (n : Nat) (y d : β) (hm : m.wf = true) : (m.setD n y d).wf = true := by
    unfold SMap.setD
    split
    · exact SMap.wf_del _ _ hm
    · exact SMap.wf_put _ _ _ hm
  unfold Group.mapsWf at h
  simp only [Bool.and_eq_true] at h
  cases w <;> simp only [Group.wr, Group.setV, Group.setS, Group.setP, Group.setH]
  case p => split <;> simp_all [Group.mapsWf]
  all_goals simp_all [Group.mapsWf]

theorem Group.mapsWf_wrs (g : Group) (ws : List Wr) (h : g.mapsWf = true) : (g.wrs ws).mapsWf = true := by
  unfold Group.wrs
  induction ws generalizing g with
  | nil => exact h
  | cons w ws ih => exact ih _ (Group.mapsWf_wr g w h)

/-- Firmware's copy of the status word leaves reset's memory canonical. -/
theorem State.reset_memory_wf : Memory.wf State.reset.die0.mem = true ∧ Memory.wf State.reset.die1.mem = true := by decide

end Sys2Proof.Machine
end

