-- ==== Sys2Proof/Laws/PerInstr.lean ====
section
/-!
SUPPORT. The per-instruction family Words: an instruction has a word exactly where it is one that a group issues, and an
event of the machine has none.
-/
namespace Sys2Proof.Laws.Words

/-- A group's instruction has a word; an event has none. -/
def Statement (i : Instr) : Prop := (encode i).isSome = i.isWord

theorem iadd (h : Hdr) (r : RForm) : Statement (.iadd h r) := rfl
theorem iaddImm (h : Hdr) (r : IForm) : Statement (.iaddImm h r) := rfl
theorem isub (h : Hdr) (r : RForm) : Statement (.isub h r) := rfl
theorem isubImm (h : Hdr) (r : IForm) : Statement (.isubImm h r) := rfl
theorem imin (h : Hdr) (r : RForm) : Statement (.imin h r) := rfl
theorem imax (h : Hdr) (r : RForm) : Statement (.imax h r) := rfl
theorem iabs (h : Hdr) (r : RForm) : Statement (.iabs h r) := rfl
theorem imul (h : Hdr) (r : RForm) : Statement (.imul h r) := rfl
theorem imulImm (h : Hdr) (r : IForm) : Statement (.imulImm h r) := rfl
theorem imulh (h : Hdr) (r : RForm) : Statement (.imulh h r) := rfl
theorem imad (h : Hdr) (r : RForm) : Statement (.imad h r) := rfl
theorem idp4 (h : Hdr) (r : RForm) : Statement (.idp4 h r) := rfl
theorem icmp (h : Hdr) (r : PForm) : Statement (.icmp h r) := rfl
theorem icmpImm (h : Hdr) (pd cond : BitVec 3) (sgn : Bool) (r : IForm) : Statement (.icmpImm h pd cond sgn r) := rfl
theorem sel (h : Hdr) (pc : BitVec 3) (r : RForm) : Statement (.sel h pc r) := rfl
theorem logic (h : Hdr) (r : RForm) : Statement (.logic h r) := rfl
theorem logicImm (h : Hdr) (f : BitVec 3) (r : IForm) : Statement (.logicImm h f r) := rfl
theorem shl (h : Hdr) (r : RForm) : Statement (.shl h r) := rfl
theorem shlImm (h : Hdr) (r : IForm) : Statement (.shlImm h r) := rfl
theorem shr (h : Hdr) (r : RForm) : Statement (.shr h r) := rfl
theorem shrImmLogical (h : Hdr) (r : IForm) : Statement (.shrImmLogical h r) := rfl
theorem shrImmArith (h : Hdr) (r : IForm) : Statement (.shrImmArith h r) := rfl
theorem bfx (h : Hdr) (r : RForm) : Statement (.bfx h r) := rfl
theorem bfi (h : Hdr) (r : RForm) : Statement (.bfi h r) := rfl
theorem popc (h : Hdr) (r : RForm) : Statement (.popc h r) := rfl
theorem clz (h : Hdr) (r : RForm) : Statement (.clz h r) := rfl
theorem brev (h : Hdr) (r : RForm) : Statement (.brev h r) := rfl
theorem lea (h : Hdr) (r : RForm) : Statement (.lea h r) := rfl
theorem mov (h : Hdr) (r : RForm) : Statement (.mov h r) := rfl
theorem movi (h : Hdr) (r : IForm) : Statement (.movi h r) := rfl
theorem bperm (h : Hdr) (r : RForm) : Statement (.bperm h r) := rfl
theorem plog (h : Hdr) (f pd pa pb : BitVec 3) : Statement (.plog h f pd pa pb) := rfl
theorem fadd (h : Hdr) (r : RForm) : Statement (.fadd h r) := rfl
theorem fmul (h : Hdr) (r : RForm) : Statement (.fmul h r) := rfl
theorem ffma (h : Hdr) (r : RForm) : Statement (.ffma h r) := rfl
theorem fmin (h : Hdr) (r : RForm) : Statement (.fmin h r) := rfl
theorem fmax (h : Hdr) (r : RForm) : Statement (.fmax h r) := rfl
theorem fcmp (h : Hdr) (r : PForm) : Statement (.fcmp h r) := rfl
theorem frcp (h : Hdr) (r : RForm) : Statement (.frcp h r) := rfl
theorem frsq (h : Hdr) (r : RForm) : Statement (.frsq h r) := rfl
theorem fsqrt (h : Hdr) (r : RForm) : Statement (.fsqrt h r) := rfl
theorem fexp2 (h : Hdr) (r : RForm) : Statement (.fexp2 h r) := rfl
theorem flog2 (h : Hdr) (r : RForm) : Statement (.flog2 h r) := rfl
theorem fsin (h : Hdr) (r : RForm) : Statement (.fsin h r) := rfl
theorem fcos (h : Hdr) (r : RForm) : Statement (.fcos h r) := rfl
theorem ftanh (h : Hdr) (r : RForm) : Statement (.ftanh h r) := rfl
theorem fscale (h : Hdr) (r : RForm) : Statement (.fscale h r) := rfl
theorem fmaxe (h : Hdr) (r : RForm) : Statement (.fmaxe h r) := rfl
theorem frnd (h : Hdr) (r : RForm) : Statement (.frnd h r) := rfl
theorem fcvt (h : Hdr) (r : CForm) : Statement (.fcvt h r) := rfl
theorem f2i (h : Hdr) (r : CForm) : Statement (.f2i h r) := rfl
theorem i2f (h : Hdr) (r : CForm) : Statement (.i2f h r) := rfl
theorem fclass (h : Hdr) (r : RForm) : Statement (.fclass h r) := rfl
theorem fdot2 (h : Hdr) (r : RForm) : Statement (.fdot2 h r) := rfl
theorem shfl (h : Hdr) (r : RForm) : Statement (.shfl h r) := rfl
theorem qswap (h : Hdr) (r : RForm) : Statement (.qswap h r) := rfl
theorem qdiff (h : Hdr) (r : RForm) : Statement (.qdiff h r) := rfl
theorem ballot (h : Hdr) (d : Opd) (pa : BitVec 3) : Statement (.ballot h d pa) := rfl
theorem mpopc (h : Hdr) (mode : BitVec 3) (d : Opd) (pa : BitVec 3) : Statement (.mpopc h mode d pa) := rfl
theorem vote (h : Hdr) (mode pd pa : BitVec 3) : Statement (.vote h mode pd pa) := rfl
theorem elect (h : Hdr) (pd : BitVec 3) : Statement (.elect h pd) := rfl
theorem matchEq (h : Hdr) (r : RForm) : Statement (.matchEq h r) := rfl
theorem lred (h : Hdr) (r : RForm) : Statement (.lred h r) := rfl
theorem lscan (h : Hdr) (r : RForm) : Statement (.lscan h r) := rfl
theorem bra (h : Hdr) (t : Word) : Statement (.bra h t) := rfl
theorem brx (h : Hdr) (a : Opd) : Statement (.brx h a) := rfl
theorem brd (h : Hdr) (t : Word) (j : Half) : Statement (.brd h t j) := rfl
theorem join (h : Hdr) : Statement (.join h) := rfl
theorem call (h : Hdr) (d : Opd) (t : Word) : Statement (.call h d t) := rfl
theorem ret (h : Hdr) (a : Opd) : Statement (.ret h a) := rfl
theorem exit (h : Hdr) : Statement (.exit h) := rfl
theorem nop (h : Hdr) : Statement (.nop h) := rfl
theorem yield (h : Hdr) : Statement (.yield h) := rfl
theorem trap (h : Hdr) (imm : Word) : Statement (.trap h imm) := rfl
theorem spawn (h : Hdr) (first : Opd) (count : BitVec 4) (x : Bool) (t : Word) : Statement (.spawn h first count x t) := rfl
theorem ld (h : Hdr) (w : LdW) (m : MForm) : Statement (.ld h w m) := rfl
theorem st (h : Hdr) (w : StW) (m : MForm) : Statement (.st h w m) := rfl
theorem lds (h : Hdr) (w : LdW) (m : MForm) : Statement (.lds h w m) := rfl
theorem sts (h : Hdr) (w : StW) (m : MForm) : Statement (.sts h w m) := rfl
theorem sinj (h : Hdr) (w : StW) (m : MForm) : Statement (.sinj h w m) := rfl
theorem pref (h : Hdr) (m : MForm) : Statement (.pref h m) := rfl
theorem smap (h : Hdr) (r : Regs) : Statement (.smap h r) := rfl
theorem sunmap (h : Hdr) (r : Regs) : Statement (.sunmap h r) := rfl
theorem wbr (h : Hdr) (r : Regs) : Statement (.wbr h r) := rfl
theorem invr (h : Hdr) (r : Regs) : Statement (.invr h r) := rfl
theorem fence (h : Hdr) (ord : Order) (scope : Scope) : Statement (.fence h ord scope) := rfl
theorem atom (h : Hdr) (op : AtomOp) (r : AForm) : Statement (.atom h op r) := rfl
theorem acas (h : Hdr) (r : AForm) : Statement (.acas h r) := rfl
theorem mred (h : Hdr) (op : AtomOp) (r : AForm) : Statement (.mred h op r) := rfl
theorem cadd (h : Hdr) (scope : Scope) (r : Regs) : Statement (.cadd h scope r) := rfl
theorem cwait (h : Hdr) (scope : Scope) (r : Regs) : Statement (.cwait h scope r) := rfl
theorem crd (h : Hdr) (ord : Order) (scope : Scope) (r : Regs) : Statement (.crd h ord scope r) := rfl
theorem rlog (h : Hdr) (r : Regs) : Statement (.rlog h r) := rfl
theorem thdrToH (h : Hdr) (hd : BitVec 4) (x : Opd) : Statement (.thdrToH h hd x) := rfl
theorem thdrFromH (h : Hdr) (ha : BitVec 4) (x : Opd) : Statement (.thdrFromH h ha x) := rfl
theorem tchk (h : Hdr) (ha : BitVec 4) (pd : BitVec 3) : Statement (.tchk h ha pd) := rfl
theorem tld (h : Hdr) (hd : BitVec 4) (x : Opd) (off : BitVec 20) (ord : Order) (scope : Scope) : Statement (.tld h hd x off ord scope) := rfl
theorem tst (h : Hdr) (ha : BitVec 4) (x : Opd) (off : BitVec 20) (ord : Order) (scope : Scope) : Statement (.tst h ha x off ord scope) := rfl
theorem tzero (h : Hdr) (hd : BitVec 4) : Statement (.tzero h hd) := rfl
theorem ttrans (h : Hdr) (hd ha : BitVec 4) : Statement (.ttrans h hd ha) := rfl
theorem mma (h : Hdr) (z : Bool) (hd ha hb : BitVec 4) : Statement (.mma h z hd ha hb) := rfl
theorem tcvt (h : Hdr) (hd ha : BitVec 4) : Statement (.tcvt h hd ha) := rfl
theorem tres (h : Hdr) (hd ha : BitVec 4) (f : BitVec 6) : Statement (.tres h hd ha f) := rfl
theorem tcrt (h : Hdr) (hd ha : BitVec 4) : Statement (.tcrt h hd ha) := rfl
theorem ntest (h : Hdr) (r : Regs) : Statement (.ntest h r) := rfl
theorem hitk (h : Hdr) (r : Regs) : Statement (.hitk h r) := rfl
theorem trvpush (h : Hdr) (r : Regs) : Statement (.trvpush h r) := rfl
theorem trvpop (h : Hdr) (r : Regs) : Statement (.trvpop h r) := rfl
theorem morton (h : Hdr) (r : Regs) : Statement (.morton h r) := rfl
theorem qbox (h : Hdr) (fr : Bool) (r : Regs) : Statement (.qbox h fr r) := rfl
theorem bld (h : Hdr) (r : Regs) : Statement (.bld h r) := rfl
theorem cmpct (h : Hdr) (r : Regs) : Statement (.cmpct h r) := rfl
theorem nfmt (h : Hdr) (r : Regs) : Statement (.nfmt h r) := rfl
theorem kick (h : Hdr) (r : Regs) : Statement (.kick h r) := rfl
theorem sstart (h : Hdr) (r : Regs) : Statement (.sstart h r) := rfl
theorem sstop (h : Hdr) (r : Regs) : Statement (.sstop h r) := rfl
theorem bdec (h : Hdr) (kind : BdecKind) (k : BitVec 10) (r : Regs) : Statement (.bdec h kind k r) := rfl
theorem csrr (h : Hdr) (csr : Csr) (d : Opd) : Statement (.csrr h csr d) := rfl
theorem csrw (h : Hdr) (csr : Csr) (a : Opd) : Statement (.csrw h csr a) := rfl
theorem tret (h : Hdr) : Statement (.tret h) := rfl
theorem tretSave (h : Hdr) : Statement (.tretSave h) := rfl
theorem tretKill (h : Hdr) : Statement (.tretKill h) := rfl
theorem pld (h : Hdr) (m : MForm) : Statement (.pld h m) := rfl
theorem pst (h : Hdr) (m : MForm) : Statement (.pst h m) := rfl
theorem tlbf (h : Hdr) (r : Regs) : Statement (.tlbf h r) := rfl
theorem tlbi (h : Hdr) (rc : Bool) (r : Regs) : Statement (.tlbi h rc r) := rfl
theorem frec (h : Hdr) (r : Regs) : Statement (.frec h r) := rfl
theorem bkpt (h : Hdr) : Statement (.bkpt h) := rfl
theorem dualWord (sched : Sched) (h0 h1 : HalfW) : Statement (.dualWord sched h0 h1) := rfl
theorem instructionFetch (place : Nat) : Statement (.instructionFetch place) := rfl
theorem issueTurn (pipe : Nat) : Statement (.issueTurn pipe) := rfl
theorem tagRelease (place tag : Nat) (early : Option (List Nat)) : Statement (.tagRelease place tag early) := rfl
theorem longResultWrite (place idx : Nat) (early : Option (List Nat)) : Statement (.longResultWrite place idx early) := rfl
theorem storeQueueLeave (place : Nat) : Statement (.storeQueueLeave place) := rfl
theorem tldArrival (place tag : Nat) : Statement (.tldArrival place tag) := rfl
theorem groupRetire (place : Nat) : Statement (.groupRetire place) := rfl
theorem doorbellWrite (port q size : Nat) (val : DWord) : Statement (.doorbellWrite port q size val) := rfl
theorem queueEnable (q : Nat) : Statement (.queueEnable q) := rfl
theorem queueUnfreeze (q : Nat) : Statement (.queueUnfreeze q) := rfl
theorem registerWrite (port off size : Nat) (val : DWord) : Statement (.registerWrite port off size val) := rfl
theorem takeRecord (q : Nat) : Statement (.takeRecord q) := rfl
theorem taskReady (q seq : Nat) : Statement (.taskReady q seq) := rfl
theorem taskCancel (q seq : Nat) : Statement (.taskCancel q seq) := rfl
theorem placementTurn (die : Nat) (places : List (List Nat)) : Statement (.placementTurn die places) := rfl
theorem spanReservation (die q seq : Nat) : Statement (.spanReservation die q seq) := rfl
theorem gangWatchdog (gang : Nat) : Statement (.gangWatchdog gang) := rfl
theorem launchFail (q seq : Nat) (cause : Byte) : Statement (.launchFail q seq cause) := rfl
theorem failedRecordClose (q seq : Nat) : Statement (.failedRecordClose q seq) := rfl
theorem launchComplete (q seq : Nat) : Statement (.launchComplete q seq) := rfl
theorem binTimerExpiry (die bin : Nat) : Statement (.binTimerExpiry die bin) := rfl
theorem spawnedGroupPlace (die place : Nat) : Statement (.spawnedGroupPlace die place) := rfl
theorem shareRequest (core ctx va : Nat) : Statement (.shareRequest core ctx va) := rfl
theorem renewRequest (core ctx va : Nat) : Statement (.renewRequest core ctx va) := rfl
theorem ownershipRequest (core ctx va : Nat) : Statement (.ownershipRequest core ctx va) := rfl
theorem recallForRead (die ctx va : Nat) : Statement (.recallForRead die ctx va) := rfl
theorem recallForOwnership (die ctx va : Nat) : Statement (.recallForOwnership die ctx va) := rfl
theorem lineEviction (core ctx va : Nat) : Statement (.lineEviction core ctx va) := rfl
theorem homeWrite (n : Nat) : Statement (.homeWrite n) := rfl
theorem injectedPush (n : Nat) : Statement (.injectedPush n) := rfl
theorem l2EvictToMemory (die ctx va : Nat) : Statement (.l2EvictToMemory die ctx va) := rfl
theorem timeSelfAdvance (core : Nat) : Statement (.timeSelfAdvance core) := rfl
theorem cwaitPoll (place : Nat) : Statement (.cwaitPoll place) := rfl
theorem directoryRecovery (die ctx va : Nat) : Statement (.directoryRecovery die ctx va) := rfl
theorem directoryRecoveryDone (die ctx va : Nat) : Statement (.directoryRecoveryDone die ctx va) := rfl
theorem corePowerGate (core : Nat) : Statement (.corePowerGate core) := rfl
theorem coreUngate (core : Nat) : Statement (.coreUngate core) := rfl
theorem walkerSlotPlace (core : Nat) : Statement (.walkerSlotPlace core) := rfl
theorem replay (die ctx : Nat) (gen : Half) : Statement (.replay die ctx gen) := rfl
theorem shootdownRequest (ctx : Nat) (va len : DWord) (rc : Bool) : Statement (.shootdownRequest ctx va len rc) := rfl
theorem preempt (die ctx : Nat) : Statement (.preempt die ctx) := rfl
theorem resume (die ctx : Nat) (places : List (List Nat)) : Statement (.resume die ctx places) := rfl
theorem debugHalt (core : Nat) : Statement (.debugHalt core) := rfl
theorem engineCopy (die eng : Nat) : Statement (.engineCopy die eng) := rfl
theorem engineGather (die eng : Nat) : Statement (.engineGather die eng) := rfl
theorem engineScatter (die eng : Nat) : Statement (.engineScatter die eng) := rfl
theorem engineFill (die eng : Nat) : Statement (.engineFill die eng) := rfl
theorem engineDepthComposite (die eng : Nat) : Statement (.engineDepthComposite die eng) := rfl
theorem depthCompositeMerge (die eng : Nat) : Statement (.depthCompositeMerge die eng) := rfl
theorem engineDedupWrite (die eng : Nat) : Statement (.engineDedupWrite die eng) := rfl
theorem engineCheckpointStream (die eng : Nat) : Statement (.engineCheckpointStream die eng) := rfl
theorem splicerBuild (die n : Nat) : Statement (.splicerBuild die n) := rfl
theorem splicerRefit (die n : Nat) : Statement (.splicerRefit die n) := rfl
theorem joiningRootWrite (die n : Nat) : Statement (.joiningRootWrite die n) := rfl
theorem coilerCompact (die n : Nat) : Statement (.coilerCompact die n) := rfl
theorem coilerCopy (die n : Nat) : Statement (.coilerCopy die n) := rfl
theorem rangeLogTimeout (core : Nat) : Statement (.rangeLogTimeout core) := rfl
theorem domainConfig (val : DWord) : Statement (.domainConfig val) := rfl
theorem vfBindingWrite (port vf : Nat) (val : Word) : Statement (.vfBindingWrite port vf val) := rfl
theorem semaphoreRead (port n : Nat) : Statement (.semaphoreRead port n) := rfl
theorem semaphoreRelease (port n : Nat) : Statement (.semaphoreRelease port n) := rfl
theorem powerCapWrite (val : Word) : Statement (.powerCapWrite val) := rfl
theorem powerWindow (lowered : Bool) : Statement (.powerWindow lowered) := rfl
theorem thermalThrottle : Statement (.thermalThrottle) := rfl
theorem thermalReset : Statement (.thermalReset) := rfl
theorem moduleReset (full : Bool) (ecdsa lms : BitVec 2) : Statement (.moduleReset full ecdsa lms) := rfl
theorem attestationRequest (die : Nat) (nonce : BitVec 256) : Statement (.attestationRequest die nonce) := rfl
theorem hostLinkDown (port : Nat) : Statement (.hostLinkDown port) := rfl
theorem hawserLinkUp (port partner : Nat) : Statement (.hawserLinkUp port partner) := rfl
theorem linkRetryExhausted (r : LostReq) : Statement (.linkRetryExhausted r) := rfl
theorem ucieLinkFailure : Statement (.ucieLinkFailure) := rfl
theorem stashUncorrectable (core off : Nat) : Statement (.stashUncorrectable core off) := rfl
theorem regUncorrectableError (place reg : Nat) : Statement (.regUncorrectableError place reg) := rfl
theorem ownershipHoldExpiry (die ctx va : Nat) : Statement (.ownershipHoldExpiry die ctx va) := rfl
theorem debugResume (core : Nat) : Statement (.debugResume core) := rfl
theorem sensorSample (tdie tin : Half) : Statement (.sensorSample tdie tin) := rfl
theorem hostLinkUp (port : PortUp) : Statement (.hostLinkUp port) := rfl
theorem hawserLinkDown (port : Nat) : Statement (.hawserLinkDown port) := rfl
theorem auxiliaryRailOff : Statement (.auxiliaryRailOff) := rfl
theorem l2DataUncorrectable (die ctx va : Nat) : Statement (.l2DataUncorrectable die ctx va) := rfl
theorem l1DirtyUncorrectable (core ctx va : Nat) : Statement (.l1DirtyUncorrectable core ctx va) := rfl
theorem tlbParityDrop (die slice n : Nat) : Statement (.tlbParityDrop die slice n) := rfl
theorem correctedError (die : Nat) (k : CeKind) : Statement (.correctedError die k) := rfl

end Sys2Proof.Laws.Words
end

