-- ==== Sys2Proof/Tests/Slice0.lean ====
section
/-!
SUPPORT. Tests: words written out from the encoding tables and the instructions they decode to, ill-formed terms that the checks refuse,
one-step values taken from the reference entries, and states and operands that meet the hypotheses of the statements.
-/

namespace Sys2Proof.Tests
open Sys2Proof Sys2Proof.Machine

-- one thread at a time: many proofs at once would ask for more memory than the check allows
set_option Elab.async false

/-! ## Decoding

Each word is put together by hand from the encoding tables of the spec (R258, R264, R270 to R287), none by the encoder. -/

/-- Bits 79:64 and the guard. -/
def hdr (x g : Nat) : Hdr := { sched := Sched.ofBits (bv 16 x), guard := Guard.ofCode (bv 4 g) }
def hd0 : Hdr := hdr 0 0

/-- A register form without the fields that most words leave empty. -/
def rf (ty : Ty) (sub : BitVec 3) (half : DstHalf) (d a b c : Opd) (ma mb : SrcMod) : RForm :=
  { ty := ty, sub := sub, half := half, d := d, a := a, b := b, c := c, ma := ma, mb := mb }

/-- The 80 bits stand for the instruction, and it for them. -/
def reads (w : Nat) (i : Instr) : Bool := decide (decodeTableWord 80 w = some i) && decide (encode i = some (bv 80 w))

theorem test_decode_integer_1 :
    (reads 0x2080B0D8802070 (.iadd hd0 (rf .n32 0 .none (.v 4) (.v 5) (.s 6) .zero .none (.b 3)))
    && reads 0x4080A0D896C403 (.isub (hdr 0 11) (rf .i16 1 .none (.v 4) (.v 5) (.v 6) .zero .sw .none))
    && reads 0x6080D118806000 (.imul hd0 (rf .i64 0 .none (.v 4) (.v 6) (.s 8) .zero .none .none))
    && reads 0x8080D898808000 (.imulh hd0 (rf .n64 0 .none (.v 4) (.v 6) .zero .zero .none .none))
    && reads 0xB58000A080A0C0E00000 (.imad (hdr 46464 0) (rf .i32 0 .none (.v 4) (.v 5) (.v 6) (.v 7) .none .none))
    && reads 0xC0204070812400 (.idp4 hd0 (rf .n8 1 .none (.v 1) (.v 2) (.v 3) (.s 4) .none .none))
    && reads 0xE0384078810000 (.imin hd0 (rf .i8 0 .none (.v 1) (.q 2) (.v 3) .zero .none .none))
    && reads 0x10020407880E010 (.imax hd0 (rf .n16 0 .none (.v 1) (.v 2) (.v 3) .zero .none .lo))
    && reads 0x130305898800400 (.iabs hd0 (rf .i32 1 .none (.s 1) (.s 2) .zero .zero .none .none))
    && reads 0x140E058B8804400 (.icmp hd0 { ty := .b32, cond := 1, pd := 7, a := (.v 2), b := .tid, ma := .none, mb := .none })
    && reads 0x1604090C0A0A000 (.sel hd0 5 (rf .b64 0 .none (.v 2) (.v 4) (.s 6) .zero .none .none))
    && reads 0x18FE00038805C00 (.logic hd0 (rf .b32 7 .none (.v 127) (.v 0) (.v 1) .zero .none .none))) = true := by decide

theorem test_decode_integer_2 :
    (reads 0x1A04080F880A000 (.shl hd0 (rf .b64 0 .none (.v 2) (.v 4) (.v 7) .zero .none .none))
    && reads 0x1C04080F8800002 (.shr hd0 (rf .i32 0 .none (.v 2) (.v 4) (.v 7) .zero .hi .none))
    && reads 0x1E04080E1002000 (.bfx hd0 (rf .n32 0 .none (.v 2) (.v 4) (.v 7) (.v 8) .none .none))
    && reads 0x2004080E1004000 (.bfi hd0 (rf .b32 0 .none (.v 2) (.v 4) (.v 7) (.v 8) .none .none))
    && reads 0x22060989880A000 (.popc hd0 (rf .b64 0 .none (.v 3) (.v 4) .zero .zero .none .none))
    && reads 0x240709898806000 (.clz hd0 (rf .i64 0 .none (.v 3) (.s 4) .zero .zero .none .none))
    && reads 0x270709898804000 (.brev hd0 (rf .b32 0 .none (.s 3) (.s 4) .zero .zero .none .none))
    && reads 0x28080C138807C00 (.lea hd0 (rf .i64 7 .none (.v 4) (.v 6) (.v 9) .zero .none .none))
    && reads 0x2A080D89880E205 (.mov hd0 (rf .n16 0 .hi (.v 4) (.v 6) .zero .zero (.b 1) .none))
    && reads 0x2C080C0E1004000 (.bperm hd0 (rf .b32 0 .none (.v 4) (.v 6) (.v 7) (.v 8) .none .none))
    && reads 0x2E0204078801800 (.plog hd0 6 1 2 3)
    && reads 0x820609135619BDE (.iaddImm hd0 { d := (.v 3), a := (.v 4), imm := 0x89ABCDEF, w := false })) = true := by decide

theorem test_decode_integer_3 :
    (reads 0x840409FFFE1FFFF (.isubImm hd0 { d := (.v 2), a := (.v 4), imm := 0xFFFFFFFF, w := true })
    && reads 0x87050800000000E (.imulImm hd0 { d := (.s 2), a := (.s 4), imm := 0x7, w := false })
    && reads 0x94C40A24680ACF0 (.icmpImm hd0 2 4 true { d := .zero, a := (.v 5), imm := 0x12345678, w := false })
    && reads 0x9A040800000007F (.shlImm hd0 { d := (.v 2), a := (.v 4), imm := 0x3F, w := true })
    && reads 0x9C04080000001FE (.shrImmLogical hd0 { d := (.v 2), a := (.v 4), imm := 0xFF, w := false })
    && reads 0x9E04080000A003E (.shrImmArith (hdr 0 5) { d := (.v 2), a := (.v 4), imm := 0x1F, w := false })
    && reads 0xAA0589BD5A17DDE (.movi hd0 { d := (.v 2), a := .zero, imm := 0xDEADBEEF, w := false })
    && reads 0xB010100000003FE (.logicImm hd0 0 { d := (.v 8), a := (.v 8), imm := 0x1FF, w := false })
    && reads 0xBA1010000000002 (.logicImm hd0 5 { d := (.v 8), a := (.v 8), imm := 0x1, w := false })) = true := by decide

theorem test_decode_float_1 :
    (reads 0x1000E0E118800000 (.fadd hd0 (rf .f32 0 .none (.v 7) (.v 7) (.v 8) .zero .none .none))
    && reads 0x1020E10138802512 (.fmul hd0 (rf .f16 1 .lo (.v 7) (.v 8) (.v 9) .zero .hi .lo))
    && reads 0x1040802040600000 (.ffma hd0 (rf .f32 0 .none (.v 4) (.v 1) (.v 2) (.v 3) .none .none))
    && reads 0x1060802058804000 (.fmin hd0 (rf .bf16 0 .none (.v 4) (.v 1) (.v 2) .zero .none .none))
    && reads 0x1090903058800000 (.fmax hd0 (rf .f32 0 .none (.s 4) (.s 1) (.s 2) .zero .none .none))
    && reads 0x10A0602058803800 (.fcmp hd0 { ty := .f16, cond := 6, pd := 3, a := (.v 1), b := (.v 2), ma := .none, mb := .none })
    && reads 0xF10C0205898800000 (.frcp (hdr 15 0) (rf .f32 0 .none (.v 1) (.v 2) .zero .zero .none .none))
    && reads 0x10E0205898802000 (.frsq hd0 (rf .f16 0 .none (.v 1) (.v 2) .zero .zero .none .none))
    && reads 0x1100305898804000 (.fsqrt hd0 (rf .bf16 0 .none (.v 1) (.s 2) .zero .zero .none .none))
    && reads 0x11120A07898800000 (.fexp2 (hdr 1 0) (rf .f32 0 .none (.v 5) (.v 3) .zero .zero .none .none))
    && reads 0x1140A07898800000 (.flog2 hd0 (rf .f32 0 .none (.v 5) (.v 3) .zero .zero .none .none))
    && reads 0x1160A07898800000 (.fsin hd0 (rf .f32 0 .none (.v 5) (.v 3) .zero .zero .none .none))) = true := by decide

theorem test_decode_float_2 :
    (reads 0x1180A07898800000 (.fcos hd0 (rf .f32 0 .none (.v 5) (.v 3) .zero .zero .none .none))
    && reads 0x11A0A07898800000 (.ftanh hd0 (rf .f32 0 .none (.v 5) (.v 3) .zero .zero .none .none))
    && reads 0x11C0A06098804000 (.fscale hd0 (rf .bf16 0 .none (.v 5) (.v 3) (.v 4) .zero .none .none))
    && reads 0x11E0A06098802000 (.fmaxe hd0 (rf .f16 0 .none (.v 5) (.v 3) (.v 4) .zero .none .none))
    && reads 0x1200A07898801000 (.frnd hd0 (rf .f32 4 .none (.v 5) (.v 3) .zero .zero .none .none))
    && reads 0x1220A0789880DC00 (.fcvt hd0 { dt := .e2m1, st := .f32, k := 7, d := (.v 5), a := (.v 3), ma := .none })
    && reads 0x1240C0789881E020 (.f2i hd0 { dt := .n64, st := .bf16, k := 0, d := (.v 6), a := (.v 3), ma := .none })
    && reads 0x1260C098988024B0 (.i2f hd0 { dt := .f16, st := .i64, k := 1, d := (.v 6), a := (.v 4), ma := .none })
    && reads 0x1280C09898806000 (.fclass hd0 (rf .e4m3 0 .none (.v 6) (.v 4) .zero .zero .none .none))
    && reads 0x12A0C080A0E04000 (.fdot2 hd0 (rf .bf16 0 .none (.v 6) (.v 4) (.v 5) (.v 7) .none .none))) = true := by decide

theorem test_decode_lane :
    (reads 0x22000C080B8802C00 (.shfl (hdr 2 0) (rf .b64 3 .none (.v 6) (.v 4) (.v 5) .zero .none .none))
    && reads 0x2020C09898801800 (.qswap hd0 (rf .b32 6 .none (.v 6) (.v 4) .zero .zero .none .none))
    && reads 0x2040C0989880EC00 (.qdiff hd0 (rf .f16 3 .none (.v 6) (.v 4) .zero .zero .none .none))
    && reads 0x2071209898800000 (.ballot hd0 (.s 9) 4)
    && reads 0x2081209898800400 (.mpopc hd0 1 (.v 9) 4)
    && reads 0x20A0609898800800 (.vote hd0 2 3 4)
    && reads 0x20C0F89898800000 (.elect hd0 7)
    && reads 0x20E0E09898802000 (.matchEq hd0 (rf .b64 0 .none (.v 7) (.v 4) .zero .zero .none .none))
    && reads 0x211080589880A000 (.lred hd0 (rf .n64 0 .none (.s 4) (.v 2) .zero .zero .none .none))
    && reads 0x212080589880C800 (.lscan hd0 (rf .f32 2 .none (.v 4) (.v 2) .zero .zero .none .none))) = true := by decide

theorem test_decode_control :
    (reads 0x3000000000000006 (.bra hd0 3)
    && reads 0x3038909898800000 (.brx hd0 (.s 4))
    && reads 0x305FFE1FFFF3FFFC (.brd (hdr 0 9) 0xFFFFFFFE 0xFFF0)
    && reads 0x3078989898800000 (.join hd0)
    && reads 0x3090D88000200000 (.call hd0 (.s 6) 0x10000)
    && reads 0x30B8809898800000 (.ret hd0 (.v 4))
    && reads 0x30D8989898860000 (.exit (hdr 0 3))
    && reads 0x38030F8989898800000 (.nop (hdr 896 0))
    && reads 0x3118989898800000 (.yield hd0)
    && reads 0x3138989579A02468 (.trap hd0 0xABCD1234)
    && reads 0x314F11000000000A (.spawn hd0 (.v 120) 8 true 5)) = true := by decide

theorem test_decode_memory_1 :
    (reads 0x104080509880000800 (.ld (hdr 16 0) .b32 { d := (.v 2), a := (.s 4), b := .zero, off := 0x40, ord := .rlx, scope := .gang })
    && reads 0x6041788080DFE1FF14 (.st (hdr 96 0) .b64 { d := .zero, a := (.v 4), b := (.v 6), off := 0xFFFF8, ord := .rel, scope := .sys })
    && reads 0x10420040B880000020 (.lds (hdr 16 0) .i8 { d := (.v 2), a := (.v 5), b := .zero, off := 0x1, ord := .rlx, scope := .gang })
    && reads 0x433890A02FE1FFE0 (.sts hd0 .b16 { d := .zero, a := (.s 5), b := (.v 1), off := 0x7FFFF, ord := .rlx, scope := .gang })
    && reads 0x43D06080A0001002 (.sinj hd0 .b32 { d := (.s 3), a := (.v 4), b := (.v 5), off := 0x80, ord := .rlx, scope := .die })
    && reads 0x4418909890000000 (.pref hd0 { d := .zero, a := (.s 4), b := .zero, off := 0x80000, ord := .rlx, scope := .gang })
    && reads 0x4438903050600000 (.smap hd0 { d := .zero, a := (.s 1), b := (.s 2), c := (.s 3) })
    && reads 0x4458903898800000 (.sunmap hd0 { d := .zero, a := (.s 1), b := .zero, c := .zero })
    && reads 0x604478905078800000 (.wbr (hdr 96 0) { d := .zero, a := (.s 2), b := (.s 3), c := .zero })
    && reads 0x4498905078800000 (.invr hd0 { d := .zero, a := (.s 2), b := (.s 3), c := .zero })
    && reads 0x44B898989880001B (.fence hd0 .ar .dev)
    && reads 0x1044C020407880C01C (.atom (hdr 16 0) .add
      { ty := .f32, ord := .ar, scope := .sys, d := (.v 1), a := (.v 2), b := (.v 3), c := .zero })) = true := by decide

theorem test_decode_memory_2 :
    (reads 0x1044E08040D1006009 (.acas (hdr 16 0)
      { ty := .n64, ord := .acq, scope := .span, d := (.v 4), a := (.v 2), b := (.v 6), c := (.s 8) })
    && reads 0x4518804078805413 (.mred hd0 .xor { ty := .b32, ord := .rel, scope := .dev, d := .zero, a := (.v 2), b := (.v 3), c := .zero })
    && reads 0x4538905098800002 (.cadd hd0 .die { d := .zero, a := (.s 2), b := (.s 4), c := .zero })
    && reads 0x4550D05098800004 (.cwait hd0 .sys { d := (.s 6), a := (.s 2), b := (.s 4), c := .zero })
    && reads 0x104570D05898800009 (.crd (hdr 16 0) .acq .span { d := (.s 6), a := (.s 2), b := .zero, c := .zero })
    && reads 0x4598905898800000 (.rlog hd0 { d := .zero, a := (.s 2), b := .zero, c := .zero })) = true := by decide

theorem test_decode_tile :
    (reads 0x5006001080000000 (.thdrToH hd0 3 (.s 4))
    && reads 0x5021E01100000000 (.thdrFromH hd0 15 (.s 8))
    && reads 0x50404000C0000000 (.tchk hd0 2 6)
    && reads 0x10506A00105FE1F00A (.tld (hdr 16 0) 5 (.s 2) 0xFFF80 .acq .die)
    && reads 0x5080A01040001010 (.tst hd0 5 (.s 2) 0x00080 .rel .gang)
    && reads 0x350B2001880000000 (.tzero (hdr 3 0) 9)
    && reads 0x50D3001880000000 (.ttrans hd0 9 8)
    && reads 0x50E2461880040020 (.mma (hdr 0 2) true 1 2 3)
    && reads 0x5113001880000000 (.tcvt hd0 9 8)
    && reads 0x51330018800005A0 (.tres hd0 9 8 45)
    && reads 0x5153001880000000 (.tcrt hd0 9 8)) = true := by decide

theorem test_decode_scene_1 :
    (reads 0x106001204091000000 (.ntest (hdr 16 0) { d := (.v 9), a := (.v 2), b := (.v 4), c := (.s 8) })
    && reads 0x6021204098800000 (.hitk hd0 { d := (.v 9), a := (.v 2), b := (.v 4), c := .zero })
    && reads 0x6041205098800000 (.trvpush hd0 { d := (.v 9), a := (.v 2), b := (.s 4), c := .zero })
    && reads 0x106061205091000000 (.trvpop (hdr 16 0) { d := (.v 9), a := (.v 2), b := (.s 4), c := (.s 8) })
    && reads 0x6081205758800000 (.morton hd0 { d := (.v 9), a := (.v 2), b := (.s 58), c := .zero })
    && reads 0x60A1205898800400 (.qbox hd0 true { d := (.v 9), a := (.v 2), b := .zero, c := .zero })
    && reads 0x60D8905078800000 (.bld hd0 { d := .zero, a := (.s 2), b := (.s 3), c := .zero })
    && reads 0x60F8905078800000 (.cmpct hd0 { d := .zero, a := (.s 2), b := (.s 3), c := .zero })
    && reads 0x106118905898800000 (.nfmt (hdr 16 0) { d := .zero, a := (.s 2), b := .zero, c := .zero })
    && reads 0x6218905078800000 (.kick hd0 { d := .zero, a := (.s 2), b := (.s 3), c := .zero })
    && reads 0x6231305098800000 (.sstart hd0 { d := (.s 9), a := (.s 2), b := (.s 4), c := .zero })
    && reads 0x6251389898800000 (.sstop hd0 { d := (.s 9), a := .zero, b := .zero, c := .zero })) = true := by decide

theorem test_decode_scene_2 :
    (reads 0x106261205898800020 (.bdec (hdr 16 0) .fix 32 { d := (.v 9), a := (.v 2), b := .zero, c := .zero })) = true := by decide

theorem test_decode_system :
    (reads 0x7010589898800160 (.csrr hd0 .clock (.s 2))
    && reads 0x70388078988020E0 (.csrw hd0 .wdata (.v 3))
    && reads 0x7058989898800000 (.tret hd0)
    && reads 0x7058989898800001 (.tretSave hd0)
    && reads 0x7058989898800002 (.tretKill hd0)
    && reads 0x107060409880000100 (.pld (hdr 16 0) { d := (.v 2), a := (.v 4), b := .zero, off := 0x8, ord := .rlx, scope := .gang })
    && reads 0x70988080C0000100 (.pst hd0 { d := .zero, a := (.v 4), b := (.v 6), off := 0x8, ord := .rlx, scope := .gang })
    && reads 0x70B8802040800000 (.tlbf hd0 { d := .zero, a := (.v 1), b := (.v 2), c := (.v 4) })
    && reads 0x1070D8905090A00001 (.tlbi (hdr 16 0) true { d := .zero, a := (.s 2), b := (.s 4), c := (.s 5) })
    && reads 0x70E0206080C00000 (.frec hd0 { d := (.v 1), a := (.v 3), b := (.v 4), c := (.v 6) })
    && reads 0x7118989898800000 (.bkpt hd0)) = true := by decide

theorem test_decode_dual :
    (reads 0x8108244022185800 (.dualWord (Sched.ofBits 0) { op := .iadd, d := 4, s := 9, ty := .n32, m := .none }
      { op := .fmul, d := 6, s := 11, ty := .f32, m := .none })) = true := by decide

/-! ## Well-formed words

For each check an instruction that breaks it and nothing else; its neighbour above, or in this list's first words, passes it. -/

/-- Refused by the checks of a word, and by the decoder where it has bits that say it. -/
def bad (xs : List Instr) : Bool := xs.all (fun i => !i.wf)

def m0 : MForm := { d := .v 2, a := .v 4, b := .zero, off := 0, ord := .rlx, scope := .gang }
def a0 : AForm := { ty := .n32, ord := .rlx, scope := .gang, d := .v 1, a := .v 2, b := .v 4, c := .zero }
def x0 : Regs := { d := .zero, a := .zero, b := .zero, c := .zero }
def ht : Hdr := hdr 0x10 0

/-- Schedule and guard (R264, R265, R271): a lookahead or a tag where the class has none, a class-T word without a tag, `SET` 7, a guard on a
uniform word. -/
theorem test_wf_schedule : bad [
    .iadd (hdr 1 0) (rf .n32 0 .none (.v 4) (.v 5) (.v 6) .zero .none .none),
    .iadd (hdr 0x10 0) (rf .n32 0 .none (.v 4) (.v 5) (.v 6) .zero .none .none),
    .frcp (hdr 0x10 0) (rf .f32 0 .none (.v 4) (.v 5) .zero .zero .none .none),
    .ld hd0 .b32 m0,
    .ld (hdr 0x70 0) .b32 m0,
    .ld (hdr 0x11 0) .b32 m0,
    .st (hdr 0x70 0) .b32 { m0 with d := .zero, b := .v 6 },
    .nop (hdr 0 1),
    .iadd (hdr 0 1) (rf .n32 0 .none (.s 4) (.s 5) (.s 6) .zero .none .none),
    .ld (hdr 0x10 3) .b32 { m0 with d := .s 2, a := .s 4 },
    .st (hdr 0 3) .b32 { m0 with d := .zero, a := .s 4, b := .s 6 }] = true := by decide

/-- Operands (R26, R272, R273): an odd pair, the thread index as a destination, a queue where none is accepted, an s destination with a v source
or of a word that is never uniform. -/
theorem test_wf_operands : bad [
    .iadd hd0 (rf .n64 0 .none (.v 5) (.v 6) (.v 8) .zero .none .none),
    .iadd hd0 (rf .n64 0 .none (.v 4) (.v 7) (.v 8) .zero .none .none),
    .iadd hd0 (rf .n64 0 .none (.v 4) (.q 1) (.v 8) .zero .none .none),
    .iadd hd0 (rf .n32 0 .none .tid (.v 5) (.v 6) .zero .none .none),
    .iadd hd0 (rf .n32 0 .none (.s 4) (.v 5) (.s 6) .zero .none .none),
    .frcp hd0 (rf .f32 0 .none (.v 4) (.q 0) .zero .zero .none .none),
    .frcp hd0 (rf .f32 0 .none (.s 4) (.s 5) .zero .zero .none .none),
    .shl hd0 (rf .b64 0 .none (.q 1) (.v 4) (.v 6) .zero .none .none),
    .brx hd0 (.v 3),
    .call hd0 (.v 4) 1] = true := by decide

/-- Integer forms (R274, R275, R309 to R321, R345 to R356): type, sub-form, destination half, modifier, a source that the word does not have, a shift
amount above 255, a condition above 5, an order of bit patterns. -/
theorem test_wf_integer : bad [
    .iadd hd0 (rf .b32 0 .none (.v 4) (.v 5) (.v 6) .zero .none .none),
    .iadd hd0 (rf .n32 2 .none (.v 4) (.v 5) (.v 6) .zero .none .none),
    .iadd hd0 (rf .n16 0 .lo (.v 4) (.v 5) (.v 6) .zero .none .none),
    .iadd hd0 (rf .n64 0 .none (.v 4) (.v 6) (.v 8) .zero .lo .none),
    .iadd hd0 (rf .n32 0 .none (.v 4) (.v 5) (.v 6) (.v 7) .none .none),
    .iabs hd0 (rf .i32 0 .none (.v 4) (.v 5) (.v 6) .zero .none .none),
    .mov hd0 (rf .b32 0 .hi (.v 4) (.v 5) .zero .zero .none .none),
    .movi hd0 { d := .v 2, a := .v 3, imm := 1, w := false },
    .shlImm hd0 { d := .v 2, a := .v 4, imm := 256, w := false },
    .icmp hd0 { ty := .n32, cond := 6, pd := 1, a := .v 2, b := .v 3, ma := .none, mb := .none },
    .icmp hd0 { ty := .b32, cond := 2, pd := 1, a := .v 2, b := .v 3, ma := .none, mb := .none },
    .icmpImm hd0 1 0 true { d := .v 1, a := .v 2, imm := 0, w := false }] = true := by decide

/-- Float, conversion and cross-lane forms (R307, R330 to R341, R357, R358, R375, R380). -/
theorem test_wf_float : bad [
    .fadd hd0 (rf .n32 0 .none (.v 4) (.v 5) (.v 6) .zero .none .none),
    .fadd hd0 (rf .f32 1 .none (.v 4) (.v 5) (.v 6) .zero .none .none),
    .fadd hd0 (rf .f16 0 .lo (.v 4) (.v 5) (.v 6) .zero .none .none),
    .fdot2 hd0 (rf .f32 0 .none (.v 4) (.v 5) (.v 6) (.v 7) .none .none),
    .frnd hd0 (rf .f32 5 .none (.v 4) (.v 5) .zero .zero .none .none),
    .fcvt hd0 { dt := .f16, st := .f32, k := 2, d := .v 1, a := .v 2, ma := .none },
    .fcvt hd0 { dt := .i32, st := .f32, k := 0, d := .v 1, a := .v 2, ma := .none },
    .f2i hd0 { dt := .i32, st := .f32, k := 1, d := .v 1, a := .v 2, ma := .none },
    .i2f hd0 { dt := .e4m3, st := .i32, k := 0, d := .v 1, a := .v 2, ma := .none },
    .shfl hd0 (rf .b32 4 .none (.v 4) (.v 5) (.v 6) .zero .none .none),
    .qswap hd0 (rf .b32 7 .none (.v 4) (.v 5) .zero .zero .none .none),
    .mpopc hd0 1 (.s 4) 1,
    .vote hd0 3 1 2,
    .lred hd0 (rf .b32 0 .none (.v 4) (.v 5) .zero .zero .none .none),
    .lscan hd0 (rf .n32 0 .none (.s 4) (.v 5) .zero .zero .none .none)] = true := by decide

/-- Memory forms (R278, R302, R304, R318, R351, R382 to R390). -/
theorem test_wf_memory : bad [
    .ld ht .b32 { m0 with a := .v 5 },
    .ld ht .b64 { m0 with d := .v 3 },
    .ld ht .b32 { m0 with d := .s 2 },
    .ld ht .b32 { m0 with ord := .rel },
    .ld ht .b32 { m0 with b := .v 1 },
    .lds ht .b32 { m0 with scope := .die },
    .st hd0 .b32 { m0 with d := .zero, b := .v 6, ord := .acq },
    .st hd0 .b32 { m0 with b := .v 6 },
    .sinj hd0 .b32 { m0 with b := .v 6 },
    .fence hd0 .rlx .gang,
    .atom ht .add { a0 with ty := .b32 },
    .atom ht .and a0,
    .acas ht { a0 with c := .v 7, ty := .i16 },
    .mred hd0 .add a0,
    .spawn hd0 (.v 126) 3 false 0,
    .spawn hd0 (.v 1) 0 false 0] = true := by decide

/-- Uniform memory words, tiles, scenes and the system (R96, R214, R215, R246, R282, R324, R344, R374, R391). -/
theorem test_wf_system : bad [
    .smap hd0 { x0 with a := .s 1, b := .s 3, c := .s 4 },
    .cadd hd0 .sys { x0 with a := .s 2, b := .v 4 },
    .cwait hd0 .sys { x0 with d := .s 1, a := .s 2, b := .s 4 },
    .thdrToH hd0 1 (.s 2),
    .tres hd0 1 2 46,
    .tst (hdr 0x10 0) 1 (.s 2) 0 .rlx .gang,
    .ntest ht { d := .v 1, a := .v 2, b := .v 4, c := .s 2 },
    .morton hd0 { x0 with d := .v 1, a := .v 2, b := .s 59 },
    .qbox hd0 true { x0 with d := .v 1, a := .v 4, b := .v 9 },
    .bdec ht .fix 0 { x0 with d := .v 1, a := .v 2 },
    .bdec ht .fix 33 { x0 with d := .v 1, a := .v 2 },
    .bdec ht .eg 16 { x0 with d := .v 1, a := .v 2 },
    .bdec ht .pfx 0 { x0 with d := .v 1, a := .v 1, b := .s 3 },
    .csrr hd0 .clock (.s 3),
    .csrw hd0 .clock (.s 2),
    .pst hd0 { m0 with d := .zero, a := .v 4, b := .s 6 }] = true := by decide

/-- A dual word (R285, R286): two registers of one bank, a common destination, a 64-bit type, a no-operation half that names a register. -/
theorem test_wf_dual : bad [
    .dualWord (Sched.ofBits 0) { op := .iadd, d := 4, s := 9, ty := .n32, m := .none } { op := .fmul, d := 8, s := 11, ty := .f32, m := .none },
    .dualWord (Sched.ofBits 0) { op := .iadd, d := 4, s := 9, ty := .n32, m := .none } { op := .fmul, d := 4, s := 11, ty := .f32, m := .none },
    .dualWord (Sched.ofBits 0) { op := .iadd, d := 4, s := 9, ty := .n64, m := .none } { op := .fmul, d := 6, s := 11, ty := .f32, m := .none },
    .dualWord (Sched.ofBits 0) { op := .nop, d := 4, s := 0, ty := .i32, m := .none } { op := .fmul, d := 6, s := 11, ty := .f32, m := .none }]
    = true := by decide

/-- Words the decoder refuses: the word 0 (R270), a reserved operation, a register code above 197, destination half 3, a reserved schedule (R264, R272,
R274). -/
theorem test_decode_refuses :
    [0, 0x7FF <<< 53, 0x2080B0D8802070 + (0xFF <<< 37 ^^^ 5 <<< 37), 0x2A080D89880E205 ||| 0x300, 0x2080B0D8802070 ||| 0x70 <<< 64].all
      (fun w => decide (decodeTableWord 80 w = none)) = true := by decide

/-! ## One step on a small state

Expected values are worked out by hand from the reference entries. -/

/-- A group of one thread, with a register file of 128 and chosen registers in lane 0. -/
def g1 (v : List (Nat × Nat)) (s : List (Nat × Nat)) : Group :=
  let g := { State.reset.handGroup with live := 1, act := 1 }
  let g := v.foldl (fun g x => g.setV x.1 0 (bv 32 x.2)) g
  s.foldl (fun g x => g.setS x.1 (bv 32 x.2)) g

/-- It is the turn of a group that stands alone at place 0. -/
def ready (g : Group) : State := { State.reset with cur := some 0, groups := [(0, g)] }

/-- The group after a word. -/
def after (i : Instr) (g : Group) : Option Group := match exec i (ready g) with
  | .next t => t.grp 0
  | _ => none

/-- Register r of lane 0 after a word of the register form. -/
def gives (i : Instr) (g : Group) (r x : Nat) : Bool := match after i g with
  | some y => decide ((y.getV r 0).toNat = x)
  | none => false

/-- The same of a class-L result that is still to be written. -/
def leaves (i : Instr) (g : Group) (ws : List Wr) : Bool := match after i g with
  | some y => decide (y.lpend.map (·.res) = [ws])
  | none => false

/-- The trap it takes: cause and info. -/
def traps (i : Instr) (g : Group) (c : Cause) (info : Nat) : Bool := match after i g with
  | some y => decide (y.trapcause = c.code ∧ y.trapinfo = bv 64 info ∧ y.trappc = g.pc ∧ y.inTrap = true)
  | none => false

def r3 (ty : Ty) (sub : BitVec 3) : RForm := rf ty sub .none (.v 4) (.v 6) (.v 8) .zero .none .none
def g68 (a b : Nat) : Group := g1 [(6, a % 2 ^ 32), (7, a / 2 ^ 32), (8, b % 2 ^ 32), (9, b / 2 ^ 32)] []

theorem test_integer_values :
    (gives (.iadd hd0 (r3 .n32 0)) (g68 0xFFFFFFFF 2) 4 1
    && gives (.iadd hd0 (r3 .i8 1)) (g68 0x7F80FF01 0x01FF0203) 4 0x7F800104
    && gives (.isub hd0 (r3 .n32 1)) (g68 3 5) 4 0
    && gives (.isub hd0 (r3 .n64 0)) (g68 0 1) 5 0xFFFFFFFF
    && gives (.imulh hd0 (r3 .i32 0)) (g68 0xFFFFFFFF 2) 4 0xFFFFFFFF
    && gives (.iabs hd0 (rf .i32 1 .none (.v 4) (.v 6) .zero .zero .none .none)) (g68 0x80000000 0) 4 0x7FFFFFFF
    && gives (.shl hd0 (r3 .n32 0)) (g68 1 32) 4 0
    && gives (.shr hd0 (r3 .i32 0)) (g68 0x80000000 40) 4 0xFFFFFFFF
    && gives (.bfx hd0 (rf .i32 0 .none (.v 4) (.v 6) (.v 8) (.v 9) .none .none)) (g1 [(6, 0xF50), (8, 4), (9, 4)] []) 4 5
    && gives (.clz hd0 (rf .b32 0 .none (.v 4) (.v 6) .zero .zero .none .none)) (g68 0 0) 4 32
    && gives (.bperm hd0 (rf .b32 0 .none (.v 4) (.v 6) (.v 8) (.v 9) .none .none)) (g1 [(6, 0x44332211), (8, 0x88776655), (9, 0xF740)] [])
      4 0xFF885511
    && gives (.idp4 hd0 (rf .i8 0 .none (.v 4) (.v 6) (.v 8) (.v 9) .none .none)) (g1 [(6, 0x01FF0203), (8, 0x02020202), (9, 10)] []) 4 20) = true := by
  decide

theorem test_float_values :
    (gives (.fadd hd0 (r3 .f32 0)) (g68 0x3F800000 0x40000000) 4 0x40400000
    && gives (.fmul hd0 (r3 .f16 0)) (g68 0x40003C00 0x42003C00) 4 0x46003C00
    && gives (.fmin hd0 (r3 .f32 0)) (g68 0x7FC00000 0x40000000) 4 0x40000000
    && gives (.ffma hd0 (rf .f32 0 .none (.v 4) (.v 6) (.v 8) (.v 9) .none .none)) (g1 [(6, 0x40000000), (8, 0x40400000), (9, 0x3F800000)] [])
      4 0x40E00000
    && gives (.f2i hd0 { dt := .i32, st := .f32, k := 0, d := .v 4, a := .v 6, ma := .none }) (g68 0x40200000 0) 4 2
    && gives (.i2f hd0 { dt := .f32, st := .i32, k := 0, d := .v 4, a := .v 6, ma := .none }) (g68 0xFFFFFFFF 0) 4 0xBF800000
    && gives (.fcvt hd0 { dt := .f16, st := .f32, k := 1, d := .v 4, a := .v 6, ma := .none }) (g1 [(4, 0x1234), (6, 0x3F800000)] [])
      4 0x3C001234) = true := by decide

/-- 1 over 0 raises `DZ`, a signaling NaN `NV`, a rounded quotient nothing but `NX`; compares with a quiet NaN are unordered. -/
theorem test_flags_and_predicates :
    ((match after (.fadd hd0 (r3 .f32 0)) (g68 0x7F800001 0) with
      | some y => decide (y.fflags = 0b10000)
      | none => false)
    && (match after (.icmp hd0 { ty := .i32, cond := 2, pd := 1, a := .v 6, b := .v 8, ma := .none, mb := .none }) (g68 0xFFFFFFFF 0) with
      | some y => decide (y.getP 1 = 1)
      | none => false)
    && (match after (.fcmp hd0 { ty := .f32, cond := 0, pd := 1, a := .v 6, b := .v 6, ma := .none, mb := .none }) (g68 0x7FC00000 0) with
      | some y => decide (y.getP 1 = 0 ∧ y.fflags = 0)
      | none => false)) = true := by decide

/-- Traps at a word take its own address, and the operation field or the register's number (R195, R288). -/
theorem test_traps :
    (traps (.iadd hd0 (rf .n32 0 .none (.v 4) (.v 5) (.v 9) .zero .none .none)) { g68 0 0 with regs := 8 } .regBudget 9
    && traps (.tlbf hd0 { d := .zero, a := .v 1, b := .v 2, c := .v 4 }) { g68 0 0 with ir := 0x77 } .privilege 0x77
    && traps (.join hd0) (g68 0 0) .divMismatch 0
    && traps (.ld ht .b32 { m0 with ord := .acq }) (g1 [(4, 2), (5, 0)] []) .misaligned 2
    && traps (.smap hd0 { x0 with a := .s 1, b := .s 2, c := .s 4 }) (g1 [] [(3, 0xC0000000)]) .badOwner 0xC000000000000000) = true := by decide

/-- A branch goes twelve slots to a line (R262), a divergent one pushes the other side (R35). -/
theorem test_control :
    ((match after (.bra hd0 13) (g68 0 0) with
      | some y => decide (y.pc = 129)
      | none => false)
    && (match after (.brd (hdr 0 1) 13 14) { g68 0 0 with act := 3, live := 3, p := [(1, 2)], npc := 1 } with
      | some y => decide (y.pc = 129 ∧ y.act = 2 ∧ y.div = [{ j := 130, m := 3, p := 1, pp := 1 }])
      | none => false)
    && leaves (.ballot (hdr 0 0) (.v 4) 1) { g68 0 0 with act := 3, live := 3, p := [(1, 2)] } [.v 4 0 2, .v 4 1 2]
    && leaves (.shfl (hdr 0 0) (rf .b32 0 .none (.v 4) (.v 6) (.s 3) .zero .none .none)) (g68 0xAB 0) [.v 4 0 0xAB]) = true := by decide

/-! ## Witnesses

For each statement with hypotheses, states and operands that meet those of each of its clauses together. -/

/-- The checks before a meaning, as one Boolean. -/
def free (i : Instr) (g : Group) (vs : List Nat) : Bool :=
  i.wf && (g.kind != .reel || g.inTrap || reelAllows i) && (!isPrivileged i || g.privileged) && vs.all (fun r => decide (r < g.regs))

theorem issuesIn (s : State) (g : Group) (i : Instr) (vs : List Nat) (hc : s.cur = some 0) (hg : s.grp 0 = some g)
    (h : free i g vs = true) : s.Issues 0 g i vs := by
  simp only [free, Bool.and_eq_true, Bool.or_eq_true, List.all_eq_true, decide_eq_true_eq, bne_iff_ne, ne_eq, Bool.not_eq_true'] at h
  obtain ⟨⟨⟨h1, h2⟩, h3⟩, h4⟩ := h
  refine ⟨hc, hg, h1, fun hk ht => ?_, fun hp => ?_, h4⟩
  · rcases h2 with (h2 | h2) | h2
    · exact absurd hk h2
    · rw [ht] at h2; exact absurd h2 (by decide)
    · exact h2
  · rcases h3 with h3 | h3
    · rw [hp] at h3; exact absurd h3 (by decide)
    · exact h3

theorem issues (g : Group) (i : Instr) (vs : List Nat) (h : free i g vs = true) : (ready g).Issues 0 g i vs :=
  issuesIn _ g i vs rfl rfl h

/-- What holds of lane 0 holds of the lanes of a mask that names it alone. -/
theorem lane0 {P : Nat → Prop} (m : Mask) (hm : m = 1) (h : P 0) : ∀ n, m.getLsbD n = true → P n := by
  intro n hn
  subst hm
  rcases Nat.eq_zero_or_pos n with rfl | h0
  · exact h
  · have h1 : (1 : Mask).getLsbD n = decide (n = 0) := by simp
    rw [h1] at hn
    exact absurd (of_decide_eq_true hn) (by omega)

/-- A group of one thread, and one with two of which p1 chooses one. -/
def ga : Group := g1 [(6, 5), (8, 7), (9, 2)] [(2, 3)]
def gd : Group := { ga with act := 3, live := 3, p := [(1, 2)] }

/-- The word can issue at the turn of a group that stands alone. -/
def can (i : Instr) (g : Group) (vs : List Nat) : Prop := (ready g).Issues 0 g i vs

theorem can_of (i : Instr) (g : Group) (vs : List Nat) (h : free i g vs = true) : can i g vs := issues g i vs h

/-- An arithmetic word of a row of the claims that can issue without a queue. -/
def alu (row : Instr → Option Alu) (i : Instr) (g : Group) : Prop := ∃ a : Alu, row i = some a ∧ can i g a.regs ∧ a.noQueue

theorem witness_IntegerArithmetic : alu arithRow (.iadd hd0 (r3 .n32 0)) ga :=
  ⟨_, rfl, can_of _ _ _ (by decide), by decide, by decide⟩

theorem witness_BitsAndMoves : alu bitRow (.shl hd0 (r3 .b64 0)) ga ∧ alu moveRow (.sel hd0 7 (r3 .b64 0)) ga :=
  ⟨⟨_, rfl, can_of _ _ _ (by decide), ⟨by decide, by decide⟩⟩, _, rfl, can_of _ _ _ (by decide), by decide, by decide⟩

/-- The f32 code of 3.0 is 3 × 2^0; each clause has a code of its format, a condition, a pair of types and a number. -/
theorem witness_FloatWords : alu floatRow (.ffma hd0 (rf .bf16 1 .hi (.v 4) (.v 6) (.v 8) (.v 127) .sw .lo)) ga
    ∧ (0x40400000 < 2 ^ (fmtF32.mag + 1) ∧ 0xFFFF < 2 ^ (fmtF16.mag + 1) ∧ (7 : Nat) < 8)
    ∧ (unpack fmtF32 0x40400000).isAt (-149) (3 * 2 ^ 149) ∧ (unpack fmtF32 fmtF32.maxc).isAt (-149) ((2 ^ 24 - 1) * 2 ^ (104 + 149))
    ∧ 0xFF < 2 ^ tyWidth .e8m0 ∧ 0x40400000 < 2 ^ tyWidth .f32 ∧ (-149 : Int) ≤ (Fmt.ofTy .f32).lo :=
  ⟨⟨_, rfl, can_of _ _ _ (by decide), by decide, by decide⟩, by decide +kernel,
    ⟨false, 12582912, -22, by decide +kernel, by decide, by decide +kernel⟩,
    ⟨false, 16777215, 104, by decide +kernel, by decide, by decide +kernel⟩, by decide +kernel, by decide +kernel, by decide⟩

/-- 0 is special for a reciprocal; 3.0 is not, and is the real number 3. -/
theorem witness_FunctionForms :
    0 < 2 ^ (fmtF16.mag + 1) ∧ fnSpecial .rcp (unpack fmtF16 0) = some (.inf false, fDZ)
    ∧ 0x40400000 < 2 ^ (fmtF32.mag + 1) ∧ (∀ fn ∈ [Fn.rcp, .sqrt, .rsq], fnSpecial fn (unpack fmtF32 0x40400000) = none)
    ∧ (unpack fmtF32 0x40400000).realIs 3 :=
  ⟨by decide +kernel, by decide +kernel, by decide +kernel, by decide +kernel, ⟨false, 12582912, -22, by decide +kernel, by norm_num⟩⟩

theorem witness_FunctionBounds :
    0x40400000 < 2 ^ (fmtF32.mag + 1) ∧ (∀ fn ∈ [Fn.exp2, .log2, .sin, .cos, .tanh], fnSpecial fn (unpack fmtF32 0x40400000) = none)
    ∧ (unpack fmtF32 0x40400000).realIs 3 :=
  ⟨by decide +kernel, by decide +kernel, ⟨false, 12582912, -22, by decide +kernel, by norm_num⟩⟩

theorem witness_LaneWords : alu laneRow (.shfl hd0 (rf .b32 3 .none (.v 4) (.v 6) (.v 8) .zero .none .none)) ga
    ∧ ∃ a : Gather, gatherRow (.lscan hd0 (rf .i64 1 .none (.v 4) (.v 6) .zero .zero .none .none)) = some a
      ∧ can (.lscan hd0 (rf .i64 1 .none (.v 4) (.v 6) .zero .zero .none .none)) gd (opdRegs a.d (if a.dw then 2 else 1) ++ a.vs) :=
  ⟨⟨_, rfl, can_of _ _ _ (by decide), ⟨by decide, by decide⟩⟩, _, rfl, can_of _ _ _ (by decide)⟩

/-- A signed compare with the condition 'at least'. -/
def cmp5 : PForm := { ty := .i32, cond := 5, pd := 7, a := .v 6, b := .v 8, ma := .none, mb := .none }

theorem witness_PredicateWords :
    (∃ a : PredW, predRow (.icmp hd0 cmp5) = some a ∧ can (.icmp hd0 cmp5) ga ((a.xs.map SrcOp.regs).flatten)
      ∧ queuesOf (a.xs.map (·.o)) = [])
    ∧ can (.plog hd0 7 0 1 2) gd [] ∧ can (.vote hd0 1 2 1) gd [] ∧ voteHolds 1 (parts gd (gd.exec hd0.guard)) (gd.getP 1)
    ∧ can (.vote hd0 0 2 1) gd [] ∧ ¬ voteHolds 0 (parts gd (gd.exec hd0.guard)) (gd.getP 1) ∧ can (.elect (hdr 15 9) 3) gd [] :=
  ⟨⟨_, rfl, can_of _ _ _ (by decide), by decide⟩, can_of _ _ _ (by decide), can_of _ _ _ (by decide), ⟨1, by decide, by decide⟩,
    can_of _ _ _ (by decide), fun h => absurd (h 0 (by decide)) (by decide), can_of _ _ _ (by decide)⟩

/-- Core 0 with entries in the queue q0, n entries in q3, and an owner. -/
def kq (xs : List (SMap Word)) (n : Nat) : Core := { Core.reset with q := [(0, xs), (3, List.replicate n [])] }
def queued (xs : List (SMap Word)) (n : Nat) (o : Option Nat) : State := { ready ga with cores := [(0, { kq xs n with qowner := o })] }
def full0 : List (SMap Word) := List.replicate 16 [(0, 9)]
def pop1 (h : Hdr) : Instr := .iadd h (rf .n32 0 .none (.q 3) (.q 0) (.v 8) .zero .none .none)
def popP (h : Hdr) : Instr := .icmp h { ty := .i32, cond := 5, pd := 7, a := .q 0, b := .v 8, ma := .none, mb := .none }

theorem witness_QueueOperands :
    (∀ h ∈ [hd0, hdr 0 8], ∃ a : Alu, aluRow (pop1 h) = some a ∧ a.uniform = false ∧ a.popsOf ≠ [] ∧ a.pushesTo ≠ []
      ∧ (∀ xs n o, (queued xs n o).Issues 0 ga (pop1 h) a.regs)
      ∧ (ga.exec a.h.guard = 0 ∨ (ga.exec a.h.guard ≠ 0
        ∧ ((queued [] 0 none).core 0).pops a.popsOf = none
        ∧ (∀ n ∈ [15, 16], ((queued full0 n none).core 0).pops a.popsOf = some ({ kq (full0.drop 1) n with qmoved := true }, [(0, [(0, 9)])]))
        ∧ a.d = .q 3)))
    ∧ ga.exec (hdr 0 8).guard = 0 ∧ ga.exec hd0.guard ≠ 0 ∧ ((kq (full0.drop 1) 15).queue 3).length < 16 ∧ 16 ≤ ((kq (full0.drop 1) 16).queue 3).length
    ∧ (∀ xs n, ((queued xs n (some 5)).core 0).mayOwn ga.ctx = false ∧ ((queued xs n none).core 0).mayOwn ga.ctx = true)
    ∧ ∀ h ∈ [hd0, hdr 0 8], ∃ a : PredW, predRow (popP h) = some a ∧ (queued full0 0 none).Issues 0 ga (popP h) ((a.xs.map SrcOp.regs).flatten)
      ∧ queuesOf (a.xs.map (·.o)) ≠ []
      ∧ (if ga.exec a.h.guard = 0 then some ((queued full0 0 none).core 0, []) else ((queued full0 0 none).core 0).pops (queuesOf (a.xs.map (·.o))))
        ≠ none := by
  have two : ∀ {P : Hdr → Prop}, P hd0 → P (hdr 0 8) → ∀ h ∈ [hd0, hdr 0 8], P h := fun ha hb h hh => by
    have h1 : h = hd0 ∨ h = hdr 0 8 := by simpa using hh
    rcases h1 with rfl | rfl
    · exact ha
    · exact hb
  refine ⟨two ⟨_, rfl, by decide, by decide, by decide, fun _ _ _ => issuesIn _ _ _ _ rfl rfl (by decide),
      .inr ⟨by decide, by decide, fun n _ => rfl, rfl⟩⟩
    ⟨_, rfl, by decide, by decide, by decide, fun _ _ _ => issuesIn _ _ _ _ rfl rfl (by decide), .inl (by decide)⟩,
    by decide, by decide, by decide, by decide, fun _ _ => ⟨rfl, rfl⟩,
    two ⟨_, rfl, issuesIn _ _ _ _ rfl rfl (by decide), by decide, by decide⟩
      ⟨_, rfl, issuesIn _ _ _ _ rfl rfl (by decide), by decide, by decide⟩⟩

def half0 : HalfW := { op := .iadd, d := 4, s := 9, ty := .n32, m := .none }
def half1 : HalfW := { op := .fmul, d := 6, s := 127, ty := .f32, m := .none }

theorem witness_DualWords : can (.dualWord (Sched.ofBits 0) half0 half1) ga ((half0.regs ++ half1.regs).map (·.toNat)) :=
  can_of _ _ _ (by decide)

/-- Guards that hold in no thread, and in one of two. -/
def hN : Hdr := hdr 0 8
def hS : Hdr := hdr 0 1

/-- Two threads of A with different targets in v2 and v3. -/
def gTwoTargets : Group := { gd with v := (gd.setV 2 1 1).v }

theorem witness_Branches :
    can (.bra hd0 (-1)) ga [] ∧ branchTo ga.pc (-1) = none
    ∧ can (.bra hN 12) gd [] ∧ can (.bra hd0 12) gd [] ∧ can (.bra hS 12) gd [] ∧ branchTo gd.pc 12 = some 128
    ∧ can (.call hd0 (.s 4) (-1)) ga [] ∧ can (.call hN (.s 62) 12) gd [] ∧ can (.call hd0 (.s 62) 12) gd [] ∧ can (.call hS (.s 62) 12) gd []
    ∧ takenBy gd hN.guard = 0 ∧ takenBy gd hd0.guard = gd.act ∧ gd.act ≠ 0 ∧ takenBy gd hS.guard ≠ 0 ∧ takenBy gd hS.guard ≠ gd.act
    ∧ can (.brx hN (.s 2)) gd (opdRegs (.s 2) 2) ∧ can (.brx hd0 (.s 2)) gd (opdRegs (.s 2) 2) ∧ can (.ret hS (.s 2)) gd (opdRegs (.s 2) 2)
    ∧ can (.brx hd0 (.v 2)) gTwoTargets (opdRegs (.v 2) 2)
    ∧ (∃ n m, gTwoTargets.act.getLsbD n = true ∧ gTwoTargets.act.getLsbD m = true
      ∧ gTwoTargets.read [] n (src (.v 2) true .none) ≠ gTwoTargets.read [] m (src (.v 2) true .none))
    ∧ ∀ n, gd.act.getLsbD n = true → gd.read [] n (src (.s 2) true .none) = (3 : DWord).toNat := by
  refine ⟨can_of _ _ _ (by decide), by decide, can_of _ _ _ (by decide), can_of _ _ _ (by decide), can_of _ _ _ (by decide), by decide,
    can_of _ _ _ (by decide), can_of _ _ _ (by decide), can_of _ _ _ (by decide), can_of _ _ _ (by decide), by decide, by decide, by decide,
    by decide, by decide, can_of _ _ _ (by decide), can_of _ _ _ (by decide), can_of _ _ _ (by decide), can_of _ _ _ (by decide),
    ⟨0, 1, by decide, by decide, by decide⟩, fun n _ => ?_⟩
  exact show gd.read [] 0 (src (.s 2) true .none) = 3 by decide

/-- A full divergence stack, and one entry that joins in the next line, with and without another side. -/
def gLast : Group := { gd with div := [{ j := 128, m := 3, p := 0, pp := 7 }], pc := 11 }
/-- The line at 128 stands in the instruction cache, with one word. -/
def lined (g : Group) : State := { ready g with cores := [(0, { Core.reset with icache := [(lineKey 0 128, codeLine [0])] })] }
def gFull : Group := { gd with div := List.replicate 16 { j := 5, m := 3, p := 0, pp := 0 } }
def gTwo : Group := { gd with div := [{ j := 128, m := 3, p := 1, pp := 7 }], pc := 11 }

theorem witness_Divergence :
    can (.brd hd0 12 13) gFull [] ∧ gFull.div.length = 16 ∧ can (.brd hd0 12 13) gd [] ∧ can (.brd hN 12 13) gd [] ∧ gd.div.length < 16
    ∧ branchTo gd.pc 12 = some 128 ∧ branchTo gd.pc 13 = some 129 ∧ takenBy gd hd0.guard ≠ 0 ∧ takenBy gd hN.guard = 0
    ∧ can (.brd hd0 12 12) gd [] ∧ (∀ e r, gd.div = e :: r → e.j ≠ 128)
    ∧ can (.brd hS 1 1) gTwo [] ∧ branchTo gTwo.pc 1 = some 128 ∧ (∃ e r, gTwo.div = e :: r ∧ e.j = 128)
    ∧ gTwo.act &&& ~~~(gTwo.guard hS.guard) ≠ 0
    ∧ can (.brd hd0 1 1) gTwo [] ∧ gTwo.act &&& ~~~(gTwo.guard hd0.guard) = 0 ∧ (1 : Mask) ≠ 0
    ∧ ((lined gLast).Issues 0 gLast (.brd hd0 1 1) [] ∧ (∃ e r, gLast.div = e :: r ∧ e.j = 128 ∧ e.p = 0)
      ∧ gLast.act &&& ~~~(gLast.guard hd0.guard) = 0 ∧ (lined gLast).owner (pcLine 128) ≠ .bad
      ∧ fetchCode (lined gLast) 0 0 (pcLine 128) = .ok (lined gLast) (codeLine [0]) ∧ lineOk (codeLine [0]) = true)
    ∧ joined { gTwo with act := 0 } 128 129 { gTwo with act := 1, div := [{ j := 128, m := 3, p := 0, pp := 7 }] } 7
    ∧ can (.join hd0) { gFull with pc := 5 } []
    ∧ joined { gFull with pc := 5 } 5 6 { gFull with pc := 5, act := 3, div := List.replicate 15 { j := 5, m := 3, p := 0, pp := 0 } } 6
    ∧ can (.join hd0) gd [] ∧ ∀ e r, gd.div = e :: r → e.j ≠ gd.pc :=
  ⟨can_of _ _ _ (by decide), by decide, can_of _ _ _ (by decide), can_of _ _ _ (by decide), by decide, by decide, by decide, by decide,
    by decide, can_of _ _ _ (by decide), fun e r h => absurd (show [] = e :: r from h) (by simp), can_of _ _ _ (by decide), by decide,
    ⟨_, _, rfl, rfl⟩, by decide, can_of _ _ _ (by decide), by decide, by decide,
    ⟨issuesIn _ _ _ _ rfl rfl (by decide), ⟨_, _, rfl, rfl, rfl⟩, by decide, by decide, rfl, by decide +kernel⟩,
    ⟨_, _, rfl, rfl, .inl ⟨by decide, rfl, rfl⟩⟩,
    can_of _ _ _ (by decide), ⟨_, _, rfl, rfl, .inr ⟨rfl, by rfl, rfl⟩⟩, can_of _ _ _ (by decide),
    fun e r h => absurd (show [] = e :: r from h) (by simp)⟩

theorem witness_EndOfThreads : (can (.exit hS) gd [] ∧ can (.exit hd0) gd [] ∧ gd.inTrap = false ∧ gd.kind = .ordinary)
    ∧ can (.nop hd0) ga [] ∧ can (.yield hd0) ga [] ∧ can (.trap hd0 0xFFFFFFFF) ga [] ∧ can (.bkpt hd0) ga [] :=
  ⟨⟨can_of _ _ _ (by decide), can_of _ _ _ (by decide), rfl, rfl⟩,
    can_of _ _ _ (by decide), can_of _ _ _ (by decide), can_of _ _ _ (by decide), can_of _ _ _ (by decide)⟩

/-- Core 0 with one gang, whose stash may be bound. -/
def gang0 : Gang where
  ctx := 0
  queue := 0
  seqNo := 0
  gang := 0
  spawned := false
  core := 0
  stashBase := 0x1000
  stashSize := 0x8000
  places := [0]
  binds := []
def bound0 : Gang := { gang0 with binds := [{ o := 0x100, a := 0x4000, n := 256 }] }
def stashed (g : Group) (k : Gang) : State := { ready g with gangs := [(0, k)] }

/-- Where the core has no range lock, none forbids an access. -/
theorem unl {s : State} {g : Group} (h : (s.core 0).locks = []) (w : Bool) (a n : Nat) : s.unlocked 0 g w a n := fun l hl => by
  have h1 : l ∈ (s.core 0).locks := hl.1
  rw [h] at h1
  exact absurd h1 (by simp)

theorem ok_acc {s : State} {g : Group} {al w : Bool} {a n : Nat} (h : (s.core 0).locks = []) (h1 : al = true → a % n = 0)
    (h2 : s.owner a ≠ .bad) (h3 : s.owner ((a + n - 1) % 2 ^ 64) ≠ .bad) : s.accessOk 0 g al w a n := ⟨h1, h2, h3, unl h w a n⟩

theorem ok_stash {s : State} {g : Group} {w : Bool} {a n : Nat} (k : Gang) (h : (s.core 0).locks = []) (h1 : s.stashGang 0 g = some k)
    (h2 : a + n ≤ k.stashSize) : s.stashOk 0 g w a n := ⟨k, h1, h2, fun _ va _ _ l hl => by
  have h3 : l ∈ (s.core 0).locks := hl.1
  rw [h] at h3
  exact absurd h3 (by simp)⟩

theorem one_others (h : Hdr) (g : Group) (uni : Bool) (hm : others (memLanes g h uni) (memHelpers g h uni) = 1) {P : Nat → Prop} (hp : P 0) :
    ∀ n, (others (memLanes g h uni) (memHelpers g h uni)).getLsbD n = true → P n := lane0 _ hm hp

/-- Addresses at both ends of what passes the checks: the last word of die 0's space, and the last word of a gang's stash. -/
def gTop : Group := g1 [(4, 0xFFFFFFF8), (5, 0xFFFFF), (6, 0x7FFC)] [(2, 0xFFFFFFF8), (3, 0xFFFFF), (4, 9), (8, 0x100)]
def mTop : MForm := { m0 with d := .v 2, a := .v 4 }
def mStash : MForm := { m0 with d := .v 2, a := .v 6 }

theorem witness_LoadsIssue :
    can (.ld ht .b64 { mTop with ord := .acq }) gTop [2, 3, 4, 5]
    ∧ (∀ n, (others (memLanes gTop ht false) (memHelpers gTop ht false)).getLsbD n = true →
      (ready gTop).accessOk 0 gTop true false (memAddr gTop false { mTop with ord := .acq } n) 8)
    ∧ (stashed gTop gang0).Issues 0 gTop (.lds ht .b32 mStash) [2, 6]
    ∧ (∀ n, (others (memLanes gTop ht false) (memHelpers gTop ht false)).getLsbD n = true →
      (stashed gTop gang0).stashOk 0 gTop false (memAddr gTop true mStash n) 4) := by
  exact ⟨can_of _ _ _ (by decide), one_others _ _ _ (by decide) (ok_acc (by decide) (by decide) (by decide) (by decide)),
    issuesIn _ _ _ _ rfl rfl (by decide), one_others _ _ _ (by decide) (ok_stash gang0 (by decide) (by decide) (by decide))⟩

/-- A store's operands: data in v6. -/
def mSt : MForm := { mTop with d := .zero, b := .v 6 }
def mSts : MForm := { mStash with d := .zero, b := .zero }
def gBound : Group := { gTop with v := (gTop.setV 6 0 0x1FC).v }

/-- An entry of the store queue, and a group whose queue is full. -/
def acc0 : SqAcc := { lane := 0, stash := false, addr := 0, width := 4, data := 9, done := 0 }
def sq0 : SqEntry where
  pc := 0
  kind := .store
  ord := .rlx
  scope := .gang
  accs := [acc0]
  tag := 0
  frm := 0
  seq := 0
  parked := none
  after := 0
  whole := []
def filled (g : Group) : Group := { g with sq := List.replicate 8 sq0 }
/-- What a store of gTop puts into the queue; the guard of hN leaves it nothing. -/
def stored0 (h : Hdr) : List SqAcc :=
  memStores gTop h false false 4 (memAddr gTop false mSt) (fun n => gTop.read [] n (src mSt.b false .none))
def gWk : Group := { ga with kind := .walker }
def inStash (a : Nat) : SqAcc := { acc0 with stash := true, addr := bv 64 a }

theorem witness_StoresIssue :
    (∀ g ∈ [gTop, filled gTop], can (.st ht .b32 { mSt with ord := .rel }) g (stRegs false .b32 { mSt with ord := .rel })
      ∧ can (.sinj ht .b32 { mSt with d := .s 4 }) g (stRegs false .b32 { mSt with d := .s 4 })
      ∧ (∀ n, (others (memLanes g ht false) (memHelpers g ht false)).getLsbD n = true →
        (ready g).accessOk 0 g true true (memAddr g false mSt n) 4))
    ∧ gTop.sq.length < 8 ∧ 8 ≤ (filled gTop).sq.length ∧ stored0 ht ≠ [] ∧ stored0 (hdr 0x10 8) = []
    ∧ (∀ g ∈ [gWk, filled gWk], (ready g).Issues 0 g (.pst hd0 { mSt with b := .v 8 }) [4, 5, 8, 9]
      ∧ ∀ n, (others (memLanes g ht false) (memHelpers g ht false)).getLsbD n = true →
        memAddr g false mSt n % 8 = 0 ∧ physAt (memAddr g false mSt n) ≠ .bad)
    ∧ (∀ g ∈ [gBound, filled gBound], (stashed g bound0).Issues 0 g (.sts hd0 .b32 mSts) [6]
      ∧ ∀ n, (others (memLanes g hd0 false) (memHelpers g hd0 false)).getLsbD n = true →
        (stashed g bound0).stashOk 0 g true (memAddr g true mSts n) 4)
    ∧ (stashed gBound bound0).stashGang 0 gBound = some bound0
    ∧ (∀ a ∈ [0xFC, 0x100, 0x1FC, 0x200], (inStash a).stash = true ∧ 0 < (inStash a).width ∧ (inStash a).addr.toNat + (inStash a).width ≤ 2 ^ 32)
    ∧ (∀ a ∈ [0x100, 0x1FC], ∃ b, bound0.binds = [b] ∧ b.o ≤ a ∧ a + 4 ≤ b.o + b.n)
    ∧ ∀ a ∈ [0xFC, 0x200], ∀ b ∈ bound0.binds, a + 4 ≤ b.o ∨ b.o + b.n ≤ a := by
  have two : ∀ {P : Group → Prop} {x y : Group}, P x → P y → ∀ g ∈ [x, y], P g := fun {P x y} ha hb g hg => by
    have h1 : g = x ∨ g = y := by simpa using hg
    rcases h1 with rfl | rfl
    · exact ha
    · exact hb
  have acc := fun (g : Group) => @ok_acc (ready g) g true true
  refine ⟨two ⟨can_of _ _ _ (by decide), can_of _ _ _ (by decide), one_others _ _ _ (by decide) (acc _ (by decide) (by decide) (by decide) (by decide))⟩
      ⟨can_of _ _ _ (by decide), can_of _ _ _ (by decide), one_others _ _ _ (by decide) (acc _ (by decide) (by decide) (by decide) (by decide))⟩,
    by decide, by decide, by decide, by decide,
    two ⟨issuesIn _ _ _ _ rfl rfl (by decide), one_others _ _ _ (by decide) (by decide)⟩
      ⟨issuesIn _ _ _ _ rfl rfl (by decide), one_others _ _ _ (by decide) (by decide)⟩,
    two ⟨issuesIn _ _ _ _ rfl rfl (by decide), one_others _ _ _ (by decide) (ok_stash bound0 (by decide) (by decide) (by decide))⟩
      ⟨issuesIn _ _ _ _ rfl rfl (by decide), one_others _ _ _ (by decide) (ok_stash bound0 (by decide) (by decide) (by decide))⟩,
    by decide, by decide, fun a h => ⟨_, rfl, ?_⟩, by decide⟩
  revert a; decide

def aTop : AForm := { a0 with ty := .n64, d := .v 10, a := .v 4, b := .v 6 }
def rS (d a b : Opd) : Regs := { x0 with d := d, a := a, b := b }

theorem witness_QueuedUpdates :
    (∀ g ∈ [gTop, filled gTop], can (.mred ht .add { aTop with d := .zero }) g (atomRegs { aTop with d := .zero })
      ∧ (∀ n, (others (memLanes g ht false) (memHelpers g ht false)).getLsbD n = true →
        (ready g).accessOk 0 g true true (g.read [] n (src (.v 4) true .none)) 8)
      ∧ can (.cadd ht .sys (rS .zero (.s 2) (.s 4))) g []
      ∧ (ready g).accessOk 0 g true true (g.read [] 0 (src (.s 2) true .none)) 8
      ∧ can (.wbr ht (rS .zero (.s 2) (.s 4))) g [])
    ∧ gTop.sq.length < 8 ∧ 8 ≤ (filled gTop).sq.length
    ∧ memStores gTop ht false false 8 (fun n => gTop.read [] n (src (.v 4) true .none)) (fun n => gTop.read [] n (src (.v 6) true .none)) ≠ [] := by
  refine ⟨fun g hg => ?_, by decide, by decide, by decide⟩
  have h1 : g = gTop ∨ g = filled gTop := by simpa using hg
  rcases h1 with rfl | rfl
  · exact ⟨can_of _ _ _ (by decide), one_others _ _ _ (by decide) (ok_acc (by decide) (by decide) (by decide) (by decide)),
      can_of _ _ _ (by decide), ok_acc (by decide) (by decide) (by decide) (by decide), can_of _ _ _ (by decide)⟩
  · exact ⟨can_of _ _ _ (by decide), one_others _ _ _ (by decide) (ok_acc (by decide) (by decide) (by decide) (by decide)),
      can_of _ _ _ (by decide), ok_acc (by decide) (by decide) (by decide) (by decide), can_of _ _ _ (by decide)⟩

theorem witness_AtomicsIssue :
    can (.atom ht .min aTop) gTop (atomRegs aTop) ∧ can (.acas ht { aTop with c := .v 8 }) gTop (atomRegs { aTop with c := .v 8 })
    ∧ (∀ n, (others (gTop.exec ht.guard) gTop.help).getLsbD n = true →
      (ready gTop).accessOk 0 gTop true true (gTop.read [] n (src (.v 4) true .none)) 8)
    ∧ can (.crd ht .acq .sys (rS (.s 6) (.s 2) .zero)) gTop []
    ∧ (ready gTop).accessOk 0 gTop true false (gTop.read [] 0 (src (.s 2) true .none)) 8 := by
  exact ⟨can_of _ _ _ (by decide), can_of _ _ _ (by decide), lane0 _ (by decide) (ok_acc (by decide) (by decide) (by decide) (by decide)),
    can_of _ _ _ (by decide), ok_acc (by decide) (by decide) (by decide) (by decide)⟩

/-- A value is y × 2^q, decided. -/
def isAtB (v : FVal) (q y : Int) : Bool := match v with
  | .num s m e => decide (q ≤ e ∧ y = (if s then -1 else 1) * ((m : Int) * 2 ^ (e - q).toNat))
  | _ => false

theorem at_of {v : FVal} {q y : Int} (h : isAtB v q y = true) : v.isAt q y := by
  cases v with
  | num s m e =>
    obtain ⟨h1, h2⟩ := of_decide_eq_true h
    exact ⟨s, m, e, rfl, h1, h2⟩
  | _ => exact absurd h (by simp [isAtB])

/-- A bf16 matrix of ones. -/
def fragOne : Frag := { reg := fun _ _ => 0x3F803F80, h := THdr.of (0x02 <<< 114 ||| 5 <<< 110 ||| 5 <<< 106) }

theorem witness_AtomicArithmetic :
    (2 ^ 63 - 1 < 2 ^ tyWidth .i64) ∧ (0xFF800000 < 2 ^ tyWidth .f32)
    ∧ (∀ f ∈ [fmtF32, fmtF16, fmtBf16, fmtE5m2, fmtE4m3, fmtE3m2, fmtE2m1], (1 : Nat) ≠ 0 ∧ f.lo - 1 ≤ 5 ∧ f.lo - 1 ≤ f.lo)
    ∧ (fmtF16 ∈ [fmtF32, fmtF16, fmtBf16] ∧ (-24 : Int) ≤ fmtF16.lo
      ∧ (unpack fmtF16 0x3C00).isAt (-24) (2 ^ 24) ∧ (unpack fmtF16 0xBC00).isAt (-24) (-(2 ^ 24)) ∧ (unpack fmtF16 0x8000).isAt (-24) 0
      ∧ (2 ^ 24 + 2 ^ 24 : Int) ≠ 0 ∧ (2 ^ 24 + -(2 ^ 24) : Int) = 0 ∧ (2 ^ 24 * 2 ^ 24 : Int) ≠ 0 ∧ (2 ^ 24 * 0 : Int) = 0
      ∧ (unpack fmtF16 0xBC00).isAt (2 * -24) (-(2 ^ 48)) ∧ (2 ^ 24 * 2 ^ 24 + -(2 ^ 48) : Int) = 0 ∧ (2 ^ 24 * 0 + -(2 ^ 48) : Int) ≠ 0)
    ∧ (fmtF16 ∈ [fmtF16, fmtBf16] ∧ (2 * -75 : Int) ≤ fmtF32.lo ∧ (unpack fmtF16 (0xBC003C00 % 2 ^ 16)).isAt (-75) (2 ^ 75)
      ∧ (unpack fmtF16 (0xBC003C00 / 2 ^ 16 % 2 ^ 16)).isAt (-75) (-(2 ^ 75)) ∧ (unpack fmtF32 0x3F800000).isAt (2 * -75) (2 ^ 150)
      ∧ (2 ^ 75 * 2 ^ 75 + -(2 ^ 75) * 2 ^ 75 + 2 ^ 150 : Int) ≠ 0)
    ∧ (0 < (16 + 31) / 32 ∧ (-75 + -75 : Int) ≤ fmtF32.lo ∧ (∀ x ∈ [(0xC1800000, -(2 ^ 154 : Int)), (0, 0)], (unpack fmtF32 x.1).isAt (-75 + -75) x.2)
      ∧ (∀ l : Nat, l < 16 → (fragOne.elem 0 l).isAt (-75) (2 ^ 75) ∧ (fragOne.elem l 0).isAt (-75) (2 ^ 75))
      ∧ (-(2 ^ 154) + 16 * (2 ^ 75 * 2 ^ 75) : Int) = 0 ∧ (0 + 16 * (2 ^ 75 * 2 ^ 75) : Int) ≠ 0)
    ∧ ((-1 : Int) ≤ -1 ∧ (-1 : Int) ≤ 0 ∧ (-5 : Int) = (if true then -1 else 1) * ((5 : Int) * 2 ^ (-1 - -1 : Int).toNat)
      ∧ (-4 : Int) = (roundInt .rne true 5 (-1)).1 * 2 ^ (- -1 : Int).toNat) := by
  and_intros <;> first
    | exact at_of (by decide)
    | decide
    | exact .head _
    | exact .tail _ (.head _)
    | skip
  · intro x hx
    exact at_of (by revert x; decide)
  · intro l hl
    exact ⟨at_of (by revert l; decide), at_of (by revert l; decide)⟩

/-- An outstanding load with one thread to go, and a group that has it at tag 1; one with a queued store. -/
def op0 : POp := outstanding (ready ga) ga (.ld ht .b32 m0) 1 0 [] []
def gBusy : Group := { ga with tags := [(1, { op := some op0, async := false })] }
def gStore : Group := { ga with sq := [sq0] }

theorem no_tags {P : Nat → TagSt → POp → Prop} (g : Group) (h : g.tags = []) :
    ∀ t x o, (t, x) ∈ g.tags → x.op = some o → P t x o := by
  intro t x o hm
  rw [h] at hm
  exact absurd hm (by simp)

/-- A prefetch of address 0 outstanding without a tag, and the line of address 0 in the core's L1. -/
def oPref : POp := { outstanding (ready ga) ga (.pref hd0 { m0 with d := .zero, a := .s 8 }) 1 0 [] [] with seq := 1 }
def gPref : Group := { ga with tags := [(8, { op := some oPref, async := false })] }
def copyM : Copy where
  st := .managed
  data := 77
  w := 5
  r := 6
  mask := 0
  unread := false
  poison := false
  stash := none
  sect := 4
def prefetched : State := { ready gPref with seq := 2, cores := [(0, { Core.reset with l1 := [(lineKey 0 0, copyM)] })] }

theorem witness_FencesAndHints :
    can (.fence hd0 .acq .sys) gBusy [] ∧ (∃ t x o, (t, x) ∈ gBusy.tags ∧ x.op = some o ∧ o.todo ≠ 0 ∧ o.isPref = false)
    ∧ can (.fence hd0 .ar .sys) gStore [] ∧ gStore.sq ≠ []
    ∧ can (.fence hd0 .rel .sys) gStore [] ∧ can (.fence hd0 .ar .sys) ga [] ∧ ga.sq = []
    ∧ (∀ g ∈ [ga, gPref], ∀ t x o, (t, x) ∈ g.tags → x.op = some o → o.todo = 0 ∨ o.isPref = true)
    ∧ can (.pref ht { m0 with d := .zero }) gTop [4, 5] ∧ ht.sched.set ≠ 0 ∧ can (.pref hd0 { m0 with d := .zero }) gTop [4, 5]
    ∧ hd0.sched.set = 0 ∧ gTop.exec hd0.guard ≠ 0 ∧ can (.pref (hdr 0 8) { m0 with d := .zero }) gTop [4, 5]
    ∧ gTop.exec (hdr 0 8).guard = 0
    ∧ (prefetched.grp 0 = some gPref ∧ gPref.op 8 = some oPref ∧ oPref.instr = some (.pref hd0 { m0 with d := .zero, a := .s 8 })
      ∧ oPref.parked = none ∧ prefetched.waiting (.tag 0 8) = false ∧ oPref.todo ≠ 0
      ∧ ∀ i, oPref.todo.getLsbD i = true → prefetched.holdsLine 0 0 (addrOf (oPref.word2 0 i).toNat (MForm.offset m0) 64) = true)
    ∧ can (.invr hd0 (rS .zero (.s 2) (.s 4))) gTop [] ∧ 0 < gTop.read [] 0 (src (.s 4) false .none)
    ∧ prefetched.readsBefore 0 prefetched.seq = true ∧ prefetched.Issues 0 gPref (.invr hd0 (rS .zero (.s 2) (.s 2))) []
    ∧ 0 < gPref.read [] 0 (src (.s 2) false .none) := by
  refine ⟨can_of _ _ _ (by decide), ⟨1, _, op0, .head _, rfl, by decide, rfl⟩, can_of _ _ _ (by decide), by decide, can_of _ _ _ (by decide),
    can_of _ _ _ (by decide), rfl, fun g hg t x o hm ho => ?_, can_of _ _ _ (by decide), by decide, can_of _ _ _ (by decide), by decide,
    by decide, can_of _ _ _ (by decide), by decide, ⟨rfl, rfl, rfl, rfl, by decide, by decide, lane0 _ (by decide) (by decide)⟩,
    can_of _ _ _ (by decide), by decide, by decide, issuesIn _ _ _ _ rfl rfl (by decide), by decide⟩
  have h1 : g = ga ∨ g = gPref := by simpa using hg
  rcases h1 with rfl | rfl
  · exact absurd hm (show (t, x) ∉ ga.tags by simp [show ga.tags = [] from rfl])
  · have h2 : (t, x) = (8, { op := some oPref, async := false }) := by simpa [gPref] using hm
    obtain ⟨rfl, rfl⟩ := Prod.mk.inj h2
    obtain rfl : oPref = o := Option.some.inj ho
    exact .inr rfl

/-- Homes: core 0's context enabled on die 0, and the line at address 0 with the given entry. -/
def perm0 (ctr : Bool) : Perm where
  rd := true
  wr := true
  ex := true
  cow := false
  awf := false
  managed := false
  ctr := ctr
  cmp := false
  fbi := 0
def line0 (ctr : Bool) (data : Line) : HomeLine where
  data := data
  perm := perm0 ctr
  frame := 0x1000
  host := false
  w := 3
  h := 4
  cls := 2
  z := false
  owner := none
  unknown := false
  hold := false
  poison := false
  dirty := true
def homed (s : State) (h : HomeLine) : State :=
  { s with die0 := { s.die0 with desc := [(0, 1 <<< 261)], l2 := [(lineKey 0 0, h)] } }

set_option exponentiation.threshold 2000 in
theorem holds (s : State) (a : Nat) (acc : AccK) (h : HomeLine) (ho : (homed s h).owner a = .die 0) (ha : a / 128 = 0)
    (hp : h.perm.permits acc = true) (hu : h.unknown = false) : (homed s h).Holds 0 0 a acc h :=
  ⟨ho, show Desc.en (1 <<< 261) = true by decide, by simp [homed, State.die, lineKey, ha, SMap.find], hp, hu⟩

def copyO : Copy := { copyM with st := .o }

/-- Stash offset, address and length of a binding in s4, s2 and s6. -/
def gMap : Group := g1 [] [(2, 0x4000), (4, 0x100), (6, 0x100)]
def rMap : Regs := { x0 with a := .s 4, b := .s 2, c := .s 6 }
def rUn : Regs := { x0 with a := .s 4 }
def bnd : Binding := { o := 0x100, a := 0x4000, n := 0x100 }
/-- The core holds the first line of the bound range. -/
def owning (g : Group) : State := { stashed g bound0 with cores := [(0, { Core.reset with l1 := [(lineKey 0 0x4000, copyO)] })] }
def gMapFull : Group := { gMap with sq := List.replicate 8 sq0 }
/-- A store to the bound range is still queued. -/
def gMapBusy : Group := { gMap with sq := [{ sq0 with accs := [{ acc0 with addr := 0x40FC }] }] }

theorem witness_StashBindings :
    (stashed gMap gang0).gang gMap.gangKey = some gang0 ∧ (stashed gMap gang0).Issues 0 gMap (.smap hd0 rMap) []
    ∧ bnd = { o := gMap.read [] 0 (src rMap.a false .none), a := BitVec.ofNat 64 (gMap.read [] 0 (src rMap.b true .none))
              n := gMap.read [] 0 (src rMap.c false .none) }
    ∧ (stashed gMap gang0).owner (gMap.read [] 0 (src rMap.b true .none)) ≠ .bad
    ∧ (stashed gMap gang0).owner (gMap.read [] 0 (src rMap.b true .none) + bnd.n - 1) ≠ .bad
    ∧ ¬ (stashed gMap bound0).bindable 0 bound0 bnd ∧ (stashed gMap gang0).bindable 0 gang0 bnd
    ∧ (stashed gMap gang0).queuedIn 0 0 0x4000 0x100 = false ∧ (stashed gMap gang0).rawIn gMap.gangKey bnd.o bnd.n = false
    ∧ ((stashed gMap gang0).core 0).copiesIn 0 0x4000 0x100 = []
    ∧ (stashed gMap gang0).Issues 0 gMap (.sunmap hd0 rUn) [] ∧ (∀ b ∈ gang0.binds, b.o ≠ gMap.read [] 0 (src rUn.a false .none))
    ∧ (stashed gMap bound0).Issues 0 gMap (.sunmap hd0 rUn) [] ∧ bound0.binds = bnd :: [] ∧ bnd.o = gMap.read [] 0 (src rUn.a false .none)
    ∧ (unbind ((stashed gMap bound0).core 0) 0 bnd).2 = []
    ∧ (owning gMap).Issues 0 gMap (.sunmap hd0 rUn) [] ∧ (unbind ((owning gMap).core 0) 0 bnd).2 ≠ [] ∧ gMap.sq.length < 8
    ∧ (stashed gMap bound0).queuedIn 0 0 bnd.a.toNat bnd.n = false ∧ (owning gMap).queuedIn 0 0 bnd.a.toNat bnd.n = false
    ∧ (owning gMapFull).queuedIn 0 0 bnd.a.toNat bnd.n = false
    ∧ (owning gMapFull).Issues 0 gMapFull (.sunmap hd0 rUn) [] ∧ 8 ≤ gMapFull.sq.length
    ∧ (stashed gMapBusy bound0).Issues 0 gMapBusy (.sunmap hd0 rUn) [] ∧ (stashed gMapBusy bound0).queuedIn 0 0 bnd.a.toNat bnd.n = true
    ∧ SMap.wf ((owning gMap).core 0).l1 = true := by
  refine ⟨by decide, issuesIn _ _ _ _ rfl rfl (by decide), by decide, by decide, by decide, ?_, ?_, by decide, by decide, by decide,
    issuesIn _ _ _ _ rfl rfl (by decide), by decide, issuesIn _ _ _ _ rfl rfl (by decide), by decide, by decide, by decide,
    issuesIn _ _ _ _ rfl rfl (by decide), by decide, by decide, by decide, by decide, by decide, issuesIn _ _ _ _ rfl rfl (by decide), by decide,
    issuesIn _ _ _ _ rfl rfl (by decide), by decide, by decide⟩
  · unfold State.bindable Apart; decide
  · unfold State.bindable Apart; decide

/-- A counter of 5 at address 0, and targets that it meets and does not. -/
def gWait (target : Nat) : Group := g1 [] [(2, 0), (4, target)]
def rWait : Regs := { x0 with d := .s 8, a := .s 2, b := .s 4 }
def counter (g : Group) : State := homed (ready g) (line0 true 5)

set_option exponentiation.threshold 2000 in
theorem witness_CounterWaits :
    (∀ n ∈ [5, 6], ((counter (gWait n)).Issues 0 (gWait n) (.cwait hd0 .sys rWait) []
      ∧ (counter (gWait n)).accessOk 0 (gWait n) true false ((gWait n).read [] 0 (src rWait.a true .none)) 8
      ∧ (gWait n).sq = [] ∧ (∀ t x o, (t, x) ∈ (gWait n).tags → x.op = some o → o.todo = 0 ∨ o.isPref = true)
      ∧ ∃ t, readAtHome (counter (gWait n)) 0 0 = .ok t (some (5, 3))))
    ∧ (gWait 5).read [] 0 (src rWait.b true .none) % 2 ^ 63 ≤ 5 % 2 ^ 63
    ∧ ¬ ((gWait 6).read [] 0 (src rWait.b true .none) % 2 ^ 63 ≤ 5 % 2 ^ 63 ∨ Nat.testBit 5 63 = true) := by
  refine ⟨fun n hn => ?_, by decide, by decide⟩
  have h : n = 5 ∨ n = 6 := by simpa using hn
  rcases h with rfl | rfl
  all_goals
    exact ⟨issuesIn _ _ _ _ rfl rfl (by decide), ok_acc (by decide) (by decide) (by decide) (by decide), rfl, no_tags _ rfl, _, rfl⟩

/-- With no push on its way none is of a line. -/
theorem noPush_of {s : State} {c ctx va : Nat} (h : s.pushes = []) : s.noPush c ctx va := fun x hx => absurd (h ▸ hx) (by simp)

/-- A log block: ring 0x1000, 16 entries. -/
def logLine : Line := 4 <<< 192 ||| 0x1000 <<< 128

/-- A group of privileged mode. -/
def gPriv (g : Group) : Group := { g with kind := .walker }
def gLog : Group := gPriv (gWait 5)
def logging : State := homed (ready gLog) (line0 true logLine)

set_option exponentiation.threshold 2000 in
theorem witness_RangeLogControl :
    can (.rlog hd0 x0) gLog [] ∧ logging.Issues 0 gLog (.rlog hd0 { x0 with a := .s 2 }) []
    ∧ gLog.read [] 0 (src (.s 2) true .none) = 0 ∧ logging.Holds 0 0 0 .atomic (line0 true logLine) ∧ logging.noPush 0 0 0
    ∧ blockLsize logLine 0 = 4 ∧ blockRing logLine 0 % 16 = 0 :=
  ⟨can_of _ _ _ (by decide), issuesIn _ _ _ _ rfl rfl (by decide), by decide, holds _ _ _ _ (by decide) (by decide) (by decide) (by decide),
    noPush_of rfl, by decide, by decide⟩

def formed0 (n : Nat) : Formed := { ctx := 0, queue := 0, seqNo := 0, entry := 128, ent := 1, npay := 1, recs := List.replicate n [(0, 5)], t := 0, no := 0 }
/-- A bin with n records. -/
def bin0 (n : Nat) : Bin := { ctx := 0, queue := 0, seqNo := 0, entry := 128, ent := 1, npay := 1, recs := List.replicate n [(0, 5)], t := 0, held := 0 }

/-- A bin whose group waits for room in the ring. -/
def binHeld : Bin := { bin0 32 with held := 7 }

/-- Die 0 with a bin; the ring of context 0 holds a group of the bin's key, and has room for one more, or none. -/
def binned (n : Nat) (room : Bool) : State :=
  { State.reset with die0 := { State.reset.die0 with
      desc := [(0, (1 : BitVec 512) <<< 261 ||| if room then (1 : BitVec 512) <<< 199 else 0)]
      l2 := (upTo 9).map (fun k => (lineKey 0 (2048 + 128 * k), line0 false 0))
      seen := [(0, true)]
      bins := [(0, bin0 n)]
      rings := [(0, { head := 0, held := [(0, 0, 128)], t := 0 })] } }
/-- A spill succeeds, or finds the ring full. -/
def spills (s : State) (y : Formed) (room : Bool) : Bool := match s.spillTurn 0 y with
  | .ok _ => room
  | .full _ => !room
  | .wait .. => false

/-- A spawn table at 0x80, whose line is the one at home: one entry for the slot at 0x80. -/
def spawnLine : Line := 1 ||| 0x80 <<< 64
def gSpawn : Group := { g1 [(4, 3)] [] with spawnTab := 0x40 }
def spawning : State := homed (ready gSpawn) (line0 false (spawnLine <<< 512))
/-- A table of an owner outside the domain. -/
def gFar : Group := { gSpawn with spawnTab := 0x20000000000000 }

set_option exponentiation.threshold 2000 in
theorem witness_Spawning :
    (∀ h ∈ [hN, hd0], can (.spawn h (.v 4) 8 false 12) gSpawn [] ∧ spawning.Issues 0 gSpawn (.spawn h (.v 4) 8 true 12) [])
    ∧ gSpawn.inTrap = false ∧ gSpawn.kind = .ordinary ∧ branchTo gSpawn.pc (12 : Word).toInt = some 128
    ∧ (∀ r ∈ opdRegs (.v 4) 8, r < gSpawn.regs) ∧ others (gSpawn.exec hN.guard) gSpawn.help = 0
    ∧ others (gSpawn.exec hd0.guard) gSpawn.help ≠ 0 ∧ gSpawn.spawnTab ≠ 0 ∧ ga.spawnTab = 0
    ∧ gSpawn.sq = [] ∧ (∀ n x o, (n, x) ∈ gSpawn.tags → x.op = some o → o.todo = 0)
    ∧ (∃ (s1 s2 : State) (ent : Header) (g2 : Group), findEntry 0 128 spawnTable 0x40 spawning = .ok s1 (.entry ent)
      ∧ depositLanes (placeDie 0) (spawnRec s1 0 gSpawn 128 ent (.v 4) 8) (maskLanes (others (gSpawn.exec hd0.guard) gSpawn.help)) s1 = .ok s2
      ∧ s2.grp 0 = some g2 ∧ g2.kind = .ordinary)
    ∧ (let b := bin0 30
       b.keyIs (bin0 1) = true ∧ b.held = 0 ∧ b.recs.length + (bin0 1).recs.length < 32)
    ∧ (let s : State := { State.reset with die0 := { State.reset.die0 with bins := [(0, bin0 31)] } }
       (bin0 31).keyIs (bin0 1) = true ∧ (bin0 31).held = 0 ∧ (bin0 31).recs.length + (bin0 1).recs.length = 32
       ∧ (s.holdDesc 0 0).ringHas 0 (formed0 32) = false ∧ ((s.holdDesc 0 0).spawnPlace 0 (formed0 32)).isSome = true)
    ∧ (∀ room ∈ [false, true], ((binned 31 room).die 0).bins = [(0, bin0 31)]
       ∧ ((binned 31 room).holdDesc 0 0).ringHas 0 (formed0 32) = true ∧ spills ((binned 31 room).holdDesc 0 0) (formed0 32) room = true)
    ∧ SMap.freeFrom State.reset.die0.bins 0 256 = some 0
    ∧ ((ready { gSpawn with regs := 6 }).Issues 0 { gSpawn with regs := 6 } (.spawn hd0 (.v 4) 8 false 12) []
      ∧ opdRegs (.v 4) 8 = [4, 5] ++ 6 :: [7, 8, 9, 10, 11])
    ∧ can (.spawn hd0 (.v 4) 8 false 12) gFar [] ∧ findEntry 0 128 spawnTable gFar.spawnTab.toNat (ready gFar) = .ok (ready gFar) (.bad (2 ^ 53))
    ∧ (∀ room ∈ [false, true], ∀ n ∈ [0, 8], let s := (binned 1 room).modDie 0 (fun d => { d with bins := [(0, binHeld), (1, bin0 3)] })
       (s.die 0).bins.filter (fun x => x.2.held != 0 && x.2.ctx == 0) = [(0, binHeld)] ∧ binHeld.held < 8
       ∧ spills s binHeld.formed room = true) := by
  refine ⟨fun h hh => ⟨can_of _ _ _ ?_, issuesIn _ _ _ _ rfl rfl ?_⟩, by decide, by decide, by decide, by decide, by decide, by decide,
    by decide, by decide, by decide, no_tags _ rfl, ⟨_, _, _, _, rfl, rfl, rfl, rfl⟩, by decide, by decide +kernel, by decide +kernel, by decide,
    ⟨issuesIn _ _ _ _ rfl rfl (by decide), by decide⟩, can_of _ _ _ (by decide), rfl, by decide +kernel⟩
  · revert h; decide
  · revert h; decide

/-- A header: format, rows, columns, layout, run base, base of the side data. -/
def th (fmt rows cols : Nat) (lay : Bool) (base : Nat) : THdr where
  fmt := fmt
  rows := rows
  cols := cols
  scl := 0
  spa := 0
  ocap := 0
  ocnt := 0
  olost := false
  sat := false
  loc := false
  lay := lay
  base := base
  sbase := 120
  off := 0
/-- A group with h1 to h6: f32 and bf16 of 32 rows and 4 columns, i8, res48, an A and a B of a bf16 `MMA`; with h8 and h9: e4m3 and res48,
both with a scale of each row. -/
def gT : Group := { ga with
  s := (gWait 0).s
  h := [(1, (th 0x00 5 2 false 0).word), (2, (th 0x02 5 2 false 16).word), (3, (th 0x11 5 2 false 20).word), (4, (th 0x20 5 2 false 24).word),
        (5, (th 0x02 5 4 false 40).word), (6, (th 0x02 4 3 true 112).word), (7, (th 0x14 5 2 false 48).word),
        (8, ({ th 0x08 5 2 false 56 with scl := 1, sbase := 57 } : THdr).word), (9, ({ th 0x20 5 2 false 60 with scl := 1, sbase := 68 } : THdr).word)] }

theorem witness_HeadersAndTileMoves : (can (.thdrToH hd0 15 (.s 60)) gT [] ∧ can (.thdrFromH hd0 0 (.s 0)) gT [] ∧ can (.tchk hd0 1 7) gT []
    ∧ (headerOk (gT.getH 1) = true ∧ (gT.thdr 1).consistent false = true)
    ∧ ¬ (headerOk (gT.getH 0) = true ∧ (gT.thdr 0).consistent false = true))
    ∧ gT.v.wf = true ∧ can (.tzero hd0 1) gT [] ∧ headerOk (gT.getH (1 : BitVec 4).toNat) = true ∧ fragOk gT (tzeroHdr (gT.thdr 1)) false ∧ (gT.thdr 1).spa ≠ 1
    ∧ can (.ttrans hd0 2 1) gT [] ∧ srcOk gT 1 false ∧ headerOk (gT.getH (2 : BitVec 4).toNat) = true
    ∧ fragOk gT (ttransHdr (gT.thdr 2) (gT.thdr 1)) false ∧ (gT.thdr 1).scl = 0 ∧ (ttransHdr (gT.thdr 2) (gT.thdr 1)).apart := by
  unfold srcOk fragOk THdr.apart
  and_intros <;> first
    | exact can_of _ _ _ (by decide)
    | decide +kernel

theorem witness_TileConvert :
    gT.v.wf = true ∧ can (.tcvt hd0 3 1) gT [] ∧ srcOk gT 1 false ∧ headerOk (gT.getH (3 : BitVec 4).toNat) = true
    ∧ fragOk gT (tcvtHdr (gT.thdr 3) (gT.thdr 1)) false ∧ (gT.thdr 1).ty ≠ .res48 ∧ (gT.thdr 3).ty ≠ .res48 ∧ (gT.thdr 3).spa ≠ 1
    ∧ (tcvtHdr (gT.thdr 3) (gT.thdr 1)).apart
    ∧ can (.tcvt hd0 8 1) gT [] ∧ headerOk (gT.getH (8 : BitVec 4).toNat) = true ∧ fragOk gT (tcvtHdr (gT.thdr 8) (gT.thdr 1)) false
    ∧ (tcvtHdr (gT.thdr 8) (gT.thdr 1)).apart ∧ (tcvtHdr (gT.thdr 8) (gT.thdr 1)).scaleBytes = 1 ∧ 31 ∈ (tcvtHdr (gT.thdr 8) (gT.thdr 1)).holders
    ∧ codeScale 0 0 1 ∧ codeScale 1 127 1 ∧ codeScale 4 0x38 1 := by
  unfold srcOk fragOk THdr.apart
  and_intros <;> first
    | exact can_of _ _ _ (by decide)
    | decide +kernel
    | (simp [codeScale]; done)
    | exact ⟨false, 8, -3, by rfl, by norm_num⟩

theorem witness_TileResidues :
    gT.v.wf = true ∧ can (.tres hd0 4 3 45) gT [] ∧ srcOk gT 3 false ∧ headerOk (gT.getH (4 : BitVec 4).toNat) = true
    ∧ fragOk gT (tresHdr (gT.thdr 4) (gT.thdr 3)) true ∧ (gT.thdr 3).ty ∈ [Ty.i8, .i16, .i32, .i64, .f32, .bf16, .f16] ∧ (gT.thdr 4).scl ≠ 4
    ∧ (tresHdr (gT.thdr 4) (gT.thdr 3)).apart ∧ tyIsInt (gT.thdr 3).ty = true ∧ (match (gT.frag (gT.thdr 3)).elem 31 3 with
      | .num .. => true
      | _ => false) = true
    ∧ (can (.tres hd0 9 2 45) gT [] ∧ srcOk gT 2 false ∧ headerOk (gT.getH (9 : BitVec 4).toNat) = true ∧ tyIsInt (gT.thdr 2).ty = false
      ∧ fragOk gT (tresHdr (gT.thdr 9) (gT.thdr 2)) true ∧ (tresHdr (gT.thdr 9) (gT.thdr 2)).apart
      ∧ (tresHdr (gT.thdr 9) (gT.thdr 2)).scaleBytes = 1 ∧ 31 ∈ (tresHdr (gT.thdr 9) (gT.thdr 2)).holders)
    ∧ can (.tcrt hd0 7 4) gT [] ∧ srcOk gT 4 true ∧ fragOk gT (tcrtHdr (gT.thdr 7) (gT.thdr 4)) false ∧ (gT.thdr 4).ty = .res48
    ∧ (gT.thdr 4).spa = 0 ∧ (gT.thdr 7).ty = .i64
    ∧ can (.tcrt hd0 1 9) gT [] ∧ srcOk gT 9 true ∧ fragOk gT (tcrtHdr (gT.thdr 1) (gT.thdr 9)) false ∧ (gT.thdr 9).ty = .res48
    ∧ (gT.thdr 9).spa = 0 ∧ (gT.thdr 1).ty = .f32 ∧ standsFor 0x000100020010 65537 ∧ residuesOf (-96) 0xFFA0FF9FFF91 := by
  unfold srcOk fragOk THdr.apart standsFor residuesOf
  and_intros <;> first
    | exact can_of _ _ _ (by decide)
    | decide +kernel
    | (simp only [List.mem_cons, Prod.mk.injEq, List.not_mem_nil, or_false]
       rintro n m (⟨rfl, rfl⟩ | ⟨rfl, rfl⟩ | ⟨rfl, rfl⟩) <;> decide +kernel)

theorem witness_MatrixMultiply :
    gT.v.wf = true ∧ can (.mma hN true 7 5 6) gT [] ∧ takenBy gT hN.guard = 0
    ∧ can (.mma hd0 true 7 5 6) gT [] ∧ takenBy gT hd0.guard ≠ 0 ∧ firstBad (badMma (ready gT) gT true 7 5 6) = none
    ∧ mmaClass (gT.thdr 5).ty (gT.thdr 6).ty = some .h16 := by
  and_intros <;> first
    | exact can_of _ _ _ (by decide)
    | decide +kernel

theorem witness_TileAccesses :
    can (.tld ht 1 (.s 2) 0xFFFF0 .acq .sys) gT [] ∧ can (.tst hd0 1 (.s 2) 0 .rel .sys) gT []
    ∧ 0 = (((gT.read [] 0 (src (.s 2) true .none) : Int) + (0 : BitVec 20).toInt) % (2 ^ 64 : Int)).toNat
    ∧ (ready gT).owner 0 ≠ .bad ∧ headerOk (gT.getH 1) = true ∧ (ready gT).unlocked 0 gT false 0 16 ∧ (ready gT).owner ((0 + 15) % 2 ^ 64) ≠ .bad
    ∧ srcOk gT 1 false ∧ (gT.thdr 1).rowBits % 8 = 0 ∧ (ready gT).accessOk 0 gT false true 0 (tstBytes (gT.thdr 1)) := by
  unfold srcOk fragOk State.accessOk
  and_intros <;> first
    | exact can_of _ _ _ (by decide)
    | exact unl (by decide) _ _ _
    | decide +kernel

/-- A group in trap mode. -/
def gTrap : Group := { gT with bank := some gT.toBank, trapcause := 0x20 }
def lp0 : LPend := { left := 3, res := [] }

theorem witness_ControlReads :
    can (.csrr hd0 .trappc (.s 2)) (gPriv ga) [2] ∧ (gPriv ga).inTrap = false ∧ Csr.trappc.isPriv = true
    ∧ can (.csrr hd0 .trappc (.s 2)) gTrap [2] ∧ gTrap.inTrap = true
    ∧ can (.csrr hd0 .fflags (.s 2)) ga [2] ∧ (∀ t x, (t, x) ∈ ga.tags → x.op = none) ∧ ga.lpend = []
    ∧ can (.csrr hd0 .fflags (.s 2)) { ga with lpend := [lp0] } [2] ∧ [lp0] ≠ []
    ∧ (∀ n ∈ [0, 319, 320], can (.csrr hd0 .wdata (.s 2)) { gTrap with wselIdx := n } [2])
    ∧ (∀ n ∈ [191, 192], can (.csrr hd0 .wdata (.v 2)) { gTrap with wselThr := true, wselIdx := n } [2])
    ∧ (∃ b, gTrap.bank = some b) ∧ gTrap.wselThr = Opd.isV (.s 2) := by
  refine ⟨can_of _ _ _ (by decide), rfl, by decide, can_of _ _ _ (by decide), rfl, can_of _ _ _ (by decide), fun t x h => ?_, rfl,
    can_of _ _ _ (by decide), by simp, fun n hn => can_of _ _ _ ?_, fun n hn => can_of _ _ _ ?_, ⟨_, rfl⟩, rfl⟩
  · exact absurd (show (t, x) ∈ [] from h) (by simp)
  · revert n; decide
  · revert n; decide

/-- A result that is still to come. -/
def gLate : Group := { ga with lpend := [lp0] }
/-- A second group of the context at place 1, placed earlier. -/
def behind : State := { ready { gTrap with order := 1 } with groups := [(0, { gTrap with order := 1 }), (1, ga)] }

/-- A group in trap mode that leads the queues of its context, with entries in q0 and q3. -/
def leading (g : Group) : State := queued full0 3 (some 0) |>.setGrp 0 g

theorem leads_wf (g : Group) (h : g ∈ [gTrap, { gTrap with wselIdx := 133 }, { gTrap with wselThr := true, wselIdx := 191 }]) :
    (leading g).leads 0 g ∧ (leading g).wordsWf 0 gT.toBank := by
  have h1 : g = gTrap ∨ g = { gTrap with wselIdx := 133 } ∨ g = { gTrap with wselThr := true, wselIdx := 191 } := by simpa using h
  have h2 : ∀ n, ∀ x ∈ (kq full0 3).queue n, SMap.wf x = true := fun n x hx => by
    have h3 : (kq full0 3).queue n = full0 ∨ (kq full0 3).queue n = List.replicate 3 [] ∨ (kq full0 3).queue n = [] := by
      match n with
      | 0 => exact .inl rfl
      | 1 | 2 => exact .inr (.inr rfl)
      | 3 => exact .inr (.inl rfl)
      | n + 4 =>
        refine .inr (.inr ?_)
        simp [Core.queue, kq, SMap.getD, SMap.find]
    rcases h3 with h3 | h3 | h3 <;> rw [h3] at hx
    · obtain rfl := List.eq_of_mem_replicate hx
      rfl
    · obtain rfl := List.eq_of_mem_replicate hx
      rfl
    · exact absurd hx (by simp)
  rcases h1 with rfl | rfl | rfl <;> exact ⟨⟨by decide, rfl⟩, by decide, by decide, rfl, h2⟩

theorem witness_ControlWrites :
    can (.csrw hd0 .frm (.s 4)) ga [4] ∧ can (.csrw hd0 .fflags .zero) ga [] ∧ (∀ t x, (t, x) ∈ ga.tags → x.op = none) ∧ ga.lpend = []
    ∧ (∃ b, gTrap.bank = some b) ∧ gTrap.inTrap = true ∧ can (.csrw hd0 .trappc (.s 4)) gTrap [4] ∧ can (.csrw hd0 .wsel (.s 4)) gTrap [4]
    ∧ behind.Issues 0 { gTrap with order := 1 } (.csrw hd0 .tagstate (.s 4)) [4] ∧ ¬ behind.leads 0 { gTrap with order := 1 }
    ∧ (leading gTrap).Issues 0 gTrap (.csrw hd0 .tagstate (.s 4)) [4]
    ∧ (leading { gTrap with wselIdx := 133 }).Issues 0 { gTrap with wselIdx := 133 } (.csrw hd0 .wdata (.s 4)) [4]
    ∧ (leading { gTrap with wselThr := true, wselIdx := 191 }).Issues 0 { gTrap with wselThr := true, wselIdx := 191 } (.csrw hd0 .wdata (.v 4)) [4]
    ∧ can (.csrw hd0 .wdata (.v 4)) { gTrap with wselThr := true, wselIdx := 127 } [4] ∧ ¬ (ready gTrap).leads 0 gTrap
    ∧ (∀ n ∈ [63, 64, 123, 127, 128, 129, 130, 131, 137, 138, 255, 256, 317], can (.csrw hd0 .wdata (.s 4)) { gTrap with wselIdx := n } [4])
    ∧ can (.csrw hd0 .wdata (.s 4)) { gTrap with wselIdx := 47 } [4] ∧ (Opd.s 4).isSZ = true
    ∧ (csrWrites ga .frm (.s 4) ∧ csrWrites ga .fflags .zero ∧ csrWrites gTrap .trappc (.s 4) ∧ csrWrites gTrap .wsel (.s 4)
      ∧ csrWrites gTrap .tagstate (.s 4) ∧ csrWrites { gTrap with wselIdx := 319 } .wdata (.s 4)
      ∧ csrWrites { gTrap with wselIdx := 191, wselThr := true } .wdata (.v 4))
    ∧ can (.csrw hd0 .wdata (.s 4)) { gTrap with wselIdx := 319 } [] ∧ can (.csrw hd0 .wdata (.v 4)) { gTrap with wselIdx := 191, wselThr := true } [4]
    ∧ can (.csrw hd0 .trappc (.s 4)) (gPriv ga) [] ∧ ¬ csrWrites (gPriv ga) .trappc (.s 4)
    ∧ can (.csrw hd0 .wdata (.s 4)) { gTrap with wselIdx := 320 } [] ∧ ¬ csrWrites { gTrap with wselIdx := 320 } .wdata (.s 4)
    ∧ can (.csrw hd0 .fflags .zero) gLate [] ∧ ¬ csrWrites gLate .fflags .zero := by
  have none_ : ∀ t x, (t, x) ∈ ga.tags → x.op = none := fun t x h => absurd (show (t, x) ∈ [] from h) (by simp)
  refine ⟨can_of _ _ _ (by decide), can_of _ _ _ (by decide), none_, rfl, ⟨_, rfl⟩, rfl,
    can_of _ _ _ (by decide), can_of _ _ _ (by decide), issuesIn _ _ _ _ rfl rfl (by decide), fun h => absurd h.1 (by decide),
    issuesIn _ _ _ _ rfl rfl (by decide), issuesIn _ _ _ _ rfl rfl (by decide), issuesIn _ _ _ _ rfl rfl (by decide), can_of _ _ _ (by decide),
    fun h => absurd h.2 (by decide), fun n hn => can_of _ _ _ (by revert n; decide), can_of _ _ _ (by decide), rfl,
    ⟨trivial, ⟨rfl, none_⟩, rfl, rfl, rfl, ⟨rfl, by decide, rfl⟩, ⟨rfl, by decide, rfl⟩⟩, can_of _ _ _ (by decide), can_of _ _ _ (by decide),
    can_of _ _ _ (by decide), fun h => absurd (show false = true from h) (by simp), can_of _ _ _ (by decide), fun h => ?_, can_of _ _ _ (by decide),
    fun h => absurd (show [lp0] = [] from h.1) (by simp)⟩
  have h1 : (320 : Nat) < 320 := h.2.1
  omega

theorem witness_TrapReturns :
    can (.tret hd0) (gPriv ga) [] ∧ (gPriv ga).bank = none
    ∧ can (.tret hd0) { gTrap with sq := [sq0] } [] ∧ (∃ b, gTrap.bank = some b) ∧ gTrap.quiet = true ∧ gTrap.sq = []
    ∧ can (.tret hd0) gTrap [] ∧ gTrap.preempting = false
    ∧ can (.tret hd0) { gTrap with preempting := true } [] ∧ Group.quiet { gTrap with preempting := true } = true
    ∧ can (.tretSave hd0) gTrap [] ∧ gTrap.trapcause = Cause.code .preempt ∧ SMap.wf (ready gTrap).groups = true
    ∧ can (.tretKill hd0) gTrap [] ∧ can (.tretSave hd0) { gTrap with trapcause := 2 } [] ∧ (2 : Byte) ≠ Cause.code .preempt
    ∧ (ready gTrap).lastCopies 0 gTrap = [] ∧ gTrap.s.wf = true ∧ gTrap.h.wf = true := by
  and_intros <;> first
    | exact can_of _ _ _ (by decide)
    | exact ⟨_, rfl⟩
    | rfl
    | decide

theorem witness_TrapEntry :
    (let g := gT
     (ready g).grp 0 = some g ∧ g.inTrap = false ∧ g.kind = .ordinary ∧ g.st ≠ .killed ∧ g.st ≠ .retiring ∧ g.quiet = true ∧ g.cpark = none
      ∧ g.trapWait = none ∧ Cause.illegal ≠ Cause.preempt ∧ g.s.wf = true ∧ g.h.wf = true)
    ∧ (gTrap.inTrap = true ∧ gTrap.st ≠ .killed ∧ gTrap.st ≠ .retiring)
    ∧ ((gPriv ga).inTrap = false ∧ (gPriv ga).kind = .walker ∧ (gPriv ga).st ≠ .killed ∧ (gPriv ga).st ≠ .retiring)
    ∧ SMap.wf ((ready (gPriv ga)).die (placeDie 0)).walks = true
    ∧ (ready { ga with kind := .reel }).grp 0 = some { ga with kind := .reel } ∧ SMap.wf (ready ga).cores = true := by
  dsimp only
  exact ⟨⟨rfl, rfl, rfl, by decide, by decide, by decide, rfl, rfl, by decide, by decide, by decide⟩, ⟨rfl, by decide, by decide⟩,
    ⟨rfl, rfl, by decide, by decide⟩, by decide, rfl, by decide⟩

theorem witness_IssueChecks :
    (∀ g : Group, (ready g).cur = some 0 ∧ (ready g).grp 0 = some g)
    ∧ ((Instr.iadd hd0 (r3 .b32 0)).isWord = true ∧ (Instr.iadd hd0 (r3 .b32 0)).wf = false)
    ∧ (let i := Instr.ffma hd0 (rf .f32 0 .none (.v 4) (.v 6) (.v 8) (.v 9) .none .none)
       i.isWord = true ∧ i.wf = true ∧ { ga with kind := .reel }.inTrap = false ∧ reelAllows i = false)
    ∧ (∀ i ∈ [Instr.tlbf hd0 { d := .zero, a := .v 4, b := .v 6, c := .v 8 }, .csrr hd0 .trapinfo (.s 2), .tret hd0],
       i.isWord = true ∧ i.wf = true ∧ isPrivileged i = true ∧ ga.kind = .ordinary ∧ ga.privileged = false)
    ∧ (let i := Instr.imad hd0 (rf .i32 0 .none (.v 4) (.v 5) (.v 9) (.v 7) .none .none)
       i.isWord = true ∧ i.wf = true ∧ isPrivileged i = false ∧ wordRegs i = [4, 5] ++ 9 :: [7] ∧ (∀ x ∈ [4, 5], x < 8) ∧ 8 ≤ 9)
    ∧ queuesOf [.q 3, .v 8, .zero] ≠ [] :=
  ⟨fun _ => ⟨rfl, rfl⟩, by decide, by decide, by decide, by decide, by decide⟩

/-- A walk record 0 of context 0, and a walker group whose lane 0 answers it. -/
def walk0 (stale : Bool) : Walk where
  ctx := 0
  va := 0x10000
  acc := .load
  host := false
  slice := 5
  stale := stale
  walker := some (0, 0)
  core := 0
def gW (cause : Nat) : Group := { g1 [(1, 0), (3, cause), (4, 0), (6, 1)] [(2, 0x10000), (4, 0x10000), (6, 0)] with kind := .walker }
def walked (g : Group) (stale : Bool) : State := { ready g with die0 := { State.reset.die0 with walks := [(0, walk0 stale)] } }
/-- A walk record that a tagged word waits for; the context's fault ring is usable, or not. -/
def faulting (ring : Bool) : State :=
  let s := walked { gW 1 with tags := [(1, { op := some op0, async := false })] } false
  { s with
    waits := [{ req := .tag 0 1, die := 0, walk := some 0, ctx := 0, gen := 0 }]
    die0 := { s.die0 with desc := [(0, if ring then bv 512 (2 ^ 455 + 4 * 2 ^ 263) else 0)] } }
def rFill : Regs := { x0 with a := .v 1, b := .v 4, c := .v 6 }
def rRec : Regs := { rFill with d := .v 3 }

theorem witness_WalkerWords :
    (walked (gW 1) false).Issues 0 (gW 1) (.tlbf hd0 rFill) [1, 4, 5, 6]
    ∧ (∀ c ∈ [0, 1, 8, 9], (walked (gW c) false).Issues 0 (gW c) (.frec hd0 rRec) [3, 1, 4, 5, 6])
    ∧ (∀ c ∈ [1, 8], 0 < (gW c).read [] 0 (src rRec.d false .none) % 2 ^ 8 ∧ (gW c).read [] 0 (src rRec.d false .none) % 2 ^ 8 ≤ 8)
    ∧ (gW 0).read [] 0 (src rRec.d false .none) % 2 ^ 8 = 0 ∧ 8 < (gW 9).read [] 0 (src rRec.d false .none) % 2 ^ 8
    ∧ (State.grp ((maskLanes ((gW 1).exec hd0.guard)).foldl (fun a i => a.frecord 0 ((gW 1).read [] i (src rRec.a false .none) % 2 ^ 11)
        ((gW 1).read [] i (src rRec.d false .none) % 2 ^ 8) ((gW 1).read [] i (src rRec.c false .none) % 2 ^ 3)
        ((gW 1).read [] i (src rRec.b true .none))) (walked (gW 1) false)) 0).isSome = true
    ∧ (State.grp ((maskLanes ((gW 1).exec hd0.guard)).foldl (fun a i => a.tlbfill 0 ((gW 1).read [] i (src rFill.a false .none) % 2 ^ 11)
        ((gW 1).read [] i (src rFill.c false .none) % 2 ^ 3) ((gW 1).read [] i (src rFill.b true .none))) (walked (gW 1) false)) 0).isSome = true
    ∧ can (.tlbi ht true { x0 with a := .s 2, b := .s 4, c := .s 6 }) (gW 1) []
    ∧ (gW 1).read [] 0 (src (.s 2) true .none) = 0x10000 ∧ (gW 1).read [] 0 (src (.s 4) false .none) = 0x10000
    ∧ (ready (gW 1)).owner 0x10000 ≠ .bad
    ∧ can (.pld ht { m0 with a := .v 8 }) (gW 1) [2, 3, 8, 9]
    ∧ memAddr (gW 1) false { m0 with a := .v 8 } 0 % 8 = 0 ∧ physAt (memAddr (gW 1) false { m0 with a := .v 8 } 0) = .mem
    ∧ (∀ b, SMap.find ((walked (gW 1) b).die 0).walks 0 = some (walk0 b)) ∧ (walk0 true).stale = true ∧ (walk0 false).stale = false
    ∧ entryCause 0x20205 1 false 0x10000 .load 0 ∧ entryCause 0x20204 1 false 0x10000 .load 1 ∧ entryCause 0x20207 1 false 0x10000 .load 2
    ∧ entryCause 0x20205 1 false 0x10000 .store 4 ∧ (walk0 false).small
    ∧ (walked (gW 1) false).waitsOn 0 0 = [] ∧ (∀ b, (faulting b).waitsOn 0 0 = (faulting b).waits)
    ∧ (∃ g o, (faulting true).grp 0 = some g ∧ g.op 1 = some o)
    ∧ ((faulting true).desc 0 0).fhead ≠ 0 ∧ ((faulting true).desc 0 0).flsize = 4 ∧ ((faulting false).desc 0 0).fhead = 0 := by
  unfold entryCause pteIll Walk.small
  refine ⟨issuesIn _ _ _ _ rfl rfl (by decide), fun c hc => issuesIn _ _ _ _ rfl rfl ?_, ?_⟩
  · revert c; decide
  · and_intros <;> first
      | exact can_of _ _ _ (by decide)
      | exact fun b => rfl
      | exact ⟨_, _, rfl, rfl⟩
      | decide +kernel

theorem exists_bool (P : Nat → Prop) : ∃ f : Nat → Bool, ∀ i, f i = true ↔ P i := by
  classical
  exact ⟨fun i => decide (P i), fun i => decide_eq_true_iff⟩

/-- A record of kind 0 at v16, with a candidate in lane 0. -/
def gHit : Group := g1 [(16, 1), (27, 0x3F800000), (4, 0x40000000), (30, 9)] [(4, 0x4000), (2, 0x80)]
def rHit : Regs := { x0 with d := .v 4, a := .v 16, b := .v 30 }
def rBox : Regs := { x0 with d := .v 4, a := .v 16, b := .v 24 }

theorem witness_HitWords :
    can (.hitk hd0 rHit) gHit (opdRegs rHit.d 6 ++ opdRegs rHit.a 12 ++ opdRegs rHit.b 1)
    ∧ (∃ c : Nat → Nat → Nat, (∀ i k, c i k = if k = 0 then runWord gHit rHit.a i 11
        else if k = 1 then gHit.read [] i (src rHit.b false .none) else runWord gHit rHit.a i (k - 1))
      ∧ ∃ takes : Nat → Bool, ∀ i, takes i = true ↔ runWord gHit rHit.a i 0 % 8 ≠ 0
        ∧ (ltV (f32v (c i 0)) (f32v (runWord gHit rHit.d i 0)) = true ∨ (eqV (f32v (c i 0)) (f32v (runWord gHit rHit.d i 0)) = true
          ∧ (c i 1 < runWord gHit rHit.d i 1 ∨ (c i 1 = runWord gHit rHit.d i 1 ∧ (c i 2 < runWord gHit rHit.d i 2
            ∨ (c i 2 = runWord gHit rHit.d i 2 ∧ c i 3 < runWord gHit rHit.d i 3)))))))
    ∧ runWord gHit rHit.a 0 0 % 8 ≠ 0 ∧ ltV (f32v (runWord gHit rHit.a 0 11)) (f32v (runWord gHit rHit.d 0 0)) = true
    ∧ can (.morton hd0 { rBox with b := .s 58 }) gHit (opdRegs (.v 4) 1 ++ opdRegs (.v 16) 3) :=
  ⟨can_of _ _ _ (by decide), ⟨_, fun _ _ => rfl, exists_bool _⟩, by decide, by decide, can_of _ _ _ (by decide)⟩

/-- A stack of 16 KiB that ends with the gang's stash, with 32 entries, with 33, and the stash words of its spill area at 0x10000. -/
def rPop : Regs := { d := .v 4, a := .v 6, b := .s 4, c := .s 8 }
def gPop (n : Nat) : Group := { gHit with v := (gHit.setV 6 0 (bv 32 n)).v, s := (gHit.setS 6 0x10000).s }

theorem witness_SceneReads :
    can (.ntest ht { d := .v 4, a := .v 16, b := .v 24, c := .s 8 }) gHit (opdRegs (.v 4) 12 ++ opdRegs (.v 16) 8 ++ opdRegs (.v 24) 2)
    ∧ (∀ n, (others (gHit.exec ht.guard) gHit.help).getLsbD n = true → gHit.read [] n (src (.v 24) true .none) / 2 % 64 = 0
      ∧ (ready gHit).accessOk 0 gHit false false (gHit.read [] n (src (.v 24) true .none) / 2 * 2) 128)
    ∧ can (.nfmt ht { x0 with a := .s 2 }) gHit [] ∧ gHit.read [] 0 (src (.s 2) true .none) % 128 = 0
    ∧ (ready gHit).accessOk 0 gHit false false (gHit.read [] 0 (src (.s 2) true .none)) 256
    ∧ can (.trvpop (hdr 0x10 8) rPop) (gPop 32) (opdRegs rPop.d 4 ++ opdRegs rPop.a 1) ∧ (gPop 32).exec (hdr 0x10 8).guard = 0
    ∧ (∀ n ∈ [0, 32, 33], (stashed (gPop n) gang0).Issues 0 (gPop n) (.trvpop ht rPop) (opdRegs rPop.d 4 ++ opdRegs rPop.a 1)
      ∧ (stashed (gPop n) gang0).stashGang 0 (gPop n) = some gang0 ∧ gang0.binds = []
      ∧ ((gPop n).getS (sFirst rPop.b)).toNat + 16384 ≤ gang0.stashSize)
    ∧ runWord (gPop 32) rPop.a 0 0 % 2 ^ 16 ≤ 32 ∧ 32 < runWord (gPop 33) rPop.a 0 0 % 2 ^ 16 ∧ ((gPop 33).getS2 (sFirst rPop.b + 2)).toNat = 0x10000
    ∧ (∀ n, (others ((gPop 33).exec ht.guard) (gPop 33).help).getLsbD n = true → 32 < runWord (gPop 33) rPop.a n 0 % 2 ^ 16 →
      0x10000 % 16 = 0 ∧ (stashed (gPop 33) gang0).accessOk 0 (gPop 33) false false
        (spillVa 0x10000 n (runWord (gPop 33) rPop.a n 0 % 2 ^ 16 - 1)) 16)
    ∧ can (.qbox hd0 true { rBox with b := .zero }) gHit (opdRegs (.v 4) 4 ++ opdRegs (.v 16) 6)
    ∧ can (.qbox hd0 false rBox) gHit (opdRegs (.v 4) 2 ++ opdRegs (.v 16) 6 ++ opdRegs (.v 24) 4) := by
  refine ⟨can_of _ _ _ (by decide), lane0 _ (by decide) ⟨by decide, ok_acc (by decide) (by decide) (by decide) (by decide)⟩,
    can_of _ _ _ (by decide), by decide, ok_acc (by decide) (by decide) (by decide) (by decide), can_of _ _ _ (by decide), by decide,
    fun n hn => ?_, by decide, by decide, by decide,
    lane0 _ (by decide) (fun _ => ⟨by decide, ok_acc (by decide) (by decide) (by decide) (by decide)⟩), can_of _ _ _ (by decide), can_of _ _ _ (by decide)⟩
  have h1 : n = 0 ∨ n = 32 ∨ n = 33 := by simpa using hn
  rcases h1 with rfl | rfl | rfl <;>
    exact ⟨issuesIn _ _ _ _ rfl rfl (by decide), by decide, by decide, by decide⟩

/-- A block of one child, on stacks of 31 and 32 entries, and a spill area at 0x10000. -/
def rPush : Regs := { x0 with d := .v 4, a := .v 16, b := .s 4 }
def gPush (n : Nat) : Group := g1 [(4, n), (16, 0x00000001), (25, 1), (26, 0x60)] [(4, 0x4000), (6, 0x10000)]

/-- What the block pushes: a line at address 0, of kind 2. -/
def xsPush (n : Nat) : List (Nat × Nat) := if n = 0 then [(4, 0)] else []

theorem pushes_none (b : Nat → Nat) (ha : b 0 = 0) (hb : b 10 = 0) : pushesOf b [] := by
  unfold pushesOf
  rw [ha, hb]
  exact ⟨fun _ => rfl, fun _ h => absurd h (by decide), fun _ _ _ => ⟨by rfl, fun j x c h => absurd h (by simp)⟩⟩

theorem pushes_block (m : Nat) (hm : m ∈ [31, 32, 1056]) : ∀ n, n < 32 → pushesOf (runWord (gPush m) rPush.a n) (xsPush n) := by
  have h1 : m = 31 ∨ m = 32 ∨ m = 1056 := by simpa using hm
  intro n hn
  have h0 : ∀ n, n < 32 → n ≠ 0 → runWord (gPush m) rPush.a n 0 = 0 ∧ runWord (gPush m) rPush.a n 10 = 0 := by
    rcases h1 with rfl | rfl | rfl <;> decide +kernel
  by_cases hz : n = 0
  · subst hz
    refine ⟨fun h => absurd h ?_, fun _ _ => ⟨?_, fun j x hj => ?_⟩, fun _ _ h => absurd ?_ h⟩
    · rcases h1 with rfl | rfl | rfl <;> decide +kernel
    · rcases h1 with rfl | rfl | rfl <;> decide +kernel
    · obtain ⟨rfl, rfl⟩ : j = 0 ∧ x = (4, 0) := by
        rcases j with _ | j
        · simpa [xsPush, eq_comm] using hj
        · simp [xsPush] at hj
      unfold entryIs
      rcases h1 with rfl | rfl | rfl <;> decide +kernel
    · rcases h1 with rfl | rfl | rfl <;> decide +kernel
  · obtain ⟨ha, hb⟩ := h0 n hn hz
    have h2 : xsPush n = [] := if_neg hz
    rw [h2]
    exact pushes_none _ ha hb

theorem witness_StackPushes :
    can (.trvpush (hdr 0 8) rPush) (gPush 31) (opdRegs rPush.d 1 ++ opdRegs rPush.a 12) ∧ (gPush 31).exec (hdr 0 8).guard = 0
    ∧ (∀ n ∈ [31, 32, 1056], (stashed (gPush n) gang0).Issues 0 (gPush n) (.trvpush hd0 rPush) (opdRegs rPush.d 1 ++ opdRegs rPush.a 12)
      ∧ (gPush n).exec hd0.guard ≠ 0 ∧ (stashed (gPush n) gang0).stashGang 0 (gPush n) = some gang0
      ∧ ((gPush n).getS (sFirst rPush.b)).toNat + 16384 ≤ gang0.stashSize ∧ (gPush n).sq = []
      ∧ ((gPush n).getS2 (sFirst rPush.b + 2)).toNat = 0x10000
      ∧ (∀ i, i < 32 → pushesOf (runWord (gPush n) rPush.a i) (xsPush i))
      ∧ ∀ i m, i < 32 → m < 32 → BytesAre 16 0 (fun j =>
        Memory.read ((stashed (gPush n) gang0).core 0).stash (gang0.stashBase + (0x4000 + 512 * i + 16 * m) + j)))
    ∧ gang0.binds = [] ∧ pushCount (gPush 31) rPush xsPush 0 = 1 ∧ pushCount (gPush 1056) rPush xsPush 0 = 0
    ∧ (∀ n d, (others ((gPush 31).exec hd0.guard) (gPush 31).help).getLsbD n = true → pushesAt (gPush 31) rPush xsPush n d → d < 32)
    ∧ (0x10000 % 16 = 0 ∧ ∀ n d, (others ((gPush 32).exec hd0.guard) (gPush 32).help).getLsbD n = true →
      pushesAt (gPush 32) rPush xsPush n d → 32 ≤ d →
      (stashed (gPush 32) gang0).accessOk 0 (gPush 32) false true ((0x10000 + 16384 * n + 16 * (d - 32)) % 2 ^ 64) 16) := by
  refine ⟨can_of _ _ _ (by decide), by decide, fun n hn => ?_, rfl, by decide, by decide,
    fun n d hn => lane0 (P := fun n => pushesAt (gPush 31) rPush xsPush n d → d < 32) _ (by decide) (fun h => ?_) n hn,
    by decide, fun n d hn => lane0 (P := fun n => pushesAt (gPush 32) rPush xsPush n d → 32 ≤ d →
      (stashed (gPush 32) gang0).accessOk 0 (gPush 32) false true ((0x10000 + 16384 * n + 16 * (d - 32)) % 2 ^ 64) 16) _ (by decide)
        (fun h h1 => ?_) n hn⟩
  · have h1 : n = 31 ∨ n = 32 ∨ n = 1056 := by simpa using hn
    have h2 := pushes_block n hn
    rcases h1 with rfl | rfl | rfl <;>
      exact ⟨issuesIn _ _ _ _ rfl rfl (by decide), by decide, by decide, by decide, rfl, by decide, h2, fun i m _ _ =>
        ⟨by decide, fun k _ => by rw [Nat.zero_div]; rfl⟩⟩
  · have h2 : pushFrom (gPush 31) rPush 0 + pushCount (gPush 31) rPush xsPush 0 = 32 := by decide
    have h3 := h.2
    omega
  · have h2 : pushFrom (gPush 32) rPush 0 + pushCount (gPush 32) rPush xsPush 0 = 33 := by decide
    have h3 := h.2
    obtain rfl : d = 32 := by omega
    exact ok_acc (by decide) (by decide) (by decide) (by decide)

/-- A request block in the stash: bytes of a block at stash offset 0. -/
def blockAt (g : Group) (x : SMap Byte) (kick : Option (Nat × EngReq)) : State :=
  { stashed g gang0 with cores := [(0, { Core.reset with stash := x, kick := kick })] }
def gKick : Group := g1 [] [(3, 31)]
def rKick : Regs := { x0 with a := .s 2, b := .s 3 }
def eng0 : EngReq where
  id := 0
  block := 0
  ctx := 0
  frm := 0
  t := 0
  tw := 0
  core := 0
  queue := 0
  seqNo := 0
  gang := 0
  index := 0
  spawned := false
  units := []
  met := false
  stage := 3
  fail := false
  phase := 0
  pos := 0
  bytes := 0
  round := 0
  lo := 0
  hi := 0
  used := 0
  shared := 0

theorem block_at (x : SMap Byte) (k : Option (Nat × EngReq)) (b : Line)
    (h : ∀ j, j < 128 → b.toNat / 256 ^ j % 256 = (Memory.read x (0x1000 + j)).toNat) :
    (blockAt gKick x k).BlockAt 0 gKick (gKick.read [] 0 (src (.s 2) false .none)) b gang0 :=
  ⟨no_tags _ rfl, rfl, by rfl, by decide, by decide, by decide, h⟩

set_option exponentiation.threshold 2000 in
theorem witness_Kicks :
    (∀ x k, (blockAt gKick x k).Issues 0 gKick (.kick hd0 rKick) [])
    ∧ (blockAt gKick [(0x1028, 7)] none).BlockAt 0 gKick (gKick.read [] 0 (src rKick.a false .none)) (7 <<< 320) gang0
    ∧ reqLegal (7 <<< 320) = false
    ∧ (blockAt gKick [(0x1028, 6)] none).BlockAt 0 gKick (gKick.read [] 0 (src rKick.a false .none)) (6 <<< 320) gang0
    ∧ reqLegal (6 <<< 320) = true ∧ reqPriv (6 <<< 320) = true ∧ gKick.privileged = false
    ∧ (∀ k, (blockAt gKick [(0x1010, 1)] k).BlockAt 0 gKick (gKick.read [] 0 (src rKick.a false .none)) (1 <<< 128) gang0)
    ∧ reqLegal (1 <<< 128) = true ∧ reqPriv (1 <<< 128) = false
    ∧ (blockAt gKick [(0x1010, 1)] none).pickEngine 0 (gKick.read [] 0 (src rKick.b false .none)) = 31
    ∧ ((blockAt gKick [(0x1010, 1)] (some (0, eng0))).core 0).kick ≠ none ∧ (blockAt gKick [(0x1010, 1)] none).engLoad 0 31 < 16
    ∧ ((blockAt gKick [(0x1010, 1)] none).core 0).locks.length + (reqRanges (1 <<< 128)).length ≤ 32
    ∧ ((blockAt gKick [(0x1010, 1)] none).core 0).locks = [] := by
  refine ⟨fun x k => issuesIn _ _ _ _ rfl rfl (by decide), block_at _ _ _ ?_, by decide +kernel, block_at _ _ _ ?_, by decide +kernel,
    by decide +kernel, by decide, fun k => block_at _ _ _ ?_, by decide +kernel, by decide +kernel, by decide +kernel, by decide, by decide +kernel,
    by decide +kernel, by decide⟩
  · decide +kernel
  · decide +kernel
  · decide +kernel

def tree0 (b : Line) : TreeReq where
  id := 0
  block := b
  ctx := 0
  t := 0
  tw := 0
  core := 0
  unit := 0
  phase := 0
  want := []
  got := []
  pos := 0
  ops := []
def waitTrees (s : State) (n : Nat) : State :=
  { s with die0 := { s.die0 with splicers := [(7, List.replicate n (tree0 0))], coilers := [(1, List.replicate n (tree0 0))] } }

set_option exponentiation.threshold 2000 in
theorem witness_TreeCommands : ∀ k ∈ [3, 4],
    (waitTrees (blockAt gKick [] none) k).Issues 0 gKick (.bld hd0 rKick) []
    ∧ (waitTrees (blockAt gKick [] none) k).Issues 0 gKick (.cmpct hd0 rKick) []
    ∧ (waitTrees (blockAt gKick [] none) k).BlockAt 0 gKick (gKick.read [] 0 (src rKick.a false .none)) 0 gang0
    ∧ gKick.read [] 0 (src rKick.b false .none) % 8 = 7 ∧ gKick.read [] 0 (src rKick.b false .none) % 2 = 1
    ∧ ((waitTrees (blockAt gKick [] none) k).treeQueue .splicer 0 7).length = k
    ∧ ((waitTrees (blockAt gKick [] none) k).treeQueue .coiler 0 1).length = k := by
  intro k hk
  refine ⟨issuesIn _ _ _ _ rfl rfl (by decide), issuesIn _ _ _ _ rfl rfl (by decide),
    ⟨no_tags _ rfl, rfl, by rfl, by decide, by decide, by decide, show ∀ j, j < 128 → (0 : Line).toNat / 256 ^ j % 256 = 0 by simp⟩,
    by decide, by decide, ?_, ?_⟩
  · revert k; decide
  · revert k; decide

/-- Something at the place of the stream. -/
def slotted (g : Group) : State := { ready ga with groups := [(0, ga), (131, g)] }
def rStart : Regs := { d := .s 10, a := .s 2, b := .s 4, c := .zero }

theorem witness_StreamControl :
    ga.kind = .ordinary ∧ ((slotted ga).core 0).qowner = none ∧ (slotted { ga with kind := .reel }).Issues 0 ga (.sstart hd0 rStart) []
    ∧ (slotted { ga with kind := .reel }).stream 0 = some { ga with kind := .reel } ∧ Group.running { ga with kind := .reel } = true
    ∧ (slotted ga).Issues 0 ga (.sstart hd0 rStart) [] ∧ (slotted ga).stream 0 = none ∧ (slotted ga).reelFree 0 = false
    ∧ (ready ga).Issues 0 ga (.sstart hd0 rStart) [] ∧ (ready ga).stream 0 = none ∧ 0 ≠ reelPlace 0
    ∧ SMap.wf (ready ga).cores = true
    ∧ (ready { ga with regs := 64 }).Issues 0 { ga with regs := 64 } (.sstart hd0 rStart) [] ∧ (ready { ga with regs := 64 }).reelFree 0 = true
    ∧ (ready ga).Issues 0 ga (.sstop hd0 { x0 with d := .s 10 }) []
    ∧ (slotted { ga with kind := .reel }).Issues 0 ga (.sstop hd0 { x0 with d := .s 10 }) [] ∧ ({ ga with kind := .reel } : Group).ctx = ga.ctx
    ∧ (slotted { ga with kind := .reel, ctx := 5 }).Issues 0 ga (.sstart hd0 rStart) []
    ∧ (slotted { ga with kind := .reel, ctx := 5 }).stream 0 = some { ga with kind := .reel, ctx := 5 } ∧ 5 ≠ ga.ctx :=
  ⟨rfl, by decide, issuesIn _ _ _ _ rfl rfl (by decide), by decide, by decide, issuesIn _ _ _ _ rfl rfl (by decide), by decide, by decide,
    issuesIn _ _ _ _ rfl rfl (by decide), by decide, by decide, by decide, issuesIn _ _ _ _ rfl rfl (by decide), by decide,
    issuesIn _ _ _ _ rfl rfl (by decide), issuesIn _ _ _ _ rfl rfl (by decide), rfl, issuesIn _ _ _ _ rfl rfl (by decide), by decide,
    by decide⟩

def rBits : Regs := { x0 with d := .v 4, a := .v 6 }

theorem witness_BitDecoding :
    can (.bdec ht .pfx 0 { rBits with b := .s 2 }) ga (opdRegs (.v 4) 1 ++ opdRegs (.v 6) 1) ∧ ga.read [] 0 (src (.s 2) false .none) % 2 = 1
    ∧ can (.bdec ht .fix 32 rBits) ga (opdRegs (.v 4) 1 ++ opdRegs (.v 6) 1)
    ∧ (stashed ga gang0).Issues 0 ga (.bdec ht .pfx 0 { rBits with b := .s 8 }) (opdRegs (.v 4) 1 ++ opdRegs (.v 6) 1)
    ∧ ga.read [] 0 (src (.s 8) false .none) % 2 = 0 ∧ (stashed ga gang0).stashGang 0 ga = some gang0
    ∧ ga.read [] 0 (src (.s 8) false .none) + 512 ≤ gang0.stashSize
    ∧ (∀ n, n < 8 → ∃ b : Byte, (fun _ : Nat => some (1 : Byte)) n = some b) ∧ 32 + 32 ≤ 8 * 8
    ∧ (0 + 31 ≤ 31 ∧ 31 + 2 * 0 + 1 + 31 ≤ 8 * 8 ∧ (1 : Byte).getLsbD (7 - (31 + 0) % 8) = true) :=
  ⟨can_of _ _ _ (by decide), by decide, can_of _ _ _ (by decide), issuesIn _ _ _ _ rfl rfl (by decide), by decide, by decide, by decide,
    fun n _ => ⟨1, rfl⟩, by decide, by decide⟩

/-- Lines 0 and 1 at home. -/
def homed2 (s : State) (h0 h1 : HomeLine) : State :=
  { s with die0 := { s.die0 with desc := [(0, 1 <<< 261)], l2 := [(0, h0), (1, h1)] } }
/-- No group at its turn. -/
def idle (s : State) : State := { s with cur := none }
def gY (age prio : Nat) (k : GKind) : Group := { ga with age := age, prio := prio, kind := k }
/-- Two groups of a pipe, and one of the next pipe, at the first words of a line: the words are no-operations, or uniform sums. -/
def wNop : BitVec 80 := 0x30F8989898800000
def wUni : BitVec 80 := 0x1090903058800000
def pipe (w : BitVec 80) (x y z : Group) : State :=
  { State.reset with groups := [(0, x), (1, y), (4, z)], cores := [(0, { Core.reset with icache := [(lineKey 0 0, codeLine [w])] })] }
def off : Group := { ga with st := .retiring }
def cd (p : Nat) (g : Group) (uni : Bool) : Cand := { p := p, g := g, uni := uni }
/-- The instruction cache is full of other lines. -/
def fullCode : State :=
  { homed (ready ga) (line0 false 0) with cores := [(0, { Core.reset with icache := List.replicate 1536 (lineKey 0 128, 0) })] }

theorem witness_FetchAndTurn :
    (idle (homed (ready ga) (line0 false 0))).grp 0 = some ga ∧ ga.wantsWord = true ∧ (homed (ready ga) (line0 false 0)).waiting (.fetch 0) = false
    ∧ pcFormOk ga.pc = true ∧ (homed (ready ga) (line0 false 0)).Holds 0 0 (pcLine ga.pc) .fetch (line0 false 0)
    ∧ (line0 false 0).owner = none ∧ (line0 false 0).poison = false
    ∧ ((homed (ready ga) (line0 false 0)).core 0).icache.find (lineKey 0 (pcLine ga.pc)) = none
    ∧ ((homed (ready ga) (line0 false 0)).core 0).icache.length < 1536
    ∧ ((fullCode.core 0).icache.find (lineKey 0 (pcLine ga.pc)) = none ∧ 1536 ≤ (fullCode.core 0).icache.length
      ∧ fullCode.Holds 0 0 (pcLine ga.pc) .fetch (line0 false 0))
    ∧ (pipe wNop (gY 64 0 .ordinary) (gY 63 3 .ordinary) off).candidates 0 = [cd 0 (gY 64 0 .ordinary) false, cd 1 (gY 63 3 .ordinary) false]
    ∧ (pipe wNop (gY 0 0 .walker) (gY 63 3 .ordinary) off).candidates 0 = [cd 0 (gY 0 0 .walker) false, cd 1 (gY 63 3 .ordinary) false]
    ∧ (pipe wNop (gY 0 0 .reel) (gY 63 3 .ordinary) off).candidates 0 = [cd 0 (gY 0 0 .reel) false, cd 1 (gY 63 3 .ordinary) false]
    ∧ (pipe wNop (gY 5 1 .ordinary) (gY 5 1 .ordinary) off).candidates 0 = [cd 0 (gY 5 1 .ordinary) false, cd 1 (gY 5 1 .ordinary) false]
    ∧ (pipe wNop { gY 0 0 .ordinary with yielded := true } off off).candidates 0 = [cd 0 { gY 0 0 .ordinary with yielded := true } false]
    ∧ ((pipe wUni (gY 5 1 .ordinary) off (gY 5 2 .ordinary)).award 4 ((pipe wUni (gY 5 1 .ordinary) off (gY 5 2 .ordinary)).candidates 0) = (none, [0])
      ∧ (pipe wUni (gY 5 3 .ordinary) off (gY 5 2 .ordinary)).grants (cd 0 (gY 5 3 .ordinary) true) = true)
    ∧ (∀ j, j < 32 → j ≠ 0 → chooseGroup ((pipe wUni (gY 5 1 .ordinary) off off).candidates j) = none) :=
  ⟨rfl, by decide, by decide, by decide, holds _ _ _ _ (by decide) (by decide) (by decide) (by decide), rfl, rfl, by decide, by decide,
    ⟨by decide +kernel, by decide +kernel, ⟨by decide +kernel, by decide +kernel, by decide +kernel, by decide +kernel, by decide +kernel⟩⟩,
    by decide +kernel, by decide +kernel, by decide +kernel, by decide +kernel, by decide +kernel, ⟨by decide +kernel, by decide +kernel⟩,
    by decide +kernel⟩

/-- A tile of four bytes at address 0 in memory, and the header that waits for it. -/
def mT : THdr := { th 0x11 2 0 true 0 with loc := true, off := 1 }
def oT : POp := { outstanding (ready ga) ga (.tld ht 1 (.s 2) 0 .rlx .gang) 1 0
    (((upTo 4).map (fun k => (32 * (k + 2), (th 0x11 2 0 true 9).word.extractLsb' (32 * k) 32))).filter (fun x => x.2 != 0)) [] with seq := 7 }
def gTld : Group := { ga with tags := [(1, { op := some oT, async := false })] }
def tiles : State := homed (ready gTld) (line0 false (mT.word.setWidth 1024 ||| 0x04030201 <<< 128))
def f1 : Fetched := fetchLines tiles 0 0 .load [] oT.seq oT.counted (asksOf [(0, 16)])
def f2 : Fetched := fetchLines f1.s 0 0 .load [] oT.seq oT.counted (asksOf (mT.extents 0))
def oS (todo : Mask) : POp := outstanding (ready ga) ga (.lds ht .b32 mStash) todo 0 [(0, 0x7FFC)] []
def gRes (todo : Mask) : Group := { ga with tags := [(1, { op := some (oS todo), async := false })], lpend := [lp0] }

set_option exponentiation.threshold 2000 in
theorem witness_ResultsArrive :
    (ready (gRes 0)).grp 0 = some (gRes 0) ∧ (gRes 0).trapWait = none ∧ (gRes 0).lpend[0]? = some lp0 ∧ (gRes 0).op 1 = some (oS 0)
    ∧ (oS 0).parked = none ∧ (ready (gRes 0)).waiting (.tag 0 1) = false ∧ (oS 0).todo = 0
    ∧ (gRes 1).op 1 = some (oS 1) ∧ (oS 1).todo ≠ 0 ∧ (gRes 1).noneBefore (oS 1).seq 0 ∧ (stashed (gRes 1) gang0).stashGang 0 (gRes 1) = some gang0
    ∧ (gRes 1).sq = []
    ∧ gTld.op 1 = some oT ∧ gTld.noneBefore oT.seq 0 ∧ (oT.word2 0 0).toNat = 0 ∧ THdr.of (oT.word 5 0 ++ oT.word 4 0 ++ oT.word 3 0 ++ oT.word 2 0) = th 0x11 2 0 true 9
    ∧ f1.whole ∧ loadBytes f1.s 0 gTld f1.got oT.seq (f1.s.tgts 0 gTld false 0 16) = some mT.word.toNat ∧ THdr.of (BitVec.ofNat 128 mT.word.toNat) = mT
    ∧ firstBad (badArrival (th 0x11 2 0 true 9) mT mT.word 128 0) = none ∧ (∀ e ∈ mT.extents 0, f1.s.accessOk 0 gTld false false (e.1 % 2 ^ 64) e.2)
    ∧ f2.whole ∧ f2.s.grp 0 = some gTld ∧ gTld.trapWait = none := by
  have one : ∀ o : POp, Group.noneBefore { ga with tags := [(1, { op := some o, async := false })] } o.seq 0 := by
    intro o n x o' hm ho _ hl
    obtain ⟨rfl, rfl⟩ : n = 1 ∧ x = { op := some o, async := false } := by simpa using hm
    obtain rfl : o = o' := by simpa using ho
    exact absurd hl (Nat.lt_irrefl _)
  have h : (f1.s.core 0).locks = [] := by decide +kernel
  have owners : ∀ e ∈ mT.extents 0, f1.s.owner (e.1 % 2 ^ 64) ≠ .bad ∧ f1.s.owner ((e.1 % 2 ^ 64 + e.2 - 1) % 2 ^ 64) ≠ .bad := by decide +kernel
  refine ⟨rfl, rfl, rfl, rfl, rfl, by decide, rfl, rfl, by decide, one (oS 1), by decide, rfl, rfl, one oT, by decide +kernel, by decide +kernel,
    by unfold Fetched.whole; decide +kernel, by decide +kernel, by decide +kernel, by decide +kernel,
    fun e he => ok_acc h (by simp) (owners e he).1 (owners e he).2, by unfold Fetched.whole; decide +kernel, by decide +kernel, rfl⟩

/-- A request succeeds, and what follows of it holds. -/
def oks {α : Type} (a : Ans α) (p : State → α → Bool) : Bool := match a with
  | .ok s x => p s x
  | _ => false

/-- A group with a word outstanding at tag 1, and with it lines 0 and 1 at home. -/
def gOp (o : POp) : Group := { ga with tags := [(1, { op := some o, async := false })] }
def arriving (o : POp) (x y : Line) : State := homed2 { ready (gOp o) with gangs := [(0, gang0)] } (line0 false x) (line0 false y)

theorem no_before (o : POp) (k : Nat) : (gOp o).noneBefore o.seq k := by
  intro n x o' hm ho _ hl
  obtain ⟨rfl, rfl⟩ : n = 1 ∧ x = { op := some o, async := false } := by simpa [gOp] using hm
  obtain rfl : o = o' := by simpa using ho
  exact absurd hl (Nat.lt_irrefl _)

/-- A load of a word that stands in two lines; a node test, of line 0, and of a helper whose address is misaligned; a table; a pop from the spill
area, whose entry 33 of lane 0 stands at 0. -/
def oL : POp := outstanding (ready ga) ga (.ld ht .b32 m0) 1 0 [(0, 126)] []
def rTest : Regs := { d := .v 4, a := .v 16, b := .v 24, c := .s 8 }
def oN (word help : Nat) : POp := { outstanding (ready ga) ga (.ntest ht rTest) 1 (bv 32 help) [(32 * 8, bv 32 word)] [] with tab := some 0 }
def oF : POp := outstanding (ready ga) ga (.nfmt ht { x0 with a := .s 2 }) 1 0 [] []
def oP : POp := outstanding (ready ga) ga (.trvpop ht rPop) 1 0 [(0, 33)] []

/-- The lines of a word's lanes arrive, with the group as it was. -/
def arrives (f : Fetched) (g : Group) : Bool :=
  f.fault.isNone && f.faulted.isEmpty && f.poisoned.isEmpty && !f.stuck && decide (f.s.grp 0 = some g ∧ g.trapWait = none)

set_option exponentiation.threshold 2000 in
theorem witness_ResultsArriveOfLines :
    (∀ o ∈ [oL, oN 0 0, oN 8 1, oF, oP], (arriving o 5 7).grp 0 = some (gOp o) ∧ (gOp o).trapWait = none ∧ (gOp o).op 1 = some o ∧ o.parked = none
      ∧ (arriving o 5 7).waiting (.tag 0 1) = false ∧ o.todo ≠ 0 ∧ (gOp o).sq = [])
    ∧ (∀ o, (gOp o).noneBefore o.seq 0)
    ∧ arrives (fetchLines (arriving oL 5 7) 0 0 .load oL.faults oL.seq oL.counted (laneAsks oL.todo (fun _ => ldBytes .b32) (loadAddr false m0 oL)))
      (gOp oL) = true
    ∧ (∀ x ∈ [(0, 0), (8, 1)], let o := oN x.1 x.2
      nodeBlank (arriving o 5 7) 0 (gOp o) o 0 = decide (x.2 = 1)
      ∧ arrives (fetchLines { arriving o 5 7 with fresh := 64 } 0 0 .ntest o.faults o.seq o.counted
        (laneAsks o.todo (fun n => if nodeBlank (arriving o 5 7) 0 (gOp o) o n then 0 else 128) (fun n => (o.word2 8 n).toNat / 128 * 128)))
        (gOp o) = true)
    ∧ arrives (fetchLines (arriving oF 5 7) 0 0 .load oF.faults oF.seq oF.counted (laneAsks 1 (fun _ => 256) (fun _ => (oF.word2 0 0).toNat)))
      (gOp oF) = true
    ∧ (let f := fetchLines (arriving oP 5 7) 0 0 .load oP.faults oP.seq oP.counted (laneAsks oP.todo
        (fun n => if 32 < (oP.word 0 n).toNat % 2 ^ 16 ∧ oP.help.getLsbD n = false then 16 else 0)
        (fun n => spillVa (oP.word2 2 n).toNat n ((oP.word 0 n).toNat % 2 ^ 16 - 1)))
      arrives f (gOp oP) = true ∧ (arriving oP 5 7).stashGang 0 (gOp oP) = some gang0 ∧ f.s.stashGang 0 (gOp oP) = some gang0 ∧ gang0.binds = []
        ∧ SMap.wf (f.s.core 0).stash = true)
    ∧ ∀ n m, oP.todo.getLsbD n = true → oP.todo.getLsbD m = true → oP.word 1 n = oP.word 1 m := by
  refine ⟨?_, fun o => no_before o 0, ?_, ?_, ?_, ?_, fun n m hn hm => ?_⟩
  · intro o ho
    simp only [List.mem_cons, List.not_mem_nil, or_false] at ho
    rcases ho with rfl | rfl | rfl | rfl | rfl <;> exact ⟨rfl, rfl, rfl, rfl, by decide, by decide, rfl⟩
  · decide +kernel
  · decide +kernel
  · decide +kernel
  · and_intros <;> decide +kernel
  · exact lane0 (P := fun n => oP.word 1 n = oP.word 1 m) _ rfl (lane0 (P := fun m => oP.word 1 0 = oP.word 1 m) _ rfl rfl m hm) n hn

/-- A bit decode of the stash's first bit, and of its first code, whose prefix of zeros has no end; a walker's load of a physical word. -/
def oB (kind : BdecKind) : POp := outstanding (ready ga) ga (.bdec ht kind 1 rBits) 1 0 [] []
def oW : POp := outstanding (ready ga) ga (.pld ht m0) 1 0 [(0, 0x2000)] []

theorem witness_ResultsArriveHere :
    (∀ o ∈ [oB .fix, oB .eg, oW], (arriving o 0 0).grp 0 = some (gOp o) ∧ (gOp o).op 1 = some o ∧ o.parked = none
      ∧ (arriving o 0 0).waiting (.tag 0 1) = false ∧ o.todo ≠ 0 ∧ (gOp o).sq = [])
    ∧ (∀ o, (gOp o).noneBefore o.seq 0) ∧ (∀ k, (arriving (oB k) 0 0).stashGang 0 (gOp (oB k)) = some gang0) ∧ gang0.binds = []
    ∧ (∀ k ∈ [BdecKind.fix, .eg], match decodeOne k 1 gang0.stashSize ((oB k).word 1 0).toNat
          (fun a => some (Memory.read ((arriving (oB k) 0 0).core 0).stash (gang0.stashBase + a))) ((oB k).word 0 0).toNat with
        | .val v u => k = .fix ∧ v = 0 ∧ u = 1
        | .bad => k = .eg
        | _ => False)
    ∧ (∀ n, oW.todo.getLsbD n = true → (arriving oW 0 0).physPoison 0 (loadAddr false m0 oW n) = false) := by
  refine ⟨?_, fun o => no_before o 0, fun k => by cases k <;> decide, rfl, ?_, lane0 _ rfl (by decide)⟩
  · intro o ho
    simp only [List.mem_cons, List.not_mem_nil, or_false] at ho
    rcases ho with rfl | rfl | rfl <;> exact ⟨rfl, rfl, rfl, by decide, by decide, rfl⟩
  · intro k hk
    have h : k = .fix ∨ k = .eg := by simpa using hk
    rcases h with rfl | rfl
    · exact ⟨rfl, rfl, rfl⟩
    · exact show BdecKind.eg = .eg from rfl

/-- A read of a counter, and an atomic and a compare of two threads on one word, with an order. -/
def oC (ord : Order) : POp := outstanding (ready ga) ga (.crd ht ord .sys (rS (.s 6) (.s 2) .zero)) 1 0 [] []
def aOrd (ord : Order) : AForm := { a0 with ord := ord }
def oA (ord : Order) : POp := outstanding (ready ga) ga (.atom ht .add (aOrd ord)) 3 0 [(64, 5), (65, 6)] []
def oX (ord : Order) : POp := outstanding (ready ga) ga (.acas ht { aOrd ord with c := .v 8 }) 3 0 [(64, 5), (65, 6), (96, 6), (97, 9)] []
/-- Core 0 owns line 0. -/
def ownedBy (o : POp) : State := { ready (gOp o) with cores := [(0, { Core.reset with l1 := [(lineKey 0 0, copyO)] })] }

set_option exponentiation.threshold 2000 in
theorem witness_ResultsArriveOfAtomics :
    (∀ ord ∈ [Order.rlx, .acq, .rel, .ar], ∀ o ∈ [oC ord, oA ord, oX ord], (gOp o).op 1 = some o ∧ o.parked = none ∧ o.todo ≠ 0 ∧ (gOp o).sq = []
      ∧ (gOp o).trapWait = none ∧ o.faults = [] ∧ (gOp o).noneBefore o.seq (if ord = .rel ∨ ord = .ar then o.seq else 0))
    ∧ (∀ ord, oks (readAtHome (homed (ready (gOp (oC ord))) (line0 true 5)) 0 (((oC ord).word2 0 0).toNat))
      (fun t x => decide (x = some (5, 3) ∧ t.grp 0 = some (gOp (oC ord)))) = true)
    ∧ (∀ ord, ∀ o ∈ [oA ord, oX ord], (∀ i, o.todo.getLsbD i = true → (o.word2 0 i).toNat = 0) ∧ 0 % 128 + tyWidth a0.ty / 8 ≤ 128
      ∧ ((ownedBy o).grp 0 = some (gOp o) ∧ (ownedBy o).waiting (.tag 0 1) = false ∧ (ownedBy o).Has 0 0 0 copyO ∧ copyO.st = .o ∧ copyO.poison = false
        ∧ a0.scope = .gang)
      ∧ ((homed (ready (gOp o)) (line0 false 5)).grp 0 = some (gOp o) ∧ (homed (ready (gOp o)) (line0 false 5)).waiting (.tag 0 1) = false
        ∧ (homed (ready (gOp o)) (line0 false 5)).Holds 0 0 0 .atomic (line0 false 5) ∧ (line0 false 5).perm.managed = false
        ∧ (line0 false 5).perm.ctr = false ∧ (homed (ready (gOp o)) (line0 false 5)).hasNone 0 0 0
        ∧ (homed (ready (gOp o)) (line0 false 5)).noPush 0 0 0)) := by
  have two : ∀ {P : POp → Prop} {x y : POp}, P x → P y → ∀ o ∈ [x, y], P o := fun {P x y} ha hb o ho => by
    have h1 : o = x ∨ o = y := by simpa using ho
    rcases h1 with rfl | rfl
    · exact ha
    · exact hb
  have both : ∀ i, (3 : Mask).getLsbD i = true → i = 0 ∨ i = 1 := fun i hi => by
    rcases Nat.lt_or_ge i 32 with h | h
    · have : ∀ i : Nat, i < 32 → (3 : Mask).getLsbD i = true → i = 0 ∨ i = 1 := by decide
      exact this i h hi
    · rw [BitVec.getLsbD_of_ge _ _ h] at hi
      exact absurd hi (by simp)
  refine ⟨fun ord _ o ho => ?_, fun ord => ?_, fun ord => two ?_ ?_⟩
  · simp only [List.mem_cons, List.not_mem_nil, or_false] at ho
    rcases ho with rfl | rfl | rfl <;> exact ⟨rfl, rfl, by cases ord <;> decide, rfl, rfl, rfl, no_before _ _⟩
  · cases ord <;> decide +kernel
  all_goals
    refine ⟨fun i hi => ?_, by decide, ⟨rfl, by cases ord <;> decide, ⟨by rfl, by rfl, by rfl⟩, rfl, rfl, rfl⟩,
      rfl, by cases ord <;> decide, holds _ _ _ _ (by cases ord <;> decide) (by decide) (by decide) (by decide), rfl, rfl, ⟨by rfl, by rfl⟩, noPush_of rfl⟩
    rcases both i hi with rfl | rfl <;> cases ord <;> decide

def owning0 (g : Group) : State := { ready g with cores := [(0, { Core.reset with l1 := [(lineKey 0 0, copyO)] })] }
def sqG (a : SqAcc) : Group := { ga with sq := [{ sq0 with accs := [a] }] }
def gGone (k : GKind) : Group := { ga with st := .retiring, kind := k }
def task0 (st : Nat) (data : Line) : Task where
  data := data
  addr := 0x80
  ctx := 0
  st := st
  fcause := 0
  relaunches := 0
  placed := [0]
  exited := []
  failing := false
  t := 0
  tw := 0
  owes := false

theorem has0 (g : Group) : (owning0 g).Has 0 0 0 copyO := ⟨by rfl, by rfl, by rfl⟩

theorem witness_StoresLeave :
    (ready (sqG acc0)).grp 0 = some (sqG acc0) ∧ (sqG acc0).trapWait = none ∧ (sqG acc0).sq = { sq0 with accs := [acc0] } :: []
    ∧ (ready (sqG acc0)).waiting (.sq 0) = false ∧ (sqG acc0).noneBefore 0 0 ∧ { sq0 with accs := [] }.accs = []
    ∧ (stashed (sqG { acc0 with stash := true }) gang0).stashGang 0 (sqG { acc0 with stash := true }) = some gang0
    ∧ SMap.wf ((stashed ga gang0).core 0).stash = true
    ∧ (∀ a ∈ [(0 : Nat), 124], a % 128 + acc0.width ≤ 128) ∧ (owning0 (sqG acc0)).Has 0 0 0 copyO ∧ copyO.st = .o
    ∧ (ready (gGone .walker)).grp 0 = some (gGone .walker) ∧ (gGone .walker).landed = true
    ∧ (stashed (gGone .ordinary) { gang0 with places := [0, 5] }).gang 0 = some { gang0 with places := [0, 5] } ∧ [0, 5] ≠ [0]
    ∧ SMap.wf (ready (gGone .ordinary)).groups = true ∧ (gGone .ordinary).landed = true
    ∧ gang0.places = [0] ∧ gang0.binds = [] ∧ gang0.core = placeCore 0 ∧ gang0.spawned = false
    ∧ (stashed (gGone .ordinary) gang0).stream 0 = none ∧ SMap.wf (stashed ga gang0).gangs = true
    ∧ ({ stashed (gGone .ordinary) gang0 with tasks := [(0, task0 3 0)] } : State).task 0 0 = some (task0 3 0) :=
  ⟨rfl, rfl, rfl, by decide, fun n x o h => absurd (show (n, x) ∈ [] from h) (by simp), rfl, by decide, by decide, by decide, has0 _, rfl, rfl,
    by decide, by rfl, by decide, by decide, by decide, rfl, rfl, by decide, rfl, by decide, by decide, by rfl⟩

/-- Port 0 is up. -/
def portUp : State := { State.reset with hostUp := [(0, true), (1, true)] }
def q0 : QDesc := { QDesc.reset with en := true, enabling := true }
def enabling (v : Line) : State := homed { ready ga with queues := [(0, q0)] } (line0 true v)
/-- Function 0 of port 0, of one that is enabled, shows the doorbells of its context. -/
def shown (n : Nat) : State := { portUp with vfCount := [(0, n)], vfs := [(0, 0x80000000)] }

set_option exponentiation.threshold 2000 in
theorem witness_QueueRegisters :
    (∀ p ∈ [0, 1, 2, 33], portUp.portOpen p = true ∧ (shown 1).portOpen p = true)
    ∧ ((2 - 2) % 32 < (shown 1).vfCount.getD ((2 - 2) / 32) 0 ∧ ((shown 1).vfs.getD (2 - 2) 0).getLsbD 31 = true
      ∧ ((shown 1).vfs.getD (2 - 2) 0).toNat % 2 ^ 10 = ((shown 1).queue 63).ctx)
    ∧ ((shown 0).vfCount.getD ((2 - 2) / 32) 0 ≤ (2 - 2) % 32 ∧ ((shown 1).vfs.getD (33 - 2) 0).getLsbD 31 = false)
    ∧ (portUp.queue 0).en = false ∧ (1 : DWord).getLsbD 0 = true ∧ (2 : DWord).getLsbD 0 = false
    ∧ (∀ v, (enabling v).queue 0 = q0) ∧ q0.enabling = true ∧ (enabling 5).waiting (.submit 0) = false ∧ q0.subctrNow.toNat % 8 = 0
    ∧ (enabling 5).owner q0.subctrNow.toNat ≠ .bad
    ∧ (∃ t, readAtHome (enabling 5) 0 0 = .ok t (some (5, 3))) ∧ Nat.testBit 5 63 = false
    ∧ (∃ t, readAtHome (enabling (1 <<< 63)) 0 0 = .ok t (some (2 ^ 63, 3))) ∧ Nat.testBit (2 ^ 63) 63 = true :=
  ⟨by decide, by decide, by decide, by decide, by decide, by decide, fun _ => rfl, rfl, by decide, by decide, by decide,
    ⟨_, rfl⟩, by decide, ⟨_, rfl⟩, by decide⟩

def domained : State := { State.reset with domain := { set := true, last := 1535, module := 0 } }

theorem witness_ModuleRegisters :
    domained.domain.set = true ∧ State.reset.domain.set = false ∧ (2 ^ 63 : DWord).getLsbD 63 = true ∧ (5 : DWord).getLsbD 63 = false
    ∧ portUp.portOpen 1 = true ∧ portUp.vfs.wf = true ∧ portUp.sems.wf = true ∧ portUp.sems.getD 15 0 = 0
    ∧ (∀ h ∈ [1, 2], ({ portUp with sems := [(15, h)] } : State).sems.wf = true ∧ ({ portUp with sems := [(15, h)] } : State).sems.getD 15 0 = h) := by
  decide +kernel

/-- A task record: one thread of one gang of one group, die 0, an input at address 8 with target 2, its output at address 16. -/
def recLine : Line := 1 <<< 128 ||| 1 <<< 192 ||| 1 <<< 250 ||| 16 <<< 320 ||| 8 <<< 512 ||| 2 <<< 576
/-- One without an input. -/
def recAlone : Line := 1 <<< 128 ||| 1 <<< 192 ||| 1 <<< 250 ||| 16 <<< 320
/-- A queue whose submit counter is at address 0 and whose ring is at 0x80. -/
def qOn (n : Nat) : QDesc := { QDesc.reset with en := true, ringNow := 0x80, lsizeNow := 4, taken := bv 64 n }
def tasking (ctrs recd : Line) (q : QDesc) (ts : SMap Task) : State :=
  homed2 { State.reset with queues := [(0, q)], tasks := ts } (line0 true ctrs) (line0 false recd)
def tk (st : Nat) : Task := task0 st recLine

/-- Reading a record and writing its state succeed. -/
def taken1 (recd : Line) (bad none_ : Bool) : Prop := ∃ t t1 t2 v w y w1 w2, readCounter (tasking 1 recd (qOn 0) []) 0 0 = .ok t (.value v w) ∧ 0 < v
  ∧ unitRead t 0 ((qOn 0).recAddr 0) .load = .ok t1 (y, w1) ∧ writeRecord t1 (takenTask (qOn 0) y.data (max w w1)) 1 = .ok t2 w2
  ∧ t2.badRecord y.data = bad ∧ (bad = false → (recInputs y.data = [] ↔ none_ = true))

/-- The watch of a pending task's input ends in some way. -/
def watched (ctrs : Line) : Ans Watch := watchInputs 0 (recInputs recLine) (.met 0) (tasking ctrs recLine (qOn 1) [(0, tk 1)])

set_option exponentiation.threshold 2000 in
theorem witness_Tasks :
    ((tasking 1 recLine (qOn 0) []).queue 0).en = true ∧ (qOn 0).enabling = false ∧ ((tasking 1 recLine (qOn 0) []).queue 0).frozen = false
    ∧ (tasking 1 recLine (qOn 0) []).waiting (.submit 0) = false ∧ (tasking 1 recLine (qOn 0) []).openTasks 0 < 64
    ∧ (∃ t w, readCounter (tasking 1 recLine (qOn 1) []) 0 0 = .ok t (.value 1 w) ∧ 1 ≤ (qOn 1).taken.toNat)
    ∧ taken1 recLine false false ∧ taken1 recAlone false true ∧ taken1 0 true true
    ∧ (∃ t, readCounter (tasking (1 <<< 63) recLine (qOn 1) []) 0 0 = .ok t (.token (2 ^ 63) 3))
    ∧ (tasking 0 recLine (qOn 1) [(0, tk 1)]).pendingTask 0 0 = some (tk 1)
    ∧ (∃ t w t1 w1, watched (2 <<< 64) = .ok t (.met w) ∧ recPers recLine = false ∧ writeRecord t { tk 1 with t := max 0 w } 2 = .ok t1 w1)
    ∧ (∃ t, watched (1 <<< 64) = .ok t .unmet) ∧ (∃ t t1 w1, watched (1 <<< 127) = .ok t .token ∧ writeRecord t (tk 1) 5 = .ok t1 w1)
    ∧ recOut recLine ≠ 0
    ∧ (∃ t, readAtHome (tasking (2 <<< 64) 0 (qOn 0) []) 0 8 = .ok t (some (2, 3)))
    ∧ (let s := tasking 0 recLine (qOn 1) [(0, { tk 3 with exited := [0] })]
       s.task 0 0 = some { tk 3 with exited := [0] } ∧ s.waiting (.watch 0 0) = false ∧ s.tracksNone 0 0 = true
       ∧ liveGangs recLine ≤ [0].eraseDups.length ∧ s.die0.spawnsOf 0 0 = false ∧ s.die1.spawnsOf 0 0 = false
       ∧ ∃ t w, writeRecord s { tk 3 with exited := [0] } 4 = .ok t w)
    ∧ (let s := tasking 0 recLine (qOn 1) [(0, { tk 3 with failing := true })]
       s.task 0 0 = some { tk 3 with failing := true } ∧ s.tracksNone 0 0 = true ∧ ∃ t w, writeRecord s { tk 3 with failing := true } 6 = .ok t w)
    ∧ (tasking 0 recLine (qOn 1) [(0, tk 3)]).running 0 0 (tk 3)
    ∧ (let s : State := { stashed ga gang0 with tasks := [(0, tk 3)] }
       s.gang 0 = some gang0 ∧ gang0.places ≠ [] ∧ (s.core 0).halted = false ∧ s.running 0 0 (tk 3) ∧ (s.queue 0).wdog ≠ 0xFFFF
       ∧ ({ QDesc.reset with wdog := 0xFFFF } : QDesc).wdog = 0xFFFF) :=
  ⟨rfl, rfl, rfl, by decide, by decide, ⟨_, _, rfl, by decide⟩,
    ⟨_, _, _, _, _, _, _, _, rfl, by decide, rfl, rfl, by decide +kernel, fun _ => by decide +kernel⟩,
    ⟨_, _, _, _, _, _, _, _, rfl, by decide, rfl, rfl, by decide +kernel, fun _ => by decide +kernel⟩,
    ⟨_, _, _, _, _, _, _, _, rfl, by decide, rfl, rfl, by decide +kernel, fun h => absurd h (by decide)⟩, ⟨_, rfl⟩, by decide +kernel,
    ⟨_, _, _, _, rfl, by decide +kernel, rfl⟩, ⟨_, rfl⟩, ⟨_, _, _, rfl, rfl⟩, by decide +kernel, ⟨_, rfl⟩,
    ⟨rfl, by decide, by decide +kernel, by decide +kernel, by decide, by decide, _, _, rfl⟩, ⟨rfl, by decide +kernel, _, _, rfl⟩,
    ⟨rfl, rfl, by decide⟩, ⟨rfl, by decide, rfl, ⟨rfl, rfl, by decide⟩, by decide, rfl⟩⟩

def tkP : Task := { task0 3 recLine with placed := [] }
def placing : State := { State.reset with tasks := [(0, tkP)] }
/-- A span that no core has stash for. -/
def tkBig : Task := { tkP with data := recLine ||| 1023 <<< 237 }
def crowded : State := { State.reset with tasks := [(0, tkBig)] }


theorem witness_Placement :
    placing.serves 0 = true ∧ (placing.die 0).up = true ∧ placing.placeable 0 = [(0, 0, tkP)] ∧ placing.heldBack 0 0 0 tkP = false
    ∧ recPers tkP.data = false ∧ placing.nextSpan 0 0 tkP = some 0 ∧ tkP.st = 3 ∧ tkP.owes = false ∧ (placeSpan placing 0 0 tkP 0 0 [] false).isSome = true
    ∧ (placeSpan (placing.setTask 0 0 tkP) 0 0 tkP 0 0 [] false).isSome = true
    ∧ crowded.placeable 0 = [(0, 0, tkBig)] ∧ crowded.heldBack 0 0 0 tkBig = false ∧ recPers tkBig.data = false ∧ crowded.nextSpan 0 0 tkBig = some 0
    ∧ placeSpan crowded 0 0 tkBig 0 0 [] false = none ∧ (0, 0) ∉ (crowded.die 0).resv
    ∧ (let s : State := { State.reset with die0 := { State.reset.die0 with bins := [(0, bin0 1)] } }
       (s.die 0).bins.find 0 = some (bin0 1) ∧ (s.holdDesc 0 0).ringHas 0 (bin0 1).formed = false
       ∧ ((s.holdDesc 0 0).spawnPlace 0 (bin0 1).formed).isSome = true)
    ∧ (∀ room ∈ [false, true],
       let s := binned 1 room
       (s.die 0).bins.find 0 = some (bin0 1) ∧ (s.holdDesc 0 0).ringHas 0 (bin0 1).formed = true ∧ (bin0 1).held = 0
       ∧ spills (s.holdDesc 0 0) (bin0 1).formed room = true)
    ∧ (∀ room ∈ [false, true], let s := (binned 1 room).modDie 0 (fun d => { d with bins := [(0, binHeld)] })
       (s.die 0).bins.find 0 = some binHeld ∧ binHeld.held ≠ 0 ∧ spills s binHeld.formed room = true)
    ∧ (∀ n ∈ [1, 32],
       let s : State := { State.reset with die0 := { State.reset.die0 with formed := [formed0 n] } }
       placeDie 90111 = 0 ∧ (s.die 0).rings = [] ∧ (s.die 0).formed = [formed0 n] ∧ (s.die 0).bins = []
       ∧ (placeFormed s (formed0 n) (placeCore 90111) (some 90111)).isSome = true) := by
  and_intros <;> decide +kernel


def copyS : Copy := { copyO with st := .s, w := 3, r := 2 }
def copied (h : HomeLine) (y : Option Copy) : State :=
  homed { ready ga with cores := [(0, { Core.reset with l1 := (y.map (fun y => (lineKey 0 0, y))).toList, t := 5 })] } h
def push0 : Push := { core := 0, src := 1, ctx := 0, va := 0, data := 9, w := 1, r := 9, z := false, poison := false, sect := 4 }
def pushing (k : Core) : State := { State.reset with pushes := [push0], cores := [(0, k)] }

theorem fits (s : State) (h : decide (((s.core 0).dropCopy (lineKey 0 0)).l1Used + 4 ≤ Config.l1Sectors) = true) : s.l1Fits 0 0 0 :=
  of_decide_eq_true (p := ((s.core 0).dropCopy (lineKey 0 0)).l1Used + 4 ≤ Config.l1Sectors) h

theorem witness_CopiesOfLines :
    (copied (line0 false 9) none).Holds 0 0 0 .load (line0 false 9) ∧ (line0 false 9).owner = none ∧ (line0 false 9).poison = false
    ∧ (line0 false 9).perm.ctr = false ∧ (line0 false 9).perm.managed = false ∧ (copied (line0 false 9) none).boundOff 0 0 0 = none
    ∧ ((copied (line0 false 9) none).core 0).l1.find (lineKey 0 0) = none
    ∧ (copied (line0 false 9) (some copyS)).Has 0 0 0 copyS ∧ copyS.st = .s
    ∧ copyS.r < max ((copied (line0 false 9) (some copyS)).core 0).t copyS.w
    ∧ (copied (line0 false 9) none).Holds 0 0 0 .store (line0 false 9) ∧ (copied (line0 false 9) none).hasNone 0 0 0
    ∧ (∀ b, let h := { line0 false 9 with owner := some 0, hold := b }
      (copied h (some copyO)).homeIs 0 0 0 h ∧ h.owner = some 0 ∧ h.hold = b ∧ (copied h (some copyO)).Has 0 0 0 copyO ∧ copyO.st = .o
      ∧ (copied h (some copyO)).cores.wf = true ∧ ((copied h (some copyO)).core 0).l1.wf = true ∧ (copied h (some copyO)).owner 0 = .die 0
      ∧ (copied h (some copyO)).waiting (.recall 0 (lineKey 0 0)) = false)
    ∧ (∀ b, (pushing { Core.reset with gated := b }).pushes[0]? = some push0 ∧ (pushing { Core.reset with gated := b }).hasNone 0 0 0
      ∧ ((pushing { Core.reset with gated := b }).core 0).gated = b)
    ∧ (((pushing Core.reset).core 0).l1.filter (fun y => y.2.unread && (Core.reset.t ≤ y.2.r))).length < 64
    ∧ (let k := { Core.reset with l1 := (upTo 64).map (fun n => (lineKey 0 (128 * (n + 1)), { copyS with unread := true })) }
      64 ≤ (((pushing k).core 0).l1.filter (fun y => y.2.unread && ((pushing k).core 0).t ≤ y.2.r)).length ∧ (pushing k).hasNone 0 0 0
      ∧ (pushing k).l1Fits 0 0 0)
    ∧ (∀ y ∈ [none, some copyS], ((copied (line0 false 9) y).core 0).gated = false ∧ (copied (line0 false 9) y).l1Fits 0 0 0
      ∧ (copied (line0 false 9) y).noPush 0 0 0)
    ∧ copyS.sect ≤ 4 ∧ push0.sect ≤ 4 ∧ (pushing Core.reset).l1Fits 0 0 0 ∧ (∀ y ∈ (pushing Core.reset).pushes.take 0, y.isTo 0 0 0 = false)
    ∧ ({ line0 false 9 with owner := some 0 } : HomeLine).unknown = false := by
  refine ⟨holds _ _ _ _ (by decide) (by decide) (by decide) (by decide), rfl, rfl, rfl, rfl, by decide, by decide, ⟨by rfl, by rfl, by rfl⟩, rfl,
    by decide, holds _ _ _ _ (by decide) (by decide) (by decide) (by decide), ⟨by rfl, by rfl⟩, fun b => ⟨by rfl, rfl, rfl, ⟨by rfl, by rfl, by rfl⟩,
    rfl, by rfl, by rfl, by cases b <;> decide, by cases b <;> decide⟩, fun b => ⟨rfl, ⟨by rfl, by rfl⟩, rfl⟩, by decide,
    ⟨by decide +kernel, ⟨by decide +kernel, by decide +kernel⟩, fits _ (by decide +kernel)⟩, fun y hy => ?_, by decide, by decide, fits _ (by decide +kernel), by decide, rfl⟩
  have h1 : y = none ∨ y = some copyS := by simpa using hy
  rcases h1 with rfl | rfl <;> exact ⟨rfl, fits _ (by decide +kernel), fun x hx => absurd (show x ∈ [] from hx) (by simp)⟩

def add0 : Add := { id := 0, ctx := 0, va := 8, amount := 3, token := false, pre := .plain, die := 0, t := 9, port := none }
def adding : State := { homed (ready ga) (line0 true 0) with adds := [add0] }
def gPark (target : Nat) : Group := { ga with st := .counterParked, cpark := some { addr := 0, target := bv 64 target, npc := 7, d := 62, deaf := false } }

theorem witness_HomesAndTime :
    adding.adds[0]? = some add0 ∧ add0.pre = .plain ∧ adding.waiting (.add 0) = false ∧ (∀ b ∈ adding.adds.take 0, (b.ctx ≠ 0 ∨ b.va ≠ 8) ∧ (add0.port = none ∨ b.port ≠ add0.port))
    ∧ add0.va.toNat % 8 = 0 ∧ adding.owner 8 = .die 0 ∧ (adding.die 0).l2.find (lineKey 0 8) = some (line0 true 0)
    ∧ (adding.slice 0 (homeSlice 8)).waiters = []
    ∧ ((counter (gPark 5)).addWaiter 0 0 0 5).hasWaiter 0 = true
    ∧ (∀ n ∈ [5, 6], (gPark n).s.wf = true ∧ (counter (gPark n)).waiting (.cwait 0) = false ∧ (counter (gPark n)).hasWaiter 0 = false ∧ 62 + 1 < 64
      ∧ oks (readAtHome (counter (gPark n)) 0 0) (fun t x => decide (x = some (5, 3) ∧ t.grp 0 = some (gPark n))) = true)
    ∧ (let h := line0 false 9
       (copied h none).homeIs 0 0 0 h ∧ h.unknown = false ∧ h.owner = none ∧ h.dirty = true ∧ (copied h none).canonical = true
       ∧ ((copied h none).die 0).l2.wf = true ∧ ((copied h none).die 0).slices.wf = true ∧ h.frame % 128 = 0 ∧ h.frame < 2 ^ 37 - 2 ^ 28)
    ∧ (let h := { line0 false 9 with unknown := true }
       (copied h (some copyO)).homeIs 0 0 0 h ∧ h.unknown = true ∧ (∃ k, (copied h (some copyO)).cores = [(0, k)])
       ∧ (copied h (some copyO)).Has 0 0 0 copyO ∧ ((copied h (some copyO)).core 0).l1.wf = true ∧ h.owner = none
       ∧ (copied h (some copyO)).pushes = []
       ∧ (∀ x ∈ (copied h (some copyO)).groups, x.2.wbIn (0 / 128 * 128) = none)
       ∧ ({ copied h none with cores := [] } : State).homeIs 0 0 0 h ∧ ∀ x ∈ (copied h none).groups, x.2.wbIn (0 / 128 * 128) = none)
    ∧ (let s : State := { State.reset with cores := [(5, { Core.reset with l1 := [(lineKey 0 0, copyS)] })] }
       (s.core 5).gated = false ∧ s.recovering = false ∧ (∀ x ∈ s.groups, placeCore x.1 ≠ 5) ∧ (∀ x ∈ (s.core 5).l1, x.2.st = .s ∨ x.2.st = .sc)
       ∧ (∀ x ∈ (s.core 5).l1, s.boundOff 5 (keyCtx x.1) (keyVa x.1) = none) ∧ (∀ k, s.waiting (.recall 5 k) = false) ∧ s.cores.wf = true)
    ∧ ({ Core.reset with gated := true } : Core).gated = true
    ∧ (copied { line0 false 9 with unknown := true } none).recovering = true
    ∧ ({ Core.reset with log := some { ctx := 0, block := 0, lsize := 4, ring := 0 }, logOpen := some (0, 8) } : Core).logOpen = some (0, 8) :=
  ⟨rfl, rfl, by decide, by decide, by decide, by decide, by rfl, by decide, by decide +kernel, by decide +kernel, ⟨by rfl, rfl, rfl, rfl, by decide +kernel, by rfl, by rfl, by decide, by decide⟩,
    ⟨by rfl, rfl, ⟨_, rfl⟩, ⟨by rfl, by rfl, by rfl⟩, by rfl, rfl, rfl, by decide, by rfl, by decide⟩,
    ⟨by rfl, by decide, by decide, by decide, by decide, fun _ => rfl, by decide⟩, rfl, by decide, rfl⟩

/-- Die 0 with a walk record nobody holds; full service. -/
def missing : State := { State.reset with die0 := { State.reset.die0 with walks := [(0, { walk0 false with walker := none })] } }
def gSlow : Group := { ga with lpend := [lp0] }
def gMark : Group := { ga with st := .waiting, trapWait := some { cause := .preempt, info := 0, pc := 3 } }
/-- With a load that a fault on die 1 has parked. -/
def gParked : Group := { gMark with tags := [(1, { op := some { op0 with parked := some { owner := 1, gen := 0 } }, async := false })] }
def gang1 : Gang := { gang0 with places := [] }
def saved0 : SavedGroup where
  gangKey := 0
  place := 0
  group := 0
  ngroups := 1
  gang := 0
  span := 0
  member := 0
  queue := 0
  seqNo := 0
  spawned := false
  spawnTab := 0
  args := 0
  regs := 16
  prio := 0
  ctx := 0
  kind := .ordinary
  queued := false
  live := 1
  stash := 0x8000
  seqs := []
  sqRest := []
  helps := []
  t := 0
  tabs := []
  fence := 0
def savedOne : State := { State.reset with gangs := [(0, gang1)], saved := [saved0], tasks := [(0, tk 3)] }

theorem witness_ServiceEvents :
    ((missing.die (coreDie 0)).openWalks.filter (fun w => w.2.core == coreIn 0)).take 32 ≠ [] ∧ missing.walkerFree 0 = true ∧ missing.walkerLent 0 = false
    ∧ State.reset.gen 0 5 = 0 ∧ State.reset.gen 0 5 ≠ 1 ∧ State.reset.die0.gens.wf = true
    ∧ State.reset.owner (0x10000 : DWord).toNat = .die 0 ∧ (0x10000 : DWord).toNat % 65536 = 0 ∧ (0x20000 : DWord) ≠ 0
    ∧ (ready gSlow).groups.wf = true ∧ (∀ x ∈ ((ready gSlow).die 0).bins, x.2.ctx ≠ 0) ∧ (∀ x ∈ (ready gSlow).ctxGroups 0 0, x.2.marked = false)
    ∧ (∃ x ∈ (ready gSlow).ctxGroups 0 0, x.2.st ≠ .killed ∧ x.2.st ≠ .retiring ∧ x.2.inTrap = false ∧ x.2.trapWait = none ∧ x.2.quiet = false)
    ∧ (ready gMark).ctxGroups 0 0 = [(0, gMark)] ∧ gMark.trapWait = some { cause := .preempt, info := 0, pc := 3 } ∧ gMark.quiet = true
    ∧ (ready gMark).engPending 0 0 = false ∧ gMark.backs = [] ∧ (ready gMark).saveCopies 0 0 = [] ∧ (∀ d : Die, d ∈ [(ready gMark).die0, (ready gMark).die1] → d.gens.wf = true)
    ∧ gMark.parkOwners = []
    ∧ (gParked.parkOwners = [1] ∧ gParked.quiet = true ∧ (ready gParked).ctxGroups 0 0 = [(0, gParked)] ∧ (ready gParked).engPending 0 0 = false)
    ∧ (∀ x ∈ savedOne.groups, x.2.ctx ≠ 0) ∧ savedOne.serves 0 = true ∧ (savedOne.savedGangs 0).length = 1
    ∧ savedOne.unitAllows 0 (savedOne.savedGangs 0) = true
    ∧ (match savedOne.resumeUnit 0 (savedOne.savedGangs 0) [] with
      | some t => t.saved.all (fun x => x.kind != .reel)
      | none => false) = true :=
  ⟨by decide +kernel, by decide +kernel, by decide +kernel, by decide, by decide, by decide, by decide, by decide, by decide, by decide, by decide +kernel, by decide +kernel,
    ⟨(0, gSlow), by decide +kernel, by decide, by decide, rfl, rfl, by decide⟩, by decide +kernel, rfl, by decide, by decide +kernel, by decide, by decide +kernel,
    by decide, by decide, by decide +kernel, by decide +kernel, by decide, by decide +kernel, by decide +kernel, by decide +kernel⟩

/-- Die 0 with a request at the head of engine 5, and lines 0 and 1 at home: counters, and plain data. -/
def eng (r : EngReq) (ctrs data : Line) : State :=
  { homed2 State.reset (line0 true ctrs) (line0 false data) with
    die0 := { (homed2 State.reset (line0 true ctrs) (line0 false data)).die0 with engines := [(5, [r])] } }
def req (b : Line) (stage : Nat) : EngReq := { eng0 with block := b, stage := stage }

theorem eng_at (r : EngReq) (x y : Line) (h : r.met = false) : (eng r x y).EngAt 0 5 r where
  head := by rfl
  kicks := fun c k q _ h => absurd (show Core.reset.kick = some (k, q) from h) (by simp [Core.reset])
  idle := by rfl
  clear := h

def bCopy : Line := 0x80 ||| 0x94 <<< 64 ||| 4 <<< 128
/-- f32 to bf16, two elements; from packed slots, misaligned. -/
def bCvt : Line := 0x80 ||| 0x90 <<< 64 ||| 2 <<< 128 ||| 1 <<< 324 ||| 2 <<< 332
def bMis : Line := 0x84 ||| 0x90 <<< 64 ||| 16 <<< 128 ||| 2 <<< 324
def bGather (kind : Nat) : Line := 0x80 ||| 0x90 <<< 64 ||| 4 <<< 128 ||| 0xA0 <<< 384 ||| bv 1024 kind <<< 320 ||| 2 <<< 456
def bFill : Line := 0x80 <<< 64 ||| 256 <<< 128 ||| 3 <<< 320 ||| 0x1122 <<< 384
/-- Two ranks; pixels at 0x80, `aux` at 0xA0, the receive buffer at 0xC0, the table of peers at 0xC0. -/
def bComp : Line := 0x80 <<< 64 ||| 1 <<< 128 ||| 4 <<< 320 ||| 0xC0 <<< 384 ||| 1 <<< 448 ||| 0xA0 <<< 512 ||| 0xC0 <<< 576
def bCheck : Line := 0x10000 <<< 128 ||| 6 <<< 320 ||| 4 <<< 116
def have1 (b : Line) (us : SMap Nat) : EngReq := { req b 0 with units := us }
/-- Indices 1, 2, 0 and 5 of two elements 10 and 11. -/
def rGather : EngReq := have1 (bGather 1) [(8, 0x0B0A), (10, 1 + 2 * 2 ^ 32 + 5 * 2 ^ 96)]
def rMerge (y pos : Nat) : EngReq :=
  { have1 bComp [(8, y), (10, 0), (12, 0x3F800000)] with phase := 4, lo := 0, hi := 1, pos := pos }

/-- It is the value. -/
def isOk {α : Type} [DecidableEq α] (x : Except Nat α) (v : α) : Bool := match x with
  | .ok y => decide (y = v)
  | .error _ => false

theorem is_ok {α : Type} [DecidableEq α] {x : Except Nat α} {v : α} (h : isOk x v = true) : x = .ok v := by
  cases x with
  | error u => exact absurd h (by simp [isOk])
  | ok y => rw [of_decide_eq_true h]

theorem witness_EngineEvents :
    (isOk ((have1 bCopy [(8, 7)]).have_ 0x80 4) 7 = true ∧ isOk ((have1 bCopy []).have_ 0x80 4) 0 = false
      ∧ (∀ x, SMap.find (have1 bCopy [(8, 7)]).units 8 = some x → x < 2 ^ 128))
    ∧ (reqKind bCopy = 0 ∧ reqCvt bCopy = 0 ∧ 0 < reqLen bCopy ∧ 4 = min (16 - (reqDst bCopy + 0) % 16) (reqLen bCopy - 0)
      ∧ oks (unitGet (eng (req bCopy 0) 0 7) 0 (16 * 8) 16 .engRead) (fun _ _ => true) = true
      ∧ oks (unitPut (eng (have1 bCopy [(8, 7)]) 0 7) 0 (reqDst bCopy + 0) 4 7 0 .engWrite
        ((reqDst bCopy + 0 + 4) % 128 == 0 && decide (128 ≤ 0 + 4)) 0) (fun _ _ => true) = true)
    ∧ (reqKind bCvt = 0 ∧ reqCvt bCvt = 1 ∧ tileTy (reqSfmt bCvt) = some .f32 ∧ tileTy (reqDfmt bCvt) = some .bf16
      ∧ reqLen bCvt * storedWidth .bf16 / 8 = 4
      ∧ isOk (elemBytes (storedWidth .bf16) 0 4 ((have1 bCvt [(8, 0x400000003F800000)]).converted .f32 .bf16)) 0x40003F80 = true
      ∧ oks (unitPut (eng (have1 bCvt [(8, 0x400000003F800000)]) 0 7) 0 (reqDst bCvt + 0) 4 0x40003F80 0 .engWrite
        ((reqDst bCvt + 0 + 4) % 128 == 0 && decide (128 ≤ 0 + 4)) 0) (fun _ _ => true) = true)
    ∧ (reqKind bMis = 0 ∧ reqCvt bMis = 2 ∧ reqSrc bMis % 16 ≠ 0)
    ∧ (reqKind (bGather 1) = 1 ∧ reqElem (bGather 1) = 1 ∧ reqIdxBytes (bGather 1) = 4 ∧ reqLen (bGather 1) = 4 ∧ reqLim (bGather 1) = 2
      ∧ (∀ k, k < 4 → ∃ i, rGather.have_ (reqIdx (bGather 1) + 4 * ((0 + k) / 1)) 4 = .ok i
        ∧ (if i < 2 then ∃ y, rGather.have_ ((reqSrc (bGather 1) + 1 * i) % 2 ^ 64) 1 = .ok y ∧ 0x0A000B / 256 ^ k % 256 = y / 256 ^ ((0 + k) % 1) % 256
          else 0x0A000B / 256 ^ k % 256 = 0))
      ∧ oks (unitPut (eng rGather 0 7) 0 (reqDst (bGather 1) + 0) 4 0x0A000B 0 .engWrite
        ((reqDst (bGather 1) + 0 + 4) % 128 == 0 && decide (128 ≤ 0 + 4)) 0) (fun _ _ => true) = true)
    ∧ (reqKind (bGather 2) = 2 ∧ (∀ i ∈ [1, 2], isOk ((have1 (bGather 2) [(8, 7), (10, i)]).have_ (reqIdx (bGather 2) + reqIdxBytes (bGather 2) * 0) 4) i = true)
      ∧ isOk ((have1 (bGather 2) [(8, 7), (10, 1)]).have_ (reqSrc (bGather 2) + reqElem (bGather 2) * 0) 1) 7 = true
      ∧ oks (unitTouch (eng (have1 (bGather 2) [(8, 7), (10, 1)]) 0 7) 0 ((reqDst (bGather 2) + reqElem (bGather 2) * 1) % 2 ^ 64) 1 .engWrite)
        (fun s0 _ => oks (unitPut s0 0 ((reqDst (bGather 2) + reqElem (bGather 2) * 1) % 2 ^ 64) 1 7 0 .engWrite false 0) (fun _ _ => true)) = true)
    ∧ (reqKind bFill = 3 ∧ 0 < reqLen bFill ∧ 16 = min (16 - (reqDst bFill + 0) % 16) (reqLen bFill - 0)
      ∧ (∃ x, x < 256 ^ 16 ∧ ∀ k, k < 16 → x / 256 ^ k % 256 = bFill.toNat / 2 ^ (384 + 8 * ((0 + k) % 8)) % 256)
      ∧ ∀ x ∈ [0, 2 ^ 128 - 1], oks (unitPut (eng (req bFill 0) 0 0) 0 (reqDst bFill + 0) 16 x 0 .engWrite
        ((reqDst bFill + 0 + 16) % 128 == 0 && decide (128 ≤ 0 + 16)) 0) (fun _ _ => true) = true)
    ∧ (reqKind bComp = 4 ∧ reqRank bComp < 2 ^ reqK bComp
      ∧ oks (engPeer (eng { req bComp 0 with phase := 2 } 0 0) { req bComp 0 with phase := 2 } (reqRank bComp ^^^ 2 ^ 0)) (fun s1 x =>
        oks (unitAdd s1 0 x.2 1 0 0) (fun _ _ => true)) = true)
    ∧ (reqPixel bComp = 8 ∧ (rMerge 0 0).kept = (0, 1)
      ∧ (∀ pos ∈ [0, 8], isOk ((rMerge 0 pos).wins 0) false = true ∧ isOk ((rMerge 0x40000000 pos).wins 0) true = true)
      ∧ isOk ((rMerge 0x40000000 0).have_ (reqRbuf bComp + 8 * 0) 4) 0x3F800000 = true ∧ isOk ((rMerge 0x40000000 0).have_ (reqRbuf bComp + reqLen bComp * 8 + 2 * 0) 2) 0 = true
      ∧ isOk ((rMerge 0x40000000 0).have_ (reqDst bComp + 8 * 0) 4) 0x40000000 = true ∧ isOk ((rMerge 0x40000000 0).have_ (reqAux bComp + 2 * 0) 2) 0 = true
      ∧ 8 = min (16 - (reqDst bComp + 0) % 16) (8 * (0 + 1) - 0) ∧ 2 = min (16 - (reqAux bComp + 0) % 16) (2 * (0 + 1) - 0)
      ∧ isOk ((rMerge 0x40000000 0).have_ (reqRbuf bComp + 0) 8) 0x3F800000 = true ∧ isOk ((rMerge 0x40000000 8).have_ (reqRbuf bComp + reqLen bComp * 8 + 0) 2) 0 = true
      ∧ oks (unitPut (eng (rMerge 0x40000000 0) 0 0) 0 (reqDst bComp + 0) 8 0x3F800000 0 .engWrite false 0) (fun _ _ => true) = true
      ∧ oks (unitPut (eng (rMerge 0x40000000 8) 0 0) 0 (reqAux bComp + 0) 2 0 0 .engWrite false 0) (fun _ _ => true) = true
      ∧ ((rMerge 0 10).kept.2 - (rMerge 0 10).kept.1) * (reqPixel bComp + 2) ≤ (rMerge 0 10).pos)
    ∧ (let s : State := { eng (req bCheck 0) 0 0 with domain := domained.domain }
       reqKind bCheck = 6 ∧ checkpointOk s bCheck = true ∧ bCheck.getLsbD 384 = false ∧ 0 < reqLen bCheck
       ∧ (s.physGet 0 (reqSrc bCheck + 0) 16).isSome = true
       ∧ oks (unitPut s 0 (reqDst bCheck + 0) 16 5 0 .engWrite ((reqDst bCheck + 0 + 16) % 128 == 0 && decide (128 ≤ 0 + 16)) 0) (fun _ _ => true) = true)
    ∧ (let b : Line := 8 <<< 192 ||| 8 <<< 256
       reqKind b < 7 ∧ reqC0 b ≠ 0 ∧ reqC1 b ≠ 0 ∧ ({ req b 2 with bytes := 5 } : EngReq).bytes ≠ 0
       ∧ oks (unitAdd (eng { req b 2 with bytes := 5 } 0 0) 0 (reqC0 b) 5 0 0) (fun _ _ => true) = true
       ∧ oks (unitAdd (eng (req b 3) 0 0) 0 (reqC1 b) 1 0 0) (fun s1 _ => decide ((s1.die 0).engines.wf = true ∧ s1.cores.wf = true)) = true) := by
  refine ⟨⟨by decide +kernel, by decide +kernel, fun x h => ?_⟩, by decide +kernel, by decide +kernel, by decide +kernel,
    ⟨by decide +kernel, by decide +kernel, by decide +kernel, by decide +kernel, by decide +kernel, fun k hk => ?_, by decide +kernel⟩,
    by decide +kernel, ⟨by decide +kernel, by decide +kernel, by decide +kernel, ⟨?_, ?_, ?_⟩, by decide +kernel⟩, by decide +kernel, by decide +kernel,
    by decide +kernel, by decide +kernel⟩
  · obtain rfl : 7 = x := Option.some.inj h
    decide
  · have h : k = 0 ∨ k = 1 ∨ k = 2 ∨ k = 3 := by omega
    rcases h with rfl | rfl | rfl | rfl
    · exact ⟨1, is_ok (by decide +kernel), Eq.mpr (if_pos (by decide)) ⟨0x0B, is_ok (by decide +kernel), by decide⟩⟩
    · exact ⟨2, is_ok (by decide +kernel), Eq.mpr (if_neg (by decide)) (by decide)⟩
    · exact ⟨0, is_ok (by decide +kernel), Eq.mpr (if_pos (by decide)) ⟨0x0A, is_ok (by decide +kernel), by decide⟩⟩
    · exact ⟨5, is_ok (by decide +kernel), Eq.mpr (if_neg (by decide)) (by decide)⟩
  · exact ((List.range 16).map (fun k => bFill.toNat / 2 ^ (384 + 8 * ((0 + k) % 8)) % 256 * 256 ^ k)).sum
  · decide +kernel
  · decide +kernel

/-- A dedup-write of one page at 0x10000: counts of frames at 0x80, a table of two entries, the list of free frames at 0, its entry at 0x3000. -/
def bDedup (ftab pte : Nat) : Line :=
  0x10000 ||| 1 <<< 128 ||| 5 <<< 320 ||| bv 1024 ftab <<< 384 ||| 1 <<< 448 ||| 0x80 <<< 512 ||| bv 1024 pte <<< 576 ||| 1 <<< 704
/-- A page that nothing has been written to; the counts and the list of free frames at home; a memory and its poison. -/
def dedup (mem : Memory) (poison : SMap Half) : State :=
  { State.reset with die0 := { State.reset.die0 with
      desc := [(0, 1 <<< 261)]
      mem := mem
      poison := poison
      l2 := [(0, line0 false 0x30000), (1, line0 false 0)]
      tlb := (upTo 32).map (fun n => (n, [{ ctx := 0, page := 0x10000, size := 16, frame := 0, perm := { perm0 false with awf := true } }])) } }
/-- The page reads as zeros, and leaves the memory as it is. -/
def readsZero (mem : Memory) (poison : SMap Half) (p : State → Bool) : Bool :=
  oks (unitGet (dedup mem poison) 0 0x10000 65536 .engRead) (fun s x => decide (x.1 = 0 ∧ (s.die 0).mem = mem ∧ (s.die 0).poison = poison
    ∧ (s.die 0).sect = []) && p s)
/-- A table entry of fingerprint 0 that names the frame at 0x20000. -/
def entry0 : Memory := [(0x200A, 2)]

theorem get_zero (m : Memory) : ∀ n a, (∀ j, a ≤ j → Memory.read m j = 0) → Memory.get m a n = 0
  | 0, _, _ => rfl
  | n + 1, a, h => by
    rw [Memory.get, h a (Nat.le_refl a), get_zero m n (a + 1) (fun j hj => h j (by omega))]
    rfl

theorem join_zero (xs : List Line) (h : ∀ x ∈ xs, x = 0) : joinLines xs = 0 := by
  have go : ∀ (ys : List (Line × Nat)) (a : Nat), (∀ y ∈ ys, y.1 = 0) → ys.foldl (fun a x => a + x.1.toNat * 2 ^ (1024 * x.2)) a = a := by
    intro ys
    induction ys with
    | nil => intro a _; rfl
    | cons y ys ih =>
      intro a hy
      rw [List.foldl_cons, hy y (.head _), ih _ (fun z hz => hy z (.tail _ hz))]
      simp
  exact go _ 0 (fun y hy => h _ (List.fst_mem_of_mem_zipIdx hy))

/-- Where the memory holds nothing from 0x3000 on, the frame at 0x20000 is a page of zeros. -/
theorem frame_zero (s : State) (h1 : (s.die 0).mem = entry0) (h2 : (s.die 0).poison = []) (h3 : (s.die 0).sect = []) :
    s.physGet 0 0x20000 65536 = some 0 := by
  have hp : ∀ a, s.physPoison 0 a = false := fun a => by
    unfold State.physPoison
    rw [h2]
    simp [SMap.getD, SMap.find]
  have hr : ∀ j, 0x3000 ≤ j → Memory.read entry0 j = 0 := fun j hj => by
    unfold Memory.read entry0 SMap.getD SMap.find
    rw [if_neg (by omega), if_neg (by omega)]
    rfl
  have hl : ∀ l, 0x400 ≤ l → l < 0x800 → (s.die 0).rawLine (128 * l) = 0 := fun l hl hu => by
    have hk : physOk (128 * l) = true := decide_eq_true (show 128 * l < 2 ^ 37 - 2 ^ 28 by omega)
    have hz : Memory.get entry0 (128 * l / 128 * 128) 128 = 0 := get_zero _ _ _ (fun j hj => hr j (by omega))
    have hq : (s.die 0).isPacked (128 * l) = false := by simp [Die.isPacked, Die.slot, h3, SMap.getD, SMap.find]
    unfold Die.rawLine
    rw [if_pos hk, h1, hz, hq]
    rfl
  unfold State.physGet State.phys
  rw [if_neg (by simp [hp]), join_zero _ (fun x hx => ?_)]
  · simp [bits]
  · obtain ⟨l, hm, rfl⟩ := List.mem_map.mp hx
    unfold rangeLines at hm
    obtain ⟨k, hk, rfl⟩ := List.mem_map.mp (by simpa using hm)
    have := List.mem_range.mp hk
    exact hl _ (by omega) (by omega)

theorem witness_DedupWrites :
    reqKind (bDedup 0 0) = 5 ∧ 0 < reqLen (bDedup 0 0) ∧ fingerprint 0 = 0
    ∧ readsZero [] [] (fun s => decide (probeTable s 0 (2 ^ 40) 1 0 0 8 0 = .bound)) = true
    ∧ readsZero [] [(frameKey false 0x2000, 1)] (fun s => decide (probeTable s 0 0x2000 1 0 0 8 0 = .poisoned)) = true
    ∧ readsZero entry0 [] (fun s => oks (unitTouch s 0 (reqRcnt (bDedup 0 0) 0x20000) 4 .atomic) (fun s _ =>
      oks (unitGet s 0 (reqRcnt (bDedup 0 0) 0x20000) 4 .atomic) (fun s x =>
        oks (unitPut s 0 (reqRcnt (bDedup 0 0) 0x20000) 4 ((x.1 + 1) % 2 ^ 32) 0 .atomic false 0) (fun _ _ => true)))) = true
    ∧ (∀ s : State, (s.die 0).mem = entry0 → (s.die 0).poison = [] → (s.die 0).sect = [] → probeTable s 0 0x2000 1 0 0 8 0 = .share 0x20000)
    ∧ physRange 0x3000 8 = true ∧ physRange (2 ^ 40) 8 = false
    ∧ readsZero [] [] (fun s => decide (probeTable s 0 0x2000 1 0 0 8 0 = .miss (some 0x2000)) && oks (unitGet s 0 0 8 .engRead) (fun s x =>
      decide (x.1 = 0x30000) && oks (unitTouch s 0 (reqRcnt (bDedup 0 0) 0x30000) 4 .engWrite) (fun s _ =>
        oks (unitPut (s.physPut 0 0x30000 65536 0 0) 0 (reqRcnt (bDedup 0 0) 0x30000) 4 1 0 .engWrite false 0) (fun _ _ => true)))) = true
    ∧ physRange 0x30000 65536 = true := by
  and_intros <;> first
    | decide +kernel
    | skip
  intro s h1 h2 h3
  have he : s.physGet 0 0x2000 16 = some (2 ^ 81) := by
    unfold State.physGet State.physPoison State.phys Die.rawLine Die.isPacked Die.slot
    rw [h1, h2, h3]
    decide +kernel
  have hf := frame_zero s h1 h2 h3
  unfold probeTable
  simp only [show 0x2000 + 16 * ((0 + 0) % 2 ^ 1) = 0x2000 from rfl, he, show physRange 0x2000 16 = true by decide +kernel,
    show bits (2 ^ 81) 64 64 = 0x20000 by decide +kernel, show bits (2 ^ 81) 0 64 = 0 by decide +kernel]
  rw [show physRange 0x20000 pageBytes = true by decide +kernel, show s.physGet 0 0x20000 pageBytes = some 0 from hf]
  simp

/-- Lines 0 to 3 at home, and commands in the queues of splicer 7 and coiler 1. -/
def trees (r : TreeReq) (ctr : Line) : State :=
  { State.reset with die0 := { State.reset.die0 with
      desc := [(0, 1 <<< 261)]
      l2 := [(0, line0 true ctr), (1, line0 false 0), (2, line0 false 0), (3, line0 false 0)]
      splicers := [(7, [r])]
      coilers := [(1, [r])] } }
def spl (b : Line) (phase : Nat) (ops : List SplOp) : TreeReq := { tree0 b with phase := phase, ops := ops }
/-- One cluster, root at 0x80, `peer` at 0. -/
def bBld : Line := 1 <<< 64 ||| 0x80 <<< 320
def bCmp : Line := 0x80 ||| 0x100 <<< 64 ||| 1 <<< 320 ||| 0x180 <<< 448

theorem witness_TreeEvents :
    (∀ r : TreeReq, (trees r 0).TreeAt .splicer 0 7 r [] ∧ (trees r 0).TreeAt .coiler 0 1 r [])
    ∧ isRefit (spl bBld 3 []) = false ∧ isRefit (spl (1 <<< 816) 3 []) = true
    ∧ (∀ u ∈ [0, 7], let r := { spl bBld 3 [.line 0x100 5] with unit := u }
      oks (unitPut (trees r 0) 0 (0x100 + 16 * u) 16 ((5 : Line).toNat / 2 ^ (128 * u) % 2 ^ 128) 0 .engWrite (u == 7) 0)
        (fun s1 _ => decide (s1.treeQueue .splicer 0 7 = [r])) = true)
    ∧ (∀ b : Bool, oks (unitAdd (trees (spl bBld 3 [.add 8 b]) 0) 0 8 (if b then 2 ^ 63 else 1) 0 0)
        (fun s1 _ => decide (s1.treeQueue .splicer 0 7 = [spl bBld 3 [.add 8 b]])) = true)
    ∧ bldOk bBld = true ∧ bldOk 0 = false
    ∧ (∀ v ∈ [0, 1, 2 ^ 63], oks (readAtHome (trees (spl bBld 3 [.join]) (bv 1024 v)) 0 (bldPeer bBld)) (fun s1 x => decide (x = some (v, 3)
        ∧ s1.treeQueue .splicer 0 7 = [spl bBld 3 [.join]])
      && oks (unitGet s1 0 ((bldRoot bBld + 128) / 128 * 128) 128 .engRead) (fun s2 x0 =>
          oks (unitGet s2 0 ((bldRoot bBld + 256) % 2 ^ 64 / 128 * 128) 128 .engRead) (fun s3 x1 => decide (x0.1 = 0 ∧ x1.1 = 0)
            && decide (s3.treeQueue .splicer 0 7 = [spl bBld 3 [.join]])))) = true)
    ∧ (0 < (bldPbase bBld + 1) % 2 ^ 63 ∧ (bldPbase bBld + 1) % 2 ^ 63 ≤ 1 ∧ Nat.testBit 1 63 = false ∧ Nat.testBit (2 ^ 63) 63 = true)
    ∧ (∀ v ∈ [0, 1, 2 ^ 63], oks (readAtHome (trees (tree0 bCmp) (bv 1024 v)) 0 (cmpWctr bCmp)) (fun s1 x => decide (x = some (v, 3)
        ∧ s1.treeQueue .coiler 0 1 = [tree0 bCmp])) = true)
    ∧ (0 < cmpWtgt bCmp % 2 ^ 63 ∧ cmpWtgt bCmp % 2 ^ 63 ≤ 1)
    ∧ (let r : TreeReq := { tree0 bCmp with phase := 1, want := [(0x80, 0x100, 1)] }
       oks (unitGet (trees r 0) 0 (0x80 / 128 * 128) 128 .engRead) (fun s1 x => decide (x.1 < 2 ^ 1024 ∧ s1.treeQueue .coiler 0 1 = [r])) = true)
    ∧ (let r : TreeReq := { tree0 bCmp with phase := 1 }
       oks (unitPut (trees r 0) 0 (cmpRes bCmp) 8 0 0 .engWrite false 0) (fun s1 _ => decide (s1.treeQueue .coiler 0 1 = [r])) = true) :=
  ⟨fun _ => ⟨⟨by rfl, by rfl⟩, ⟨by rfl, by rfl⟩⟩, by and_intros <;> decide +kernel⟩

theorem witness_ResetsAndLinks : State.reset.canonical = true ∧ portUp.hostUp.wf = true ∧ portUp.vfCount.wf = true ∧ portUp.sems.wf = true ∧ portUp.hawser.wf = true
    ∧ domained.domain.set = true ∧ (State.reset.die 0).up = true
    ∧ (({ State.reset with die1 := { State.reset.die1 with up := false } } : State).die 1).up = false := by
  decide +kernel

def failing (idem : Bool) (n : Nat) : State :=
  { stashed ga gang0 with tasks := [(0, { tk 3 with data := if idem then recLine ||| 1 <<< 255 else recLine, relaunches := n })] }

/-- An add, a push and a fetch of an address of die 0, and of one of another module. -/
def sending (va : Nat) : State :=
  { ready { ga with pc := bv 64 va } with
    domain := domained.domain
    adds := [{ add0 with va := bv 64 va }]
    pushes := [{ push0 with va := va }] }

theorem witness_ErrorEvents :
    (∀ va ∈ [0, 2 ^ 53], (sending va).adds[0]? = some { add0 with va := bv 64 va } ∧ (sending va).pushes[0]? = some { push0 with va := va }
      ∧ (sending va).grp 0 = some { ga with pc := bv 64 va } ∧ Group.wantsWord { ga with pc := bv 64 va } = true
      ∧ (sending va).offModule (bv 64 va).toNat = (va != 0) ∧ (sending va).offModule va = (va != 0)
      ∧ (sending va).offModule (pcLine (bv 64 va)) = (va != 0))
    ∧ (State.reset.die 0).poison.wf = true ∧ (∃ t, exec (.linkRetryExhausted (.memory 0 0x1000)) State.reset = .next t)
    ∧ (0x1000 + 0 % 2 ^ 16) / 128 = 0x1000 / 128
    ∧ (∀ i : Bool, ∀ n ∈ [0, 2, 3], (failing i n).gangs = [(0, gang0)] ∧ gang0.core = 0 ∧ gang0.places ≠ [] ∧ (failing i n).dying gang0 = false ∧ gang0.stashBase ≤ 0x1000
      ∧ 0x8FFF < gang0.stashBase + gang0.stashSize
      ∧ (∃ t, (failing i n).running 0 0 t ∧ recIdem t.data = i ∧ t.relaunches = n) ∧ gang0.spawned = false)
    ∧ (let h := { line0 false 9 with owner := some 0 }
       (copied h (some copyO)).homeIs 0 0 0 h ∧ h.unknown = false ∧ (copied h (some copyO)).owner 0 = .die 0 ∧ (copied h (some copyO)).Has 0 0 0 copyO
       ∧ (copied h (some copyO)).cores.wf = true ∧ ((copied h (some copyO)).core 0).l1.wf = true
       ∧ (copied h (some copyO)).waiting (.recall 0 (lineKey 0 0)) = false)
    ∧ (let d : Die := { State.reset.die0 with tlb := [(5, [{ ctx := 0, page := 0, size := 16, frame := 0, perm := perm0 false }])] }
       0 < (d.tlb.getD 5 []).length ∧ d.tlb.wf = true) := by
  refine ⟨by decide +kernel, by decide, ⟨_, rfl⟩, by decide,
    fun i n hn => ⟨rfl, rfl, by decide, rfl, by decide, by decide, ⟨_, ⟨rfl, rfl, show 3 < 4 by decide⟩, ?_, rfl⟩, rfl⟩, ⟨by rfl, rfl, by decide, ⟨by rfl, by rfl, by rfl⟩, by rfl, by rfl, by decide⟩, by decide, by decide⟩
  cases i
  · exact show recIdem recLine = false by decide +kernel
  · exact show recIdem (recLine ||| 1 <<< 255) = true by decide +kernel

theorem witness_DecodeEncode : (Instr.iadd hd0 (r3 .n32 0)).isWord = true ∧ (Instr.iadd hd0 (r3 .n32 0)).wf = true := by decide

theorem witness_EncodeDecode : ∃ i, decodeWord 0x8108244022185800 = .ok i := ⟨_, rfl⟩

/-- A group at its turn, with a line of a given check whose one word waits for and allocates given tags. -/
def atWord (x : Nat) (w : BitVec 80) (tags : SMap TagSt) : State :=
  let g := { ga with tags := tags, pc := bv 64 x }
  { ready g with cores := [(0, { Core.reset with icache := [(lineKey 0 0, codeLine [w])] })] }
def busy1 : SMap TagSt := [(1, { op := none, async := true })]
/-- A load that waits for tag 1 and allocates tag 2. -/
def wLoad : BitVec 80 := 0xA04080509880000800

theorem witness_StepRunsDecoded :
    (∀ x tags, x ∈ [0, 1, 11] → (atWord x wLoad tags).railOff = false ∧ (atWord x wLoad tags).agenda = [] ∧ (atWord x wLoad tags).cur = some 0
      ∧ (atWord x wLoad tags).waiting (.fetch 0) = false ∧ (atWord x wLoad tags).waiting (.word 0) = false
      ∧ (bv 64 x).toNat / 16 % 8 = 0 ∧ (bv 64 x).toNat % 16 = x ∧ State.reset.owner ((bv 64 x).toNat / 128 * 128) ≠ .bad
      ∧ (atWord x wLoad tags).owner = State.reset.owner)
    ∧ (∀ w, ((atWord 0 w []).core 0).icache.find (lineKey 0 0) = some (codeLine [w]))
    ∧ lineOk (codeLine [wLoad]) = true ∧ lineCount (codeLine [wLoad]) = 1 ∧ lineOk 0 = false
    ∧ (codeLine [wLoad]).extractLsb' (80 * 0) 80 = wLoad ∧ (∃ e, decodeWord 0 = .error e)
    ∧ (match decodeWord wLoad with
      | .ok i => decide (i.sched.w1 = 1 ∧ i.sched.w2 = 0 ∧ i.sched.set = 2)
      | .error _ => false) = true
    ∧ SMap.wf busy1 = true ∧ SMap.find busy1 1 = some { op := none, async := true } ∧ ({ op := none, async := true } : TagSt).released = false
    ∧ (∀ t x, SMap.find ([(1, { op := none, async := false })] : SMap TagSt) t = some x → x.released = true) := by
  refine ⟨fun x tags hx => ⟨rfl, rfl, rfl, rfl, rfl, ?_⟩, fun _ => rfl, by decide +kernel, by decide +kernel, by decide +kernel, by decide +kernel,
    ⟨_, rfl⟩, by decide, by decide, by decide, by decide, fun t x h => ?_⟩
  · have h : x = 0 ∨ x = 1 ∨ x = 11 := by simpa using hx
    rcases h with rfl | rfl | rfl <;> exact ⟨by decide, by decide, by decide, rfl⟩
  · have h1 : t = 1 ∧ { op := none, async := false } = x := by
      unfold SMap.find at h
      by_cases ht : t = 1
      · subst ht
        exact ⟨rfl, Option.some.inj h⟩
      · rcases Nat.lt_or_ge t 1 with hl | hg
        · simp [hl] at h
        · simp [ht, Nat.not_lt.mpr hg, SMap.find] at h
    rw [← h1.2]
    rfl

theorem witness_StepKeepsInv : State.reset.Inv ∧ ∃ t, step State.reset = .next t := ⟨⟨by decide, by decide, by decide⟩, ⟨_, rfl⟩⟩

end Sys2Proof.Tests
end

section
/-!
SUPPORT. Rules about the state's groups and dies: what stands at a place after a group is put there or changed, what a second
write makes of the first, and what a die's use of a context descriptor leaves (R179).
-/
namespace Sys2Proof.Machine

/-- A second listing at a key replaces the first. -/
@[simp] theorem SMap.put_put {α : Type} (m : SMap α) (n : Nat) (x y : α) : (m.put n x).put n y = m.put n y := by
  induction m with
  | nil => simp [SMap.put]
  | cons z m ih =>
    obtain ⟨k, w⟩ := z
    by_cases hlt : n < k
    · simp [SMap.put, hlt]
    · by_cases heq : n = k
      · simp [SMap.put, heq]
      · simp [SMap.put, hlt, heq, ih]

/-- Nothing is taken out where nothing is listed. -/
theorem SMap.del_of_find_none {α : Type} (m : SMap α) (n : Nat) (h : m.find n = none) : m.del n = m := by
  induction m with
  | nil => rfl
  | cons z m ih =>
    obtain ⟨k, w⟩ := z
    by_cases hlt : n < k
    · simp [SMap.del, hlt]
    · by_cases heq : n = k
      · simp [SMap.find, heq] at h
      · simp only [SMap.find, hlt, heq, if_false] at h
        simp [SMap.del, hlt, heq, ih h]

/-! ## The group at a place -/

@[simp] theorem State.grp_setGrp (s : State) (p : Nat) (g : Group) : (s.setGrp p g).grp p = some g := SMap.find_put _ _ _

theorem State.grp_setGrp_ne (s : State) (p q : Nat) (g : Group) (h : q ≠ p) : (s.setGrp p g).grp q = s.grp q :=
  SMap.find_put_ne _ _ _ _ h

@[simp] theorem State.setGrp_setGrp (s : State) (p : Nat) (x y : Group) : (s.setGrp p x).setGrp p y = s.setGrp p y := by
  simp [State.setGrp]

theorem State.modGrp_of_grp (s : State) (p : Nat) (g : Group) (f : Group → Group) (h : s.grp p = some g) :
    s.modGrp p f = s.setGrp p (f g) := by
  simp [State.modGrp, h]

theorem State.modGrp_of_none (s : State) (p : Nat) (f : Group → Group) (h : s.grp p = none) : s.modGrp p f = s := by
  simp [State.modGrp, h]

theorem State.modGrp_cur (s : State) (p : Nat) (f : Group → Group) : (s.modGrp p f).cur = s.cur := by
  unfold State.modGrp
  split <;> rfl

theorem State.grp_modGrp (s : State) (p : Nat) (f : Group → Group) : (s.modGrp p f).grp p = (s.grp p).map f := by
  cases hg : s.grp p with
  | none => simp [State.modGrp_of_none s p f hg, hg]
  | some g => simp [State.modGrp_of_grp s p g f hg]

theorem State.grp_modGrp_ne (s : State) (p q : Nat) (f : Group → Group) (h : q ≠ p) : (s.modGrp p f).grp q = s.grp q := by
  cases hg : s.grp p with
  | none => rw [State.modGrp_of_none s p f hg]
  | some g => rw [State.modGrp_of_grp s p g f hg, State.grp_setGrp_ne s p q _ h]

/-! ## A die after an update, and the descriptor it holds -/

@[simp] theorem State.die_setDie (s : State) (d : Nat) (x : Die) : (s.setDie d x).die d = x := by
  unfold State.setDie State.die
  by_cases h0 : d = 0
  · simp [h0]
  · by_cases h1 : d = 1
    · simp [h1]
    · simp [h0, h1, SMap.getD, SMap.find_put]

@[simp] theorem State.die_modDie (s : State) (d : Nat) (f : Die → Die) : (s.modDie d f).die d = f (s.die d) :=
  State.die_setDie s d _

theorem State.notePoison_l2 (s : State) (d a n : Nat) : ((s.notePoison d a n).die d).l2 = (s.die d).l2 := by
  unfold State.notePoison State.cnt
  split
  · rw [State.die_modDie]
  · rfl

theorem State.notePoison_core (s : State) (d a n c : Nat) : (s.notePoison d a n).core c = s.core c := by
  unfold State.notePoison State.cnt State.core
  split
  · rw [State.modDie_cores]
  · rfl

theorem State.holdDesc_l2 (s : State) (d ctx : Nat) : ((s.holdDesc d ctx).die d).l2 = (s.die d).l2 := by
  simp only [State.holdDesc, State.die_modDie, Die.see]
  split
  · rfl
  · exact State.notePoison_l2 s d _ _

theorem State.holdDesc_desc (s : State) (d ctx : Nat) : (s.holdDesc d ctx).desc d ctx = s.desc d ctx := by
  rw [State.desc]
  simp only [State.holdDesc, State.die_modDie, SMap.find_put]

theorem State.holdDesc_core (s : State) (d ctx c : Nat) : (s.holdDesc d ctx).core c = s.core c := by
  have hcore : ∀ t : State, ∀ f, (t.modDie d f).core c = t.core c := fun t f => by
    rw [State.core, State.modDie_cores, State.core]
  simp only [State.holdDesc, hcore]
  split
  · rfl
  · exact State.notePoison_core s d _ _ c

end Sys2Proof.Machine
end

section
/-!
PROOFS. Control registers as `CSRR` reads them (R198, R199, R282, R283, R324).
-/
namespace Sys2Proof.Machine

/-! ## What each register and each word of the hidden state reads -/

/-- The number whose bits below n are those of a test. -/
def flagSum (n : Nat) (f : Nat → Bool) : Nat := ((upTo n).map (fun k => if f k = true then 2 ^ k else 0)).sum

theorem flagSum_succ (n : Nat) (f : Nat → Bool) : flagSum (n + 1) f = (if f n = true then 2 ^ n else 0) + flagSum n f := by
  simp [flagSum, upTo, List.range_succ, Nat.add_comm]

theorem ite_eq_toNat_mul (c : Bool) (n : Nat) : (if c = true then n else 0) = c.toNat * n := by
  cases c <;> simp

theorem flagSum_lt (n : Nat) (f : Nat → Bool) : flagSum n f < 2 ^ n := by
  induction n with
  | zero => simp [flagSum, upTo]
  | succ n ih =>
    rw [flagSum_succ, Nat.pow_succ]
    split <;> omega

theorem testBit_flagSum (n k : Nat) (f : Nat → Bool) (hk : k < n) : (flagSum n f).testBit k = f k := by
  induction n with
  | zero => omega
  | succ n ih =>
    have hhigh : (flagSum n f).testBit n = false := Nat.testBit_lt_two_pow (flagSum_lt n f)
    rw [flagSum_succ]
    rcases Nat.lt_succ_iff_lt_or_eq.1 hk with hlt | rfl
    · cases hf : f n with
      | false => simpa using ih hlt
      | true => simpa [Nat.testBit_two_pow_add_gt hlt] using ih hlt
    · cases hf : f k with
      | false => simpa using hhigh
      | true => simp [Nat.testBit_two_pow_add_eq, hhigh]

/-- The flags that `parkmask` shows: six tags, the store queue's head, the `TST` (R198). -/
def parkFlag (b : Bank) (k : Nat) : Bool :=
  if k = 7 then b.tst.isSome else if k = 6 then b.sqPark.isSome else b.g (259 + 4 * k) != 0

theorem parkmaskWord_eq (g : Group) (b : Bank) (hb : g.bank = some b) : parkmaskWord g = flagSum 8 (parkFlag b) := by
  have htags : ((upTo 6).map (fun k => if b.g (259 + 4 * k) = 0 then 0 else 2 ^ k)).sum = flagSum 6 (parkFlag b) := by
    refine congrArg List.sum (List.map_congr_left fun k hk => ?_)
    have hlt : k < 6 := List.mem_range.1 hk
    simp [parkFlag, show k ≠ 7 by omega, show k ≠ 6 by omega]
  simp only [parkmaskWord, hb]
  rw [htags, flagSum_succ 7, flagSum_succ 6, show parkFlag b 7 = b.tst.isSome from rfl, show parkFlag b 6 = b.sqPark.isSome from rfl]
  simp only [ite_eq_toNat_mul, Nat.add_assoc]

theorem csrHolds_parkmask (s : State) (p : Nat) (g : Group) (b : Bank) (hb : g.bank = some b) :
    csrHolds s p g .parkmask (parkmaskWord g) := by
  rw [parkmaskWord_eq g b hb]
  refine ⟨b, hb, flagSum_lt 8 _, testBit_flagSum 8 7 _ (by omega), testBit_flagSum 8 6 _ (by omega), fun k hk => ?_⟩
  rw [testBit_flagSum 8 k _ (by omega), parkFlag, if_neg (by omega), if_neg (by omega)]

theorem ownsQueues_iff (s : State) (p : Nat) (g : Group) :
    s.ownsQueues p g = true ↔ (s.core (p / 512)).qowner = some g.ctx := by
  simp [State.ownsQueues, placeCore]

theorem sum_upTo_four (f : Nat → Nat) : ((upTo 4).map f).sum = f 0 + (f 1 + (f 2 + (f 3 + 0))) := rfl

/-- The depth that `tagstate` shows of a queue: its entries where the group leads its context's queues, else 0 (R198). -/
def shownDepth (s : State) (p : Nat) (g : Group) (q : Nat) : Nat :=
  if s.qlead p g = true ∧ (s.core (p / 512)).qowner = some g.ctx then ((s.core (p / 512)).q.getD q []).length else 0

theorem csrHolds_tagstate (s : State) (p : Nat) (g : Group) (b : Bank) (hb : g.bank = some b) :
    csrHolds s p g .tagstate (tagstateWord s p g) := by
  refine ⟨b, shownDepth s p g, hb, fun _ => rfl, ?_⟩
  have hdepth : (if (s.qlead p g && s.ownsQueues p g) = true then
        ((upTo 4).map (fun q => ((s.core (placeCore p)).queue q).length * 2 ^ (10 + 5 * q))).sum else 0)
      = ((upTo 4).map (fun q => shownDepth s p g q * 2 ^ (10 + 5 * q))).sum := by
    simp only [Bool.and_eq_true, ownsQueues_iff, shownDepth]
    by_cases hl : s.qlead p g = true ∧ (s.core (p / 512)).qowner = some g.ctx
    · rw [if_pos hl]
      simp only [if_pos hl]
      rfl
    · rw [if_neg hl]
      simp only [if_neg hl]
      rw [sum_upTo_four]
      omega
  simp only [tagstateWord, hb]
  rw [hdepth, sum_upTo_four]
  omega

theorem bank_of_inTrap (g : Group) (h : g.inTrap = true) : ∃ b, g.bank = some b := Option.isSome_iff_exists.mp h

/-- Every register but `wdata` reads its fields; the banked ones stand in trap mode, which they need. -/
theorem csrHolds_csrValue (s : State) (p : Nat) (g : Group) (c : Csr) (hc : c ≠ .wdata) (ht : c.isPriv = true → g.inTrap = true) :
    csrHolds s p g c (csrValue s p g c) := by
  have hbank : c.isPriv = true → ∃ b, g.bank = some b := fun h => bank_of_inTrap g (ht h)
  cases c with
  | parkmask =>
    obtain ⟨b, hb⟩ := hbank rfl
    exact csrHolds_parkmask s p g b hb
  | tagstate =>
    obtain ⟨b, hb⟩ := hbank rfl
    exact csrHolds_tagstate s p g b hb
  | divstack =>
    obtain ⟨b, hb⟩ := hbank rfl
    exact ⟨b, hb, by simp [csrValue, hb]⟩
  | wdata => exact absurd rfl hc
  | gwidth | frm | fflags | gid | gangid | spanid | launchid | coreid | dieid | ctxid | fltgen | clock | trapcause | trapinfo
  | trappc | wsel => rfl

/-- The words of the group unit that the bank holds (R199). -/
theorem wdataIsWord_iff (k : Nat) (h : k ≠ 130) :
    wdataIsWord k = true ↔ k < 138 ∨ (144 ≤ k ∧ k < 256 ∧ (k - 144) % 7 ≠ 6) ∨ (256 ≤ k ∧ k < 318) := by
  simp only [wdataIsWord, Bool.or_eq_true, Bool.and_eq_true, decide_eq_true_eq, bne_iff_ne]
  omega

/-- A word of the group unit (R199). -/
theorem groupWordIs_wdataGroup (s : State) (p : Nat) (g : Group) (b : Bank) (hb : g.bank = some b) (k : Nat) :
    groupWordIs s p g b k (wdataGroup s p g b k) := by
  unfold groupWordIs wdataGroup
  by_cases hs : k < 48
  · simp only [if_pos hs]
  by_cases hh : 64 ≤ k ∧ k < 124
  · simp only [if_neg hs, if_pos hh, if_neg (show ¬ k < 64 by omega), if_pos hh.2]
    rw [BitVec.extractLsb'_toNat, Nat.shiftRight_eq_div_pow, show (k - 64) % 4 = k % 4 by omega]
  by_cases hl : k < 64
  · simp only [if_neg hs, if_neg hh, if_pos hl, if_pos (show k < 138 ∨ _ from .inl (by omega)), show k ≠ 128 by omega,
      show k ≠ 129 by omega, show k ≠ 130 by omega, show k ≠ 133 by omega, if_false]
  simp only [if_neg hs, if_neg hh, if_neg hl, if_neg (show ¬ k < 124 by omega)]
  by_cases h128 : k = 128
  · simp only [if_pos h128, lowW, BitVec.extractLsb'_toNat, Nat.shiftRight_zero]
  by_cases h129 : k = 129
  · have hpc := g.trappc.isLt
    simp only [if_neg h128, if_pos h129, highW, BitVec.extractLsb'_toNat, Nat.shiftRight_eq_div_pow]
    omega
  by_cases h130 : k = 130
  · have hcause := g.trapcause.isLt
    simp only [if_neg h128, if_neg h129, if_pos h130, bv, BitVec.toNat_ofNat]
    omega
  simp only [if_neg h128, if_neg h129, if_neg h130, wdataIsWord_iff k h130]
  by_cases h133 : k = 133
  · simp only [if_pos h133]
    exact ⟨_, csrHolds_tagstate s p g b hb, rfl⟩
  simp only [if_neg h133]
  split <;> rfl

/-- A word of the thread unit in a lane (R199). -/
theorem threadWordIs_wdataThread (s : State) (p : Nat) (g : Group) (b : Bank) (k i : Nat) :
    threadWordIs s p g b k i (wdataThread s p g b k i) := by
  unfold threadWordIs wdataThread
  simp only [wdataIsThread, Bool.and_eq_true, decide_eq_true_eq, ownsQueues_iff, and_assoc]
  split
  · rfl
  split
  · rw [show (s.core (placeCore p)).queue (wdataQueue k).1 = (s.core (p / 512)).q.getD ((k - 128) / 16) [] from rfl,
      show (wdataQueue k).2 = (k - 128) % 16 from rfl]
    cases ((s.core (p / 512)).q.getD ((k - 128) / 16) [])[(k - 128) % 16]? <;> rfl
  · rfl

/-- The word that a read of `wdata` finds for a lane: the one that `wsel` names (R199). -/
def wselWordAt (s : State) (p : Nat) (g : Group) (b : Bank) (i : Nat) : Word :=
  if g.wselThr then wdataThread s p g b g.wselIdx i else wdataGroup s p g b g.wselIdx

theorem wselWordAt_is (s : State) (p : Nat) (g : Group) (b : Bank) (hb : g.bank = some b) (i : Nat) :
    if g.wselThr then threadWordIs s p g b g.wselIdx i (wselWordAt s p g b i)
    else groupWordIs s p g b g.wselIdx (wselWordAt s p g b i) := by
  unfold wselWordAt
  cases g.wselThr
  · exact groupWordIs_wdataGroup s p g b hb g.wselIdx
  · exact threadWordIs_wdataThread s p g b g.wselIdx i

/-! ## The ends of a `CSRR` -/

section
variable {s : State} {p : Nat} {g : Group} {h : Hdr} {c : Csr} {d : Opd}

theorem exec_csrr_illegal (hi : s.Issues p g (.csrr h c d) (opdRegs d 1)) (hl : csrLegal g c = false) :
    exec (.csrr h c d) s = .next (s.trapsAt p g .illegal g.ir) := by
  show execCsrr h c d s = _
  rw [execCsrr, issueWord_body s p g _ _ _ _ hi]
  simp [hl, State.trapsAt]

theorem exec_csrr_value (hi : s.Issues p g (.csrr h c d) (opdRegs d 1)) (hl : csrLegal g c = true) (hw : c ≠ .wdata)
    (hf : c ≠ .fflags) :
    exec (.csrr h c d) s = .next (s.wrote p ((g.wrs (dstWr 0 d c.is64 (csrValue s p g c))).at h g.lpend.length g.npc)) := by
  show execCsrr h c d s = _
  rw [execCsrr, issueWord_body s p g _ _ _ _ hi]
  simp only [hl, Bool.not_true, Bool.false_eq_true, if_false]
  cases c with
  | wdata => exact absurd rfl hw
  | fflags => exact absurd rfl hf
  | _ => rfl

theorem resultsDone_iff (g : Group) : g.resultsDone = true ↔ g.lpend = [] ∧ ∀ t x, (t, x) ∈ g.tags → x.op = none := by
  simp [Group.resultsDone]

theorem csrLegal_fflags (g : Group) : csrLegal g .fflags = true := rfl

theorem exec_csrr_fflags (hi : s.Issues p g (.csrr h .fflags d) (opdRegs d 1)) (hd : g.resultsDone = true) :
    exec (.csrr h .fflags d) s = .next (s.wrote p ((g.wrs (dstWr 0 d false g.fflags.toNat)).at h g.lpend.length g.npc)) := by
  show execCsrr h .fflags d s = _
  rw [execCsrr, issueWord_body s p g _ _ _ _ hi]
  simp only [csrLegal_fflags, hd, Bool.not_true, Bool.false_eq_true, if_false, if_true]
  rfl

theorem exec_csrr_fflags_waits (hi : s.Issues p g (.csrr h .fflags d) (opdRegs d 1)) (hd : g.resultsDone = false) :
    exec (.csrr h .fflags d) s = .next (s.wrote p g.hold) := by
  show execCsrr h .fflags d s = _
  rw [execCsrr, issueWord_body s p g _ _ _ _ hi]
  simp only [csrLegal_fflags, hd, Bool.not_true, Bool.false_eq_true, if_false, State.modGrp_of_grp s p g _ hi.here]
  rfl

/-- The register writes of a read of `wdata`: a vector register in the threads of E, or a scalar one (R199). -/
def wdataWrites (s : State) (p : Nat) (g : Group) (b : Bank) (h : Hdr) (d : Opd) : List Wr :=
  if g.wselThr then ((maskLanes (g.exec h.guard)).map (fun i => dstWr i d false (wselWordAt s p g b i).toNat)).flatten
  else dstWr 0 d false (wselWordAt s p g b 0).toNat

theorem exec_csrr_wdata (hi : s.Issues p g (.csrr h .wdata d) (opdRegs d 1)) {b : Bank} (hb : g.bank = some b)
    (hu : g.wselThr = d.isV) (hk : g.wselIdx < wdataSize g.wselThr) :
    exec (.csrr h .wdata d) s = .next (s.wrote p (({ g.wrs (wdataWrites s p g b h d) with
      wselIdx := (g.wselIdx + 1) % 512 } : Group).at h g.lpend.length g.npc)) := by
  show execCsrr h .wdata d s = _
  rw [execCsrr, issueWord_body s p g _ _ _ _ hi]
  have hl : csrLegal g .wdata = true := by simp [csrLegal, Group.inTrap, hb]
  have hok : (decide (wdataSize g.wselThr ≤ g.wselIdx) || g.wselThr != d.isV) = false := by
    rw [Bool.or_eq_false_iff, decide_eq_false_iff_not]
    exact ⟨Nat.not_le.2 hk, by simp [hu]⟩
  simp only [hl, hb, hok, Bool.not_true, Bool.false_eq_true, if_false, State.nextWord, doneIn,
    State.modGrp_of_grp s p g _ hi.here, State.modGrp_of_grp _ p _ _ (State.grp_setGrp _ _ _), State.grp_setGrp,
    State.setGrp_setGrp, Group.wrs_wselIdx, wdataWrites, wselWordAt]
  cases g.wselThr <;> rfl

theorem exec_csrr_wdata_illegal (hi : s.Issues p g (.csrr h .wdata d) (opdRegs d 1))
    (hbad : g.wselThr ≠ d.isV ∨ wdataSize g.wselThr ≤ g.wselIdx) :
    exec (.csrr h .wdata d) s = .next (s.trapsAt p g .illegal g.ir) := by
  show execCsrr h .wdata d s = _
  rw [execCsrr, issueWord_body s p g _ _ _ _ hi]
  have hno : (decide (wdataSize g.wselThr ≤ g.wselIdx) || g.wselThr != d.isV) = true := by
    simpa [or_comm] using hbad
  simp only [hno, if_true]
  cases g.bank <;> cases csrLegal g .wdata <;> rfl

end

/-! ## The statement -/

/-- Settles O28: the ends of a `CSRR`, each with what the register or the word of the hidden state holds. -/
theorem controlReads : Obligations.ControlReads := by
  unfold Obligations.ControlReads
  intro h c d s p g hi
  have hlegal : csrLegal g c = true ↔ (c.isPriv = true → g.inTrap = true) := by
    cases hp : c.isPriv <;> simp [csrLegal, hp]
  refine ⟨fun hp ht => exec_csrr_illegal hi (by simp [csrLegal, hp, ht]), fun hm => ⟨?_, ?_, ?_, ?_, ?_⟩⟩
  · intro hw hf
    exact ⟨_, csrHolds_csrValue s p g c hw hm, exec_csrr_value hi (hlegal.2 hm) hw hf⟩
  · rintro rfl htags hl
    exact exec_csrr_fflags hi ((resultsDone_iff g).2 ⟨hl, htags⟩)
  · rintro rfl hl
    refine exec_csrr_fflags_waits hi ?_
    rw [Bool.eq_false_iff, Ne, resultsDone_iff]
    exact fun hd => hl hd.1
  · rintro b rfl hb hu hk
    exact ⟨wselWordAt s p g b, wselWordAt_is s p g b hb, exec_csrr_wdata hi hb hu hk⟩
  · rintro rfl hbad
    exact exec_csrr_wdata_illegal hi hbad

end Sys2Proof.Machine
end

section
/-!
PROOFS. A line of code read at its home into the instruction cache (R11, R260, R263).
-/
namespace Sys2Proof.Machine

/-! ## A request for a line that stands at its home -/

section
variable {s : State} {d ctx va : Nat} {hl : HomeLine}

theorem homeLine_of_holds {acc : AccK} (h : s.Holds d ctx va acc hl) :
    homeLine s d false ctx va acc = .ok (s.holdDesc d ctx) (.line hl) := by
  simp [homeLine, State.holdDesc_desc, State.holdDesc_l2, h.enabled, h.line, h.permits, h.known]

theorem atHome_of_holds {acc : AccK} (h : s.Holds d ctx va acc hl) :
    atHome s ctx va acc = .ok (s.holdDesc d ctx) (d, .line hl) := by
  simp [atHome, h.owner, homeLine_of_holds h, Ans.andThen]

/-- A unit's read of a line that no core owns finds its bytes there. -/
theorem unitRead_of_holds {acc : AccK} (h : s.Holds d ctx va acc hl) (ho : hl.owner = none) (hp : hl.poison = false) :
    unitRead s ctx va acc = .ok (s.holdDesc d ctx) ({ data := hl.data, absent := false }, hl.w) := by
  simp [unitRead, atHome_of_holds h, Ans.andThen, unowned, ho, hp]

theorem fetchCode_of_holds {c : Nat} (h : s.Holds d ctx va .fetch hl) (ho : hl.owner = none) (hp : hl.poison = false)
    (hm : (s.core c).icache.find (lineKey ctx va) = none) :
    fetchCode s c ctx va = .ok ((s.holdDesc d ctx).putCode c ctx va hl.data) hl.data := by
  simp [fetchCode, hm, h.owner, unitRead_of_holds h ho hp, Ans.andThen]

end

/-! ## The instruction cache -/

theorem State.putCode_of_room (s : State) (c ctx va : Nat) (x : Line) (hm : (s.core c).icache.find (lineKey ctx va) = none)
    (hr : (s.core c).icache.length < 1536) :
    s.putCode c ctx va x = s.modCore c (fun k => { k with icache := k.icache.put (lineKey ctx va) x }) := by
  simp only [State.putCode, SMap.del_of_find_none _ _ hm, Config.icacheLines, if_pos hr]
  rfl

theorem State.putCode_of_full (s : State) (c ctx va : Nat) (x : Line) (hm : (s.core c).icache.find (lineKey ctx va) = none)
    (hr : 1536 ≤ (s.core c).icache.length) :
    ∃ v : Nat, s.putCode c ctx va x
      = { s with fresh := s.fresh + 1 }.modCore c (fun k => { k with icache := (k.icache.del v).put (lineKey ctx va) x }) := by
  simp only [State.putCode, SMap.del_of_find_none _ _ hm, Config.icacheLines, if_neg (Nat.not_lt.2 hr)]
  exact ⟨_, rfl⟩

theorem exec_instructionFetch_of_holds {s : State} {p d : Nat} {g : Group} {hl : HomeLine} (hg : s.grp p = some g)
    (hw : g.wantsWord = true) (hf : s.waiting (.fetch p) = false) (hpc : pcFormOk g.pc = true)
    (h : s.Holds d g.ctx (pcLine g.pc) .fetch hl) (ho : hl.owner = none) (hp : hl.poison = false)
    (hm : (s.core (placeCore p)).icache.find (lineKey g.ctx (pcLine g.pc)) = none) :
    exec (.instructionFetch p) s = .next ((s.holdDesc d g.ctx).putCode (placeCore p) g.ctx (pcLine g.pc) hl.data) := by
  show execInstructionFetch p s = _
  simp [execInstructionFetch, hg, hw, hf, hpc, hm, h.owner, fetchCode_of_holds h ho hp hm]

end Sys2Proof.Machine
end

section
/-!
PROOFS. The turn of a pipe: its candidates, the choice among them, the scalar unit's grant, the ages (R57 to R60).
-/
namespace Sys2Proof.Machine

/-! ## The groups of a pipe -/

theorem mem_onPipe (s : State) (k p : Nat) (g : Group) :
    (p, g) ∈ s.onPipe k ↔ placePipeKey p = k ∧ s.grp p = some g := by
  simp only [State.onPipe, upTo, List.mem_filterMap, List.mem_range, Option.map_eq_some_iff, Prod.mk.injEq, placePipeKey]
  constructor
  · rintro ⟨j, hj, g', hg, rfl, rfl⟩
    exact ⟨by omega, hg⟩
  · rintro ⟨rfl, hg⟩
    exact ⟨p % 4, by omega, g, by rw [Nat.div_add_mod]; exact hg, Nat.div_add_mod p 4, rfl⟩

theorem onPipe_rising (s : State) (k : Nat) : (s.onPipe k).Pairwise (fun x y => x.1 < y.1) := by
  refine List.Pairwise.filterMap _ ?_ List.pairwise_lt_range
  intro i j hij x hx y hy
  obtain ⟨_, _, rfl⟩ := Option.map_eq_some_iff.1 hx
  obtain ⟨_, _, rfl⟩ := Option.map_eq_some_iff.1 hy
  simp only
  omega

/-! ## Candidates -/

/-- A candidate's place and group. -/
def Cand.here (x : Cand) : Nat × Group := (x.p, x.g)

/-- One look of a pipe at one of its groups. -/
def lookStep (r : State × List Cand) (x : Nat × Group) : State × List Cand :=
  match r.1.look x.1 with
  | .can u => (r.1, r.2 ++ [{ p := x.1, g := x.2, uni := u }])
  | .held t => (t, r.2)

theorem lookAll_eq (s : State) (k : Nat) :
    s.lookAll k = if !s.coreRuns (k / 128) then (s, []) else ((s.onPipe k).filter s.wants).foldl lookStep (s, []) := rfl

/-- A look leaves whose turn it is. -/
theorem look_held_cur (s t : State) (p : Nat) (h : s.look p = .held t) : t.cur = s.cur := by
  unfold State.look at h
  dsimp only at h
  split at h
  · cases h
  · cases h; rfl
  · split at h
    · cases h
    · split at h
      · cases h; rfl
      · cases h

theorem foldl_lookStep_cur (xs : List (Nat × Group)) (r : State × List Cand) : (xs.foldl lookStep r).1.cur = r.1.cur := by
  induction xs generalizing r with
  | nil => rfl
  | cons x xs ih =>
    rw [List.foldl_cons, ih]
    cases hx : r.1.look x.1 with
    | can u => simp [lookStep, hx]
    | held t => simp [lookStep, hx, look_held_cur _ _ _ hx]

/-- Looks at words that can issue leave the state. -/
theorem foldl_lookStep_can (xs : List (Nat × Group)) (r : State × List Cand) (h : ∀ x ∈ xs, ∃ u, r.1.look x.1 = .can u) :
    (xs.foldl lookStep r).1 = r.1 := by
  induction xs generalizing r with
  | nil => rfl
  | cons x xs ih =>
    obtain ⟨u, hu⟩ := h x List.mem_cons_self
    have hstate : (lookStep r x).1 = r.1 := by simp [lookStep, hu]
    rw [List.foldl_cons, ih _ (fun y hy => hstate ▸ h y (List.mem_cons_of_mem _ hy)), hstate]

/-- The candidates found are among the groups looked at, in their order. -/
theorem foldl_lookStep_sublist (xs : List (Nat × Group)) (r : State × List Cand) :
    ((xs.foldl lookStep r).2.map Cand.here).Sublist (r.2.map Cand.here ++ xs) := by
  induction xs generalizing r with
  | nil => simp
  | cons x xs ih =>
    rw [List.foldl_cons]
    refine (ih _).trans ?_
    cases hx : r.1.look x.1 with
    | can u => simp [lookStep, hx, Cand.here]
    | held t => simp [lookStep, hx]

theorem lookAll_cur (s : State) (k : Nat) : (s.lookAll k).1.cur = s.cur := by
  rw [lookAll_eq]
  split
  · rfl
  · exact foldl_lookStep_cur _ _

theorem lookAll_of_can (s : State) (k : Nat) (h : ∀ x ∈ s.onPipe k, s.wants x = true → ∃ u, s.look x.1 = .can u) :
    (s.lookAll k).1 = s := by
  rw [lookAll_eq]
  split
  · rfl
  · exact foldl_lookStep_can _ _ (fun x hx => h x (List.mem_filter.1 hx).1 (List.mem_filter.1 hx).2)

theorem unyielded_sublist (xs : List Cand) : (unyielded xs).Sublist xs := by
  unfold unyielded
  split
  · exact List.filter_sublist
  · exact List.Sublist.refl _

/-- One that yielded is a candidate only alone (R59). -/
theorem unyielded_of_yielded (xs : List Cand) (x : Cand) (hx : x ∈ unyielded xs) (hy : x.g.yielded = true) : unyielded xs = [x] := by
  unfold unyielded at hx ⊢
  split at hx
  · simp [hy] at hx
  · next hlen =>
    rw [if_neg hlen]
    match xs, hx, hlen with
    | [y], hx, _ => rw [List.mem_singleton.1 hx]
    | y :: z :: ys, _, hlen => simp at hlen

theorem candidates_sublist (s : State) (k : Nat) : ((s.candidates k).map Cand.here).Sublist ((s.onPipe k).filter s.wants) := by
  refine ((unyielded_sublist _).map _).trans ?_
  rw [lookAll_eq]
  split
  · simp
  · exact foldl_lookStep_sublist _ (s, [])

theorem candidates_rising (s : State) (k : Nat) : (s.candidates k).Pairwise (fun x y => x.p < y.p) :=
  (List.pairwise_map (f := Cand.here) (R := fun x y => x.1 < y.1)).1
    ((onPipe_rising s k).sublist ((candidates_sublist s k).trans List.filter_sublist))

theorem candidate_here (s : State) (k : Nat) (x : Cand) (hx : x ∈ s.candidates k) :
    s.grp x.p = some x.g ∧ placePipeKey x.p = k ∧ s.wants (x.p, x.g) = true := by
  have hmem := (candidates_sublist s k).subset (List.mem_map_of_mem hx)
  obtain ⟨hpipe, hwants⟩ := List.mem_filter.1 hmem
  obtain ⟨hk, hg⟩ := (mem_onPipe s k x.p x.g).1 hpipe
  exact ⟨hg, hk, hwants⟩

theorem eq_of_place_of_rising (xs : List Cand) (hs : xs.Pairwise (fun x y => x.p < y.p)) (x y : Cand) (hx : x ∈ xs) (hy : y ∈ xs)
    (h : x.p = y.p) : x = y :=
  List.inj_on_of_nodup_map (f := Cand.p) ((List.pairwise_map.2 hs).imp Nat.ne_of_lt) hx hy h

/-! ## The choice of R58 -/

theorem firstBy_mem (f : Cand → Cand → Bool) (xs : List Cand) (x : Cand) (h : firstBy f xs = some x) : x ∈ xs := by
  induction xs generalizing x with
  | nil => cases h
  | cons y ys ih =>
    unfold firstBy at h
    cases hr : firstBy f ys with
    | none =>
      rw [hr] at h
      cases h
      exact List.mem_cons_self
    | some z =>
      simp only [hr] at h
      split at h <;> cases h
      · exact List.mem_cons_of_mem _ (ih _ hr)
      · exact List.mem_cons_self

/-- What goes before all that stand ahead of it, and lets none behind go before it, comes first. -/
theorem firstBy_append_cons (f : Cand → Cand → Bool) (l r : List Cand) (x : Cand) (hl : ∀ y ∈ l, f x y = true)
    (hr : ∀ y ∈ r, f y x = false) : firstBy f (l ++ x :: r) = some x := by
  induction l with
  | nil =>
    rw [List.nil_append, firstBy]
    cases h : firstBy f r with
    | none => rfl
    | some y => simp [hr y (firstBy_mem f r y h)]
  | cons y l ih =>
    rw [List.cons_append, firstBy, ih (fun z hz => hl z (List.mem_cons_of_mem _ hz))]
    simp [hl y List.mem_cons_self]

section
variable {xs : List Cand} {x : Cand} (hs : xs.Pairwise (fun x y => x.p < y.p)) (hx : x ∈ xs)
include hs hx

theorem chooseGroup_of_before (hl : ∀ y ∈ xs, y.p < x.p → x.before y = true) (hr : ∀ y ∈ xs, x.p < y.p → y.before x = false) :
    chooseGroup xs = some x := by
  obtain ⟨l, r, rfl⟩ := List.append_of_mem hx
  obtain ⟨-, htail, hcross⟩ := List.pairwise_append.1 hs
  refine firstBy_append_cons _ l r x (fun y hy => ?_) (fun y hy => ?_)
  · exact hl y (List.mem_append_left _ hy) (hcross y hy x List.mem_cons_self)
  · exact hr y (List.mem_append_right _ (List.mem_cons_of_mem _ hy)) ((List.pairwise_cons.1 htail).1 y hy)

/-- The one candidate that the lowest rule names is chosen. -/
theorem chooseGroup_of_rule (h : ∀ y ∈ xs, y.p ≠ x.p → x.rule < y.rule) : chooseGroup xs = some x := by
  refine chooseGroup_of_before hs hx (fun y hy hlt => ?_) (fun y hy hlt => ?_)
  · simp [Cand.before, h y hy (Nat.ne_of_lt hlt)]
  · have hrule := h y hy (Nat.ne_of_gt hlt)
    simp [Cand.before, Nat.not_lt.2 (Nat.le_of_lt hrule), Nat.ne_of_gt hrule]

/-- Rule 1: the group that reached age 64 first. -/
theorem chooseGroup_of_oldest (ha : x.g.age = 64)
    (h : ∀ y ∈ xs, y.g.age = 64 → y.p ≠ x.p → x.g.aged < y.g.aged ∨ (x.g.aged = y.g.aged ∧ x.p < y.p)) :
    chooseGroup xs = some x := by
  have hrule : x.rule = 1 := by simp [Cand.rule, ha]
  have hother : ∀ y : Cand, y.g.age = 64 ∧ y.rule = 1 ∨ 1 < y.rule := fun y => by
    unfold Cand.rule
    split
    · exact .inl ⟨‹_›, rfl⟩
    · right
      split
      · omega
      · split <;> omega
  refine chooseGroup_of_before hs hx (fun y hy hlt => ?_) (fun y hy hlt => ?_)
  · rcases hother y with ⟨hy64, hy1⟩ | hy1
    · have := h y hy hy64 (Nat.ne_of_lt hlt)
      simp only [Cand.before, hrule, hy1, Bool.or_eq_true, Bool.and_eq_true, decide_eq_true_eq, beq_self_eq_true, true_and]
      omega
    · simp [Cand.before, hrule, hy1]
  · rcases hother y with ⟨hy64, hy1⟩ | hy1
    · have := h y hy hy64 (Nat.ne_of_gt hlt)
      simp only [Cand.before, hrule, hy1, Bool.or_eq_false_iff, Bool.and_eq_false_iff, decide_eq_false_iff_not]
      omega
    · simp only [Cand.before, hrule, Bool.or_eq_false_iff, Bool.and_eq_false_iff, decide_eq_false_iff_not, beq_eq_false_iff_ne]
      omega

section
variable (ha : ∀ y ∈ xs, y.g.age ≠ 64)
include ha

theorem chooseGroup_of_walker (hk : x.g.kind = .walker) (h : ∀ y ∈ xs, y.g.kind = .walker → y.p = x.p) : chooseGroup xs = some x := by
  refine chooseGroup_of_rule hs hx (fun y hy hne => ?_)
  have hky : y.g.kind ≠ .walker := fun hky => hne (h y hy hky)
  simp only [Cand.rule, ha x hx, ha y hy, hk, hky, if_false, if_true]
  split <;> omega

theorem chooseGroup_of_reel (hw : ∀ y ∈ xs, y.g.kind ≠ .walker) (hk : x.g.kind = .reel)
    (h : ∀ y ∈ xs, y.g.kind = .reel → y.p = x.p) : chooseGroup xs = some x := by
  refine chooseGroup_of_rule hs hx (fun y hy hne => ?_)
  have hky : y.g.kind ≠ .reel := fun hky => hne (h y hy hky)
  simp [Cand.rule, ha x hx, ha y hy, hw y hy, hk, hky]

theorem chooseGroup_of_prio (hw : ∀ y ∈ xs, y.g.kind ≠ .walker) (hk : ∀ y ∈ xs, y.g.kind ≠ .reel)
    (h : ∀ y ∈ xs, y.p ≠ x.p → y.g.prio < x.g.prio
      ∨ (x.g.prio = y.g.prio ∧ (y.g.age < x.g.age ∨ (x.g.age = y.g.age ∧ x.p < y.p)))) : chooseGroup xs = some x := by
  have hrule : ∀ y ∈ xs, y.rule = 4 := fun y hy => by simp [Cand.rule, ha y hy, hw y hy, hk y hy]
  refine chooseGroup_of_before hs hx (fun y hy hlt => ?_) (fun y hy hlt => ?_)
  · have := h y hy (Nat.ne_of_lt hlt)
    simp only [Cand.before, hrule x hx, hrule y hy, Bool.or_eq_true, Bool.and_eq_true, decide_eq_true_eq, beq_iff_eq, true_and]
    omega
  · have := h y hy (Nat.ne_of_gt hlt)
    simp only [Cand.before, hrule x hx, hrule y hy, Bool.or_eq_false_iff, Bool.and_eq_false_iff, decide_eq_false_iff_not,
      beq_eq_false_iff_ne]
    omega

end
end

/-! ## The scalar unit (R60) -/

theorem award_mem (s : State) (n : Nat) (xs : List Cand) (x : Cand) (h : (s.award n xs).1 = some x) : x ∈ xs := by
  induction n generalizing xs with
  | zero => cases h
  | succ n ih =>
    unfold State.award at h
    cases hc : chooseGroup xs with
    | none => simp [hc] at h
    | some y =>
      simp only [hc] at h
      split at h
      · cases h
        exact firstBy_mem _ _ _ hc
      · exact (List.mem_filter.1 (ih _ h)).1

theorem award_of_chosen (s : State) (n : Nat) (xs : List Cand) (x : Cand) (hc : chooseGroup xs = some x)
    (h : x.uni = false ∨ s.grants x = true) : (s.award (n + 1) xs).1 = some x := by
  have hgo : (!x.uni || s.grants x) = true := by rcases h with h | h <;> simp [h]
  simp [State.award, hc, hgo]

theorem mem_scalarOrder_self (s : State) (k : Nat) : k ∈ s.scalarOrder k := by
  simp only [State.scalarOrder, upTo, List.mem_map, List.mem_range]
  generalize (s.core (k / 128)).scalar.getD (k / 32) 31 = last
  exact ⟨(k % 32 + 32 - (last + 1) % 32) % 32, by omega, by omega⟩

theorem slice_of_mem_scalarOrder (s : State) (j k : Nat) (h : j ∈ s.scalarOrder k) : j / 32 = k / 32 := by
  simp only [State.scalarOrder, upTo, List.mem_map, List.mem_range] at h
  obtain ⟨i, -, rfl⟩ := h
  omega

theorem firstBy_of_all_eq (f : Cand → Cand → Bool) (xs : List Cand) (x : Cand) (hne : xs ≠ []) (h : ∀ y ∈ xs, y = x) :
    firstBy f xs = some x := by
  cases hf : firstBy f xs with
  | none =>
    cases xs with
    | nil => exact absurd rfl hne
    | cons y ys =>
      unfold firstBy at hf
      split at hf
      · cases hf
      · split at hf <;> cases hf
  | some y => rw [h y (firstBy_mem f xs y hf)]

/-- A uniform word is granted where no other pipe of the slice presents one. -/
theorem grants_of_alone (s : State) (x : Cand) (h : ∀ j y, j ≠ placePipeKey x.p → j / 32 = placePipeKey x.p / 32 →
    chooseGroup (s.candidates j) = some y → y.uni = false) : s.grants x = true := by
  have hself : x ∈ s.presented x :=
    List.mem_filterMap.2 ⟨placePipeKey x.p, mem_scalarOrder_self s _, if_pos rfl⟩
  have honly : ∀ y ∈ s.presented x, y = x := by
    intro y hy
    obtain ⟨j, hj, hjy⟩ := List.mem_filterMap.1 hy
    by_cases hk : j = placePipeKey x.p
    · rw [if_pos hk] at hjy
      exact (Option.some.inj hjy).symm
    · rw [if_neg hk] at hjy
      obtain ⟨hc, hu⟩ := Option.filter_eq_some_iff.1 hjy
      rw [h j y hk (slice_of_mem_scalarOrder s j _ hj) hc] at hu
      cases hu
  rw [State.grants, firstBy_of_all_eq _ _ x (List.ne_nil_of_mem hself) honly]
  exact beq_self_eq_true _

/-! ## What a turn leaves -/

/-- Groups changed one after the other, each as its place says. -/
def State.modEach (s : State) (xs : List (Nat × Group)) (f : Nat → Group → Group) : State :=
  xs.foldl (fun t x => t.modGrp x.1 (f x.1)) s

theorem State.modEach_cur (s : State) (xs : List (Nat × Group)) (f : Nat → Group → Group) : (s.modEach xs f).cur = s.cur := by
  unfold State.modEach
  induction xs generalizing s with
  | nil => rfl
  | cons x xs ih => rw [List.foldl_cons, ih, State.modGrp_cur]

theorem State.modEach_grp_of_not_mem (s : State) (xs : List (Nat × Group)) (f : Nat → Group → Group) (p : Nat)
    (h : p ∉ xs.map Prod.fst) : (s.modEach xs f).grp p = s.grp p := by
  unfold State.modEach
  induction xs generalizing s with
  | nil => rfl
  | cons x xs ih =>
    simp only [List.map_cons, List.mem_cons, not_or] at h
    rw [List.foldl_cons, ih _ h.2, State.grp_modGrp_ne _ _ _ _ h.1]

theorem State.modEach_grp_of_mem (s : State) (xs : List (Nat × Group)) (f : Nat → Group → Group) (p : Nat)
    (hs : xs.Pairwise (fun x y => x.1 < y.1)) (h : p ∈ xs.map Prod.fst) : (s.modEach xs f).grp p = (s.grp p).map (f p) := by
  induction xs generalizing s with
  | nil => cases h
  | cons x xs ih =>
    obtain ⟨hfirst, hrest⟩ := List.pairwise_cons.1 hs
    show ((s.modGrp x.1 (f x.1)).modEach xs f).grp p = _
    by_cases hp : p = x.1
    · subst hp
      have hnot : x.1 ∉ xs.map Prod.fst := fun hmem => by
        obtain ⟨y, hy, hyx⟩ := List.mem_map.1 hmem
        exact absurd (hfirst y hy) (by omega)
      rw [State.modEach_grp_of_not_mem _ _ _ _ hnot, State.grp_modGrp]
    · have hmem : p ∈ xs.map Prod.fst := by simpa [hp] using h
      rw [ih _ hrest hmem, State.grp_modGrp_ne _ _ _ _ hp]

section
variable (s : State) (k : Nat)

/-- The candidate that a turn of the pipe chooses, if one. -/
def State.winner : Option Cand := (s.award 4 (s.candidates k)).1
/-- The places that a turn refuses. -/
def State.refusals : List Nat := (s.award 4 (s.candidates k)).2

/-- What a turn makes of the group at a place of the pipe. -/
def State.turned (p : Nat) (g : Group) : Group :=
  g.afterTurn s.seq (((s.winner k).toList.map (·.p)).contains p) (((s.candidates k).map (·.p)).contains p) ((s.refusals k).contains p)

/-- The state before the turn names its winner: what the looks leave, with the pipe's groups after their turn. -/
def State.agedState : State := (s.lookAll k).1.tick.modEach (s.onPipe k) (s.turned k)

theorem issueTurn_eq : s.issueTurn k = match s.winner k with
    | some x => { (if x.uni then (s.agedState k).modCore (k / 128) (fun c => { c with scalar := c.scalar.put (k / 32) (k % 32) })
        else s.agedState k) with cur := some x.p }
    | none => s.agedState k := rfl

theorem agedState_cur : (s.agedState k).cur = s.cur := by
  rw [State.agedState, State.modEach_cur, State.tick_cur, lookAll_cur]

theorem issueTurn_cur (h : s.cur = none) : (s.issueTurn k).cur = (s.winner k).map (·.p) := by
  rw [issueTurn_eq]
  cases s.winner k with
  | none => exact (agedState_cur s k).trans h
  | some x => rfl

theorem issueTurn_groups : (s.issueTurn k).groups = (s.agedState k).groups := by
  rw [issueTurn_eq]
  cases s.winner k with
  | none => rfl
  | some x =>
    show (if x.uni = true then _ else s.agedState k : State).groups = _
    split <;> rfl

theorem issueTurn_grp_of_pipe (p : Nat) (hk : placePipeKey p = k) (hp : s.grp p ≠ none) :
    (s.issueTurn k).grp p = ((s.lookAll k).1.grp p).map (s.turned k p) := by
  obtain ⟨g, hg⟩ := Option.ne_none_iff_exists'.1 hp
  have hmem : p ∈ (s.onPipe k).map Prod.fst := List.mem_map.2 ⟨(p, g), (mem_onPipe s k p g).2 ⟨hk, hg⟩, rfl⟩
  rw [State.grp, issueTurn_groups]
  exact State.modEach_grp_of_mem _ _ _ p (onPipe_rising s k) hmem

theorem issueTurn_grp_of_other (p : Nat) (hk : placePipeKey p ≠ k) : (s.issueTurn k).grp p = (s.lookAll k).1.grp p := by
  have hmem : p ∉ (s.onPipe k).map Prod.fst := fun h => by
    obtain ⟨⟨q, g⟩, hq, rfl⟩ := List.mem_map.1 h
    exact hk ((mem_onPipe s k q g).1 hq).1
  rw [State.grp, issueTurn_groups]
  exact State.modEach_grp_of_not_mem _ _ _ p hmem

/-- The scalar unit of the slice remembers the pipe that it granted last (R60). -/
theorem issueTurn_scalar (x : Cand) (hw : s.winner k = some x) (hu : x.uni = true) :
    ((s.issueTurn k).core (k / 128)).scalar.find (k / 32) = some (k % 32) := by
  have hcore : ∀ (t : State) (c : Nat) (y : Core), y ≠ Core.reset → (t.setCore c y).core c = y := fun t c y hy => by
    simp [State.setCore, State.core, SMap.setD, hy, SMap.getD, SMap.find_put]
  have hput : ∀ m : SMap Nat, (m.put (k / 32) (k % 32)).find (k / 32) = some (k % 32) := fun m => SMap.find_put _ _ _
  have hne : { (s.agedState k).core (k / 128) with scalar := ((s.agedState k).core (k / 128)).scalar.put (k / 32) (k % 32) }
      ≠ Core.reset := fun heq => by
    have hfind := hput ((s.agedState k).core (k / 128)).scalar
    rw [show ((s.agedState k).core (k / 128)).scalar.put (k / 32) (k % 32) = [] from congrArg Core.scalar heq] at hfind
    cases hfind
  rw [issueTurn_eq, hw]
  simp only [hu, if_true]
  show (((s.agedState k).setCore (k / 128) _).core (k / 128)).scalar.find (k / 32) = _
  rw [hcore _ _ _ hne]
  exact hput _

end

/-! ## Ages and readiness after a turn (R57 to R60) -/

section
variable (g : Group) (now : Nat) (chosen candidate refused : Bool)

theorem afterTurn_frame : g.afterTurn now chosen candidate refused =
    { g with
      age := (g.afterTurn now chosen candidate refused).age
      aged := (g.afterTurn now chosen candidate refused).aged
      yielded := false
      st := (g.afterTurn now chosen candidate refused).st } := rfl

theorem afterTurn_chosen : (g.afterTurn now true candidate refused).age = 0 := rfl

theorem afterTurn_refused : (g.afterTurn now false candidate true).age = g.age ∧ (g.afterTurn now false candidate true).st = .waiting := by
  simp [Group.afterTurn]

theorem afterTurn_candidate :
    (g.afterTurn now false true false).age = min 64 (g.age + 1) ∧ (g.afterTurn now false true false).st = .ready := by
  simp [Group.afterTurn]

theorem afterTurn_other : (g.afterTurn now false false false).age = g.age ∧ (g.afterTurn now false false false).st = g.st := by
  simp [Group.afterTurn]

theorem afterTurn_aged (h : (g.afterTurn now chosen candidate refused).age = 64) (hlt : g.age < 64) :
    (g.afterTurn now chosen candidate refused).aged = now := by
  have hnow : (decide ((g.afterTurn now chosen candidate refused).age = 64) && decide (g.age < 64)) = true := by simp [h, hlt]
  exact if_pos hnow

end

section
variable (s : State) (k p : Nat) (g : Group)

/-- What becomes of a group of the pipe, by what the turn made of its place. -/
theorem turned_spec (hc : s.cur = none) :
    ((s.issueTurn k).cur = some p → (s.turned k p g).age = 0)
    ∧ ((s.issueTurn k).cur ≠ some p → p ∈ s.refusals k → (s.turned k p g).age = g.age ∧ (s.turned k p g).st = .waiting)
    ∧ ((s.issueTurn k).cur ≠ some p → p ∉ s.refusals k → (∃ x ∈ s.candidates k, x.p = p) →
      (s.turned k p g).age = min 64 (g.age + 1) ∧ (s.turned k p g).st = .ready)
    ∧ ((s.issueTurn k).cur ≠ some p → p ∉ s.refusals k → (∀ x ∈ s.candidates k, x.p ≠ p) →
      (s.turned k p g).age = g.age ∧ (s.turned k p g).st = g.st) := by
  have hchosen : ((s.winner k).toList.map (·.p)).contains p = decide ((s.issueTurn k).cur = some p) := by
    rw [issueTurn_cur s k hc]
    cases s.winner k with
    | none => rfl
    | some x => simp [eq_comm]
  have hcand : ((s.candidates k).map (·.p)).contains p = decide (∃ x ∈ s.candidates k, x.p = p) := by
    rw [List.contains_eq_mem]
    exact decide_eq_decide.2 List.mem_map
  simp only [State.turned, hchosen, hcand, List.contains_eq_mem]
  refine ⟨fun h => ?_, fun h hr => ?_, fun h hr hx => ?_, fun h hr hx => ?_⟩
  · simp only [h, decide_true]
    exact afterTurn_chosen g _ _ _
  · simp only [h, hr, decide_true, decide_false]
    exact afterTurn_refused g _ _
  · simp only [h, hr, hx, decide_true, decide_false]
    exact afterTurn_candidate g _
  · have hx' : ¬ ∃ x ∈ s.candidates k, x.p = p := fun ⟨x, hm, he⟩ => hx x hm he
    simp only [h, hr, hx', decide_false]
    exact afterTurn_other g _

end

/-- The candidate that R58 names has the turn where its word may issue. -/
theorem issueTurn_cur_of_chosen (s : State) (k : Nat) (x : Cand) (hc : s.cur = none) (hx : chooseGroup (s.candidates k) = some x)
    (h : x.uni = false ∨ s.grants x = true) : (s.issueTurn k).cur = some x.p := by
  have hw : s.winner k = some x := award_of_chosen s 3 _ x hx h
  rw [issueTurn_cur s k hc, hw]
  rfl

theorem winner_of_cur (s : State) (k : Nat) (p : Nat) (hc : s.cur = none) (h : (s.issueTurn k).cur = some p) :
    ∃ x ∈ s.candidates k, x.p = p ∧ s.winner k = some x := by
  rw [issueTurn_cur s k hc] at h
  obtain ⟨x, hw, hp⟩ := Option.map_eq_some_iff.1 h
  exact ⟨x, award_mem s 4 _ x hw, hp, hw⟩

theorem exec_issueTurn (s : State) (k : Nat) (hc : s.cur = none) : exec (.issueTurn k) s = .next (s.issueTurn k) := by
  show execIssueTurn k s = _
  simp [execIssueTurn, hc]

/-- Settles O41: the fetch of a line that stands at its home; a turn's winner, ages and scalar unit; a grant without a rival. -/
theorem fetchAndTurn : Obligations.FetchAndTurn := by
  unfold Obligations.FetchAndTurn
  refine ⟨?fetch, ?turn, fun s x h => grants_of_alone s x h⟩
  case fetch =>
    intro s p d g hl hg hw hf hpc h ho hp hm
    rw [exec_instructionFetch_of_holds hg hw hf hpc h ho hp hm]
    rw [← State.holdDesc_core s d g.ctx] at hm ⊢
    refine ⟨fun hroom => ?_, fun hfull => ?_⟩
    · rw [State.putCode_of_room _ _ _ _ _ hm hroom]
    · obtain ⟨v, hv⟩ := State.putCode_of_full _ _ _ _ hl.data hm hfull
      exact ⟨v, by rw [hv]⟩
  case turn =>
    rintro s s1 k xs refused hc rfl rfl rfl
    refine ⟨s.issueTurn k, exec_issueTurn s k hc, lookAll_of_can s k, fun x hx => ?here, fun p hp => ?won, fun p g hk hp hg => ?pipe,
      fun p hk => issueTurn_grp_of_other s k p hk, fun x hx hgo => ?choice⟩
    case here =>
      obtain ⟨hg, hk, hwants⟩ := candidate_here s k x hx
      exact ⟨hg, hk, hwants, unyielded_of_yielded _ x hx⟩
    case won =>
      obtain ⟨x, hx, hxp, -⟩ := winner_of_cur s k p hc hp
      exact ⟨x, hx, hxp⟩
    case pipe =>
      obtain ⟨hchosen, hrefused, hcand, hother⟩ := turned_spec s k p g hc
      refine ⟨s.turned k p g, ?_, afterTurn_frame g _ _ _ _, hchosen, hrefused, hcand, hother, afterTurn_aged g _ _ _ _⟩
      rw [issueTurn_grp_of_pipe s k p hk hp, hg]
      rfl
    case choice =>
      have hs := candidates_rising s k
      refine ⟨fun ha h => ?_, fun ha => ⟨fun hw h => ?_, fun hw => ⟨fun hr h => ?_, fun hr h => ?_⟩⟩, fun hcur hu => ?_⟩
      · exact issueTurn_cur_of_chosen s k x hc (chooseGroup_of_oldest hs hx ha h) hgo
      · exact issueTurn_cur_of_chosen s k x hc (chooseGroup_of_walker hs hx ha hw h) hgo
      · exact issueTurn_cur_of_chosen s k x hc (chooseGroup_of_reel hs hx ha hw hr h) hgo
      · exact issueTurn_cur_of_chosen s k x hc (chooseGroup_of_prio hs hx ha hw hr h) hgo
      · obtain ⟨y, hy, hyx, hwin⟩ := winner_of_cur s k x.p hc hcur
        obtain rfl := eq_of_place_of_rising _ hs y x hy hx hyx
        exact issueTurn_scalar s k y hwin hu

end Sys2Proof.Machine
end

section
/-!
SUPPORT. Bytes of lines and of the accesses that store them, and memories after a run of bytes is written (R2, R156, R383).
-/
namespace Sys2Proof.Machine

/-! ## Bytes of a line -/

theorem getLsbD_lineByte (x : Line) (j i : Nat) : (lineByte x j).getLsbD i = (decide (i < 8) && x.getLsbD (8 * j + i)) := by
  simp [lineByte]

theorem getLsbD_linePut_one (x : Line) (k v b : Nat) (hb : b < 1024) :
    (linePut x k 1 v).getLsbD b = if 8 * k ≤ b ∧ b < 8 * k + 8 then v.testBit (b - 8 * k) else x.getLsbD b := by
  simp only [linePut, bv, BitVec.getLsbD_or, BitVec.getLsbD_and, BitVec.getLsbD_not, BitVec.getLsbD_shiftLeft, BitVec.getLsbD_ofNat,
    Nat.testBit_two_pow_sub_one, Nat.testBit_mod_two_pow]
  by_cases hlo : 8 * k ≤ b
  · by_cases hhi : b < 8 * k + 8
    · simp [hb, hlo, hhi, show b - 8 * k < 8 by omega, show ¬ b < 8 * k by omega, show b - 8 * k < 1024 by omega]
    · simp [hb, hhi, show ¬ b - 8 * k < 8 by omega]
  · simp [hb, hlo, show b < 8 * k by omega]

/-- One byte put into a line, and the others as they were. -/
theorem lineByte_linePut_one (x : Line) (k v j : Nat) (hj : j < 128) :
    lineByte (linePut x k 1 v) j = if j = k then BitVec.ofNat 8 v else lineByte x j := by
  refine BitVec.eq_of_getLsbD_eq fun i hi => ?_
  rw [getLsbD_lineByte, getLsbD_linePut_one x k v _ (by omega)]
  by_cases hjk : j = k
  · subst hjk
    simp [hi, show 8 * j + i < 8 * j + 8 by omega, BitVec.getLsbD_ofNat, -BitVec.getLsbD_eq_getElem]
  · simp [hi, hjk, show ¬ (8 * k ≤ 8 * j + i ∧ 8 * j + i < 8 * k + 8) by omega, getLsbD_lineByte, -BitVec.getLsbD_eq_getElem]

theorem getLsbD_byteMask_one (k j : Nat) (hj : j < 128) : (byteMask k 1).getLsbD j = decide (j = k) := by
  simp only [byteMask, bv, BitVec.getLsbD_shiftLeft, BitVec.getLsbD_ofNat, Nat.testBit_two_pow_sub_one]
  by_cases hlt : j < k
  · simp [hlt, show j ≠ k by omega]
  · simp [hj, hlt, show j - k < 128 by omega, show j - k = 0 ↔ j = k by omega]

theorem lineByte_foldl_merge (y : Line) (m : BitVec 128) (ks : List Nat) (a : Line) (j : Nat) (hj : j < 128) :
    lineByte (ks.foldl (fun a k => if m.getLsbD k then linePut a k 1 (lineByte y k).toNat else a) a) j
      = if j ∈ ks ∧ m.getLsbD j = true then lineByte y j else lineByte a j := by
  induction ks generalizing a with
  | nil => simp
  | cons k ks ih =>
    rw [List.foldl_cons, ih]
    by_cases hjk : j = k
    · subst hjk
      by_cases hm : m.getLsbD j = true <;> simp [hm, lineByte_linePut_one _ _ _ _ hj]
    · have hkeep : lineByte (if m.getLsbD k then linePut a k 1 (lineByte y k).toNat else a) j = lineByte a j := by
        split
        · rw [lineByte_linePut_one _ _ _ _ hj, if_neg hjk]
        · rfl
      simp only [hkeep, List.mem_cons, hjk, false_or]

/-- A merged line takes the bytes of the mask from the second line. -/
theorem lineByte_lineMerge (x y : Line) (m : BitVec 128) (j : Nat) (hj : j < 128) :
    lineByte (lineMerge x y m) j = if m.getLsbD j then lineByte y j else lineByte x j := by
  rw [lineMerge, lineByte_foldl_merge _ _ _ _ _ hj]
  simp [upTo, hj]

/-! ## Memories -/

/-- Bytes written one after the other stand where they were put, and nothing else changes. -/
theorem Memory.written_put (m : Memory) (a n v : Nat) (h : SMap.wf m = true) :
    Written m (Memory.put m a n v) a n (fun j => BitVec.ofNat 8 (v / 256 ^ j)) := by
  induction n generalizing m a v with
  | zero => exact fun x => (if_neg (by omega)).symm
  | succ n ih =>
    intro x
    have hwf : SMap.wf (Memory.write m a (bv 8 v)) = true := by
      unfold Memory.write SMap.setD
      split
      · exact SMap.wf_del m a h
      · exact SMap.wf_put m a _ h
    rw [Memory.put, ih _ _ _ hwf x]
    by_cases hxa : x = a
    · subst hxa
      have hread : (Memory.write m x (bv 8 v)).read x = bv 8 v := SMap.getD_setD m x _ 0 h
      rw [if_neg (by omega), if_pos (by omega), hread]
      simp [bv]
    · have hread : (Memory.write m a (bv 8 v)).read x = Memory.read m x := SMap.getD_setD_ne m a x _ 0 h hxa
      rw [hread]
      by_cases hin : a + 1 ≤ x ∧ x < a + 1 + n
      · rw [if_pos hin, if_pos (by omega)]
        show BitVec.ofNat 8 (v / 256 / 256 ^ (x - (a + 1))) = BitVec.ofNat 8 (v / 256 ^ (x - a))
        rw [Nat.div_div_eq_div_mul, show x - a = x - (a + 1) + 1 by omega, Nat.pow_succ, Nat.mul_comm 256]
      · rw [if_neg hin, if_neg (by omega)]

/-! ## An access of which nothing is done, within one line -/

/-- Nothing of the access is done, and its bytes all lie in the line of its address. -/
structure SqAcc.InLine (a : SqAcc) : Prop where
  fresh : a.done = 0
  pos : 0 < a.width
  small : a.width ≤ 8
  fits : a.addr.toNat % 128 + a.width ≤ 128

theorem runOf_singleton (a : SqAcc) (line : Nat) : runOf [a] line = [a] := by
  simp [runOf]

/-- One byte of an access put into a line, and its bit into the mask of the line. -/
def SqAcc.putByte (a : SqAcc) (r : Line × BitVec 128) (k : Nat) : Line × BitVec 128 :=
  (linePut r.1 ((a.addr.toNat + k) % 128) 1 (a.data.extractLsb' (8 * k) 8).toNat, r.2 ||| byteMask ((a.addr.toNat + k) % 128) 1)

theorem accLine_singleton (a : SqAcc) (line : Nat) :
    accLine [a] line = (a.left.filter (fun k => a.lineOf k = line)).foldl a.putByte (0, 0) := rfl

/-- What bytes of an access that stay in one line put there, and where. -/
theorem foldl_putByte (a : SqAcc) (ks : List Nat) (r : Line × BitVec 128) (hks : ∀ k ∈ ks, a.addr.toNat % 128 + k < 128) (j : Nat)
    (hj : j < 128) :
    (ks.foldl a.putByte r).2.getLsbD j = (r.2.getLsbD j || decide (∃ k ∈ ks, j = a.addr.toNat % 128 + k))
    ∧ lineByte (ks.foldl a.putByte r).1 j = if ∃ k ∈ ks, j = a.addr.toNat % 128 + k
        then a.data.extractLsb' (8 * (j - a.addr.toNat % 128)) 8 else lineByte r.1 j := by
  induction ks generalizing r with
  | nil => simp
  | cons k ks ih =>
    have hk : (a.addr.toNat + k) % 128 = a.addr.toNat % 128 + k := by
      have := hks k List.mem_cons_self
      omega
    obtain ⟨hmask, hbyte⟩ := ih (a.putByte r k) (fun i hi => hks i (List.mem_cons_of_mem _ hi))
    rw [List.foldl_cons, hmask, hbyte]
    refine ⟨?_, ?_⟩
    · rw [SqAcc.putByte, BitVec.getLsbD_or, getLsbD_byteMask_one _ _ hj, hk]
      simp [Bool.or_assoc]
    · rw [SqAcc.putByte, lineByte_linePut_one _ _ _ _ hj, BitVec.ofNat_toNat, BitVec.setWidth_eq, hk]
      by_cases hin : ∃ i ∈ ks, j = a.addr.toNat % 128 + i
      · rw [if_pos hin, if_pos (by simpa using .inr hin)]
      · by_cases hjk : j = a.addr.toNat % 128 + k
        · rw [if_neg hin, if_pos hjk, if_pos ⟨k, List.mem_cons_self, hjk⟩, hjk, Nat.add_sub_cancel_left]
        · rw [if_neg hin, if_neg hjk, if_neg]
          rintro ⟨i, hi, hji⟩
          rcases List.mem_cons.1 hi with rfl | hi
          · exact hjk hji
          · exact hin ⟨i, hi, hji⟩

/-- The bytes of a line that an access marks as done. -/
theorem getLsbD_foldl_done (a : SqAcc) (line : Nat) (ks : List Nat) (m : Byte) (i : Nat) (hi : i < 8) :
    (ks.foldl (fun (m : Byte) k => if a.lineOf k = line then m ||| (1#8 <<< k) else m) m).getLsbD i
      = (m.getLsbD i || decide (i ∈ ks ∧ a.lineOf i = line)) := by
  induction ks generalizing m with
  | nil => simp
  | cons k ks ih =>
    have hbit : (1#8 <<< k).getLsbD i = decide (i = k) := by
      simp only [BitVec.getLsbD_shiftLeft, BitVec.getLsbD_one]
      by_cases hlt : i < k
      · simp [hlt, show i ≠ k by omega]
      · simp [hi, hlt, show i - k = 0 ↔ i = k by omega]
    rw [List.foldl_cons, ih]
    by_cases hik : i = k
    · subst hik
      by_cases hl : a.lineOf i = line <;> simp [hl, hbit]
    · split <;> simp [hbit, hik]

section
variable {a : SqAcc} (h : a.InLine)
include h

theorem SqAcc.left_of_inLine : a.left = List.range a.width := by
  simp [SqAcc.left, upTo, h.fresh]

theorem SqAcc.lineOf_of_inLine {k : Nat} (hk : k < a.width) : a.lineOf k = a.addr.toNat / 128 := by
  have hlt := a.addr.isLt
  have hfits := h.fits
  have hnowrap : a.addr.toNat + k < 2 ^ 64 := by omega
  rw [SqAcc.lineOf, Nat.mod_eq_of_lt hnowrap]
  omega

theorem SqAcc.nextVa_of_inLine : a.nextVa = a.addr.toNat := by
  have hhead : a.left.headD 0 = 0 := by
    rw [SqAcc.left_of_inLine h]
    obtain ⟨n, hn⟩ := Nat.exists_eq_succ_of_ne_zero (Nat.ne_of_gt h.pos)
    simp [hn, List.range_succ_eq_map]
  rw [SqAcc.nextVa, hhead, Nat.add_zero, Nat.mod_eq_of_lt a.addr.isLt]

/-- The access has nothing left once its line is done. -/
theorem SqAcc.rest_of_inLine : a.rest (a.addr.toNat / 128) = none := by
  have hsmall := h.small
  unfold SqAcc.rest
  dsimp only
  rw [if_pos]
  simp only [SqAcc.left, upTo, List.isEmpty_iff, List.filter_eq_nil_iff, List.mem_range]
  intro k hk
  rw [getLsbD_foldl_done a _ _ _ _ (by omega)]
  simp [hk, SqAcc.lineOf_of_inLine h hk]

theorem afterRun_of_inLine : afterRun [a] (a.addr.toNat / 128) = [] := by
  simp [afterRun, runOf_singleton, SqAcc.rest_of_inLine h]

/-- The mask and the bytes that such an access puts into its line. -/
theorem accLine_of_inLine (j : Nat) (hj : j < 128) :
    ((accLine [a] (a.addr.toNat / 128)).2.getLsbD j = decide (a.addr.toNat % 128 ≤ j ∧ j < a.addr.toNat % 128 + a.width))
    ∧ (a.addr.toNat % 128 ≤ j → j < a.addr.toNat % 128 + a.width →
      lineByte (accLine [a] (a.addr.toNat / 128)).1 j = a.data.extractLsb' (8 * (j - a.addr.toNat % 128)) 8) := by
  have hfits := h.fits
  have hall : a.left.filter (fun k => decide (a.lineOf k = a.addr.toNat / 128)) = List.range a.width := by
    rw [SqAcc.left_of_inLine h, List.filter_eq_self]
    exact fun k hk => decide_eq_true (SqAcc.lineOf_of_inLine h (List.mem_range.1 hk))
  have hiff : (∃ k ∈ List.range a.width, j = a.addr.toNat % 128 + k) ↔ a.addr.toNat % 128 ≤ j ∧ j < a.addr.toNat % 128 + a.width := by
    constructor
    · rintro ⟨k, hk, rfl⟩
      have := List.mem_range.1 hk
      omega
    · rintro ⟨hlo, hhi⟩
      exact ⟨j - a.addr.toNat % 128, List.mem_range.2 (by omega), by omega⟩
  obtain ⟨hmask, hbyte⟩ := foldl_putByte a (List.range a.width) (0, 0)
    (fun k hk => by have := List.mem_range.1 hk; omega) j hj
  rw [accLine_singleton, hall]
  refine ⟨?_, fun hlo hhi => ?_⟩
  · rw [hmask, decide_eq_decide.2 hiff]
    exact Bool.or_eq_right_iff_imp.2 (by simp)
  · rw [hbyte, if_pos (hiff.2 ⟨hlo, hhi⟩)]

end

end Sys2Proof.Machine
end

section
/-!
SUPPORT. Rules about the state's cores, gangs and tasks: what an update leaves where it was made, and what a group's leaving changes.
-/
namespace Sys2Proof.Machine

theorem SMap.put_ne_nil {α : Type} (m : SMap α) (n : Nat) (y : α) : m.put n y ≠ [] := fun h => by
  have hfind := SMap.find_put m n y
  rw [h] at hfind
  cases hfind

theorem SMap.wf_setD {α : Type} [DecidableEq α] (m : SMap α) (n : Nat) (y d : α) (h : m.wf = true) : (m.setD n y d).wf = true := by
  unfold SMap.setD
  split
  · exact SMap.wf_del m n h
  · exact SMap.wf_put m n y h

/-- What a key reads is listed at it. -/
theorem SMap.mem_of_find {α : Type} (m : SMap α) (n : Nat) (y : α) (h : m.find n = some y) : (n, y) ∈ m := by
  induction m with
  | nil => cases h
  | cons x m ih =>
    obtain ⟨k, x⟩ := x
    unfold SMap.find at h
    split at h
    · cases h
    · split at h
      · subst_vars
        cases h
        exact List.mem_cons_self
      · exact List.mem_cons_of_mem _ (ih h)

/-- The bytes of a range taken out of a memory read zero. -/
theorem Memory.read_without (m : SMap Byte) (lo hi a : Nat) (hlo : lo ≤ a) (hhi : a < hi) : Memory.read (m.without lo hi) a = 0 := by
  have hfind : (m.without lo hi).find a = none := by
    cases hf : (m.without lo hi).find a with
    | none => rfl
    | some y =>
      have hmem := (List.mem_filter.1 (SMap.mem_of_find _ _ _ hf)).2
      simp only [Bool.or_eq_true, decide_eq_true_eq] at hmem
      omega
  rw [Memory.read, SMap.getD, hfind, Option.getD_none]

/-! ## The core after an update -/

/-- A core that is not as reset leaves it stands as it was put. -/
theorem State.core_setCore (s : State) (c : Nat) (x : Core) (hx : x ≠ Core.reset) : (s.setCore c x).core c = x := by
  simp [State.core, State.setCore, SMap.setD, hx, SMap.getD, SMap.find_put]

theorem State.core_setCore_of_wf (s : State) (c : Nat) (x : Core) (h : s.cores.wf = true) : (s.setCore c x).core c = x :=
  SMap.getD_setD s.cores c x Core.reset h

theorem State.core_modCore_of_wf (s : State) (c : Nat) (f : Core → Core) (h : s.cores.wf = true) :
    (s.modCore c f).core c = f (s.core c) :=
  State.core_setCore_of_wf s c _ h

theorem State.wf_cores_modCore (s : State) (c : Nat) (f : Core → Core) (h : s.cores.wf = true) : (s.modCore c f).cores.wf = true :=
  SMap.wf_setD s.cores c _ Core.reset h

/-- A core that lists a copy is not as reset leaves it. -/
theorem Core.ne_reset_of_put {c : Core} {k : Nat} {y : Copy} {m : SMap Copy} (h : c.l1 = m.put k y) : c ≠ Core.reset := fun heq =>
  SMap.put_ne_nil m k y (h ▸ congrArg Core.l1 heq)

/-- Queues that become unowned leave the core's time and its stash. -/
theorem State.releaseQueues_core (s : State) (c : Nat) (h : s.cores.wf = true) :
    ((s.releaseQueues c).core c).t = (s.core c).t ∧ ((s.releaseQueues c).core c).stash = (s.core c).stash
    ∧ (s.releaseQueues c).cores.wf = true := by
  unfold State.releaseQueues
  split
  · split
    · exact ⟨rfl, rfl, h⟩
    · rw [State.core_modCore_of_wf s c _ h]
      exact ⟨rfl, rfl, State.wf_cores_modCore s c _ h⟩
  · exact ⟨rfl, rfl, h⟩

theorem State.releaseQueues_frame (s : State) (c : Nat) : s.releaseQueues c = { s with cores := (s.releaseQueues c).cores } := by
  unfold State.releaseQueues
  split
  · split <;> rfl
  · rfl

/-! ## A group that leaves its place -/

theorem State.leavePlace_of_gang (s : State) (p : Nat) (g : Group) (k : Gang) (hk : s.gang g.gangKey = some k) :
    s.leavePlace p g = ((({ s with gangs := s.gangs.put g.gangKey { k with places := k.places.filter (· != p) } } : State).delGrp p).dropWaiter
      p).releaseQueues (placeCore p) := by
  simp [State.leavePlace, hk]

theorem State.leavePlace_frame (s : State) (p : Nat) (g : Group) (k : Gang) (hk : s.gang g.gangKey = some k) :
    s.leavePlace p g = { s with
      gangs := s.gangs.put g.gangKey { k with places := k.places.filter (· != p) }
      groups := s.groups.del p
      die0 := (s.leavePlace p g).die0
      die1 := (s.leavePlace p g).die1
      remote := (s.leavePlace p g).remote
      cores := (s.leavePlace p g).cores } := by
  rw [State.leavePlace_of_gang s p g k hk, State.releaseQueues_frame]
  rfl

theorem State.leavePlace_core (s : State) (p : Nat) (g : Group) (k : Gang) (hk : s.gang g.gangKey = some k) (h : s.cores.wf = true) :
    ((s.leavePlace p g).core (placeCore p)).t = (s.core (placeCore p)).t
    ∧ ((s.leavePlace p g).core (placeCore p)).stash = (s.core (placeCore p)).stash ∧ (s.leavePlace p g).cores.wf = true := by
  rw [State.leavePlace_of_gang s p g k hk]
  exact State.releaseQueues_core _ _ h

end Sys2Proof.Machine
end

section
/-!
PROOFS. The head of a store queue as it leaves, and the end of a group and of its gang (R62, R120, R139, R156, R328, R382 to R385).
-/
namespace Sys2Proof.Machine

/-! ## The head of the queue -/

theorem Group.clear_of_noneBefore (g : Group) (seq after : Nat) (h : g.noneBefore seq after) : g.clear seq after = true := by
  refine List.all_eq_true.2 fun ⟨n, x⟩ hx => ?_
  cases ho : x.op with
  | none => rfl
  | some o =>
    have hno := h n x o hx ho
    simp only [POp.bars, Bool.not_eq_true', Bool.and_eq_false_iff, Bool.or_eq_false_iff, decide_eq_false_iff_not, Bool.not_eq_false',
      Option.isNone_eq_false_iff, bne_eq_false_iff_eq, ← Option.ne_none_iff_isSome]
    by_cases hlt : o.seq < seq
    · by_cases ht : o.todo = 0
      · exact .inl (.inl (.inr ht))
      · by_cases hpref : o.isPref = true
        · exact .inl (.inr hpref)
        · obtain ⟨hparked, hacq, hafter⟩ := hno ht hlt (by simpa using hpref)
          exact .inr ⟨⟨hparked, hacq⟩, Nat.not_lt.2 hafter⟩
    · exact .inl (.inl (.inl hlt))

/-- Nothing is settled for a group in which no trap waits. -/
theorem State.settle_setGrp (s : State) (p : Nat) (g : Group) (h : g.trapWait = none) : (s.setGrp p g).settle p = s.setGrp p g := by
  simp [State.settle, h]

section
variable {s : State} {p : Nat} {g : Group} {e : SqEntry} {r : List SqEntry} (hg : s.grp p = some g) (hsq : g.sq = e :: r)
include hg hsq

theorem State.sqDone_of_head : s.sqDone p = s.setGrp p { (if e.tag = 0 then g else g.setOp e.tag none) with sq := r } := by
  simp [State.sqDone, State.modGrp_of_grp s p g _ hg, hsq]

theorem State.sqHead_of_head (f : SqEntry → SqEntry) : s.sqHead p f = s.setGrp p { g with sq := f e :: r } := by
  simp [State.sqHead, State.modGrp_of_grp s p g _ hg, hsq]

/-- A store at the head that waits for nothing goes on. -/
theorem exec_storeQueueLeave_of_store (hk : e.kind = .store ∨ e.kind = .sts) (hp : e.parked = none) (hw : s.waiting (.sq p) = false)
    (hn : g.noneBefore e.seq e.after) : exec (.storeQueueLeave p) s = .next ((s.sqStores p g e).settle p) := by
  have hmay : g.mayStore e = true := Group.clear_of_noneBefore g e.seq e.after hn
  show Host.Outcome.next ((s.advanceSq p).settle p) = _
  rcases hk with hk | hk <;> simp [State.advanceSq, hg, hsq, hp, hw, hmay, hk]

/-- A store into the gang's stash writes its bytes there. -/
theorem State.sqStores_stash (a : SqAcc) (k : Gang) (ha : e.accs = [a]) (hs : a.stash = true) (hk : s.stashGang p g = some k) :
    s.sqStores p g e = (s.setCore (placeCore p) { s.core (placeCore p) with
        stash := Memory.put (s.core (placeCore p)).stash (k.stashBase + a.addr.toNat) a.width a.data.toNat }).setGrp p
      { g with sq := { e with accs := [] } :: r } := by
  rw [State.sqStores, ha]
  simp only [hs, if_true, State.sqStoreRaw, hk, ha, List.takeWhile_cons, List.takeWhile_nil, List.foldl_cons, List.foldl_nil]
  rw [State.sqHead_of_head (s := s.modCore _ _) hg hsq, ha]
  simp only [List.dropWhile_cons, hs, if_true, List.dropWhile_nil]
  rfl

end

/-! ## A store into an owned copy (row 6) -/

theorem State.copyOf_of_has {s : State} {c ctx va : Nat} {y : Copy} (h : s.Has c ctx va y) : s.copyOf c ctx va = some y := by
  have hplain : (s.core c).copyData y = y.data := by simp [Core.copyData, h.plain]
  simp only [State.copyOf, h.copy, hplain, h.unbound]
  rw [← h.plain]

/-- An owned copy after a store, at the time of R139. -/
def Copy.stored (y : Copy) (t : Nat) (x : Line) (m : BitVec 128) (whole : Bool) : Copy :=
  { y with w := t, r := t, data := lineMerge y.data x m, poison := y.poison && !whole }

/-- The bytes of the copy after a store of an access within its line. -/
theorem lineByte_stored_of_inLine {a : SqAcc} (h : a.InLine) (y : Copy) (t : Nat) (whole : Bool) (j : Nat) (hj : j < 128) :
    lineByte (y.stored t (accLine [a] (a.addr.toNat / 128)).1 (accLine [a] (a.addr.toNat / 128)).2 whole).data j
      = if a.addr.toNat % 128 ≤ j ∧ j < a.addr.toNat % 128 + a.width then a.data.extractLsb' (8 * (j - a.addr.toNat % 128)) 8
        else lineByte y.data j := by
  obtain ⟨hmask, hbyte⟩ := accLine_of_inLine h j hj
  rw [Copy.stored, lineByte_lineMerge _ _ _ _ hj, hmask]
  by_cases hin : a.addr.toNat % 128 ≤ j ∧ j < a.addr.toNat % 128 + a.width
  · simp only [hin, and_self, decide_true, if_true]
    exact hbyte hin.1 hin.2
  · simp only [hin, decide_false, if_false, Bool.false_eq_true]

theorem State.setCopyOf_core (s : State) (c ctx va : Nat) (z : Copy) (hz : z.stash = none) :
    (s.setCopyOf c ctx va z).core c = { s.core c with l1 := (s.core c).l1.put (lineKey ctx va) z } := by
  have hset : (s.core c).setCopy (lineKey ctx va) z = { s.core c with l1 := (s.core c).l1.put (lineKey ctx va) z } := by
    simp [Core.setCopy, hz]
  rw [State.setCopyOf, State.modCore, hset]
  exact State.core_setCore s c _ (Core.ne_reset_of_put rfl)

theorem State.storeOwned_core (s : State) (c ctx va : Nat) (y : Copy) (x : Line) (m : BitVec 128) (whole : Bool) (hy : y.stash = none) :
    (s.storeOwned c ctx va y x m whole).core c = { s.core c with
      l1 := (s.core c).l1.put (lineKey ctx va) (y.stored (max (s.core c).t (y.r + 1)) x m whole)
      t := max (s.core c).t (y.r + 1) } := by
  have hcopy := State.setCopyOf_core s c ctx va (y.stored (max (s.core c).t (y.r + 1)) x m whole) hy
  show ((s.setCopyOf c ctx va (y.stored _ x m whole)).raiseT c (max (s.core c).t (y.r + 1))).core c = _
  rw [State.raiseT, State.modCore, hcopy, State.core_setCore _ c _ (Core.ne_reset_of_put rfl)]
  simp

theorem storeLine_of_owned {s : State} {c ctx va : Nat} {y : Copy} (h : s.Has c ctx va y) (hst : y.st = .o) (x : Line) (m : BitVec 128)
    (whole last : Bool) : storeLine s c ctx va x m none whole last = .ok (s.storeOwned c ctx va y x m whole) () := by
  simp [storeLine, State.copyOf_of_has h, hst]

/-- A store within one line that the core owns is made in its copy, and the entry has no access left. -/
theorem State.sqStores_owned {s : State} {p : Nat} {g : Group} {e : SqEntry} {r : List SqEntry} (hg : s.grp p = some g)
    (hsq : g.sq = e :: r) (hk : e.kind = .store ∨ e.kind = .sts) {a : SqAcc} (ha : e.accs = [a]) (hs : a.stash = false)
    (hin : a.InLine) {y : Copy} (h : s.Has (placeCore p) g.ctx a.addr.toNat y) (hst : y.st = .o) :
    ∃ whole, s.sqStores p g e = (s.storeOwned (placeCore p) g.ctx a.addr.toNat y (accLine [a] (a.addr.toNat / 128)).1
      (accLine [a] (a.addr.toNat / 128)).2 whole).setGrp p { g with sq := { e with accs := [] } :: r } := by
  refine ⟨!false && e.whole.contains (a.addr.toNat / 128), ?_⟩
  have hfill : ∀ t kind, s.fillPoisoned t (placeCore p) g.ctx a.addr.toNat kind = false := fun t kind => by
    simp [State.fillPoisoned, h.unbound]
  have hline : s.sqStoreLine p g e a = (s.storeOwned (placeCore p) g.ctx a.addr.toNat y (accLine [a] (a.addr.toNat / 128)).1
      (accLine [a] (a.addr.toNat / 128)).2 (!false && e.whole.contains (a.addr.toNat / 128))).sqHead p
        (fun e => { e with accs := afterRun e.accs (a.addr.toNat / 128) }) := by
    rcases hk with hk | hk <;>
      simp only [State.sqStoreLine, SqAcc.nextVa_of_inLine hin, ha, runOf_singleton, afterRun_of_inLine hin, List.any_nil, hk,
        storeLine_of_owned h hst, hfill, Bool.false_eq_true, if_false]
  rw [State.sqStores, ha]
  simp only [hs, Bool.false_eq_true, if_false]
  rw [hline, State.sqHead_of_head (s := s.storeOwned _ _ _ _ _ _ _) hg hsq, ha, afterRun_of_inLine hin]

/-! ## The end of a group and of its gang -/

theorem State.gangAway_of_noneSaved {s : State} {key : Nat} (h : ∀ x ∈ s.saved, x.gangKey ≠ key) : s.gangAway key = false := by
  simp only [State.gangAway, List.any_eq_false, Bool.and_eq_true, beq_iff_eq]
  exact fun x hx heq => h x hx heq.1

/-- Where no stream of the gang stands or is Saved, the gang exits at once. -/
theorem State.exitGang_of_alone {s : State} {p : Nat} {g : Group} {k : Gang} (hstream : s.stream k.core = none)
    (hsaved : ∀ x ∈ s.saved, x.gangKey ≠ g.gangKey) : s.exitGang p g k = s.retireLast p g k := by
  have hgs : s.gangStream g.gangKey k = none := by simp [State.gangStream, hstream]
  have hmine : ∀ x ∈ s.saved, (x.gangKey == g.gangKey && x.kind == .reel) = false := fun x hx => by simp [hsaved x hx]
  have hkeep : s.saved.filter (fun x => !(x.gangKey == g.gangKey && x.kind == .reel)) = s.saved :=
    List.filter_eq_self.2 fun x hx => by rw [hmine x hx]; rfl
  have hany : s.saved.any (fun x => x.gangKey == g.gangKey && x.kind == .reel) = false :=
    List.any_eq_false.2 fun x hx => by rw [hmine x hx]; exact Bool.false_ne_true
  simp only [State.exitGang, hgs, hany, hkeep, Bool.false_and, Bool.false_eq_true, if_false]

section
variable {s : State} {p : Nat} {g : Group} (hg : s.grp p = some g) (hst : g.st = .retiring) (hl : g.landed = true)
include hg hst hl

theorem exec_groupRetire_walker (hk : g.kind = .walker) : exec (.groupRetire p) s = .next (s.delGrp p) := by
  show execGroupRetire p s = _
  simp [execGroupRetire, hg, hst, hl, hk]

/-- A group of a gang that stands elsewhere too leaves its place. -/
theorem exec_groupRetire_others {k : Gang} (hk : g.kind = .ordinary) (hgang : s.gang g.gangKey = some k) (hp : k.places ≠ [p]) :
    exec (.groupRetire p) s = .next (s.leavePlace p g) := by
  show execGroupRetire p s = _
  simp [execGroupRetire, hg, hst, hl, hk, hgang, hp]

/-- The last group of a gang without bindings, a stream or saved groups ends it. -/
theorem exec_groupRetire_last {k : Gang} (hk : g.kind = .ordinary) (hgang : s.gang g.gangKey = some k) (hp : k.places = [p])
    (hb : k.binds = []) (hstream : s.stream k.core = none) (hsaved : ∀ x ∈ s.saved, x.gangKey ≠ g.gangKey) :
    exec (.groupRetire p) s = .next ((s.leavePlace p g).endGang g.gangKey k false) := by
  have haway := State.gangAway_of_noneSaved hsaved
  have hlast : s.retireLast p g k = (s.leavePlace p g).endGang g.gangKey k false := by
    have hkill : (g.kind == .reel) = false := by rw [hk]; rfl
    simp [State.retireLast, hb, unbindAll, haway, hkill]
  show execGroupRetire p s = _
  simp [execGroupRetire, hg, hst, hl, hk, hgang, hp, haway, State.exitGang_of_alone hstream hsaved, hlast]

end

/-- A gang that ends without a kill leaves its number with its task, and its stash reads zero. -/
theorem State.endGang_spec (s : State) (key : Nat) (k : Gang) (tk : Task) (hb : k.binds = []) (hsp : k.spawned = false)
    (hc : s.cores.wf = true) (hgs : s.gangs.wf = true) (ht : s.task k.queue k.seqNo = some tk) :
    (s.endGang key k false).groups = s.groups ∧ (s.endGang key k false).gang key = none
    ∧ (∀ a, k.stashBase ≤ a → a < k.stashBase + k.stashSize → Memory.read ((s.endGang key k false).core k.core).stash a = 0)
    ∧ (s.endGang key k false).task k.queue k.seqNo
      = some { tk with exited := tk.exited ++ [k.gang], t := max tk.t (s.core k.core).t } := by
  have hend : s.endGang key k false = { (s.setCore k.core ((s.core k.core).clearStash k.stashBase k.stashSize)).setTask k.queue k.seqNo
      { tk with exited := tk.exited ++ [k.gang], t := max tk.t (s.core k.core).t } with gangs := s.gangs.del key } := by
    have htask : (s.setCore k.core ((s.core k.core).clearStash k.stashBase k.stashSize)).task k.queue k.seqNo = some tk := ht
    simp [State.endGang, hb, unbindAll, htask, hsp]
  rw [hend]
  refine ⟨rfl, SMap.find_del _ _ hgs, fun a hlo hhi => ?_, SMap.find_put _ _ _⟩
  have hcore : (s.setCore k.core ((s.core k.core).clearStash k.stashBase k.stashSize)).core k.core
      = (s.core k.core).clearStash k.stashBase k.stashSize := State.core_setCore_of_wf s _ _ hc
  show Memory.read ((s.setCore k.core ((s.core k.core).clearStash k.stashBase k.stashSize)).core k.core).stash a = 0
  rw [hcore]
  exact Memory.read_without _ _ _ _ hlo hhi

/-- Settles O43: a store's bytes in the stash or in an owned copy, the entry's leaving; a group's place, and its gang's end. -/
theorem storesLeave : Obligations.StoresLeave := by
  unfold Obligations.StoresLeave
  refine ⟨fun s p g e r hg htrap hsq hkind hp hw hn => ?stores, fun s p g hg hst hl => ⟨?walker, fun k hk hgang hwf => ⟨?others, ?last⟩⟩⟩
  case stores =>
    rw [exec_storeQueueLeave_of_store hg hsq hkind hp hw hn]
    refine ⟨fun ha => ?_, fun a k ha hs hk hwf => ?_, fun a y ha hs hdone hpos hsmall hfits hhas hst => ?_⟩
    · have hdone : s.sqStores p g e = s.sqDone p := by simp [State.sqStores, ha]
      rw [hdone, State.sqDone_of_head hg hsq, State.settle_setGrp]
      split
      · exact htrap
      · exact htrap
    · rw [State.sqStores_stash hg hsq a k ha hs hk, State.settle_setGrp]
      · exact ⟨_, Memory.written_put _ _ _ _ hwf, rfl⟩
      · exact htrap
    · have hin : a.InLine := ⟨hdone, hpos, hsmall, hfits⟩
      obtain ⟨whole, hstores⟩ := State.sqStores_owned hg hsq hkind ha hs hin hhas hst
      rw [hstores, State.settle_setGrp]
      case h => exact htrap
      have hcore := State.storeOwned_core s (placeCore p) g.ctx a.addr.toNat y (accLine [a] (a.addr.toNat / 128)).1
        (accLine [a] (a.addr.toNat / 128)).2 whole hhas.plain
      refine ⟨_, y.stored _ _ _ whole, rfl, ?_, hst, rfl, rfl, congrArg Core.t hcore, lineByte_stored_of_inLine hin y _ whole,
        State.grp_setGrp _ _ _⟩
      exact (congrArg (fun c : Core => c.l1.find _) hcore).trans (SMap.find_put _ _ _)
  case walker => exact fun hk => exec_groupRetire_walker hg hst hl hk
  case others =>
    intro hplaces
    refine ⟨_, exec_groupRetire_others hg hst hl hk hgang hplaces, ?_⟩
    rw [State.leavePlace_frame s p g k hgang]
    exact ⟨SMap.find_del _ _ hwf, fun q hq => SMap.find_del_ne _ _ _ hwf hq, SMap.find_put _ _ _, rfl⟩
  case last =>
    intro tk hplaces hb hcore hsp hstream hsaved hgw hcw htk
    refine ⟨_, exec_groupRetire_last hg hst hl hk hgang hplaces hb hstream hsaved, ?_⟩
    have hframe := State.leavePlace_frame s p g k hgang
    obtain ⟨ht, -, hcw'⟩ := State.leavePlace_core s p g k hgang hcw
    have hgw' : (s.leavePlace p g).gangs.wf = true := by
      rw [hframe]
      exact SMap.wf_put _ _ _ hgw
    have htk' : (s.leavePlace p g).task k.queue k.seqNo = some tk := by
      rw [hframe]
      exact htk
    obtain ⟨hgroups, hnone, hzero, htask⟩ := State.endGang_spec _ g.gangKey k tk hb hsp hcw' hgw' htk'
    rw [hcore, ht] at htask
    have hgroups' : ∀ q, ((s.leavePlace p g).endGang g.gangKey k false).grp q = (s.groups.del p).find q := fun q => by
      rw [State.grp, hgroups, hframe]
    refine ⟨?_, fun q hq => ?_, hnone, hzero, ?_⟩
    · rw [hgroups']
      exact SMap.find_del _ _ hwf
    · rw [hgroups']
      exact SMap.find_del_ne _ _ _ hwf hq
    · rw [htask, hcore]

end Sys2Proof.Machine
end

section
/-!
PROOFS. Enabling a queue whose submit counter holds the error token, and a queue that State lists twice (R50, R52, R248).
-/
namespace Sys2Proof.Machine

/-! ## The submit counter as enabling reads it -/

/-- A counter that stands at its home reads as its value, with the time of its latest write. -/
theorem readAtHome_of_holds {s : State} {d ctx va : Nat} {hl : HomeLine} (h : s.Holds d ctx va .atomic hl) (hc : hl.perm.ctr = true)
    (hp : hl.poison = false) : readAtHome s ctx va = .ok (s.holdDesc d ctx) (some (lineGet hl.data (va % 128) 8, hl.w)) := by
  simp [readAtHome, atHome_of_holds h, Ans.andThen, hc, hp]

theorem readCounter_of_readAtHome {s t : State} {ctx va v w : Nat} (ha : va % 8 = 0) (ho : s.owner va ≠ .bad)
    (h : readAtHome s ctx va = .ok t (some (v, w))) :
    readCounter s ctx va = .ok t (if v.testBit 63 then .token v w else .value v w) := by
  have hbad : (va % 8 != 0 || decide (s.owner va = .bad)) = false := by simp [ha, ho]
  by_cases hv : v.testBit 63 = true <;> simp only [readCounter, hbad, h, bit, hv, Bool.false_eq_true, if_true, if_false]

section
variable {s t : State} {q v w : Nat} (he : (s.queue q).enabling = true) (hw : s.waiting (.submit q) = false)
  (ha : (s.queue q).subctrNow.toNat % 8 = 0) (ho : s.owner (s.queue q).subctrNow.toNat ≠ .bad)
  (h : readAtHome s (s.queue q).ctx (s.queue q).subctrNow.toNat = .ok t (some (v, w)))
include he hw ha ho h

/-- A counter that holds the token gives `taken` its value, and freezes the queue as it then reads. -/
theorem exec_queueEnable_of_token (hv : v.testBit 63 = true) : exec (.queueEnable q) s
    = .next ((t.setQueue q ((s.queue q).enable (bv 64 (bits v 0 63)))).freezeQueue q 0x09) := by
  show execQueueEnable q s = _
  simp [execQueueEnable, he, hw, readCounter_of_readAtHome ha ho h, hv]

/-- Where the queues are listed in canonical form, the queue is enabled and frozen as R50 and R52 say. -/
theorem queueEnable_token_of_canonical (hv : v.testBit 63 = true) (hwf : t.queues.wf = true) :
    ∃ t', exec (.queueEnable q) s = .next t' ∧ t'.queue q = { s.queue q with
      enabling := false, taken := BitVec.ofNat 64 (v % 2 ^ 63), frozen := true, fcause := 0x09, fseq := BitVec.ofNat 64 (v % 2 ^ 63) } := by
  refine ⟨_, exec_queueEnable_of_token he hw ha ho h hv, ?_⟩
  have hset : (t.setQueue q ((s.queue q).enable (bv 64 (bits v 0 63)))).queue q = (s.queue q).enable (bv 64 (bits v 0 63)) :=
    SMap.getD_setD t.queues q _ QDesc.reset hwf
  have hfreeze : ∀ u : State, u.queues.wf = true → (u.freezeQueue q 0x09).queue q
      = { u.queue q with frozen := true, fcause := 0x09, fseq := (u.queue q).taken } := fun u hu =>
    SMap.getD_setD u.queues q _ QDesc.reset hu
  rw [hfreeze _ (SMap.wf_setD t.queues q _ QDesc.reset hwf), hset]
  simp [QDesc.enable, bv, bits]

end

/-! ## A queue that is listed twice -/

/-- A line of a counter page whose first counter holds the error token. -/
def tokenLine : HomeLine where
  data := BitVec.twoPow 1024 63
  perm := { rd := true, wr := true, ex := false, cow := false, awf := false, managed := false, ctr := true, cmp := false, fbi := 0 }
  frame := 0x1000
  host := false
  w := 0
  h := 0
  cls := 2
  z := false
  owner := none
  unknown := false
  hold := false
  poison := false
  dirty := false

/-- Queue 0 as reset leaves it, but for an enabling that is under way. -/
def enablingAlone : QDesc := { QDesc.reset with enabling := true }

/-- A descriptor in which `en` alone is set. -/
def enabledDesc : Desc := BitVec.twoPow 512 261

theorem enabledDesc_en : enabledDesc.en = true := by
  rw [Desc.en, bit, BitVec.testBit_toNat, enabledDesc, BitVec.getLsbD_twoPow]
  decide

/-- Context 0 is enabled, the submit counter at address 0 holds the token, and queue 0 is listed twice, each time enabling. -/
def listedTwice : State := { State.reset with
  queues := [(0, enablingAlone), (0, enablingAlone)]
  die0 := { State.reset.die0 with desc := [(0, enabledDesc)], l2 := [(lineKey 0 0, tokenLine)] } }

theorem listedTwice_holds : listedTwice.Holds 0 0 0 .atomic tokenLine where
  owner := by decide
  enabled := enabledDesc_en
  line := rfl
  permits := rfl
  known := rfl

theorem readAtHome_listedTwice : readAtHome listedTwice 0 0 = .ok (listedTwice.holdDesc 0 0) (some (2 ^ 63, 0)) := by
  have hdata : tokenLine.data.toNat = 2 ^ 63 := BitVec.toNat_twoPow_of_lt (by decide)
  have hvalue : lineGet tokenLine.data (0 % 128) 8 = 2 ^ 63 := by simp [lineGet, bits, hdata]
  rw [readAtHome_of_holds listedTwice_holds rfl rfl, hvalue]
  rfl

/-- Refutes O44: `taken` 0 puts the descriptor back to reset's, so that its first listing goes and the second, still enabling, shows. The
claim's clause on the token needs the canonical form of State's queues (`queueEnable_token_of_canonical`). -/
theorem not_queueRegisters : ¬ Obligations.QueueRegisters := by
  unfold Obligations.QueueRegisters
  rintro ⟨-, -, henable, -⟩
  have ha : (listedTwice.queue 0).subctrNow.toNat % 8 = 0 := by decide
  have ho : listedTwice.owner (listedTwice.queue 0).subctrNow.toNat ≠ .bad := by decide
  have htoken : Nat.testBit (2 ^ 63) 63 = true := by decide
  obtain ⟨-, hclaim⟩ := henable listedTwice _ 0 (2 ^ 63) 0 rfl rfl ha ho readAtHome_listedTwice
  obtain ⟨t', hexec, hdone, -⟩ := hclaim htoken
  rw [exec_queueEnable_of_token rfl rfl ha ho readAtHome_listedTwice htoken] at hexec
  have hstill : ((((listedTwice.holdDesc 0 0).setQueue 0 ((listedTwice.queue 0).enable (bv 64 (bits (2 ^ 63) 0 63)))).freezeQueue 0
      0x09).queue 0).enabling = true := by decide
  rw [Host.Outcome.next.inj hexec] at hstill
  rw [hdone] at hstill
  cases hstill

end Sys2Proof.Machine
end

section
/-!
SUPPORT. What goes on beside the scheduler: steps that leave gangs, tasks and queues, in which no group leaves its place and a killed group
stays killed; killing groups, gangs and launches (R66, R67).
-/
namespace Sys2Proof.Machine

/-- A killed group stands at a place, with no wait for a counter that could end. -/
def State.Dead (s : State) (p : Nat) : Prop := ∃ g, s.grp p = some g ∧ g.st = .killed ∧ g.cpark = none

/-- Gangs, tasks and queues are as they were, every group still stands at its place, and what was killed stays so. -/
structure State.Onward (s t : State) : Prop where
  gangs : t.gangs = s.gangs
  tasks : t.tasks = s.tasks
  queues : t.queues = s.queues
  stands : ∀ p, s.grp p ≠ none → t.grp p ≠ none
  dead : ∀ p, s.Dead p → t.Dead p

namespace State.Onward

theorem refl (s : State) : s.Onward s := ⟨rfl, rfl, rfl, fun _ h => h, fun _ h => h⟩

theorem trans {s t u : State} (h : s.Onward t) (h' : t.Onward u) : s.Onward u :=
  ⟨h'.gangs.trans h.gangs, h'.tasks.trans h.tasks, h'.queues.trans h.queues, fun p hp => h'.stands p (h.stands p hp),
    fun p hp => h'.dead p (h.dead p hp)⟩

/-- A step that leaves the groups too. -/
theorem of_groups {s t : State} (hgroups : t.groups = s.groups) (hgangs : t.gangs = s.gangs) (htasks : t.tasks = s.tasks)
    (hqueues : t.queues = s.queues) : s.Onward t := by
  have hgrp : t.grp = s.grp := funext fun p => by rw [State.grp, State.grp, hgroups]
  exact ⟨hgangs, htasks, hqueues, fun p hp => by rwa [hgrp], fun p hp => by rwa [State.Dead, hgrp]⟩

theorem foldl {α : Type} (f : State → α → State) (hf : ∀ t x, State.Onward t (f t x)) (xs : List α) (s : State) :
    s.Onward (xs.foldl f s) := by
  induction xs generalizing s with
  | nil => exact refl s
  | cons x xs ih => exact (hf s x).trans (ih (f s x))

theorem modGrp (s : State) (p : Nat) (f : Group → Group)
    (hf : ∀ g : Group, g.st = .killed → g.cpark = none → (f g).st = .killed ∧ (f g).cpark = none) : s.Onward (s.modGrp p f) := by
  cases hg : s.grp p with
  | none =>
    rw [State.modGrp_of_none s p f hg]
    exact refl s
  | some g =>
    rw [State.modGrp_of_grp s p g f hg]
    refine ⟨rfl, rfl, rfl, fun q hq => ?_, fun q ⟨g', hg', hst, hcp⟩ => ?_⟩
    · by_cases hqp : q = p
      · simp [hqp]
      · rwa [State.grp_setGrp_ne s p q _ hqp]
    · by_cases hqp : q = p
      · subst hqp
        rw [hg] at hg'
        cases hg'
        obtain ⟨hst', hcp'⟩ := hf g hst hcp
        exact ⟨f g, State.grp_setGrp _ _ _, hst', hcp'⟩
      · exact ⟨g', by rwa [State.grp_setGrp_ne s p q _ hqp], hst, hcp⟩

theorem killGroup (s : State) (p : Nat) : s.Onward (s.killGroup p) := by
  have hdrop : s.Onward (s.dropWaiter p) := of_groups rfl rfl rfl rfl
  refine (hdrop.trans (modGrp (s.dropWaiter p) p Group.kill fun g _ _ => ⟨rfl, rfl⟩)).trans ?_
  exact of_groups rfl rfl rfl rfl

theorem endReel (s : State) (p : Nat) (w : Word) : s.Onward (s.endReel p w) :=
  (of_groups (s := s) (t := s.modCore (placeCore p) fun x => { x with reelEnd := w }) rfl rfl rfl rfl).trans (State.Onward.killGroup _ p)

theorem killGang (s : State) (key : Nat) : s.Onward (s.killGang key) := by
  unfold State.killGang
  split
  · have hplaces := foldl State.killGroup killGroup
    dsimp only
    split
    · exact (hplaces _ s).trans (endReel _ _ _)
    · exact hplaces _ s
  · exact refl s

end State.Onward

/-! ## Killing -/

theorem State.dead_killGroup (s : State) (p : Nat) (h : s.grp p ≠ none) : (s.killGroup p).Dead p := by
  obtain ⟨g, hg⟩ := Option.ne_none_iff_exists'.1 h
  refine ⟨g.kill, ?_, rfl, rfl⟩
  show ((s.dropWaiter p).modGrp p Group.kill).grp p = _
  rw [State.grp_modGrp, show (s.dropWaiter p).grp p = s.grp p from rfl, hg, Option.map_some]

theorem State.dead_foldl_killGroup (s : State) (ps : List Nat) (p : Nat) (hp : p ∈ ps) (h : s.grp p ≠ none) :
    (ps.foldl State.killGroup s).Dead p := by
  induction ps generalizing s with
  | nil => cases hp
  | cons q ps ih =>
    rw [List.foldl_cons]
    rcases List.mem_cons.1 hp with rfl | hmem
    · exact (Onward.foldl _ Onward.killGroup ps _).dead p (State.dead_killGroup s p h)
    · exact ih _ hmem ((Onward.killGroup s q).stands p h)

/-- A killed gang's groups are killed. -/
theorem State.dead_killGang (s : State) (key p : Nat) (k : Gang) (hk : s.gang key = some k) (hp : p ∈ k.places) (h : s.grp p ≠ none) :
    (s.killGang key).Dead p := by
  have hdead := State.dead_foldl_killGroup s k.places p hp h
  unfold State.killGang
  simp only [hk]
  split
  · exact (Onward.endReel _ _ _).dead p hdead
  · exact hdead

theorem State.Onward.killGangs (s : State) (xs : List (Nat × Gang)) : s.Onward (xs.foldl (fun a x => a.killGang x.1) s) :=
  Onward.foldl _ (fun t x => Onward.killGang t x.1) xs s

theorem State.dead_killGangs (s : State) (xs : List (Nat × Gang)) (key p : Nat) (k : Gang) (hx : (key, k) ∈ xs)
    (hk : s.gang key = some k) (hp : p ∈ k.places) (h : s.grp p ≠ none) : (xs.foldl (fun a x => a.killGang x.1) s).Dead p := by
  induction xs generalizing s with
  | nil => cases hx
  | cons x xs ih =>
    rw [List.foldl_cons]
    have hon := Onward.killGang s x.1
    rcases List.mem_cons.1 hx with rfl | hmem
    · exact (Onward.killGangs _ xs).dead p (State.dead_killGang s key p k hk hp h)
    · exact ih _ hmem (by rw [State.gang, hon.gangs]; exact hk) (hon.stands p h)

/-! ## A failing launch -/

/-- A queue that is not as reset leaves it stands as it was put. -/
theorem State.queue_setQueue (s : State) (q : Nat) (x : QDesc) (hx : x ≠ QDesc.reset) : (s.setQueue q x).queue q = x := by
  simp [State.queue, State.setQueue, SMap.setD, hx, SMap.getD, SMap.find_put]

/-- A frozen queue stands as it was put. -/
theorem State.queue_setQueue_of_frozen (s : State) (q : Nat) (x : QDesc) (hx : x.frozen = true) : (s.setQueue q x).queue q = x :=
  State.queue_setQueue s q x fun heq => by
    rw [heq] at hx
    cases hx

theorem State.task_setTask (s : State) (q n : Nat) (x : Task) : (s.setTask q n x).task q n = some x := SMap.find_put _ _ _

/-- The queue's descriptor and the task of a launch as it fails. -/
def QDesc.failed (x : QDesc) (n : Nat) (why : Byte) : QDesc := { x with frozen := true, fcause := why, fseq := bv 64 n }
def Task.failed (t : Task) (why : Byte) : Task := { t with failing := true, fcause := why }

/-- The state in which a failing launch's gangs are killed. -/
def State.failing (s : State) (q n : Nat) (tk : Task) (why : Byte) : State :=
  (s.setQueue q ((s.queue q).failed n why)).setTask q n (tk.failed why)

theorem State.failLaunch_frame (s : State) (q n : Nat) (tk : Task) (why : Byte) (h : s.running q n tk) :
    let u := (s.gangs.filter (fun x => decide (x.2.queue = q ∧ x.2.seqNo = n))).foldl (fun a x => a.killGang x.1) (s.failing q n tk why)
    s.failLaunch q n why = { u with
      gangs := (s.failLaunch q n why).gangs
      saved := (s.failLaunch q n why).saved
      die0 := (s.failLaunch q n why).die0
      die1 := (s.failLaunch q n why).die1 } := by
  obtain ⟨htask, hfail, hst⟩ := h
  have hgo : (tk.failing || decide (4 ≤ tk.st)) = false := by simp [hfail, hst]
  simp only [State.failLaunch, htask, hgo, Bool.false_eq_true, if_false]
  rfl

/-- What a launch that can still fail leaves when it does. -/
theorem State.failLaunch_spec (s : State) (q n : Nat) (tk : Task) (why : Byte) (h : s.running q n tk) :
    LaunchFailed s (s.failLaunch q n why) q n tk why := by
  have hframe := State.failLaunch_frame s q n tk why h
  have hon := State.Onward.killGangs (s.failing q n tk why) (s.gangs.filter (fun x => decide (x.2.queue = q ∧ x.2.seqNo = n)))
  have hqueue : (s.failLaunch q n why).queue q = (s.queue q).failed n why := by
    rw [hframe]
    exact (congrArg (fun m : SMap QDesc => m.getD q QDesc.reset) hon.queues).trans (State.queue_setQueue_of_frozen s q _ rfl)
  refine ⟨?_, ?_, ?_, ?_, fun key k p g hk hq hn hp hg => ?_⟩
  · rw [hqueue]
    rfl
  · rw [hqueue]
    rfl
  · rw [hqueue]
    rfl
  · rw [hframe]
    exact (congrArg (fun m : SMap Task => m.find (taskKey q n)) hon.tasks).trans (State.task_setTask _ q n _)
  · have hmem : (key, k) ∈ s.gangs.filter (fun x => decide (x.2.queue = q ∧ x.2.seqNo = n)) :=
      List.mem_filter.2 ⟨SMap.mem_of_find _ _ _ hk, decide_eq_true ⟨hq, hn⟩⟩
    have hstands : (s.failing q n tk why).grp p ≠ none := by
      rw [show (s.failing q n tk why).grp p = s.grp p from rfl, hg]
      exact Option.some_ne_none g
    obtain ⟨g', hg', hst', -⟩ := State.dead_killGangs (s.failing q n tk why) _ key p k hmem hk hp hstands
    refine ⟨g', ?_, hst'⟩
    rw [hframe]
    exact hg'

end Sys2Proof.Machine
end

section
/-!
PROOFS. Records as they are taken, watched, completed, cancelled and failed (R48, R52, R53, R63 to R67).
-/
namespace Sys2Proof.Machine

/-! ## Taking a record -/

/-- A record as it is taken, once its line is written. -/
theorem takenTask_noted (x : QDesc) (data : Line) (t w : Nat) : (takenTask x data t).noted w = { takenTask x data t with tw := w } := by
  simp [Task.noted, takenTask]

/-- A record in the scheduler, and its queue past it. -/
def State.tookRecord (s : State) (q : Nat) (x : QDesc) (tk : Task) : State :=
  (s.setTask q x.nextRecord tk).setQueue q { s.queue q with taken := x.taken + 1 }

section
variable {s t : State} {q : Nat} (hen : (s.queue q).en = true) (hdone : (s.queue q).enabling = false)
  (hfr : (s.queue q).frozen = false) (hw : s.waiting (.submit q) = false) (hopen : s.openTasks q < 64)
include hen hdone hfr hw hopen

theorem exec_takeRecord_of_token {v w : Nat}
    (hr : readCounter s (s.queue q).ctx (s.queue q).subctrNow.toNat = .ok t (.token v w)) :
    exec (.takeRecord q) s = .next (t.freezeQueue q 0x09) := by
  show execTakeRecord q s = _
  simp [execTakeRecord, hen, hdone, hfr, hw, Nat.not_le.2 hopen, hr, Ans.andThen]

section
variable {v w : Nat} (hr : readCounter s (s.queue q).ctx (s.queue q).subctrNow.toNat = .ok t (.value v w))
include hr

theorem exec_takeRecord_of_none (hv : v ≤ (s.queue q).taken.toNat) : exec (.takeRecord q) s = .next t := by
  show execTakeRecord q s = _
  simp [execTakeRecord, hen, hdone, hfr, hw, Nat.not_le.2 hopen, hr, Ans.andThen, hv]

/-- The record that stands next in the ring comes into the scheduler, and fails where it is not valid. -/
theorem exec_takeRecord_of_value {t1 t2 : State} {y : Got} {w1 w2 : Nat} (hv : (s.queue q).taken.toNat < v)
    (hread : unitRead t (s.queue q).ctx ((s.queue q).recAddr (s.queue q).taken.toNat) .load = .ok t1 (y, w1))
    (hwrite : writeRecord t1 (takenTask (s.queue q) y.data (max w w1)) 1 = .ok t2 w2) :
    let u := t2.tookRecord q (s.queue q) { takenTask (s.queue q) y.data (max w w1) with tw := w2 }
    exec (.takeRecord q) s = .next (if t2.badRecord y.data then u.failLaunch q (s.queue q).nextRecord 0x01
      else if (recInputs y.data).isEmpty then u.first [.taskReady q (s.queue q).nextRecord] else u) := by
  intro u
  have hinto : takeInto t q (s.queue q) w = .ok (if t2.badRecord y.data then u.failLaunch q (s.queue q).nextRecord 0x01
      else if (recInputs y.data).isEmpty then u.first [.taskReady q (s.queue q).nextRecord] else u) () := by
    simp only [takeInto, hread, Ans.andThen, hwrite, carryOn, Ans.lost, takenTask_noted]
    rfl
  show execTakeRecord q s = _
  simp [execTakeRecord, hen, hdone, hfr, hw, Nat.not_le.2 hopen, hr, Ans.andThen, Nat.not_le.2 hv, hinto]

end
end

/-! ## Watching the inputs -/

section
variable {s t : State} {q n : Nat} {tk : Task} (hp : s.pendingTask q n = some tk)
include hp

theorem exec_taskReady_of_unmet (hwatch : watchInputs tk.ctx (recInputs tk.data) (.met tk.t) s = .ok t .unmet) :
    exec (.taskReady q n) s = .next t := by
  show execTaskReady q n s = _
  simp [execTaskReady, hp, hwatch, Ans.andThen, taskAnswer]

theorem exec_taskReady_of_met {t1 : State} {w w1 : Nat}
    (hwatch : watchInputs tk.ctx (recInputs tk.data) (.met tk.t) s = .ok t (.met w)) (hpers : recPers tk.data = false)
    (hwrite : writeRecord t { tk with t := max tk.t w } 2 = .ok t1 w1) :
    exec (.taskReady q n) s = .next (t1.setTask q n { tk with st := 2, t := max tk.t w, tw := max tk.tw w1, owes := false }) := by
  show execTaskReady q n s = _
  simp [execTaskReady, hp, hwatch, Ans.andThen, taskAnswer, hpers, hwrite, carryOn, Ans.lost, Task.noted]

theorem exec_taskReady_of_token (hwatch : watchInputs tk.ctx (recInputs tk.data) (.met tk.t) s = .ok t .token) :
    exec (.taskReady q n) s = .next (t.first [.taskCancel q n]) := by
  show execTaskReady q n s = _
  simp [execTaskReady, hp, hwatch, Ans.andThen, taskAnswer]

end

/-- An input at its home decides by the error token, and else by its target. -/
theorem watchInputs_single {s t : State} {ctx a target v w r : Nat} (ha : a % 8 = 0) (ho : s.owner a ≠ .bad)
    (h : readAtHome s ctx a = .ok t (some (v, w))) :
    watchInputs ctx [(a, target)] (.met r) s
      = .ok t (if v.testBit 63 then .token else if target ≤ v then .met (max r w) else .unmet) := by
  simp only [watchInputs, readCounter_of_readAtHome ha ho h, Ans.andThen]
  by_cases hv : v.testBit 63 = true <;> simp only [hv, Bool.false_eq_true, if_true, if_false]

/-! ## The end of a task -/

/-- A task that is over writes its state, leaves the scheduler and adds to `out`. -/
theorem closeTask_of_write {s t : State} {q n w st : Nat} {tk : Task} {amount : DWord} (hwrite : writeRecord s tk st = .ok t w)
    (hout : recOut tk.data ≠ 0) : closeTask s q n tk st amount = .ok ({ t with tasks := t.tasks.del (taskKey q n) }.sendAdd tk.ctx
      (BitVec.ofNat 64 (recOut tk.data)) amount 0 (max tk.t (max tk.tw w)) none) () := by
  simp [closeTask, hwrite, carryOn, Ans.lost, Ans.andThen, hout, Task.noted, Task.outTime, bv]

theorem exec_taskCancel_of_token {s t t1 : State} {q n w1 : Nat} {tk : Task} (hp : s.pendingTask q n = some tk)
    (hwatch : watchInputs tk.ctx (recInputs tk.data) (.met tk.t) s = .ok t .token) (hwrite : writeRecord t tk 5 = .ok t1 w1)
    (hout : recOut tk.data ≠ 0) : exec (.taskCancel q n) s = .next ({ t1 with tasks := t1.tasks.del (taskKey q n) }.sendAdd tk.ctx
      (BitVec.ofNat 64 (recOut tk.data)) (BitVec.ofNat 64 (2 ^ 63)) 0 (max tk.t (max tk.tw w1)) none) := by
  show execTaskCancel q n s = _
  simp only [execTaskCancel, hp, hwatch, Ans.andThen, closeTask_of_write hwrite hout]
  rfl

section
variable {s t : State} {q n w : Nat} {tk : Task} (ht : s.task q n = some tk) (hw : s.waiting (.watch q n) = false)
  (htracks : s.tracksNone q n = true) (hout : recOut tk.data ≠ 0)
include ht hw htracks hout

theorem exec_launchComplete_of_done (hst : tk.st = 3) (hf : tk.failing = false) (hgangs : liveGangs tk.data ≤ tk.exited.eraseDups.length)
    (h0 : s.die0.spawnsOf q n = false) (h1 : s.die1.spawnsOf q n = false) (hwrite : writeRecord s tk 4 = .ok t w) :
    exec (.launchComplete q n) s = .next ({ t with tasks := t.tasks.del (taskKey q n) }.sendAdd tk.ctx (BitVec.ofNat 64 (recOut tk.data))
      (BitVec.ofNat 64 (recOinc tk.data)) 0 (max tk.t (max tk.tw w)) none) := by
  show execLaunchComplete q n s = _
  simp only [execLaunchComplete, ht, hst, hf, hw, hgangs, htracks, h0, h1, closeTask_of_write hwrite hout]
  rfl

theorem exec_failedRecordClose_of_failing (hf : tk.failing = true) (hwrite : writeRecord s tk 6 = .ok t w) :
    exec (.failedRecordClose q n) s = .next ({ t with tasks := t.tasks.del (taskKey q n) }.sendAdd tk.ctx
      (BitVec.ofNat 64 (recOut tk.data)) (BitVec.ofNat 64 (2 ^ 63)) 0 (max tk.t (max tk.tw w)) none) := by
  show execFailedRecordClose q n s = _
  simp only [execFailedRecordClose, ht, hf, hw, htracks, closeTask_of_write hwrite hout]
  rfl

end

theorem exec_gangWatchdog_of_off {s : State} {key : Nat} {k : Gang} (hk : s.gang key = some k) (h : (s.queue k.queue).wdog = 0xFFFF) :
    exec (.gangWatchdog key) s = .next s := by
  show execGangWatchdog key s = _
  simp [execGangWatchdog, hk, h]

theorem exec_gangWatchdog_of_on {s : State} {key : Nat} {k : Gang} (hk : s.gang key = some k) (hp : k.places ≠ [])
    (hh : (s.core k.core).halted = false) (h : (s.queue k.queue).wdog ≠ 0xFFFF) :
    exec (.gangWatchdog key) s = .next (s.failLaunch k.queue k.seqNo 0x04) := by
  have hgo : (k.places.isEmpty || decide ((s.queue k.queue).wdog = 0xFFFF) || (s.core k.core).halted) = false := by
    rw [hh, decide_eq_false h]
    simpa using hp
  show execGangWatchdog key s = _
  simp only [execGangWatchdog, hk, hgo, Bool.false_eq_true, if_false]

/-- Settles O46: records as they are taken, watched and closed, and a launch that fails. -/
theorem tasks : Obligations.Tasks := by
  unfold Obligations.Tasks
  refine ⟨?take, ?token, ?watch, ?input, ?close, fun s q n tk why h => ⟨_, rfl, State.failLaunch_spec s q n tk why h⟩, ?watchdog⟩
  case take =>
    intro s t t1 t2 q v w w1 w2 y tk hen hdone hfr hw hopen hr
    refine ⟨exec_takeRecord_of_none hen hdone hfr hw hopen hr, fun hv hread htk hwrite => ?_⟩
    subst htk
    have hexec := exec_takeRecord_of_value hen hdone hfr hw hopen hr hv hread hwrite
    refine ⟨fun hbad hin => ?_, fun hbad hin => ?_, fun hbad => ?_⟩
    · have hne : (recInputs y.data).isEmpty = false := by simpa using hin
      simp only [hbad, hne, Bool.false_eq_true, if_false] at hexec
      exact hexec
    · have hempty : (recInputs y.data).isEmpty = true := by simpa using hin
      simp only [hbad, hempty, Bool.false_eq_true, if_false, if_true] at hexec
      exact hexec
    · simp only [hbad, if_true] at hexec
      have hrun := State.task_setTask t2 q (s.queue q).nextRecord { takenTask (s.queue q) y.data (max w w1) with tw := w2 }
      have hfail := State.failLaunch_spec ((t2.setTask q (s.queue q).nextRecord _).setQueue q { t2.queue q with taken := (s.queue q).taken + 1 })
        q (s.queue q).nextRecord _ 0x01 ⟨hrun, rfl, show 1 < 4 by decide⟩
      refine ⟨_, hexec, hfail.frozen, hfail.cause, hfail.which.trans ?_, hfail.task⟩
      refine BitVec.eq_of_toNat_eq ?_
      have hlt := (s.queue q).taken.isLt
      rw [BitVec.toNat_ofNat, QDesc.nextRecord]
      omega
  case token =>
    intro s t q v w hen hdone hfr hw hopen hr
    refine ⟨_, exec_takeRecord_of_token hen hdone hfr hw hopen hr, ?_⟩
    rw [State.freezeQueue, State.queue_setQueue_of_frozen _ _ _ rfl]
    exact ⟨rfl, rfl, rfl⟩
  case watch =>
    intro s t t1 q n w w1 tk hp
    exact ⟨exec_taskReady_of_met hp, exec_taskReady_of_unmet hp, fun hwatch =>
      ⟨exec_taskReady_of_token hp hwatch, exec_taskCancel_of_token hp hwatch⟩⟩
  case input =>
    intro s t ctx a target v w r ha ho h
    rw [watchInputs_single ha ho h]
    refine ⟨fun hv => by rw [if_pos hv], fun hv hmet => ?_, fun hv hmet => ?_⟩
    · rw [if_neg (by simp [hv]), if_pos hmet]
    · rw [if_neg (by simp [hv]), if_neg (Nat.not_le.2 hmet)]
  case close =>
    intro s t q n w tk ht hw htracks hout
    exact ⟨exec_launchComplete_of_done ht hw htracks hout, exec_failedRecordClose_of_failing ht hw htracks hout⟩
  case watchdog =>
    intro s key k tk hk hplaces hhalt hrun
    refine ⟨fun hoff => exec_gangWatchdog_of_off hk hoff, fun hon => ⟨_, exec_gangWatchdog_of_on hk hplaces hhalt hon, ?_⟩⟩
    exact State.failLaunch_spec s k.queue k.seqNo tk 0x04 hrun

end Sys2Proof.Machine
end

section
/-!
SUPPORT. What a write at a home does beside it: gangs, tasks and queues stay, and so do the groups, the killed ones killed (R117, R143, R168,
R179 to R181).
-/
namespace Sys2Proof.Machine
namespace State.Onward

/-! ## Updates that touch no group -/

theorem modDie (s : State) (d : Nat) (f : Die → Die) : s.Onward (s.modDie d f) :=
  of_groups (State.modDie_groups s d f) (State.modDie_gangs s d f) (State.modDie_tasks s d f) (State.modDie_queues s d f)

theorem modCore (s : State) (c : Nat) (f : Core → Core) : s.Onward (s.modCore c f) := of_groups rfl rfl rfl rfl

theorem setCopyOf (s : State) (c ctx va : Nat) (y : Copy) : s.Onward (s.setCopyOf c ctx va y) := modCore s c _

theorem raiseT (s : State) (c t : Nat) : s.Onward (s.raiseT c t) := modCore s c _

theorem first (s : State) (xs : List Instr) : s.Onward (s.first xs) := of_groups rfl rfl rfl rfl

theorem setPhys (s : State) (d a n v : Nat) : s.Onward (s.setPhys d a n v) := by
  unfold State.setPhys
  split
  · exact refl s
  · exact modDie s d _

theorem notePoison (s : State) (d a n : Nat) : s.Onward (s.notePoison d a n) := by
  unfold State.notePoison
  split
  · exact modDie s d _
  · exact refl s

theorem holdDesc (s : State) (d ctx : Nat) : s.Onward (s.holdDesc d ctx) := by
  unfold State.holdDesc
  dsimp only
  split
  · exact modDie s d _
  · exact (notePoison s d _ _).trans (modDie _ d _)

theorem recordFault (s : State) (d va ctx : Nat) (acc : AccK) (host : Bool) (slice cause level pte : Nat) :
    s.Onward (s.recordFault d va ctx acc host slice cause level pte) := by
  unfold State.recordFault
  dsimp only
  split
  · exact refl s
  · refine (holdDesc s d ctx).trans ?_
    split
    · exact setPhys _ d _ _ _
    · exact of_groups rfl rfl rfl rfl

theorem setSlice (s : State) (d n : Nat) (x : Slice) : s.Onward (s.setSlice d n x) := modDie s d _

theorem cnt (s : State) (d : Nat) (f : Counts → Counts) : s.Onward (s.cnt d f) := modDie s d _

theorem handWalk (s : State) (d n : Nat) (w : Walk) : s.Onward (s.handWalk d n w) := by
  unfold State.handWalk
  exact modDie s d _

theorem takeWalk (s : State) (d ctx va : Nat) (acc : AccK) (host : Bool) : s.Onward (s.takeWalk d ctx va acc host).1 := by
  unfold State.takeWalk
  split
  · exact refl s
  · split
    · exact refl s
    · exact handWalk s d _ _

theorem setHome (s : State) (d ctx va : Nat) (h : HomeLine) : s.Onward (s.setHome d ctx va h) := modDie s d _

theorem raiseTop (s : State) (d va r : Nat) : s.Onward (s.raiseTop d va r) := setSlice s d _ _

theorem linkDropped (s : State) (d : Nat) : s.Onward (s.linkDropped d) := cnt s d _

theorem dropFar (s : State) (d va : Nat) : s.Onward (s.dropFar d va) := by
  unfold State.dropFar
  split
  · exact linkDropped s d
  · exact refl s

theorem homeOut (s : State) (d ctx va : Nat) (h : HomeLine) : s.Onward (s.homeOut d ctx va h) := by
  unfold State.homeOut
  dsimp only
  split
  · exact (setSlice s d _ _).trans ((modDie _ d _).trans ((modDie _ d _).trans (cnt _ d _)))
  · exact (setSlice s d _ _).trans (modDie _ d _)

theorem fillLine (s : State) (d : Nat) (host : Bool) (ctx va : Nat) (e : TlbE) : s.Onward (s.fillLine d host ctx va e).1 := by
  unfold State.fillLine
  dsimp only
  exact (modDie s d _).trans (cnt _ d _)

theorem homePut (s : State) (d ctx va : Nat) (h : HomeLine) (l : Line) (t : Nat) (whole : Bool) :
    s.Onward (s.homePut d ctx va h l t whole).1 := by
  rw [State.homePut]
  split
  · exact setHome s d ctx va _
  · dsimp only
    exact (setHome s d ctx va _).trans ((raiseTop _ d va _).trans (cnt _ d _))

/-! ## Recalls, and pushes that reach a core -/

theorem receive (s : State) (x : Push) : s.Onward (s.receive x) := by
  unfold State.receive
  extract_lets c held drop counted
  split
  · exact refl s
  · split
    · exact modCore s _ _
    · exact setCopyOf s _ _ _ _

theorem deliver (s : State) (c ctx va : Nat) : s.Onward (s.deliver c ctx va) := by
  unfold State.deliver
  exact State.Onward.trans (t := { s with pushes := s.pushes.filter (fun x => !x.isTo c ctx va) }) (of_groups rfl rfl rfl rfl)
    (foldl _ receive _ _)

theorem giveBack (s : State) (c ctx va : Nat) (own : Bool) : s.Onward (s.giveBack c ctx va own).1 := by
  unfold State.giveBack
  dsimp only
  split
  · split
    · dsimp only
      split
      · exact modCore s c _
      · exact setCopyOf s c ctx va _
    · exact refl s
  · split
    · exact modGrp s _ _ fun g hst hcp => ⟨hst, hcp⟩
    · exact refl s

theorem recallLine (s : State) (d ctx va : Nat) (h : HomeLine) (c : Nat) (own : Bool) : s.Onward (s.recallLine d ctx va h c own).1 := by
  have hback := (deliver s c ctx va).trans (giveBack _ c ctx va own)
  unfold State.recallLine
  generalize (s.deliver c ctx va).giveBack c ctx va own = u at hback
  exact hback.trans ((setHome _ d ctx va _).trans (raiseTop _ d va _))

/-! ## Answers -/

theorem andThen {α β : Type} {s : State} {a : Ans α} {f : State → α → Ans β} (ha : s.Onward a.state)
    (hf : ∀ t x, State.Onward t (f t x).state) : s.Onward (a.andThen f).state := by
  cases a with
  | ok t x => exact ha.trans (hf t x)
  | wait t w => exact ha
  | fault t d => exact ha
  | poisoned t => exact ha
  | far t => exact ha

theorem lost {α : Type} {s : State} {a : Ans α} (ha : s.Onward a.state) (d va : Nat) (x : α) : s.Onward (a.lost d va x).state := by
  cases a with
  | far t => exact ha.trans (dropFar t d va)
  | ok t x => exact ha
  | wait t w => exact ha
  | fault t d => exact ha
  | poisoned t => exact ha

theorem walkMiss {α : Type} (s : State) (d ctx va : Nat) (acc : AccK) (host : Bool) :
    s.Onward (walkMiss (α := α) s d ctx va acc host).state := by
  have hwalk := takeWalk s d ctx va acc host
  unfold Machine.walkMiss
  generalize s.takeWalk d ctx va acc host = u at hwalk
  obtain ⟨t, _ | n⟩ := u <;> exact hwalk

theorem unowned (s : State) (d ctx va : Nat) (h : HomeLine) (who : Option Nat) (own : Bool) :
    s.Onward (unowned s d ctx va h who own).state := by
  unfold Machine.unowned
  split
  · exact refl s
  · dsimp only
    split
    · exact first s _
    · exact recallLine s d ctx va h _ own

theorem l2Room (s : State) (d va : Nat) : s.Onward (l2Room s d va).state := by
  unfold Machine.l2Room
  dsimp only
  split
  · exact refl s
  · split
    · next y _ =>
      have hfresh : s.Onward { s with fresh := s.fresh + 1 } := of_groups rfl rfl rfl rfl
      cases y.2.owner with
      | none => exact hfresh.trans (homeOut _ d _ _ _)
      | some c => exact hfresh.trans ((recallLine _ d _ _ _ c true).trans (homeOut _ d _ _ _))
    · exact first s _

theorem fillFor (s : State) (d : Nat) (host : Bool) (ctx va : Nat) (e : TlbE) : s.Onward (fillFor s d host ctx va e).state := by
  unfold Machine.fillFor
  split
  · exact refl s
  · exact andThen (l2Room s d va) fun t _ => fillLine t d host ctx va e

theorem refresh (s : State) (d : Nat) (host : Bool) (ctx va : Nat) (h : HomeLine) (e : TlbE) :
    s.Onward (refresh s d host ctx va h e).state := by
  unfold Machine.refresh
  split
  · exact setHome s d ctx va _
  · exact andThen (unowned s d ctx va h none true) fun t h => (homeOut t d ctx va h).trans (fillFor _ d host ctx va e)

theorem homeLine (s : State) (d : Nat) (host : Bool) (ctx va : Nat) (acc : AccK) : s.Onward (homeLine s d host ctx va acc).state := by
  unfold Machine.homeLine
  dsimp only
  refine (holdDesc s d ctx).trans ?_
  generalize s.holdDesc d ctx = u
  have hjudge : ∀ k : TlbE → Ans AtHome, (∀ e, u.Onward (k e).state) → u.Onward (match (u.die d).tlbFind (homeSlice va) ctx va with
      | some e => if e.perm.permits acc then k e else Machine.walkMiss u d ctx va acc host
      | none => Machine.walkMiss u d ctx va acc host).state := by
    intro k hk
    split
    · split
      · exact hk _
      · exact walkMiss u d ctx va acc host
    · exact walkMiss u d ctx va acc host
  split
  · exact recordFault u d va ctx acc host _ _ _ _
  · split
    · split
      · split
        · exact first u _
        · exact refl u
      · refine hjudge _ fun e => ?_
        split
        · exact first u _
        · exact refresh u d host ctx va _ e
    · exact hjudge _ fun e => fillFor u d host ctx va e

theorem atHome (s : State) (ctx va : Nat) (acc : AccK) : s.Onward (atHome s ctx va acc).state := by
  unfold Machine.atHome
  split
  · exact andThen (homeLine s _ false ctx va acc) fun t _ => refl t
  · exact andThen (homeLine s _ true ctx va acc) fun t _ => refl t
  · exact refl s
  · exact refl s

/-! ## Wake-ups, and the write -/

theorem wakeOne (s : State) (d : Nat) (x : Line) (w : Nat) (y : Waiter) : s.Onward (s.wakeOne d x w y) := by
  unfold State.wakeOne
  split
  · refine State.Onward.trans (t := s.modGrp _ _) ?_ (linkDropped _ d)
    exact modGrp s _ _ fun g hst hcp => ⟨hst, by simp [hcp]⟩
  · refine State.Onward.trans (t := s.modGrp _ _) ?_ (raiseT _ _ w)
    refine modGrp s _ _ fun g hst hcp => ?_
    have hwake : ∀ v, g.wake v = g := fun v => by simp [Group.wake, hcp]
    rw [hwake]
    exact ⟨hst, hcp⟩

theorem wakeWaiters (s : State) (d ctx va : Nat) (x : Line) (w : Nat) : s.Onward (s.wakeWaiters d ctx va x w) :=
  (setSlice s d _ _).trans (foldl _ (fun t y => wakeOne t d x w y) _ _)

theorem putAndWake (s : State) (d ctx va : Nat) (h : HomeLine) (l : Line) (t : Nat) (whole : Bool) :
    s.Onward (if h.perm.ctr && !h.perm.managed
      then (s.homePut d ctx va h l t whole).1.wakeWaiters d ctx va l (s.homePut d ctx va h l t whole).2
      else (s.homePut d ctx va h l t whole).1) := by
  split
  · exact (homePut s d ctx va h l t whole).trans (wakeWaiters _ _ _ _ _ _)
  · exact homePut s d ctx va h l t whole

theorem homeWriteLine {α : Type} (s : State) (ctx va : Nat) (acc : AccK) (t : Nat) (who : Option Nat) (whole : Bool)
    (f : HomeLine → Option Line × α) : s.Onward (homeWriteLine s ctx va acc t who whole f).state := by
  unfold Machine.homeWriteLine
  refine andThen (atHome s ctx va acc) fun u y => ?_
  split
  · exact refl u
  · refine andThen (unowned u y.1 ctx va _ who true) fun u h => ?_
    have hown : u.Onward (match who with
        | some c => u.deliver c ctx va
        | none => u) := by
      cases who with
      | none => exact refl u
      | some c => exact deliver u c ctx va
    extract_lets v
    cases f h with
    | mk l x =>
      cases l with
      | none => exact hown
      | some l => exact hown.trans (putAndWake v y.1 ctx va h l t whole)

theorem writeRecord (s : State) (t : Task) (st : Nat) : s.Onward (writeRecord s t st).state :=
  andThen (homeWriteLine s t.ctx t.addr.toNat .store t.t none false _) fun u _ => refl u

theorem carryOn {s : State} {a : Ans Nat} (ha : s.Onward a.state) (t : Task) : s.Onward (carryOn t a).state := by
  have hlost := lost ha 0 t.addr.toNat 0
  unfold Machine.carryOn
  split
  · next u heq =>
    rw [heq] at hlost
    exact hlost
  · exact hlost

end State.Onward

/-- A relaunch is noted in the task; its record says so too, or the task owes it. -/
theorem State.noteRelaunch_spec (s : State) (q n : Nat) (t : Task) :
    ∃ (u : State) (tw : Nat) (owes : Bool), s.noteRelaunch q n t = u.setTask q n { t with tw := tw, owes := owes } ∧ s.Onward u := by
  have hon := State.Onward.carryOn (State.Onward.writeRecord s t t.st) t
  unfold State.noteRelaunch
  cases hc : Machine.carryOn t (Machine.writeRecord s t t.st) with
  | ok u w =>
    rw [hc] at hon
    exact ⟨u, max t.tw w, false, rfl, hon⟩
  | wait u w =>
    rw [hc] at hon
    exact ⟨u, t.tw, true, rfl, hon⟩
  | fault u d =>
    rw [hc] at hon
    exact ⟨u, t.tw, true, rfl, hon⟩
  | poisoned u =>
    rw [hc] at hon
    exact ⟨u, t.tw, true, rfl, hon⟩
  | far u =>
    rw [hc] at hon
    exact ⟨u, t.tw, true, rfl, hon⟩

end Sys2Proof.Machine
end

section
/-!
PROOFS. Errors: what a message that no link carries leaves, and storage that fails (R64, R65, R137, R138, R251, R253).
-/
namespace Sys2Proof.Machine

/-! ## Messages that no link carries (R253) -/

theorem dropAt_eq_eraseIdx {α : Type} (xs : List α) (n : Nat) : dropAt xs n = xs.eraseIdx n := (List.eraseIdx_eq_take_drop_succ xs n).symm

theorem exec_linkRetryExhausted_add {s : State} {n : Nat} {a : Add} (h : s.adds[n]? = some a) :
    exec (.linkRetryExhausted (.add n)) s = .next (if s.offModule a.va.toNat then (s.dropAdd a.id).linkDropped a.die else s) := by
  show execLinkRetryExhausted (.add n) s = _
  simp only [execLinkRetryExhausted, h]

theorem exec_linkRetryExhausted_push {s : State} {n : Nat} {x : Push} (h : s.pushes[n]? = some x) :
    exec (.linkRetryExhausted (.push n)) s
      = .next (if s.offModule x.va then { s with pushes := s.pushes.eraseIdx n }.linkDropped (coreDie x.src) else s) := by
  show execLinkRetryExhausted (.push n) s = _
  simp only [execLinkRetryExhausted, h, dropAt_eq_eraseIdx]

theorem exec_linkRetryExhausted_fetch {s : State} {p : Nat} {g : Group} (h : s.grp p = some g) (hw : g.wantsWord = true) :
    exec (.linkRetryExhausted (.fetch p)) s = .next (if s.offModule (pcLine g.pc)
      then s.takeTrap p { cause := .poisoned, info := bv 64 (pcLine g.pc), pc := g.pc } else s) := by
  show execLinkRetryExhausted (.fetch p) s = _
  simp only [execLinkRetryExhausted, h, hw, Bool.true_and]

theorem exec_regUncorrectableError_of_grp {s : State} {p n : Nat} {g : Group} (h : s.grp p = some g) :
    exec (.regUncorrectableError p n) s = .next (s.takeTrap p { cause := .regUncorrectable, info := bv 64 n, pc := g.pc }) := by
  show execRegUncorrectableError p n s = _
  simp only [execRegUncorrectableError, h]

/-! ## Memory that fails (R137) -/

theorem exec_linkRetryExhausted_memory {s : State} {d a : Nat} (hd : d < 2) (ha : a < 2 ^ 37) :
    exec (.linkRetryExhausted (.memory d a)) s
      = .next (s.modDie d (fun x => { x with poison := x.poison.setD (frameKey false a) (~~~0) 0 })) := by
  have hin : (decide (Config.memBytes ≤ a) || decide (2 ≤ d)) = false := by
    have hmem : a < Config.memBytes := ha
    simp [hmem, hd]
  show execLinkRetryExhausted (.memory d a) s = _
  rw [execLinkRetryExhausted]
  simp only [State.memoryError, hin, Bool.false_eq_true, if_false]

/-- Two addresses of one line have one poison mark. -/
theorem frameKey_line {a b : Nat} (h : b / 128 = a / 128) (host : Bool) : frameKey host (b / 128 * 128) = frameKey host a := by
  rw [frameKey, Nat.mul_div_cancel _ (by decide : 0 < 128), h, frameKey]

theorem State.fillLine_poison (s : State) (d : Nat) (host : Bool) (ctx va : Nat) (e : TlbE) :
    (s.fillLine d host ctx va e).2.poison
      = ((s.die d).poison.getD (frameKey host ((e.frame + va % 2 ^ e.size) / 128 * 128)) 0 != 0) := rfl

/-! ## Stash that fails (R65, R137) -/

/-- A task whose k-th span of gangs is to run again. -/
def Task.relaunched (t : Task) (k : Nat) : Task := { t with
  relaunches := t.relaunches + 1
  placed := t.placed.filter (· != k)
  exited := t.exited.filter (fun g => g / recSpan t.data != k) }

/-- The resident gangs of a span of a task. -/
def State.spanGangs (s : State) (q n : Nat) (t : Task) (k : Nat) : List (Nat × Gang) :=
  s.gangs.filter (fun y => decide (y.2.queue = q ∧ y.2.seqNo = n ∧ y.2.spawned = false ∧ y.2.gang / recSpan t.data = k))

/-- The gangs killed, and no longer listed once their stash is free. -/
def State.dropGangs (s : State) (xs : List (Nat × Gang)) : State :=
  let t := xs.foldl (fun a y => a.killGang y.1) s
  { t with
    gangs := t.gangs.filter (fun y => !(!t.holdsStash y.1 y.2 && xs.any (fun z => z.1 == y.1)))
    saved := t.saved.filter (fun y => !xs.any (fun z => z.1 == y.gangKey)) }

section
variable {s : State} {c off key : Nat} {k : Gang} {tk : Task}

theorem exec_stashUncorrectable_of_gang (hgangs : s.gangs = [(key, k)]) (hc : k.core = c) (hp : k.places ≠ []) (hdying : s.dying k = false)
    (hlo : k.stashBase ≤ off) (hhi : off < k.stashBase + k.stashSize) (htask : s.task k.queue k.seqNo = some tk) :
    exec (.stashUncorrectable c off) s = .next (s.relaunchSpan k.queue k.seqNo k.gang k.spawned tk 0x06) := by
  have hholds : s.holdsStash key k = true := by simp [State.holdsStash, hp]
  have hgang : s.gang key = some k := by simp [State.gang, hgangs, SMap.find]
  show execStashUncorrectable c off s = _
  simp [execStashUncorrectable, hgangs, hc, hholds, hlo, hhi, State.relaunch, hgang, hdying, htask]

theorem State.relaunchSpan_of_failing {q n gang : Nat} {why : Byte} (h : recIdem tk.data = false) :
    s.relaunchSpan q n gang false tk why = s.failLaunch q n why := by
  simp [State.relaunchSpan, h]

theorem State.relaunchSpan_of_spent {q n gang : Nat} {why : Byte} (h : recIdem tk.data = true) (hr : 3 ≤ tk.relaunches) :
    s.relaunchSpan q n gang false tk why = s.failLaunch q n 0x07 := by
  simp [State.relaunchSpan, h, hr]

/-- A span that may run again: its gangs are killed, and the task counts it. -/
theorem State.relaunchSpan_of_idem {q n gang : Nat} {why : Byte} (h : recIdem tk.data = true) (hr : tk.relaunches < 3) (hwhy : why ≠ 0x05) :
    ∃ (u : State) (tw : Nat) (owes : Bool), s.relaunchSpan q n gang false tk why
        = u.setTask q n { tk.relaunched (gang / recSpan tk.data) with tw := tw, owes := owes }
      ∧ ∀ p, (((s.spanGangs q n tk (gang / recSpan tk.data)).foldl (fun a y => a.killGang y.1) s).Dead p) → u.Dead p := by
  have hrun : ¬ 3 ≤ tk.relaunches := Nat.not_le.2 hr
  have hidem : (!recIdem tk.data || false) = false := by rw [h]; rfl
  have hquiet : (decide (why = 0x05) && recOut tk.data != 0) = false := by rw [decide_eq_false hwhy, Bool.false_and]
  obtain ⟨u, tw, owes, hnote, hon⟩ := State.noteRelaunch_spec (s.dropGangs (s.spanGangs q n tk (gang / recSpan tk.data))) q n
    (tk.relaunched (gang / recSpan tk.data))
  refine ⟨u, tw, owes, ?_, fun p hp => hon.dead p hp⟩
  rw [← hnote, State.relaunchSpan, if_neg (by rw [hidem]; decide), if_neg hrun]
  exact if_neg (by rw [hquiet]; decide)

/-- The resident groups of a gang whose span runs again are killed, and its task counts it. -/
theorem State.relaunchSpan_spec {why : Byte} (hgangs : s.gangs = [(key, k)]) (hspawned : k.spawned = false)
    (h : recIdem tk.data = true) (hr : tk.relaunches < 3) (hwhy : why ≠ 0x05) : ∃ (t : State) (tw : Nat) (owes : Bool),
      s.relaunchSpan k.queue k.seqNo k.gang false tk why = t
      ∧ t.task k.queue k.seqNo = some { tk.relaunched (k.gang / recSpan tk.data) with tw := tw, owes := owes }
      ∧ ∀ p g, p ∈ k.places → s.grp p = some g → ∃ g', t.grp p = some g' ∧ g'.st = .killed := by
  obtain ⟨u, tw, owes, ht, hdead⟩ := State.relaunchSpan_of_idem (s := s) (q := k.queue) (n := k.seqNo) (gang := k.gang) h hr hwhy
  refine ⟨_, tw, owes, ht, State.task_setTask u _ _ _, fun p g hp hg => ?_⟩
  have hmem : (key, k) ∈ s.spanGangs k.queue k.seqNo tk (k.gang / recSpan tk.data) := by
    simp [State.spanGangs, hgangs, hspawned]
  have hgang : s.gang key = some k := by simp [State.gang, hgangs, SMap.find]
  obtain ⟨g', hg', hst, -⟩ := hdead p (State.dead_killGangs s _ key p k hmem hgang hp (by simp [hg]))
  exact ⟨g', hg', hst⟩

end

/-! ## Lines that fail (R138) -/

theorem exec_l2DataUncorrectable_of_home {s : State} {d ctx va : Nat} {hl : HomeLine} (h : s.homeIs d ctx va hl) :
    exec (.l2DataUncorrectable d ctx va) s = .next (s.setHome d ctx va { hl with poison := true }) := by
  have hat : s.homeAt d ctx va = some hl := h
  show execL2DataUncorrectable d ctx va s = _
  simp only [execL2DataUncorrectable, hat]

/-- The home's line after its owner has given back a poisoned copy. -/
def HomeLine.tookPoisoned (hl : HomeLine) (y : Copy) : HomeLine :=
  { hl with data := y.data, w := y.w, h := max hl.h y.r, owner := none, hold := false, poison := true, dirty := true }

section
variable {s : State} {c d ctx va : Nat} {hl : HomeLine} {y : Copy}

theorem State.ownedBack_of_owner {x : Line} {w r : Nat} {bad : Bool} (hown : s.owner va = .die d) (hhome : s.homeIs d ctx va hl)
    (howner : hl.owner = some c) (hknown : hl.unknown = false) : s.ownedBack c ctx va x w r bad
      = (s.setHome d ctx va { hl with
          data := x, w := w, h := max hl.h r, owner := none, hold := false, poison := bad, dirty := true }).raiseTop d va r := by
  have hfind : (s.die d).l2.find (lineKey ctx va) = some hl := hhome
  simp only [State.ownedBack, hown, hfind, hknown, howner, Bool.false_eq_true, if_false, if_true]

/-- Where a core has bound a line depends on the gangs, the groups and the core's stream. -/
theorem State.boundOff_congr {s t : State} (c ctx va : Nat) (hgangs : t.gangs = s.gangs) (hgroups : t.groups = s.groups)
    (hreel : (t.core c).reelGang = (s.core c).reelGang) : t.boundOff c ctx va = s.boundOff c ctx va := by
  have hgrp : t.grp = s.grp := funext fun p => by rw [State.grp, State.grp, hgroups]
  have hholds : ∀ key (k : Gang), k.core = c → t.holdsStash key k = s.holdsStash key k := fun key k hk => by
    simp only [State.holdsStash, State.gangStream, State.stream, hk, hreel, hgrp]
  rw [State.boundOff, State.boundOff, hgangs]
  refine congrArg (fun f => List.findSome? f s.gangs) (funext fun x => ?_)
  by_cases hx : x.2.core = c
  · rw [hholds x.1 x.2 hx]
  · rw [if_neg fun h => hx h.1, if_neg fun h => hx h.1]

theorem State.has_poisoned (h : s.Has c ctx va y) :
    (s.setCopyOf c ctx va { y with poison := true }).Has c ctx va { y with poison := true } where
  copy := by
    rw [State.setCopyOf_core s c ctx va { y with poison := true } h.plain]
    exact SMap.find_put _ _ _
  unbound := by
    have hcore := State.setCopyOf_core s c ctx va { y with poison := true } h.plain
    have hsame := State.boundOff_congr (s := s) (t := s.setCopyOf c ctx va { y with poison := true }) c ctx va rfl rfl (by rw [hcore])
    exact hsame.trans h.unbound
  plain := h.plain

theorem recallCopy_of_owned (h : s.Has c ctx va y) (hst : y.st = .o) (hw : s.waiting (.recall c (lineKey ctx va)) = false) :
    recallCopy s c ctx va
      = .ok ((s.ownedBack c ctx va y.data y.w y.r y.poison).modCore c (fun x => x.dropCopy (lineKey ctx va))) () := by
  simp [recallCopy, evictCopy, State.copyOf_of_has h, hst, hw]

theorem exec_l1DirtyUncorrectable_of_owned (hown : s.owner va = .die d) (hhome : s.homeIs d ctx va hl) (h : s.Has c ctx va y)
    (hst : y.st = .o) (howner : hl.owner = some c) (hknown : hl.unknown = false) (hw : s.waiting (.recall c (lineKey ctx va)) = false) :
    exec (.l1DirtyUncorrectable c ctx va) s = .next (((((s.setCopyOf c ctx va { y with poison := true }).setHome d ctx va
      (hl.tookPoisoned y)).raiseTop d va y.r).modCore c (fun x => x.dropCopy (lineKey ctx va)))) := by
  have hback := State.ownedBack_of_owner (s := s.setCopyOf c ctx va { y with poison := true }) (x := y.data) (w := y.w) (r := y.r)
    (bad := true) hown hhome howner hknown
  show execL1DirtyUncorrectable c ctx va s = _
  have hdirty : (y.stash.isNone && (y.st == .o || (y.st == .managed && y.mask != 0))) = true := by simp [h.plain, hst]
  simp only [execL1DirtyUncorrectable, State.copyOf_of_has h, hdirty, if_true]
  rw [recallCopy_of_owned (State.has_poisoned h) hst hw, hback]
  rfl

end

theorem State.die_setSlice_l2 (s : State) (d n : Nat) (x : Slice) : ((s.setSlice d n x).die d).l2 = (s.die d).l2 := by
  rw [State.setSlice, State.die_modDie]

theorem State.cores_raiseTop_setHome (s : State) (d ctx va r : Nat) (h : HomeLine) :
    ((s.setHome d ctx va h).raiseTop d va r).cores = s.cores := by
  simp [State.raiseTop, State.setSlice, State.setHome]

theorem State.homeIs_raiseTop_setHome (s : State) (d ctx va r : Nat) (h : HomeLine) :
    ((s.setHome d ctx va h).raiseTop d va r).homeIs d ctx va h := by
  show (((s.setHome d ctx va h).setSlice d _ _).die d).l2.find _ = _
  rw [State.die_setSlice_l2, State.setHome, State.die_modDie]
  exact SMap.find_put _ _ _

/-! ## Counted errors (R251) -/

theorem State.cnt_die (s : State) (d : Nat) (f : Counts → Counts) : (s.cnt d f).die d = { s.die d with cnt := f (s.die d).cnt } := by
  rw [State.cnt, State.die_modDie]

theorem State.dropTlb_die {s : State} {d slice n : Nat} (h : n < ((s.die d).tlb.getD slice []).length) :
    (s.dropTlb d slice n).die d = { s.die d with
      tlb := (s.die d).tlb.setD slice (((s.die d).tlb.getD slice []).eraseIdx n) []
      cnt := { (s.die d).cnt with ceTlb := sat64 ((s.die d).cnt.ceTlb + 1) } } := by
  simp only [State.dropTlb, if_neg (Nat.not_le.2 h), State.cnt_die, State.die_modDie, dropAt_eq_eraseIdx]

/-! ## The statement -/

/-- Settles O54: what lost messages and errors of storage leave. -/
theorem errorEvents : Obligations.ErrorEvents := by
  unfold Obligations.ErrorEvents
  refine ⟨fun s n p => ⟨?add, ?push, ?fetch, fun g hg => exec_regUncorrectableError_of_grp hg⟩, ?poisoned,
    fun s d a hd ha => ⟨_, exec_linkRetryExhausted_memory hd ha⟩, ?stash,
    fun s c d ctx va hl hhome => ⟨exec_l2DataUncorrectable_of_home hhome, ?dirty⟩, fun s d slice n k => ⟨?parity, rfl, ?corrected⟩⟩
  case add =>
    intro a ha
    rw [exec_linkRetryExhausted_add ha]
    exact ⟨fun hoff => by rw [if_pos hoff]; rfl, fun hoff => by rw [hoff]; rfl⟩
  case push =>
    intro x hx
    rw [exec_linkRetryExhausted_push hx]
    exact ⟨fun hoff => by rw [if_pos hoff]; rfl, fun hoff => by rw [hoff]; rfl⟩
  case fetch =>
    intro g hg hword
    rw [exec_linkRetryExhausted_fetch hg hword]
    exact ⟨fun hoff => by rw [if_pos hoff]; rfl, fun hoff => by rw [hoff]; rfl⟩
  case poisoned =>
    intro s d a ctx va e t hd ha hexec hwf hline
    rw [exec_linkRetryExhausted_memory hd ha] at hexec
    cases hexec
    rw [State.fillLine_poison, State.die_modDie, frameKey_line hline, SMap.getD_setD _ _ _ _ hwf]
    decide
  case stash =>
    intro s c off key k tk hgangs hc hp hdying hlo hhi hrun hspawned
    have hexec := exec_stashUncorrectable_of_gang hgangs hc hp hdying hlo hhi hrun.1
    rw [hspawned] at hexec
    refine ⟨fun hidem => ⟨_, hexec, ?_⟩, fun hidem hr => ⟨_, hexec, ?_⟩, fun hidem hr => ?_⟩
    · rw [State.relaunchSpan_of_failing hidem]
      exact State.failLaunch_spec s _ _ _ _ hrun
    · rw [State.relaunchSpan_of_spent hidem hr]
      exact State.failLaunch_spec s _ _ _ _ hrun
    · obtain ⟨t, tw, owes, ht, htask, hkilled⟩ := State.relaunchSpan_spec hgangs hspawned hidem hr (why := 0x06) (by decide)
      rw [ht] at hexec
      exact ⟨t, _, hexec, htask, rfl, rfl, rfl, rfl, rfl, hrun.2.1, hkilled⟩
  case dirty =>
    intro y hown h hst howner hknown hcores hl1 hw
    refine ⟨_, exec_l1DirtyUncorrectable_of_owned hown hhome h hst howner hknown hw, ?_, ?_⟩
    · have hback := State.cores_raiseTop_setHome (s.setCopyOf c ctx va { y with poison := true }) d ctx va y.r (hl.tookPoisoned y)
      rw [State.core_modCore_of_wf _ _ _ (by rw [hback]; exact State.wf_cores_modCore s c _ hcores), State.core, hback, ← State.core,
        State.setCopyOf_core s c ctx va { y with poison := true } h.plain]
      exact SMap.find_del _ _ (SMap.wf_put _ _ _ hl1)
    · exact State.homeIs_raiseTop_setHome _ d ctx va y.r (hl.tookPoisoned y)
  case parity =>
    intro hn hwf
    refine ⟨_, rfl, ?_, ?_⟩
    · rw [State.dropTlb_die hn]
      exact SMap.getD_setD _ _ _ _ hwf
    · rw [State.dropTlb_die hn]
      rfl
  case corrected =>
    intro hk
    refine ⟨countCe k, ?_, fun c => ?_⟩
    · cases k with
      | tlb i j => exact absurd rfl (hk i j)
      | _ => rfl
    · cases k with
      | tlb i j => exact absurd rfl (hk i j)
      | _ => exact ⟨rfl, rfl, rfl, rfl, rfl, rfl, rfl, rfl, rfl, rfl⟩

end Sys2Proof.Machine
end

section
/-!
PROOFS. Control registers and the hidden state as `CSRW` writes them (R81, R83, R198, R199, R282, R323).
-/
namespace Sys2Proof.Machine

/-! ## Maps and the group at a place -/

/-- Listing again what is listed changes nothing. -/
theorem SMap.put_of_find {α : Type} (m : SMap α) (n : Nat) (x : α) (h : m.find n = some x) : m.put n x = m := by
  induction m with
  | nil => simp [SMap.find] at h
  | cons z m ih =>
    obtain ⟨k, y⟩ := z
    by_cases hlt : n < k
    · simp [SMap.find, hlt] at h
    · by_cases heq : n = k
      · have hy : y = x := by simpa [SMap.find, hlt, heq] using h
        simp [SMap.put, heq, hy]
      · simp only [SMap.find, hlt, heq, if_false] at h
        simp [SMap.put, hlt, heq, ih h]

/-- A test that the old and the new value at a key answer alike answers alike for the whole map. -/
theorem SMap.any_put {α : Type} (m : SMap α) (n : Nat) (x y : α) (f : Nat × α → Bool) (h : m.find n = some x) (hf : f (n, y) = f (n, x)) :
    (m.put n y).any f = m.any f := by
  induction m with
  | nil => simp [SMap.find] at h
  | cons z m ih =>
    obtain ⟨k, w⟩ := z
    by_cases hlt : n < k
    · simp [SMap.find, hlt] at h
    · by_cases heq : n = k
      · have hw : w = x := by simpa [SMap.find, hlt, heq] using h
        subst heq
        simp [SMap.put, hf, hw]
      · simp only [SMap.find, hlt, heq, if_false] at h
        simp [SMap.put, hlt, heq, ih h]

/-- Several writes of a map with a default, at keys apart. -/
theorem SMap.getD_foldl_setD {α : Type} [DecidableEq α] (xs : List Nat) (key : Nat → Nat) (f : Nat → α) (d : α) (m : SMap α) (n : Nat)
    (hm : m.wf = true) :
    (xs.foldl (fun t i => SMap.setD t (key i) (f i) d) m).wf = true
    ∧ ((∀ i ∈ xs, key i ≠ n) → (xs.foldl (fun t i => SMap.setD t (key i) (f i) d) m).getD n d = m.getD n d)
    ∧ ∀ i ∈ xs, key i = n → (∀ j ∈ xs, key j = n → f j = f i) → (xs.foldl (fun t i => SMap.setD t (key i) (f i) d) m).getD n d = f i := by
  induction xs generalizing m with
  | nil => simpa using hm
  | cons x xs ih =>
    obtain ⟨hwf, hkeep, hset⟩ := ih (m.setD (key x) (f x) d) (SMap.wf_setD m _ _ _ hm)
    refine ⟨hwf, fun hne => ?_, fun i hi hk hall => ?_⟩
    · rw [List.foldl_cons, hkeep fun i hi => hne i (List.mem_cons_of_mem _ hi)]
      exact SMap.getD_setD_ne m _ _ _ _ hm (hne x List.mem_cons_self).symm
    · rw [List.foldl_cons]
      by_cases hin : ∃ j ∈ xs, key j = n
      · obtain ⟨j, hj, hjn⟩ := hin
        rw [hset j hj hjn fun l hl hln => (hall l (List.mem_cons_of_mem _ hl) hln).trans (hall j (List.mem_cons_of_mem _ hj) hjn).symm]
        exact hall j (List.mem_cons_of_mem _ hj) hjn
      · have hx : i = x := (List.mem_cons.1 hi).resolve_right fun h => hin ⟨i, h, hk⟩
        rw [hkeep fun j hj h => hin ⟨j, hj, h⟩, ← hx, hk]
        exact SMap.getD_setD m _ _ _ hm

theorem State.setGrp_self (s : State) (p : Nat) (g : Group) (h : s.grp p = some g) : s.setGrp p g = s := by
  rw [State.setGrp, SMap.put_of_find s.groups p g h]

/-- A group that keeps kind, context and order leads as before (R198). -/
theorem State.qlead_setGrp (s : State) (p : Nat) (g x : Group) (hg : s.grp p = some g) (hk : x.kind = g.kind) (hc : x.ctx = g.ctx)
    (ho : x.order = g.order) : (s.setGrp p x).qlead p g = s.qlead p g := by
  unfold State.qlead State.peers
  simp only [State.setGrp_groups, List.any_filter]
  rw [SMap.any_put s.groups p g x _ hg (by simp [hk, hc, ho])]

theorem State.leads_iff (s : State) (p : Nat) (g : Group) : s.leads p g ↔ (s.qlead p g && s.ownsQueues p g) = true := by
  simp [State.leads, State.ownsQueues]

theorem mem_maskLanes (m : Mask) (i : Nat) : i ∈ maskLanes m ↔ i < 32 ∧ m.getLsbD i = true := by
  simp [maskLanes, lanes, upTo]

/-! ## Queues -/

theorem Core.queue_setQ (c : Core) (n : Nat) (x : List (SMap Word)) (h : c.q.wf = true) : (c.setQ n x).queue n = x :=
  SMap.getD_setD c.q n x [] h

theorem Core.queue_setQ_ne (c : Core) (n j : Nat) (x : List (SMap Word)) (h : c.q.wf = true) (hj : j ≠ n) :
    (c.setQ n x).queue j = c.queue j :=
  SMap.getD_setD_ne c.q n j x [] h hj

theorem Core.wf_setQ (c : Core) (n : Nat) (x : List (SMap Word)) (h : c.q.wf = true) : (c.setQ n x).q.wf = true :=
  SMap.wf_setD c.q n x [] h

/-- A queue's entries after a write of its depth. -/
def cutTo (n : Nat) (xs : List (SMap Word)) : List (SMap Word) := (xs ++ List.replicate n []).take n

/-- A core after a write of the first queues' depths (R198). -/
def Core.withDepths (c : Core) (v k : Nat) : Core :=
  (upTo k).foldl (fun c q => c.setQ q (cutTo (min (bits v (10 + 5 * q) 5) Config.queueDepth) (c.queue q))) c

theorem cutTo_eq_take (n : Nat) (xs : List (SMap Word)) (h : n ≤ 16) : cutTo n xs = (xs ++ List.replicate 16 []).take n := by
  have hsplit : List.replicate 16 ([] : SMap Word) = List.replicate n [] ++ List.replicate (16 - n) [] := by
    rw [List.replicate_append_replicate, Nat.add_sub_cancel' h]
  rw [cutTo, hsplit, ← List.append_assoc]
  exact (List.take_append_of_le_length (by simp)).symm

theorem Core.withDepths_spec (c : Core) (v k : Nat) (h : c.q.wf = true) :
    (c.withDepths v (k + 1)).q.wf = true
    ∧ c.withDepths v (k + 1) = { c with q := (c.withDepths v (k + 1)).q, qmoved := true }
    ∧ ∀ n, (c.withDepths v (k + 1)).queue n
      = if n < k + 1 then cutTo (min (bits v (10 + 5 * n) 5) Config.queueDepth) (c.queue n) else c.queue n := by
  have hstep : ∀ j, c.withDepths v (j + 1) = (c.withDepths v j).setQ j
      (cutTo (min (bits v (10 + 5 * j) 5) Config.queueDepth) ((c.withDepths v j).queue j)) := fun j => by
    simp only [Core.withDepths, upTo, List.range_succ, List.foldl_append, List.foldl_cons, List.foldl_nil]
  induction k with
  | zero =>
    refine ⟨Core.wf_setQ c 0 _ h, rfl, fun n => ?_⟩
    by_cases hn : n = 0
    · subst hn
      exact Core.queue_setQ c 0 _ h
    · rw [if_neg (by omega)]
      exact Core.queue_setQ_ne c 0 n _ h hn
  | succ k ih =>
    obtain ⟨hwf, hrest, hq⟩ := ih
    rw [hstep (k + 1)]
    refine ⟨Core.wf_setQ _ _ _ hwf, ?_, fun n => ?_⟩
    · rw [hrest]
      rfl
    · by_cases hn : n = k + 1
      · subst hn
        rw [Core.queue_setQ _ _ _ hwf, hq, if_neg (by omega), if_pos (by omega)]
      · rw [Core.queue_setQ_ne _ _ _ _ hwf hn, hq]
        simp only [show n < k + 1 + 1 ↔ n < k + 1 by omega]

theorem depthsSet_withDepths (c : Core) (v : Nat) (h : c.q.wf = true) : depthsSet c (c.withDepths v 4) v := by
  obtain ⟨-, hrest, hq⟩ := Core.withDepths_spec c v 3 h
  refine ⟨hrest, fun n => ?_⟩
  rw [hq, cutTo_eq_take _ _ (Nat.min_le_right _ Config.queueDepth)]
  rfl

/-- The write of one queue entry in the lanes of a mask (R199). -/
def writeEntry (m : Mask) (f : Nat → Word) (x : SMap Word) : SMap Word :=
  (maskLanes m).foldl (fun t i => SMap.setD t i (f i) 0) x

theorem getD_writeEntry (m : Mask) (f : Nat → Word) (x : SMap Word) (i : Nat) (hx : x.wf = true) (hi : i < 32) :
    (writeEntry m f x).getD i 0 = if m.getLsbD i = true then f i else x.getD i 0 := by
  obtain ⟨-, hkeep, hset⟩ := SMap.getD_foldl_setD (maskLanes m) id f 0 x i hx
  by_cases hm : m.getLsbD i = true
  · rw [if_pos hm]
    exact hset i ((mem_maskLanes m i).2 ⟨hi, hm⟩) rfl fun j _ hj => congrArg f hj
  · rw [if_neg hm]
    refine hkeep fun j hj hji => hm ?_
    rw [← show j = i from hji]
    exact ((mem_maskLanes m j).1 hj).2

theorem entrySet_setQ (c : Core) (q e : Nat) (m : Mask) (f : Nat → Word) (hq : c.q.wf = true) (hx : ∀ x ∈ c.queue q, SMap.wf x = true) :
    entrySet c (c.setQ q ((c.queue q).zipIdx.map (fun x => if x.2 = e then writeEntry m f x.1 else x.1))) q e m f := by
  refine ⟨rfl, fun j hj => Core.queue_setQ_ne c q j _ hq hj, by rw [Core.queue_setQ c q _ hq]; simp, fun n i x y hn hy hi => ?_⟩
  rw [Core.queue_setQ c q _ hq, List.getElem?_map, List.getElem?_zipIdx, hn] at hy
  have hwf := hx x (List.mem_of_getElem? hn)
  obtain rfl : (if n = e then writeEntry m f x else x) = y := by simpa using hy
  by_cases he : n = e
  · simp only [he, if_true, true_and]
    exact getD_writeEntry m f x i hwf hi
  · simp [he]

/-! ## The hidden state after a write -/

/-- The tags that the `alloc` bits below n allocate. -/
def allocBelow (old : SMap TagSt) (v n : Nat) : SMap TagSt :=
  (upTo n).foldl (fun m k => if bit v k then SMap.put m (k + 1) ((old.find (k + 1)).getD { op := none, async := false }) else m) []

theorem allocBelow_succ (old : SMap TagSt) (v n : Nat) : allocBelow old v (n + 1) = if v.testBit n = true then
    SMap.put (allocBelow old v n) (n + 1) ((old.find (n + 1)).getD { op := none, async := false }) else allocBelow old v n := by
  simp only [allocBelow, upTo, List.range_succ, List.foldl_append, List.foldl_cons, List.foldl_nil]
  rfl

theorem allocBelow_spec (old : SMap TagSt) (v n : Nat) :
    (allocBelow old v n).wf = true ∧ ∀ t, (allocBelow old v n).find t
      = if 1 ≤ t ∧ t ≤ n ∧ v.testBit (t - 1) = true then some ((old.find t).getD { op := none, async := false }) else none := by
  induction n with
  | zero => exact ⟨rfl, fun t => by rw [if_neg (by omega)]; rfl⟩
  | succ n ih =>
    obtain ⟨hwf, hfind⟩ := ih
    rw [allocBelow_succ]
    by_cases hv : v.testBit n = true
    · rw [if_pos hv]
      refine ⟨SMap.wf_put _ _ _ hwf, fun t => ?_⟩
      by_cases ht : t = n + 1
      · subst ht
        rw [SMap.find_put, if_pos ⟨by omega, by omega, hv⟩]
      · rw [SMap.find_put_ne _ _ _ _ ht]
        exact (hfind t).trans (if_congr (and_congr_right fun _ => and_congr_left fun _ => by omega) rfl rfl)
    · rw [if_neg hv]
      refine ⟨hwf, fun t => (hfind t).trans (if_congr ?_ rfl rfl)⟩
      by_cases ht : t = n + 1
      · subst ht
        simp [hv]
      · exact and_congr_right fun _ => and_congr_left fun _ => by omega

theorem allocTags_eq (b : Bank) (v : Nat) : allocTags b v = allocBelow b.tags v 6 := by
  refine congrArg (fun f => (upTo 6).foldl f []) (funext fun m => funext fun k => ?_)
  cases b.tags.find (k + 1) <;> rfl

theorem tagsSet_allocTags (b : Bank) (v : Nat) : tagsSet b.tags v (allocTags b v) := by
  rw [allocTags_eq]
  exact allocBelow_spec b.tags v 6

/-- The group after a write of `tagstate`, but for the queues. -/
def Group.withTags (g : Group) (b : Bank) (v : Nat) : Group := { g with bank := some { b with tags := allocTags b v } }

section
variable {s : State} {p : Nat} {g : Group} {b : Bank}

theorem State.writeTagstate_eq (v : Nat) (hg : s.grp p = some g) : s.writeTagstate p g b v
    = if s.qlead p g && s.ownsQueues p g then
        (s.setCore (placeCore p) ((s.core (placeCore p)).withDepths v 4)).setGrp p (g.withTags b v)
      else s.setGrp p (g.withTags b v) := by
  rw [← State.qlead_setGrp s p g (g.withTags b v) hg rfl rfl rfl]
  rfl

theorem State.writeTagstate_of_not_leads (v : Nat) (hg : s.grp p = some g) (hl : ¬ s.leads p g) :
    s.writeTagstate p g b v = s.setGrp p (g.withTags b v) := by
  rw [State.writeTagstate_eq v hg, if_neg fun h => hl ((State.leads_iff s p g).2 h)]

theorem State.writeTagstate_of_leads (v : Nat) (hg : s.grp p = some g) (hl : s.leads p g) :
    s.writeTagstate p g b v = (s.setCore (placeCore p) ((s.core (placeCore p)).withDepths v 4)).setGrp p (g.withTags b v) := by
  rw [State.writeTagstate_eq v hg, if_pos ((State.leads_iff s p g).1 hl)]

theorem getLsbD_replaced (x : Header) (v : Word) (k j : Nat) (hk : k < 4) (hj : j < 128) :
    ((x &&& ~~~(0xFFFFFFFF#128 <<< (32 * k))) ||| ((v.setWidth 128) <<< (32 * k))).getLsbD j
      = if j / 32 = k then v.getLsbD (j % 32) else x.getLsbD j := by
  have hones : (0xFFFFFFFF#128).getLsbD (j - 32 * k) = decide (j - 32 * k < 32) := by
    rw [show (0xFFFFFFFF#128) = (BitVec.allOnes 32).setWidth 128 by rfl, BitVec.getLsbD_setWidth, BitVec.getLsbD_allOnes]
    simp only [show j - 32 * k < 128 by omega, decide_true, Bool.true_and]
  simp only [BitVec.getLsbD_or, BitVec.getLsbD_and, BitVec.getLsbD_not, BitVec.getLsbD_shiftLeft, BitVec.getLsbD_setWidth, hj, hones,
    decide_true, Bool.true_and, show j - 32 * k < 128 by omega]
  by_cases hjk : j / 32 = k
  · rw [if_pos hjk, show j - 32 * k = j % 32 by omega]
    simp [show ¬ j < 32 * k by omega, Nat.mod_lt]
  · rw [if_neg hjk]
    by_cases hlo : j < 32 * k
    · simp [hlo]
    · have hhi : ¬ j - 32 * k < 32 := by omega
      simp [hlo, hhi, BitVec.getLsbD_of_ge v (j - 32 * k) (by omega)]

theorem toNat_pair (lo hi : Word) : (pair lo hi).toNat = hi.toNat * 2 ^ 32 + lo.toNat := by
  rw [pair, BitVec.toNat_append, ← Nat.shiftLeft_add_eq_or_of_lt lo.isLt, Nat.shiftLeft_eq]

theorem and_wdataMask (k : Nat) (v : Word) :
    v &&& bv 32 (wdataMask k) = if k = 131 then v &&& 3 else if k = 132 then v &&& 31 else v := by
  unfold wdataMask
  by_cases h131 : k = 131
  · simp [h131, bv]
  by_cases h132 : k = 132
  · simp [h132, bv]
  simp only [h131, h132, if_false]
  exact BitVec.and_allOnes

/-- A group-unit word but `tagstate` is written in the group (R199). -/
theorem State.writeGroupWord_spec (k : Nat) (v : Word) (hg : s.grp p = some g) (hk : k ≠ 133)
    (hw : b.gw.wf = true) : ∃ g', groupWordSet g b k v g' ∧ s.writeGroupWord p g b k v = s.setGrp p g' := by
  unfold groupWordSet State.writeGroupWord
  by_cases hs : k < 48
  · simp only [if_pos hs]
    exact ⟨_, rfl, rfl⟩
  by_cases hh : 64 ≤ k ∧ k < 124
  · simp only [if_neg hs, if_pos hh, show (decide (64 ≤ k) && decide (k < 124)) = true by simp [hh], if_true]
    exact ⟨_, ⟨_, rfl, fun j hj => getLsbD_replaced _ v (k % 4) j (by omega) hj⟩, rfl⟩
  simp only [if_neg hs, if_neg hh, show (decide (64 ≤ k) && decide (k < 124)) = false by simpa using hh, if_false, Bool.false_eq_true]
  by_cases h128 : k = 128
  · simp only [if_pos h128]
    refine ⟨_, ⟨_, rfl, ?_⟩, rfl⟩
    rw [toNat_pair, highW, BitVec.extractLsb'_toNat, Nat.shiftRight_eq_div_pow]
    have := g.trappc.isLt
    omega
  by_cases h129 : k = 129
  · simp only [if_neg h128, if_pos h129]
    refine ⟨_, ⟨_, rfl, ?_⟩, rfl⟩
    rw [toNat_pair, lowW, BitVec.extractLsb'_toNat, Nat.shiftRight_zero]
  simp only [if_neg h128, if_neg h129, if_neg hk]
  by_cases h130 : k = 130
  · subst h130
    exact ⟨g, by simp, (State.setGrp_self s p g hg).symm⟩
  simp only [ne_eq, h130, not_false_eq_true, true_and, wdataIsWord_iff k h130]
  split
  · refine ⟨_, ⟨{ b with gw := b.gw.setD k (v &&& bv 32 (wdataMask k)) 0 }, rfl, rfl, fun j => ?_⟩, rfl⟩
    by_cases hj : j = k
    · subst hj
      rw [if_pos rfl, ← and_wdataMask]
      exact SMap.getD_setD _ _ _ _ hw
    · rw [if_neg hj]
      exact SMap.getD_setD_ne _ _ _ _ _ hw hj
  · exact ⟨g, rfl, (State.setGrp_self s p g hg).symm⟩

/-- A thread-unit word below the queues' is written in the bank (R199). -/
theorem State.writeThreadWord_bank (k : Nat) (m : Mask) (f : Nat → Word) (hg : s.grp p = some g) (hb : g.bank = some b) (hk : k < 128)
    (hw : b.tw.wf = true) :
    ∃ b', threadWordSet b k m f b' ∧ s.writeThreadWord p g b k m f = s.setGrp p { g with bank := some b' } := by
  unfold State.writeThreadWord threadWordSet
  simp only [if_pos hk, wdataIsThread, decide_eq_true_eq]
  by_cases h105 : k < 105
  · simp only [if_pos h105]
    refine ⟨{ b with tw := _ }, ⟨rfl, fun j i hi => ?_⟩, rfl⟩
    obtain ⟨-, hkeep, hset⟩ := SMap.getD_foldl_setD (maskLanes m) (fun i => 32 * k + i)
      (fun i => if k = 0 then f i &&& 0xFE ||| 1 else f i) 0 b.tw (32 * j + i) hw
    by_cases hj : j = k ∧ m.getLsbD i = true
    · rw [if_pos ⟨hj.1, h105, hj.2⟩]
      exact hset i ((mem_maskLanes m i).2 ⟨hi, hj.2⟩) (by rw [hj.1]) fun l _ hl => by rw [show l = i by omega]
    · rw [if_neg fun h => hj ⟨h.1, h.2.2⟩]
      refine hkeep fun l hl hlk => hj ?_
      obtain ⟨hl32, hlm⟩ := (mem_maskLanes m l).1 hl
      have hjk : j = k := by omega
      exact ⟨hjk, by rwa [show i = l by omega]⟩
  · simp only [if_neg h105]
    refine ⟨b, ⟨rfl, fun j i _ => by simp [h105]⟩, ?_⟩
    rw [← hb]
    exact (State.setGrp_self s p g hg).symm

theorem State.writeThreadWord_of_not_leads (k : Nat) (m : Mask) (f : Nat → Word) (hk : 128 ≤ k) (hl : ¬ s.leads p g) :
    s.writeThreadWord p g b k m f = s := by
  rw [State.leads_iff] at hl
  unfold State.writeThreadWord
  rw [if_neg (by omega), if_neg hl]

theorem State.writeThreadWord_of_leads (k : Nat) (m : Mask) (f : Nat → Word) (hk : 128 ≤ k) (hl : s.leads p g) :
    s.writeThreadWord p g b k m f = s.modCore (placeCore p) (fun c => c.setQ ((k - 128) / 16) ((c.queue ((k - 128) / 16)).zipIdx.map
      (fun x => if x.2 = (k - 128) % 16 then writeEntry m f x.1 else x.1))) := by
  rw [State.leads_iff] at hl
  unfold State.writeThreadWord
  rw [if_neg (by omega), if_pos hl]
  rfl

end

/-! ## The ends of a `CSRW` -/

section
variable {s : State} {p : Nat} {g : Group} {h : Hdr} {c : Csr} {a : Opd} {b : Bank}

theorem exec_csrw_illegal (hi : s.Issues p g (.csrw h c a) (opdRegs a 1)) (hl : csrLegal g c = false) :
    exec (.csrw h c a) s = .next (s.trapsAt p g .illegal g.ir) := by
  show execCsrw h c a s = _
  rw [execCsrw, issueWord_body s p g _ _ _ _ hi]
  simp [hl, State.trapsAt]

theorem csrLegal_of_inTrap (c : Csr) (ht : g.inTrap = true) : csrLegal g c = true := by
  simp [csrLegal, ht]

/-- The registers that only hardware writes (R282). -/
theorem exec_csrw_readOnly (hi : s.Issues p g (.csrw h c a) (opdRegs a 1))
    (hc : c ∉ [Csr.frm, .fflags, .trappc, .tagstate, .wsel, .wdata]) :
    exec (.csrw h c a) s = .next (s.trapsAt p g .illegal g.ir) := by
  cases hl : csrLegal g c with
  | false => exact exec_csrw_illegal hi hl
  | true =>
    show execCsrw h c a s = _
    rw [execCsrw, issueWord_body s p g _ _ _ _ hi]
    simp only [hl, Bool.not_true, Bool.false_eq_true, if_false]
    cases c with
    | frm | fflags | trappc | tagstate | wsel | wdata => exact absurd hc (by simp)
    | _ => rfl

theorem exec_csrw_frm (hi : s.Issues p g (.csrw h .frm a) (opdRegs a 1)) :
    exec (.csrw h .frm a) s = .next (s.wrote p (Group.at { g with frm := BitVec.ofNat 2 (g.read [] 0 (src a false .none)) }
      h g.lpend.length g.npc)) := by
  show execCsrw h .frm a s = _
  rw [execCsrw, issueWord_body s p g _ _ _ _ hi]
  rfl

theorem exec_csrw_fflags (hi : s.Issues p g (.csrw h .fflags a) (opdRegs a 1)) (hd : g.resultsDone = true) :
    exec (.csrw h .fflags a) s = .next (s.wrote p (Group.at { g with fflags := BitVec.ofNat 5 (g.read [] 0 (src a false .none)) }
      h g.lpend.length g.npc)) := by
  show execCsrw h .fflags a s = _
  rw [execCsrw, issueWord_body s p g _ _ _ _ hi]
  simp only [csrLegal_fflags, hd, Bool.not_true, Bool.false_eq_true, if_false, if_true]
  rfl

theorem exec_csrw_fflags_waits (hi : s.Issues p g (.csrw h .fflags a) (opdRegs a 1)) (hd : g.resultsDone = false) :
    exec (.csrw h .fflags a) s = .next (s.wrote p g.hold) := by
  show execCsrw h .fflags a s = _
  rw [execCsrw, issueWord_body s p g _ _ _ _ hi]
  simp only [csrLegal_fflags, hd, Bool.not_true, Bool.false_eq_true, if_false, State.modGrp_of_grp s p g _ hi.here]
  rfl

theorem exec_csrw_trappc (hi : s.Issues p g (.csrw h .trappc a) (opdRegs a 1)) (hb : g.bank = some b) :
    exec (.csrw h .trappc a) s = .next (s.wrote p (Group.at { g with trappc := BitVec.ofNat 64 (g.read [] 0 (src a true .none)) }
      h g.lpend.length g.npc)) := by
  show execCsrw h .trappc a s = _
  rw [execCsrw, issueWord_body s p g _ _ _ _ hi]
  simp only [csrLegal_of_inTrap .trappc (show g.inTrap = true by simp [Group.inTrap, hb]), hb, Bool.not_true, Bool.false_eq_true, if_false]
  rfl

theorem exec_csrw_wsel (hi : s.Issues p g (.csrw h .wsel a) (opdRegs a 1)) (hb : g.bank = some b) :
    exec (.csrw h .wsel a) s = .next (s.wrote p (Group.at { g with
      wselThr := (g.read [] 0 (src a false .none)).testBit 31, wselIdx := g.read [] 0 (src a false .none) % 2 ^ 9 }
        h g.lpend.length g.npc)) := by
  show execCsrw h .wsel a s = _
  rw [execCsrw, issueWord_body s p g _ _ _ _ hi]
  simp only [csrLegal_of_inTrap .wsel (show g.inTrap = true by simp [Group.inTrap, hb]), hb, Bool.not_true, Bool.false_eq_true, if_false,
    bits, Nat.pow_zero, Nat.div_one]
  rfl

theorem exec_csrw_tagstate (hi : s.Issues p g (.csrw h .tagstate a) (opdRegs a 1)) (hb : g.bank = some b) {t : State} {g' : Group}
    (ht : s.writeTagstate p g b (g.read [] 0 (src a false .none)) = t) (hg : t.grp p = some g') :
    exec (.csrw h .tagstate a) s = .next (t.wrote p (g'.at h g.lpend.length g.npc)) := by
  show execCsrw h .tagstate a s = _
  rw [execCsrw, issueWord_body s p g _ _ _ _ hi]
  simp only [csrLegal_of_inTrap .tagstate (show g.inTrap = true by simp [Group.inTrap, hb]), hb, Bool.not_true, Bool.false_eq_true, if_false,
    ht, doneIn, hg]
  rfl

/-- The state after the write of the word that `wsel` names. -/
def wdataWritten (s : State) (p : Nat) (g : Group) (b : Bank) (h : Hdr) (a : Opd) : State :=
  if g.wselThr then s.writeThreadWord p g b g.wselIdx (g.exec h.guard) (fun i => bv 32 (g.read [] i (src a false .none)))
  else s.writeGroupWord p g b g.wselIdx (bv 32 (g.read [] 0 (src a false .none)))

/-- The index is one of its unit, and the source one that the unit takes (R199). -/
def wdataOk (g : Group) (a : Opd) : Prop := if g.wselThr then g.wselIdx < 192 ∧ a.isV = true else g.wselIdx < 320 ∧ a.isSZ = true

theorem wdataOk_iff (g : Group) (a : Opd) :
    wdataOk g a ↔ (decide (wdataSize g.wselThr ≤ g.wselIdx) || (if g.wselThr then !a.isV else !a.isSZ)) = false := by
  unfold wdataOk wdataSize
  cases g.wselThr <;> simp

theorem exec_csrw_wdata (hi : s.Issues p g (.csrw h .wdata a) (opdRegs a 1)) (hb : g.bank = some b) (hok : wdataOk g a) {t : State}
    {g' : Group} (ht : wdataWritten s p g b h a = t) (hg : t.grp p = some g') :
    exec (.csrw h .wdata a) s = .next (t.wrote p (g'.nextIdx.at h g.lpend.length g.npc)) := by
  show execCsrw h .wdata a s = _
  rw [execCsrw, issueWord_body s p g _ _ _ _ hi]
  have ht' := ht
  unfold wdataWritten at ht'
  simp only [csrLegal_of_inTrap .wdata (show g.inTrap = true by simp [Group.inTrap, hb]), hb, (wdataOk_iff g a).1 hok, Bool.not_true,
    Bool.false_eq_true, if_false, ht', State.nextWord, State.modGrp_of_grp t p g' _ hg, doneIn, State.grp_setGrp, State.setGrp_setGrp]
  rfl

theorem exec_csrw_wdata_illegal (hi : s.Issues p g (.csrw h .wdata a) (opdRegs a 1)) (hbad : ¬ (g.inTrap = true ∧ wdataOk g a)) :
    exec (.csrw h .wdata a) s = .next (s.trapsAt p g .illegal g.ir) := by
  cases hb : g.bank with
  | none => exact exec_csrw_illegal hi (by simp [csrLegal, Group.inTrap, hb]; rfl)
  | some b =>
    have ht : g.inTrap = true := by simp [Group.inTrap, hb]
    show execCsrw h .wdata a s = _
    rw [execCsrw, issueWord_body s p g _ _ _ _ hi]
    have hno := fun hok => hbad ⟨ht, (wdataOk_iff g a).2 hok⟩
    simp only [csrLegal_of_inTrap .wdata ht, hb, Bool.eq_true_of_not_eq_false hno, Bool.not_true, Bool.false_eq_true, if_false, if_true]
    rfl

/-! ## What `wdata` leaves -/

theorem read_lt_of_isSZ (g : Group) (i : Nat) (hs : a.isSZ = true) : g.read [] i (src a false .none) < 2 ^ 32 := by
  cases a with
  | s n => exact (g.getS n.toNat).isLt
  | zero => exact Nat.two_pow_pos 32
  | v n => simp [Opd.isSZ] at hs
  | q n => simp [Opd.isSZ] at hs
  | tid => simp [Opd.isSZ] at hs

theorem wdataWritten_tagstate (hu : g.wselThr = false) (hs : a.isSZ = true) (hk : g.wselIdx = 133) :
    wdataWritten s p g b h a = s.writeTagstate p g b (g.read [] 0 (src a false .none)) := by
  have hv : (bv 32 (g.read [] 0 (src a false .none))).toNat = g.read [] 0 (src a false .none) := by
    rw [bv, BitVec.toNat_ofNat, Nat.mod_eq_of_lt (read_lt_of_isSZ g 0 hs)]
  simp only [wdataWritten, hu, hk, Bool.false_eq_true, if_false, State.writeGroupWord, hv]
  simp

/-- Whatever a write of the hidden state does, a group stands at its place afterwards. -/
theorem grp_writeTagstate (v : Nat) (hg : s.grp p = some g) : ∃ g', (s.writeTagstate p g b v).grp p = some g' := by
  rw [State.writeTagstate_eq v hg]
  split <;> exact ⟨_, State.grp_setGrp _ _ _⟩

theorem grp_writeThreadWord (k : Nat) (m : Mask) (f : Nat → Word) (hg : s.grp p = some g) :
    ∃ g', (s.writeThreadWord p g b k m f).grp p = some g' := by
  unfold State.writeThreadWord
  split
  · split
    · exact ⟨_, State.grp_setGrp _ _ _⟩
    · exact ⟨g, hg⟩
  · split <;> exact ⟨g, hg⟩

theorem grp_writeGroupWord (k : Nat) (v : Word) (hg : s.grp p = some g) : ∃ g', (s.writeGroupWord p g b k v).grp p = some g' := by
  by_cases hk : k = 133
  · rw [hk, show s.writeGroupWord p g b 133 v = s.writeTagstate p g b v.toNat by simp [State.writeGroupWord]]
    exact grp_writeTagstate _ hg
  · unfold State.writeGroupWord
    rw [if_neg hk]
    repeat (split; · exact ⟨_, State.grp_setGrp _ _ _⟩)
    exact ⟨g, hg⟩

theorem grp_wdataWritten (hg : s.grp p = some g) : ∃ g', (wdataWritten s p g b h a).grp p = some g' := by
  unfold wdataWritten
  split
  · exact grp_writeThreadWord _ _ _ hg
  · exact grp_writeGroupWord _ _ hg

/-- A word that may be written is written, and the group goes on at the next one. -/
theorem exec_csrw_of_writes (hi : s.Issues p g (.csrw h c a) (opdRegs a 1)) (hw : csrWrites g c a) :
    ∃ (t : State) (g' : Group), exec (.csrw h c a) s = .next (t.wrote p g') ∧ g'.pc = g.npc := by
  have hbank : g.inTrap = true → ∃ b, g.bank = some b := bank_of_inTrap g
  cases c with
  | frm => exact ⟨_, _, exec_csrw_frm hi, rfl⟩
  | fflags => exact ⟨_, _, exec_csrw_fflags hi ((resultsDone_iff g).2 hw), rfl⟩
  | trappc =>
    obtain ⟨b, hb⟩ := hbank hw
    exact ⟨_, _, exec_csrw_trappc hi hb, rfl⟩
  | wsel =>
    obtain ⟨b, hb⟩ := hbank hw
    exact ⟨_, _, exec_csrw_wsel hi hb, rfl⟩
  | tagstate =>
    obtain ⟨b, hb⟩ := hbank hw
    obtain ⟨g', hg⟩ := grp_writeTagstate (b := b) (g.read [] 0 (src a false .none)) hi.here
    exact ⟨_, _, exec_csrw_tagstate hi hb rfl hg, rfl⟩
  | wdata =>
    obtain ⟨htrap, hok⟩ := show g.inTrap = true ∧ wdataOk g a from hw
    obtain ⟨b, hb⟩ := hbank htrap
    obtain ⟨g', hg⟩ := grp_wdataWritten (b := b) (h := h) (a := a) hi.here
    exact ⟨_, _, exec_csrw_wdata hi hb hok rfl hg, rfl⟩
  | _ => exact absurd hw id

/-- A number that may not be written is illegal (R199, R282). -/
theorem exec_csrw_of_not_writes (hi : s.Issues p g (.csrw h c a) (opdRegs a 1)) (hw : ¬ csrWrites g c a) (hc : c ≠ .fflags) :
    exec (.csrw h c a) s = .next (s.trapsAt p g .illegal g.ir) := by
  cases c with
  | frm => exact absurd trivial hw
  | fflags => exact absurd rfl hc
  | trappc | wsel | tagstate => exact exec_csrw_illegal hi (Bool.eq_false_of_not_eq_true hw)
  | wdata => exact exec_csrw_wdata_illegal hi hw
  | _ => exact exec_csrw_readOnly hi (by simp)

/-- `tagstate`, written by its own number or as a word of the group unit (R198, R199). -/
theorem exec_csrw_tags (f : Group → Group) (hi : s.Issues p g (.csrw h c a) (opdRegs a 1)) (hb : g.bank = some b)
    (hf : (c = .tagstate ∧ f = id) ∨ (c = .wdata ∧ g.wselThr = false ∧ a.isSZ = true ∧ g.wselIdx = 133 ∧ f = Group.nextIdx))
    {t : State} {g' : Group} (ht : s.writeTagstate p g b (g.read [] 0 (src a false .none)) = t) (hg : t.grp p = some g') :
    exec (.csrw h c a) s = .next (t.wrote p ((f g').at h g.lpend.length g.npc)) := by
  obtain ⟨rfl, rfl⟩ | ⟨rfl, hu, hs, hk, rfl⟩ := hf
  · exact exec_csrw_tagstate hi hb ht hg
  · have hok : wdataOk g a := by simp [wdataOk, hu, hs, hk]
    exact exec_csrw_wdata hi hb hok ((wdataWritten_tagstate hu hs hk).trans ht) hg

/-- A word of the group unit but `tagstate` (R199). -/
theorem exec_csrw_groupWord (hi : s.Issues p g (.csrw h .wdata a) (opdRegs a 1)) (hb : g.bank = some b) (hu : g.wselThr = false)
    (hs : a.isSZ = true) (hk : g.wselIdx < 320) (hn : g.wselIdx ≠ 133) (hw : b.gw.wf = true) :
    ∃ g', groupWordSet g b g.wselIdx (BitVec.ofNat 32 (g.read [] 0 (src a false .none))) g'
      ∧ exec (.csrw h .wdata a) s = .next (s.wrote p (g'.nextIdx.at h g.lpend.length g.npc)) := by
  obtain ⟨g', hset, ht⟩ := State.writeGroupWord_spec (p := p) (b := b) g.wselIdx (bv 32 (g.read [] 0 (src a false .none))) hi.here hn hw
  have hwr : wdataWritten s p g b h a = s.setGrp p g' := by
    rw [wdataWritten, hu, if_neg Bool.false_ne_true, ht]
  refine ⟨g', hset, ?_⟩
  rw [exec_csrw_wdata hi hb (by simp [wdataOk, hu, hs, hk]) hwr (State.grp_setGrp s p g'), State.wrote, State.setGrp_setGrp, State.wrote]

/-- A word of the thread unit: below the queues' in the bank, from there on in the queues of a leader (R199). -/
theorem exec_csrw_threadWord (hi : s.Issues p g (.csrw h .wdata a) (opdRegs a 1)) (hb : g.bank = some b) (hu : g.wselThr = true)
    (hv : a.isV = true) (hk : g.wselIdx < 192) (f : Nat → Word) (hf : ∀ i, f i = BitVec.ofNat 32 (g.read [] i (src a false .none)))
    {t : State} {g' : Group} (ht : s.writeThreadWord p g b g.wselIdx (g.exec h.guard) f = t) (hg : t.grp p = some g') :
    exec (.csrw h .wdata a) s = .next (t.wrote p (g'.nextIdx.at h g.lpend.length g.npc)) := by
  refine exec_csrw_wdata hi hb (by simp [wdataOk, hu, hv, hk]) ?_ hg
  rw [wdataWritten, if_pos hu, ← ht, funext hf]
  rfl

end

/-! ## The statement -/

/-- Settles O29: the registers and the words of the hidden state that a `CSRW` writes, the numbers it may not write, and its wait. -/
theorem controlWrites : Obligations.ControlWrites := by
  unfold Obligations.ControlWrites
  intro h c a s p g hi
  refine ⟨exec_csrw_of_writes hi, exec_csrw_of_not_writes hi, ?_, ?_, ?_, fun b hb htrap => ⟨?_, ?_, ?_, ?_, ?_⟩⟩
  · rintro hw rfl
    exact exec_csrw_fflags_waits hi (Bool.eq_false_of_not_eq_true fun hd => hw ((resultsDone_iff g).1 hd))
  · rintro rfl
    exact exec_csrw_frm hi
  · rintro rfl hl htags
    exact exec_csrw_fflags hi ((resultsDone_iff g).2 ⟨hl, htags⟩)
  · rintro rfl
    exact exec_csrw_trappc hi hb
  · rintro rfl
    exact exec_csrw_wsel hi hb
  · intro f hf
    refine ⟨_, tagsSet_allocTags b _, fun hl => ?_, fun hl ⟨_, _, hq, _⟩ => ⟨_, depthsSet_withDepths _ _ hq, ?_⟩⟩
    · rw [exec_csrw_tags f hi hb hf (State.writeTagstate_of_not_leads _ hi.here hl) (State.grp_setGrp _ _ _), State.wrote,
        State.setGrp_setGrp]
      rfl
    · rw [exec_csrw_tags f hi hb hf (State.writeTagstate_of_leads _ hi.here hl) (State.grp_setGrp _ _ _), State.wrote,
        State.setGrp_setGrp]
      rfl
  · rintro rfl hu hs hk hn ⟨hgw, -, -, -⟩
    exact exec_csrw_groupWord hi hb hu hs hk hn hgw
  · rintro f rfl hu hv hk ⟨-, htw, hq, hent⟩ hf
    refine ⟨fun hlt => ?_, fun hge hl => ?_, fun hge hl => ⟨_, entrySet_setQ _ _ _ (g.exec h.guard) f hq (hent _), ?_⟩⟩
    · obtain ⟨b', hset, ht⟩ := State.writeThreadWord_bank g.wselIdx (g.exec h.guard) f hi.here hb hlt htw
      refine ⟨b', hset, ?_⟩
      rw [exec_csrw_threadWord hi hb hu hv hk f hf ht (State.grp_setGrp _ _ _), State.wrote, State.setGrp_setGrp, State.wrote]
    · exact exec_csrw_threadWord hi hb hu hv hk f hf (State.writeThreadWord_of_not_leads g.wselIdx _ f hge hl) hi.here
    · exact exec_csrw_threadWord hi hb hu hv hk f hf (State.writeThreadWord_of_leads g.wselIdx _ f hge hl) hi.here

end Sys2Proof.Machine
end

section
/-!
SUPPORT. Rounding against real values: what `roundAt` picks of the two multiples of a unit that stand about a magnitude, and why that is the
nearest number of a format's grid, or the nearest integer (R81, R86).
-/
namespace Sys2Proof.Machine

/-! ## Signs and values -/

/-- The factor of a sign. -/
def signOf (neg : Bool) : ℝ := if neg then -1 else 1

@[simp] theorem signOf_true : signOf true = -1 := rfl
@[simp] theorem signOf_false : signOf false = 1 := rfl

@[simp] theorem abs_signOf (neg : Bool) : |signOf neg| = 1 := by cases neg <;> simp

@[simp] theorem signOf_mul_self (neg : Bool) : signOf neg * signOf neg = 1 := by cases neg <;> simp

theorem signOf_bne (a b : Bool) : signOf (a != b) = signOf a * signOf b := by cases a <;> cases b <;> simp

theorem abs_signOf_mul (neg : Bool) (x : ℝ) : |signOf neg * x| = |x| := by simp [abs_mul]

theorem abs_signOf_sub (neg : Bool) (x y : ℝ) : |signOf neg * x - signOf neg * y| = |x - y| := by
  rw [← mul_sub, abs_signOf_mul]

theorem FVal.realIs_num (s : Bool) (m : Nat) (e : Int) (y : ℝ) :
    (FVal.num s m e).realIs y ↔ y = signOf s * (m : ℝ) * (2 : ℝ) ^ e := by
  constructor
  · rintro ⟨s', m', e', h, rfl⟩
    cases h
    rfl
  · exact fun h => ⟨s, m, e, rfl, h⟩

theorem FVal.realIs_num_self (s : Bool) (m : Nat) (e : Int) : (FVal.num s m e).realIs (signOf s * (m : ℝ) * (2 : ℝ) ^ e) :=
  (FVal.realIs_num s m e _).2 rfl

/-- A value is one real number at most. -/
theorem FVal.realIs_unique {v : FVal} {x y : ℝ} (hx : v.realIs x) (hy : v.realIs y) : x = y := by
  obtain ⟨s, m, e, rfl, rfl⟩ := hx
  exact ((FVal.realIs_num s m e y).1 hy).symm

theorem FVal.not_realIs_nan (s : Bool) (y : ℝ) : ¬ (FVal.nan s).realIs y := by
  rintro ⟨_, _, _, h, -⟩
  cases h

theorem FVal.not_realIs_inf (n : Bool) (y : ℝ) : ¬ (FVal.inf n).realIs y := by
  rintro ⟨_, _, _, h, -⟩
  cases h

theorem two_zpow_pos (k : Int) : (0 : ℝ) < (2 : ℝ) ^ k := zpow_pos (by norm_num) k

theorem two_zpow_ne_zero (k : Int) : (2 : ℝ) ^ k ≠ 0 := (two_zpow_pos k).ne'

/-- A higher unit as a natural multiple of a lower one. -/
theorem two_zpow_of_le {q e : Int} (h : q ≤ e) : (2 : ℝ) ^ e = 2 ^ (e - q).toNat * (2 : ℝ) ^ q := by
  rw [← zpow_natCast, Int.toNat_of_nonneg (by omega), ← zpow_add₀ (by norm_num), Int.sub_add_cancel]

theorem two_zpow_le {a b : Int} (h : a ≤ b) : (2 : ℝ) ^ a ≤ (2 : ℝ) ^ b := zpow_le_zpow_right₀ (by norm_num) h

theorem two_zpow_lt {a b : Int} (h : a < b) : (2 : ℝ) ^ a < (2 : ℝ) ^ b := zpow_lt_zpow_right₀ (by norm_num) h

theorem two_zpow_succ (a : Int) : (2 : ℝ) ^ (a + 1) = 2 * (2 : ℝ) ^ a := by
  rw [zpow_add₀ (by norm_num), zpow_one, mul_comm]

/-! ## The choice between two neighbours -/

/-- What a mode makes of a magnitude A between B and B + s: one of the two; `ev` is what it needs halfway between. -/
def Picks (rm : Rm) (neg : Bool) (A B s M : ℝ) (ev : Prop) : Prop := match rm with
  | .rne => ((M = B ∧ 2 * (A - B) ≤ s) ∨ (M = B + s ∧ s ≤ 2 * (A - B))) ∧ (2 * (A - B) = s → ev)
  | .rtz => M = B
  | .rup => M = if neg = true ∨ A = B then B else B + s
  | .rdn => M = if neg = false ∨ A = B then B else B + s

theorem Picks.low_or_high {rm : Rm} {neg : Bool} {A B s M : ℝ} {ev : Prop} (h : Picks rm neg A B s M ev) : M = B ∨ M = B + s := by
  cases rm with
  | rne => exact h.1.imp And.left And.left
  | rtz => exact .inl h
  | rup | rdn =>
    simp only [Picks] at h
    split at h
    · exact .inl h
    · exact .inr h

theorem Picks.imp {rm : Rm} {neg : Bool} {A B s M : ℝ} {ev ev' : Prop} (h : Picks rm neg A B s M ev) (hev : ev → ev') :
    Picks rm neg A B s M ev' := by
  cases rm with
  | rne => exact ⟨h.1, fun ht => hev (h.2 ht)⟩
  | rtz | rup | rdn => exact h

/-- A number on the unit is kept by every mode. -/
theorem Picks.eq_of_exact {rm : Rm} {neg : Bool} {A B s M : ℝ} {ev : Prop} (h : Picks rm neg A B s M ev) (hs : 0 < s) (hA : A = B) : M = B := by
  cases rm with
  | rne =>
    obtain ⟨⟨hM, -⟩ | ⟨-, hle⟩, -⟩ := h
    · exact hM
    · linarith
  | rtz => exact h
  | rup | rdn => simpa [Picks, hA] using h

/-- Numbers of one magnitude as far from a third as the magnitudes are have its sign. -/
theorem eq_signOf_mul {neg : Bool} {A M v : ℝ} (hA : 0 ≤ A) (hM : 0 ≤ M) (hAM : A = 0 → M = 0) (hv : |v| = M)
    (h : |signOf neg * A - v| = |A - M|) : v = signOf neg * M := by
  have hcases : v = signOf neg * M ∨ v = -(signOf neg * M) := by
    rw [← abs_eq_abs, abs_signOf_mul, abs_of_nonneg hM, hv]
  rcases hcases with hsame | hneg
  · exact hsame
  · have hsum : A + M = |A - M| := by
      rw [← h, hneg, sub_neg_eq_add, ← mul_add, abs_signOf_mul, abs_of_nonneg (add_nonneg hA hM)]
    have hM0 : M = 0 := by
      rcases abs_cases (A - M) with ⟨habs, -⟩ | ⟨habs, -⟩
      · linarith
      · exact hAM (by linarith)
    rw [hneg, hM0, mul_zero, neg_zero]

section
variable {G E : ℝ → Prop} {neg : Bool} {A B s M v : ℝ} (hB : 0 ≤ B) (hBA : B ≤ A) (hAB : A < B + s) (hmag : |v| ≤ B ∨ B + s ≤ |v|)

include hB hBA hAB hmag in
theorem nearest_of_picks_rne (hp : Picks .rne neg A B s M (E (signOf neg * M))) :
    |signOf neg * A - signOf neg * M| ≤ |signOf neg * A - v|
    ∧ (|signOf neg * A - signOf neg * M| = |signOf neg * A - v| → v ≠ signOf neg * M → E (signOf neg * M)) := by
  have hA : 0 ≤ A := hB.trans hBA
  have hfar : |A - abs v| ≤ |signOf neg * A - v| := by
    simpa [abs_signOf_mul, abs_of_nonneg hA] using abs_abs_sub_abs_le_abs_sub (signOf neg * A) v
  obtain ⟨hM, htie⟩ := hp
  have hbest : |A - M| ≤ |A - abs v| := by
    rcases hM with ⟨rfl, h⟩ | ⟨rfl, h⟩ <;> rcases hmag with hv | hv
    · rw [abs_of_nonneg (by linarith)]
      exact le_abs.2 (.inl (by linarith))
    · rw [abs_of_nonneg (by linarith)]
      exact le_abs.2 (.inr (by linarith))
    · rw [abs_of_nonpos (by linarith)]
      exact le_abs.2 (.inl (by linarith))
    · rw [abs_of_nonpos (by linarith)]
      exact le_abs.2 (.inr (by linarith))
  rw [abs_signOf_sub]
  refine ⟨hbest.trans hfar, fun heq hne => htie ?_⟩
  have hmagEq : |A - abs v| = |A - M| := le_antisymm (hfar.trans heq.ge) hbest
  have hother : |v| ≠ M := fun h => hne (eq_signOf_mul hA (h ▸ abs_nonneg v) (fun hA0 => by
    rcases hM with ⟨rfl, h⟩ | ⟨rfl, h⟩ <;> linarith) h heq.symm)
  rcases hM with ⟨rfl, h⟩ | ⟨rfl, h⟩ <;> rcases hmag with hv | hv
  · rw [abs_of_nonneg (show 0 ≤ A - abs v by linarith), abs_of_nonneg (show 0 ≤ A - M by linarith)] at hmagEq
    exact absurd (by linarith) hother
  · rw [abs_of_nonpos (show A - abs v ≤ 0 by linarith), abs_of_nonneg (show 0 ≤ A - M by linarith)] at hmagEq
    linarith
  · rw [abs_of_nonneg (show 0 ≤ A - abs v by linarith), abs_of_nonpos (show A - (B + s) ≤ 0 by linarith)] at hmagEq
    linarith
  · rw [abs_of_nonpos (show A - abs v ≤ 0 by linarith), abs_of_nonpos (show A - (B + s) ≤ 0 by linarith)] at hmagEq
    exact absurd (by linarith) hother

include hB hBA hAB hmag in
theorem nearest_of_picks_rup (hp : Picks .rup neg A B s M (E (signOf neg * M))) :
    signOf neg * A ≤ signOf neg * M ∧ (signOf neg * A ≤ v → signOf neg * M ≤ v) := by
  cases neg with
  | false =>
    simp only [signOf_false, one_mul]
    by_cases hAB' : A = B
    · obtain rfl : M = B := by simpa [Picks, hAB'] using hp
      exact ⟨hAB'.le, fun h => hAB' ▸ h⟩
    · obtain rfl : M = B + s := by simpa [Picks, hAB'] using hp
      have hlt : B < A := lt_of_le_of_ne hBA (Ne.symm hAB')
      refine ⟨hAB.le, fun h => ?_⟩
      rw [abs_of_nonneg (by linarith)] at hmag
      exact hmag.resolve_left (by linarith)
  | true =>
    obtain rfl : M = B := by simpa [Picks] using hp
    simp only [signOf_true, neg_one_mul]
    refine ⟨by linarith, fun h => ?_⟩
    rcases hmag with hlow | hhigh
    · linarith [neg_abs_le v]
    · rcases abs_cases v with ⟨ha, h0⟩ | ⟨ha, h0⟩ <;> linarith

include hB hBA hAB hmag in
theorem nearest_of_picks_rdn (hp : Picks .rdn neg A B s M (E (signOf neg * M))) :
    signOf neg * M ≤ signOf neg * A ∧ (v ≤ signOf neg * A → v ≤ signOf neg * M) := by
  cases neg with
  | true =>
    simp only [signOf_true, neg_one_mul]
    by_cases hAB' : A = B
    · obtain rfl : M = B := by simpa [Picks, hAB'] using hp
      exact ⟨by linarith, fun h => by linarith⟩
    · obtain rfl : M = B + s := by simpa [Picks, hAB'] using hp
      have hlt : B < A := lt_of_le_of_ne hBA (Ne.symm hAB')
      refine ⟨by linarith, fun h => ?_⟩
      rw [abs_of_nonpos (by linarith)] at hmag
      linarith [hmag.resolve_left (by linarith)]
  | false =>
    obtain rfl : M = B := by simpa [Picks] using hp
    simp only [signOf_false, one_mul]
    refine ⟨hBA, fun h => ?_⟩
    rcases hmag with hlow | hhigh
    · linarith [le_abs_self v]
    · rcases abs_cases v with ⟨ha, h0⟩ | ⟨ha, h0⟩ <;> linarith

end

/-- The pick of two neighbours between which a grid has no number is the nearest number of the grid. -/
theorem nearestReal_of_picks {G E : ℝ → Prop} {rm : Rm} {neg : Bool} {A B s M : ℝ} (hB : 0 ≤ B) (hBA : B ≤ A) (hAB : A < B + s)
    (gap : ∀ g, G g → |g| ≤ B ∨ B + s ≤ |g|) (hG : G (signOf neg * M)) (hp : Picks rm neg A B s M (E (signOf neg * M))) :
    nearestReal rm G E (signOf neg * A) (signOf neg * M) := by
  refine ⟨hG, fun v hv => ?_⟩
  have hmag := gap v hv
  cases rm with
  | rne => exact nearest_of_picks_rne hB hBA hAB hmag hp
  | rtz =>
    have hA : 0 ≤ A := hB.trans hBA
    obtain rfl : M = B := hp
    refine ⟨?_, ?_, fun _ hle => ?_⟩
    · rw [mul_mul_mul_comm, signOf_mul_self, one_mul]
      exact mul_nonneg hA hB
    · rwa [abs_signOf_mul, abs_signOf_mul, abs_of_nonneg hB, abs_of_nonneg hA]
    · rw [abs_signOf_mul, abs_of_nonneg hA] at hle
      rw [abs_signOf_mul, abs_of_nonneg hB]
      exact hmag.resolve_right (by linarith)
  | rup => exact nearest_of_picks_rup hB hBA hAB hmag hp
  | rdn => exact nearest_of_picks_rdn hB hBA hAB hmag hp

/-! ## `roundAt` -/

/-- Below its unit, a magnitude is cut and rounded by its remainder. -/
theorem roundAt_of_lt (rm : Rm) (neg : Bool) (m : Nat) (e q : Int) (h : e < q) :
    roundAt rm neg m e q = (if roundUp rm neg (m / 2 ^ (q - e).toNat) (m % 2 ^ (q - e).toNat) (q - e).toNat
      then m / 2 ^ (q - e).toNat + 1 else m / 2 ^ (q - e).toNat, m % 2 ^ (q - e).toNat == 0) := by
  unfold roundAt
  rw [if_neg (by omega)]
  generalize hd : (q - e).toNat = d
  dsimp only
  split
  · next hfar =>
    have hlt : m < 2 ^ (d - 1) := Nat.lt_of_lt_of_le Nat.lt_log2_self (Nat.pow_le_pow_right (by omega) (by omega))
    have hd2 : 2 ^ d = 2 * 2 ^ (d - 1) := by rw [← Nat.pow_succ', Nat.succ_eq_add_one, Nat.sub_add_cancel (by omega)]
    rw [Nat.mod_eq_of_lt (by omega), Nat.div_eq_of_lt (by omega)]
    by_cases hm : m = 0
    · subst hm
      cases rm <;> simp [roundUp]
    · rw [if_neg hm]
      cases rm with
      | rne => simp [roundUp, Nat.not_lt.2 hlt.le]
      | rtz => simp [roundUp]
      | rup | rdn => cases neg <;> simp [roundUp, hm]
  · rfl

/-- What `roundAt` makes of a magnitude: one of the two multiples of its unit about it, by the mode; and whether it stands on the lower one. -/
theorem roundAt_picks (rm : Rm) (neg : Bool) (m : Nat) (e q : Int) : ∃ N : Nat,
    (N : ℝ) * (2 : ℝ) ^ q ≤ m * (2 : ℝ) ^ e ∧ (m : ℝ) * (2 : ℝ) ^ e < N * (2 : ℝ) ^ q + (2 : ℝ) ^ q
    ∧ Picks rm neg (m * (2 : ℝ) ^ e) (N * (2 : ℝ) ^ q) ((2 : ℝ) ^ q) ((roundAt rm neg m e q).1 * (2 : ℝ) ^ q) ((roundAt rm neg m e q).1 % 2 = 0)
    ∧ ((roundAt rm neg m e q).2 = true ↔ (m : ℝ) * (2 : ℝ) ^ e = N * (2 : ℝ) ^ q) := by
  have hq := two_zpow_pos q
  by_cases hqe : q ≤ e
  · have hval : ((m * 2 ^ (e - q).toNat : Nat) : ℝ) * (2 : ℝ) ^ q = m * (2 : ℝ) ^ e := by
      rw [two_zpow_of_le hqe]
      push_cast
      ring
    refine ⟨m * 2 ^ (e - q).toNat, hval.le, by linarith, ?_, ?_⟩
    · unfold roundAt
      rw [if_pos hqe]
      simp only [hval]
      cases rm with
      | rne => exact ⟨.inl ⟨rfl, by linarith⟩, fun h => by linarith⟩
      | rtz => rfl
      | rup | rdn => simp [Picks]
    · unfold roundAt
      rw [if_pos hqe]
      exact iff_of_true rfl hval.symm
  · rw [not_le] at hqe
    have he := two_zpow_pos e
    rw [roundAt_of_lt rm neg m e q hqe]
    generalize hd : (q - e).toNat = d
    have hunit : (2 : ℝ) ^ q = ((2 ^ d : Nat) : ℝ) * (2 : ℝ) ^ e := by
      rw [two_zpow_of_le hqe.le, hd]
      push_cast
      rfl
    have hpow : (2 ^ d : Nat) = 2 * 2 ^ (d - 1) := by rw [← Nat.pow_succ', Nat.succ_eq_add_one, Nat.sub_add_cancel (by omega)]
    have hmod : m % 2 ^ d < 2 ^ d := Nat.mod_lt _ (Nat.two_pow_pos d)
    have hA : (m : ℝ) * (2 : ℝ) ^ e = (m / 2 ^ d : Nat) * (2 : ℝ) ^ q + (m % 2 ^ d : Nat) * (2 : ℝ) ^ e := by
      rw [hunit, ← mul_assoc, ← add_mul]
      congr 1
      exact_mod_cast (Nat.div_add_mod' m (2 ^ d)).symm
    generalize m / 2 ^ d = N at hA ⊢
    generalize m % 2 ^ d = r at hA hmod ⊢
    have hle : ∀ a b : Nat, (a : ℝ) * (2 : ℝ) ^ e ≤ b * (2 : ℝ) ^ e ↔ a ≤ b := fun a b => by
      rw [mul_le_mul_iff_left₀ he, Nat.cast_le]
    have hr0 : (m : ℝ) * (2 : ℝ) ^ e = N * (2 : ℝ) ^ q ↔ r = 0 := by
      rw [hA, add_eq_left, mul_eq_zero, or_iff_left he.ne', Nat.cast_eq_zero]
    have hdiff : 2 * ((m : ℝ) * (2 : ℝ) ^ e - N * (2 : ℝ) ^ q) = ((2 * r : Nat) : ℝ) * (2 : ℝ) ^ e := by
      rw [hA]
      push_cast
      ring
    refine ⟨N, ?_, ?_, ?_, ?_⟩
    · rw [hA, le_add_iff_nonneg_right]
      positivity
    · rw [hA, add_lt_add_iff_left, hunit, mul_lt_mul_iff_left₀ he, Nat.cast_lt]
      exact hmod
    · have hM : ∀ c : Bool, (((if c then N + 1 else N : Nat) : ℝ)) * (2 : ℝ) ^ q = if c then N * (2 : ℝ) ^ q + (2 : ℝ) ^ q else N * (2 : ℝ) ^ q := by
        rintro (_ | _)
        · rfl
        · simp only [if_true]
          push_cast
          ring
      rw [hM]
      cases rm with
      | rne =>
        have htie : ((2 * r : Nat) : ℝ) * (2 : ℝ) ^ e = (2 : ℝ) ^ q ↔ 2 * r = 2 ^ d := by
          rw [hunit, mul_left_inj' he.ne', Nat.cast_inj]
        have hlow : ((2 * r : Nat) : ℝ) * (2 : ℝ) ^ e ≤ (2 : ℝ) ^ q ↔ 2 * r ≤ 2 ^ d := by rw [hunit, hle]
        have hhigh : (2 : ℝ) ^ q ≤ ((2 * r : Nat) : ℝ) * (2 : ℝ) ^ e ↔ 2 ^ d ≤ 2 * r := by rw [hunit, hle]
        rw [Picks, hdiff, htie, hlow, hhigh]
        have hup : roundUp .rne neg N r d = true ↔ 2 ^ (d - 1) < r ∨ (r = 2 ^ (d - 1) ∧ N % 2 = 1) := by simp [roundUp]
        by_cases hcase : roundUp .rne neg N r d = true
        · simp only [if_pos hcase]
          rw [hup] at hcase
          exact ⟨.inr ⟨trivial, by omega⟩, fun h => by omega⟩
        · simp only [if_neg hcase]
          rw [hup] at hcase
          exact ⟨.inl ⟨trivial, by omega⟩, fun h => by omega⟩
      | rtz => rfl
      | rup => cases neg <;> simp [Picks, roundUp, hr0]
      | rdn => cases neg <;> simp [Picks, roundUp, hr0]
    · rw [hr0, beq_iff_eq]

/-! ## Magnitudes known only beside half units -/

/-- Two magnitudes stand alike to every multiple of g. -/
def SameBeside (g A A' : ℝ) : Prop := ∀ j : Nat, ((j : ℝ) * g ≤ A ↔ (j : ℝ) * g ≤ A') ∧ (A ≤ j * g ↔ A' ≤ j * g)

theorem SameBeside.rfl (g A : ℝ) : SameBeside g A A := fun _ => ⟨Iff.rfl, Iff.rfl⟩

/-- A magnitude of a known numerator, or one strictly between two even ones beside an odd one: multiples of a unit above the even ones
cannot tell them apart. -/
theorem SameBeside.of_sticky {A : ℝ} {k : Nat} {e q : Int} (hq : e + 1 ≤ q) (hlo : (2 * k : ℝ) * (2 : ℝ) ^ e < A)
    (hhi : A < (2 * k + 2 : ℝ) * (2 : ℝ) ^ e) : SameBeside ((2 : ℝ) ^ q) A ((2 * k + 1 : Nat) * (2 : ℝ) ^ e) := by
  intro j
  have he := two_zpow_pos e
  have hj : (j : ℝ) * (2 : ℝ) ^ q = (2 * (j * 2 ^ (q - (e + 1)).toNat : Nat) : ℝ) * (2 : ℝ) ^ e := by
    rw [two_zpow_of_le hq, two_zpow_succ]
    push_cast
    ring
  rw [hj]
  generalize j * 2 ^ (q - (e + 1)).toNat = i
  have hscale : ∀ a b : ℝ, a * (2 : ℝ) ^ e ≤ b * (2 : ℝ) ^ e ↔ a ≤ b := fun a b => mul_le_mul_iff_left₀ he
  rcases Nat.lt_or_ge k i with hki | hki
  · have hi : (k : ℝ) + 1 ≤ i := by exact_mod_cast hki
    have hup : (2 * k + 2 : ℝ) * (2 : ℝ) ^ e ≤ 2 * i * (2 : ℝ) ^ e := (hscale _ _).2 (by linarith)
    rw [hscale, hscale]
    push_cast
    exact ⟨iff_of_false (by linarith) (by linarith), iff_of_true (by linarith) (by linarith)⟩
  · have hi : (i : ℝ) ≤ k := by exact_mod_cast hki
    have hdown : 2 * i * (2 : ℝ) ^ e ≤ (2 * k : ℝ) * (2 : ℝ) ^ e := (hscale _ _).2 (by linarith)
    rw [hscale, hscale]
    push_cast
    exact ⟨iff_of_true (by linarith) (by linarith), iff_of_false (by linarith) (by linarith)⟩

theorem Picks.of_same {rm : Rm} {neg : Bool} {A A' s M : ℝ} {N : Nat} {ev : Prop} (h : SameBeside (s / 2) A A')
    (hp : Picks rm neg A' (N * s) s M ev) : Picks rm neg A (N * s) s M ev := by
  have hB : ((2 * N : Nat) : ℝ) * (s / 2) = N * s := by push_cast; ring
  have hH : ((2 * N + 1 : Nat) : ℝ) * (s / 2) = N * s + s / 2 := by push_cast; ring
  obtain ⟨h1, h2⟩ := h (2 * N)
  obtain ⟨h3, h4⟩ := h (2 * N + 1)
  rw [hB] at h1 h2
  rw [hH] at h3 h4
  have heq : A = N * s ↔ A' = N * s := by
    rw [le_antisymm_iff, le_antisymm_iff, h1, h2]
  cases rm with
  | rne =>
    obtain ⟨hM, htie⟩ := hp
    refine ⟨hM.imp (And.imp_right fun h => ?_) (And.imp_right fun h => ?_), fun ht => htie ?_⟩
    · linarith [h4.2 (by linarith)]
    · linarith [h3.2 (by linarith)]
    · linarith [h3.1 (by linarith), h4.1 (by linarith)]
  | rtz => exact hp
  | rup | rdn => simpa only [Picks, heq] using hp

/-! ## The nearest number of a grid -/

/-- The numbers of at most a format's significant bits, in units of which those below q are too small to matter. -/
structure Fmt.GridAbove (f : Fmt) (l q : Int) (G E : ℝ → Prop) : Prop where
  unit : l - f.mb ≤ q
  mem : ∀ (k u : Int), q ≤ u → k.natAbs < 2 ^ (f.mb + 1) → G ((k : ℝ) * (2 : ℝ) ^ u)
  even : ∀ (k u : Int), q ≤ u → (2 * k).natAbs < 2 ^ (f.mb + 1) → E (2 * (k : ℝ) * (2 : ℝ) ^ u)
  only : ∀ g, G g → ∃ k u : Int, k.natAbs < 2 ^ (f.mb + 1) ∧ g = (k : ℝ) * (2 : ℝ) ^ u ∧ (q ≤ u ∨ q = l - f.mb)

theorem Fmt.gridAbove_max (f : Fmt) (lo l : Int) :
    f.GridAbove l (max (l - f.mb) lo) (f.gridReal lo) (f.evenReal lo) where
  unit := le_max_left _ _
  mem k u hu hk := ⟨k, u, (le_max_right _ _).trans hu, hk, rfl⟩
  even k u hu hk := ⟨k, u, (le_max_right _ _).trans hu, hk, rfl⟩
  only g := by
    rintro ⟨k, u, hlo, hk, rfl⟩
    exact ⟨k, u, hk, rfl, by omega⟩

theorem Fmt.gridAbove_unbounded (f : Fmt) (l : Int) :
    f.GridAbove l (l - f.mb) (fun v => ∃ lo, f.gridReal lo v) (fun v => ∃ lo, f.evenReal lo v) where
  unit := le_rfl
  mem k u _ hk := ⟨u, k, u, le_rfl, hk, rfl⟩
  even k u _ hk := ⟨u, k, u, le_rfl, hk, rfl⟩
  only g := by
    rintro ⟨lo, k, u, -, hk, rfl⟩
    exact ⟨k, u, hk, rfl, .inr rfl⟩

section
variable {f : Fmt} {l q : Int} {G E : ℝ → Prop}

/-- Multiples of the unit up to the next power of two are on the grid. -/
theorem Fmt.GridAbove.mem_mul (hg : f.GridAbove l q G E) (hmb : 1 ≤ f.mb) (neg : Bool) (n : Nat) (hn : n ≤ 2 ^ (f.mb + 1)) :
    G (signOf neg * (n * (2 : ℝ) ^ q)) ∧ (n % 2 = 0 → E (signOf neg * (n * (2 : ℝ) ^ q))) := by
  have hsign : ∀ k : Nat, (signOf neg : ℝ) * k = (((if neg then -1 else 1) * k : Int) : ℝ) := fun k => by
    cases neg <;> simp
  have habs : ∀ k : Nat, ((if neg then -1 else 1) * (k : Int)).natAbs = k := fun k => by cases neg <;> simp
  have hpow : (2 : Nat) ^ (f.mb + 1) = 2 * 2 ^ f.mb := by rw [Nat.pow_succ, Nat.mul_comm]
  have hpow' : (2 : Nat) ^ f.mb = 2 * 2 ^ (f.mb - 1) := by
    rw [← Nat.pow_succ', Nat.succ_eq_add_one, Nat.sub_add_cancel hmb]
  rcases Nat.lt_or_eq_of_le hn with hlt | heq
  · refine ⟨?_, fun hev => ?_⟩
    · rw [← mul_assoc, hsign]
      exact hg.mem _ _ le_rfl (by rwa [habs])
    · obtain ⟨k, rfl⟩ : ∃ k, n = 2 * k := ⟨n / 2, by omega⟩
      have := hg.even ((if neg then -1 else 1) * k) q le_rfl (by rw [Int.natAbs_mul, habs]; exact hlt)
      rw [← hsign] at this
      convert this using 1
      push_cast
      ring
  · have hval : (n : ℝ) * (2 : ℝ) ^ q = (2 ^ f.mb : Nat) * (2 : ℝ) ^ (q + 1) := by
      rw [heq, two_zpow_succ, hpow]
      push_cast
      ring
    refine ⟨?_, fun _ => ?_⟩
    · rw [hval, ← mul_assoc, hsign]
      exact hg.mem _ _ (by omega) (by rw [habs]; have := Nat.two_pow_pos f.mb; omega)
    · have := hg.even ((if neg then -1 else 1) * (2 ^ (f.mb - 1) : Nat)) (q + 1) (by omega)
        (by rw [Int.natAbs_mul, habs, show Int.natAbs 2 = 2 from rfl]; have := Nat.two_pow_pos f.mb; omega)
      rw [← hsign] at this
      convert this using 1
      rw [hval, hpow']
      push_cast
      ring

/-- Between two neighbouring multiples of the unit about a magnitude of the binade the grid has no number. -/
theorem Fmt.GridAbove.gap (hg : f.GridAbove l q G E) {N : Nat} (hN : q = l - f.mb → 2 ^ f.mb ≤ N) (g : ℝ) (h : G g) :
    |g| ≤ N * (2 : ℝ) ^ q ∨ N * (2 : ℝ) ^ q + (2 : ℝ) ^ q ≤ |g| := by
  obtain ⟨k, u, hk, rfl, hu⟩ := hg.only g h
  have habs : |(k : ℝ) * (2 : ℝ) ^ u| = (k.natAbs : ℝ) * (2 : ℝ) ^ u := by
    rw [abs_mul, abs_of_pos (two_zpow_pos u), Nat.cast_natAbs, Int.cast_abs]
  rw [habs]
  have hq := two_zpow_pos q
  by_cases hqu : q ≤ u
  · rw [two_zpow_of_le hqu, ← mul_assoc, ← add_one_mul]
    rcases Nat.lt_or_ge N (k.natAbs * 2 ^ (u - q).toNat) with hlt | hge
    · exact .inr (mul_le_mul_of_nonneg_right (by exact_mod_cast hlt) hq.le)
    · exact .inl (mul_le_mul_of_nonneg_right (by exact_mod_cast hge) hq.le)
  · left
    have hN' := hN (hu.resolve_left hqu)
    have hfine : (2 : ℝ) ^ (u + 1) ≤ (2 : ℝ) ^ q := two_zpow_le (by omega)
    have hk' : (k.natAbs : ℝ) ≤ 2 * (2 ^ f.mb : Nat) := by
      exact_mod_cast (by rw [Nat.pow_succ] at hk; omega : k.natAbs ≤ 2 * 2 ^ f.mb)
    calc (k.natAbs : ℝ) * (2 : ℝ) ^ u ≤ 2 * (2 ^ f.mb : Nat) * (2 : ℝ) ^ u := mul_le_mul_of_nonneg_right hk' (two_zpow_pos u).le
      _ = (2 ^ f.mb : Nat) * (2 : ℝ) ^ (u + 1) := by rw [two_zpow_succ]; ring
      _ ≤ N * (2 : ℝ) ^ q := mul_le_mul (by exact_mod_cast hN') hfine (two_zpow_pos _).le (Nat.cast_nonneg _)

/-- In the binade's own unit a magnitude counts at least 2^mb units. -/
theorem units_ge_of_le {mb N : Nat} {A : ℝ} (hq : q = l - mb) (hl : (2 : ℝ) ^ l ≤ A) (hAB : A < N * (2 : ℝ) ^ q + (2 : ℝ) ^ q) : 2 ^ mb ≤ N := by
  have hstep : (2 : ℝ) ^ l = (2 ^ mb : Nat) * (2 : ℝ) ^ q := by
    rw [two_zpow_of_le (show q ≤ l by omega), show (l - q).toNat = mb by omega]
    push_cast
    rfl
  have hlt : ((2 ^ mb : Nat) : ℝ) * (2 : ℝ) ^ q < (N + 1 : Nat) * (2 : ℝ) ^ q := by
    rw [← hstep, Nat.cast_succ, add_one_mul]
    linarith
  exact Nat.lt_succ_iff.1 (by exact_mod_cast (mul_lt_mul_iff_left₀ (two_zpow_pos q)).1 hlt)

/-- In that unit or a greater one it counts less than 2^(mb + 1). -/
theorem units_lt_of_lt {mb N : Nat} {A : ℝ} (hq : l - mb ≤ q) (hl : A < (2 : ℝ) ^ (l + 1)) (hBA : N * (2 : ℝ) ^ q ≤ A) : N < 2 ^ (mb + 1) := by
  have hstep : (2 : ℝ) ^ (l + 1) ≤ (2 ^ (mb + 1) : Nat) * (2 : ℝ) ^ q := by
    refine (two_zpow_le (show l + 1 ≤ (mb + 1 : Nat) + q by push_cast; omega)).trans_eq ?_
    rw [zpow_add₀ (by norm_num), zpow_natCast]
    push_cast
    rfl
  exact_mod_cast (mul_lt_mul_iff_left₀ (two_zpow_pos q)).1 (hBA.trans_lt (hl.trans_le hstep))

theorem SameBeside.bracket {A A' s : ℝ} {N : Nat} (h : SameBeside (s / 2) A A') (hlo : N * s ≤ A') (hhi : A' < N * s + s) :
    N * s ≤ A ∧ A < N * s + s ∧ (A' = N * s ↔ A = N * s) := by
  have hB := h (2 * N)
  have hH := h (2 * (N + 1))
  rw [show ((2 * N : Nat) : ℝ) * (s / 2) = N * s by push_cast; ring] at hB
  rw [show ((2 * (N + 1) : Nat) : ℝ) * (s / 2) = N * s + s by push_cast; ring] at hH
  refine ⟨hB.1.2 hlo, not_le.1 fun hle => (not_le.2 hhi) (hH.1.1 hle), ?_⟩
  rw [le_antisymm_iff, le_antisymm_iff, hB.1, hB.2]

/-- `roundAt` in the unit of a magnitude's binade gives the nearest number of the grid: at most 2^(mb + 1) units, and at least half of that
where the unit is the binade's own. -/
theorem Fmt.GridAbove.nearestReal_roundAt (hg : f.GridAbove l q G E) (hmb : 1 ≤ f.mb) (rm : Rm) (neg : Bool) (m : Nat) (e : Int) {A : ℝ}
    (hl : (2 : ℝ) ^ l ≤ A) (hl' : A < (2 : ℝ) ^ (l + 1)) (same : SameBeside ((2 : ℝ) ^ q / 2) A (m * (2 : ℝ) ^ e)) :
    nearestReal rm G E (signOf neg * A) (signOf neg * ((roundAt rm neg m e q).1 * (2 : ℝ) ^ q))
    ∧ (roundAt rm neg m e q).1 ≤ 2 ^ (f.mb + 1)
    ∧ (q = l - f.mb → 2 ^ f.mb ≤ (roundAt rm neg m e q).1)
    ∧ ((roundAt rm neg m e q).2 = true ↔ (roundAt rm neg m e q).1 * (2 : ℝ) ^ q = A) := by
  obtain ⟨N, hlo, hhi, hp, hex⟩ := roundAt_picks rm neg m e q
  obtain ⟨hBA, hAB, hsame⟩ := same.bracket hlo hhi
  have hq := two_zpow_pos q
  have hNlow : q = l - f.mb → 2 ^ f.mb ≤ N := fun h => units_ge_of_le h hl hAB
  have hNhigh : N < 2 ^ (f.mb + 1) := units_lt_of_lt hg.unit hl' hBA
  have hn : (roundAt rm neg m e q).1 = N ∨ (roundAt rm neg m e q).1 = N + 1 := by
    refine hp.low_or_high.imp (fun h => ?_) (fun h => ?_)
    · exact_mod_cast mul_right_cancel₀ hq.ne' h
    · rw [← add_one_mul] at h
      exact_mod_cast mul_right_cancel₀ hq.ne' h
  have hp' := Picks.of_same same hp
  obtain ⟨hmem, heven⟩ := hg.mem_mul hmb neg (roundAt rm neg m e q).1 (by omega)
  refine ⟨nearestReal_of_picks (by positivity) hBA hAB (hg.gap hNlow) hmem (hp'.imp heven), by omega,
    fun h => (hNlow h).trans (by omega), ?_⟩
  rw [hex, hsame]
  refine ⟨fun h => (hp'.eq_of_exact hq h).trans h.symm, fun h => ?_⟩
  rcases hp'.low_or_high with hM | hM
  · exact h.symm.trans hM
  · linarith

end

/-! ## The nearest integer -/

/-- The grid of the integers, and of the even ones. -/
def isInteger (w : ℝ) : Prop := ∃ j : Int, w = j
def isEvenInteger (w : ℝ) : Prop := ∃ j : Int, w = 2 * j

theorem roundInt_fst (rm : Rm) (neg : Bool) (m : Nat) (e : Int) :
    ((roundInt rm neg m e).1 : ℝ) = signOf neg * (roundAt rm neg m e 0).1 := by
  cases neg <;> simp [roundInt]

theorem nearestReal_roundInt (rm : Rm) (neg : Bool) (m : Nat) (e : Int) :
    nearestReal rm isInteger isEvenInteger (signOf neg * (m * (2 : ℝ) ^ e)) (roundInt rm neg m e).1
    ∧ ((roundInt rm neg m e).2 = true ↔ ((roundInt rm neg m e).1 : ℝ) = signOf neg * (m * (2 : ℝ) ^ e)) := by
  obtain ⟨N, hlo, hhi, hp, hex⟩ := roundAt_picks rm neg m e 0
  simp only [zpow_zero, mul_one] at hlo hhi hp hex
  have gap : ∀ g, isInteger g → |g| ≤ N ∨ (N : ℝ) + 1 ≤ |g| := by
    rintro g ⟨j, rfl⟩
    rw [← Int.cast_abs]
    rcases lt_or_ge (N : Int) |j| with h | h
    · exact .inr (by exact_mod_cast h)
    · exact .inl (by exact_mod_cast h)
  have hsign : ∀ k : Nat, (signOf neg : ℝ) * k = (((if neg then -1 else 1) * k : Int) : ℝ) := fun k => by cases neg <;> simp
  have hmem : isInteger (signOf neg * (roundAt rm neg m e 0).1) := ⟨_, hsign _⟩
  have heven : (roundAt rm neg m e 0).1 % 2 = 0 → isEvenInteger (signOf neg * (roundAt rm neg m e 0).1) := fun h => by
    obtain ⟨k, hk⟩ : ∃ k, (roundAt rm neg m e 0).1 = 2 * k := ⟨(roundAt rm neg m e 0).1 / 2, by omega⟩
    refine ⟨(if neg then -1 else 1) * k, ?_⟩
    rw [← hsign, hk]
    push_cast
    ring
  rw [roundInt_fst]
  refine ⟨nearestReal_of_picks (Nat.cast_nonneg N) hlo hhi gap hmem (hp.imp heven), ?_⟩
  rw [show (roundInt rm neg m e).2 = (roundAt rm neg m e 0).2 from rfl, hex]
  refine ⟨fun h => by rw [hp.eq_of_exact one_pos h, h], fun h => ?_⟩
  have hM := mul_left_cancel₀ (show signOf neg ≠ 0 by cases neg <;> simp) h
  rcases hp.low_or_high with hlow | hhigh
  · exact hM.symm.trans hlow
  · linarith

end Sys2Proof.Machine
end

section
/-!
SUPPORT. Codes of the floating-point formats against the numbers they stand for, and rounding into a format (R69, R70, R83, R84).
-/
namespace Sys2Proof.Machine

/-- What the seven formats have in common: significant bits, a greatest finite code among the codes, its exponent, room for infinity. -/
structure Fmt.Sound (f : Fmt) : Prop where
  mb : 1 ≤ f.mb
  maxc : f.maxc < 2 ^ f.mag
  top : f.maxc / 2 ^ f.mb ≤ 2 * f.bias + 1
  inf : f.inf = true → f.maxc + 1 < 2 ^ f.mag
  lo : f.lo ≤ -1

theorem Fmt.sound_of_mem {f : Fmt} (h : f ∈ [fmtF32, fmtF16, fmtBf16, fmtE5m2, fmtE4m3, fmtE3m2, fmtE2m1]) : f.Sound := by
  simp only [List.mem_cons, List.not_mem_nil, or_false] at h
  rcases h with rfl | rfl | rfl | rfl | rfl | rfl | rfl <;> constructor <;> decide

theorem Fmt.sound_ofTy (t : Ty) : (Fmt.ofTy t).Sound := by
  cases t <;> exact Fmt.sound_of_mem (by simp [Fmt.ofTy])

/-! ## The magnitude of a code -/

/-- Significand and exponent of a code without its sign. -/
def Fmt.sig (f : Fmt) (c : Nat) : Nat := if c / 2 ^ f.mb = 0 then c % 2 ^ f.mb else c % 2 ^ f.mb + 2 ^ f.mb
def Fmt.exp (f : Fmt) (c : Nat) : Int := if c / 2 ^ f.mb = 0 then f.lo else ((c / 2 ^ f.mb : Nat) : Int) - f.bias - f.mb

/-- The magnitude a code stands for, were it finite. -/
noncomputable def Fmt.magOf (f : Fmt) (c : Nat) : ℝ := f.sig c * (2 : ℝ) ^ f.exp c

theorem signed_mod (f : Fmt) (neg : Bool) (c : Nat) (hc : c < 2 ^ f.mag) : signed f neg c % 2 ^ f.mag = c := by
  rw [signed, Nat.add_mul_mod_self_right, Nat.mod_eq_of_lt hc]

theorem bit_signed (f : Fmt) (neg : Bool) (c : Nat) (hc : c < 2 ^ f.mag) : bit (signed f neg c) f.mag = neg := by
  rw [bit, signed, Nat.testBit_eq_decide_div_mod_eq, Nat.add_mul_div_right _ _ (Nat.two_pow_pos _), Nat.div_eq_of_lt hc]
  cases neg <;> decide

theorem signed_lt (f : Fmt) (neg : Bool) (c : Nat) (hc : c < 2 ^ f.mag) : signed f neg c < 2 ^ (f.mag + 1) := by
  rw [signed, Nat.pow_succ]
  cases neg <;> simp <;> omega

theorem unpack_of_le (f : Fmt) (x : Nat) (h : x % 2 ^ f.mag ≤ f.maxc) :
    unpack f x = .num (bit x f.mag) (f.sig (x % 2 ^ f.mag)) (f.exp (x % 2 ^ f.mag)) := by
  unfold unpack Fmt.sig Fmt.exp
  rw [if_neg (Nat.not_lt.2 h)]
  split <;> simp_all [Fmt.lo]

theorem Fmt.Sound.unpack_signed {f : Fmt} (hf : f.Sound) (neg : Bool) (c : Nat) (h : c ≤ f.maxc) :
    unpack f (signed f neg c) = .num neg (f.sig c) (f.exp c) := by
  have hc := h.trans_lt hf.maxc
  rw [unpack_of_le f _ (by rwa [signed_mod f neg c hc]), signed_mod f neg c hc, bit_signed f neg c hc]

theorem Fmt.Sound.unpack_inf {f : Fmt} (hf : f.Sound) (neg : Bool) (h : f.inf = true) :
    unpack f (signed f neg f.infCode) = .inf neg := by
  have hc := hf.inf h
  unfold unpack
  rw [show f.infCode = f.maxc + 1 from rfl, signed_mod f neg _ hc, bit_signed f neg _ hc]
  simp [h]

/-- Finite values read have exponents at or above the format's least unit. -/
theorem Fmt.lo_le_exp (f : Fmt) (c : Nat) : f.lo ≤ f.exp c := by
  unfold Fmt.exp Fmt.lo
  split
  · exact le_rfl
  · have : 1 ≤ c / 2 ^ f.mb := Nat.pos_of_ne_zero ‹_›
    omega

theorem Fmt.magOf_nonneg (f : Fmt) (c : Nat) : 0 ≤ f.magOf c := mul_nonneg (Nat.cast_nonneg _) (two_zpow_pos _).le

/-- A code by its exponent field and its mantissa. -/
theorem Fmt.magOf_zero (f : Fmt) (M : Nat) (hM : M < 2 ^ f.mb) : f.magOf M = M * (2 : ℝ) ^ f.lo := by
  simp [Fmt.magOf, Fmt.sig, Fmt.exp, Nat.div_eq_of_lt hM, Nat.mod_eq_of_lt hM]

theorem Fmt.magOf_succ (f : Fmt) (E M : Nat) (hM : M < 2 ^ f.mb) :
    f.magOf ((E + 1) * 2 ^ f.mb + M) = (M + 2 ^ f.mb : Nat) * (2 : ℝ) ^ (f.lo + E) := by
  have hdiv : ((E + 1) * 2 ^ f.mb + M) / 2 ^ f.mb = E + 1 := by
    rw [Nat.add_comm, Nat.add_mul_div_right _ _ (Nat.two_pow_pos _), Nat.div_eq_of_lt hM, Nat.zero_add]
  have hmod : ((E + 1) * 2 ^ f.mb + M) % 2 ^ f.mb = M := by
    rw [Nat.add_comm, Nat.add_mul_mod_self_right, Nat.mod_eq_of_lt hM]
  rw [Fmt.magOf, Fmt.sig, Fmt.exp, hdiv, hmod, if_neg (by omega), if_neg (by omega)]
  congr 2
  unfold Fmt.lo
  push_cast
  ring

theorem Fmt.magOf_lt_succ (f : Fmt) (c : Nat) : f.magOf c < f.magOf (c + 1) := by
  have hM : c % 2 ^ f.mb < 2 ^ f.mb := Nat.mod_lt _ (Nat.two_pow_pos f.mb)
  have hc : c = c / 2 ^ f.mb * 2 ^ f.mb + c % 2 ^ f.mb := (Nat.div_add_mod' c (2 ^ f.mb)).symm
  generalize c / 2 ^ f.mb = E at hc
  generalize c % 2 ^ f.mb = M at hc hM
  subst hc
  rcases Nat.lt_or_eq_of_le (Nat.succ_le_of_lt hM) with hnext | hlast
  · -- the mantissa rises
    cases E with
    | zero =>
      simp only [Nat.zero_mul, Nat.zero_add]
      rw [f.magOf_zero M hM, f.magOf_zero (M + 1) hnext]
      exact mul_lt_mul_of_pos_right (by exact_mod_cast Nat.lt_succ_self M) (two_zpow_pos _)
    | succ E =>
      rw [Nat.add_assoc, f.magOf_succ E M hM, f.magOf_succ E (M + 1) hnext]
      exact mul_lt_mul_of_pos_right (by exact_mod_cast (by omega)) (two_zpow_pos _)
  · -- the exponent rises
    have hnext : E * 2 ^ f.mb + M + 1 = (E + 1) * 2 ^ f.mb + 0 := by
      rw [Nat.add_assoc, show M + 1 = 2 ^ f.mb from hlast]
      ring
    rw [hnext, f.magOf_succ E 0 (Nat.two_pow_pos _)]
    cases E with
    | zero =>
      rw [Nat.zero_mul, Nat.zero_add, f.magOf_zero M hM, Nat.zero_add, Nat.cast_zero, add_zero]
      exact mul_lt_mul_of_pos_right (by exact_mod_cast hM) (two_zpow_pos _)
    | succ E =>
      rw [f.magOf_succ E M hM, Nat.cast_succ, ← add_assoc, two_zpow_succ, ← mul_assoc]
      exact mul_lt_mul_of_pos_right (by exact_mod_cast (by omega)) (two_zpow_pos _)

theorem Fmt.magOf_strictMono (f : Fmt) : StrictMono f.magOf := strictMono_nat_of_lt_succ f.magOf_lt_succ

theorem Fmt.Sound.magOf_maxc_lt {f : Fmt} (hf : f.Sound) : f.magOf f.maxc < (2 : ℝ) ^ ((f.bias : Int) + 2) := by
  have hsig : f.sig f.maxc < 2 ^ (f.mb + 1) := by
    have := Nat.mod_lt f.maxc (Nat.two_pow_pos f.mb)
    rw [Fmt.sig, Nat.pow_succ]
    split <;> omega
  have hexp : f.exp f.maxc ≤ f.bias + 1 - f.mb := by
    have := hf.top
    unfold Fmt.exp Fmt.lo
    split <;> omega
  calc f.magOf f.maxc < (2 ^ (f.mb + 1) : Nat) * (2 : ℝ) ^ f.exp f.maxc :=
        mul_lt_mul_of_pos_right (by exact_mod_cast hsig) (two_zpow_pos _)
    _ ≤ (2 ^ (f.mb + 1) : Nat) * (2 : ℝ) ^ ((f.bias : Int) + 1 - f.mb) := mul_le_mul_of_nonneg_left (two_zpow_le hexp) (Nat.cast_nonneg _)
    _ = (2 : ℝ) ^ ((f.bias : Int) + 2) := by
        push_cast
        rw [← zpow_natCast, ← zpow_add₀ (by norm_num)]
        congr 1
        push_cast
        ring

/-- The code that `roundCode` builds of n units in a binade stands for n units. -/
theorem Fmt.magOf_units (f : Fmt) (l : Int) (n : Nat) (hn : n ≤ 2 ^ (f.mb + 1)) (hlow : max (l - f.mb) f.lo = l - f.mb → 2 ^ f.mb ≤ n) :
    f.magOf ((max (l - f.mb) f.lo + f.mb + f.bias - 1).toNat * 2 ^ f.mb + n) = n * (2 : ℝ) ^ max (l - f.mb) f.lo := by
  have hlo : f.lo = 1 - f.bias - f.mb := rfl
  have hP := Nat.two_pow_pos f.mb
  generalize hq : max (l - f.mb) f.lo = q at hlow
  obtain ⟨E, hE⟩ : ∃ E : Nat, q = f.lo + E := ⟨(q - f.lo).toNat, by omega⟩
  rw [show (q + f.mb + f.bias - 1).toNat = E by omega, hE]
  by_cases hsub : n < 2 ^ f.mb
  · -- a subnormal number
    have hE0 : E = 0 := by
      by_contra h
      exact absurd (hlow (by omega)) (by omega)
    subst hE0
    rw [Nat.zero_mul, Nat.zero_add, f.magOf_zero n hsub, Nat.cast_zero, add_zero]
  rcases Nat.lt_or_eq_of_le hn with hlt | heq
  · -- a number of the binade
    have hcode : E * 2 ^ f.mb + n = (E + 1) * 2 ^ f.mb + (n - 2 ^ f.mb) := by
      rw [Nat.succ_mul]
      omega
    rw [hcode, f.magOf_succ E _ (by rw [Nat.pow_succ] at hlt; omega), Nat.sub_add_cancel (by omega)]
  · -- the next power of two
    have hcode : E * 2 ^ f.mb + n = (E + 1 + 1) * 2 ^ f.mb + 0 := by
      rw [heq, Nat.pow_succ]
      ring
    rw [hcode, f.magOf_succ (E + 1) 0 hP, heq, Nat.zero_add, Nat.cast_succ, ← add_assoc, two_zpow_succ, Nat.pow_succ]
    push_cast
    ring

/-! ## Rounding into a format -/

/-- The unit that a magnitude's binade has in a format. -/
def Fmt.unitOf (f : Fmt) (m : Nat) (e : Int) : Int := max ((m.log2 : Int) + e - f.mb) f.lo

/-- A magnitude with a given leading bit. -/
theorem binade (m : Nat) (e : Int) (hm : m ≠ 0) :
    (2 : ℝ) ^ ((m.log2 : Int) + e) ≤ m * (2 : ℝ) ^ e ∧ (m : ℝ) * (2 : ℝ) ^ e < (2 : ℝ) ^ ((m.log2 : Int) + e + 1) := by
  have hlo : (2 ^ m.log2 : ℝ) ≤ m := by exact_mod_cast Nat.log2_self_le hm
  have hhi : (m : ℝ) < 2 ^ (m.log2 + 1) := by exact_mod_cast Nat.lt_log2_self
  constructor
  · rw [zpow_add₀ (by norm_num), zpow_natCast]
    exact mul_le_mul_of_nonneg_right hlo (two_zpow_pos e).le
  · rw [add_right_comm, zpow_add₀ (by norm_num), show ((m.log2 : Int) + 1) = ((m.log2 + 1 : Nat) : Int) by push_cast; rfl, zpow_natCast]
    exact mul_lt_mul_of_pos_right hhi (two_zpow_pos e)

/-- Is the magnitude m × 2^e, rounded in its binade's own unit, below the least normal number? -/
def Fmt.tinyAt (f : Fmt) (rm : Rm) (neg : Bool) (m : Nat) (e : Int) : Bool :=
  if 1 - (f.bias : Int) ≤ (m.log2 : Int) + e then false
  else if (m.log2 : Int) + e < 1 - (f.bias : Int) - 1 then true
  else decide ((roundAt rm neg m e ((m.log2 : Int) + e - f.mb)).1 < 2 ^ (f.mb + 1))

theorem roundCode_eq (f : Fmt) (rm : Rm) (neg : Bool) (m : Nat) (e : Int) : roundCode f rm neg m e =
    if (f.bias : Int) + 2 < (m.log2 : Int) + e then (none, false, false)
    else (some ((f.unitOf m e + f.mb + f.bias - 1).toNat * 2 ^ f.mb + (roundAt rm neg m e (f.unitOf m e)).1),
      (roundAt rm neg m e (f.unitOf m e)).2, f.tinyAt rm neg m e) := by
  have hq : max ((m.log2 : Int) + e) (1 - (f.bias : Int)) - f.mb = f.unitOf m e := by
    unfold Fmt.unitOf Fmt.lo
    omega
  unfold roundCode
  dsimp only
  rw [hq]
  rfl

section
variable {f : Fmt}

/-- What `roundCode` makes of a magnitude A that stands beside half units like m × 2^e: the code of the nearest number, none past every code. -/
theorem Fmt.Sound.roundCode_spec (hf : f.Sound) (rm : Rm) (neg : Bool) (m : Nat) (e : Int) {A : ℝ}
    (hl : (2 : ℝ) ^ ((m.log2 : Int) + e) ≤ A) (hl' : A < (2 : ℝ) ^ ((m.log2 : Int) + e + 1))
    (same : SameBeside ((2 : ℝ) ^ f.unitOf m e / 2) A (m * (2 : ℝ) ^ e)) : ∃ w : ℝ, 0 ≤ w
    ∧ nearestReal rm (f.gridReal f.lo) (f.evenReal f.lo) (signOf neg * A) (signOf neg * w)
    ∧ (∀ c, (roundCode f rm neg m e).1 = some c → f.magOf c = w ∧ ((roundCode f rm neg m e).2.1 = true ↔ w = A))
    ∧ ((roundCode f rm neg m e).1 = none → f.magOf f.maxc < w) := by
  have hgrid := f.gridAbove_max f.lo ((m.log2 : Int) + e)
  obtain ⟨hnear, hle, hge, hex⟩ := hgrid.nearestReal_roundAt hf.mb rm neg m e hl hl' same
  rw [show max ((m.log2 : Int) + e - f.mb) f.lo = f.unitOf m e from rfl] at hnear hle hge hex
  refine ⟨_, mul_nonneg (Nat.cast_nonneg _) (two_zpow_pos _).le, hnear, fun c hc => ?_, fun hnone => ?_⟩
  · rw [roundCode_eq] at hc ⊢
    split at hc
    · cases hc
    · next hbig =>
      obtain rfl : _ = c := Option.some.inj hc
      rw [if_neg hbig]
      exact ⟨f.magOf_units _ _ hle hge, hex⟩
  · rw [roundCode_eq] at hnone
    split at hnone
    · next hbig =>
      have hunit : f.unitOf m e = (m.log2 : Int) + e - f.mb := by
        have hlo : f.lo = 1 - f.bias - f.mb := rfl
        unfold Fmt.unitOf
        omega
      refine hf.magOf_maxc_lt.trans_le ?_
      calc (2 : ℝ) ^ ((f.bias : Int) + 2) ≤ (2 : ℝ) ^ ((f.mb : Int) + f.unitOf m e) := two_zpow_le (by omega)
        _ = (2 ^ f.mb : Nat) * (2 : ℝ) ^ f.unitOf m e := by
            rw [zpow_add₀ (by norm_num), zpow_natCast]
            push_cast
            rfl
        _ ≤ _ := mul_le_mul_of_nonneg_right (by exact_mod_cast hge hunit) (two_zpow_pos _).le
    · cases hnone

/-- The number that an element takes without a least exponent (R83), and whether it lies below the least normal number. -/
theorem Fmt.Sound.tiny_spec (hf : f.Sound) (rm : Rm) (neg : Bool) (m : Nat) (e : Int) (hm : m ≠ 0) : ∃ t : ℝ, 0 ≤ t
    ∧ nearestReal rm (fun v => ∃ lo, f.gridReal lo v) (fun v => ∃ lo, f.evenReal lo v) (signOf neg * (m * (2 : ℝ) ^ e)) (signOf neg * t)
    ∧ (∀ q, q ≤ e → nearestReal rm (f.gridReal q) (f.evenReal q) (signOf neg * (m * (2 : ℝ) ^ e)) (signOf neg * t))
    ∧ ((roundCode f rm neg m e).1.isSome = true → ((roundCode f rm neg m e).2.2 = true ↔ t < (2 : ℝ) ^ (1 - (f.bias : Int)))) := by
  obtain ⟨hl, hl'⟩ := binade m e hm
  have hgrid := f.gridAbove_unbounded ((m.log2 : Int) + e)
  obtain ⟨hnear, hle, hge, hex⟩ := hgrid.nearestReal_roundAt hf.mb rm neg m e hl hl' (SameBeside.rfl _ _)
  refine ⟨_, mul_nonneg (Nat.cast_nonneg _) (two_zpow_pos _).le, hnear, fun q hqe => ?_, fun hsome => ?_⟩
  · have hgrid' := f.gridAbove_max q ((m.log2 : Int) + e)
    have hnear' := (hgrid'.nearestReal_roundAt hf.mb rm neg m e hl hl' (SameBeside.rfl _ _)).1
    rcases le_total q ((m.log2 : Int) + e - f.mb) with h | h
    · rwa [max_eq_left h] at hnear'
    · have hexact : ∀ k, k ≤ e → ((roundAt rm neg m e k).1 : ℝ) * (2 : ℝ) ^ k = m * (2 : ℝ) ^ e := fun k hk => by
        unfold roundAt
        rw [if_pos hk, two_zpow_of_le hk]
        push_cast
        ring
      rw [max_eq_right h, hexact q hqe] at hnear'
      rwa [hexact _ (h.trans hqe)]
  · rw [roundCode_eq] at hsome ⊢
    split at hsome
    · cases hsome
    next hbig =>
    rw [if_neg hbig]
    dsimp only [Fmt.tinyAt]
    have hlow := hge rfl
    generalize (roundAt rm neg m e ((m.log2 : Int) + e - f.mb)).1 = n at hle hlow
    generalize (m.log2 : Int) + e = l
    have hunits : ∀ k : Int, (2 : ℝ) ^ k = (2 : ℝ) ^ (k - (l - f.mb)) * (2 : ℝ) ^ (l - f.mb) := fun k => by
      rw [← zpow_add₀ (by norm_num), Int.sub_add_cancel]
    rw [hunits (1 - f.bias), mul_lt_mul_iff_left₀ (two_zpow_pos _)]
    have hmb : (2 : ℝ) ^ (f.mb : Int) = (2 ^ f.mb : Nat) := by rw [zpow_natCast]; push_cast; rfl
    have hmb' : (2 : ℝ) ^ ((f.mb : Int) + 1) = (2 ^ (f.mb + 1) : Nat) := by
      rw [show (f.mb : Int) + 1 = ((f.mb + 1 : Nat) : Int) by push_cast; rfl, zpow_natCast]
      push_cast
      rfl
    split
    · next h =>
      refine iff_of_false Bool.false_ne_true (not_lt.2 ?_)
      calc (2 : ℝ) ^ (1 - (f.bias : Int) - (l - f.mb)) ≤ (2 : ℝ) ^ (f.mb : Int) := two_zpow_le (by omega)
        _ ≤ n := by rw [hmb]; exact_mod_cast hlow
    split
    · next h =>
      refine iff_of_true rfl ?_
      calc (n : ℝ) ≤ (2 : ℝ) ^ ((f.mb : Int) + 1) := by rw [hmb']; exact_mod_cast hle
        _ < (2 : ℝ) ^ (1 - (f.bias : Int) - (l - f.mb)) := two_zpow_lt (by omega)
    · rw [decide_eq_true_eq, show 1 - (f.bias : Int) - (l - f.mb) = (f.mb : Int) + 1 by omega, hmb', Nat.cast_lt]

/-- A number rounded into a format: w of what magnitude the mode makes of A, t without a least exponent (R83, R84). -/
structure Fmt.RoundedTo (f : Fmt) (rm : Rm) (neg : Bool) (A w t : ℝ) (z : Nat) (fl : Flags) : Prop where
  code : w ≤ f.magOf f.maxc → ∃ c, c ≤ f.maxc ∧ z = signed f neg c ∧ f.magOf c = w
  exact : w ≤ f.magOf f.maxc → w = A → fl = 0
  tiny : w ≤ f.magOf f.maxc → w ≠ A → t < (2 : ℝ) ^ (1 - (f.bias : Int)) → fl = fNX ||| fUF
  normal : w ≤ f.magOf f.maxc → w ≠ A → (2 : ℝ) ^ (1 - (f.bias : Int)) ≤ t → fl = fNX
  overflow : f.magOf f.maxc < w → z = signed f neg (overflowCode f rm neg) ∧ fl = fOF ||| fNX

theorem Fmt.Sound.roundTo_spec (hf : f.Sound) (rm : Rm) (neg : Bool) (m : Nat) (e : Int) (hm : m ≠ 0) : ∃ w t : ℝ, 0 ≤ w ∧ 0 ≤ t
    ∧ nearestReal rm (f.gridReal f.lo) (f.evenReal f.lo) (signOf neg * (m * (2 : ℝ) ^ e)) (signOf neg * w)
    ∧ nearestReal rm (fun v => ∃ lo, f.gridReal lo v) (fun v => ∃ lo, f.evenReal lo v) (signOf neg * (m * (2 : ℝ) ^ e)) (signOf neg * t)
    ∧ (∀ q, q ≤ e → nearestReal rm (f.gridReal q) (f.evenReal q) (signOf neg * (m * (2 : ℝ) ^ e)) (signOf neg * t))
    ∧ f.RoundedTo rm neg (m * (2 : ℝ) ^ e) w t (roundTo f rm (.num neg m e)).1 (roundTo f rm (.num neg m e)).2 := by
  obtain ⟨hl, hl'⟩ := binade m e hm
  obtain ⟨w, hw0, hw, hsome, hnone⟩ := hf.roundCode_spec rm neg m e hl hl' (SameBeside.rfl _ _)
  obtain ⟨t, ht0, ht, htq, htiny⟩ := hf.tiny_spec rm neg m e hm
  refine ⟨w, t, hw0, ht0, hw, ht, htq, ?_⟩
  rcases hrc : roundCode f rm neg m e with ⟨rc, ex, tiny⟩
  rw [hrc] at hsome hnone htiny
  simp only [roundTo, if_neg hm, hrc]
  cases rc with
  | none =>
    have hover := hnone rfl
    exact ⟨fun h => absurd hover (not_lt.2 h), fun h => absurd hover (not_lt.2 h), fun h => absurd hover (not_lt.2 h),
      fun h => absurd hover (not_lt.2 h), fun _ => ⟨rfl, rfl⟩⟩
  | some c =>
    obtain ⟨hc, hex⟩ := hsome c rfl
    have hcmp : f.maxc < c ↔ f.magOf f.maxc < w := by rw [← hc, f.magOf_strictMono.lt_iff_lt]
    have htiny' := htiny rfl
    dsimp only at hex htiny' ⊢
    by_cases hov : f.magOf f.maxc < w
    · rw [if_pos (hcmp.2 hov)]
      exact ⟨fun h => absurd hov (not_lt.2 h), fun h => absurd hov (not_lt.2 h), fun h => absurd hov (not_lt.2 h),
        fun h => absurd hov (not_lt.2 h), fun _ => ⟨rfl, rfl⟩⟩
    · rw [if_neg (hcmp.not.2 hov)]
      refine ⟨fun _ => ⟨c, not_lt.1 (hcmp.not.2 hov), rfl, hc⟩, fun _ h => ?_, fun _ h ht => ?_, fun _ h ht => ?_, fun h => absurd h hov⟩
      · simp [hex.2 h, flagIf]
      · rw [Bool.eq_false_of_not_eq_true (hex.not.2 h), htiny'.2 ht]
        simp [flagIf]
      · rw [Bool.eq_false_of_not_eq_true (hex.not.2 h), Bool.eq_false_of_not_eq_true (htiny'.not.2 (not_lt.2 ht))]
        simp [flagIf]

end

end Sys2Proof.Machine
end

section
/-!
SUPPORT. Rounding of exact integers in a unit 2^q, as the claims state it (R81, R83, R84, R86), from rounding of real numbers.
-/
namespace Sys2Proof.Machine

/-! ## Integers in a unit -/

/-- The real number that an integer is in the unit 2^q. -/
noncomputable def inUnit (q x : Int) : ℝ := (x : ℝ) * (2 : ℝ) ^ q

theorem inUnit_sub (q x y : Int) : inUnit q (x - y) = inUnit q x - inUnit q y := by
  simp [inUnit, sub_mul]

theorem inUnit_le (q x y : Int) : inUnit q x ≤ inUnit q y ↔ x ≤ y := by
  rw [inUnit, inUnit, mul_le_mul_iff_left₀ (two_zpow_pos q), Int.cast_le]

theorem inUnit_lt (q x y : Int) : inUnit q x < inUnit q y ↔ x < y := by
  rw [inUnit, inUnit, mul_lt_mul_iff_left₀ (two_zpow_pos q), Int.cast_lt]

theorem inUnit_inj (q x y : Int) : inUnit q x = inUnit q y ↔ x = y := by
  rw [inUnit, inUnit, mul_left_inj' (two_zpow_ne_zero q), Int.cast_inj]

theorem inUnit_zero (q : Int) : inUnit q 0 = 0 := by simp [inUnit]

theorem abs_inUnit (q x : Int) : |inUnit q x| = (x.natAbs : ℝ) * (2 : ℝ) ^ q := by
  rw [inUnit, abs_mul, abs_of_pos (two_zpow_pos q), Nat.cast_natAbs, Int.cast_abs]

theorem abs_inUnit_le (q x y : Int) : |inUnit q x| ≤ |inUnit q y| ↔ x.natAbs ≤ y.natAbs := by
  rw [abs_inUnit, abs_inUnit, mul_le_mul_iff_left₀ (two_zpow_pos q), Nat.cast_le]

theorem abs_inUnit_inj (q x y : Int) : |inUnit q x| = |inUnit q y| ↔ x.natAbs = y.natAbs := by
  rw [abs_inUnit, abs_inUnit, mul_left_inj' (two_zpow_ne_zero q), Nat.cast_inj]

theorem inUnit_mul_nonneg (q x y : Int) : 0 ≤ inUnit q x * inUnit q y ↔ 0 ≤ x * y := by
  have hq := two_zpow_pos q
  rw [show inUnit q x * inUnit q y = ((x * y : Int) : ℝ) * ((2 : ℝ) ^ q * (2 : ℝ) ^ q) by rw [inUnit, inUnit]; push_cast; ring,
    mul_nonneg_iff_of_pos_right (mul_pos hq hq), Int.cast_nonneg_iff]

/-- Changing to a lower unit. -/
theorem inUnit_lower {q u : Int} (h : q ≤ u) (k : Int) : inUnit u k = inUnit q (k * 2 ^ (u - q).toNat) := by
  rw [inUnit, inUnit, two_zpow_of_le h]
  push_cast
  ring

theorem FVal.isAt_num (s : Bool) (m : Nat) (e q y : Int) :
    (FVal.num s m e).isAt q y ↔ q ≤ e ∧ inUnit q y = signOf s * (m * (2 : ℝ) ^ e) := by
  have hval : ∀ h : q ≤ e, inUnit q ((if s then -1 else 1) * ((m : Int) * 2 ^ (e - q).toNat)) = signOf s * (m * (2 : ℝ) ^ e) := fun h => by
    rw [two_zpow_of_le h, inUnit]
    cases s <;> simp <;> ring
  constructor
  · rintro ⟨s', m', e', h, hq, rfl⟩
    cases h
    exact ⟨hq, hval hq⟩
  · rintro ⟨hq, hy⟩
    exact ⟨s, m, e, rfl, hq, (inUnit_inj q _ _).1 (hy.trans (hval hq).symm)⟩

/-- The value in a unit is the real number. -/
theorem FVal.realIs_of_isAt {v : FVal} {q y : Int} (h : v.isAt q y) : v.realIs (inUnit q y) := by
  obtain ⟨s, m, e, rfl, hq, rfl⟩ := h
  rw [((FVal.isAt_num s m e q _).1 ⟨s, m, e, rfl, hq, rfl⟩).2, ← mul_assoc]
  exact FVal.realIs_num_self s m e

/-! ## The nearest integer multiple -/

theorem Fmt.gridReal_of_grid {f : Fmt} {lo q y : Int} (h : f.grid lo q y) : f.gridReal lo (inUnit q y) := by
  obtain ⟨k, u, hlo, hq, hk, rfl⟩ := h
  exact ⟨k, u, hlo, hk, (inUnit_lower hq k).symm⟩

/-- A number of the grid is a multiple of a unit at or below its own. -/
theorem Fmt.grid_of_gridReal {f : Fmt} {lo q : Int} {w : ℝ} (hq : q ≤ lo) (h : f.gridReal lo w) : ∃ y, f.grid lo q y ∧ inUnit q y = w := by
  obtain ⟨k, u, hlo, hk, rfl⟩ := h
  exact ⟨_, ⟨k, u, hlo, hq.trans hlo, hk, rfl⟩, (inUnit_lower (hq.trans hlo) k).symm⟩

theorem Fmt.even_of_evenReal {f : Fmt} {lo q y : Int} (hq : q ≤ lo) (h : f.evenReal lo (inUnit q y)) : f.even lo q y := by
  obtain ⟨k, u, hlo, hk, hy⟩ := h
  refine ⟨k, u, hlo, hq.trans hlo, hk, (inUnit_inj q _ _).1 ?_⟩
  rw [hy, ← inUnit_lower (hq.trans hlo), inUnit]
  push_cast
  rfl

theorem Fmt.nearest_of_real {f : Fmt} {rm : Rm} {lo q x y : Int} (hq : q ≤ lo)
    (h : nearestReal rm (f.gridReal lo) (f.evenReal lo) (inUnit q x) (inUnit q y)) : f.nearest rm lo q x y := by
  obtain ⟨hy, hbest⟩ := h
  obtain ⟨y', hgrid, hval⟩ := Fmt.grid_of_gridReal hq hy
  obtain rfl := (inUnit_inj q _ _).1 hval
  refine ⟨hgrid, fun w hw => ?_⟩
  have hcmp := hbest _ (Fmt.gridReal_of_grid hw)
  cases rm with
  | rne =>
    simp only [← inUnit_sub, abs_inUnit_le, abs_inUnit_inj, ne_eq, inUnit_inj] at hcmp
    exact ⟨hcmp.1, fun heq hne => Fmt.even_of_evenReal hq (hcmp.2 heq hne)⟩
  | rtz => simpa only [inUnit_mul_nonneg, abs_inUnit_le] using hcmp
  | rup | rdn => simpa only [inUnit_le] using hcmp

/-! ## Values rounded into a format -/

theorem FVal.isAt_of_magOf {f : Fmt} {neg : Bool} {c : Nat} {q y : Int} {w : ℝ} (hq : q ≤ f.lo) (hc : f.magOf c = w)
    (hy : inUnit q y = signOf neg * w) : (FVal.num neg (f.sig c) (f.exp c)).isAt q y :=
  (FVal.isAt_num _ _ _ _ _).2 ⟨hq.trans (f.lo_le_exp c), by rw [hy, ← hc, Fmt.magOf]⟩

theorem overflowCode_eq (f : Fmt) (rm : Rm) (neg : Bool) (x : Int) (hneg : neg = decide (x < 0)) (hx : x ≠ 0) :
    signed f neg (overflowCode f rm neg)
      = (if f.inf && (rm == .rne || (rm == .rup && decide (0 < x)) || (rm == .rdn && decide (x < 0))) then f.maxc + 1 else f.maxc)
        + (if x < 0 then 2 ^ f.mag else 0) := by
  have hsign : neg.toNat * 2 ^ f.mag = if x < 0 then 2 ^ f.mag else 0 := by
    rw [hneg]
    by_cases h : x < 0 <;> simp [h]
  rw [signed, hsign]
  congr 1
  have hpos : decide (0 < x) = !neg := by
    rw [hneg, ← decide_not]
    exact decide_eq_decide.2 (by omega)
  rw [hpos, ← hneg]
  unfold overflowCode
  cases f.inf
  · rfl
  · cases rm <;> cases neg <;> rfl

/-- Rounding a number into a format, against the number in a unit at or below its own and the format's. -/
theorem Fmt.Sound.rounds_roundTo {f : Fmt} (hf : f.Sound) (rm : Rm) (neg : Bool) (m : Nat) (e q x : Int) (hm : m ≠ 0) (hqe : q ≤ e)
    (hq : q ≤ f.lo) (hx : inUnit q x = signOf neg * (m * (2 : ℝ) ^ e)) :
    f.rounds rm q x (roundTo f rm (.num neg m e)).1 (roundTo f rm (.num neg m e)).2 := by
  obtain ⟨w, t, hw0, ht0, hw, -, ht, hr⟩ := hf.roundTo_spec rm neg m e hm
  have ht := ht q hqe
  rw [← hx] at hw ht
  have hA : 0 < (m : ℝ) * (2 : ℝ) ^ e := mul_pos (by exact_mod_cast Nat.pos_of_ne_zero hm) (two_zpow_pos e)
  obtain ⟨y, -, hy⟩ := Fmt.grid_of_gridReal hq hw.1
  obtain ⟨t', -, ht'⟩ := Fmt.grid_of_gridReal le_rfl ht.1
  obtain ⟨top, htop⟩ : ∃ top, inUnit q top = f.magOf f.maxc :=
    ⟨_, (((inUnit_lower (hq.trans (f.lo_le_exp f.maxc)) (f.sig f.maxc)).symm.trans rfl))⟩
  have hsgn : neg = decide (x < 0) := by
    have hlt : x < 0 ↔ inUnit q x < 0 := by rw [← inUnit_zero q, inUnit_lt]
    rw [eq_comm, ← Bool.coe_iff_coe, decide_eq_true_eq, hlt, hx]
    cases neg
    · simpa using hA.le
    · simpa using hA
  have hx0 : x ≠ 0 := fun h => by
    rw [h, inUnit_zero, eq_comm, mul_eq_zero] at hx
    exact hx.elim (by cases neg <;> simp) hA.ne'
  have hyw : |inUnit q y| = w := by rw [hy, abs_signOf_mul, abs_of_nonneg hw0]
  have htt : |inUnit q t'| = t := by rw [ht', abs_signOf_mul, abs_of_nonneg ht0]
  have hyx : y = x ↔ w = m * (2 : ℝ) ^ e := by
    rw [← inUnit_inj q, hy, hx, mul_right_inj' (by cases neg <;> simp)]
  have hle : y.natAbs ≤ top.natAbs ↔ w ≤ f.magOf f.maxc := by
    rw [← abs_inUnit_le q, hyw, htop, abs_of_nonneg (f.magOf_nonneg _)]
  have hsmall : t'.natAbs < 2 ^ (1 - (f.bias : Int) - q).toNat ↔ t < (2 : ℝ) ^ (1 - (f.bias : Int)) := by
    have hqb : q ≤ 1 - (f.bias : Int) := by
      have : f.lo = 1 - f.bias - f.mb := rfl
      omega
    rw [← htt, abs_inUnit, two_zpow_of_le hqb, mul_lt_mul_iff_left₀ (two_zpow_pos q)]
    exact_mod_cast Iff.rfl
  refine ⟨y, t', top, Fmt.nearest_of_real hq (by rwa [hy]), Fmt.nearest_of_real le_rfl (by rwa [ht']), ?_, ?_⟩
  · have := hf.unpack_signed false f.maxc le_rfl
    rw [signed, Bool.toNat_false, Nat.zero_mul, Nat.add_zero] at this
    rw [this]
    exact FVal.isAt_of_magOf hq rfl (by rw [htop, signOf_false, one_mul])
  · by_cases hin : w ≤ f.magOf f.maxc
    · rw [if_pos (hle.2 hin)]
      obtain ⟨c, hc, hz, hcw⟩ := hr.code hin
      rw [hz, hf.unpack_signed neg c hc]
      refine ⟨signed_lt f neg c (hc.trans_lt hf.maxc), FVal.isAt_of_magOf hq hcw hy, hsgn, ?_⟩
      simp only [ne_eq, hyx, hsmall]
      by_cases hwA : w = m * (2 : ℝ) ^ e
      · simp [hr.exact hin hwA, hwA, flagIf]
      · by_cases htl : t < (2 : ℝ) ^ (1 - (f.bias : Int))
        · simp [hr.tiny hin hwA htl, hwA, htl, flagIf]
        · simp [hr.normal hin hwA (not_lt.1 htl), hwA, htl, flagIf]
    · rw [if_neg (hle.not.2 hin)]
      obtain ⟨hz, hfl⟩ := hr.overflow (not_le.1 hin)
      exact ⟨hz.trans (overflowCode_eq f rm neg x hsgn hx0), hfl⟩

/-- A zero is kept, with its sign. -/
theorem roundTo_zero (f : Fmt) (rm : Rm) (neg : Bool) (e : Int) : roundTo f rm (.num neg 0 e) = (signed f neg 0, 0) := by
  simp [roundTo]

theorem Fmt.Sound.unpack_signed_zero {f : Fmt} (hf : f.Sound) (neg : Bool) : unpack f (signed f neg 0) = .num neg 0 f.lo := by
  rw [hf.unpack_signed neg 0 (Nat.zero_le _)]
  simp [Fmt.sig, Fmt.exp]

end Sys2Proof.Machine
end

section
/-!
PROOFS. The operations of atomics and counters, and the float operations against exact results (R81, R83, R84, R86, R91, R165 to R167, R304, R330).
-/
namespace Sys2Proof.Machine

/-! ## Exact sums and products -/

/-- One step of the search for the least exponent of the terms that are not zero, and of their sum in a unit. -/
def minExpStep (a : Int) : FVal → Int
  | .num _ m e => if m = 0 then a else min a e
  | _ => a
def addStep (q a : Int) : FVal → Int
  | .num s m e => if m = 0 then a else a + scaleTo s m e q
  | _ => a

theorem scaleTo_inUnit (s : Bool) (m : Nat) (e q : Int) (h : q ≤ e) : inUnit q (scaleTo s m e q) = signOf s * (m * (2 : ℝ) ^ e) := by
  rw [two_zpow_of_le h, inUnit, scaleTo]
  cases s <;> simp <;> ring

/-- The values of a list of terms in a unit. -/
def AllAt (q : Int) (xs : List FVal) (ys : List Int) : Prop := List.Forall₂ (fun v y => v.isAt q y) xs ys

theorem minExp_le (xs : List FVal) (a : Int) : xs.foldl minExpStep a ≤ a
    ∧ ∀ s m e, FVal.num s m e ∈ xs → m ≠ 0 → xs.foldl minExpStep a ≤ e := by
  induction xs generalizing a with
  | nil => simp
  | cons x xs ih =>
    obtain ⟨hle, hall⟩ := ih (minExpStep a x)
    have hstep : minExpStep a x ≤ a := by
      unfold minExpStep
      split
      · split
        · exact le_rfl
        · exact min_le_left _ _
      · exact le_rfl
    refine ⟨hle.trans hstep, fun s m e hmem hm => ?_⟩
    rcases List.mem_cons.1 hmem with rfl | hmem
    · refine hle.trans ?_
      rw [minExpStep, if_neg hm]
      exact min_le_right _ _
    · exact hall s m e hmem hm

theorem le_minExp (xs : List FVal) (a q : Int) (ha : q ≤ a) (h : ∀ s m e, FVal.num s m e ∈ xs → q ≤ e) : q ≤ xs.foldl minExpStep a := by
  induction xs generalizing a with
  | nil => exact ha
  | cons x xs ih =>
    refine ih _ ?_ fun s m e hmem => h s m e (List.mem_cons_of_mem _ hmem)
    cases x with
    | num s m e =>
      rw [minExpStep]
      split
      · exact ha
      · exact le_min ha (h s m e List.mem_cons_self)
    | nan _ => exact ha
    | inf _ => exact ha

theorem addStep_sum {q Q : Int} {xs : List FVal} {ys : List Int} (h : AllAt q xs ys)
    (hQ : ∀ s m e, FVal.num s m e ∈ xs → m ≠ 0 → Q ≤ e) (a : Int) : inUnit Q (xs.foldl (addStep Q) a) = inUnit Q a + inUnit q ys.sum := by
  induction h generalizing a with
  | nil => simp [inUnit_zero]
  | @cons x y xs ys hx _ ih =>
    obtain ⟨s, m, e, rfl, hq, hy⟩ := hx
    have hval := ((FVal.isAt_num s m e q y).1 ⟨s, m, e, rfl, hq, hy⟩).2
    rw [List.foldl_cons, ih (fun s m e hmem => hQ s m e (List.mem_cons_of_mem _ hmem)), List.sum_cons,
      show inUnit q (y + ys.sum) = inUnit q y + inUnit q ys.sum by simp [inUnit, add_mul], hval, ← add_assoc]
    congr 1
    rw [addStep]
    split
    · next h0 => simp [h0]
    · next h0 =>
      rw [← scaleTo_inUnit s m e Q (hQ s m e List.mem_cons_self h0)]
      simp [inUnit, add_mul]

/-- Are all terms zeros of one sign? -/
def allZero (neg : Bool) (xs : List FVal) : Bool := xs.all (fun x => x.isZero && x.neg == neg)

/-- A sum without NaN and infinity. -/
theorem sumVal_of_finite (rm : Rm) (xs : List FVal) (h : ∀ v ∈ xs, ∃ s m e, v = .num s m e) : sumVal rm xs =
    if allZero true xs then (.num true 0 0, false) else if allZero false xs then (.num false 0 0, false)
    else if xs.foldl (addStep (xs.foldl minExpStep 4096)) 0 = 0 then (.num (rm == .rdn) 0 0, false)
    else (.num (decide (xs.foldl (addStep (xs.foldl minExpStep 4096)) 0 < 0)) (xs.foldl (addStep (xs.foldl minExpStep 4096)) 0).natAbs
      (xs.foldl minExpStep 4096), false) := by
  have hnan : xs.any FVal.isNaN = false := by
    rw [List.any_eq_false]
    intro v hv
    obtain ⟨s, m, e, rfl⟩ := h v hv
    simp [FVal.isNaN]
  have hinf : ∀ n, xs.any (· == .inf n) = false := fun n => by
    rw [List.any_eq_false]
    intro v hv
    obtain ⟨s, m, e, rfl⟩ := h v hv
    simp
  have hz : ∀ n, allZero n xs = xs.all (fun x => x.isZero && (if n then x.neg else !x.neg)) := fun n => by
    unfold allZero
    cases n <;> simp
  unfold sumVal
  rw [hnan, hinf true, hinf false, hz true, hz false]
  rfl

theorem AllAt.finite {q : Int} {xs : List FVal} {ys : List Int} (h : AllAt q xs ys) : ∀ v ∈ xs, ∃ s m e, v = .num s m e ∧ q ≤ e := by
  induction h with
  | nil => simp
  | cons hx _ ih =>
    intro v hv
    rcases List.mem_cons.1 hv with rfl | hv
    · obtain ⟨s, m, e, rfl, hq, -⟩ := hx
      exact ⟨s, m, e, rfl, hq⟩
    · exact ih v hv

theorem AllAt.sum_of_allZero {q : Int} {xs : List FVal} {ys : List Int} (h : AllAt q xs ys) {n : Bool} (hz : allZero n xs = true) :
    ys.sum = 0 := by
  induction h with
  | nil => rfl
  | cons hx _ ih =>
    simp only [allZero, List.all_cons, Bool.and_eq_true] at hz ih
    obtain ⟨s, m, e, rfl, hq, rfl⟩ := hx
    obtain rfl : m = 0 := by simpa [FVal.isZero] using hz.1.1
    rw [List.sum_cons, ih (by simpa using hz.2)]
    simp

/-- The exact sum of finite terms; the sign of a zero sum (R330). -/
theorem sumVal_spec (rm : Rm) {q : Int} {xs : List FVal} {ys : List Int} (h : AllAt q xs ys) (hq : q ≤ 0) :
    ∃ n m e, sumVal rm xs = (.num n m e, false) ∧ (FVal.num n m e).isAt q ys.sum
      ∧ (ys.sum = 0 → m = 0 ∧ n = if allZero true xs then true else if allZero false xs then false else rm == .rdn) := by
  have hfin := h.finite
  rw [sumVal_of_finite rm xs fun v hv => (hfin v hv).imp fun s => Exists.imp fun m => Exists.imp fun e => And.left]
  have hzero : ∀ n : Bool, (FVal.num n 0 0).isAt q 0 := fun n => ⟨n, 0, 0, rfl, hq, by simp⟩
  by_cases ht : allZero true xs = true
  · rw [if_pos ht, h.sum_of_allZero ht]
    exact ⟨_, _, _, rfl, hzero _, fun _ => by simp [ht]⟩
  rw [if_neg ht]
  by_cases hf : allZero false xs = true
  · rw [if_pos hf, h.sum_of_allZero hf]
    exact ⟨_, _, _, rfl, hzero _, fun _ => by simp [ht, hf]⟩
  rw [if_neg hf]
  obtain ⟨hQle, hQ⟩ := minExp_le xs 4096
  have hqQ : q ≤ xs.foldl minExpStep 4096 := le_minExp xs 4096 q (by omega) fun s m e hmem => by
    obtain ⟨s', m', e', heq, hle⟩ := hfin _ hmem
    cases heq
    exact hle
  have hsum := addStep_sum h hQ 0
  rw [inUnit_zero, zero_add] at hsum
  generalize xs.foldl minExpStep 4096 = Q at hqQ hsum ⊢
  generalize xs.foldl (addStep Q) 0 = S at hsum ⊢
  have hS0 : S = 0 ↔ ys.sum = 0 := by rw [← inUnit_inj Q, hsum, inUnit_zero, ← inUnit_zero q, inUnit_inj]
  by_cases hS : S = 0
  · rw [if_pos hS, hS0.1 hS]
    exact ⟨_, _, _, rfl, hzero _, fun _ => by simp [ht, hf]⟩
  · rw [if_neg hS]
    refine ⟨_, _, _, rfl, (FVal.isAt_num _ _ _ _ _).2 ⟨hqQ, ?_⟩, fun h0 => absurd (hS0.2 h0) hS⟩
    rw [← hsum, inUnit, ← mul_assoc]
    congr 1
    rcases lt_or_ge S 0 with hneg | hpos
    · simp [hneg, Nat.cast_natAbs, abs_of_neg hneg]
    · simp [not_lt.2 hpos, Nat.cast_natAbs, abs_of_nonneg hpos]

theorem mulVal_isAt {a b : FVal} {q r x y : Int} (ha : a.isAt q x) (hb : b.isAt r y) :
    ∃ m e, mulVal a b = (.num (a.neg != b.neg) m e, false) ∧ (FVal.num (a.neg != b.neg) m e).isAt (q + r) (x * y) := by
  obtain ⟨s, m, e, rfl, hq, hx⟩ := ha
  obtain ⟨t, n, k, rfl, hr, hy⟩ := hb
  have hx' := ((FVal.isAt_num s m e q x).1 ⟨s, m, e, rfl, hq, hx⟩).2
  have hy' := ((FVal.isAt_num t n k r y).1 ⟨t, n, k, rfl, hr, hy⟩).2
  refine ⟨_, _, rfl, (FVal.isAt_num _ _ _ _ _).2 ⟨by omega, ?_⟩⟩
  have hprod : inUnit (q + r) (x * y) = inUnit q x * inUnit r y := by
    rw [inUnit, inUnit, inUnit, zpow_add₀ (by norm_num)]
    push_cast
    ring
  rw [hprod, hx', hy', show (FVal.num s m e).neg = s from rfl, show (FVal.num t n k).neg = t from rfl, signOf_bne,
    zpow_add₀ (by norm_num)]
  push_cast
  ring

/-! ## The end of an operation: its exact result rounded once -/

/-- Finite operands raise no flag of their own. -/
theorem finish_finite (f : Fmt) (rm : Rm) (xs : List FVal) (h : ∀ v ∈ xs, ∃ s m e, v = .num s m e) (v : FVal) :
    finish f rm xs (v, false) = roundTo f rm v := by
  have hsig : nvSig xs = 0 := by
    have : xs.any FVal.isSig = false := by
      rw [List.any_eq_false]
      intro v hv
      obtain ⟨s, m, e, rfl⟩ := h v hv
      simp [FVal.isSig]
    rw [nvSig, this]
    rfl
  rw [finish, hsig]
  simp [flagIf]

theorem Fmt.Sound.rounds_of_isAt {f : Fmt} (hf : f.Sound) (rm : Rm) {n : Bool} {m : Nat} {e q x : Int} (hq : q ≤ f.lo)
    (h : (FVal.num n m e).isAt q x) (hx : x ≠ 0) : f.rounds rm q x (roundTo f rm (.num n m e)).1 (roundTo f rm (.num n m e)).2 := by
  obtain ⟨hqe, hval⟩ := (FVal.isAt_num n m e q x).1 h
  refine hf.rounds_roundTo rm n m e q x (fun hm => hx ?_) hqe hq hval
  rw [← inUnit_inj q, hval, hm, inUnit_zero]
  simp

theorem Fmt.Sound.isAt_signed_zero {f : Fmt} (hf : f.Sound) {q : Int} (hq : q ≤ f.lo) (n : Bool) : (unpack f (signed f n 0)).isAt q 0 := by
  rw [hf.unpack_signed_zero]
  exact ⟨n, 0, f.lo, rfl, hq, by simp⟩

/-- An exact result, rounded or zero. -/
theorem Fmt.Sound.finish_spec {f : Fmt} (hf : f.Sound) (rm : Rm) (xs : List FVal) (hxs : ∀ v ∈ xs, ∃ s m e, v = .num s m e) {n : Bool} {m : Nat}
    {e q x : Int} (hq : q ≤ f.lo) (h : (FVal.num n m e).isAt q x) (hm : x = 0 → m = 0) :
    (x ≠ 0 → f.rounds rm q x (finish f rm xs (.num n m e, false)).1 (finish f rm xs (.num n m e, false)).2)
    ∧ (∀ a b r, r ≤ f.lo → x = 0 → n = (if a = b then a else rm == .rdn) →
      f.zeroSum rm a b r (finish f rm xs (.num n m e, false)).1 (finish f rm xs (.num n m e, false)).2) := by
  rw [finish_finite f rm xs hxs]
  refine ⟨hf.rounds_of_isAt rm hq h, fun a b r hr hx hn => ?_⟩
  rw [hm hx, roundTo_zero]
  refine ⟨hf.isAt_signed_zero hr n, ?_, rfl⟩
  rw [hf.unpack_signed_zero]
  exact hn

theorem FVal.exists_num_of_isAt {v : FVal} {q x : Int} (h : v.isAt q x) : ∃ s m e, v = .num s m e := by
  obtain ⟨s, m, e, rfl, -⟩ := h
  exact ⟨s, m, e, rfl⟩

/-- The sign of a finite value, and when it is a zero. -/
theorem FVal.sign_of_isAt {v : FVal} {q x : Int} (h : v.isAt q x) : (v.neg = true → x ≤ 0) ∧ (v.neg = false → 0 ≤ x) ∧ (x = 0 → v.isZero = true) := by
  obtain ⟨s, m, e, rfl, hq, rfl⟩ := h
  refine ⟨fun hs => ?_, fun hs => ?_, fun h0 => ?_⟩
  · obtain rfl : s = true := hs
    simp only [if_true, neg_one_mul, Left.neg_nonpos_iff]
    positivity
  · obtain rfl : s = false := hs
    simp only [Bool.false_eq_true, if_false, one_mul]
    positivity
  · have hpow : (2 : Int) ^ (e - q).toNat ≠ 0 := by positivity
    have hm : m = 0 := by cases s <;> simpa using h0
    simp [FVal.isZero, hm]

/-- The sign of a zero sum of two terms (R330). -/
theorem zeroSign_pair (rm : Rm) {a b : FVal} {q x y : Int} (ha : a.isAt q x) (hb : b.isAt q y) (h : x + y = 0) :
    (if allZero true [a, b] then true else if allZero false [a, b] then false else rm == .rdn) = (if a.neg = b.neg then a.neg else rm == .rdn) := by
  obtain ⟨ha1, ha2, ha3⟩ := FVal.sign_of_isAt ha
  obtain ⟨hb1, hb2, hb3⟩ := FVal.sign_of_isAt hb
  cases hna : a.neg <;> cases hnb : b.neg
  · have hx := ha2 hna
    have hy := hb2 hnb
    simp [allZero, hna, hnb, ha3 (by omega), hb3 (by omega)]
  · simp [allZero, hna, hnb]
  · simp [allZero, hna, hnb]
  · have hx := ha1 hna
    have hy := hb1 hnb
    simp [allZero, hna, hnb, ha3 (by omega), hb3 (by omega)]

section
variable {f : Fmt} {a b c : Nat} {q x y : Int}

theorem finite_list_of_isAt {xs : List FVal} (h : ∀ v ∈ xs, ∃ q x, v.isAt q x) : ∀ v ∈ xs, ∃ s m e, v = FVal.num s m e := fun v hv => by
  obtain ⟨q, x, hx⟩ := h v hv
  exact FVal.exists_num_of_isAt hx

theorem Fmt.Sound.fAdd_spec (hf : f.Sound) (rm : Rm) (hq : q ≤ f.lo) (ha : (unpack f a).isAt q x) (hb : (unpack f b).isAt q y) :
    (x + y ≠ 0 → f.rounds rm q (x + y) (fAdd f rm a b).1 (fAdd f rm a b).2)
    ∧ (x + y = 0 → f.zeroSum rm (unpack f a).neg (unpack f b).neg q (fAdd f rm a b).1 (fAdd f rm a b).2) := by
  have hlo := hf.lo
  have hall : AllAt q [unpack f a, unpack f b] [x, y] := .cons ha (.cons hb .nil)
  obtain ⟨n, m, e, hsum, hat, hzero⟩ := sumVal_spec rm hall (by omega)
  rw [show [x, y].sum = x + y by simp] at hat hzero
  obtain ⟨hr, hz⟩ := hf.finish_spec rm [unpack f a, unpack f b] (finite_list_of_isAt (by simp; exact ⟨⟨q, x, ha⟩, q, y, hb⟩)) hq hat
    fun h => (hzero h).1
  rw [fAdd, hsum]
  exact ⟨hr, fun h => hz _ _ q hq h ((hzero h).2.trans (zeroSign_pair rm ha hb h))⟩

theorem Fmt.Sound.fMul_spec (hf : f.Sound) (rm : Rm) (hq : q ≤ f.lo) (ha : (unpack f a).isAt q x) (hb : (unpack f b).isAt q y) :
    (x * y ≠ 0 → f.rounds rm (2 * q) (x * y) (fMul f rm a b).1 (fMul f rm a b).2)
    ∧ (x * y = 0 → f.zeroSum rm ((unpack f a).neg != (unpack f b).neg) ((unpack f a).neg != (unpack f b).neg) q
      (fMul f rm a b).1 (fMul f rm a b).2) := by
  have hlo := hf.lo
  obtain ⟨m, e, hmul, hat⟩ := mulVal_isAt ha hb
  rw [← two_mul] at hat
  have hzero : x * y = 0 → m = 0 := fun h => by simpa [FVal.isZero] using (FVal.sign_of_isAt hat).2.2 h
  obtain ⟨hr, hz⟩ := hf.finish_spec rm [unpack f a, unpack f b] (finite_list_of_isAt (by simp; exact ⟨⟨q, x, ha⟩, q, y, hb⟩))
    (show 2 * q ≤ f.lo by omega) hat hzero
  rw [fMul, hmul]
  exact ⟨hr, fun h => hz _ _ q hq h (by simp)⟩

theorem Fmt.Sound.fFma_spec (hf : f.Sound) (rm : Rm) {z : Int} (hq : q ≤ f.lo) (ha : (unpack f a).isAt q x) (hb : (unpack f b).isAt q y)
    (hc : (unpack f c).isAt (2 * q) z) :
    (x * y + z ≠ 0 → f.rounds rm (2 * q) (x * y + z) (fFma f rm a b c).1 (fFma f rm a b c).2)
    ∧ (x * y + z = 0 → f.zeroSum rm ((unpack f a).neg != (unpack f b).neg) (unpack f c).neg q (fFma f rm a b c).1 (fFma f rm a b c).2) := by
  have hlo := hf.lo
  obtain ⟨mp, ep, hmul, hprod⟩ := mulVal_isAt ha hb
  rw [← two_mul] at hprod
  obtain ⟨n, m, e, hsum, hat, hzero⟩ := sumVal_spec rm (.cons hprod (.cons hc .nil) : AllAt (2 * q) _ [x * y, z]) (by omega)
  rw [show [x * y, z].sum = x * y + z by simp] at hat hzero
  obtain ⟨hr, hz⟩ := hf.finish_spec rm [unpack f a, unpack f b, unpack f c]
    (finite_list_of_isAt (by simp; exact ⟨⟨q, x, ha⟩, ⟨q, y, hb⟩, 2 * q, z, hc⟩)) (show 2 * q ≤ f.lo by omega) hat fun h => (hzero h).1
  rw [show fFma f rm a b c = finish f rm [unpack f a, unpack f b, unpack f c] ((sumVal rm [(mulVal (unpack f a) (unpack f b)).1, unpack f c]).1,
    (mulVal (unpack f a) (unpack f b)).2 || (sumVal rm [(mulVal (unpack f a) (unpack f b)).1, unpack f c]).2) from rfl, hmul, hsum]
  exact ⟨hr, fun h => hz _ _ q hq h ((hzero h).2.trans (zeroSign_pair rm hprod hc h))⟩

/-- Two products and an addend in f32, rounded once (R333). -/
theorem fDot2_spec (rm : Rm) {x0 x1 y0 y1 z : Int} (hq : 2 * q ≤ fmtF32.lo) (ha0 : (unpack f (a % 2 ^ 16)).isAt q x0)
    (ha1 : (unpack f (a / 2 ^ 16 % 2 ^ 16)).isAt q x1) (hb0 : (unpack f (b % 2 ^ 16)).isAt q y0)
    (hb1 : (unpack f (b / 2 ^ 16 % 2 ^ 16)).isAt q y1) (hc : (unpack fmtF32 c).isAt (2 * q) z) (h : x0 * y0 + x1 * y1 + z ≠ 0) :
    fmtF32.rounds rm (2 * q) (x0 * y0 + x1 * y1 + z) (fDot2 f rm a b c).1 (fDot2 f rm a b c).2 := by
  have hf : fmtF32.Sound := Fmt.sound_of_mem (by simp)
  have hlo := hf.lo
  obtain ⟨m0, e0, hmul0, hp0⟩ := mulVal_isAt ha0 hb0
  obtain ⟨m1, e1, hmul1, hp1⟩ := mulVal_isAt ha1 hb1
  rw [← two_mul] at hp0 hp1
  obtain ⟨n, m, e, hsum, hat, hzero⟩ := sumVal_spec rm (.cons hp0 (.cons hp1 (.cons hc .nil)) : AllAt (2 * q) _ [x0 * y0, x1 * y1, z]) (by omega)
  rw [show [x0 * y0, x1 * y1, z].sum = x0 * y0 + x1 * y1 + z by simp [add_assoc]] at hat hzero
  have hbits : ∀ v, bits v 0 16 = v % 2 ^ 16 := fun v => by rw [bits, Nat.pow_zero, Nat.div_one]
  obtain ⟨hr, -⟩ := hf.finish_spec rm [unpack f (a % 2 ^ 16), unpack f (a / 2 ^ 16 % 2 ^ 16), unpack f (b % 2 ^ 16),
    unpack f (b / 2 ^ 16 % 2 ^ 16), unpack fmtF32 c]
    (finite_list_of_isAt (by simp; exact ⟨⟨q, x0, ha0⟩, ⟨q, x1, ha1⟩, ⟨q, y0, hb0⟩, ⟨q, y1, hb1⟩, 2 * q, z, hc⟩)) hq hat fun h => (hzero h).1
  rw [fDot2]
  simp only [hbits, show ∀ v, bits v 16 16 = v / 2 ^ 16 % 2 ^ 16 from fun _ => rfl]
  rw [hmul0, hmul1]
  simp only [hsum, Bool.or_self]
  exact hr h

end

/-! ## A float element of `MMA` -/

/-- The accumulator after a block of 32 products (R91). -/
def mmaStep (a b : Frag) (k i j : Nat) (c blk : Nat) : Nat :=
  (roundTo fmtF32 .rne (sumVal .rne [unpack fmtF32 c, (sumVal .rne (((upTo k).filter (fun x => x / 32 = blk)).map
    (fun x => (mulVal (a.elem i x) (b.elem x j)).1))).1]).1).1

def mmaAcc (a b : Frag) (k i j c blks : Nat) : Nat := (upTo blks).foldl (mmaStep a b k i j) c

theorem mmaAcc_succ (a b : Frag) (k i j c n : Nat) : mmaAcc a b k i j c (n + 1) = mmaStep a b k i j (mmaAcc a b k i j c n) n := by
  simp only [mmaAcc, upTo, List.range_succ, List.foldl_append, List.foldl_cons, List.foldl_nil]

theorem mmaStep_spec (a b : Frag) (k i j c blk : Nat) {q r v : Int} {x y : Nat → Int} (hqr : q + r ≤ fmtF32.lo)
    (hc : (unpack fmtF32 c).isAt (q + r) v) (hel : ∀ l, l < k → l / 32 = blk → (a.elem i l).isAt q (x l) ∧ (b.elem l j).isAt r (y l)) {sum : Int}
    (hsum : sum = v + (((List.range k).filter (fun l => l / 32 = blk)).map (fun l => x l * y l)).sum) :
    (sum ≠ 0 → ∃ fl, fmtF32.rounds .rne (q + r) sum (mmaStep a b k i j c blk) fl)
    ∧ (sum = 0 → (unpack fmtF32 (mmaStep a b k i j c blk)).isAt (q + r) 0) := by
  have hf : fmtF32.Sound := Fmt.sound_of_mem (by simp)
  have hlo := hf.lo
  have hprods : AllAt (q + r) (((upTo k).filter (fun x => x / 32 = blk)).map (fun l => (mulVal (a.elem i l) (b.elem l j)).1))
      (((List.range k).filter (fun l => l / 32 = blk)).map (fun l => x l * y l)) := by
    unfold AllAt upTo
    rw [List.forall₂_map_left_iff, List.forall₂_map_right_iff, List.forall₂_same]
    intro l hl
    obtain ⟨hlk, hblk⟩ := List.mem_filter.1 hl
    obtain ⟨ha, hb⟩ := hel l (List.mem_range.1 hlk) (by simpa using hblk)
    obtain ⟨m, e, hmul, hat⟩ := mulVal_isAt ha hb
    rw [hmul]
    exact hat
  obtain ⟨n1, m1, e1, hsum1, hat1, -⟩ := sumVal_spec .rne hprods (by omega)
  obtain ⟨n, m, e, hsum2, hat, hzero⟩ := sumVal_spec .rne (.cons hc (.cons hat1 .nil) : AllAt (q + r) _ [v, _]) (by omega)
  rw [List.sum_cons, List.sum_cons, List.sum_nil, add_zero, ← hsum] at hat hzero
  rw [mmaStep, hsum1, hsum2]
  refine ⟨fun h => ⟨_, hf.rounds_of_isAt .rne hqr hat h⟩, fun h => ?_⟩
  rw [(hzero h).1, roundTo_zero]
  exact hf.isAt_signed_zero hqr n

/-! ## Integers, sets and counters -/

theorem nearest_roundInt (rm : Rm) (neg : Bool) (m : Nat) (e q x n : Int) : q ≤ e → q ≤ 0 →
    x = (if neg then -1 else 1) * ((m : Int) * 2 ^ (e - q).toNat) → n = (roundInt rm neg m e).1 * 2 ^ (-q).toNat →
    ((roundInt rm neg m e).2 = true ↔ n = x)
    ∧ ∀ w : Int, match rm with
      | .rne => (x - n).natAbs ≤ (x - w * 2 ^ (-q).toNat).natAbs
        ∧ ((x - n).natAbs = (x - w * 2 ^ (-q).toNat).natAbs → w ≠ (roundInt rm neg m e).1 → (roundInt rm neg m e).1 % 2 = 0)
      | .rtz => 0 ≤ x * n ∧ n.natAbs ≤ x.natAbs ∧ (0 ≤ x * w → (w * 2 ^ (-q).toNat).natAbs ≤ x.natAbs → w.natAbs ≤ (roundInt rm neg m e).1.natAbs)
      | .rup => x ≤ n ∧ (x ≤ w * 2 ^ (-q).toNat → n ≤ w * 2 ^ (-q).toNat)
      | .rdn => n ≤ x ∧ (w * 2 ^ (-q).toNat ≤ x → w * 2 ^ (-q).toNat ≤ n) := by
  intro hqe hq hx hn
  have hunit : ∀ w : Int, inUnit q (w * 2 ^ (-q).toNat) = w := fun w => by
    have := inUnit_lower hq w
    rw [zero_sub] at this
    rw [← this]
    simp [inUnit]
  have hxr : inUnit q x = signOf neg * (m * (2 : ℝ) ^ e) := ((FVal.isAt_num neg m e q x).1 ⟨neg, m, e, rfl, hqe, hx⟩).2
  obtain ⟨⟨-, hbest⟩, hex⟩ := nearestReal_roundInt rm neg m e
  generalize hR : roundInt rm neg m e = R at hbest hex hn ⊢
  have hnr : inUnit q n = R.1 := by rw [hn, hunit]
  rw [← hxr, ← hnr] at hbest
  rw [← hxr, ← hnr, inUnit_inj] at hex
  refine ⟨hex, fun w => ?_⟩
  have hcmp := hbest w ⟨w, rfl⟩
  rw [← hunit w] at hcmp
  cases rm with
  | rne =>
    simp only [← inUnit_sub, abs_inUnit_le, abs_inUnit_inj, ne_eq, inUnit_inj] at hcmp
    refine ⟨hcmp.1, fun heq hne => ?_⟩
    have hwn : w * 2 ^ (-q).toNat ≠ n := fun h => hne <| by
      have := congrArg (inUnit q) h
      rw [hunit, hnr] at this
      exact_mod_cast this
    obtain ⟨j, hj⟩ := hcmp.2 heq hwn
    have : R.1 = 2 * j := by
      rw [hnr] at hj
      exact_mod_cast hj
    omega
  | rtz =>
    simp only [inUnit_mul_nonneg, abs_inUnit_le] at hcmp
    obtain ⟨h1, h2, h3⟩ := hcmp
    refine ⟨h1, h2, fun hxw hle => ?_⟩
    have hpow : (0 : Int) < 2 ^ (-q).toNat := by positivity
    have hle' := h3 (by rw [← mul_assoc]; exact mul_nonneg hxw hpow.le) hle
    rw [hn, Int.natAbs_mul, Int.natAbs_mul] at hle'
    exact Nat.le_of_mul_le_mul_right hle' (Int.natAbs_pos.2 hpow.ne')
  | rup | rdn => simpa only [inUnit_le] using hcmp

theorem atomValue_spec (op : AtomOp) (ty : Ty) (rm : Rm) (v x : Nat) : atomRel op ty rm v x (atomValue op ty rm v x) := by
  cases op with
  | add =>
    by_cases hty : ty = .f32
    · simp [atomRel, atomValue, hty]
    · simp only [atomRel, atomValue, if_neg hty]
      refine ⟨Nat.mod_lt _ (Nat.two_pow_pos _), ?_⟩
      rw [Wraps]
      push_cast
      rw [Int.emod_sub_emod, sub_self, Int.zero_emod]
  | min | max =>
    by_cases hty : ty = .f32
    · simp [atomRel, atomValue, hty]
    · simp only [atomRel, atomValue, if_neg hty]
      split
      · exact ⟨.inr rfl, by omega, le_rfl⟩
      · exact ⟨.inl rfl, le_rfl, by omega⟩
  | and => exact fun k => Nat.testBit_and _ _ _
  | or => exact fun k => Nat.testBit_or _ _ _
  | xor => exact fun k => Nat.testBit_xor _ _ _
  | exch => exact rfl

/-- The old values that a set has gathered stand before those of its later lanes. -/
theorem atomFold_append (f : Nat → Nat → Nat) (is : List Nat) (xs : List (Nat × Nat)) (v : Nat) :
    is.foldl (fun (r : List (Nat × Nat) × Nat) i => (r.1 ++ [(i, r.2)], f i r.2)) (xs, v) = (xs ++ (atomSet f v is).1, (atomSet f v is).2) := by
  induction is generalizing xs v with
  | nil => simp [atomSet]
  | cons i is ih =>
    rw [atomSet, List.foldl_cons, List.foldl_cons, ih, ih]
    simp

theorem atomSet_cons (f : Nat → Nat → Nat) (v i : Nat) (is : List Nat) :
    atomSet f v (i :: is) = ((i, v) :: (atomSet f (f i v) is).1, (atomSet f (f i v) is).2) := by
  rw [atomSet, List.foldl_cons, atomFold_append]
  rfl

theorem counterAdd_spec (v x : Nat) : counterAdd v x % 2 ^ 63 = min (v % 2 ^ 63 + x % 2 ^ 63) (2 ^ 63 - 1)
    ∧ (counterAdd v x).testBit 63 = (v.testBit 63 || x.testBit 63) ∧ counterAdd v x < 2 ^ 64 := by
  have hc : counterAdd v x = min (v % 2 ^ 63 + x % 2 ^ 63) (2 ^ 63 - 1) + (v.testBit 63 || x.testBit 63).toNat * 2 ^ 63 := by
    simp [counterAdd, bits, bit]
  have hlt : min (v % 2 ^ 63 + x % 2 ^ 63) (2 ^ 63 - 1) < 2 ^ 63 := by omega
  rw [hc]
  generalize min (v % 2 ^ 63 + x % 2 ^ 63) (2 ^ 63 - 1) = n at hlt
  generalize (v.testBit 63 || x.testBit 63) = t
  refine ⟨by omega, ?_, by cases t <;> simp <;> omega⟩
  rw [Nat.testBit_eq_decide_div_mod_eq, Nat.add_mul_div_right _ _ (Nat.two_pow_pos 63), Nat.div_eq_of_lt hlt]
  cases t <;> rfl

/-- Settles O17: each atomic operation, sets and counters; the float operations as the exact result rounded once. -/
theorem atomicArithmetic : Obligations.AtomicArithmetic := by
  unfold Obligations.AtomicArithmetic
  refine ⟨fun op ty rm v x _ _ => atomValue_spec op ty rm v x, ?_, counterAdd_spec, ?_, ?_, ?_, ?_, ?_⟩
  · intro f v i is
    rw [atomSet_cons]
    exact ⟨rfl, rfl, rfl⟩
  · intro f rm neg m e q hf hm hqe hq
    have hat : (FVal.num neg m e).isAt q ((if neg then -1 else 1) * ((m : Int) * 2 ^ (e - q).toNat)) := ⟨neg, m, e, rfl, hqe, rfl⟩
    refine (Fmt.sound_of_mem hf).rounds_of_isAt rm hq hat ?_
    cases neg <;> simp [hm]
  · intro f rm a b c q x y z hf hq ha hb
    have hs : f.Sound := Fmt.sound_of_mem (by simp at hf ⊢; tauto)
    obtain ⟨hadd, hadd0⟩ := hs.fAdd_spec rm hq ha hb
    obtain ⟨hmul, hmul0⟩ := hs.fMul_spec rm hq ha hb
    exact ⟨hadd, hadd0, hmul, hmul0, hs.fFma_spec rm hq ha hb⟩
  · intro f rm a b c q x0 x1 y0 y1 z _ hq ha0 ha1 hb0 hb1 hc h
    exact fDot2_spec rm hq ha0 ha1 hb0 hb1 hc h
  · intro a b k i j c
    refine ⟨mmaAcc a b k i j c, rfl, rfl, fun blk q r v x y _ hqr hc hel sum hsum => ?_⟩
    rw [mmaAcc_succ]
    exact mmaStep_spec a b k i j _ blk hqr hc hel hsum
  · exact nearest_roundInt

end Sys2Proof.Machine
end

section
/-!
SUPPORT. Fragments of tiles: what a group's registers hold after a list of writes, and how the elements, the scales and the outlier
entries that a tile word writes read back (R97 to R102).
-/
namespace Sys2Proof.Machine

/-! ## Vector registers after a list of writes -/

theorem Group.getV_setV {g : Group} (hg : g.v.wf = true) (r i : Nat) (x : Word) : (g.setV r i x).getV r i = x :=
  SMap.getD_setD g.v (32 * r + i) x 0 hg

theorem Group.getV_setV_ne {g : Group} (hg : g.v.wf = true) {r i q j : Nat} (x : Word) (hi : i < 32) (hj : j < 32) (h : (q, j) ≠ (r, i)) :
    (g.setV q j x).getV r i = g.getV r i :=
  SMap.getD_setD_ne g.v (32 * q + j) (32 * r + i) x 0 hg fun heq => h <| by
    rw [show q = r by omega, show j = i by omega]

/-- Only v registers are written, in the lanes of a group. -/
def OnlyV (ws : List Wr) : Prop := ∀ w ∈ ws, ∃ r i x, w = .v r i x ∧ i < 32

theorem OnlyV.left {xs ys : List Wr} (h : OnlyV (xs ++ ys)) : OnlyV xs := fun w hw => h w (List.mem_append_left _ hw)

theorem Group.wrs_append_singleton (g : Group) (ws : List Wr) (w : Wr) : g.wrs (ws ++ [w]) = (g.wrs ws).wr w := by
  simp [Group.wrs]

/-- A register after writes: unwritten it stays; else it has the value of its writes, where these agree. -/
theorem Group.getV_wrs {g : Group} (hg : g.v.wf = true) {ws : List Wr} (hws : OnlyV ws) :
    (g.wrs ws).v.wf = true ∧ ∀ r i, i < 32 →
      ((∀ x, Wr.v r i x ∉ ws) → (g.wrs ws).getV r i = g.getV r i)
      ∧ ∀ x, Wr.v r i x ∈ ws → (∀ y, Wr.v r i y ∈ ws → y = x) → (g.wrs ws).getV r i = x := by
  induction ws using List.reverseRecOn with
  | nil => exact ⟨hg, fun r i _ => ⟨fun _ => rfl, fun x hx => absurd hx (by simp)⟩⟩
  | append_singleton ws w ih =>
    obtain ⟨hwf, hget⟩ := ih hws.left
    obtain ⟨q, j, z, rfl, hj⟩ := hws w (by simp)
    rw [Group.wrs_append_singleton]
    refine ⟨SMap.wf_setD _ _ _ _ hwf, fun r i hi => ?_⟩
    obtain ⟨hkeep, hset⟩ := hget r i hi
    simp only [Group.wr]
    by_cases h : (q, j) = (r, i)
    · obtain ⟨rfl, rfl⟩ := Prod.mk.inj h
      rw [Group.getV_setV hwf]
      exact ⟨fun hno => absurd (List.mem_append_right ws (List.mem_singleton_self _)) (hno z), fun x _ hall => hall z (by simp)⟩
    · rw [Group.getV_setV_ne hwf z hi hj h]
      have hne : ∀ x, Wr.v r i x ≠ Wr.v q j z := fun x heq => h <| by
        injection heq with hr hi _
        rw [hr, hi]
      refine ⟨fun hno => hkeep fun x hx => hno x (List.mem_append_left _ hx), fun x hx hall => hset x ?_ fun y hy => hall y (List.mem_append_left _ hy)⟩
      exact (List.mem_append.1 hx).resolve_right fun hm => hne x (List.mem_singleton.1 hm)

/-! ## Fields packed into one number -/

theorem getD_map_upTo {α : Type} (f : Nat → α) (x : α) {n k : Nat} (hk : k < n) : ((upTo n).map f).getD k x = f k := by
  rw [upTo, List.getD_eq_getElem _ _ (by simpa using hk), List.getElem_map, List.getElem_range]

/-- Fields of w bits, the first lowest. -/
def packed (w : Nat) : List Nat → Nat
  | [] => 0
  | x :: xs => x % 2 ^ w + 2 ^ w * packed w xs

theorem foldl_zipIdx_eq_packed (w : Nat) (xs : List Nat) (a n : Nat) :
    (xs.zipIdx n).foldl (fun a x => a + x.1 % 2 ^ w * 2 ^ (w * x.2)) a = a + 2 ^ (w * n) * packed w xs := by
  induction xs generalizing a n with
  | nil => simp [packed]
  | cons x xs ih =>
    rw [List.zipIdx_cons, List.foldl_cons, ih, packed]
    ring

theorem packed_field (w : Nat) (xs : List Nat) (k : Nat) : packed w xs / 2 ^ (w * k) % 2 ^ w = xs.getD k 0 % 2 ^ w := by
  induction xs generalizing k with
  | nil => simp [packed]
  | cons x xs ih =>
    cases k with
    | zero => simp [packed]
    | succ k =>
      have hdiv : packed w (x :: xs) / 2 ^ w = packed w xs := by
        rw [packed, Nat.add_mul_div_left _ _ (Nat.two_pow_pos w), Nat.div_eq_of_lt (Nat.mod_lt _ (Nat.two_pow_pos w)), zero_add]
      rw [Nat.mul_succ, Nat.add_comm, pow_add, ← Nat.div_div_eq_div_mul, hdiv, ih]
      rfl

/-- A field that lies within the low n bits. -/
theorem mod_div_mod_two_pow (a : Nat) {s w n : Nat} (h : s + w ≤ n) : a % 2 ^ n / 2 ^ s % 2 ^ w = a / 2 ^ s % 2 ^ w := by
  refine Nat.eq_of_testBit_eq fun j => ?_
  simp only [Nat.testBit_mod_two_pow, Nat.testBit_div_two_pow]
  by_cases hj : j < w
  · have hn : j + s < n := by omega
    simp [hj, hn]
  · simp [hj]

/-- Field k of w bits, where a whole number of fields fills a register. -/
theorem bits_word_of_packed (a : Nat) {w : Nat} (hw : w ∣ 32) (k : Nat) :
    bits (bv 32 (a / 2 ^ (32 * (k * w / 32)))).toNat (k * w % 32) w = a / 2 ^ (w * k) % 2 ^ w := by
  obtain ⟨c, hc⟩ := hw
  have hsplit : 32 * (k * w / 32) + k * w % 32 = w * k := by rw [Nat.div_add_mod, Nat.mul_comm]
  have hfit : k * w % 32 + w ≤ 32 := by
    rw [hc, Nat.mul_comm k w, Nat.mul_mod_mul_left, ← Nat.mul_succ]
    exact Nat.mul_le_mul_left w (Nat.mod_lt k (Nat.pos_of_ne_zero fun h0 => by simp [h0] at hc))
  rw [bits, bv, BitVec.toNat_ofNat, mod_div_mod_two_pow _ hfit, Nat.div_div_eq_div_mul, ← pow_add, hsplit]

/-- A field of two registers. -/
theorem pair_words_of_packed (a k : Nat) :
    (pair (bv 32 (a / 2 ^ (32 * (2 * k)))) (bv 32 (a / 2 ^ (32 * (2 * k + 1))))).toNat = a / 2 ^ (64 * k) % 2 ^ 64 := by
  rw [toNat_pair, bv, bv, BitVec.toNat_ofNat, BitVec.toNat_ofNat, show 32 * (2 * k) = 64 * k by omega,
    show 32 * (2 * k + 1) = 64 * k + 32 by omega, pow_add, ← Nat.div_div_eq_div_mul]
  generalize a / 2 ^ (64 * k) = b
  omega

/-! ## The shape of a fragment -/

/-- The widths of R97. -/
theorem THdr.width_cases (h : THdr) : h.width ∣ 32 ∧ h.width ≠ 64 ∨ h.width = 64 := by
  unfold THdr.width THdr.ty tileTy
  split <;> decide

section
variable {d : THdr}

theorem THdr.fits_iff : d.fits = true ↔ (if d.lay = true then 2 ^ d.cols ≤ 32 else 2 ^ d.rows = 32) ∧ d.held * d.width % 32 = 0 := by
  rw [THdr.fits, Bool.and_eq_true, beq_iff_eq]
  cases d.lay
  · exact and_congr_left fun _ => beq_iff_eq
  · exact and_congr_left fun _ => decide_eq_true_iff

theorem THdr.lt_of_mem_holders (hf : d.fits = true) {i : Nat} (hi : i ∈ d.holders) : i < 32 := by
  obtain ⟨hshape, -⟩ := THdr.fits_iff.1 hf
  cases hl : d.lay <;> simp [THdr.holders, hl, lanes, upTo] at hi hshape <;> omega

/-- Where an element of the matrix stands in a fragment. -/
theorem THdr.at_mem (hf : d.fits = true) {row col : Nat} (hr : row < 2 ^ d.rows) (hc : col < 2 ^ d.cols) :
    (d.at_ row col).1 ∈ d.holders ∧ (d.at_ row col).2 < d.run := by
  obtain ⟨hshape, -⟩ := THdr.fits_iff.1 hf
  cases hl : d.lay <;> simp [THdr.at_, THdr.holders, THdr.run, hl, lanes, upTo] at hshape ⊢ <;> omega

theorem THdr.cell_at (row col : Nat) : d.cell (d.at_ row col).1 (d.at_ row col).2 = (row, col) := by
  cases hl : d.lay <;> simp [THdr.at_, THdr.cell, hl]

theorem THdr.at_cell (i k : Nat) : d.at_ (d.cell i k).1 (d.cell i k).2 = (i, k) := by
  cases hl : d.lay <;> simp [THdr.at_, THdr.cell, hl]

theorem THdr.cell_lt (hf : d.fits = true) {i k : Nat} (hi : i ∈ d.holders) (hk : k < d.run) :
    (d.cell i k).1 < 2 ^ d.rows ∧ (d.cell i k).2 < 2 ^ d.cols := by
  obtain ⟨hshape, -⟩ := THdr.fits_iff.1 hf
  cases hl : d.lay <;> simp [THdr.cell, THdr.holders, THdr.run, hl, lanes, upTo] at hi hk hshape ⊢ <;> omega

theorem THdr.runReg_lt (hf : d.fits = true) (hs : d.spa ≠ 1) {k : Nat} (hk : k < d.run) :
    (d.width ≠ 64 → 0 < d.width → k * d.width / 32 < d.runRegs) ∧ (d.width = 64 → 2 * k + 1 < d.runRegs) := by
  obtain ⟨-, hfill⟩ := THdr.fits_iff.1 hf
  have hheld : d.held = d.run := by rw [THdr.held, if_neg hs]
  rw [hheld] at hfill
  rw [THdr.runRegs, hheld]
  refine ⟨fun _ h0 => ?_, fun h => by rw [h]; omega⟩
  rw [Nat.div_lt_iff_lt_mul (by norm_num), Nat.div_mul_cancel (Nat.dvd_of_mod_eq_zero hfill)]
  exact Nat.mul_lt_mul_of_pos_right hk h0

end

/-! ## What a tile word writes -/

/-- The registers of a fragment: of each thread that holds a part the elements and the scales, and the outlier list. -/
def fragWrites (d : THdr) (els codes : Nat → List Nat) (list : List (Nat × Nat)) : List Wr :=
  (d.holders.map (fun i => runWrites d i (els i))).flatten ++ (d.holders.map (fun i => scaleWrites d i (codes i))).flatten ++ listWrites d list

section
variable {d : THdr} {els codes : Nat → List Nat} {list : List (Nat × Nat)} {w : Wr} {r i : Nat} {x : Word}

theorem mem_runWrites {xs : List Nat} :
    w ∈ runWrites d i xs ↔ ∃ q < d.runRegs, w = .v (d.base + q) i (bv 32 (packed d.width xs / 2 ^ (32 * q))) := by
  have h := foldl_zipIdx_eq_packed d.width xs 0 0
  rw [Nat.mul_zero, pow_zero, one_mul, zero_add] at h
  simp only [runWrites, h, upTo, List.mem_map, List.mem_range]
  exact exists_congr fun q => and_congr_right fun _ => eq_comm

theorem mem_scaleWrites {xs : List Nat} :
    w ∈ scaleWrites d i xs ↔ ∃ q < d.scaleRegs, w = .v (d.sbase + q) i (bv 32 (packed 8 xs / 2 ^ (32 * q))) := by
  have h := foldl_zipIdx_eq_packed 8 xs 0 0
  rw [Nat.mul_zero, pow_zero, one_mul, zero_add] at h
  simp only [scaleWrites, show (256 : Nat) = 2 ^ 8 from rfl, h, upTo, List.mem_map, List.mem_range]
  exact exists_congr fun q => and_congr_right fun _ => eq_comm

theorem mem_listWrites : w ∈ listWrites d list ↔ d.hasList = true ∧ ∃ i e, list[i]? = some e
    ∧ (w = .v d.listReg i (bv 32 e.1) ∨ w = .v (d.listReg + 1) i (bv 32 e.2)) := by
  unfold listWrites
  split
  · next h =>
    simp only [h, true_and, List.mem_flatten, List.mem_map]
    constructor
    · rintro ⟨_, ⟨⟨e, i⟩, hmem, rfl⟩, hw⟩
      exact ⟨i, e, List.mem_zipIdx_iff_getElem?.1 hmem, by simpa using hw⟩
    · rintro ⟨i, e, hmem, hw⟩
      exact ⟨_, ⟨(e, i), List.mem_zipIdx_iff_getElem?.2 hmem, rfl⟩, by simpa using hw⟩
  · next h => simp [h]

theorem mem_fragWrites : w ∈ fragWrites d els codes list ↔
    (∃ i ∈ d.holders, ∃ q < d.runRegs, w = .v (d.base + q) i (bv 32 (packed d.width (els i) / 2 ^ (32 * q))))
    ∨ (∃ i ∈ d.holders, ∃ q < d.scaleRegs, w = .v (d.sbase + q) i (bv 32 (packed 8 (codes i) / 2 ^ (32 * q))))
    ∨ (d.hasList = true ∧ ∃ i e, list[i]? = some e ∧ (w = .v d.listReg i (bv 32 e.1) ∨ w = .v (d.listReg + 1) i (bv 32 e.2))) := by
  simp only [fragWrites, List.mem_append, List.mem_flatten, List.mem_map, exists_exists_and_eq_and, mem_runWrites, mem_scaleWrites,
    mem_listWrites, or_assoc]

/-- The list follows the scales, and closes the side data. -/
theorem THdr.sideRegs_of_hasList (h : d.hasList = true) : d.listReg = d.sbase + d.scaleRegs ∧ d.sideRegs = d.scaleRegs + 2 := by
  have hspa : d.spa = 2 := by simp [THdr.hasList] at h; exact h.1
  simp [THdr.listReg, THdr.sideRegs, THdr.metaRegs, hspa, h]

theorem scaleWrites_of_noScales (h : d.scl = 0) (xs : List Nat) : scaleWrites d i xs = [] := by
  have h0 : d.scaleRegs = 0 := by simp [THdr.scaleRegs, THdr.scaleBytes, h]
  simp [scaleWrites, h0, upTo]

theorem fragWrites_of_noScales (h : d.scl = 0) :
    fragWrites d els codes list = (d.holders.map (fun i => runWrites d i (els i))).flatten ++ listWrites d list := by
  simp [fragWrites, scaleWrites_of_noScales h]

theorem fragWrites_of_noList (h : d.hasList = false) : fragWrites d els codes list
    = (d.holders.map (fun i => runWrites d i (els i))).flatten ++ (d.holders.map (fun i => scaleWrites d i (codes i))).flatten := by
  simp [fragWrites, listWrites, h]

theorem onlyFrag_fragWrites (hf : d.fits = true) (hl : list.length ≤ 32) : onlyFrag d (fragWrites d els codes list) := by
  intro w hw
  rcases mem_fragWrites.1 hw with ⟨i, hi, q, hq, rfl⟩ | ⟨i, hi, q, hq, rfl⟩ | ⟨hh, i, e, he, hw⟩
  · exact ⟨_, _, _, rfl, .inl ⟨by omega, by omega⟩, THdr.lt_of_mem_holders hf hi⟩
  · exact ⟨_, _, _, rfl, .inr ⟨by omega, by unfold THdr.sideRegs; omega⟩, THdr.lt_of_mem_holders hf hi⟩
  · obtain ⟨hreg, hside⟩ := THdr.sideRegs_of_hasList hh
    have hi := (List.getElem?_eq_some_iff.1 he).1
    rcases hw with rfl | rfl <;> exact ⟨_, _, _, rfl, .inr ⟨by omega, by omega⟩, by omega⟩

theorem onlyV_of_onlyFrag {ws : List Wr} (h : onlyFrag d ws) : OnlyV ws := fun w hw => by
  obtain ⟨r, i, x, rfl, -, hi⟩ := h w hw
  exact ⟨r, i, x, rfl, hi⟩

end

/-! ## Reading back what was written -/

section
variable {d : THdr} {els codes : Nat → List Nat} {list : List (Nat × Nat)} {g : Group}

theorem getV_fragWrites_run (hg : g.v.wf = true) (hf : d.fits = true) (hl : list.length ≤ 32) (ha : d.apart) {i q : Nat} (hi : i ∈ d.holders)
    (hq : q < d.runRegs) : (g.wrs (fragWrites d els codes list)).getV (d.base + q) i = bv 32 (packed d.width (els i) / 2 ^ (32 * q)) := by
  have hall := onlyFrag_fragWrites (els := els) (codes := codes) hf hl
  refine ((Group.getV_wrs hg (onlyV_of_onlyFrag hall)).2 _ i (THdr.lt_of_mem_holders hf hi)).2 _ (mem_fragWrites.2 (.inl ⟨i, hi, q, hq, rfl⟩))
    fun y hy => ?_
  rcases mem_fragWrites.1 hy with ⟨j, _, p, hp, heq⟩ | ⟨j, _, p, hp, heq⟩ | ⟨hh, j, e, he, heq⟩
  · injection heq with hr hij hx
    obtain rfl : q = p := by omega
    rw [hx, hij]
  · injection heq with hr _ _
    unfold THdr.apart THdr.sideRegs at ha
    omega
  · obtain ⟨hreg, hside⟩ := THdr.sideRegs_of_hasList hh
    have : d.sbase ≤ d.base + q ∧ d.base + q < d.sbase + d.sideRegs := by
      rcases heq with heq | heq <;> · injection heq with hr _ _; omega
    unfold THdr.apart at ha
    omega

theorem getV_fragWrites_scale (hg : g.v.wf = true) (hf : d.fits = true) (hl : list.length ≤ 32) (ha : d.apart) {i q : Nat} (hi : i ∈ d.holders)
    (hq : q < d.scaleRegs) : (g.wrs (fragWrites d els codes list)).getV (d.sbase + q) i = bv 32 (packed 8 (codes i) / 2 ^ (32 * q)) := by
  have hall := onlyFrag_fragWrites (els := els) (codes := codes) hf hl
  refine ((Group.getV_wrs hg (onlyV_of_onlyFrag hall)).2 _ i (THdr.lt_of_mem_holders hf hi)).2 _
    (mem_fragWrites.2 (.inr (.inl ⟨i, hi, q, hq, rfl⟩))) fun y hy => ?_
  rcases mem_fragWrites.1 hy with ⟨j, _, p, hp, heq⟩ | ⟨j, _, p, hp, heq⟩ | ⟨hh, j, e, he, heq⟩
  · injection heq with hr _ _
    unfold THdr.apart THdr.sideRegs at ha
    omega
  · injection heq with hr hij hx
    obtain rfl : q = p := by omega
    rw [hx, hij]
  · obtain ⟨hreg, hside⟩ := THdr.sideRegs_of_hasList hh
    rcases heq with heq | heq <;> · injection heq with hr _ _; omega

theorem getV_fragWrites_list (hg : g.v.wf = true) (hf : d.fits = true) (hl : list.length ≤ 32) (ha : d.apart) (hh : d.hasList = true) {i : Nat}
    {e : Nat × Nat} (he : list[i]? = some e) : (g.wrs (fragWrites d els codes list)).getV d.listReg i = bv 32 e.1
    ∧ (g.wrs (fragWrites d els codes list)).getV (d.listReg + 1) i = bv 32 e.2 := by
  obtain ⟨hreg, hside⟩ := THdr.sideRegs_of_hasList hh
  have hi := (List.getElem?_eq_some_iff.1 he).1
  have hget := (Group.getV_wrs hg (onlyV_of_onlyFrag (onlyFrag_fragWrites (els := els) (codes := codes) hf hl))).2
  have hother : ∀ y r, d.listReg ≤ r → r ≤ d.listReg + 1 → Wr.v r i y ∈ fragWrites d els codes list →
      (r = d.listReg ∧ y = bv 32 e.1) ∨ (r = d.listReg + 1 ∧ y = bv 32 e.2) := fun y r hlo hhi hy => by
    rcases mem_fragWrites.1 hy with ⟨j, _, p, hp, heq⟩ | ⟨j, _, p, hp, heq⟩ | ⟨-, j, e', he', heq⟩
    · injection heq with hr _ _
      unfold THdr.apart at ha
      omega
    · injection heq with hr _ _
      omega
    · rcases heq with heq | heq <;>
      · injection heq with hr hij hx
        subst hij
        obtain rfl : e = e' := Option.some.inj (he.symm.trans he')
        simp [hr, hx]
  refine ⟨(hget _ i (by omega)).2 _ (mem_fragWrites.2 (.inr (.inr ⟨hh, i, e, he, .inl rfl⟩))) fun y hy => ?_,
    (hget _ i (by omega)).2 _ (mem_fragWrites.2 (.inr (.inr ⟨hh, i, e, he, .inr rfl⟩))) fun y hy => ?_⟩
  · exact ((hother y _ le_rfl (by omega) hy).resolve_right (by omega)).2
  · exact ((hother y _ (by omega) le_rfl hy).resolve_left (by omega)).2

/-- Each element reads back as it was written. -/
theorem cellRaw_fragWrites (hg : g.v.wf = true) (hf : d.fits = true) (hs : d.spa ≠ 1) (hl : list.length ≤ 32) (ha : d.apart) {row col : Nat}
    (hr : row < 2 ^ d.rows) (hc : col < 2 ^ d.cols) : cellRaw ((g.wrs (fragWrites d els codes list)).frag d) row col
      = (els (d.at_ row col).1).getD (d.at_ row col).2 0 % 2 ^ d.width := by
  obtain ⟨hi, hk⟩ := THdr.at_mem hf hr hc
  rw [← packed_field]
  show Frag.raw _ (d.at_ row col).1 (d.at_ row col).2 = _
  generalize (d.at_ row col).1 = i at hi
  generalize (d.at_ row col).2 = k at hk
  obtain ⟨hsmall, hwide⟩ := THdr.runReg_lt hf hs hk
  have hreg := fun q => getV_fragWrites_run (els := els) (codes := codes) (q := q) hg hf hl ha hi
  unfold Frag.raw
  dsimp only [Group.frag]
  rcases THdr.width_cases d with ⟨hdvd, h64⟩ | h64
  · rw [if_neg h64, hreg _ (hsmall h64 (Nat.pos_of_dvd_of_pos hdvd (by norm_num))), bits_word_of_packed _ hdvd]
  · rw [if_pos h64, Nat.add_assoc, hreg _ (by have := hwide h64; omega), hreg _ (hwide h64), pair_words_of_packed, h64]

/-- Each scale byte reads back as it was written. -/
theorem scaleByte_fragWrites (hg : g.v.wf = true) (hf : d.fits = true) (hl : list.length ≤ 32) (ha : d.apart) {i b : Nat} (hi : i ∈ d.holders)
    (hb : b < d.scaleBytes) : ((g.wrs (fragWrites d els codes list)).frag d).scaleByte i b = (codes i).getD b 0 % 256 := by
  have hq : b / 4 < d.scaleRegs := by unfold THdr.scaleRegs; omega
  have hword := bits_word_of_packed (packed 8 (codes i)) (w := 8) (by norm_num) b
  rw [show b * 8 / 32 = b / 4 by omega, show b * 8 % 32 = 8 * (b % 4) by omega, packed_field] at hword
  exact (congrArg (fun w : Word => bits w.toNat (8 * (b % 4)) 8) (getV_fragWrites_scale hg hf hl ha hi hq)).trans hword

/-- The outlier list reads back as it was written. -/
theorem list_fragWrites (hg : g.v.wf = true) (hf : d.fits = true) (hl : list.length ≤ 32) (ha : d.apart) (hh : d.hasList = true)
    (hn : d.ocnt = list.length) :
    ((g.wrs (fragWrites d els codes list)).frag d).list = list.map (fun e => (e.1 % 2 ^ 32, e.2 % 2 ^ 32)) := by
  rw [Frag.list, if_pos (show ((g.wrs (fragWrites d els codes list)).frag d).h.hasList = true from hh)]
  dsimp only [Group.frag]
  rw [hn]
  refine List.ext_getElem (by simp [upTo]) fun i h1 h2 => ?_
  have hi : i < list.length := by simpa using h2
  have he : list[i]? = some list[i] := List.getElem?_eq_getElem hi
  obtain ⟨hidx, hval⟩ := getV_fragWrites_list (els := els) (codes := codes) hg hf hl ha hh he
  simp [upTo, hidx, hval, bv]

end

/-! ## The end of a tile word (R108) -/

theorem badIntegrity_eq_nil {x : Header} (h : headerOk x = true) (info : Nat) : badIntegrity x info = [] := by
  simp [badIntegrity, badIf, h]

theorem badFragment_eq_nil {g : Group} {d : THdr} {res : Bool} (h : fragOk g d res) (info : Nat) : badFragment d res g.regs info = [] := by
  obtain ⟨hcons, hloc, hfits, hside, hover⟩ := h
  simp [badFragment, badIf, hcons, hloc, hfits, hside, hover]

theorem badSource_eq_nil {g : Group} {n : BitVec 4} {res : Bool} (h : srcOk g n res) : badSource g n res = [] := by
  rw [badSource, badIntegrity_eq_nil h.1, badFragment_eq_nil h.2]
  rfl

theorem badDest_eq_nil {g : Group} {n : BitVec 4} {d : THdr} {res : Bool} (hn : headerOk (g.getH n.toNat) = true) (h : fragOk g d res) :
    badDest g n d res = [] := by
  rw [badDest, badIntegrity_eq_nil hn, badFragment_eq_nil h]
  rfl

/-- A tile word whose checks pass. -/
theorem tileWord_of_ok {s : State} {p : Nat} {g : Group} {i : Instr} (h : Hdr) (hd : BitVec 4) (hi : s.Issues p g i []) {bad : Group → List Bad}
    (hbad : bad g = []) {f : Group → Group × List Wr × Nat} {d : Header} {ws : List Wr} {used : Nat} (hf : f g = (g.setH hd.toNat d, ws, used)) :
    tileWord i h s bad f = .next (s.tiled p g h hd d ws used) := by
  rw [tileWord, issueWord_body s p g _ _ _ _ hi]
  simp only [hbad, hf]
  rfl

end Sys2Proof.Machine
end

section
/-!
PROOFS. Tile headers, `TZERO` and `TTRANS` (R69, R73, R96, R108).
-/
namespace Sys2Proof.Machine

/-! ## A header's check -/

theorem foldNow_eq_foldl (f : Nat → Nat → Nat) (c : Nat) (xs : List Nat) : foldNow f c xs = xs.foldl f c := by
  induction xs generalizing c with
  | nil => cases c <;> rfl
  | cons x xs ih => cases c <;> exact ih _

theorem foldl_lt_of_step {f : Nat → Nat → Nat} {n c : Nat} (hf : ∀ a k, f a k < n) (hc : c < n) (xs : List Nat) : xs.foldl f c < n := by
  induction xs generalizing c with
  | nil => exact hc
  | cons x xs ih => exact ih (hf c x)

theorem crc8Byte_lt (c b : Nat) : crc8Byte c b < 256 := by
  have hstep : ∀ x k : Nat, (if bit x 7 = true then x * 2 % 256 ^^^ 0x07 else x * 2 % 256) < 256 := fun x k => by
    split
    · exact Nat.xor_lt_two_pow (n := 8) (by omega) (by norm_num)
    · omega
  rw [crc8Byte, foldNow_eq_foldl, upTo, List.range_succ_eq_map, List.foldl_cons]
  exact foldl_lt_of_step hstep (hstep _ 0) _

theorem crc8_lt (n x : Nat) : crc8 n x < 256 := by
  rw [crc8, foldNow_eq_foldl]
  exact foldl_lt_of_step (fun c k => crc8Byte_lt c _) (by norm_num) _

/-- The check reads the bytes below it. -/
theorem crc8_congr {x y : Nat} (h : x % 2 ^ 120 = y % 2 ^ 120) : crc8 15 x = crc8 15 y := by
  rw [crc8, crc8, foldNow_eq_foldl, foldNow_eq_foldl]
  refine List.foldl_ext _ _ _ fun c k hk => ?_
  have hk : 8 * k + 8 ≤ 120 := by
    have := List.mem_range.1 hk
    omega
  rw [bits, bits, ← mod_div_mod_two_pow x hk, h, mod_div_mod_two_pow y hk]

/-- The number that `withChk` makes: bits 119:0 and their check above them (R96). -/
theorem withChk_toNat (n : Nat) : (withChk n).toNat = n % 2 ^ 120 + crc8 15 n * 2 ^ 120 := by
  have := crc8_lt 15 n
  rw [withChk, bv, BitVec.toNat_ofNat, Nat.mod_eq_of_lt]
  omega

theorem withChk_mod (n : Nat) : (withChk n).toNat % 2 ^ 120 = n % 2 ^ 120 := by
  rw [withChk_toNat, Nat.add_mul_mod_self_right, Nat.mod_mod]

theorem withChk_check (n : Nat) : bits (withChk n).toNat 120 8 = crc8 15 (withChk n).toNat := by
  rw [crc8_congr (withChk_mod n), withChk_toNat, bits, Nat.add_mul_div_right _ _ (Nat.two_pow_pos 120),
    Nat.div_eq_of_lt (Nat.mod_lt _ (Nat.two_pow_pos 120)), zero_add]
  exact Nat.mod_eq_of_lt (crc8_lt 15 n)

/-- Bit j of words packed one above the other. -/
theorem testBit_packed_words (xs : List Word) (j : Nat) :
    (packed 32 (xs.map BitVec.toNat)).testBit j = (xs.getD (j / 32) 0).getLsbD (j % 32) := by
  have hfield := packed_field 32 (xs.map BitVec.toNat) (j / 32)
  rw [show (xs.map BitVec.toNat).getD (j / 32) 0 = (xs.getD (j / 32) 0).toNat from List.getD_map xs 0 BitVec.toNat, Nat.mod_eq_of_lt (BitVec.isLt _)] at hfield
  rw [BitVec.getLsbD, ← hfield, Nat.testBit_mod_two_pow, Nat.testBit_div_two_pow, Nat.mod_add_div]
  simp [Nat.mod_lt]

theorem packed_append (w : Nat) (xs : List Nat) (x : Nat) : packed w (xs ++ [x]) = packed w xs + x % 2 ^ w * 2 ^ (w * xs.length) := by
  induction xs with
  | nil => simp [packed]
  | cons y ys ih =>
    rw [List.cons_append, packed, ih, packed, List.length_cons]
    ring

/-- Words as one number. -/
theorem foldl_words_eq_packed (f : Nat → Word) (n : Nat) :
    (upTo n).foldl (fun a j => a + (f j).toNat * 2 ^ (32 * j)) 0 = packed 32 (((upTo n).map f).map BitVec.toNat) := by
  unfold upTo
  induction n with
  | zero => rfl
  | succ n ih =>
    rw [List.range_succ, List.foldl_append, ih, List.map_append, List.map_append]
    simp only [List.foldl_cons, List.foldl_nil, List.map_cons, List.map_nil, packed_append, List.length_map, List.length_range,
      Nat.mod_eq_of_lt (BitVec.isLt _)]

section
variable {h : Hdr} {s : State} {p : Nat} {g : Group}

theorem exec_thdrToH {n : BitVec 4} {k : BitVec 6} (hi : s.Issues p g (.thdrToH h n (.s k)) []) :
    ∃ x : Header, (∀ j, j < 120 → x.getLsbD j = (g.getS (k.toNat + j / 32)).getLsbD (j % 32)) ∧ bits x.toNat 120 8 = crc8 15 x.toNat
      ∧ exec (.thdrToH h n (.s k)) s = .next (s.wrote p ((g.setH n.toNat x).at h g.lpend.length g.npc)) := by
  refine ⟨withChk (packed 32 (((upTo 4).map (fun j => g.getS (k.toNat + j))).map BitVec.toNat)), fun j hj => ?_, withChk_check _, ?_⟩
  · have hlow := congrArg (·.testBit j) (withChk_mod (packed 32 (((upTo 4).map (fun j => g.getS (k.toNat + j))).map BitVec.toNat)))
    simp only [Nat.testBit_mod_two_pow, hj, decide_true, Bool.true_and, testBit_packed_words] at hlow
    rw [BitVec.getLsbD, hlow, getD_map_upTo _ _ (by omega)]
  · show execThdrToH h n (.s k) s = _
    rw [execThdrToH, issueWord_body s p g _ _ _ _ hi]
    simp only [show sNum (.s k) = k.toNat from rfl, foldl_words_eq_packed]
    rfl

theorem exec_thdrFromH {n : BitVec 4} {k : BitVec 6} (hi : s.Issues p g (.thdrFromH h n (.s k)) []) :
    exec (.thdrFromH h n (.s k)) s = .next (s.wrote p (((((g.setS k.toNat ((g.getH n.toNat).extractLsb' 0 32)).setS (k.toNat + 1)
      ((g.getH n.toNat).extractLsb' 32 32)).setS (k.toNat + 2) ((g.getH n.toNat).extractLsb' 64 32)).setS (k.toNat + 3)
      ((g.getH n.toNat).extractLsb' 96 32)).at h g.lpend.length g.npc)) := by
  show execThdrFromH h n (.s k) s = _
  rw [execThdrFromH, issueWord_body s p g _ _ _ _ hi]
  rfl

theorem exec_tchk {n : BitVec 4} {pd : BitVec 3} (hi : s.Issues p g (.tchk h n pd) []) : exec (.tchk h n pd) s
    = .next (s.wrote p ((g.setP pd.toNat (BitVec.allOnes 32)
      (if headerOk (g.getH n.toNat) = true ∧ (g.thdr n).consistent false = true then BitVec.allOnes 32 else 0)).at h g.lpend.length g.npc)) := by
  show execTchk h n pd s = _
  rw [execTchk, issueWord_body s p g _ _ _ _ hi]
  simp only [Bool.and_eq_true]
  rfl

end

/-! ## `TZERO` -/

/-- The zeros that `TZERO` writes. -/
def zeroWrites (d : THdr) : List Wr :=
  (d.holders.map (fun i => (upTo d.runRegs).map (fun r => Wr.v (d.base + r) i 0))).flatten
  ++ if d.hasList then (lanes.map (fun i => [Wr.v d.listReg i 0, Wr.v (d.listReg + 1) i 0])).flatten else []

theorem mem_zeroWrites {d : THdr} {w : Wr} : w ∈ zeroWrites d ↔ (∃ i ∈ d.holders, ∃ q < d.runRegs, w = .v (d.base + q) i 0)
    ∨ (d.hasList = true ∧ ∃ i < 32, w = .v d.listReg i 0 ∨ w = .v (d.listReg + 1) i 0) := by
  unfold zeroWrites
  refine List.mem_append.trans (or_congr ?_ ?_)
  · simp only [List.mem_flatten, List.mem_map, exists_exists_and_eq_and, upTo, List.mem_range]
    exact exists_congr fun i => and_congr_right fun _ => exists_congr fun q => and_congr_right fun _ => eq_comm
  · split
    · next hh => simp [hh, lanes, upTo]
    · next hh => simp [hh]

theorem zeroWrites_inFrag {d : THdr} (hf : d.fits = true) {w : Wr} (hw : w ∈ zeroWrites d) : ∃ r i, w = .v r i 0 ∧ d.inFrag r ∧ i < 32 := by
  rcases mem_zeroWrites.1 hw with ⟨i, hi, q, hq, rfl⟩ | ⟨hh, i, hi, hw⟩
  · exact ⟨_, _, rfl, .inl ⟨by omega, by omega⟩, THdr.lt_of_mem_holders hf hi⟩
  · obtain ⟨hreg, hside⟩ := THdr.sideRegs_of_hasList hh
    rcases hw with rfl | rfl <;> exact ⟨_, _, rfl, .inr ⟨by omega, by omega⟩, hi⟩

/-- Every register of the run reads zero. -/
theorem getV_zeroWrites {g : Group} {d : THdr} (hg : g.v.wf = true) (hf : d.fits = true) {i q : Nat} (hi : i ∈ d.holders) (hq : q < d.runRegs) :
    (g.wrs (zeroWrites d)).getV (d.base + q) i = 0 := by
  have honly : OnlyV (zeroWrites d) := fun w hw => by
    obtain ⟨r, j, rfl, -, hj⟩ := zeroWrites_inFrag hf hw
    exact ⟨r, j, 0, rfl, hj⟩
  refine ((Group.getV_wrs hg honly).2 _ i (THdr.lt_of_mem_holders hf hi)).2 0 (mem_zeroWrites.2 (.inl ⟨i, hi, q, hq, rfl⟩)) fun y hy => ?_
  obtain ⟨r, j, heq, -⟩ := zeroWrites_inFrag hf hy
  injection heq

/-- Every element reads zero. -/
theorem cellRaw_zeroWrites {g : Group} {d : THdr} (hg : g.v.wf = true) (hf : d.fits = true) (hs : d.spa ≠ 1) {row col : Nat}
    (hr : row < 2 ^ d.rows) (hc : col < 2 ^ d.cols) : cellRaw ((g.wrs (zeroWrites d)).frag d) row col = 0 := by
  obtain ⟨hi, hk⟩ := THdr.at_mem hf hr hc
  show Frag.raw _ (d.at_ row col).1 (d.at_ row col).2 = _
  generalize (d.at_ row col).1 = i at hi
  generalize (d.at_ row col).2 = k at hk
  obtain ⟨hsmall, hwide⟩ := THdr.runReg_lt hf hs hk
  unfold Frag.raw
  dsimp only [Group.frag]
  rcases THdr.width_cases d with ⟨hdvd, h64⟩ | h64
  · rw [if_neg h64, getV_zeroWrites hg hf hi (hsmall h64 (Nat.pos_of_dvd_of_pos hdvd (by norm_num)))]
    simp [bits]
  · rw [if_pos h64, Nat.add_assoc, getV_zeroWrites hg hf hi (by have := hwide h64; omega), getV_zeroWrites hg hf hi (hwide h64)]
    rfl

theorem exec_tzero {h : Hdr} {hd : BitVec 4} {s : State} {p : Nat} {g : Group} (hi : s.Issues p g (.tzero h hd) [])
    (hok : headerOk (g.getH hd.toNat) = true) (hfrag : fragOk g (tzeroHdr (g.thdr hd)) false) :
    exec (.tzero h hd) s = .next (s.tiled p g h hd (tzeroHdr (g.thdr hd)).word (zeroWrites (tzeroHdr (g.thdr hd))) 0) := by
  show execTzero h hd s = _
  exact tileWord_of_ok h hd hi (badDest_eq_nil hok hfrag) rfl

/-! ## `TTRANS` -/

theorem Frag.raw_lt (f : Frag) (i k : Nat) : f.raw i k < 2 ^ f.h.width := by
  unfold Frag.raw
  dsimp only
  split
  · next h => rw [h]; exact BitVec.isLt _
  · exact Nat.mod_lt _ (Nat.two_pow_pos _)

/-- An outlier list that a register fragment accepts has an entry for each lane at most (R102). -/
theorem THdr.cap_le (h : THdr) (hs : h.sideOk = true) : h.cap ≤ 32 := by
  have h4 : h.ocap ≠ 4 := by simp [THdr.sideOk] at hs; exact hs.2
  unfold THdr.cap
  split <;> simp_all

theorem Frag.length_list_le (f : Frag) {res : Bool} (hc : f.h.consistent res = true) (hs : f.h.sideOk = true) : f.list.length ≤ 32 := by
  have hcap := f.h.cap_le hs
  have hn : f.h.ocnt ≤ f.h.cap := by simp [THdr.consistent] at hc; exact hc.1.1.1.1.1
  unfold Frag.list
  split
  · simp [upTo]; omega
  · simp

theorem canonRes_lt (x : Nat) : canonRes x < 2 ^ 48 := by
  unfold canonRes resA resB resC
  omega

/-- The three fields of a residue triple (R73). -/
theorem triple_field {a b c : Nat} (ha : a < 2 ^ 16) (hb : b < 2 ^ 16) (hc : c < 2 ^ 16) : (a + b * 2 ^ 16 + c * 2 ^ 32) / 2 ^ 0 % 2 ^ 16 = a
    ∧ (a + b * 2 ^ 16 + c * 2 ^ 32) / 2 ^ 16 % 2 ^ 16 = b ∧ (a + b * 2 ^ 16 + c * 2 ^ 32) / 2 ^ 32 % 2 ^ 16 = c := by
  refine ⟨by omega, by omega, by omega⟩

theorem canonRes_field (x n m : Nat) (h : (n, m) ∈ [(0, resA), (16, resB), (32, resC)]) :
    canonRes x / 2 ^ n % 2 ^ 16 = x / 2 ^ n % 2 ^ 16 % m := by
  obtain ⟨h0, h1, h2⟩ := triple_field (a := bits x 0 16 % resA) (b := bits x 16 16 % resB) (c := bits x 32 16 % resC)
    ((Nat.mod_lt _ (by decide)).trans_le (by decide)) ((Nat.mod_lt _ (by decide)).trans_le (by decide))
    ((Nat.mod_lt _ (by decide)).trans_le (by decide))
  simp only [List.mem_cons, Prod.mk.injEq, List.not_mem_nil, or_false] at h
  rcases h with ⟨rfl, rfl⟩ | ⟨rfl, rfl⟩ | ⟨rfl, rfl⟩
  · exact h0
  · exact h1
  · exact h2

/-- An element is written in its canonical form. -/
theorem movedAs_canonElem (t : Ty) {x : Nat} (hx : x < 2 ^ storedWidth t) : movedAs t x (canonElem t x % 2 ^ storedWidth t) := by
  by_cases h3 : t = .e3m2
  · subst h3
    show x % 2 ^ 6 % 2 ^ 8 = x % 2 ^ 6
    omega
  by_cases hr : t = .res48
  · subst hr
    have hlt : canonRes x < 2 ^ storedWidth .res48 := (canonRes_lt x).trans (by decide)
    rw [show canonElem .res48 x = canonRes x from rfl, Nat.mod_eq_of_lt hlt]
    exact ⟨canonRes_lt x, fun n m hnm => canonRes_field x n m hnm⟩
  · have hsame : canonElem t x = x ∧ movedAs t x x := by
      cases t with
      | e3m2 => exact absurd rfl h3
      | res48 => exact absurd rfl hr
      | _ => exact ⟨rfl, rfl⟩
    rw [hsame.1, Nat.mod_eq_of_lt hx]
    exact hsame.2

/-- The stored elements of a thread's run of the other layout. -/
def ttransEls (d a : THdr) (f : Frag) (i : Nat) : List Nat :=
  (upTo d.run).map (fun k => canonElem a.ty (f.raw (a.at_ (d.cell i k).1 (d.cell i k).2).1 (a.at_ (d.cell i k).1 (d.cell i k).2).2))

section
variable {h : Hdr} {hd ha : BitVec 4} {s : State} {p : Nat} {g : Group}

theorem exec_ttrans (hi : s.Issues p g (.ttrans h hd ha) []) (hsrc : srcOk g ha false) (hok : headerOk (g.getH hd.toNat) = true)
    (hfrag : fragOk g (ttransHdr (g.thdr hd) (g.thdr ha)) false) (hscl : (g.thdr ha).scl = 0) (hspa : (g.thdr ha).spa ≠ 1) :
    exec (.ttrans h hd ha) s = .next (s.tiled p g h hd (ttransHdr (g.thdr hd) (g.thdr ha)).word
      (fragWrites (ttransHdr (g.thdr hd) (g.thdr ha)) (ttransEls (ttransHdr (g.thdr hd) (g.thdr ha)) (g.thdr ha) (g.frag (g.thdr ha)))
        (fun _ => []) (g.frag (g.thdr ha)).list) 0) := by
  show execTtrans h hd ha s = _
  have hnone : (ttransHdr (g.thdr hd) (g.thdr ha)).scl = 0 := hscl
  refine tileWord_of_ok h hd hi ?_ ?_
  · dsimp only
    rw [badSource_eq_nil hsrc, badDest_eq_nil hok hfrag, show ((g.thdr ha).scl != 0 || (g.thdr ha).spa == 1) = false by simp [hscl, hspa]]
    rfl
  · rw [fragWrites_of_noScales hnone]
    rfl

/-- Every element of the matrix stands where the other layout has it. -/
theorem cellRaw_ttrans (hg : g.v.wf = true) (hsrc : srcOk g ha false) (hfrag : fragOk g (ttransHdr (g.thdr hd) (g.thdr ha)) false)
    (hspa : (g.thdr ha).spa ≠ 1) (hapart : (ttransHdr (g.thdr hd) (g.thdr ha)).apart) {row col : Nat} (hr : row < 2 ^ (g.thdr ha).rows)
    (hc : col < 2 ^ (g.thdr ha).cols) : movedAs (g.thdr ha).ty (cellRaw (g.frag (g.thdr ha)) row col)
      (cellRaw ((g.wrs (fragWrites (ttransHdr (g.thdr hd) (g.thdr ha)) (ttransEls (ttransHdr (g.thdr hd) (g.thdr ha)) (g.thdr ha)
        (g.frag (g.thdr ha))) (fun _ => []) (g.frag (g.thdr ha)).list)).frag (ttransHdr (g.thdr hd) (g.thdr ha))) row col) := by
  obtain ⟨-, hcons, -, -, hside, -⟩ := hsrc
  obtain ⟨-, -, hfits, -, -⟩ := hfrag
  have hlist : (g.frag (g.thdr ha)).list.length ≤ 32 := Frag.length_list_le _ hcons hside
  have hread := cellRaw_fragWrites (els := ttransEls (ttransHdr (g.thdr hd) (g.thdr ha)) (g.thdr ha) (g.frag (g.thdr ha)))
    (codes := fun _ => []) hg hfits hspa hlist hapart hr hc
  have hk := (THdr.at_mem hfits hr hc).2
  rw [hread, ttransEls, getD_map_upTo _ _ hk, THdr.cell_at]
  exact movedAs_canonElem _ (Frag.raw_lt _ _ _)

end

/-- Settles O23: `THDR` and `TCHK` by the check of R96, `TZERO` and `TTRANS` by reading back what they write. -/
theorem headersAndTileMoves : Obligations.HeadersAndTileMoves := by
  unfold Obligations.HeadersAndTileMoves
  refine ⟨fun h s p g n k pd => ⟨exec_thdrToH, exec_thdrFromH, fun hi => ?_⟩, ?_, ?_⟩
  · rw [exec_tchk hi]
    exact ⟨fun hok => by rw [if_pos hok], fun hbad => by rw [if_neg hbad]⟩
  · intro h hd s p g hi hg hok hfrag
    have hfits := hfrag.2.2.1
    refine ⟨_, exec_tzero hi hok hfrag, fun w hw => ?_, fun row col hr hc hs => cellRaw_zeroWrites hg hfits hs hr hc⟩
    obtain ⟨r, i, rfl, hin, -⟩ := zeroWrites_inFrag hfits hw
    exact ⟨r, i, rfl, hin⟩
  · intro h hd ha s p g hi hg hsrc hok hfrag hscl hspa
    obtain ⟨hcons, -, -, hside, -⟩ := hsrc.2
    exact ⟨_, exec_ttrans hi hsrc hok hfrag hscl hspa, onlyFrag_fragWrites hfrag.2.2.1 (Frag.length_list_le (g.frag (g.thdr ha)) hcons hside),
      fun hapart row col hr hc => cellRaw_ttrans hg hsrc hfrag hspa hapart hr hc⟩

end Sys2Proof.Machine
end

section
/-!
SUPPORT. Residues and the integers they stand for (R73, R76), and a value rounded into a format with infinities, against the real numbers.
-/
namespace Sys2Proof.Machine

/-! ## Rounding into a format, against the real number -/

theorem signOf_mul_neg_iff {neg : Bool} {A : ℝ} (hA : 0 < A) : signOf neg * A < 0 ↔ neg = true := by
  cases neg
  · simpa using hA.le
  · simpa using hA

theorem Fmt.Sound.realIs_signed {f : Fmt} (hf : f.Sound) (neg : Bool) {c : Nat} (hc : c ≤ f.maxc) :
    (unpack f (signed f neg c)).realIs (signOf neg * f.magOf c) := by
  rw [hf.unpack_signed neg c hc, FVal.realIs_num, Fmt.magOf, mul_assoc]

theorem Fmt.Sound.realIs_maxc {f : Fmt} (hf : f.Sound) : (unpack f f.maxc).realIs (f.magOf f.maxc) := by
  simpa [signed] using hf.realIs_signed false le_rfl

theorem signed_overflowCode {f : Fmt} (hinf : f.inf = true) (rm : Rm) (neg : Bool) : signed f neg (overflowCode f rm neg)
    = (if rm = .rne ∨ (rm = .rup ∧ neg = false) ∨ (rm = .rdn ∧ neg = true) then f.maxc + 1 else f.maxc) + (if neg then 2 ^ f.mag else 0) := by
  unfold signed overflowCode
  rw [hinf]
  cases rm <;> cases neg <;> simp [Fmt.infCode]

theorem Fmt.Sound.roundsReal_roundTo {f : Fmt} (hf : f.Sound) (hinf : f.inf = true) (rm : Rm) (neg : Bool) {m : Nat} (hm : m ≠ 0) (e : Int) :
    f.roundsReal rm (signOf neg * (m * (2 : ℝ) ^ e)) (roundTo f rm (.num neg m e)).1 (roundTo f rm (.num neg m e)).2 := by
  obtain ⟨w, t, hw0, ht0, hw, ht, -, hr⟩ := hf.roundTo_spec rm neg m e hm
  have hA : 0 < (m : ℝ) * (2 : ℝ) ^ e := mul_pos (by exact_mod_cast Nat.pos_of_ne_zero hm) (two_zpow_pos e)
  have hsgn := signOf_mul_neg_iff (neg := neg) hA
  have hinj : signOf neg * w = signOf neg * (m * (2 : ℝ) ^ e) ↔ w = m * (2 : ℝ) ^ e :=
    mul_right_inj' (show signOf neg ≠ 0 by cases neg <;> simp)
  refine ⟨signOf neg * w, signOf neg * t, f.magOf f.maxc, hw, ht, hf.realIs_maxc, fun hle => ?_, fun hlt => ?_⟩
  · rw [abs_signOf_mul, abs_of_nonneg hw0] at hle
    obtain ⟨c, hc, hz, hcw⟩ := hr.code hle
    rw [abs_signOf_mul, abs_of_nonneg ht0, hz, ne_eq, hinj, hsgn]
    refine ⟨signed_lt f neg c (hc.trans_lt hf.maxc), hcw ▸ hf.realIs_signed neg hc, ?_, hr.exact hle, hr.tiny hle, hr.normal hle⟩
    rw [hf.unpack_signed neg c hc]
    rfl
  · rw [abs_signOf_mul, abs_of_nonneg hw0] at hlt
    obtain ⟨hz, hfl⟩ := hr.overflow hlt
    exact ⟨hfl, neg, hsgn.symm, hz.trans (signed_overflowCode hinf rm neg)⟩

/-- To nearest, an infinity and the overflow flag come together. -/
theorem Fmt.Sound.isInf_roundTo {f : Fmt} (hf : f.Sound) (hinf : f.inf = true) (neg : Bool) (m : Nat) (e : Int) :
    (roundTo f .rne (.num neg m e)).1 < 2 ^ (f.mag + 1)
    ∧ ((unpack f (roundTo f .rne (.num neg m e)).1).isInf = true ↔ (roundTo f .rne (.num neg m e)).2 &&& fOF ≠ 0) := by
  by_cases hm : m = 0
  · subst hm
    rw [roundTo_zero, hf.unpack_signed_zero]
    exact ⟨signed_lt f neg 0 (Nat.two_pow_pos _), by simp [FVal.isInf]⟩
  obtain ⟨w, t, -, -, -, -, -, hr⟩ := hf.roundTo_spec .rne neg m e hm
  rcases le_or_gt w (f.magOf f.maxc) with hle | hlt
  · obtain ⟨c, hc, hz, -⟩ := hr.code hle
    rw [hz, hf.unpack_signed neg c hc]
    refine ⟨signed_lt f neg c (hc.trans_lt hf.maxc), iff_of_false (by simp [FVal.isInf]) (not_not.2 ?_)⟩
    by_cases hex : w = m * (2 : ℝ) ^ e
    · rw [hr.exact hle hex]; decide
    · rcases lt_or_ge t ((2 : ℝ) ^ (1 - (f.bias : Int))) with ht | ht
      · rw [hr.tiny hle hex ht]; decide
      · rw [hr.normal hle hex ht]; decide
  · obtain ⟨hz, hfl⟩ := hr.overflow hlt
    have hover : overflowCode f .rne neg = f.infCode := by simp [overflowCode, hinf]
    rw [hz, hfl, hover, hf.unpack_inf neg hinf]
    exact ⟨signed_lt f neg _ (hf.inf hinf), iff_of_true rfl (by decide)⟩

/-! ## Residue triples -/

/-- The weights of the channels: each is 1 modulo its own modulus, and 0 modulo the others (R76). -/
theorem resValue_congr (a b c k : Nat) (hk : k = (a * 65209 * 4294901760 + b * 4681 * 4293984256 + c * 61167 * 4293918735) % resM) :
    ((k : Int) - a) % 65521 = 0 ∧ ((k : Int) - b) % 65535 = 0 ∧ ((k : Int) - c) % 65536 = 0 ∧ k < resM := by
  unfold resM at hk ⊢
  refine ⟨by omega, by omega, by omega, by omega⟩

theorem resValue_standsFor (x : Nat) : standsFor x (resValue x) := by
  obtain ⟨ha, hb, hc, hlt⟩ := resValue_congr (bits x 0 16) (bits x 16 16) (bits x 32 16) _ rfl
  unfold standsFor resValue
  dsimp only
  generalize (bits x 0 16 * 65209 * 4294901760 + bits x 16 16 * 4681 * 4293984256 + bits x 32 16 * 61167 * 4293918735) % resM = k at *
  unfold resM at hlt ⊢
  refine ⟨fun n m hnm => ?_, by split <;> omega, by split <;> omega⟩
  simp only [List.mem_cons, Prod.mk.injEq, List.not_mem_nil, or_false] at hnm
  rcases hnm with ⟨rfl, rfl⟩ | ⟨rfl, rfl⟩ | ⟨rfl, rfl⟩
  · change (_ - ((bits x 0 16 : Nat) : Int)) % (65521 : Nat) = 0
    split <;> omega
  · change (_ - ((bits x 16 16 : Nat) : Int)) % (65535 : Nat) = 0
    split <;> omega
  · change (_ - ((bits x 32 16 : Nat) : Int)) % (65536 : Nat) = 0
    split <;> omega

theorem standsFor_unique {x : Nat} {X Y : Int} (hX : standsFor x X) (hY : standsFor x Y) : X = Y := by
  obtain ⟨hX, hX1, hX2⟩ := hX
  obtain ⟨hY, hY1, hY2⟩ := hY
  have hXa := hX 0 65521 (by simp)
  have hXb := hX 16 65535 (by simp)
  have hXc := hX 32 65536 (by simp)
  have hYa := hY 0 65521 (by simp)
  have hYb := hY 16 65535 (by simp)
  have hYc := hY 32 65536 (by simp)
  push_cast at *
  omega

theorem residues_residuesOf (X : Int) : residuesOf X (residues X) := by
  have ha : (X % (resA : Int)).toNat < 2 ^ 16 ∧ ((X % (resA : Int)).toNat : Int) = X % 65521 := by unfold resA; omega
  have hb : (X % (resB : Int)).toNat < 2 ^ 16 ∧ ((X % (resB : Int)).toNat : Int) = X % 65535 := by unfold resB; omega
  have hc : (X % (resC : Int)).toNat < 2 ^ 16 ∧ ((X % (resC : Int)).toNat : Int) = X % 65536 := by unfold resC; omega
  obtain ⟨h0, h1, h2⟩ := triple_field ha.1 hb.1 hc.1
  refine ⟨?_, fun n m hnm => ?_⟩
  · have := ha.1
    have := hb.1
    have := hc.1
    unfold residues
    omega
  · simp only [List.mem_cons, Prod.mk.injEq, List.not_mem_nil, or_false] at hnm
    rcases hnm with ⟨rfl, rfl⟩ | ⟨rfl, rfl⟩ | ⟨rfl, rfl⟩
    · exact (congrArg _ h0).trans ha.2
    · exact (congrArg _ h1).trans hb.2
    · exact (congrArg _ h2).trans hc.2

end Sys2Proof.Machine
end

section
/-!
PROOFS. `TRES` and `TCRT` (R73 to R76).
-/
namespace Sys2Proof.Machine

/-! ## The exponent of a block -/

/-- The exponents of the finite values but zeros. -/
def finiteExps (xs : List FVal) : List Int := xs.filterMap (fun x => match x with
  | .num _ m e => if m = 0 then none else some (expOfMag m e)
  | _ => none)

theorem mem_finiteExps {xs : List FVal} {E : Int} : E ∈ finiteExps xs ↔ ∃ n m e, FVal.num n m e ∈ xs ∧ m ≠ 0 ∧ E = expOfMag m e := by
  rw [finiteExps, List.mem_filterMap]
  constructor
  · rintro ⟨x, hx, hE⟩
    cases x with
    | num n m e =>
      by_cases hm : m = 0
      · simp [hm] at hE
      · exact ⟨n, m, e, hx, hm, by simpa [hm] using hE.symm⟩
    | nan _ => simp at hE
    | inf _ => simp at hE
  · rintro ⟨n, m, e, hx, hm, rfl⟩
    exact ⟨_, hx, by simp [hm]⟩

/-- The exponent that R75 makes of them. -/
def blockExpOf (frac : Nat) : List Int → Int
  | [] => 0
  | e :: es => max (es.foldl max e - frac) (-127)

theorem resExp_eq (xs : List FVal) (frac : Nat) : resExp xs frac = blockExpOf frac (finiteExps xs) := rfl

theorem foldl_max_eq_of_mem {a e : Int} {es : List Int} (hmem : e ∈ a :: es) (hle : ∀ z ∈ a :: es, z ≤ e) : es.foldl max a = e := by
  induction es generalizing a with
  | nil => simpa using (List.mem_singleton.1 hmem).symm
  | cons b es ih =>
    have ha := hle a (by simp)
    have hb := hle b (by simp)
    refine ih ?_ fun z hz => ?_
    · rcases List.mem_cons.1 hmem with rfl | hmem
      · simp [hb]
      · rcases List.mem_cons.1 hmem with rfl | hmem
        · simp [ha]
        · exact List.mem_cons_of_mem _ hmem
    · rcases List.mem_cons.1 hz with rfl | hz
      · exact max_le ha hb
      · exact hle z (by simp [hz])

theorem abs_realIs_num {s : Bool} {m : Nat} {e : Int} {y : ℝ} (h : (FVal.num s m e).realIs y) : |y| = m * (2 : ℝ) ^ e := by
  rw [(FVal.realIs_num s m e y).1 h, mul_assoc, abs_signOf_mul, abs_of_nonneg (mul_nonneg (Nat.cast_nonneg m) (two_zpow_pos e).le)]

theorem realIs_num_eq_zero {s : Bool} {m : Nat} {e : Int} {y : ℝ} (h : (FVal.num s m e).realIs y) : y = 0 ↔ m = 0 := by
  rw [← abs_eq_zero, abs_realIs_num h, mul_eq_zero, or_iff_left (two_zpow_ne_zero e), Nat.cast_eq_zero]

theorem two_zpow_lt_iff {a b : Int} : (2 : ℝ) ^ a < (2 : ℝ) ^ b ↔ a < b := zpow_lt_zpow_iff_right₀ (by norm_num)

theorem neg_le_resExp (xs : List FVal) (frac : Nat) : -127 ≤ resExp xs frac := by
  rw [resExp_eq]
  cases finiteExps xs with
  | nil => exact (by omega : (-127 : Int) ≤ 0)
  | cons e es => exact le_max_right _ _

/-- The exponent of a block, by R75. -/
theorem resScale_resExp (d : THdr) (int : Bool) (frac : Nat) (x : Nat → FVal) (b : Nat) :
    resScale d int frac x b (if int then 0 else resExp ((d.blockCells b).map x) frac) := by
  refine ⟨fun hint => if_pos hint, fun hint => ?_⟩
  rw [if_neg (by simp [hint]), resExp_eq]
  constructor
  · intro hzero
    suffices hnil : finiteExps ((d.blockCells b).map x) = [] by rw [hnil, blockExpOf]
    refine List.eq_nil_iff_forall_not_mem.2 fun E hE => ?_
    obtain ⟨n, m, e, hmem, hm, -⟩ := mem_finiteExps.1 hE
    obtain ⟨k, hk, hx⟩ := List.mem_map.1 hmem
    have hreal := FVal.realIs_num_self n m e
    exact hm ((realIs_num_eq_zero hreal).1 (hzero k hk _ (hx ▸ hreal)))
  · intro k y e hk hy hle hall
    obtain ⟨s, m, f, hx, -⟩ := id hy
    have hbin : ∀ {m : Nat} (f : Int), m ≠ 0 → (2 : ℝ) ^ expOfMag m f ≤ m * (2 : ℝ) ^ f ∧ (m : ℝ) * (2 : ℝ) ^ f < (2 : ℝ) ^ (expOfMag m f + 1) :=
      fun f hm => binade _ f hm
    rw [hx] at hy
    have hm : m ≠ 0 := fun h0 => by
      rw [(realIs_num_eq_zero hy).2 h0, abs_zero] at hle
      exact absurd hle (not_le.2 (two_zpow_pos e))
    have hup : ∀ E ∈ finiteExps ((d.blockCells b).map x), E ≤ e := fun E hE => by
      obtain ⟨n, m', f', hmem, hm', rfl⟩ := mem_finiteExps.1 hE
      obtain ⟨j, hj, hxj⟩ := List.mem_map.1 hmem
      have hreal := FVal.realIs_num_self n m' f'
      have hlt := hall j hj _ (hxj ▸ hreal)
      rw [abs_realIs_num hreal] at hlt
      have := two_zpow_lt_iff.1 ((hbin f' hm').1.trans_lt hlt)
      omega
    have hE : expOfMag m f = e := by
      rw [abs_realIs_num hy] at hle
      have := two_zpow_lt_iff.1 (hle.trans_lt (hbin f hm).2)
      have := hup _ (mem_finiteExps.2 ⟨s, m, f, List.mem_map.2 ⟨k, hk, hx⟩, hm, rfl⟩)
      omega
    have hmem : e ∈ finiteExps ((d.blockCells b).map x) := mem_finiteExps.2 ⟨s, m, f, List.mem_map.2 ⟨k, hk, hx⟩, hm, hE.symm⟩
    cases hes : finiteExps ((d.blockCells b).map x) with
    | nil => rw [hes] at hmem; cases hmem
    | cons a es =>
      rw [hes] at hmem hup
      rw [blockExpOf, foldl_max_eq_of_mem hmem hup]

/-! ## One element -/

theorem resFits_iff (X : Int) : resFits X = true ↔ ¬ (X < -140703129108480 ∨ 140703129108479 < X) := by
  simp [resFits]

theorem resElem_lt (int : Bool) (n : Int) (v : FVal) : (resElem int n v).1 < 2 ^ 48 := by
  have hres : ∀ X, residues X < 2 ^ 48 := fun X => (residues_residuesOf X).1
  unfold resElem
  cases v with
  | num s m e =>
    dsimp only
    split
    · exact hres _
    · split
      · exact hres _
      · norm_num
  | nan _ => norm_num
  | inf _ => norm_num

theorem resCell_resElem (int : Bool) (n : Int) (v : FVal) : resCell int v n (resElem int n v).1 ((resElem int n v).2 = true) := by
  cases v with
  | nan s => exact ⟨fun _ => ⟨rfl, rfl⟩, fun y hy => absurd hy (FVal.not_realIs_nan s y)⟩
  | inf s => exact ⟨fun _ => ⟨rfl, rfl⟩, fun y hy => absurd hy (FVal.not_realIs_inf s y)⟩
  | num s m e =>
    refine ⟨fun h => by simp [FVal.isNaN, FVal.isInf] at h, fun y hy => ⟨(roundInt .rne s m (e - n)).1, ?_, ?_⟩⟩
    · have hval : y / (2 : ℝ) ^ n = signOf s * (m * (2 : ℝ) ^ (e - n)) := by
        rw [(FVal.realIs_num s m e y).1 hy, zpow_sub₀ (by norm_num)]
        ring
      rw [hval]
      exact (nearestReal_roundInt .rne s m (e - n)).1
    · unfold resElem
      dsimp only
      generalize (roundInt .rne s m (e - n)).1 = X
      have hX := residues_residuesOf X
      have hfit := resFits_iff X
      cases hf : resFits X
      · have hout : X < -140703129108480 ∨ 140703129108479 < X := not_not.1 (hfit.not.1 (by simp [hf]))
        cases int
        · exact ⟨iff_of_true rfl hout, fun h => absurd h (by simp; omega), fun _ _ => rfl⟩
        · exact ⟨iff_of_true rfl hout, fun _ => hX, fun h => by simp at h⟩
      · have hin := hfit.1 hf
        cases int
        · exact ⟨iff_of_false (by simp) hin, fun _ => hX, fun _ h => absurd h hin⟩
        · exact ⟨iff_of_false (by simp) hin, fun _ => hX, fun _ h => absurd h hin⟩

/-! ## `TRES` -/

section
variable (d : THdr) (int : Bool) (frac : Nat) (f : Frag)

/-- The exponent of block b of thread i. -/
def tresExp (i b : Nat) : Int := if int then 0 else resExp ((d.blockCells b).map (fun k => f.elem (d.cell i k).1 (d.cell i k).2)) frac

/-- Element k of thread i, and whether it sets `sat`. -/
def tresElem (i k : Nat) : Nat × Bool :=
  resElem int (if d.scl = 0 then 0 else ((upTo d.scaleBytes).map (tresExp d int frac f i)).getD (if d.block = 0 then 0 else k / d.block) 0)
    (f.elem (d.cell i k).1 (d.cell i k).2)

def tresEls (i : Nat) : List Nat := (upTo d.run).map (fun k => (tresElem d int frac f i k).1)
def tresCodes (i : Nat) : List Nat := (upTo d.scaleBytes).map (fun b => (tresExp d int frac f i b + 127).toNat)
def tresSat : Bool := d.holders.any (fun i => (upTo d.run).any (fun k => (tresElem d int frac f i k).2))

end

theorem neg_le_tresExp (d : THdr) (int : Bool) (frac : Nat) (f : Frag) (i b : Nat) : -127 ≤ tresExp d int frac f i b := by
  unfold tresExp
  split
  · omega
  · exact neg_le_resExp _ _

/-- The block of a position of a fragment with scales has a scale byte. -/
theorem THdr.blockAt_lt {d : THdr} {res : Bool} (hc : d.consistent res = true) (h0 : d.scl ≠ 0) (h4 : d.scl ≤ 4) {k : Nat} (hk : k < d.run) :
    d.blockAt k < d.scaleBytes := by
  have hdiv : d.block = 0 ∨ d.run % d.block = 0 := by simp [THdr.consistent] at hc; exact hc.1.2
  have hblock : d.block ≠ 0 → k / d.block < d.run / d.block := fun hb => by
    have hmod := hdiv.resolve_left hb
    rw [Nat.div_lt_iff_lt_mul (Nat.pos_of_ne_zero hb), Nat.div_mul_cancel (Nat.dvd_of_mod_eq_zero hmod)]
    exact hk
  obtain h | h | h | h : d.scl = 1 ∨ d.scl = 2 ∨ d.scl = 3 ∨ d.scl = 4 := by omega
  · simp [THdr.blockAt, THdr.block, THdr.scaleBytes, h]
  · simp [THdr.blockAt, THdr.block, THdr.scaleBytes, h]
  · have hb : d.block = 32 := by simp [THdr.block, h]
    simpa [THdr.blockAt, THdr.scaleBytes, h, hb] using hblock
  · have hb : d.block = 16 := by simp [THdr.block, h]
    simpa [THdr.blockAt, THdr.scaleBytes, h, hb] using hblock

theorem tresElem_eq {d : THdr} (int : Bool) (frac : Nat) (f : Frag) {res : Bool} (hc : d.consistent res = true) (h4 : d.scl ≤ 4) (i : Nat) {k : Nat}
    (hk : k < d.run) : tresElem d int frac f i k
      = resElem int (if d.scl = 0 then 0 else tresExp d int frac f i (d.blockAt k)) (f.elem (d.cell i k).1 (d.cell i k).2) := by
  unfold tresElem
  by_cases h0 : d.scl = 0
  · rw [if_pos h0, if_pos h0]
  · rw [if_neg h0, if_neg h0, show (if d.block = 0 then 0 else k / d.block) = d.blockAt k from rfl,
      getD_map_upTo _ _ (THdr.blockAt_lt hc h0 h4 hk)]

theorem headerOk_scl {g : Group} {n : BitVec 4} (h : headerOk (g.getH n.toNat) = true) : (g.thdr n).scl ≤ 4 := by
  simp [headerOk] at h
  exact h.1.1.2

section
variable {h : Hdr} {hd ha : BitVec 4} {fr : BitVec 6} {s : State} {p : Nat} {g : Group}

theorem exec_tres (hi : s.Issues p g (.tres h hd ha fr) []) (hsrc : srcOk g ha false) (hok : headerOk (g.getH hd.toNat) = true)
    (hfrag : fragOk g (tresHdr (g.thdr hd) (g.thdr ha)) true) (hty : (g.thdr ha).ty ∈ [Ty.i8, .i16, .i32, .i64, .f32, .bf16, .f16])
    (hscl : (g.thdr hd).scl ≠ 4) {d : THdr} (hd' : d = tresHdr (g.thdr hd) (g.thdr ha)) {int : Bool} (hint : int = tyIsInt (g.thdr ha).ty) :
    exec (.tres h hd ha fr) s = .next (s.tiled p g h hd { d with sat := (g.thdr ha).sat || tresSat d int fr.toNat (g.frag (g.thdr ha)) }.word
      (fragWrites d (tresEls d int fr.toNat (g.frag (g.thdr ha))) (tresCodes d int fr.toNat (g.frag (g.thdr ha))) []) 0) := by
  subst hd' hint
  show execTres h hd ha fr s = _
  have hnone : (tresHdr (g.thdr hd) (g.thdr ha)).hasList = false := rfl
  refine tileWord_of_ok h hd hi ?_ ?_
  · dsimp only
    rw [badSource_eq_nil hsrc, badDest_eq_nil hok hfrag, List.contains_iff_mem.2 hty, show ((tresHdr (g.thdr hd) (g.thdr ha)).scl == 4) = false from beq_false_of_ne hscl]
    rfl
  · rw [fragWrites_of_noList hnone]
    simp only [List.map_map, List.any_map, Function.comp_def, tresEls, tresCodes, tresSat, tresElem, tresExp]
    rfl

end

/-- A property of some position of some thread is one of some element of the matrix. -/
theorem THdr.exists_cell_iff {d : THdr} (hf : d.fits = true) (P : Nat → Nat → Prop) : (∃ i ∈ d.holders, ∃ k < d.run, P i k)
    ↔ ∃ row col, row < 2 ^ d.rows ∧ col < 2 ^ d.cols ∧ P (d.at_ row col).1 (d.at_ row col).2 := by
  constructor
  · rintro ⟨i, hi, k, hk, hP⟩
    obtain ⟨hr, hc⟩ := THdr.cell_lt hf hi hk
    exact ⟨_, _, hr, hc, by rwa [THdr.at_cell]⟩
  · rintro ⟨row, col, hr, hc, hP⟩
    obtain ⟨hi, hk⟩ := THdr.at_mem hf hr hc
    exact ⟨_, hi, _, hk, hP⟩

section
variable {d : THdr} {int : Bool} {frac : Nat} {f : Frag} {g : Group}

theorem tresSat_iff (hf : d.fits = true) : tresSat d int frac f = true
    ↔ ∃ row col, row < 2 ^ d.rows ∧ col < 2 ^ d.cols ∧ (tresElem d int frac f (d.at_ row col).1 (d.at_ row col).2).2 = true := by
  simp only [tresSat, List.any_eq_true, upTo, List.mem_range]
  exact THdr.exists_cell_iff hf fun i k => (tresElem d int frac f i k).2 = true

theorem cellRaw_tres (hg : g.v.wf = true) (hf : d.fits = true) (hw : d.width = 64) (hs : d.spa ≠ 1) (ha : d.apart) {row col : Nat}
    (hr : row < 2 ^ d.rows) (hc : col < 2 ^ d.cols) :
    cellRaw ((g.wrs (fragWrites d (tresEls d int frac f) (tresCodes d int frac f) [])).frag d) row col
      = (tresElem d int frac f (d.at_ row col).1 (d.at_ row col).2).1 := by
  have hk := (THdr.at_mem hf hr hc).2
  rw [cellRaw_fragWrites hg hf hs (by simp) ha hr hc, tresEls, getD_map_upTo _ _ hk, hw]
  exact Nat.mod_eq_of_lt ((resElem_lt _ _ _).trans (by norm_num))

theorem scaleByte_tres (hg : g.v.wf = true) (hf : d.fits = true) (ha : d.apart) {i b : Nat} (hi : i ∈ d.holders) (hb : b < d.scaleBytes) :
    (((g.wrs (fragWrites d (tresEls d int frac f) (tresCodes d int frac f) [])).frag d).scaleByte i b : Int)
      = (tresExp d int frac f i b + 127) % 256 := by
  have := neg_le_tresExp d int frac f i b
  rw [scaleByte_fragWrites hg hf (by simp) ha hi hb, tresCodes, getD_map_upTo _ _ hb]
  omega

/-- What `TRES` writes, by R75. -/
theorem tres_cells (hg : g.v.wf = true) (hf : d.fits = true) (hw : d.width = 64) (hs : d.spa ≠ 1) {res : Bool} (hcons : d.consistent res = true)
    (h4 : d.scl ≤ 4) (ha : d.apart) {out : Frag} (hout : out = (g.wrs (fragWrites d (tresEls d int frac f) (tresCodes d int frac f) [])).frag d) :
    ∃ (sexp : Nat → Nat → Int) (lost : Nat → Nat → Prop),
      (∀ i b, i ∈ d.holders → b < d.scaleBytes → (out.scaleByte i b : Int) = (sexp i b + 127) % 256
        ∧ resScale d int frac (fun k => f.elem (d.cell i k).1 (d.cell i k).2) b (sexp i b))
      ∧ (∀ row col, row < 2 ^ d.rows → col < 2 ^ d.cols → resCell int (f.elem row col)
        (if d.scl = 0 then 0 else sexp (d.at_ row col).1 (d.blockAt (d.at_ row col).2)) (cellRaw out row col) (lost row col))
      ∧ (tresSat d int frac f = true ↔ ∃ row col, row < 2 ^ d.rows ∧ col < 2 ^ d.cols ∧ lost row col) := by
  subst hout
  refine ⟨tresExp d int frac f, fun row col => (tresElem d int frac f (d.at_ row col).1 (d.at_ row col).2).2 = true,
    fun i b hi hb => ⟨scaleByte_tres hg hf ha hi hb, resScale_resExp d int frac _ b⟩, fun row col hr hc => ?_, tresSat_iff hf⟩
  have hel := tresElem_eq int frac f hcons h4 (d.at_ row col).1 (THdr.at_mem hf hr hc).2
  rw [THdr.cell_at] at hel
  dsimp only
  rw [cellRaw_tres hg hf hw hs ha hr hc, hel]
  exact resCell_resElem _ _ _

end

/-! ## `TCRT` -/

theorem Frag.isInf_scale (f : Frag) (i k : Nat) : (f.scale i k).isInf = false := by
  have he8 : ∀ c, (unpackE8m0 c).isInf = false := fun c => by
    unfold unpackE8m0
    split <;> rfl
  have he4 : ∀ c, (unpack fmtE4m3 c).isInf = false := fun c => by
    unfold unpack
    dsimp only
    split
    · rfl
    · split <;> rfl
  unfold Frag.scale
  split
  · rfl
  · exact he8 _
  · exact he8 _
  · exact he8 _
  · exact he4 _

theorem FVal.realIs_ofInt (X : Int) : (FVal.ofInt X).realIs X := by
  rw [FVal.ofInt, FVal.realIs_num, zpow_zero, mul_one, Nat.cast_natAbs]
  rcases lt_or_ge X 0 with h | h
  · simp [h, abs_of_neg h]
  · simp [not_lt.2 h, abs_of_nonneg h]

theorem mulVal_realIs {a b : FVal} {x y : ℝ} (ha : a.realIs x) (hb : b.realIs y) :
    ∃ n m e, (mulVal a b).1 = .num n m e ∧ signOf n * (m * (2 : ℝ) ^ e) = x * y := by
  obtain ⟨s, m, e, rfl, -⟩ := id ha
  obtain ⟨t, n, k, rfl, -⟩ := id hb
  refine ⟨_, _, _, rfl, ?_⟩
  rw [(FVal.realIs_num s m e x).1 ha, (FVal.realIs_num t n k y).1 hb, signOf_bne, zpow_add₀ (by norm_num)]
  push_cast
  ring

theorem crtElem_i64 (x : Nat) (scale : FVal) : (crtElem .i64 x scale).1 < 2 ^ 64 ∧ (crtElem .i64 x scale).2 = false
    ∧ ∀ X, standsFor x X → Wraps .n64 X (crtElem .i64 x scale).1 := by
  have hz : (crtElem .i64 x scale).1 = wrap 64 (resValue x) := rfl
  rw [hz]
  refine ⟨?_, rfl, fun X hX => ?_⟩
  · unfold wrap; omega
  · rw [standsFor_unique hX (resValue_standsFor x)]
    unfold Wraps wrap
    rw [show tyWidth .n64 = 64 from rfl]
    omega

/-- One element in f32 (R76). -/
theorem crtElem_f32 (x : Nat) {scale : FVal} (hs : scale.isInf = false) : (crtElem .f32 x scale).1 < 2 ^ 32
    ∧ ((crtElem .f32 x scale).2 = true ↔ (unpack fmtF32 (crtElem .f32 x scale).1).isInf = true) ∧ crtCell x scale (crtElem .f32 x scale).1 := by
  have hf : fmtF32.Sound := Fmt.sound_of_mem (by simp)
  have hz : crtElem .f32 x scale = ((roundTo fmtF32 .rne (mulVal (FVal.ofInt (resValue x)) scale).1).1,
    (roundTo fmtF32 .rne (mulVal (FVal.ofInt (resValue x)) scale).1).2 &&& fOF != 0) := rfl
  rw [hz]
  cases scale with
  | nan s =>
    rw [show mulVal (FVal.ofInt (resValue x)) (.nan s) = (.nan false, false) from rfl]
    exact ⟨by decide, by decide, fun _ => rfl, fun X sc _ hsc => absurd hsc (FVal.not_realIs_nan s sc)⟩
  | inf n => cases hs
  | num n m e =>
    obtain ⟨n', m', e', hmul, hval⟩ := mulVal_realIs (FVal.realIs_ofInt (resValue x)) (FVal.realIs_num_self n m e)
    rw [hmul]
    obtain ⟨hlt, hinf⟩ := hf.isInf_roundTo rfl n' m' e'
    refine ⟨hlt, by rw [hinf, bne_iff_ne], fun h => absurd h Bool.false_ne_true, fun X sc hX hsc => ?_⟩
    rw [standsFor_unique hX (resValue_standsFor x), FVal.realIs_unique hsc (FVal.realIs_num_self n m e), ← hval]
    constructor
    · intro h0
      obtain rfl : m' = 0 := by
        refine (realIs_num_eq_zero (FVal.realIs_num_self n' m' e')).1 ?_
        rw [mul_assoc, h0]
      rw [roundTo_zero, hf.unpack_signed_zero, FVal.realIs_num]
      exact ⟨by simp, signed_lt fmtF32 n' 0 (Nat.two_pow_pos _)⟩
    · intro h0
      exact ⟨_, hf.roundsReal_roundTo rfl .rne n' (fun hm => h0 (by simp [hm])) e'⟩

section
variable (d : THdr) (f : Frag)

def tcrtElem (i k : Nat) : Nat × Bool := crtElem d.ty (f.raw i k) (f.scale i k)
def tcrtEls (i : Nat) : List Nat := (upTo d.run).map (fun k => (tcrtElem d f i k).1)
def tcrtSat : Bool := d.holders.any (fun i => (upTo d.run).any (fun k => (tcrtElem d f i k).2))

end

section
variable {h : Hdr} {hd ha : BitVec 4} {s : State} {p : Nat} {g : Group}

theorem exec_tcrt (hi : s.Issues p g (.tcrt h hd ha) []) (hsrc : srcOk g ha true) (hok : headerOk (g.getH hd.toNat) = true)
    (hfrag : fragOk g (tcrtHdr (g.thdr hd) (g.thdr ha)) false) (hres : (g.thdr ha).ty = .res48) (hspa : (g.thdr ha).spa = 0)
    (hty : (g.thdr hd).ty = .i64 ∨ (g.thdr hd).ty = .f32) {d : THdr} (hd' : d = tcrtHdr (g.thdr hd) (g.thdr ha)) :
    exec (.tcrt h hd ha) s = .next (s.tiled p g h hd { d with sat := (g.thdr ha).sat || tcrtSat d (g.frag (g.thdr ha)) }.word
      (fragWrites d (tcrtEls d (g.frag (g.thdr ha))) (fun _ => []) []) 0) := by
  subst hd'
  show execTcrt h hd ha s = _
  have hscl : (tcrtHdr (g.thdr hd) (g.thdr ha)).scl = 0 := rfl
  have hlist : listWrites (tcrtHdr (g.thdr hd) (g.thdr ha)) [] = [] := rfl
  have hty' : ((g.thdr ha).ty != .res48 || (g.thdr ha).spa != 0
      || ((tcrtHdr (g.thdr hd) (g.thdr ha)).ty != .i64 && (tcrtHdr (g.thdr hd) (g.thdr ha)).ty != .f32)) = false := by
    rw [hres, hspa, show (tcrtHdr (g.thdr hd) (g.thdr ha)).ty = (g.thdr hd).ty from rfl]
    rcases hty with hty | hty <;> rw [hty] <;> rfl
  refine tileWord_of_ok h hd hi ?_ ?_
  · dsimp only
    rw [badSource_eq_nil hsrc, badDest_eq_nil hok hfrag, hty']
    rfl
  · rw [fragWrites_of_noScales hscl, hlist, List.append_nil]
    simp only [List.map_map, List.any_map, Function.comp_def, tcrtEls, tcrtSat, tcrtElem]
    rfl

end

section
variable {d : THdr} {f : Frag} {g : Group}

theorem tcrtSat_iff (hf : d.fits = true) : tcrtSat d f = true
    ↔ ∃ row col, row < 2 ^ d.rows ∧ col < 2 ^ d.cols ∧ (tcrtElem d f (d.at_ row col).1 (d.at_ row col).2).2 = true := by
  simp only [tcrtSat, List.any_eq_true, upTo, List.mem_range]
  exact THdr.exists_cell_iff hf fun i k => (tcrtElem d f i k).2 = true

theorem cellRaw_tcrt (hg : g.v.wf = true) (hf : d.fits = true) (hs : d.spa ≠ 1) (ha : d.apart) {row col : Nat} (hr : row < 2 ^ d.rows)
    (hc : col < 2 ^ d.cols) : cellRaw ((g.wrs (fragWrites d (tcrtEls d f) (fun _ => []) [])).frag d) row col
      = (tcrtElem d f (d.at_ row col).1 (d.at_ row col).2).1 % 2 ^ d.width := by
  rw [cellRaw_fragWrites hg hf hs (by simp) ha hr hc, tcrtEls, getD_map_upTo _ _ (THdr.at_mem hf hr hc).2]

/-- What `TCRT` writes, by R76. -/
theorem tcrt_cells (hg : g.v.wf = true) (hf : d.fits = true) (hs : d.spa ≠ 1) (ha : d.apart) (hty : d.ty = .i64 ∨ d.ty = .f32)
    (hat : f.h.at_ = d.at_) {out : Frag} (hout : out = (g.wrs (fragWrites d (tcrtEls d f) (fun _ => []) [])).frag d) :
    (∀ row col, row < 2 ^ d.rows → col < 2 ^ d.cols → (∃ X, standsFor (cellRaw f row col) X)
      ∧ (d.ty = .i64 → ∀ X, standsFor (cellRaw f row col) X → Wraps .n64 X (cellRaw out row col))
      ∧ (d.ty = .f32 → crtCell (cellRaw f row col) (f.scale (f.h.at_ row col).1 (f.h.at_ row col).2) (cellRaw out row col)))
    ∧ (tcrtSat d f = true ↔ d.ty = .f32 ∧ ∃ row col, row < 2 ^ d.rows ∧ col < 2 ^ d.cols
      ∧ (unpack fmtF32 (cellRaw out row col)).isInf = true) := by
  subst hout
  have hcell : ∀ row col, tcrtElem d f (d.at_ row col).1 (d.at_ row col).2
      = crtElem d.ty (cellRaw f row col) (f.scale (f.h.at_ row col).1 (f.h.at_ row col).2) := fun row col => by
    rw [tcrtElem, cellRaw, hat]
  rw [tcrtSat_iff hf]
  rcases hty with hty | hty
  · have hw : d.width = 64 := by rw [THdr.width, hty]; rfl
    refine ⟨fun row col hr hc => ⟨⟨_, resValue_standsFor _⟩, fun _ => ?_, fun h => by simp [hty] at h⟩, ?_⟩
    · obtain ⟨hlt, -, hwraps⟩ := crtElem_i64 (cellRaw f row col) (f.scale (f.h.at_ row col).1 (f.h.at_ row col).2)
      rwa [cellRaw_tcrt hg hf hs ha hr hc, hcell, hty, hw, Nat.mod_eq_of_lt hlt]
    · refine iff_of_false ?_ fun h => by simp [hty] at h
      rintro ⟨row, col, -, -, hsat⟩
      rw [hcell, hty, (crtElem_i64 _ _).2.1] at hsat
      cases hsat
  · have hw : d.width = 32 := by rw [THdr.width, hty]; rfl
    have hread : ∀ row col, row < 2 ^ d.rows → col < 2 ^ d.cols →
        cellRaw ((g.wrs (fragWrites d (tcrtEls d f) (fun _ => []) [])).frag d) row col
          = (crtElem .f32 (cellRaw f row col) (f.scale (f.h.at_ row col).1 (f.h.at_ row col).2)).1 := fun row col hr hc => by
      rw [cellRaw_tcrt hg hf hs ha hr hc, hcell, hty, hw, Nat.mod_eq_of_lt (crtElem_f32 _ (f.isInf_scale _ _)).1]
    refine ⟨fun row col hr hc => ⟨⟨_, resValue_standsFor _⟩, fun h => by simp [hty] at h, fun _ => ?_⟩, ?_⟩
    · rw [hread row col hr hc]
      exact (crtElem_f32 _ (f.isInf_scale _ _)).2.2
    · rw [hty, eq_self_iff_true, true_and]
      refine exists_congr fun row => exists_congr fun col => and_congr_right fun hr => and_congr_right fun hc => ?_
      rw [hread row col hr hc, hcell, hty]
      exact (crtElem_f32 _ (f.isInf_scale _ _)).2.1

end

/-- Settles O25: `TRES` and `TCRT` by reading back what they write; the residues by their moduli, the f32 values by the rounding of O17. -/
theorem tileResidues : Obligations.TileResidues := by
  unfold Obligations.TileResidues
  intro h hd ha fr s p g hg
  constructor
  · intro hi hsrc hok hfrag hty hscl
    obtain ⟨hcons, -, hfits, -, -⟩ := id hfrag
    refine ⟨_, _, exec_tres hi hsrc hok hfrag hty hscl rfl rfl, onlyFrag_fragWrites hfits (by simp), fun hapart => ?_⟩
    exact tres_cells hg hfits rfl (by simp [tresHdr]) hcons (headerOk_scl hok) hapart rfl
  · intro hi hsrc hok hfrag hres hspa hty
    obtain ⟨-, -, hfits, -, -⟩ := id hfrag
    have hapart : (tcrtHdr (g.thdr hd) (g.thdr ha)).apart := by
      simp [THdr.apart, THdr.sideRegs, THdr.scaleRegs, THdr.scaleBytes, THdr.metaRegs, THdr.hasList, tcrtHdr]
    exact ⟨_, _, exec_tcrt hi hsrc hok hfrag hres hspa hty rfl, onlyFrag_fragWrites hfits (by simp),
      tcrt_cells hg hfits (by simp [tcrtHdr]) hapart hty rfl rfl⟩

end Sys2Proof.Machine
end

section
/-!
SUPPORT. Narrowing into a tile's format, division by a scale, and the value of an outlier entry, against the real numbers (R88 to R90, R109).
-/
namespace Sys2Proof.Machine

/-! ## Narrowing -/

theorem nearestReal_zero {G E : ℝ → Prop} (h : G 0) : nearestReal .rne G E 0 0 := by
  refine ⟨h, fun v _ => ⟨by simp, fun heq hv => absurd ?_ hv⟩⟩
  exact abs_eq_zero.1 (by simpa using heq.symm)

/-- A number of the grid is its own rounding. -/
theorem eq_of_nearestReal {G E : ℝ → Prop} {y w : ℝ} (h : nearestReal .rne G E y w) (hy : G y) : w = y := by
  have := (h.2 y hy).1
  rw [sub_self, abs_zero] at this
  exact (sub_eq_zero.1 (abs_eq_zero.1 (le_antisymm this (abs_nonneg _)))).symm

theorem Fmt.gridReal_zero (f : Fmt) (lo : Int) : f.gridReal lo 0 := ⟨0, lo, le_rfl, by simp, by simp⟩

/-- A number narrowed into a float format: the code of the nearest number of the grid to a real number A that the number stands for. -/
theorem narrow_num {t : Ty} (ht : tyIsInt t = false) (n : Bool) (m : Nat) (e : Int) {A : ℝ} (h0 : m = 0 → A = 0)
    (hA : m ≠ 0 → (2 : ℝ) ^ ((m.log2 : Int) + e) ≤ A ∧ A < (2 : ℝ) ^ ((m.log2 : Int) + e + 1)
      ∧ SameBeside ((2 : ℝ) ^ (Fmt.ofTy t).unitOf m e / 2) A (m * (2 : ℝ) ^ e)) :
    ∃ w top, nearestReal .rne ((Fmt.ofTy t).gridReal (Fmt.ofTy t).lo) ((Fmt.ofTy t).evenReal (Fmt.ofTy t).lo) (signOf n * A) w
      ∧ (unpack (Fmt.ofTy t) (Fmt.ofTy t).maxc).realIs top
      ∧ (|w| ≤ top → ∃ c, narrow t (.num n m e) = some c ∧ c < 2 ^ ((Fmt.ofTy t).mag + 1) ∧ (unpack (Fmt.ofTy t) c).realIs w
        ∧ (unpack (Fmt.ofTy t) c).neg = n)
      ∧ (top < |w| → narrow t (.num n m e) = none) := by
  have hf := Fmt.sound_ofTy t
  unfold narrow
  rw [if_neg (by simp [ht])]
  dsimp only
  generalize Fmt.ofTy t = f at hf hA ⊢
  have hcode : ∀ c, c ≤ f.maxc → ∃ c', some (signed f n c) = some c' ∧ c' < 2 ^ (f.mag + 1) ∧ (unpack f c').realIs (signOf n * f.magOf c)
      ∧ (unpack f c').neg = n := fun c hc => by
    refine ⟨_, rfl, signed_lt f n c (hc.trans_lt hf.maxc), hf.realIs_signed n hc, ?_⟩
    rw [hf.unpack_signed n c hc]
    rfl
  by_cases hm : m = 0
  · have hz : f.magOf 0 = 0 := by rw [f.magOf_zero 0 (Nat.two_pow_pos _)]; simp
    rw [if_pos hm, h0 hm, mul_zero]
    refine ⟨0, f.magOf f.maxc, nearestReal_zero (f.gridReal_zero _), hf.realIs_maxc, fun _ => ?_, fun h => ?_⟩
    · simpa [hz] using hcode 0 (Nat.zero_le _)
    · rw [abs_zero] at h
      exact absurd h (not_lt.2 (f.magOf_nonneg _))
  · obtain ⟨hl, hl', hsame⟩ := hA hm
    obtain ⟨w, hw0, hw, hsome, hnone⟩ := hf.roundCode_spec .rne n m e hl hl' hsame
    rw [if_neg hm]
    refine ⟨_, f.magOf f.maxc, hw, hf.realIs_maxc, ?_⟩
    rw [abs_signOf_mul, abs_of_nonneg hw0]
    rcases hrc : roundCode f .rne n m e with ⟨rc, ex, tiny⟩
    rw [hrc] at hsome hnone
    cases rc with
    | none => exact ⟨fun h => absurd (hnone rfl) (not_lt.2 h), fun _ => rfl⟩
    | some c =>
      obtain ⟨rfl, -⟩ := hsome c rfl
      rw [f.magOf_strictMono.le_iff_le, f.magOf_strictMono.lt_iff_lt]
      exact ⟨fun h => by simpa [not_lt.2 h] using hcode c h, fun h => if_pos h⟩

/-- The same for the number itself. -/
theorem narrow_num_self {t : Ty} (ht : tyIsInt t = false) (n : Bool) (m : Nat) (e : Int) :
    ∃ w top, nearestReal .rne ((Fmt.ofTy t).gridReal (Fmt.ofTy t).lo) ((Fmt.ofTy t).evenReal (Fmt.ofTy t).lo) (signOf n * (m * (2 : ℝ) ^ e)) w
      ∧ (unpack (Fmt.ofTy t) (Fmt.ofTy t).maxc).realIs top
      ∧ (|w| ≤ top → ∃ c, narrow t (.num n m e) = some c ∧ c < 2 ^ ((Fmt.ofTy t).mag + 1) ∧ (unpack (Fmt.ofTy t) c).realIs w
        ∧ (unpack (Fmt.ofTy t) c).neg = n)
      ∧ (top < |w| → narrow t (.num n m e) = none) :=
  narrow_num ht n m e (fun h => by simp [h]) fun hm => ⟨(binade m e hm).1, (binade m e hm).2, SameBeside.rfl _ _⟩

/-! ## Division by a scale -/

theorem Fmt.Sound.unpack_of_le_maxc {f : Fmt} (hf : f.Sound) {c : Nat} (hc : c ≤ f.maxc) : unpack f c = .num false (f.sig c) (f.exp c) := by
  simpa [signed] using hf.unpack_signed false c hc

theorem Fmt.sig_lt (f : Fmt) (c : Nat) : f.sig c < 2 ^ (f.mb + 1) := by
  have := Nat.mod_lt c (Nat.two_pow_pos f.mb)
  rw [Fmt.sig, pow_succ]
  split <;> omega

theorem Fmt.sig_ne_zero (f : Fmt) {c : Nat} (hc : c ≠ 0) : f.sig c ≠ 0 := by
  have hpos := Nat.two_pow_pos f.mb
  rw [Fmt.sig]
  split
  · next h =>
    rw [Nat.mod_eq_of_lt ((Nat.div_eq_zero_iff_lt hpos).1 h)]
    exact hc
  · omega

/-- A number with a sticky last bit has the binade of what it stands for, and lies beside it on the same side of every midpoint. -/
theorem sticky_spec {Q : Nat} {E q : Int} {A : ℝ} (hQ : 2 ^ 156 ≤ Q) (hlo : (2 * Q : ℝ) * (2 : ℝ) ^ E < A) (hhi : A < (2 * Q + 2 : ℝ) * (2 : ℝ) ^ E)
    (hq : ((2 * Q + 1).log2 : Int) + E - 30 ≤ q) : (2 : ℝ) ^ (((2 * Q + 1).log2 : Int) + E) ≤ A
      ∧ A < (2 : ℝ) ^ (((2 * Q + 1).log2 : Int) + E + 1) ∧ SameBeside ((2 : ℝ) ^ q / 2) A ((2 * Q + 1 : Nat) * (2 : ℝ) ^ E) := by
  have hlog : 156 ≤ (2 * Q + 1).log2 := (Nat.le_log2 (by omega)).2 (by omega)
  obtain ⟨L, hL⟩ : ∃ L, (2 * Q + 1).log2 = L + 1 := ⟨(2 * Q + 1).log2 - 1, by omega⟩
  have hlow : 2 ^ (L + 1) ≤ 2 * Q := by
    have := Nat.log2_self_le (n := 2 * Q + 1) (by omega)
    rw [hL, pow_succ] at this
    rw [pow_succ]
    omega
  have hhigh : 2 * Q + 2 ≤ 2 ^ (L + 1 + 1) := by
    have := Nat.lt_log2_self (n := 2 * Q + 1)
    rw [hL, pow_succ] at this
    rw [pow_succ]
    omega
  have hE := two_zpow_pos E
  have hsplit : ∀ k : Nat, (2 : ℝ) ^ ((k : Int) + E) = 2 ^ k * (2 : ℝ) ^ E := fun k => by
    rw [zpow_add₀ (by norm_num), zpow_natCast]
  refine ⟨?_, ?_, ?_⟩
  · rw [hL, hsplit]
    refine le_trans (mul_le_mul_of_nonneg_right ?_ hE.le) hlo.le
    exact_mod_cast hlow
  · rw [hL, show ((L + 1 : Nat) : Int) + E + 1 = ((L + 1 + 1 : Nat) : Int) + E by push_cast; ring, hsplit]
    refine hhi.trans_le (mul_le_mul_of_nonneg_right ?_ hE.le)
    exact_mod_cast hhigh
  · have hhalf : (2 : ℝ) ^ q / 2 = (2 : ℝ) ^ (q - 1) := by
      rw [zpow_sub_one₀ (by norm_num)]
      rfl
    rw [hhalf]
    exact SameBeside.of_sticky (by omega) hlo hhi

/-- The quotient by d × 2^f that `divScale` makes has the real quotient's binade, and lies beside it on the same side of every midpoint. -/
theorem divScale_spec (m : Nat) (e : Int) {d : Nat} (f : Int) (hm : m ≠ 0) (hd : d ≠ 0) (hd16 : d < 16) {M : Nat} {A : ℝ}
    (hM : M = 2 * (m * 2 ^ 160 / d) + if m * 2 ^ 160 % d = 0 then 0 else 1) (hA : A = m * (2 : ℝ) ^ e / (d * (2 : ℝ) ^ f)) {q : Int}
    (hq : (M.log2 : Int) + (e - f - 161) - 30 ≤ q) : (2 : ℝ) ^ ((M.log2 : Int) + (e - f - 161)) ≤ A
      ∧ A < (2 : ℝ) ^ ((M.log2 : Int) + (e - f - 161) + 1) ∧ SameBeside ((2 : ℝ) ^ q / 2) A (M * (2 : ℝ) ^ (e - f - 161)) := by
  have hdpos : 0 < d := Nat.pos_of_ne_zero hd
  have hQ : 2 ^ 156 ≤ m * 2 ^ 160 / d := by
    rw [Nat.le_div_iff_mul_le hdpos]
    calc 2 ^ 156 * d ≤ 2 ^ 156 * 16 := by omega
      _ = 1 * 2 ^ 160 := by norm_num
      _ ≤ m * 2 ^ 160 := Nat.mul_le_mul_right _ (Nat.pos_of_ne_zero hm)
  have hdiv : (d : ℝ) * (m * 2 ^ 160 / d : Nat) + (m * 2 ^ 160 % d : Nat) = m * 2 ^ 160 := by exact_mod_cast Nat.div_add_mod (m * 2 ^ 160) d
  have hr : ((m * 2 ^ 160 % d : Nat) : ℝ) < d := by exact_mod_cast Nat.mod_lt _ hdpos
  have hd0 : (0 : ℝ) < d := by exact_mod_cast hdpos
  have hA' : A = 2 * ((m : ℝ) * 2 ^ 160 / d) * (2 : ℝ) ^ (e - f - 161) := by
    have hpow : (2 : ℝ) ^ (e - f - 161) = (2 : ℝ) ^ e / (2 : ℝ) ^ f / (2 ^ 160 * 2) := by
      rw [zpow_sub₀ (by norm_num), zpow_sub₀ (by norm_num)]
      norm_num
    have := two_zpow_ne_zero f
    rw [hA, hpow]
    field_simp
  rw [← hdiv] at hA'
  generalize e - f - 161 = E at *
  generalize m * 2 ^ 160 / d = Q at *
  generalize m * 2 ^ 160 % d = r at *
  by_cases hr0 : r = 0
  · have hAM : A = M * (2 : ℝ) ^ E := by
      rw [hA', hM, hr0, if_pos rfl, Nat.cast_zero, add_zero, add_zero, mul_div_cancel_left₀ _ hd0.ne']
      push_cast
      rfl
    have hM0 : M ≠ 0 := by omega
    rw [hAM]
    exact ⟨(binade M E hM0).1, (binade M E hM0).2, SameBeside.rfl _ _⟩
  · rw [if_neg hr0] at hM
    subst hM
    have hX : (Q : ℝ) < (d * Q + r) / d ∧ ((d : ℝ) * Q + r) / d < Q + 1 := by
      have hrpos : (0 : ℝ) < r := by exact_mod_cast Nat.pos_of_ne_zero hr0
      rw [lt_div_iff₀ hd0, div_lt_iff₀ hd0]
      constructor <;> nlinarith
    have hE := two_zpow_pos E
    refine sticky_spec hQ ?_ ?_ hq
    · rw [hA', mul_lt_mul_iff_left₀ hE]
      linarith [hX.1]
    · rw [hA', mul_lt_mul_iff_left₀ hE]
      linarith [hX.2]

theorem scaleDown_of_pow {scl : Nat} (h0 : scl ≠ 0) (h4 : scl ≠ 4) (code : Nat) (n : Bool) (m : Nat) (e : Int) :
    scaleDown scl code (.num n m e) = .num n m (e - (code : Int) + 127) := by
  unfold scaleDown
  split
  · exact absurd rfl h0
  · exact absurd rfl h4
  · rfl

theorem scaleDown_of_not_num (scl code : Nat) {v : FVal} (hv : ∀ n m e, v ≠ .num n m e) : scaleDown scl code v = v := by
  unfold scaleDown
  split
  · rfl
  · cases v with
    | num n m e => exact absurd rfl (hv n m e)
    | nan _ => rfl
    | inf _ => rfl
  · cases v with
    | num n m e => exact absurd rfl (hv n m e)
    | nan _ => rfl
    | inf _ => rfl

theorem narrowsTo_int {t : Ty} (ht : tyIsInt t = true) (n : Bool) (m : Nat) (e : Int) : narrowsTo t (.num n m e) 1 (narrow t (.num n m e)) := by
  intro y hy
  rw [if_pos ht, div_one, (FVal.realIs_num n m e y).1 hy, mul_assoc]
  refine ⟨(roundInt .rne n m e).1, (nearestReal_roundInt .rne n m e).1, ?_⟩
  unfold narrow
  rw [if_pos ht]
  dsimp only
  generalize (roundInt .rne n m e).1 = r
  have hout : (r < tyMin t || tyMax t < r) = true ↔ r < tyMin t ∨ tyMax t < r := by simp
  constructor
  · intro hlo hhi
    rw [if_neg (hout.not.2 (by omega))]
    refine ⟨_, rfl, ?_⟩
    have hpos : (0 : Int) < 2 ^ tyWidth t := by positivity
    rw [Wraps, wrap, Int.toNat_of_nonneg (Int.emod_nonneg _ hpos.ne'), Int.emod_sub_emod, sub_self, Int.zero_emod]
  · intro h
    rw [if_pos (hout.2 h)]

theorem Fmt.mb_ofTy_le (t : Ty) : (Fmt.ofTy t).mb ≤ 23 := by cases t <;> decide

/-- The number that an e4m3 scale's code stands for. -/
theorem e4m3_code {code : Nat} (hlo : 1 ≤ code) (hhi : code ≤ 0x7E) : unpack fmtE4m3 code = .num false (fmtE4m3.sig code) (fmtE4m3.exp code)
    ∧ fmtE4m3.sig code ≠ 0 ∧ fmtE4m3.sig code < 16 :=
  ⟨(Fmt.sound_of_mem (by simp) : fmtE4m3.Sound).unpack_of_le_maxc hhi, fmtE4m3.sig_ne_zero (by omega), fmtE4m3.sig_lt code⟩

theorem narrowsTo_pow {t : Ty} (ht : tyIsInt t = false) (n : Bool) (m : Nat) (e k : Int) {sc : ℝ} (hsc : sc = (2 : ℝ) ^ k) :
    narrowsTo t (.num n m e) sc (narrow t (.num n m (e - k))) := by
  intro y hy
  rw [if_neg (by simp [ht]), (FVal.realIs_num n m e y).1 hy, hsc, mul_assoc, mul_div_assoc, mul_div_assoc, ← zpow_sub₀ (by norm_num)]
  exact narrow_num_self ht n m (e - k)

theorem narrowsTo_e4m3 {t : Ty} (ht : tyIsInt t = false) (n : Bool) (m : Nat) (e : Int) {code : Nat} (hlo : 1 ≤ code) (hhi : code ≤ 0x7E)
    {sc : ℝ} (hsc : (unpack fmtE4m3 code).realIs sc) : narrowsTo t (.num n m e) sc (narrow t (scaleDown 4 code (.num n m e))) := by
  obtain ⟨hu, hd, hd16⟩ := e4m3_code hlo hhi
  intro y hy
  rw [hu, FVal.realIs_num, signOf_false, one_mul] at hsc
  show if _ then _ else _
  rw [if_neg (by simp [ht]), show scaleDown 4 code (.num n m e) = divScale (.num n m e) (unpack fmtE4m3 code) from rfl, hu, divScale]
  dsimp only
  rw [if_neg hd, Bool.bne_false, (FVal.realIs_num n m e y).1 hy, hsc, mul_assoc, mul_div_assoc]
  refine narrow_num ht n _ _ (fun hM => ?_) fun hM => ?_
  · have hm : m = 0 := by
      by_contra hm
      have hQ : m * 2 ^ 160 / fmtE4m3.sig code = 0 := by omega
      have := (Nat.div_eq_zero_iff_lt (Nat.pos_of_ne_zero hd)).1 hQ
      omega
    simp [hm]
  · have hm : m ≠ 0 := fun hm => hM (by simp [hm])
    refine divScale_spec m e _ hm hd hd16 rfl rfl (le_trans ?_ (le_max_left _ _))
    have := Fmt.mb_ofTy_le t
    omega

/-- A value over its scale, narrowed into a format (R88, R109). -/
theorem narrowsTo_narrow {t : Ty} {scl code : Nat} {sc : ℝ} (v : FVal) (hint : tyIsInt t = true → scl = 0)
    (hcode : scl = 4 → 1 ≤ code ∧ code ≤ 0x7E) (hsc : codeScale scl code sc) : narrowsTo t v sc (narrow t (scaleDown scl code v)) := by
  have hf := Fmt.sound_ofTy t
  cases v with
  | nan s =>
    rw [scaleDown_of_not_num _ _ (by simp)]
    show narrow t (.nan s) = _
    unfold narrow
    split <;> rfl
  | inf n =>
    rw [scaleDown_of_not_num _ _ (by simp)]
    show (_ ↔ _) ∧ ∀ c, _ → _
    unfold narrow
    by_cases ht : tyIsInt t = true
    · simp [ht]
    · by_cases hinf : (Fmt.ofTy t).inf = true
      · simp only [ht, hinf, if_true, if_false, Bool.false_eq_true]
        exact ⟨by simp, fun c hc => Option.some.inj hc ▸ ⟨signed_lt _ _ _ (hf.inf hinf), hf.unpack_inf n hinf⟩⟩
      · simp [ht, hinf]
  | num n m e =>
    by_cases ht : tyIsInt t = true
    · obtain rfl := hint ht
      obtain rfl : sc = 1 := hsc
      exact narrowsTo_int ht n m e
    · have ht : tyIsInt t = false := by simpa using ht
      by_cases h0 : scl = 0
      · subst h0
        obtain rfl : sc = 1 := hsc
        have := narrowsTo_pow ht n m e 0 (zpow_zero (2 : ℝ)).symm
        rwa [sub_zero] at this
      by_cases h4 : scl = 4
      · subst h4
        exact narrowsTo_e4m3 ht n m e (hcode rfl).1 (hcode rfl).2 hsc
      · have hpow : sc = (2 : ℝ) ^ ((code : Int) - 127) := by
          unfold codeScale at hsc
          split at hsc
          · exact absurd rfl h0
          · exact absurd rfl h4
          · exact hsc.2
        rw [scaleDown_of_pow h0 h4, show e - (code : Int) + 127 = e - ((code : Int) - 127) by ring]
        exact narrowsTo_pow ht n m e _ hpow

/-! ## The value of an outlier entry -/

/-- A number that f32 has is its own rounding. -/
theorem roundTo_of_representable (n : Bool) (m : Nat) (e : Int) {c : Nat} {y : ℝ} (hy : (FVal.num n m e).realIs y)
    (hc : (unpack fmtF32 c).realIs y) : (roundTo fmtF32 .rne (.num n m e)).2 = 0 ∧ (unpack fmtF32 (roundTo fmtF32 .rne (.num n m e)).1).realIs y := by
  have hf : fmtF32.Sound := Fmt.sound_of_mem (by simp)
  by_cases hm : m = 0
  · subst hm
    rw [roundTo_zero, hf.unpack_signed_zero, (realIs_num_eq_zero hy).2 rfl, FVal.realIs_num]
    exact ⟨rfl, by simp⟩
  have hle : c % 2 ^ fmtF32.mag ≤ fmtF32.maxc := by
    by_contra hgt
    unfold unpack at hc
    dsimp only at hc
    rw [if_pos (not_le.1 hgt)] at hc
    split at hc
    · exact FVal.not_realIs_inf _ _ hc
    · exact FVal.not_realIs_nan _ _ hc
  rw [unpack_of_le _ _ hle] at hc
  have habs := abs_realIs_num hc
  have hgrid : fmtF32.gridReal fmtF32.lo y := by
    refine ⟨(if bit c fmtF32.mag then -1 else 1) * (fmtF32.sig (c % 2 ^ fmtF32.mag) : Int), fmtF32.exp (c % 2 ^ fmtF32.mag), fmtF32.lo_le_exp _, ?_, ?_⟩
    · have := fmtF32.sig_lt (c % 2 ^ fmtF32.mag)
      cases bit c fmtF32.mag <;> simpa using this
    · rw [(FVal.realIs_num _ _ _ y).1 hc]
      cases bit c fmtF32.mag <;> simp
  obtain ⟨w, t, hw0, -, hw, -, -, hr⟩ := hf.roundTo_spec .rne n m e hm
  have hyA : y = signOf n * (m * (2 : ℝ) ^ e) := ((FVal.realIs_num n m e y).1 hy).trans (mul_assoc _ _ _)
  rw [← hyA] at hw
  have hwy : y = signOf n * w := (eq_of_nearestReal hw hgrid).symm
  have hwA : w = m * (2 : ℝ) ^ e := mul_left_cancel₀ (show signOf n ≠ 0 by cases n <;> simp) (hwy.symm.trans hyA)
  have htop : w ≤ fmtF32.magOf fmtF32.maxc := by
    rw [hwA, ← abs_realIs_num hy, habs]
    exact fmtF32.magOf_strictMono.monotone hle
  obtain ⟨c', hc', hz, hcw⟩ := hr.code htop
  rw [hz, hwy, ← hcw]
  exact ⟨hr.exact htop hwA, hf.realIs_signed n hc'⟩

theorem entryValue_num_int {t : Ty} (ht : tyIsInt t = true) (n : Bool) (m : Nat) (e : Int) : entryValue t (.num n m e)
    = if !(roundInt .rne n m e).2 || (roundInt .rne n m e).1 < -(2 ^ 31) || 2 ^ 31 ≤ (roundInt .rne n m e).1 then none
      else some (wrap 32 (roundInt .rne n m e).1) := by
  unfold entryValue
  rw [if_pos ht]

theorem entryValue_num_float {t : Ty} (ht : tyIsInt t = false) (n : Bool) (m : Nat) (e : Int) : entryValue t (.num n m e)
    = if (roundTo fmtF32 .rne (.num n m e)).2 &&& fNX = 0 then some (roundTo fmtF32 .rne (.num n m e)).1 else none := by
  unfold entryValue
  rw [if_neg (by simp [ht])]

theorem entryHolds_num_int {t : Ty} (ht : tyIsInt t = true) (n : Bool) (m : Nat) (e : Int) :
    (∀ x, entryValue t (.num n m e) = some x → x < 2 ^ 32 ∧ entryHolds t (.num n m e) x)
    ∧ (entryValue t (.num n m e) = none → ∀ x, entryHolds t (.num n m e) x) := by
  rw [entryValue_num_int ht]
  obtain ⟨hnear, hex⟩ := nearestReal_roundInt .rne n m e
  have hint : ∀ (y : ℝ) (j : Int), (FVal.num n m e).realIs y → y = j →
      (roundInt .rne n m e).2 = true ∧ (roundInt .rne n m e).1 = j := fun y j hy hj => by
    have hyA : y = signOf n * (m * (2 : ℝ) ^ e) := ((FVal.realIs_num n m e y).1 hy).trans (mul_assoc _ _ _)
    have heq := eq_of_nearestReal hnear (hyA ▸ ⟨j, hj⟩)
    exact ⟨hex.2 heq, by exact_mod_cast heq.trans (hyA.symm.trans hj)⟩
  generalize (roundInt .rne n m e).1 = r at hint ⊢
  generalize (roundInt .rne n m e).2 = ex at hint ⊢
  constructor
  · intro x hx
    split at hx
    · cases hx
    · obtain rfl := Option.some.inj hx
      refine ⟨by unfold wrap; omega, fun y hy => ?_⟩
      rw [if_pos ht]
      intro j hj hlo hhi
      obtain rfl := (hint y j hy hj).2
      unfold sgn wrap
      split <;> omega
  · intro hnone x y hy
    rw [if_pos ht]
    intro j hj hlo hhi
    obtain ⟨rfl, rfl⟩ := hint y j hy hj
    split at hnone
    · next h =>
      simp only [Bool.not_true, Bool.false_or, Bool.or_eq_true, decide_eq_true_eq] at h
      omega
    · cases hnone

theorem entryHolds_num_float {t : Ty} (ht : tyIsInt t = false) (n : Bool) (m : Nat) (e : Int) :
    (∀ x, entryValue t (.num n m e) = some x → x < 2 ^ 32 ∧ entryHolds t (.num n m e) x)
    ∧ (entryValue t (.num n m e) = none → ∀ x, entryHolds t (.num n m e) x) := by
  have hf : fmtF32.Sound := Fmt.sound_of_mem (by simp)
  rw [entryValue_num_float ht]
  have hlt := (hf.isInf_roundTo rfl n m e).1
  have hrep : ∀ y, (FVal.num n m e).realIs y → (∃ c, (unpack fmtF32 c).realIs y) → (roundTo fmtF32 .rne (.num n m e)).2 = 0
      ∧ (unpack fmtF32 (roundTo fmtF32 .rne (.num n m e)).1).realIs y := fun y hy ⟨c, hc⟩ => roundTo_of_representable n m e hy hc
  constructor
  · intro x hx
    split at hx
    · obtain rfl := Option.some.inj hx
      refine ⟨hlt, fun y hy => ?_⟩
      rw [if_neg (by simp [ht])]
      exact fun hc => (hrep y hy hc).2
    · cases hx
  · intro hnone x y hy
    rw [if_neg (by simp [ht])]
    intro hc
    rw [(hrep y hy hc).1] at hnone
    cases hnone

/-- An entry has the element's value where its class has that value (R89). -/
theorem entryHolds_entryValue (t : Ty) (v : FVal) : (∀ x, entryValue t v = some x → x < 2 ^ 32 ∧ entryHolds t v x)
    ∧ (entryValue t v = none → ∀ x, entryHolds t v x) := by
  have hf : fmtF32.Sound := Fmt.sound_of_mem (by simp)
  by_cases ht : tyIsInt t = true
  · cases v with
    | nan s => exact ⟨fun x hx => by simp [entryValue, ht] at hx, fun _ x h => by simp [ht] at h⟩
    | inf n => exact ⟨fun x hx => by simp [entryValue, ht] at hx, fun _ x h => by simp [ht] at h⟩
    | num n m e => exact entryHolds_num_int ht n m e
  · have ht : tyIsInt t = false := by simpa using ht
    cases v with
    | nan s =>
      have hval : entryValue t (.nan s) = some 0x7FC00000 := by simp [entryValue, ht]
      rw [hval]
      exact ⟨fun x hx => Option.some.inj hx ▸ ⟨by norm_num, fun _ => rfl⟩, fun h => by simp at h⟩
    | inf n =>
      have hval : entryValue t (.inf n) = some (signed fmtF32 n fmtF32.infCode) := by
        unfold entryValue
        rw [if_neg (by simp [ht])]
        dsimp only
        rw [show roundTo fmtF32 .rne (.inf n) = (signed fmtF32 n fmtF32.infCode, 0) from rfl]
        exact if_pos (show (0 : Flags) &&& fNX = 0 by decide)
      rw [hval]
      exact ⟨fun x hx => Option.some.inj hx ▸ ⟨signed_lt _ _ _ (hf.inf rfl), fun _ => hf.unpack_inf n rfl⟩, fun h => by simp at h⟩
    | num n m e => exact entryHolds_num_float ht n m e

end Sys2Proof.Machine
end

section
/-!
SUPPORT. The scale of a block: the least that brings its values within the format (R109).
-/
namespace Sys2Proof.Machine

/-! ## Comparing numbers -/

/-- The key by which `cmpVal` compares, in a unit. -/
def cmpKey (s : Bool) (m : Nat) (e q : Int) : Int := if m = 0 then 0 else scaleTo s m e q

theorem inUnit_cmpKey (s : Bool) (m : Nat) (e q : Int) (h : m ≠ 0 → q ≤ e) : inUnit q (cmpKey s m e q) = signOf s * (m * (2 : ℝ) ^ e) := by
  unfold cmpKey
  split
  · next hm => simp [hm, inUnit_zero]
  · next hm => exact scaleTo_inUnit s m e q (h hm)

theorem cmpVal_num (s t : Bool) (m n : Nat) (e k : Int) : ∃ q, (m ≠ 0 → q ≤ e) ∧ (n ≠ 0 → q ≤ k)
    ∧ (cmpVal (.num s m e) (.num t n k) ≤ 0 ↔ cmpKey s m e q ≤ cmpKey t n k q) := by
  refine ⟨if m = 0 then k else if n = 0 then e else min e k, ?_, ?_, ?_⟩
  · split <;> [omega; split <;> omega]
  · split <;> [omega; split <;> omega]
  · show (if cmpKey s m e _ - cmpKey t n k _ < 0 then (-1 : Int) else if cmpKey s m e _ - cmpKey t n k _ = 0 then 0 else 1) ≤ 0 ↔ _
    split <;> [skip; split] <;> omega

/-- The comparison is that of the numbers. -/
theorem cmpVal_le_zero {a b : FVal} {x y : ℝ} (ha : a.realIs x) (hb : b.realIs y) : cmpVal a b ≤ 0 ↔ x ≤ y := by
  obtain ⟨s, m, e, rfl, -⟩ := id ha
  obtain ⟨t, n, k, rfl, -⟩ := id hb
  obtain ⟨q, hqe, hqk, hcmp⟩ := cmpVal_num s t m n e k
  rw [hcmp, ← inUnit_le q, inUnit_cmpKey _ _ _ _ hqe, inUnit_cmpKey _ _ _ _ hqk, (FVal.realIs_num s m e x).1 ha,
    (FVal.realIs_num t n k y).1 hb, mul_assoc, mul_assoc]

/-! ## The least code that fits -/

/-- The least of the codes from `low` that passes, or the last. -/
def leastCode (P : Nat → Bool) (low count : Nat) : Nat := low + ((upTo count).find? (fun i => P (low + i))).getD (count - 1)

theorem leastCode_spec (P : Nat → Bool) (low count : Nat) (h : 0 < count) : low ≤ leastCode P low count ∧ leastCode P low count ≤ low + (count - 1)
    ∧ (P (leastCode P low count) = true ∨ leastCode P low count = low + (count - 1))
    ∧ ∀ c, low ≤ c → c < leastCode P low count → P c = false := by
  unfold leastCode upTo
  cases hfind : (List.range count).find? (fun i => P (low + i)) with
  | none =>
    rw [List.find?_range_eq_none] at hfind
    refine ⟨by simp, by simp, .inr rfl, fun c hlo hlt => ?_⟩
    have := hfind (c - low) (by simp at hlt; omega)
    rwa [Nat.add_sub_cancel' hlo, Bool.not_eq_true'] at this
  | some i =>
    rw [List.find?_range_eq_some] at hfind
    obtain ⟨hp, hi, hmin⟩ := hfind
    have := List.mem_range.1 hi
    refine ⟨by simp, by simp; omega, .inl hp, fun c hlo hlt => ?_⟩
    have := hmin (c - low) (by simp at hlt; omega)
    rwa [Nat.add_sub_cancel' hlo, Bool.not_eq_true'] at this

/-! ## The code of a block -/

/-- The finite values but zeros. -/
def finiteVals (xs : List FVal) : List FVal := xs.filter (fun x => !x.isNaN && !x.isInf && !x.isZero)

theorem mem_finiteVals {xs : List FVal} {x : FVal} : x ∈ finiteVals xs ↔ x ∈ xs ∧ ∃ y, x.realIs y ∧ y ≠ 0 := by
  rw [finiteVals, List.mem_filter]
  refine and_congr_right fun _ => ?_
  cases x with
  | nan s => exact iff_of_false (by simp [FVal.isNaN]) fun ⟨y, hy, _⟩ => FVal.not_realIs_nan s y hy
  | inf n => exact iff_of_false (by simp [FVal.isInf]) fun ⟨y, hy, _⟩ => FVal.not_realIs_inf n y hy
  | num n m e =>
    simp only [FVal.isNaN, FVal.isInf, FVal.isZero, Bool.not_false, Bool.true_and, Bool.not_eq_true', beq_eq_false_iff_ne]
    exact ⟨fun hm => ⟨_, FVal.realIs_num_self n m e, (realIs_num_eq_zero (FVal.realIs_num_self n m e)).not.2 hm⟩,
      fun ⟨y, hy, h0⟩ => (realIs_num_eq_zero hy).not.1 h0⟩

/-- Does a value over an e4m3 scale stay within a format? -/
def fitsE4m3 (t : Ty) (c : Nat) : FVal → Bool
  | .num _ m e => decide (cmpVal (.num false m e)
    (mulVal (if tyIsInt t then FVal.ofInt (tyMax t) else unpack (Fmt.ofTy t) (Fmt.ofTy t).maxc) (unpack fmtE4m3 c)).1 ≤ 0)
  | _ => true

/-- Do all values of a block fit over the scale of a code? -/
def codeFits (scl : Nat) (t : Ty) (xs : List FVal) (c : Nat) : Bool :=
  (finiteVals xs).all (fun x => if scl = 4 then fitsE4m3 t c x else fitsAt t x ((c : Int) - 127))

/-- The code of a block's scale. -/
def blockCode (scl : Nat) (t : Ty) (xs : List FVal) : Nat := if scl = 4 then blockE4m3 t xs else (blockExp t xs + 127).toNat

theorem blockCode_of_empty {xs : List FVal} (scl : Nat) (t : Ty) (h : finiteVals xs = []) : blockCode scl t xs = if scl = 4 then 0x38 else 127 := by
  have he : blockExp t xs = 0 := by
    unfold blockExp
    exact if_pos (List.isEmpty_iff.2 h)
  have h4 : blockE4m3 t xs = 0x38 := by
    unfold blockE4m3
    exact if_pos (List.isEmpty_iff.2 h)
  rw [blockCode, he, h4]
  rfl

theorem blockCode_of_ne_empty {xs : List FVal} (scl : Nat) (t : Ty) (h : finiteVals xs ≠ []) :
    blockCode scl t xs = leastCode (codeFits scl t xs) (if scl = 4 then 1 else 0) (if scl = 4 then 0x7E else 255) := by
  have hne : ¬ (finiteVals xs).isEmpty = true := List.isEmpty_iff.not.2 h
  unfold blockCode
  by_cases h4 : scl = 4
  · subst h4
    rw [if_pos rfl, if_pos rfl, if_pos rfl]
    have hb : blockE4m3 t xs = (((upTo 0x7E).map (· + 1)).find? (codeFits 4 t xs)).getD 0x7E := by
      unfold blockE4m3
      exact if_neg hne
    have hfun : codeFits 4 t xs ∘ (· + 1) = fun i => codeFits 4 t xs (1 + i) := funext fun i => by rw [Function.comp, Nat.add_comm]
    rw [hb, List.find?_map, hfun, leastCode]
    cases (upTo 0x7E).find? (fun i => codeFits 4 t xs (1 + i)) with
    | none => rfl
    | some i => exact Nat.add_comm i 1
  · rw [if_neg h4, if_neg h4, if_neg h4]
    have hb : blockExp t xs = (((upTo 255).map (fun k : Nat => (k : Int) - 127)).find? (fun n => (finiteVals xs).all (fun x => fitsAt t x n))).getD 127 := by
      unfold blockExp
      exact if_neg hne
    have hfun : (fun n => (finiteVals xs).all (fun x => fitsAt t x n)) ∘ (fun k : Nat => (k : Int) - 127) = fun i => codeFits scl t xs (0 + i) :=
      funext fun i => by simp only [Function.comp, codeFits, if_neg h4, Nat.zero_add]
    rw [hb, List.find?_map, hfun, leastCode]
    cases (upTo 255).find? (fun i => codeFits scl t xs (0 + i)) with
    | none => rfl
    | some i =>
      show ((i : Int) - 127 + 127).toNat = 0 + i
      omega

/-! ## The code against the real numbers -/

/-- The magnitudes of a block's values, over a scale, stay at or below a bound. -/
def Within (xs : List FVal) (sc top : ℝ) : Prop := ∀ x ∈ xs, ∀ y, x.realIs y → |y| ≤ sc * top

theorem within_iff_finiteVals {xs : List FVal} {sc top : ℝ} (h : 0 ≤ sc * top) :
    Within xs sc top ↔ ∀ x ∈ finiteVals xs, ∀ y, x.realIs y → |y| ≤ sc * top := by
  refine ⟨fun hall x hx => hall x (mem_finiteVals.1 hx).1, fun hall x hx y hy => ?_⟩
  by_cases h0 : y = 0
  · rw [h0, abs_zero]
    exact h
  · exact hall x (mem_finiteVals.2 ⟨hx, y, hy, h0⟩) y hy

theorem FVal.realIs_abs {n : Bool} {m : Nat} {e : Int} {y : ℝ} (h : (FVal.num n m e).realIs y) (k : Int) :
    (FVal.num false m (e - k)).realIs (|y| / (2 : ℝ) ^ k) := by
  rw [FVal.realIs_num, abs_realIs_num h, zpow_sub₀ (by norm_num), signOf_false]
  ring

section
variable {t : Ty} {top : ℝ}

theorem fitsAt_iff (ht : tyIsInt t = false) (htop : (unpack (Fmt.ofTy t) (Fmt.ofTy t).maxc).realIs top) {x : FVal} {y : ℝ} (hx : x.realIs y)
    (k : Int) : fitsAt t x k = true ↔ |y| ≤ (2 : ℝ) ^ k * top := by
  obtain ⟨n, m, e, rfl, -⟩ := id hx
  unfold fitsAt
  rw [if_neg (by simp [ht]), decide_eq_true_eq, cmpVal_le_zero (FVal.realIs_abs hx k) htop, div_le_iff₀' (two_zpow_pos k)]

theorem fitsE4m3_iff (ht : tyIsInt t = false) (htop : (unpack (Fmt.ofTy t) (Fmt.ofTy t).maxc).realIs top) {x : FVal} {y sc : ℝ} (hx : x.realIs y)
    {c : Nat} (hc : (unpack fmtE4m3 c).realIs sc) : fitsE4m3 t c x = true ↔ |y| ≤ sc * top := by
  obtain ⟨n, m, e, rfl, -⟩ := id hx
  obtain ⟨n', m', e', hmul, hval⟩ := mulVal_realIs htop hc
  have habs : (FVal.num false m e).realIs |y| := by
    have := FVal.realIs_abs hx 0
    rwa [sub_zero, zpow_zero, div_one] at this
  have hprod : (FVal.num n' m' e').realIs (sc * top) := by
    rw [FVal.realIs_num, mul_comm sc, ← hval, mul_assoc]
  unfold fitsE4m3
  rw [if_neg (by simp [ht]), decide_eq_true_eq, hmul, cmpVal_le_zero habs hprod]

/-- A code fits exactly if the values over its scale stay within the format. -/
theorem codeFits_iff (ht : tyIsInt t = false) (htop : (unpack (Fmt.ofTy t) (Fmt.ofTy t).maxc).realIs top) {scl c : Nat} {sc : ℝ}
    (h0 : scl ≠ 0) (h4 : scl = 4 → c ≤ 0x7E) (hsc : codeScale scl c sc) (xs : List FVal) : codeFits scl t xs c = true ↔ Within xs sc top := by
  have htop0 : 0 ≤ top := FVal.realIs_unique htop (Fmt.sound_ofTy t).realIs_maxc ▸ Fmt.magOf_nonneg _ _
  unfold codeFits
  by_cases hs : scl = 4
  · subst hs
    have he4 : fmtE4m3.Sound := Fmt.sound_of_mem (by simp)
    have hsc : (unpack fmtE4m3 c).realIs sc := hsc
    have hsc0 : 0 ≤ sc := by
      rw [he4.unpack_of_le_maxc (h4 rfl), FVal.realIs_num, signOf_false, one_mul] at hsc
      exact hsc ▸ Fmt.magOf_nonneg _ _
    rw [within_iff_finiteVals (mul_nonneg hsc0 htop0), List.all_eq_true]
    refine forall₂_congr fun x hx => ?_
    obtain ⟨-, y, hy, -⟩ := mem_finiteVals.1 hx
    rw [if_pos rfl, fitsE4m3_iff ht htop hy hsc]
    exact ⟨fun h z hz => FVal.realIs_unique hy hz ▸ h, fun h => h y hy⟩
  · have hpow : sc = (2 : ℝ) ^ ((c : Int) - 127) := by
      unfold codeScale at hsc
      split at hsc
      · exact absurd rfl h0
      · exact absurd rfl hs
      · exact hsc.2
    have hsc0 : 0 ≤ sc := hpow ▸ (two_zpow_pos _).le
    rw [within_iff_finiteVals (mul_nonneg hsc0 htop0), List.all_eq_true]
    refine forall₂_congr fun x hx => ?_
    obtain ⟨-, y, hy, -⟩ := mem_finiteVals.1 hx
    rw [if_neg hs, fitsAt_iff ht htop hy, hpow]
    exact ⟨fun h z hz => FVal.realIs_unique hy hz ▸ h, fun h => h y hy⟩

end

theorem blockCode_bounds (scl : Nat) (t : Ty) (xs : List FVal) : (if scl = 4 then 1 else 0) ≤ blockCode scl t xs
    ∧ blockCode scl t xs ≤ if scl = 4 then 0x7E else 254 := by
  by_cases he : finiteVals xs = []
  · rw [blockCode_of_empty scl t he]
    split <;> omega
  · obtain ⟨hlo, hhi, -⟩ := leastCode_spec (codeFits scl t xs) (if scl = 4 then 1 else 0) (if scl = 4 then 0x7E else 255) (by split <;> omega)
    rw [blockCode_of_ne_empty scl t he]
    refine ⟨hlo, hhi.trans ?_⟩
    split <;> omega

theorem codeScale_one {scl : Nat} (h0 : scl ≠ 0) : codeScale scl (if scl = 4 then 0x38 else 127) 1 := by
  unfold codeScale
  split
  · exact absurd rfl h0
  · exact ⟨false, 8, -3, by decide, by norm_num⟩
  · next h4 =>
    rw [if_neg h4]
    norm_num

/-- The scale of a block is chosen as R109 says. -/
theorem scaleChosen_blockCode (d : THdr) (ht : tyIsInt d.ty = false) (h0 : d.scl ≠ 0) (x : Nat → FVal) (b : Nat) :
    scaleChosen d x b (blockCode d.scl d.ty ((d.blockCells b).map x)) := by
  have hwithin : ∀ sc top, Within ((d.blockCells b).map x) sc top ↔ ∀ k ∈ d.blockCells b, ∀ y, (x k).realIs y → |y| ≤ sc * top := fun sc top => by
    simp [Within]
  obtain ⟨hlo, hhi⟩ := blockCode_bounds d.scl d.ty ((d.blockCells b).map x)
  refine ⟨hlo, hhi, fun hzero => ?_, fun k y top hk hy hne htop => ?_⟩
  · have he : finiteVals ((d.blockCells b).map x) = [] := by
      refine List.eq_nil_iff_forall_not_mem.2 fun v hv => ?_
      obtain ⟨hmem, y, hy, hne⟩ := mem_finiteVals.1 hv
      obtain ⟨k, hk, rfl⟩ := List.mem_map.1 hmem
      exact hne (hzero k hk y hy)
    rw [blockCode_of_empty _ _ he]
    exact codeScale_one h0
  · have he : finiteVals ((d.blockCells b).map x) ≠ [] := fun he => by
      have := mem_finiteVals.2 ⟨List.mem_map_of_mem hk, y, hy, hne⟩
      rw [he] at this
      cases this
    obtain ⟨hlo', hhi', hfit, hmin⟩ := leastCode_spec (codeFits d.scl d.ty ((d.blockCells b).map x)) (if d.scl = 4 then 1 else 0)
      (if d.scl = 4 then 0x7E else 255) (by split <;> omega)
    rw [← blockCode_of_ne_empty d.scl d.ty he] at hfit hmin
    have h4 : ∀ {c}, c ≤ (if d.scl = 4 then 0x7E else 254) → d.scl = 4 → c ≤ 0x7E := fun h hs => by rwa [if_pos hs] at h
    refine ⟨fun sc hsc => ?_, fun c' sc hlow hlt hsc hw => ?_⟩
    · refine hfit.imp (fun h => (hwithin sc top).1 ((codeFits_iff ht htop h0 (h4 hhi) hsc _).1 h)) fun h => h.trans ?_
      split <;> rfl
    · have hw := (codeFits_iff ht htop h0 (h4 (hlt.le.trans hhi)) hsc _).2 ((hwithin sc top).2 hw)
      rw [hmin c' hlow hlt] at hw
      cases hw

end Sys2Proof.Machine
end

section
/-!
PROOFS. `TCVT` (R88 to R90, R109).
-/
namespace Sys2Proof.Machine

/-! ## Narrowing element by element -/

/-- One element to narrow: its index, value, scaled value and sign bit. -/
structure NarrowIn where
  idx : Nat
  v : FVal
  scaled : FVal
  neg : Bool

def narrowNext (t : Ty) (cap : Nat) (r : Narrowed) (x : NarrowIn) : Narrowed := narrowStep t cap r x.idx x.v x.scaled x.neg

/-- The sign of an element that is saturated (R90). -/
def NarrowIn.sign (x : NarrowIn) : Bool := if x.v.isNaN then x.neg else x.v.neg

/-- An element's code c, given the entries so far: its rounding; or 0 with its entry; or the limit, where the list is full of earlier entries. -/
def NarrowIn.Narrows (t : Ty) (cap : Nat) (list : List (Nat × Nat)) (lost : Bool) (x : NarrowIn) (c : Nat) : Option Nat → Prop
  | some z => c = z ∧ ∀ e ∈ list, e.1 ≠ x.idx
  | none => (c = 0 ∧ ∃ e ∈ list, e.1 = x.idx ∧ entryHolds t x.v e.2)
    ∨ (list.length = cap ∧ lost = true ∧ (∀ e ∈ list, e.1 < x.idx) ∧ c = limitCode t x.sign)

/-- One step: the element's rounding, its entry, or its limit. -/
theorem narrowNext_cases (t : Ty) (cap : Nat) (r : Narrowed) (x : NarrowIn) :
    (∃ c, narrow t x.scaled = some c ∧ (narrowNext t cap r x).els = r.els ++ [c] ∧ (narrowNext t cap r x).list = r.list
      ∧ (narrowNext t cap r x).lost = r.lost)
    ∨ (narrow t x.scaled = none ∧ r.list.length < cap ∧ (narrowNext t cap r x).els = r.els ++ [0] ∧ (narrowNext t cap r x).lost = r.lost
      ∧ ∃ y, y < 2 ^ 32 ∧ entryHolds t x.v y ∧ (narrowNext t cap r x).list = r.list ++ [(x.idx, y)])
    ∨ (narrow t x.scaled = none ∧ cap ≤ r.list.length ∧ (narrowNext t cap r x).els = r.els ++ [limitCode t x.sign]
      ∧ (narrowNext t cap r x).list = r.list ∧ (narrowNext t cap r x).lost = true) := by
  obtain ⟨hsome, hnone⟩ := entryHolds_entryValue t x.v
  unfold narrowNext narrowStep
  cases hz : narrow t x.scaled with
  | some c => exact .inl ⟨c, rfl, rfl, rfl, rfl⟩
  | none =>
    right
    dsimp only
    by_cases hlen : r.list.length < cap
    · left
      rw [if_pos hlen]
      cases he : entryValue t x.v with
      | some y =>
        obtain ⟨hlt, hy⟩ := hsome y he
        exact ⟨rfl, hlen, rfl, rfl, y, hlt, hy, rfl⟩
      | none => exact ⟨rfl, hlen, rfl, rfl, _, BitVec.isLt _, hnone he _, rfl⟩
    · right
      rw [if_neg hlen]
      refine ⟨rfl, not_lt.1 hlen, ?_, rfl, rfl⟩
      unfold NarrowIn.sign
      cases x.v <;> rfl

/-- A narrowing of the elements so far. -/
structure Narrowing (t : Ty) (cap : Nat) (xs : List NarrowIn) (r : Narrowed) : Prop where
  length : r.els.length = xs.length
  full : r.list.length ≤ cap
  ascending : (r.list.map (·.1)).Pairwise (· < ·)
  indices : ∀ e ∈ r.list, ∃ x ∈ xs, e.1 = x.idx
  words : ∀ e ∈ r.list, e.2 < 2 ^ 32
  cells : ∀ (j : Nat) (x : NarrowIn), xs[j]? = some x → x.Narrows t cap r.list r.lost (r.els.getD j 0) (narrow t x.scaled)

/-- Entries of later elements and a later loss leave an element as it was narrowed. -/
theorem NarrowIn.Narrows.mono {t : Ty} {cap : Nat} {list : List (Nat × Nat)} {lost : Bool} {x : NarrowIn} {c : Nat} {z : Option Nat}
    (h : x.Narrows t cap list lost c z) {more : List (Nat × Nat)} {lost' : Bool} (hmore : ∀ e ∈ more, x.idx < e.1)
    (hlen : (list ++ more).length ≤ cap) (hlost : lost = true → lost' = true) : x.Narrows t cap (list ++ more) lost' c z := by
  cases z with
  | some z =>
    obtain ⟨hc, hno⟩ := h
    refine ⟨hc, fun e he => ?_⟩
    rcases List.mem_append.1 he with he | he
    · exact hno e he
    · exact (hmore e he).ne'
  | none =>
    rcases h with ⟨hc, e, he, hidx, hval⟩ | ⟨hfull, hl, hlt, hc⟩
    · exact .inl ⟨hc, e, List.mem_append_left _ he, hidx, hval⟩
    · obtain rfl : more = [] := by
        rw [List.length_append] at hlen
        exact List.eq_nil_of_length_eq_zero (by omega)
      exact .inr ⟨by simpa using hfull, hlost hl, by simpa using hlt, hc⟩

/-- One more element, with a greater index. -/
theorem Narrowing.next {t : Ty} {cap : Nat} {xs : List NarrowIn} {r : Narrowed} (h : Narrowing t cap xs r) {y : NarrowIn}
    (hy : ∀ x ∈ xs, x.idx < y.idx) : Narrowing t cap (xs ++ [y]) (narrowNext t cap r y) := by
  have hbefore : ∀ e ∈ r.list, e.1 < y.idx := fun e he => by
    obtain ⟨x, hx, heq⟩ := h.indices e he
    exact heq ▸ hy x hx
  obtain ⟨c, more, hels, hlist, hlost, hmore, hlen, hnew⟩ : ∃ c more, (narrowNext t cap r y).els = r.els ++ [c]
      ∧ (narrowNext t cap r y).list = r.list ++ more ∧ (r.lost = true → (narrowNext t cap r y).lost = true)
      ∧ (more = [] ∨ ∃ w, w < 2 ^ 32 ∧ more = [(y.idx, w)]) ∧ (r.list ++ more).length ≤ cap
      ∧ y.Narrows t cap (r.list ++ more) (narrowNext t cap r y).lost c (narrow t y.scaled) := by
    rcases narrowNext_cases t cap r y with ⟨c, hz, hels, hlist, hlost⟩ | ⟨hz, hlen, hels, hlost, w, hw, hval, hlist⟩ | ⟨hz, hlen, hels, hlist, hlost⟩
    · refine ⟨c, [], hels, by simpa using hlist, fun h => hlost.trans h, .inl rfl, by simpa using h.full, ?_⟩
      rw [hz, List.append_nil]
      exact ⟨rfl, fun e he => (hbefore e he).ne⟩
    · refine ⟨0, [(y.idx, w)], hels, hlist, fun h => hlost.trans h, .inr ⟨w, hw, rfl⟩, by simpa using hlen, ?_⟩
      rw [hz]
      exact .inl ⟨rfl, _, List.mem_append_right _ (List.mem_singleton_self _), rfl, hval⟩
    · refine ⟨_, [], hels, by simpa using hlist, fun _ => hlost, .inl rfl, by simpa using h.full, ?_⟩
      rw [hz, List.append_nil]
      exact .inr ⟨le_antisymm h.full hlen, hlost, hbefore, rfl⟩
  have hmoreIdx : ∀ e ∈ more, e.1 = y.idx ∧ e.2 < 2 ^ 32 := fun e he => by
    rcases hmore with rfl | ⟨w, hw, rfl⟩
    · cases he
    · obtain rfl := List.mem_singleton.1 he
      exact ⟨rfl, hw⟩
  refine ⟨by simp [hels, h.length], hlist ▸ hlen, ?_, ?_, ?_, ?_⟩
  · rw [hlist, List.map_append, List.pairwise_append]
    refine ⟨h.ascending, by rcases hmore with rfl | ⟨w, -, rfl⟩ <;> simp, fun a ha b hb => ?_⟩
    obtain ⟨e, he, rfl⟩ := List.mem_map.1 ha
    obtain ⟨e', he', rfl⟩ := List.mem_map.1 hb
    exact (hmoreIdx e' he').1 ▸ hbefore e he
  · intro e he
    rw [hlist] at he
    rcases List.mem_append.1 he with he | he
    · obtain ⟨x, hx, heq⟩ := h.indices e he
      exact ⟨x, List.mem_append_left _ hx, heq⟩
    · exact ⟨y, by simp, (hmoreIdx e he).1⟩
  · intro e he
    rw [hlist] at he
    exact (List.mem_append.1 he).elim (h.words e) fun he => (hmoreIdx e he).2
  · intro j x hx
    rw [hels, hlist]
    rcases lt_trichotomy j xs.length with hj | rfl | hj
    · rw [List.getElem?_append_left hj] at hx
      rw [List.getD_append _ _ _ _ (h.length ▸ hj)]
      refine (h.cells j x hx).mono (fun e he => (hmoreIdx e he).1 ▸ hy x (List.mem_of_getElem? hx)) hlen hlost
    · rw [List.getElem?_concat_length] at hx
      obtain rfl := Option.some.inj hx
      rw [← h.length, List.getD_append_right _ _ _ _ le_rfl, Nat.sub_self]
      exact hnew
    · rw [List.getElem?_eq_none (by simp; omega)] at hx
      cases hx

/-- All elements, in ascending order of their indices. -/
theorem narrowing_foldl (t : Ty) (cap : Nat) (xs : List NarrowIn) (hxs : (xs.map (·.idx)).Pairwise (· < ·)) (r0 : Narrowed) (hels : r0.els = [])
    (hlist : r0.list = []) : Narrowing t cap xs (xs.foldl (narrowNext t cap) r0) := by
  induction xs using List.reverseRecOn with
  | nil => exact ⟨by simp [hels], by simp [hlist], by simp [hlist], by simp [hlist], by simp [hlist], by simp⟩
  | append_singleton xs y ih =>
    rw [List.map_append, List.pairwise_append] at hxs
    obtain ⟨hxs, -, hlt⟩ := hxs
    rw [List.foldl_append]
    exact (ih hxs).next fun x hx => hlt _ (List.mem_map_of_mem hx) _ (by simp)

/-! ## The elements of a matrix in row-major order -/

theorem THdr.cells_eq (d : THdr) : d.cells = (upTo (2 ^ d.rows * 2 ^ d.cols)).map (fun j => (j / 2 ^ d.cols, j % 2 ^ d.cols)) := by
  have hC := Nat.two_pow_pos d.cols
  unfold THdr.cells upTo
  generalize 2 ^ d.cols = C at hC
  induction 2 ^ d.rows with
  | zero => simp
  | succ R ih =>
    rw [List.range_succ, List.map_append, List.flatten_append, ih, Nat.succ_mul, List.range_add, List.map_append, List.map_map]
    congr 1
    simp only [List.map_cons, List.map_nil, List.flatten_cons, List.flatten_nil, List.append_nil]
    refine List.map_congr_left fun c hc => ?_
    have hc := List.mem_range.1 hc
    simp only [Function.comp, Nat.mul_comm R C, Nat.mul_add_div hC, Nat.div_eq_of_lt hc, Nat.mul_add_mod, Nat.mod_eq_of_lt hc, Nat.add_zero]

/-- The number of an element in row-major order. -/
def THdr.index (d : THdr) (rc : Nat × Nat) : Nat := rc.1 * 2 ^ d.cols + rc.2

theorem THdr.index_lt {d : THdr} {row col : Nat} (hr : row < 2 ^ d.rows) (hc : col < 2 ^ d.cols) :
    d.index (row, col) < 2 ^ d.rows * 2 ^ d.cols :=
  calc row * 2 ^ d.cols + col < (row + 1) * 2 ^ d.cols := by rw [Nat.succ_mul]; omega
    _ ≤ 2 ^ d.rows * 2 ^ d.cols := Nat.mul_le_mul_right _ hr

theorem THdr.map_index_cells (d : THdr) : d.cells.map d.index = upTo (2 ^ d.rows * 2 ^ d.cols) := by
  rw [d.cells_eq, List.map_map]
  refine (List.map_congr_left fun j _ => ?_).trans (List.map_id _)
  simp only [Function.comp, THdr.index, id]
  rw [Nat.mul_comm]
  exact Nat.div_add_mod j _

theorem THdr.getElem?_cells {d : THdr} {row col : Nat} (hr : row < 2 ^ d.rows) (hc : col < 2 ^ d.cols) :
    d.cells[d.index (row, col)]? = some (row, col) := by
  have hC := Nat.two_pow_pos d.cols
  have hidx : d.index (row, col) = 2 ^ d.cols * row + col := by rw [THdr.index, Nat.mul_comm]
  rw [d.cells_eq, List.getElem?_map, upTo, List.getElem?_range (THdr.index_lt hr hc), hidx]
  simp only [Option.map_some, Nat.mul_add_div hC, Nat.div_eq_of_lt hc, Nat.mul_add_mod, Nat.mod_eq_of_lt hc, Nat.add_zero]

/-! ## What `TCVT` writes -/

section
variable (d : THdr) (f : Frag)

/-- The scale codes of each thread. -/
def tcvtCodes (i : Nat) : List Nat := (d.holders.map (tcvtScales d f)).getD i []

/-- An element to narrow. -/
def tcvtIn (rc : Nat × Nat) : NarrowIn where
  idx := d.index rc
  v := f.elem rc.1 rc.2
  scaled := scaledBy d (tcvtCodes d f (d.at_ rc.1 rc.2).1) (d.at_ rc.1 rc.2).2 (f.elem rc.1 rc.2)
  neg := f.signBit rc.1 rc.2

/-- The narrowing of the matrix. -/
def tcvtNarrowed (fresh : Nat) : Narrowed :=
  (d.cells.map (tcvtIn d f)).foldl (narrowNext d.ty d.cap) { els := [], list := [], lost := false, fresh := fresh }

/-- The elements of a thread's run. -/
def tcvtEls (r : Narrowed) (i : Nat) : List Nat := (upTo d.run).map (fun k => r.els.getD (d.index (d.cell i k)) 0)

/-- The header with the entries that the list has. -/
def tcvtOut (r : Narrowed) : THdr := { d with ocnt := r.list.length, olost := d.olost || r.lost }

theorem tcvtNarrowed_narrowing (fresh : Nat) : Narrowing d.ty d.cap (d.cells.map (tcvtIn d f)) (tcvtNarrowed d f fresh) := by
  refine narrowing_foldl d.ty d.cap _ ?_ _ rfl rfl
  rw [List.map_map, show NarrowIn.idx ∘ tcvtIn d f = d.index from rfl, d.map_index_cells]
  exact List.pairwise_lt_range

end

section
variable {h : Hdr} {hd ha : BitVec 4} {s : State} {p : Nat} {g : Group}

theorem exec_tcvt (hi : s.Issues p g (.tcvt h hd ha) []) (hsrc : srcOk g ha false) (hok : headerOk (g.getH hd.toNat) = true)
    (hfrag : fragOk g (tcvtHdr (g.thdr hd) (g.thdr ha)) false) (hres : (g.thdr ha).ty ≠ .res48) (hres' : (g.thdr hd).ty ≠ .res48)
    (hspa : (g.thdr hd).spa ≠ 1) {d : THdr} (hd' : d = tcvtHdr (g.thdr hd) (g.thdr ha)) {f : Frag} (hf : f = g.frag (g.thdr ha)) {r : Narrowed}
    (hr : r = tcvtNarrowed d f s.fresh) :
    exec (.tcvt h hd ha) s = .next (s.tiled p g h hd (tcvtOut d r).word (fragWrites (tcvtOut d r) (tcvtEls d r) (tcvtCodes d f) r.list)
      (r.fresh - s.fresh)) := by
  subst hd' hf
  show execTcvt h hd ha s = _
  have hshape : ((g.thdr ha).ty == .res48 || (g.thdr hd).ty == .res48 || (g.thdr hd).spa == 1) = false := by simp [hres, hres', hspa]
  refine tileWord_of_ok h hd hi ?_ ?_
  · dsimp only
    rw [badSource_eq_nil hsrc, badDest_eq_nil hok hfrag, hshape]
    rfl
  · rw [tcvtNarrowed, List.foldl_map] at hr
    subst hr
    rfl

end

/-! ## What was written, read back -/

section
variable {d : THdr} {f : Frag} {g : Group} {fresh : Nat} {r : Narrowed} {out : Frag} {row col : Nat}

theorem THdr.exists_holders_eq (d : THdr) : ∃ n, d.holders = upTo n := by
  unfold THdr.holders
  split
  · exact ⟨_, rfl⟩
  · exact ⟨32, rfl⟩

theorem THdr.hasList_of_cap {d : THdr} (hspa : d.spa = if d.ocap = 0 then 0 else 2) (hcap : d.cap ≠ 0) : d.hasList = true := by
  have h0 : d.ocap ≠ 0 := fun h0 => hcap (by simp [THdr.cap, h0])
  simp [THdr.hasList, hspa, h0, Nat.pos_of_ne_zero hcap]

theorem tcvt_index_lt (hsize : d.rows < 16 ∧ d.cols < 16) {x : NarrowIn} (hx : x ∈ d.cells.map (tcvtIn d f)) : x.idx < 2 ^ 32 := by
  obtain ⟨rc, hrc, rfl⟩ := List.mem_map.1 hx
  have hidx : d.index rc ∈ d.cells.map d.index := List.mem_map_of_mem hrc
  rw [d.map_index_cells, upTo, List.mem_range, ← pow_add] at hidx
  exact hidx.trans_le (Nat.pow_le_pow_right (by norm_num) (by omega))

section
variable (hg : g.v.wf = true) (hf : d.fits = true) (hside : d.sideOk = true) (hspa : d.spa = if d.ocap = 0 then 0 else 2)
  (hsize : d.rows < 16 ∧ d.cols < 16) (ha : d.apart) (hr : r = tcvtNarrowed d f fresh)
  (hout : out = (g.wrs (fragWrites (tcvtOut d r) (tcvtEls d r) (tcvtCodes d f) r.list)).frag (tcvtOut d r))

include hr in
theorem tcvt_narrowing : Narrowing d.ty d.cap (d.cells.map (tcvtIn d f)) r := hr ▸ tcvtNarrowed_narrowing d f fresh

include hside hr in
theorem tcvt_length_list : r.list.length ≤ 32 := (tcvt_narrowing hr).full.trans (d.cap_le hside)

include hg hf hside hspa hsize ha hr hout in
theorem tcvt_list : out.list = r.list := by
  have hn := tcvt_narrowing hr
  by_cases hl : d.hasList = true
  · have hread := list_fragWrites (d := tcvtOut d r) (els := tcvtEls d r) (codes := tcvtCodes d f) hg hf (tcvt_length_list hside hr) ha hl rfl
    rw [hout, hread]
    refine (List.map_congr_left fun e he => ?_).trans (List.map_id _)
    obtain ⟨x, hx, hidx⟩ := hn.indices e he
    rw [Nat.mod_eq_of_lt (hidx ▸ tcvt_index_lt hsize hx), Nat.mod_eq_of_lt (hn.words e he)]
    rfl
  · have hcap : d.cap = 0 := by
      by_contra h0
      exact hl (THdr.hasList_of_cap hspa h0)
    have hnil : r.list = [] := List.eq_nil_of_length_eq_zero (by have := hn.full; omega)
    rw [hnil, hout, Frag.list]
    exact if_neg hl

include hg hf hside hspa ha hr hout in
theorem tcvt_cell (hrow : row < 2 ^ d.rows) (hcol : col < 2 ^ d.cols) : cellRaw out row col = r.els.getD (d.index (row, col)) 0 % 2 ^ d.width := by
  have hs : d.spa ≠ 1 := by
    rw [hspa]
    split <;> omega
  have hk : (d.at_ row col).2 < d.run := (THdr.at_mem hf hrow hcol).2
  have hread := cellRaw_fragWrites (d := tcvtOut d r) (els := tcvtEls d r) (codes := tcvtCodes d f) hg hf hs (tcvt_length_list hside hr) ha hrow hcol
  rw [hout, hread]
  show (tcvtEls d r (d.at_ row col).1).getD (d.at_ row col).2 0 % 2 ^ d.width = _
  rw [tcvtEls, getD_map_upTo _ _ hk, THdr.cell_at]

theorem tcvtCodes_getD {i b : Nat} (hi : i ∈ d.holders) (hb : b < d.scaleBytes) (x : Nat) : (tcvtCodes d f i).getD b x
    = blockCode d.scl d.ty ((d.blockCells b).map (fun k => f.elem (d.cell i k).1 (d.cell i k).2)) := by
  have hscales : tcvtCodes d f i = tcvtScales d f i := by
    obtain ⟨n, hn⟩ := d.exists_holders_eq
    rw [hn] at hi
    rw [tcvtCodes, hn, getD_map_upTo _ _ (List.mem_range.1 hi)]
  rw [hscales]
  exact getD_map_upTo _ _ hb

include hg hf hside ha hr hout in
theorem tcvt_scaleByte {i b : Nat} (hi : i ∈ d.holders) (hb : b < d.scaleBytes) : out.scaleByte i b
    = blockCode d.scl d.ty ((d.blockCells b).map (fun k => f.elem (d.cell i k).1 (d.cell i k).2)) := by
  have hread := scaleByte_fragWrites (d := tcvtOut d r) (els := tcvtEls d r) (codes := tcvtCodes d f) hg hf (tcvt_length_list hside hr) ha hi hb
  rw [hout, hread, tcvtCodes_getD hi hb]
  refine Nat.mod_eq_of_lt ((blockCode_bounds _ _ _).2.trans_lt ?_)
  split <;> omega

include hg hf hside ha hr hout in
/-- The scales are chosen as R109 says. -/
theorem tcvt_scaleChosen (hint : tyIsInt d.ty = true → d.scl = 0) {i b : Nat} (hi : i ∈ d.holders) (hb : b < d.scaleBytes) :
    scaleChosen (tcvtOut d r) (fun k => f.elem (d.cell i k).1 (d.cell i k).2) b (out.scaleByte i b) := by
  have h0 : d.scl ≠ 0 := fun h0 => by simp [THdr.scaleBytes, h0] at hb
  have ht : tyIsInt d.ty = false := by
    rw [← Bool.not_eq_true]
    exact fun ht => h0 (hint ht)
  rw [tcvt_scaleByte hg hf hside ha hr hout hi hb]
  exact scaleChosen_blockCode (tcvtOut d r) ht h0 (fun k => f.elem (d.cell i k).1 (d.cell i k).2) b

include hg hf hside ha hr hout in
/-- The scaled value of an element, by the scale that was written for its block. -/
theorem tcvt_scaled {res : Bool} (hcons : d.consistent res = true) (h4 : d.scl ≤ 4) (hrow : row < 2 ^ d.rows) (hcol : col < 2 ^ d.cols) :
    (tcvtIn d f (row, col)).scaled = scaleDown d.scl (out.scaleByte (d.at_ row col).1 (d.blockAt (d.at_ row col).2)) (f.elem row col) := by
  obtain ⟨hi, hk⟩ := THdr.at_mem hf hrow hcol
  show scaledBy d (tcvtCodes d f (d.at_ row col).1) (d.at_ row col).2 (f.elem row col) = _
  by_cases h0 : d.scl = 0
  · rw [scaledBy, h0]
    rfl
  have hb := THdr.blockAt_lt hcons h0 h4 hk
  have hread := fun x => (tcvtCodes_getD (f := f) hi hb x).trans (tcvt_scaleByte hg hf hside ha hr hout hi hb).symm
  rw [scaledBy]
  congr 1
  by_cases hs : d.scl = 4
  · have hblock : (d.at_ row col).2 / 16 = d.blockAt (d.at_ row col).2 := by simp [THdr.blockAt, THdr.block, hs]
    rw [if_pos hs, hblock, hread]
  · rw [if_neg hs]
    exact hread 127

include hg hf hside hspa hsize ha hr hout in
/-- Each element is narrowed by its scale. -/
theorem tcvt_narrowedCell {res : Bool} (hcons : d.consistent res = true) (h4 : d.scl ≤ 4) (hint : tyIsInt d.ty = true → d.scl = 0)
    (hrow : row < 2 ^ d.rows) (hcol : col < 2 ^ d.cols) {sc : ℝ}
    (hsc : codeScale d.scl (out.scaleByte (d.at_ row col).1 (d.blockAt (d.at_ row col).2)) sc) :
    ∃ z, narrowsTo d.ty (f.elem row col) sc z
      ∧ narrowedCell (tcvtOut d r) out r.lost row col (f.elem row col) (f.signBit row col) z := by
  have hscaled := tcvt_scaled hg hf hside ha hr hout hcons h4 hrow hcol
  have hcell := (tcvt_narrowing hr).cells (d.index (row, col)) (tcvtIn d f (row, col)) (by rw [List.getElem?_map, THdr.getElem?_cells hrow hcol]; rfl)
  rw [hscaled] at hcell
  refine ⟨_, narrowsTo_narrow (f.elem row col) hint (fun hs => ?_) hsc, ?_⟩
  · obtain ⟨hi, hk⟩ := THdr.at_mem hf hrow hcol
    have h0 : d.scl ≠ 0 := by omega
    have hbounds := blockCode_bounds d.scl d.ty
      ((d.blockCells (d.blockAt (d.at_ row col).2)).map (fun k => f.elem (d.cell (d.at_ row col).1 k).1 (d.cell (d.at_ row col).1 k).2))
    rw [tcvt_scaleByte hg hf hside ha hr hout hi (THdr.blockAt_lt hcons h0 h4 hk)]
    simpa [hs] using hbounds
  · have hlist := tcvt_list hg hf hside hspa hsize ha hr hout
    have hraw := tcvt_cell hg hf hside hspa ha hr hout hrow hcol
    generalize narrow d.ty _ = z at hcell
    unfold narrowedCell
    cases z with
    | some c =>
      obtain ⟨hc, hno⟩ := hcell
      rw [hlist, hraw, hc]
      exact ⟨rfl, hno⟩
    | none =>
      rcases hcell with ⟨hc, hentry⟩ | ⟨hfull, hlost, hlt, hc⟩
      · refine .inl ⟨?_, hlist ▸ hentry⟩
        rw [hraw, hc, Nat.zero_mod]
      · refine .inr ⟨?_, hlost, hlist ▸ hlt, ?_⟩
        · rw [hout]
          exact hfull
        · rw [hraw, hc]
          rfl

end

end

theorem THdr.of_size (x : Header) : (THdr.of x).rows < 16 ∧ (THdr.of x).cols < 16 :=
  ⟨Nat.mod_lt _ (by norm_num), Nat.mod_lt _ (by norm_num)⟩

theorem THdr.scl_of_int {d : THdr} {res : Bool} (hc : d.consistent res = true) (ht : tyIsInt d.ty = true) : d.scl = 0 := by
  simp [THdr.consistent, ht] at hc
  exact hc.1.1.2

/-- Settles O24: the narrowing of the elements in row-major order, read back from the registers that `TCVT` writes. -/
theorem tileConvert : Obligations.TileConvert := by
  unfold Obligations.TileConvert
  intro h hd ha s p g hi hg hsrc hok hfrag hres hres' hspa
  obtain ⟨hcons, -, hfits, hside, -⟩ := id hfrag
  generalize hd' : tcvtHdr (g.thdr hd) (g.thdr ha) = d at *
  obtain ⟨r, hr⟩ : ∃ r, r = tcvtNarrowed d (g.frag (g.thdr ha)) s.fresh := ⟨_, rfl⟩
  have hsize : d.rows < 16 ∧ d.cols < 16 := hd' ▸ THdr.of_size (g.getH ha.toNat)
  have hlist : d.spa = if d.ocap = 0 then 0 else 2 := by rw [← hd']; rfl
  have hscl : d.scl ≤ 4 := hd' ▸ headerOk_scl hok
  have hlost : (g.thdr ha).olost = d.olost := by rw [← hd']; rfl
  have hint : tyIsInt d.ty = true → d.scl = 0 := THdr.scl_of_int hcons
  have hn := tcvt_narrowing hr
  refine ⟨_, tcvtOut d r, _, exec_tcvt hi hsrc hok (hd' ▸ hfrag) hres hres' hspa hd'.symm rfl hr,
    onlyFrag_fragWrites (d := tcvtOut d r) hfits (tcvt_length_list hside hr), r.list.length, r.lost, by rw [hlost]; rfl, hn.full, fun hapart => ?_⟩
  refine ⟨?_, fun i b hi hb => tcvt_scaleChosen hg hfits hside hapart hr rfl hint hi hb,
    fun row col hrow hcol sc hsc => tcvt_narrowedCell hg hfits hside hlist hsize hapart hr rfl hcons hscl hint hrow hcol hsc⟩
  rw [tcvt_list hg hfits hside hlist hsize hapart hr rfl]
  exact hn.ascending

end Sys2Proof.Machine
end
